-- ==== Sys2Proof/Word.lean ====
section
/-! DEFINITION. The word types of the formatter's host-visible structures and their plainest arithmetic. -/

namespace Sys2Proof

/-- A byte. Bytes are numbered from 0 at the lowest address (R8). -/
abbrev Byte := BitVec 8

/-- A 32-bit register, the unit of a register access (R31). -/
abbrev Word := BitVec 32

/-- A 64-bit register pair (R44). -/
abbrev DWord := BitVec 64

end Sys2Proof
end

