-- ==== Sys2Proof/Syntax.lean ====
section
/-! DEFINITION. The commands and events of the formatter: one constructor per row of the opcode table, with
the operands the rule of that row names. The table gives no bits to any row (see Decode). -/

namespace Sys2Proof

/-- A host port (R13: requester 0 is port A, requester 1 is port B). -/
inductive Port where
  | a
  | b
  deriving DecidableEq, Repr

/-- A flit as the receiver of a link has it after FEC (R335, R341): its bytes, whether its codeword was uncorrectable, and the symbols
corrected and the uncorrectable codewords met on the lanes since the flit before it (R368). -/
structure LinkFlit where
  bytes : List Byte
  lost : Bool := false
  corrected : Nat := 0
  uncorrectable : Nat := 0
  deriving DecidableEq, Repr

/-- What declares a lane failed (R355): the markers of 4 consecutive frames, a PMA without lock, the uncorrectable codewords of 100 µs, or two
consecutive markers from the bridge that show RX_GOOD. -/
inductive LaneFault where
  | markers (found : List (List Byte))
  | pma
  | fec (uncorrectable : Nat)
  | rxGood (earlier later : List Byte)
  deriving DecidableEq, Repr

/-- A master: port A, port B or the management core (R13, R46). -/
inductive Master where
  | portA
  | portB
  | mgmt
  deriving DecidableEq, Repr

/-- The two codes the formatter is ordered in (R5). -/
inductive OrderCode where
  | kxf64A
  | kxf32A
  deriving DecidableEq, Repr

/-- A register page with the common header (R29, R33). -/
inductive PageId where
  | dev
  | sem
  | pwr
  | tim
  | mgt
  | fwu
  | nva
  | log
  | pool
  | mem
  | key
  | hp (p : Port)
  | loopG
  | link (n : Fin 16)
  | fmt (n : Fin 16)
  | ciph (n : Fin 16)
  | servo (n : Fin 16)
  | cdc (n : Fin 16)
  deriving DecidableEq, Repr

/-- What resets a port (R153, R88). -/
inductive ResetKind where
  | hot
  | linkDown
  | flr
  | perst
  deriving DecidableEq, Repr

/-- The alarm sources that have a live state (R259, `KEY.ALARM_LIVE`). -/
inductive AlarmSrc where
  | tamper0
  | tamper1
  | cover
  | overtemp
  | rail
  deriving DecidableEq, Repr

/-- The three descriptor queues of the NV array controller (R458). -/
inductive NvQueue where
  | a
  | b
  | mgmt
  deriving DecidableEq, Repr

/-- What an outstanding DMA read of the formatter serves (R107, R111, R458). -/
inductive DmaTarget where
  | recordList (cid : Nat)
  | scatter (cid : Nat)
  | descriptor (q : Port)
  deriving DecidableEq, Repr

/-- Where an update step request comes from (R473, R481): an FSP datagram or a write of `FWU.STEP`. -/
inductive StepSource where
  | fsp (dg : List Byte)
  | register (m : Master)
  deriving DecidableEq, Repr

/-- What the scrubber met in block `blk` of the row it read: the stored word as read (data and check word) and
whether the block passed the read-back test of R173. Blocks that are not listed were clean. -/
structure ScrubFinding where
  blk : Nat
  data : List Byte
  check : Word
  readBackOk : Bool
  deriving DecidableEq, Repr

/-- What a word of an on-die SRAM belongs to (R167, R175). -/
inductive SramUnit where
  | frame (n : Fin 16)
  | ingest (n : Fin 16) (region : Nat)
  | tcm
  | other
  deriving DecidableEq, Repr

/-- What the crossword check of a word found (R164). -/
inductive SramKind where
  | corrected
  | checkRepaired
  | uncorrectable
  deriving DecidableEq, Repr

/-- A fault that a command met in an on-die SRAM (R167): the number of the macro, the word, what the check found, whether the word
failed the read-back test too (R173), and what the word belongs to. -/
structure SramFault where
  chip : BitVec 16
  word : BitVec 20
  kind : SramKind
  hard : Bool
  part : SramUnit := .other
  deriving DecidableEq, Repr

/-- What a register read addresses (R29, R87). -/
inductive ReadAt where
  | bar0 (addr : BitVec 22)
  | bar2 (off : BitVec 32)
  | bar4 (off : BitVec 19)
  deriving DecidableEq, Repr

/-- What an allocation names: a pool by its number (R184), or, for the management core alone, a size in bytes (R183). -/
inductive PoolWant where
  | pool (p : BitVec 3)
  | size (bytes : Nat)
  deriving DecidableEq, Repr

/-- The commands and events, one per row of the opcode table. -/
inductive Instr where
  /-- R43. A write to a register field that has no row of its own is applied according to its access type, guard and lock rules.
  `more` holds the dwords of a longer TLP after the first (R31). -/
  | registerWrite (m : Master) (addr : BitVec 22) (be : BitVec 4) (v : Word) (more : List (BitVec 4 × Word))
  /-- R45. A write of the LO half of a 64-bit register replaces the writing master's pending LO value. -/
  | writeLo (m : Master) (addr : BitVec 22) (v : Word)
  /-- R45. A write of the HI half applies bits 63:32 of the register, together with the pending LO value where that value names the same register. -/
  | writeHi (m : Master) (addr : BitVec 22) (v : Word)
  /-- R44. A read of the LO half of a 64-bit pair returns bits 31:0 and copies bits 63:32 into the reading master's HI shadow.
  Every other read of a register, and of BAR 2 and BAR 4 (R87), has this form too: of `1 + more` dwords from `src` on (R31); `sram` is
  what an SRAM behind it reported (R166). -/
  | readLo (m : Master) (src : ReadAt) (more : Fin 1024) (sram : Option SramFault)
  /-- R48. Writing 1 to CTRL.ENABLE runs the page's enable check, which either enables the page or records the failure reason. -/
  | enable (m : Master) (pg : PageId)
  /-- R54. Writing 0 to CTRL.ENABLE starts a drain, or is refused while a page that depends on this one is enabled. -/
  | disable (m : Master) (pg : PageId)
  /-- R55. Writing 1 to CTRL.ABORT disables the block and completes its work in flight with class ABORTED. -/
  | abort (m : Master) (pg : PageId)
  /-- R54. When the last work in flight of a draining block completes, ENABLED and DRAINING clear and DRAINED is set. -/
  | drainEnd (pg : PageId)
  /-- R58. Writing 1 to CTRL.CLR_COUNTERS clears every statistics counter of the page and every COUNTER_SAT bit. -/
  | clrCounters (m : Master) (pg : PageId)
  /-- R61. Writing 1 to a port's EVT_REARM re-arms event interrupts, and a message is sent at once if a selected page is still pending. -/
  | evtRearm (m : Master) (p : Port)
  /-- R64. A write to DEV.TRANSPORT_OWNER changes each owner field whose transport semaphore is free or held by the writer, and sets OWNER_BUSY for the others. -/
  | transportOwnerWrite (m : Master) (v : Word)
  /-- R81. Writing 1 to a bit of DEV.PORT_THAW thaws that master, and the capsules held in its inboxes take new acceptance sequences. -/
  | portThaw (m : Master) (v : Word)
  /-- R69. A read of SEM.LOCK[n] grants or renews the semaphore, or refuses it, and returns the token or 0. -/
  | semLockRead (m : Master) (k : Fin 32)
  /-- R70. A write of the current token to SEM.LOCK[n] by the holder releases the semaphore; any other write gives BAD_TOKEN. -/
  | semLockWrite (m : Master) (k : Fin 32) (v : Word)
  /-- R71. A write of SEM.LEASE[n] by the holder sets the lease of the current hold and restarts it. -/
  | semLeaseWrite (m : Master) (k : Fin 32) (v : Word)
  /-- R74. Expiry of a semaphore's lease releases the semaphore by force. -/
  | leaseExpiry (k : Fin 32)
  /-- R155. A hot reset, link down, Function Level Reset or PERST_N assertion returns the port's page group to its reset values and ends or loses its commands. -/
  | portReset (p : Port) (kind : ResetKind)
  /-- R399. Deassertion of a port's PERST_N lets that port's link begin training. -/
  | perstNDeassert (p : Port)
  /-- R506. A transition of the port function from D3hot to D0 has the effect of a port reset. -/
  | d3hotToD0 (p : Port)
  /-- R23. Loss of a port's 100 MHz reference takes down that port's link as a link down. -/
  | refclkLoss (p : Port)
  /-- R23. Stopping of the TCXO causes a device reset and asserts ALARM_N, and the formatter stays in reset until the TCXO runs again. -/
  | tcxoLoss
  /-- R23. When the TCXO runs again, the formatter leaves reset and the start sequence runs. -/
  | tcxoResume
  /-- R98. A 64-byte capsule write enters the SQ inbox and takes the next acceptance sequence of its volume, or is a violation. -/
  | capsuleWrite (p : Port) (off : BitVec 19) (bytes : List Byte)
  /-- R509. The oldest capsule of an SQ leaves the inbox at its turn, and the start conditions are tested in order. -/
  | commandStart (p : Port) (q : Fin 64) (sram : Option SramFault)
  /-- R106. The WRITE command cuts its records into segments and writes them at its turn, truncating the volume where its LBN is below end of data. -/
  | write (cid : Nat)
  /-- R112. The READ command delivers whole records into the scatter list and their lengths into RLIST until a stop condition is met. -/
  | read (cid : Nat)
  /-- R113. The WRITE_MARK command writes COUNT filemarks at its LBN. -/
  | writeMark (cid : Nat)
  /-- R113. The LOCATE command positions the volume at an LBN or at end of data. -/
  | locate (cid : Nat)
  /-- R113. The SPACE command moves the position by a signed count of records or filemarks. -/
  | space (cid : Nat)
  /-- R137. The FLUSH command completes when every write-type command accepted before it on the volume is Mapped. -/
  | flush (cid : Nat)
  /-- R114. The READ_POSITION command writes the volume's 64-byte position report to host memory by DMA. -/
  | readPosition (cid : Nat)
  /-- R115. The MOUNT command threads the tape if needed, reads the volume map, scans when the last map is open, and positions at LBN 0. -/
  | mount (cid : Nat)
  /-- R115. The UNMOUNT command writes end of data and a clean map, then unthreads or rewinds. -/
  | unmount (cid : Nat)
  /-- R272. The FORMAT command writes the partition table, a HEADER data set, a map and a provisional parity on every partition. -/
  | format (cid : Nat)
  /-- R113. The SET_EOD command sets a new end of data at or below the current one. -/
  | setEod (cid : Nat)
  /-- R117. The CODEC_JOB command runs one compression or decompression job on pool slots that the port holds. -/
  | codecJob (cid : Nat)
  /-- R118. The GET_LOG command copies error-log or event-log entries to host memory. `sram` names an entry of the
  error log, by its place among those asked for, whose SRAM reported a fault (R167). -/
  | getLog (cid : Nat) (sram : Option (Nat × SramFault))
  /-- R116. The SET_VOLUME_PARAMS command sets the key binding, method, level, mode, hint and stride for later commands of the volume. -/
  | setVolumeParams (cid : Nat)
  /-- R119. The ACTIVATE_FIRMWARE command requests activation of the verified inactive image, now or at a given TAI time. -/
  | activateFirmware (cid : Nat)
  /-- R195. A waiting segment is admitted once its reservation fits the usable share and its slots are available. -/
  | segmentAdmit (n : Fin 16)
  /-- R109. An admitted segment is placed in the data window once a range fits, and its XFER_RDY entry is posted. -/
  | xferRdyPost (p : Port) (q : Fin 64)
  /-- R109. A posted write to a data window stores segment bytes within open ranges and drops any part that falls outside them. -/
  | dataWindowWrite (p : Port) (off : BitVec 32) (bytes : List Byte)
  /-- R110. Expiry of the transfer timeout of an open segment completes the command with TRANSFER_TIMEOUT and frees its reservation. -/
  | transferTimeout (cid : Nat)
  /-- R507. A failed DMA read of a record-length list or a scatter-list entry completes the command with INVALID_FIELD at byte 24. -/
  | dmaReadFailure (tgt : DmaTarget)
  /-- R122. A completion queue entry that waited for a free entry is posted once the host frees one. -/
  | cqPost (p : Port) (c : Fin 64)
  /-- R122. A write of CQ[c].HEAD frees consumed entries, or is ignored with BAD_DOORBELL when the value is invalid. -/
  | cqHeadWrite (m : Master) (p : Port) (c : Fin 64) (v : Word)
  /-- R125. Expiry of a CQ's coalescing time sends an MSI-X message for the counted entries. -/
  | coalTimeExpiry (p : Port) (c : Fin 64)
  /-- R95. Writing 1 to SQ[q].CTRL.ENABLE runs the SQ enable check. -/
  | sqEnable (m : Master) (p : Port) (q : Fin 64)
  /-- R97. Writing 0 to SQ[q].CTRL.ENABLE drains the SQ and completes the capsules in its inbox with DISABLED. -/
  | sqDisable (m : Master) (p : Port) (q : Fin 64)
  /-- R93. Writing 1 to SQ[q].CTRL.ABORT disables the SQ and completes its started commands with SQ_ABORT. -/
  | sqAbort (m : Master) (p : Port) (q : Fin 64)
  /-- R95. Writing 1 to CQ[c].CTRL.ENABLE runs the CQ enable check and resets HEAD, TAIL and PHASE. -/
  | cqEnable (m : Master) (p : Port) (c : Fin 64) (ien : Bool)
  /-- R95. Writing 0 to CQ[c].CTRL.ENABLE disables the CQ, or is refused while an enabled SQ names it. -/
  | cqDisable (m : Master) (p : Port) (c : Fin 64) (ien : Bool)
  /-- R150. Writing RESUME to a frozen SQ clears FROZEN and gives its held capsules new acceptance sequences. -/
  | resume (m : Master) (p : Port) (q : Fin 64)
  /-- R151. Writing DISCARD to a frozen SQ completes every capsule in its inbox with DISCARDED, then clears FROZEN. -/
  | discard (m : Master) (p : Port) (q : Fin 64)
  /-- R149. A read of an error-log window entry returns the entry and marks it as read. -/
  | errlogWindowRead (m : Master) (p : Port) (i : Fin 256) (w : Fin 16) (sram : Option SramFault)
  /-- R171. In an idle channel cycle, the scrubber reads one row and corrects or repairs its blocks in place. -/
  | scrubRow (ch : Fin 32) (found : List ScrubFinding)
  /-- R170. The zero fill of a slot granted to a master ends, and window accesses and codec jobs held back for it proceed. -/
  | slotFillDone (addr : Nat)
  /-- R511. The ALLOC pool operation grants the lowest FREE general slot of the named pool, or reports why it cannot. -/
  | alloc (m : Master) (want : PoolWant)
  /-- R511. The ALLOC_WAIT pool operation grants a slot, or places the master on the pool's wait list when the pool is empty. -/
  | allocWait (m : Master) (want : PoolWant)
  /-- R188. The SHARE pool operation adds TARGET as a holder of the slot at OP_PTR. -/
  | share (m : Master) (target : BitVec 6)
  /-- R187. The RELEASE pool operation removes the master as a holder of a slot, and frees the slot at reference count 0. -/
  | release (m : Master)
  /-- R511. The CANCEL_WAIT pool operation withdraws the master's outstanding wait. -/
  | cancelWait (m : Master) (pool : BitVec 3)
  /-- R192. A slot-window access reads or writes buffer bytes in slots that the master holds, or is refused with WINDOW_NOT_HELD. -/
  | slotWindowAccess (m : Master) (off : BitVec 11) (be : BitVec 4) (wr : Option Word)
  /-- R232. A ready block or codec job is given to a free lane of an enabled cluster. -/
  | laneDispatch (cl : Fin 16) (lane : Fin 4)
  /-- R205. A lane finishes compressing a block, checks its own output, and releases the block, falling back to STORED on a mismatch. -/
  | blockCompressed (cl : Fin 16) (lane : Fin 4) (sram : Option SramFault)
  /-- R206. A lane finishes decoding a block, and the block is delivered or reported as an integrity failure. -/
  | blockDecompressed (cl : Fin 16) (lane : Fin 4) (sram : Option SramFault)
  /-- R241. A codec job reaches its outcome and its completion is posted. -/
  | codecJobDone (cid : Nat)
  /-- R244. A write of a key word to a slot is applied and sets the word's WRITTEN bit, or is dropped. -/
  | keyWordWrite (m : Master) (s : Fin 128) (k : Fin 3) (w : Fin 8) (v : Word)
  /-- R244. A write of a slot's LABEL is applied, or is dropped. -/
  | labelWrite (m : Master) (s : Fin 128) (v : DWord)
  /-- R248. The COMMIT slot operation checks the slot's keys and label and makes the slot COMMITTED. -/
  | commit (m : Master) (s : Fin 128)
  /-- R244. The ERASE slot operation clears a slot that is neither bound nor in use and makes it EMPTY. -/
  | erase (m : Master) (s : Fin 128)
  /-- R259. Writing 1 to KEY.ZEROISE.ALL zeroises every slot as a HOST alarm. -/
  | keyZeroiseWrite (m : Master)
  /-- R259. An alarm source becoming active, such as a tamper input, the cover, overtemperature or the rail, zeroises every slot. -/
  | alarmSourceActive (src : AlarmSrc)
  /-- R246. When every enabled alarm source is inactive again, ALARM_CLEARED is set. -/
  | alarmCleared (src : AlarmSrc)
  /-- R282. When no further data has been admitted for IDLE_CLOSE ms, the slice closes the open data set early. -/
  | idleCloseExpiry (n : Fin 16) (p : Fin 4)
  /-- R309. At each boundary between items on tape, the slice writes the pending rewrite area, then the whole rewrites, then the next data set. -/
  | itemBoundary (n : Fin 16) (sram : Option SramFault)
  /-- R325. A stopped tape restarts once an item is ready and the level or a waiting command allows it. -/
  | tapeRestart (n : Fin 16)
  /-- R323. Every 50 ms of a ramp, the tape speed changes by 0.4 m/s towards the target. -/
  | speedRampStep (n : Fin 16)
  /-- R327. A read attempt of a data set completes and succeeds, or leads to a re-read or a ridge rebuild. -/
  | dataSetRead (n : Fin 16) (sram : Option (Fin 256 × SramFault))
  /-- R273. The slice writes a cartridge record copy through MBX flits, and the transport is faulted if the write fails after the retries. -/
  | cartridgeRecordWrite (n : Fin 16)
  /-- R340. A received IDLE flit delivers its ACK word to the sender's retransmission state. -/
  | idle (n : Fin 16) (flit : LinkFlit)
  /-- R346. A received upstream CHAN flit delivers codeword units with their erasure hints to the verify or read decoder. -/
  | chanUp (n : Fin 16) (flit : LinkFlit)
  /-- R380. An upstream FRAME sample runs the L-TF and L-SK computations and produces a HEAD command. -/
  | servoFrameSample (n : Fin 16) (flit : LinkFlit)
  /-- R380. An upstream REEL sample runs the L-VEL and L-TEN computations and the decoupling matrix, and produces a REEL command. -/
  | servoReelSample (n : Fin 16) (flit : LinkFlit)
  /-- R377. At least every 500 µs, a HEAD and a REEL command repeat the last outputs while any loop is RUN or HOLD. -/
  | servoKeepalive (n : Fin 16)
  /-- R389. A running loop that has received no sample for 1 ms faults with SAMPLE_TIMEOUT. -/
  | sampleTimeout (i : Fin 64)
  /-- R385. A write of LOOP_CTRL.MANUAL transfers a loop between manual and automatic control, or is refused outside SERVICE. -/
  | manual (m : Master) (i : Fin 64) (v : Word)
  /-- R387. Writing 1 to LOOP_CTRL.APPLY checks a loop's pending coefficient set and makes it active. -/
  | apply (m : Master) (i : Fin 64)
  /-- R384. Writing 1 to LOOP_CTRL.CLEAR_TABLE sets every bin of the repetitive table to 0, as a start of the loop. -/
  | clearTable (m : Master) (i : Fin 64)
  /-- R397. A SERVO drain ends 1.5 s after HALT if the bridge has not reported FAULTED. -/
  | servoDrainTimeout (n : Fin 16)
  /-- R354. A received HELLO event advances the link start and records the bridge mode, gap and full scales. -/
  | hello (n : Fin 16) (flit : LinkFlit)
  /-- R360. A received CTRL ACK answers a mode command; MODE_REFUSED completes the command that needed it, and BAD_PARAMETER is a fault. -/
  | ack (n : Fin 16) (flit : LinkFlit)
  /-- R361. A received MODE event changes the transport mode and sets the loop states. -/
  | mode (n : Fin 16) (flit : LinkFlit)
  /-- R361. A received CARTRIDGE event reports a cartridge inserted or removed. -/
  | cartridge (n : Fin 16) (flit : LinkFlit)
  /-- R362. A received POSITIONED event ends one LOCATE attempt in success or failure. -/
  | positioned (n : Fin 16) (flit : LinkFlit)
  /-- R360. A received BURST_DONE event reports the codewords written, the underruns and the end position of a write burst. -/
  | burstDone (n : Fin 16) (flit : LinkFlit)
  /-- R354. A received FW_RESULT event accepts the bridge firmware load, or leads to a reload or a FW_REJECTED failure. -/
  | fwResult (n : Fin 16) (flit : LinkFlit)
  /-- R351. A received upstream TIME flit lets the formatter measure the round trip and update DELAY. -/
  | timeUp (n : Fin 16) (flit : LinkFlit)
  /-- R351. At each whole ms of TAI, a downstream TIME flit is sent in the first slot of lane 0. -/
  | timeFlitSend (n : Fin 16)
  /-- R352. A received CM_DATA answer delivers cartridge-memory read data. -/
  | cmData (n : Fin 16) (flit : LinkFlit)
  /-- R352. A received CM_DONE answer completes a cartridge-memory write. -/
  | cmDone (n : Fin 16) (flit : LinkFlit)
  /-- R352. A received MAILBOX message from the bridge is passed to the management core. -/
  | mailboxUp (n : Fin 16) (flit : LinkFlit)
  /-- R352. A cartridge-memory transfer left unanswered for 100 ms is retried, up to 3 more times. -/
  | mbxAnswerTimeout (n : Fin 16)
  /-- R342. When the oldest unacknowledged flit has waited 4 µs, every unacknowledged flit is resent, and the link goes down at the retransmit limit. -/
  | retransmitTimer (n : Fin 16)
  /-- R355. A lane declared failed is dropped, and the direction runs SOLO on the other lane. -/
  | laneFailed (n : Fin 16) (up : Bool) (lane : Fin 2) (why : LaneFault)
  /-- R356. Every 1 s, a failed lane is retrained while the other lane runs. -/
  | laneRetrain (n : Fin 16)
  /-- R356. After 100 ms of clean frames, a retrained lane rejoins and SOLO clears. -/
  | laneRestored (n : Fin 16) (up : Bool) (lane : Fin 2) (bad : Nat) (marker : List Byte)
  /-- R357. When no valid frame has been received for RX_TIMEOUT, the link goes down. -/
  | rxTimeout (n : Fin 16)
  /-- R354. Lane training completes, and frame lock and the firmware load of the link start follow. -/
  | linkTrained (n : Fin 16) (down : BitVec 2) (up : BitVec 2)
  /-- R354. Expiry of TRAIN_TIMEOUT, or of the HELLO bound, fails the link start. -/
  | trainTimeout (n : Fin 16)
  /-- R354. Every 1 s after a failed start, the link retries from training. -/
  | linkRetry (n : Fin 16)
  /-- R364. When no ACK has arrived within CTRL_TIMEOUT, the transport faults with CTRL_TIMEOUT. -/
  | ctrlTimeout (n : Fin 16)
  /-- R361. When a mode transition passes its bound, the transport faults with MODE_TIMEOUT. -/
  | modeTimeout (n : Fin 16)
  /-- R366. Writing 1 to MODE_CTRL.ENTER_SERVICE sends SERVICE_ENTER when the transport allows it. -/
  | enterService (m : Master) (n : Fin 16)
  /-- R366. Writing 1 to MODE_CTRL.EXIT_SERVICE sends SERVICE_EXIT. -/
  | exitService (m : Master) (n : Fin 16)
  /-- R365. Writing 1 to MODE_CTRL.CLEAR_FAULT sends CLEAR_FAULT, and every volume of the transport becomes not mounted. -/
  | clearFault (m : Master) (n : Fin 16)
  /-- R398. A rise of PG_OUT while a power-on sequence is pending starts the power-on sequence. -/
  | powerGood
  /-- R398. The power-on sequence finishes and DEV.STAT.READY becomes 1. -/
  | ready (failed : BitVec 32)
  /-- R416. Expiry of the management watchdog causes a device reset with cause WATCHDOG. -/
  | watchdogExpiry
  /-- R401. PWR_EN going low switches off every domain except D00 and deasserts PG_OUT. -/
  | pwrEnLow
  /-- R496. PWR_EN going high lets PG_OUT rise once the rails are in regulation. -/
  | pwrEnHigh
  /-- R496. VIN below 11.4 V for 20 µs without a power fail deasserts PG_OUT while the formatter keeps running. -/
  | vinDip
  /-- R496. VIN at or above 11.4 V for 10 ms after a dip raises PG_OUT again. -/
  | vinRecover
  /-- R411. VIN below 10.8 V for 20 µs isolates the input, completes NV work on the hold-up store and switches the domains off. -/
  | powerFail
  /-- R412. Input that returns after a power fail leads to a device reset with cause POWER_FAIL. -/
  | powerReturn
  /-- R405. A write of PWR.STATE_REQ requests CAMP, BIVOUAC or LANTERN, subject to its check. -/
  | stateReq (m : Master) (v : Word)
  /-- R406. After BIVOUAC_IDLE ms of quiescence, automatic entry to BIVOUAC begins. -/
  | bivouacIdleExpiry
  /-- R406. A quiescent formatter with BIVOUAC requested gates domains, stops D02's clock and puts the GDDR6 in self-refresh. -/
  | bivouacEntry
  /-- R407. Expiry of IDLE_CDC or IDLE_SLICE gates the idle cluster or slice domain. -/
  | domainIdleExpiry (d : Fin 80)
  /-- R21. A gate request that waited for work in flight gates the domain once that work has drained. -/
  | domainGate (d : Fin 80)
  /-- R408. A pending LANTERN request is carried out once the formatter is quiescent, switching off every domain except D00. -/
  | lanternEntry
  /-- R409. Expiry of PWR.LANTERN_WAKE ends LANTERN and asserts WAKE_N. -/
  | lanternWake
  /-- R409. The LANTERN exit sequence powers the domains, fills memory, reloads microcode and reaches READY. -/
  | lanternExit (failed : BitVec 32)
  /-- R410. The hold-up store reaches 90 % charge, and the held event-log entries are written. -/
  | holdupCharged
  /-- R410. If the store has not reached 90 % within 2 s, HOLDUP_DEGRADED is set. -/
  | holdupDegraded
  /-- R419. A sensor sample is compared with its WARN and CRIT thresholds, and the alarm conditions are updated. -/
  | sensorSample (k : Fin 64) (v : BitVec 16) (valid : Bool)
  /-- R423. The IDENTIFY mailbox request returns the serial, ordering code, MAC address and versions. -/
  | identify (p : Port)
  /-- R423. The SETTINGS_SAVE mailbox request writes a new settings record. -/
  | settingsSave (p : Port)
  /-- R423. The SETTINGS_CLEAR mailbox request writes a defaults record. -/
  | settingsClear (p : Port)
  /-- R423. The LOG_MARK mailbox request writes a HOST_MARK event-log entry. -/
  | logMark (p : Port)
  /-- R423. The BRIDGE_MAILBOX mailbox request passes a message to a transport's bridge and returns its answer. -/
  | bridgeMailbox (p : Port)
  /-- R423. The management core writes the mailbox response, clears BUSY and sets MBX_DONE. -/
  | mailboxDone (p : Port)
  /-- R428. At the end of a second, events folded beyond 16 are written as one SUMMARY entry. -/
  | logSummary
  /-- R432. The FSP SESSION_OPEN request opens a session and returns a device nonce. -/
  | sessionOpen (dg : List Byte)
  /-- R432. The FSP AUTH request checks the proof and authenticates the session. -/
  | auth (dg : List Byte)
  /-- R433. The FSP SESSION_CLOSE request closes the session. -/
  | sessionClose (dg : List Byte)
  /-- R432. A session closes after 60 s without a valid datagram. -/
  | fspSessionTimeout (id : Nat)
  /-- R432. The 60 s AUTH lockout ends. -/
  | lockoutExpiry
  /-- R433. The FSP IDENTIFY request returns the IDENTIFY response. -/
  | fspIdentify (dg : List Byte)
  /-- R433. The FSP SENSORS request returns the sensor values and the alarm registers. -/
  | sensors (dg : List Byte)
  /-- R433. The FSP LOG_READ request returns up to 21 event-log entries. -/
  | logRead (dg : List Byte)
  /-- R433. The FSP TIME_STATUS request returns the timebase status. -/
  | timeStatus (dg : List Byte)
  /-- R433. The FSP THAW request has the management core thaw a master under SEM0. -/
  | thaw (dg : List Byte)
  /-- R433. The FSP ZEROISE request causes an MGMT zeroise. -/
  | fspZeroise (dg : List Byte)
  /-- R433. The FSP RESET request causes a device reset with cause FSP_REQUEST. -/
  | reset (dg : List Byte)
  /-- R433. The FSP OWNER_LOCK request sets or clears the owner lock. -/
  | ownerLock (dg : List Byte)
  /-- R433. The FSP FLEET request grants or revokes the FLEET privilege. -/
  | fleet (dg : List Byte)
  /-- R433. The FSP OWNER_KEY request installs the owner key. -/
  | ownerKey (dg : List Byte)
  /-- R433. The FSP NET_CONFIG request sets or removes the static address. -/
  | netConfig (dg : List Byte)
  /-- R433. The FSP BRIDGE_MAILBOX request passes a message to the bridge of a transport in SERVICE. -/
  | fspBridgeMailbox (dg : List Byte)
  /-- R430. An ICMPv6 Echo or Neighbor Discovery message on the service port is answered. -/
  | icmpv6Echo (msg : List Byte)
  /-- R494. The SMBus IDENTIFY block read returns the IDENTIFY bytes. -/
  | smbIdentify
  /-- R494. The SMBus SENSORS block read returns the sensor registers. -/
  | smbSensors
  /-- R494. The SMBus ALARMS read word returns ALARM_LIVE and ALARM_LATCH. -/
  | smbAlarms
  /-- R494. The SMBus STATE read byte returns READY, the power state and the recovery flag. -/
  | smbState
  /-- R436. Writing TIM.CMD.STEP sets the TAI counter from TIM.SET, and keeps the PPS phase while disciplined. -/
  | step (m : Master)
  /-- R436. Writing TIM.CMD.SLEW runs the counter 200 ppm fast or slow until ADJUST ns have been gained. -/
  | slew (m : Master)
  /-- R436. The slew has gained ADJUST ns and SLEWING clears. -/
  | slewDone
  /-- R437. A rising edge of PPS_IN is timestamped and steers the discipline loop. -/
  | ppsInEdge
  /-- R437. When no valid edge has arrived for 3 s, the discipline enters HOLDOVER. -/
  | ppsInLost
  /-- R438. When the counter crosses a whole second, PPS_OUT rises. -/
  | secondCrossing
  /-- R439. Every 0.125 s, the grandmaster sends a Sync message. -/
  | ptpSync
  /-- R439. Every 1 s, the grandmaster sends an Announce message. -/
  | ptpAnnounce
  /-- R439. A received Delay_Req is answered under the delay request-response profile. -/
  | ptpDelayReq (msg : List Byte)
  /-- R439. A foreign Announce is counted and sets FOREIGN_MASTER. -/
  | foreignAnnounce (msg : List Byte)
  /-- R458. A write of a port's NVA doorbell sets its queue tail, and the descriptors are fetched. -/
  | nvaDoorbell (m : Master) (p : Port) (v : Word)
  /-- R460. The READ descriptor copies array bytes to host memory. -/
  | nvRead (q : NvQueue)
  /-- R460. The PROGRAM descriptor blank-checks its target words, then programs them. -/
  | program (q : NvQueue)
  /-- R460. The ERASE_SECTOR descriptor erases sectors, setting and clearing their unfinished-erase flags. -/
  | eraseSector (q : NvQueue)
  /-- R460. The BLANK_CHECK descriptor reports the first non-blank word. -/
  | blankCheck (q : NvQueue)
  /-- R460. The SWAP_BOOT descriptor prepares the other boot block and writes the select word naming it. -/
  | swapBoot (q : NvQueue)
  /-- R444. An array word program or sector erase completes, and waiting reads and the next unit operation are served. -/
  | nvUnitDone (bank : Fin 2) (ok : Bool)
  /-- R473. The FSP DL_BEGIN step starts a download, and STATE becomes DOWNLOADING. -/
  | dlBegin (dg : List Byte)
  /-- R473. The FSP DL_DATA step adds bytes to the chunk buffer. -/
  | dlData (dg : List Byte)
  /-- R473. The FSP DL_CHUNK step erases, programs and verifies one chunk of the inactive slot. -/
  | dlChunk (dg : List Byte)
  /-- R474. The VERIFY step, by FSP or FWU.STEP, tests the image in the inactive slot against R470 and the rollback floor. -/
  | verify (src : StepSource)
  /-- R474. Verification ends, and STATE becomes VERIFIED or IDLE. -/
  | verifyDone
  /-- R476. The FSP ACTIVATE step accepts an activation now or at a scheduled TAI time, and performs the prepare part. -/
  | activate (dg : List Byte)
  /-- R477. When TIM.NOW reaches AT_TAI, the scheduled activation is checked again and continues or fails. -/
  | scheduledActivation
  /-- R476. Once the prepare part and the quiesce are complete, the pause begins, the select word is written and the new image starts. -/
  | activationPause
  /-- R157. Execution resumes after the pause, STATE becomes TRIAL, and the held entries are posted. -/
  | activationResume
  /-- R479. The CONFIRM step programs the CONFIRM word and erases CONFIG records of other formats. -/
  | confirm (src : StepSource)
  /-- R473. The CANCEL step withdraws a scheduled activation. -/
  | cancel (src : StepSource)
  /-- R473. The FSP UPDATE_STATUS request returns the FWU state registers. -/
  | updateStatus (dg : List Byte)
  /-- R23. The return of a port's 100 MHz reference lets that port's link train again. -/
  | refclkRestored (p : Port)
  /-- R90. A host port's PCIe link finishes training and PORT_STAT reports LINK_UP, RATE and WIDTH. -/
  | hostLinkUp (p : Port) (rate : BitVec 3) (width : BitVec 5)
  /-- R506. A transition of the port function from D0 to D3hot stops its DMA and leaves it serving only configuration requests. -/
  | d3hotEntry (p : Port)
  /-- R411. At the end of a power fail, the hold-up store runs out and D00 loses power, losing the key slots and the TAI counter. -/
  | holdupExhausted
  /-- R107. Host completion data for a DMA read of a record-length list, a scatter-list entry or an NV descriptor arrives, and the command continues. -/
  | dmaReadCompletion (tgt : DmaTarget) (bytes : List Byte)
  /-- R494. An SMBus read of the Alert Response Address is answered with 0x5C while SMB_ALERT_N is low. -/
  | alertResponse
  /-- R493. The external PHY asserts PHY_INT_N to report a change of the service-port link. -/
  | phyLinkChange (up : Bool)
  deriving DecidableEq, Repr

end Sys2Proof
end

