-- ==== Sys2Proof/Decode.lean ====
section
/-! DEFINITION. The command a word spells. No row of the opcode table gives a command any bits, so no word spells one. -/

namespace Sys2Proof

/-- The command that the `nbits` bits of `w` spell by the opcode table: none, for the table gives no row bits. -/
def decodeTableWord (_nbits _w : Nat) : Option Instr := none

end Sys2Proof
end

