-- ==== Sys2Proof/Config.lean ====
section
/-! DEFINITION. What an implementation fixes and the spec leaves open. Every constant here is opaque:
no proof can see its value, so a statement that holds holds for every value of it. -/

namespace Sys2Proof

/-- A value the spec leaves open, drawn fresh at each use: the state's counter `fresh` is its argument. -/
opaque Config.freeNat : Nat → Nat

/-- A byte the spec leaves open, drawn fresh at each use. -/
opaque Config.freeByte : Nat → Byte

/-- The hardware random bit generator (R254, R432): draw number and width in bits give a natural number. -/
opaque Config.randomBits : Nat → Nat → Nat

/-- The IDENTIFY bytes 0 to 41 that are fixed at manufacture: serial and MAC address (R423, R430). -/
opaque Config.identityByte : Nat → Byte

/-- VERSION, SVN, SETTINGS_FORMAT and KXH2 sub-image version of the image in slot A at manufacture. -/
opaque Config.factoryImage : Nat → Nat

/-- The KXH2 sub-image of that image, empty where it has none (R470). -/
opaque Config.factoryBridge : List Byte

/-- Loop defaults of the running image (R394, R471): loop index j and block offset. -/
opaque Config.loopDefault : Nat → Nat → Word

/-- MIX defaults of the running image (R395): register offset. -/
opaque Config.mixDefault : Nat → Word

/-- The factory trim of FREQ_ADJ (R435). -/
opaque Config.factoryTrim : Word

/-- CAPS[15:4] of a page (R36 calls the field block-specific and gives it no value): page index. -/
opaque Config.capsBits : Nat → BitVec 12

/-- Severity of a block event of the event log (R426 gives codes only for management codes): CODE. -/
opaque Config.blockSeverity : Nat → Nat

/-- The earlier positions that a lane's hash chains hold for a position, the first examined first (R214: the hash and the replacement in
its chains are fixed by the image): history and data, position in them. -/
opaque Config.hashChain : List Byte → Nat → List Nat

/-- LZ payload of a sequence list (R214 leaves the construction of code lengths to the image): literal run, then length and distance of
the match after it, 0 for none. -/
opaque Config.lzCode : List (List Byte × Nat × Nat) → List Byte

/-- Deflate block of a sequence list (R214, R224): with dynamic tables or without. -/
opaque Config.deflateCode : Bool → List (List Byte × Nat × Nat) → List Byte

/-- SHA-384 (R447, R469), of FIPS 180-4, which this spec does not restate. -/
opaque Config.sha384 : List Byte → List Byte

/-- HMAC-SHA-384 (R431, R432): key and message. -/
opaque Config.hmacSha384 : List Byte → List Byte → List Byte

/-- ECDSA P-384 verification under the image key fixed in the die (R469): digest and signature. -/
opaque Config.ecdsaVerify : List Byte → List Byte → Bool

/-- The PI loop of the PPS discipline (R437 gives its time constant only): time constant, error, old FREQ_ADJ. -/
opaque Config.disciplineStep : Nat → Int → Word → Word

/-- FREQ_ADJ's mean over the last 8 x DISC_TAU s at the entry to HOLDOVER (R437). -/
opaque Config.holdoverMean : Nat → Word

/-- The body of a settings record (R455: set by the image, no customer interface): the bytes of the saved fields. -/
opaque Config.settingsBody : List Byte → List Byte

end Sys2Proof
end

