-- ==== Sys2Proof/Machine/RegTable.lean ====
section
/-! DEFINITION. The register tables of the spec as data: for each page the offset, the access type of every field
(R43), the reset value and the statistics-counter number of every register from offset 0x040 on. The header of R33
is the same on every page and is not listed here. -/

namespace Sys2Proof.Machine

/-- One register, or an array of `cnt` registers `stride` apart. A mask names the bits of that access type; bits in
no mask are RO. `wide` marks a 64-bit pair whose LO half stands at `off` (R44). `ctr` is its statistics counter
(R58), for which the register is only the view. -/
structure RegRow where
  off : Nat
  cnt : Nat := 1
  stride : Nat := 4
  wide : Bool := false
  rw : Word := 0
  rwl : Word := 0
  w1c : Word := 0
  reset : Word := 0
  ctr : Option Nat := none
  deriving DecidableEq, Repr

/-- A register the formatter alone writes. -/
def roR (off : Nat) (reset : Word := 0) : RegRow := { off := off, reset := reset }
/-- A 64-bit register the formatter alone writes. -/
def roQ (off : Nat) : RegRow := { off := off, wide := true }
/-- An RW register with its writable bits. -/
def rwR (off : Nat) (mask : Word) (reset : Word := 0) : RegRow := { off := off, rw := mask, reset := reset }
/-- An RWL register with its lockable bits. -/
def rwlR (off : Nat) (mask : Word) (reset : Word := 0) : RegRow := { off := off, rwl := mask, reset := reset }
/-- A writable 64-bit register. -/
def rwQ (off : Nat) : RegRow := { off := off, wide := true, rw := 0xFFFFFFFF }
/-- A W1C register. -/
def w1cR (off : Nat) (mask : Word) : RegRow := { off := off, w1c := mask }
/-- A 32-bit statistics counter. -/
def ctrR (off k : Nat) : RegRow := { off := off, ctr := some k }
/-- A 64-bit statistics counter. -/
def ctrQ (off k : Nat) : RegRow := { off := off, wide := true, ctr := some k }
/-- An array of a row. -/
def RegRow.times (r : RegRow) (n : Nat) (stride : Nat := 4) : RegRow := { r with cnt := n, stride := stride }

/-- DEV page (R60, R63, R79). -/
def devRows : List RegRow :=
  [roR 0x040, roR 0x044, rwR 0x048 0xFFFFFFFF, roR 0x04C, (roR 0x050).times 3, (roQ 0x060).times 3 8, roR 0x078]

/-- SEM page (R68). -/
def semRows : List RegRow :=
  [(rwR 0x040 0xFFFF).times 32, roR 0x0C0, roR 0x0C4, roR 0x0C8, roR 0x0CC, ctrR 0x0D0 0,
   (rwR 0x100 0x3FFF 100).times 32, (roR 0x180).times 32]

/-- Page 0 of a host port's group (R61, R90). -/
def hpRows : List RegRow :=
  [rwR 0x040 0xFFFFFFFF, rwR 0x044 0xFFFFFFFF, rwR 0x048 0x7F, roR 0x04C, roR 0x050, rwlR 0x054 0xFFFF 5000,
   ctrQ 0x060 0, ctrQ 0x068 1, ctrR 0x070 2, ctrR 0x074 3, ctrR 0x078 4, roR 0x07C, roQ 0x080]

/-- MEM page (R177). -/
def memRows : List RegRow :=
  [rwR 0x040 1 1, roR 0x044, roR 0x048, roR 0x04C, ctrR 0x050 5, roR 0x054, ctrR 0x058 0, ctrQ 0x060 1, ctrQ 0x068 2,
   ctrQ 0x070 3, ctrR 0x078 4, roR 0x07C, (roR 0x080).times 32, roR 0x100, roQ 0x108]

/-- POOL page (R184); the registers marked per master are held with the master. -/
def poolRows : List RegRow :=
  [(rwlR 0x040 0x1FFFF).times 5, (rwlR 0x060 0xFFFFFFF).times 4, rwlR 0x070 0xFFFFFFF 256,
   (rwlR 0x080 0xFFFFFFF).times 4, rwlR 0x090 0xFFFFFFF 256, (rwR 0x0A0 0x1FFFF).times 16,
   rwQ 0x100, roR 0x108, roR 0x10C, roQ 0x110, roR 0x118, roQ 0x120, rwQ 0x128, rwQ 0x130, roQ 0x138,
   (roR 0x140).times 5 16, (roR 0x144).times 5 16, (roR 0x148).times 5 16, (roR 0x14C).times 5 16,
   (roR 0x200).times 16 8, (roR 0x204).times 16 8, (roR 0x280).times 5, (roR 0x2A0).times 5,
   ctrQ 0x2C0 0, ctrR 0x2C8 1, ctrR 0x2CC 2, ctrR 0x2D0 3, ctrR 0x2D4 4]

/-- CDC page (R235). -/
def cdcRows : List RegRow :=
  [rwlR 0x040 0xF 0xF, rwlR 0x044 0x30F 1, rwlR 0x048 0xF 1, rwlR 0x04C 0xFFFFFFFF, roR 0x050, ctrQ 0x060 0,
   ctrQ 0x068 1, ctrQ 0x070 2, ctrQ 0x078 3, ctrR 0x080 4, ctrR 0x084 5, ctrR 0x088 6, ctrR 0x08C 7, ctrR 0x090 8,
   ctrR 0x094 9, ctrR 0x098 10, ctrR 0x09C 11]

/-- KEY control page (R246). -/
def keyRows : List RegRow :=
  [roR 0x040, roR 0x044, roR 0x048, rwlR 0x04C 7 7, roR 0x050, w1cR 0x054 0x7F, roQ 0x058, roQ 0x060, roQ 0x068,
   ctrR 0x070 0, ctrR 0x074 1, ctrR 0x078 2]

/-- CIPH page (R265). -/
def ciphRows : List RegRow :=
  [roR 0x040 0xFFFFFFFF, rwlR 0x044 0xFFFFFFFF 0xFFFFFFFF, rwR 0x048 0xF, (roQ 0x060).times 4 8,
   (roQ 0x080).times 4 8, ctrQ 0x0A0 0, ctrQ 0x0A8 1, ctrR 0x0B0 2, ctrR 0x0B4 3, ctrR 0x0B8 4, ctrR 0x0BC 5]

/-- FMT page (R303, R331). -/
def fmtRows : List RegRow :=
  [rwR 0x040 0xFFFF 500, roR 0x044, roR 0x048, roR 0x04C, (roR 0x050).times 4, ctrQ 0x060 0, ctrR 0x068 1,
   ctrR 0x06C 2, ctrR 0x070 3, ctrR 0x074 4, roR 0x078, roR 0x07C, rwlR 0x080 0x1F1F 0x0F00,
   rwlR 0x084 0xFFFFFFFF 0x03000100, rwlR 0x088 0xF 4, rwR 0x08C 0xFFFF 256, roR 0x090 0x00040000, roR 0x094,
   roR 0x098, roR 0x09C, roR 0x0A0, roR 0x0A4, ctrQ 0x0C0 5, ctrQ 0x0C8 6, ctrR 0x0D0 7, ctrR 0x0D4 8, ctrR 0x0D8 9,
   ctrR 0x0DC 10, ctrR 0x0E0 11, ctrR 0x0E4 12, ctrR 0x0E8 13, ctrR 0x0EC 14, ctrR 0x0F0 15, ctrR 0x0F4 16]

/-- LINK page (R368). -/
def linkRows : List RegRow :=
  [rwlR 0x040 0xF 0xF, rwlR 0x044 0x1F 16, rwlR 0x048 0xFFFF 2000, rwlR 0x04C 0xFFFF 50, rwlR 0x050 0xFFFF 20,
   rwlR 0x054 0xFFFFFFFF 0xB4B41E3C, roR 0x058, roR 0x060, roR 0x064, roR 0x068, roR 0x06C, ctrQ 0x080 0, ctrQ 0x088 1,
   ctrQ 0x090 2, ctrR 0x098 3, ctrR 0x09C 4, ctrR 0x0A0 5, ctrR 0x0A4 6, ctrR 0x0A8 7, ctrR 0x0AC 8, ctrR 0x0B0 9,
   ctrR 0x0B4 10, ctrR 0x0B8 11]

/-- SERVO page (R395). Its counters 2 to 13 are the loops' (R394). -/
def servoRows : List RegRow :=
  [rwlR 0x040 0xFFFFFFFF, rwlR 0x044 0xFFFFFFFF, rwlR 0x048 0xF, roR 0x050, roR 0x054, roR 0x058, roR 0x05C, roR 0x060,
   roR 0x064, roR 0x068, roR 0x06C, ctrQ 0x080 0, ctrQ 0x088 1, ctrR 0x090 14]

/-- LOOP global page (R393). -/
def loopGRows : List RegRow :=
  [roR 0x040, roR 0x044, ctrQ 0x060 0, ctrR 0x068 1]

/-- The block of one loop (R394), offsets within the block. -/
def loopRows : List RegRow :=
  [(rwR 0x00 0xFFFFFFFF).times 4, rwR 0x10 0xFFF, rwR 0x14 0xFFFFFFFF, rwR 0x18 0xFFFFFFFF, rwR 0x1C 0x3FF03,
   rwR 0x20 0xFFFFFFFF, (roR 0x40).times 9, rwR 0x80 1, rwR 0x84 0xFFFF, rwR 0x88 0xFFFF, roR 0x8C, roR 0x90, roR 0x94,
   roR 0x98, roR 0x9C, roQ 0xA0, roR 0xA8, roR 0xAC, rwR 0xC0 0x1FF, roR 0xC4]

/-- PWR page (R413). -/
def pwrRows : List RegRow :=
  [rwR 0x040 3, roR 0x044, rwlR 0x048 0x3FFFFF, rwlR 0x04C 0xFFFFF 1000, rwlR 0x050 0xFFFFF 5000, rwR 0x054 0xFFFFFFFF,
   roR 0x058 3000, roR 0x05C 250, roR 0x060, roR 0x064, roR 0x068, roR 0x06C, roR 0x070, ctrR 0x080 0, ctrR 0x084 1,
   ctrQ 0x088 2]

/-- MGT page (R421, R422); the two mailbox blocks are listed with their DATA words. -/
def mgtRows : List RegRow :=
  [rwR 0x040 0xFFFFFFFF 0x020802F8, rwR 0x044 0xFFFF 22000, rwR 0x048 0xFF 0xFE, w1cR 0x04C 0xFF, roR 0x050, roR 0x054,
   roR 0x100, roR 0x104, (rwR 0x140 0xFFFFFFFF).times 16, roR 0x180, roR 0x184, (rwR 0x1C0 0xFFFFFFFF).times 16,
   (roR 0x200).times 50, ctrR 0x300 0, ctrR 0x304 1, ctrQ 0x308 2, ctrR 0x310 3]

/-- LOG page (R429); the window is computed from the entries held. -/
def logRows : List RegRow :=
  [roQ 0x040, roQ 0x048, roR 0x050 65536, ctrR 0x054 0, ctrR 0x058 1, (roR 0x100).times 768]

/-- TIM page (R441). -/
def timRows : List RegRow :=
  [rwlR 0x040 0xFFFFFF0F 0x8080000C, rwlR 0x044 0xFFFF03FF 100, rwlR 0x048 0xFF 16, rwR 0x04C 0x1FFFF, roQ 0x050,
   rwQ 0x058, rwR 0x060 0xFFFFFFFF, roR 0x064, roR 0x068, roR 0x06C, roR 0x070, ctrR 0x080 0, ctrR 0x084 1, ctrR 0x088 2,
   ctrR 0x08C 3]

/-- NVA page (R466). -/
def nvaRows : List RegRow :=
  [{ off := 0x040, wide := true, rwl := 0xFFFFFFFF }, rwlR 0x048 0x1FFF, { off := 0x050, wide := true, rwl := 0xFFFFFFFF },
   rwlR 0x058 0x1FFF, rwR 0x060 0xFFF, roR 0x064, rwR 0x068 0xFFF, roR 0x06C, roR 0x070, roR 0x074, ctrQ 0x080 0,
   ctrQ 0x088 1, ctrR 0x090 2, ctrR 0x094 3, ctrR 0x098 4, ctrR 0x09C 5]

/-- FWU page (R481). -/
def fwuRows : List RegRow :=
  [roR 0x040, roR 0x044, roR 0x048, roR 0x04C, roQ 0x050, roR 0x058, ctrR 0x080 0, ctrR 0x084 1, ctrR 0x088 2,
   ctrR 0x08C 3]

/-- The register rows of a page. -/
def pageRows : PageId → List RegRow
  | .dev => devRows
  | .sem => semRows
  | .pwr => pwrRows
  | .tim => timRows
  | .mgt => mgtRows
  | .fwu => fwuRows
  | .nva => nvaRows
  | .log => logRows
  | .pool => poolRows
  | .mem => memRows
  | .key => keyRows
  | .hp _ => hpRows
  | .loopG => loopGRows
  | .link _ => linkRows
  | .fmt _ => fmtRows
  | .ciph _ => ciphRows
  | .servo _ => servoRows
  | .cdc _ => cdcRows

end Sys2Proof.Machine
end

