-- ==== Sys2Proof/Machine/Types.lean ====
section
/-! DEFINITION. The parts of the state: plain data, one structure per thing the spec describes. Indexed things are
held sparsely in a `Tbl`, whose unlisted entries read as a default. -/

namespace Sys2Proof.Machine

/-- A sparse table: unlisted keys read as a default the reader names. -/
abbrev Tbl (α : Type) := List (Nat × α)

/-- The entry of `k`, or `d` where none is listed. -/
def tget {α : Type} (t : Tbl α) (k : Nat) (d : α) : α :=
  match t with
  | [] => d
  | (j, v) :: r => if j = k then v else tget r k d

/-- `t` with entry `k` set to `v`. -/
def tput {α : Type} (t : Tbl α) (k : Nat) (v : α) : Tbl α :=
  match t with
  | [] => [(k, v)]
  | (j, w) :: r => if j = k then (j, v) :: r else (j, w) :: tput r k v

/-- The header state of one page and the block registers it stores (R33 to R41). -/
structure Page where
  enabled : Bool := false
  draining : Bool := false
  aborting : Bool := false
  fault : Bool := false
  reason : BitVec 16 := 0
  field : BitVec 8 := 0
  evt : Word := 0
  evtEn : Word := 0
  sat : Word := 0
  ctrs : Tbl Nat := []
  regs : Tbl Word := []
  deriving DecidableEq, Repr

/-- What one master has of its own (R44, R45, R68, R79, R184, R246). -/
structure MasterSt where
  frozen : Bool := false
  cause : BitVec 8 := 0
  sem : BitVec 6 := 0x3F
  addr : Nat := 0
  hiShadow : Word := 0
  pendLo : Option (Nat × Word) := none
  semRes : BitVec 4 := 0
  semNo : BitVec 6 := 0
  keyRes : BitVec 4 := 0
  keySlot : BitVec 7 := 0
  opPtr : DWord := 0
  poolRes : BitVec 4 := 0
  poolOp : BitVec 3 := 0
  myPtr : DWord := 0
  waitPending : Bool := false
  waitGranted : Bool := false
  waitPool : BitVec 3 := 0
  waitPtr : DWord := 0
  winBase : DWord := 0
  metaPtr : DWord := 0
  deriving DecidableEq, Repr

/-- A lease semaphore (R67 to R75): holder, token register, lease in ms, and the ns of device time at which it ends. -/
structure Sem where
  holder : Option Master := none
  token : BitVec 16 := 0
  lease : Nat := 100
  due : Nat := 0
  deriving DecidableEq, Repr

/-- A capsule in an inbox (R98) with what was fixed at acceptance (R65, R66): its sequence and whether the port
owned the transport. -/
structure Capsule where
  bytes : List Byte
  accSeq : Option Nat
  owned : Bool
  deriving DecidableEq, Repr

/-- A submission queue (R93). -/
structure Sq where
  enabled : Bool := false
  draining : Bool := false
  frozen : Bool := false
  aborting : Bool := false
  discarding : Nat := 0
  bind : Word := 0
  sqhd : Nat := 0
  inbox : List Capsule := []
  ranges : List (Nat × Nat) := []
  lastEnd : Nat := 0
  rangeWait : List Nat := []
  deriving DecidableEq, Repr

/-- What a CQ entry is (R120). -/
inductive EntryKind where
  | completion
  | xferRdy
  | segmentDone
  deriving DecidableEq, Repr

/-- A CQ entry before it is posted, with what its error-log entry needs (R120, R148). -/
structure CqEntry where
  kind : EntryKind
  sq : Nat
  tag : BitVec 16
  cls : BitVec 8 := 0
  detail : BitVec 8 := 0
  segNo : BitVec 16 := 0
  result : DWord := 0
  counted : Bool := true
  opc : Byte := 0
  reason : BitVec 16 := 0
  accSeq : Option Nat := none
  causeSeq : Option Nat := none
  transport : Byte := 0
  partition : Byte := 0
  origin : Byte := 0
  dataSet : BitVec 32 := 0xFFFFFFFF
  noFreeze : Bool := false
  cid : Nat := 0
  deriving DecidableEq, Repr

/-- A completion queue (R94, R122, R125). -/
structure Cq where
  enabled : Bool := false
  ien : Bool := false
  base : DWord := 0
  size : BitVec 17 := 0
  irq : Word := 0
  coalTime : BitVec 16 := 0
  head : Nat := 0
  tail : Nat := 0
  phase : Bool := true
  waiting : List CqEntry := []
  coalN : Nat := 0
  deriving DecidableEq, Repr

/-- An error-log entry (R148) and whether it has been read (R149). -/
structure ErrEntry where
  bytes : List Byte
  read : Bool
  deriving DecidableEq, Repr

/-- A host port (R87 to R91, R398 to R401, R506) with its mailbox: the request at hand, its answer once there is one, MBX_STAT (R422). -/
structure PortSt where
  perstHigh : Bool := false
  refclk : Bool := true
  linkUp : Bool := false
  rate : BitVec 3 := 0
  width : BitVec 5 := 0
  d3hot : Bool := false
  armed : Bool := true
  sqs : Tbl Sq := []
  cqs : Tbl Cq := []
  errNext : Nat := 0
  errCount : Nat := 0
  errs : Tbl ErrEntry := []
  msixTable : Tbl Word := []
  msixPba : List Nat := []
  msixMasked : Bool := false
  maxPayload : Nat := 128
  maxReadReq : Nat := 512
  mailBusy : Bool := false
  mailOp : Nat := 0
  mailLen : Nat := 0
  mailAnswer : Option (Nat × List Byte) := none
  mailResult : Nat := 0
  mailRespLen : Nat := 0
  deriving DecidableEq, Repr

/-- The binding of a volume (R249). -/
inductive Binding where
  | slot (s : Nat)
  | clear
  | lost
  | none
  deriving DecidableEq, Repr

/-- Where a started command stands. -/
inductive CmdPhase where
  | started      -- accepted by its start conditions, no body step taken yet
  | listWait     -- waits for DMA data
  | transfer     -- a WRITE with segments to come or one open
  | reading      -- a READ, LOCATE or SPACE at work
  | tape         -- waits for tape: MOUNT, UNMOUNT, FORMAT, FLUSH
  | running      -- a codec job on a cluster
  | gated        -- its next step waits for an entry to be posted (R122)
  | ended        -- its COMPLETION is made
  deriving DecidableEq, Repr

/-- A started command (R127, R154). Of a codec job: its cluster's requester ID (`holder`), the area slots that the cluster holds
(`job`), its working slot or that it waits for one, and whether the host wrote an area while it ran (R241). -/
structure Cmd where
  port : Port
  sq : Nat
  bytes : List Byte
  accSeq : Option Nat := none
  vol : Option Nat := none
  phase : CmdPhase := .started
  mute : Bool := false
  encBound : Bool := false
  lbn : Nat := 0
  segs : List (List Nat) := []
  segNo : Nat := 0
  endLbn : Nat := 0
  pos : Nat := 0
  residual : Int := 0
  delivered : Nat := 0
  scatter : List (Nat × Nat) := []
  scNext : Nat := 0
  scSum : Nat := 0
  rebuilt : Bool := false
  stage : Nat := 0
  job : List Nat := []
  holder : Nat := 0x3F
  dma : List Byte := []
  tainted : Bool := false
  workSlot : Option Nat := none
  workWait : Bool := false
  deriving DecidableEq, Repr

/-- The coding parameters of a block (R116, R200). -/
structure CodeParams where
  method : Nat := 1
  level : Nat := 1
  linked : Bool := false
  dynamic : Bool := false
  hint : BitVec 16 := 0
  stride : Nat := 0
  deriving DecidableEq, Repr

/-- Progress of a segment (R135, R195). -/
inductive SegPhase where
  | later
  | waitAdmit
  | waitRange
  | waitPost
  | isOpen
  | buffered
  deriving DecidableEq, Repr

/-- A block of a segment not cut yet that went to a lane as its input arrived (R16): its place and length in the segment, and once it is
compressed its P2 slot with the generation, and the length there. -/
structure EarlyBlk where
  start : Nat
  dlen : Nat
  slot : Option Nat := none
  gen : Nat := 0
  len : Nat := 0
  deriving DecidableEq, Repr

/-- A segment (R108, R133): its records, its place in the window, its reservation (R195), and once it is Buffered the
block sequence number after its last block. `par` are the coding parameters that the volume held at its command's turn (R200). `eodAfter` is the end of data once it has taken effect (R293). -/
structure Seg where
  seq : Nat
  cid : Nat
  no : Nat
  vol : Nat
  len : Nat
  recs : List Nat
  firstLbn : Nat
  endLbn : Nat
  eodAfter : Nat
  marks : Nat := 0
  blocks : Nat := 0
  phase : SegPhase := .later
  off : Nat := 0
  staging : List Nat := []
  p2 : List Nat := []
  granules : List Nat := []
  first : Bool := false
  duReserved : Nat := 0
  keySlot : Option Nat := none
  cut : Bool := false
  par : CodeParams := {}
  early : List EarlyBlk := []
  deriving DecidableEq, Repr

/-- Where a block's compression stands. -/
inductive BlkPhase where
  | raw
  | lane
  | done
  deriving DecidableEq, Repr

/-- A Delsatum block of a volume (R198, R201): its cut, its items, its P2 slot with the generation it was written under
(R191), the data sets that hold it, the key label it was packed under (R258). `input` holds bytes that no staging slot holds (R302). -/
structure Blk where
  q : Nat
  vol : Nat
  cid : Nat := 0
  seg : Nat
  segNo : Nat := 0
  start : Nat
  dlen : Nat
  entries : List (Nat × Nat)
  cont : Bool
  ends : Bool
  firstLbn : Nat
  nextLbn : Nat
  par : CodeParams := {}
  passThrough : Bool := false
  chainBreak : Bool := false
  chain : Option Nat := none
  phase : BlkPhase := .raw
  slot : Nat := 0
  gen : Nat := 0
  len : Nat := 0
  bind : Binding := .clear
  duKey : Option Nat := none
  label : Nat := 0
  input : List Byte := []
  inSets : List Nat := []
  placed : Bool := false
  sent : Bool := false
  retained : Bool := false
  ptRejects : List Nat := []
  deriving DecidableEq, Repr

/-- Kind of a data set (R284, R293). -/
inductive DsKind where
  | data
  | ridge
  | map
  | header
  deriving DecidableEq, Repr

/-- The header of a map data set (R297); `hzn` counts the segments covered, 0 for none. -/
structure MapHdr where
  clean : Bool
  full : Bool
  index : Nat
  cnt : Nat
  eod : Nat
  hzn : Nat
  nextSeq : Nat
  total : Nat
  first : Nat
  entries : Nat
  baseDs : Nat
  baseWrap : Nat
  baseLpos : Nat
  deriving DecidableEq, Repr

/-- A row copy flagged and owed a rewrite (R309): data set (by `id`), SDS, row, the copy number its next copy takes and the channel
of the copy it replaces. -/
structure RowOwed where
  ds : Nat
  s : Nat
  r : Nat
  copy : Nat
  chan : Nat
  deriving DecidableEq, Repr

/-- A row copy on tape whose verdict is due (R307): the round of the burst it went in (R345). -/
structure SentCw where
  round : Nat
  chan : Nat
  ds : Nat
  pass : Nat
  s : Nat
  r : Nat
  copy : Nat
  deriving DecidableEq, Repr

/-- An append point with the ridge group it stands in: wrap, nominal and physical length there, LPOS and µm, group,
members on tape and the place of the last of them, filemarks before, last DATA data set placed. -/
structure AppendPt where
  wrap : Nat := 0
  nominal : Nat := 0
  physical : Nat := 0
  lpos : Nat := 0
  um : Nat := 0
  group : Nat := 0
  gpos : Nat := 0
  memWrap : Nat := 0
  memLpos : Nat := 0
  marks : Nat := 0
  lastData : Nat := 0xFFFFFFFF
  deriving DecidableEq, Repr

/-- A data set that the slice has closed (R280 to R290) with the fields of its DSIT (R293). `id` names it inside the slice;
its number `num`, group and place are given when its first pass is placed. `payload` is the used part; `area` is the whole
data area from then on, `after` the append point after its last copy. `left` lists the rows that the present pass still has to
verify, `followed` counts the first passes since that pass (R312). -/
structure DataSet where
  id : Nat
  num : Nat := 0
  kind : DsKind
  vol : Nat
  payload : List Byte := []
  area : List Byte := []
  early : Bool := false
  continues : Bool := false
  contd : Bool := false
  firstLbn : Nat := 0
  ends : Nat := 0
  marks : Nat := 0
  marksBefore : Nat := 0
  units : Nat := 0
  firstUnit : Nat := 0
  used : Nat := 0
  firstSeq : Nat := 0
  nextSeq : Nat := 0
  hzn : Nat := 0
  hznEod : Nat := 0
  tai : Nat := 0
  label : Nat := 0
  tag : List Byte := []
  endLbn : Nat := 0
  prov : Bool := false
  group : Nat := 0
  gpos : Nat := 0
  wrap : Nat := 0
  lpos : Nat := 0
  begun : Bool := false
  pass : Nat := 0
  flaggedN : Nat := 0
  left : List (Nat × Nat) := []
  followed : Nat := 0
  verified : Bool := false
  blocks : List Nat := []
  unitAt : List (Nat × Nat) := []
  map : Option MapHdr := none
  cipherSlot : Option Nat := none
  after : AppendPt := {}
  deriving DecidableEq, Repr

/-- The data set being packed (R281, R282); `unitAt` gives the block number and payload offset of each unit that begins
in it. -/
structure OpenDs where
  vol : Nat
  payload : List Byte := []
  bind : Binding := .clear
  contd : Bool := false
  units : Nat := 0
  firstUnit : Nat := 0
  firstSeq : Nat := 0
  firstLbn : Nat := 0
  ends : Nat := 0
  marks : Nat := 0
  marksBefore : Nat := 0
  endLbn : Nat := 0
  slots : Nat := 0
  blocks : List Nat := []
  unitAt : List (Nat × Nat) := []
  deriving DecidableEq, Repr

/-- An entry of the volume map (R298). -/
structure MapEntry where
  firstLbn : Nat
  firstDs : Nat
  marksBefore : Nat
  startWrap : Nat
  startLpos : Nat
  endWrap : Nat
  members : Nat
  parity : Bool := false
  provisional : Bool := false
  endLpos : Nat
  deriving DecidableEq, Repr

/-- What a DSIT says (R293). -/
structure DsitInfo where
  kind : DsKind
  partition : Nat
  num : Nat
  group : Nat
  gpos : Nat
  wrap : Nat
  lpos : Nat
  contd : Bool
  continues : Bool
  firstLbn : Nat
  ends : Nat
  marks : Nat
  marksBefore : Nat
  units : Nat
  firstUnit : Nat
  used : Nat
  firstSeq : Nat
  nextSeq : Nat
  hzn : Nat
  hznEod : Nat
  label : Nat
  tag : List Byte
  deriving DecidableEq, Repr

/-- A volume, key 4n + p (R14, R114, R116, R126, R249, R255). Horizons are counts of the segments they cover: `placed`
of those wholly packed with the end of data they leave (R140), `hzn` of the Committed ones, `mapped` of the Mapped ones.
`wrap` to `endUm` is the append point, `memWrap` and `memLpos` the place of the last member, `moved` that it no longer lies where the last burst ended, `ret` the point after the
last data set whose verify has ended; `lastData` is the last DATA data set placed since MOUNT; `log` keeps the lengths before each data set placed since then (R302). `mapWanted` asks for a map, clean or open; `base` names the last
full map and `baseAt` its 16 x group + position. `ending` says that the end of medium is being closed (R318); `haltMap` that the map of a halt is owed (R296); `kept` lists the
slots of write data that a fault left in the buffer until the next MOUNT (R146). -/
structure Vol where
  accSeq : Nat := 0
  turn : Option Nat := none
  mounted : Bool := false
  readOnly : Bool := false
  pos : Nat := 0
  eod : Nat := 0
  bufEnd : Nat := 0
  tapeEnd : Nat := 0
  comEnd : Nat := 0
  mapEnd : Nat := 0
  segNext : Nat := 0
  blkNext : Nat := 0
  packed : Nat := 0
  placed : Nat := 0
  placedEod : Nat := 0
  placedMarks : Nat := 0
  hzn : Nat := 0
  mapped : Nat := 0
  serial : Nat := 0
  bind : Binding := .none
  par : CodeParams := {}
  pendingFail : Option (Nat × Nat × Nat) := none
  dsNow : Nat := 0
  wrapNow : Nat := 0
  ewSeen : Bool := false
  group : Nat := 0
  gpos : Nat := 0
  accum : List Byte := []
  accumOk : Bool := true
  seedDue : Bool := false
  map : List MapEntry := []
  mapChanged : Nat := 0
  base : Option (Nat × Nat × Nat) := none
  baseAt : Nat := 0
  mapClean : Bool := false
  mapWanted : Option Bool := none
  mapMaking : Bool := false
  ridgeDue : Option Bool := none
  wrap : Nat := 0
  nominal : Nat := 0
  physical : Nat := 0
  endLpos : Nat := 0
  endUm : Nat := 0
  moved : Bool := false
  lastData : Nat := 0xFFFFFFFF
  log : Tbl (Nat × Nat) := []
  ret : AppendPt := {}
  memWrap : Nat := 0
  memLpos : Nat := 0
  ending : Bool := false
  segs : List Seg := []
  blks : List Blk := []
  chainBreak : Bool := true
  waitSeek : Option (Nat × Nat) := none
  haltMap : Bool := false
  kept : List Nat := []
  deriving DecidableEq, Repr

/-- A partition's entry in the cartridge record (R273). -/
structure RecPart where
  serial : Nat := 0
  dirty : Bool := false
  lastDs : Nat := 0
  lastWrap : Nat := 0
  lastLpos : Nat := 0
  eod : Nat := 0
  nextSeq : Nat := 0
  seqReserved : Nat := 0
  deriving DecidableEq, Repr

/-- The cartridge record (R273). -/
structure CartRec where
  seq : Nat := 0
  dsReserved : Nat := 0
  dsNext : Nat := 0
  cmFailed : Bool := false
  table : List (Nat × Nat) := []
  parts : List RecPart := []
  deriving DecidableEq, Repr

/-- A lane of a codec cluster and what it works on (R232): volume and block number, a block of an open segment by its place (R16), or a
codec job. -/
inductive LaneWork where
  | idle
  | compress (vol q : Nat)
  | early (vol cid no start : Nat)
  | decompress (vol : Nat) (unit : Nat)
  | job (cid : Nat)
  deriving DecidableEq, Repr

/-- The lane scheduler (R85, R232): which of write, read and job blocks is next; for each kind (3 for chain blocks) the volume next served;
how often in a row each requester, key 64 x kind + volume, has been passed over. -/
structure Sched where
  kind : Nat := 0
  next : Tbl Nat := []
  passed : Tbl Nat := []
  deriving DecidableEq, Repr

/-- A codec cluster (R235, R205). -/
structure Cluster where
  lanes : Tbl LaneWork := []
  faulted : BitVec 4 := 0
  mismatches : Tbl Nat := []
  deriving DecidableEq, Repr

/-- State of a pool slot (R186). -/
inductive SlotState where
  | free
  | allocated
  | retiring
  | retired
  deriving DecidableEq, Repr

/-- Metadata of a pool slot (R186); the holder fields hold requester IDs, 0x3F for none. -/
structure SlotMeta where
  st : SlotState := .free
  refs : Nat := 0
  ownerHolds : Bool := false
  owner : BitVec 6 := 0
  h1 : BitVec 6 := 0x3F
  h2 : BitVec 6 := 0x3F
  h3 : BitVec 6 := 0x3F
  h4 : BitVec 6 := 0x3F
  gen : BitVec 16 := 0
  filling : Bool := false
  deriving DecidableEq, Repr

/-- Who waits on a pool's wait list (R189): a master, or the lane of a cluster (requester `req`) for a job. -/
inductive Waiter where
  | master (m : Master)
  | job (cid req : Nat)
  deriving DecidableEq, Repr

/-- A register access of one dword, at its BAR 0 address (R31). -/
inductive Access where
  | read (addr : Nat)
  | write (addr : Nat) (be : BitVec 4) (v : Word)
  deriving DecidableEq, Repr

/-- An access that a master made while one of its slot-window accesses waits for a zero fill, that one included (R32, R192). -/
structure HeldAccess where
  m : Master
  acc : Access
  deriving DecidableEq, Repr

/-- The pool manager (R178 to R197). `resOut` and `resIn` list, for transport n and pool p under key 16p + n, the home
slots of the segment reservation that are not set aside and the other slots that are (R189, R195); `copyLost` the blocks of metadata copies
that are abandoned, `dead` that both copies of one are lost (R176). -/
structure PoolSt where
  slots : Tbl SlotMeta := []
  waits : Tbl (List Waiter) := []
  short : Tbl (List Nat) := []
  resOut : Tbl (List Nat) := []
  resIn : Tbl (List Nat) := []
  held : List HeldAccess := []
  copyLost : List Nat := []
  dead : Bool := false
  retiredCharge : Tbl Nat := []
  deriving DecidableEq, Repr

/-- The buffer memory (R160 to R177): data bytes other than 0 in rising order, numbers of the blocks whose stored word
is uncorrectable, blocks awaiting the next write for the read-back test, remaps, retirement list, scrub progress. -/
structure MemSt where
  ram : List (Nat × Byte) := []
  bad : List Nat := []
  testDue : List Nat := []
  remaps : Tbl (List Nat) := []
  retireList : List Nat := []
  scrubRows : Tbl Nat := []
  lapStart : Nat := 0
  ageFrom : Nat := 0
  sramRemaps : Tbl Nat := []
  frameRetired : List Nat := []
  ingestRetired : List (Nat × Nat) := []
  deriving DecidableEq, Repr

/-- State of a key slot (R242). -/
inductive KeyState where
  | empty
  | loading
  | committed
  | zeroised
  deriving DecidableEq, Repr

/-- A key slot: 24 key words, which words are written, label, data units, use count (R242, R256). -/
structure KeySlot where
  st : KeyState := .empty
  words : Tbl Word := []
  label : DWord := 0
  du : Nat := 0
  reserved : Nat := 0
  deriving DecidableEq, Repr

end Sys2Proof.Machine
end

