-- ==== Sys2Proof/Machine/TypesB.lean ====
section
/-! DEFINITION. The parts of the state that belong to one transport: its slice, its link, its loops. -/

namespace Sys2Proof.Machine

/-- The twelve transport modes (R359). -/
inductive TMode where
  | empty
  | loaded
  | threading
  | calibrating
  | ready
  | locating
  | writing
  | reading
  | rewinding
  | unthreading
  | service
  | faulted
  deriving DecidableEq, Repr

/-- State of a link (R368 LINK_STAT.STATE). -/
inductive LinkPhase where
  | disabled
  | training
  | loading
  | up
  | failed
  deriving DecidableEq, Repr

/-- A CTRL command that waits for its ACK (R360). -/
structure CtrlOut where
  cmdId : Nat
  code : Byte
  cid : Option Nat
  deriving DecidableEq, Repr

/-- A cartridge-memory transfer or mailbox message under way (R352); `who` is 0 for the slice, 1 or 2 for a port's mailbox,
3 + k for service-port session k. -/
structure MbxOut where
  op : Byte
  tag : Byte
  addr : Nat
  data : List Byte
  len : Nat
  tries : Nat
  who : Nat := 0
  deriving DecidableEq, Repr

/-- The link of a transport (R334 to R371). -/
structure LinkSt where
  phase : LinkPhase := .disabled
  stage : Nat := 0
  lanes : BitVec 4 := 0
  retrain : BitVec 4 := 0
  failCause : Nat := 0
  noRetry : Bool := false
  fwTries : Nat := 0
  mode : TMode := .empty
  threaded : Bool := false
  present : Bool := false
  wprot : Bool := false
  cause : BitVec 8 := 0
  txSeq : Nat := 0
  rxSeq : Nat := 0
  rxAny : Bool := false
  nakSent : Bool := false
  unacked : List (Nat × List Byte × Nat) := []
  txQueue : List (Nat × List Byte) := []
  chanRun : Nat := 0
  sinceMbx : Nat := 7
  chanRx : List Byte := []
  cmdNext : Nat := 0
  ctrl : List CtrlOut := []
  ctrlHeld : List (Nat × List Byte × Option Nat) := []
  recal : Bool := false
  mbxNext : Nat := 0
  mbx : List MbxOut := []
  frameFirst : Nat := 0
  frameAt : Nat := 0
  txFrame : Nat := 0
  txDealt : List (List Byte) := []
  deriving DecidableEq, Repr

/-- What a LOCATE of the slice serves (R362): the reading of data sets, or the writing of a volume. -/
inductive LocatePurpose where
  | gather
  | append (vol : Nat)
  deriving DecidableEq, Repr

/-- What the reading of data sets from tape serves (R141, R274, R291, R300, R302, R512). -/
inductive GatherPurpose where
  | none
  | items (cid : Nat)
  | lastMap (cid : Nat)
  | baseMap (cid : Nat)
  | scan (cid : Nat)
  | header (cid : Nat)
  | search (cid : Nat)
  | seed (vol : Nat)
  | overwrite (cid : Nat)
  deriving DecidableEq, Repr

/-- Where the reading stands. -/
inductive GatherPhase where
  | idle
  | seek
  | locating
  | placed
  | starting
  | running
  | stopping
  deriving DecidableEq, Repr

/-- What was read of one data set (R314, R328): the rows that C1 has corrected, 228 bytes each under key 192 s + r, whether a codeword of
its first pass was met, its last pass found, and the first passes that have begun since. -/
structure GSet where
  low : Nat
  kind : DsKind
  prov : Bool := false
  first : Bool := false
  pass : Nat := 0
  after : Nat := 0
  rows : Tbl (List Byte) := []
  deriving DecidableEq, Repr

/-- A rebuild from a ridge group (R292, R329): the data set that failed, the XOR of what was read, what the failed reading
was for; `auth` is a data area that was decoded and failed its tag. -/
structure Rebuild where
  low : Nat
  kind : DsKind
  wrap : Nat
  lpos : Nat
  acc : List Byte := []
  members : Nat
  readSoFar : Nat := 0
  accum : Bool := false
  auth : List Byte := []
  deriving DecidableEq, Repr

/-- The reading of data sets (R314, R327 to R329): where it starts, the sets met in tape order, the set in turn (`want`;
none: the next first pass after those in `past`), its attempt and corrected columns (key 228 s + c); group and place in it of
the next set, a data area gathered from several sets, and where the attempt began if it has gone on to the next wrap. -/
structure Gather where
  purpose : GatherPurpose := .none
  phase : GatherPhase := .idle
  vol : Nat := 0
  wrap : Nat := 0
  lpos : Nat := 0
  want : Option (Nat × DsKind) := none
  past : List (Nat × DsKind) := []
  seen : List GSet := []
  cols : Tbl (List Byte) := []
  attempt : Nat := 0
  wrapTried : Bool := false
  rebuild : Option Rebuild := none
  area : List Byte := []
  grp : Nat := 0
  idx : Nat := 0
  home : Option (Nat × Nat) := none
  deriving DecidableEq, Repr

/-- A data set decoded into P3 frames, its slots (R258, R327). -/
structure Decoded where
  vol : Nat
  info : DsitInfo
  area : List Byte
  rebuilt : Bool := false
  slots : List Nat := []
  deriving DecidableEq, Repr

/-- What has been decided of a unit read for a command (R206, R258). -/
inductive UnitState where
  | ready
  | lane
  | ok
  | bad (cls detail ds : Nat)
  deriving DecidableEq, Repr

/-- A unit on its way to a READ (R131, R206, R231, R281): the plain block, where it came from, and what it decodes to.
`skip` marks an earlier block of a chain whose records are not delivered; `took` is the P2 slot taken back for it (R191). -/
structure ReadUnit where
  cid : Nat
  vol : Nat
  id : Nat
  q : Nat
  bytes : List Byte
  firstLbn : Nat
  rebuilt : Bool := false
  ds : Nat := 0xFFFFFFFF
  skip : Bool := false
  st : UnitState := .ready
  out : List Byte := []
  used : Bool := false
  cl : Nat := 0
  ln : Nat := 0
  took : Option Nat := none
  deriving DecidableEq, Repr

/-- A LINKED chain alive on a lane (R227 to R230). -/
structure ChainSt where
  vol : Nat
  nextSeq : Nat
  nextIdx : Nat
  startSeq : Nat
  hist : List Byte
  cluster : Nat
  lane : Nat
  deriving DecidableEq, Repr

/-- A map data set that a search has found: number, place, END_OF_DATA and NEXT_SEQUENCE (R274, R300). -/
structure MapAt where
  num : Nat := 0
  wrap : Nat := 0
  lpos : Nat := 0
  eod : Nat := 0
  nextSeq : Nat := 0
  deriving DecidableEq, Repr

/-- Progress of a MOUNT (R141, R274, R300). Of a search: the wrap whose HEADER is a candidate, the partition in turn, the table
and serials of the HEADERs, what was found on the partition in turn and on those before it. Of the map: the header and entries of
its last data set, the map as formed, the data sets it was formed from, where its base stands in the groups. Of the scan: the last
data set accepted, whether a closing parity followed it, horizon and end of data, and END_OF_DATA of the map. -/
structure SearchSt where
  searched : Bool := false
  cand : Nat := 0
  part : Nat := 0
  table : List (Nat × Nat) := []
  serials : List Nat := []
  high : Option Nat := none
  nextSeq : Nat := 0
  lastMap : Option MapAt := none
  found : List (Option Nat × Nat × Option MapAt) := []
  hdr : Option MapHdr := none
  ents : List MapEntry := []
  form : List MapEntry := []
  sets : List DsitInfo := []
  baseAt : Nat := 0
  last : Option DsitInfo := none
  closed : Bool := false
  hzn : Nat := 0
  eod : Nat := 0
  old : Nat := 0
  deriving DecidableEq, Repr

/-- A transport slice (R270 to R333): cartridge record as read or written (`record`), as it should be (`want`) and as it is
being written; data sets for tape and what they are owed; the tape's motion; what is being read; `doomed` are blocks, with their input, that a truncation took away while a lane had them (R234). -/
structure SliceSt where
  recUnwritable : Bool := false
  record : Option CartRec := none
  want : CartRec := {}
  recWant : Bool := false
  recCopy : Nat := 1
  recIn : Tbl (List Byte) := []
  recReading : Bool := false
  recKnown : Bool := false
  recOut : Option (CartRec × Nat) := none
  recFail : Bool := false
  dsNext : Nat := 0
  setNext : Nat := 0
  toAdmit : List (Nat × Nat) := []
  opens : List OpenDs := []
  sets : List DataSet := []
  owed : List RowOwed := []
  whole : List Nat := []
  await : List SentCw := []
  curVol : Option Nat := none
  round : Nat := 0
  items : List Nat := []
  burstAt : Nat := 0
  inBurst : Bool := false
  ending : Bool := false
  stopNow : Bool := false
  nextWrap : Option Nat := none
  target : Nat := 0
  current : Nat := 0
  ramping : Bool := false
  capped : Bool := false
  stopped : Bool := true
  starting : Bool := false
  done : List (Nat × Nat) := []
  headAt : Option (Nat × Nat × Nat) := none
  locTries : Nat := 0
  locFor : Option LocatePurpose := none
  locTo : Nat × Nat := (0, 0)
  gather : Gather := {}
  decoded : List Decoded := []
  units : List ReadUnit := []
  unitNext : Nat := 0
  chain : Option ChainSt := none
  doomed : List Blk := []
  search : SearchSt := {}
  deriving DecidableEq, Repr

/-- State of a control loop (R376). -/
inductive LoopPhase where
  | off
  | hold
  | run
  | stopped
  deriving DecidableEq, Repr

/-- A control loop (R372 to R394): its registers by offset (pending set, REF_HOST and the like), the active set by
offset, compensator states and integrator in units of 2^-30, the repetitive table. -/
structure LoopSt where
  regs : Tbl Word := []
  act : Tbl Word := []
  phase : LoopPhase := .off
  manual : Bool := false
  applyPending : Bool := false
  fresh : Bool := false
  startVal : Int := 0
  s1 : Int := 0
  s2 : Int := 0
  s3 : Int := 0
  i : Int := 0
  bins : Tbl Int := []
  saturated : Bool := false
  invalid : Bool := false
  feRun : Nat := 0
  lastErr : Int := 0
  lastOut : Int := 0
  lastRef : Int := 0
  lastRc : Int := 0
  latency : Nat := 0
  deriving DecidableEq, Repr

/-- What the loop engine keeps per transport beside its loops (R374, R383, R395): angles and stamps of the last two
REEL samples with how many have come, the stamp of the last FRAME sample, the speed reference and its target in mm/s. -/
structure ServoSt where
  angA : Nat := 0
  angB : Nat := 0
  angA0 : Nat := 0
  angB0 : Nat := 0
  stamp : Nat := 0
  stamp0 : Nat := 0
  reels : Nat := 0
  frameStamp : Nat := 0
  lpos : Nat := 0
  haltSent : Bool := false
  loopFault : Bool := false
  velTarget : Int := 0
  velNow : Int := 0
  curA : Int := 0
  curB : Int := 0
  deriving DecidableEq, Repr

end Sys2Proof.Machine
end

