-- ==== Sys2Proof/Machine/TypesC.lean ====
section
/-! DEFINITION. The parts of the state that belong to the whole device: power, management, time, the NV array, the
firmware update, and the record of what the formatter has sent. -/

namespace Sys2Proof.Machine

/-- Causes of a device reset (R413 RESET_CAUSE). -/
inductive ResetCause where
  | powerOn
  | pwrEn
  | powerFail
  | tcxoLoss
  | watchdog
  | fspRequest
  | trialFallback
  | tcmUncorrectable
  | lanternExit
  deriving DecidableEq, Repr

/-- Where the device stands in its start and in its power states (R398, R400, R402, R408, R411). -/
inductive RunPhase where
  | off            -- PG_OUT low, only D00 alive
  | starting       -- the sequence of R398 runs
  | running        -- READY is 1
  | recovery       -- R400: DEV page and image download only
  | dead           -- R400: both boot blocks invalid
  | inReset        -- held in reset while the TCXO is stopped (R23)
  | lantern        -- R408
  | lanternExit    -- the sequence of R409 runs
  | powerFail      -- R411
  deriving DecidableEq, Repr

/-- Power and start-up (R398 to R415, R496 to R500). -/
structure PwrSt where
  phase : RunPhase := .off
  cause : ResetCause := .powerOn
  supplied : Bool := true
  pgOut : Bool := false
  pgPending : Bool := true
  pwrEnHigh : Bool := true
  dipped : Bool := false
  tcxo : Bool := true
  request : BitVec 2 := 0
  bivouac : Bool := false
  entering : Bool := false
  reqDone : Bool := false
  lastWake : BitVec 4 := 0
  charge : Nat := 0
  degraded : Bool := false
  gated : List Nat := []
  gateWait : List Nat := []
  wakeN : Bool := false
  clkreq : List Port := []
  watchdogs : Nat := 0
  pairedFallback : Bool := false
  deriving DecidableEq, Repr

/-- A sensor as the MGT page shows it (R419, R421), with its run of samples that gave no reading or lay inside the window. -/
structure Sensor where
  value : BitVec 16 := 0
  valid : Bool := false
  warn : Bool := false
  crit : Bool := false
  run : Nat := 0
  missing : Nat := 0
  failed : Bool := false
  deriving DecidableEq, Repr

/-- An event-log entry (R426); the CRC is computed when the entry is read. -/
structure LogEntry where
  seq : Nat
  tai : Nat
  code : Nat
  source : Nat
  inst : Nat
  severity : Nat
  requester : Nat
  taiValid : Bool
  summary : Bool := false
  deferred : Bool := false
  d0 : Nat := 0
  d1 : Nat := 0
  d2 : Nat := 0
  d3 : Nat := 0
  deriving DecidableEq, Repr

/-- Events of one code, source and unit number counted in a second of the counter (R428). -/
structure LogFold where
  sec : Nat
  code : Nat
  source : Nat
  inst : Nat
  count : Nat
  last : LogEntry
  deriving DecidableEq, Repr

/-- The event log (R425 to R429): entries newest first, of which the newest `held` stand in TCM only (R410), the folding
counts, the sector of the ring that is being written with the entries in it, and the sectors that have left the ring. -/
structure LogSt where
  entries : List LogEntry := []
  held : Nat := 0
  heldDropped : Nat := 0
  nextSeq : Nat := 0
  oldest : Nat := 0
  capacity : Nat := 65536
  folds : List LogFold := []
  sector : Nat := 1023
  inSector : Nat := 64
  lost : List Nat := []
  deriving DecidableEq, Repr

/-- A service-port session (R432). -/
structure Session where
  id : Nat
  nonce : List Byte
  authed : Bool := false
  key : List Byte := []
  lastSeq : Option Nat := none
  txSeq : Nat := 0
  deriving DecidableEq, Repr

/-- The service port (R430 to R433); `fleet` has a bit for each port; `mail` names session and SEQ of a message to a bridge. -/
structure FspSt where
  sessions : List Session := []
  nextId : Nat := 1
  failures : List Nat := []
  lockedUntil : Option Nat := none
  ownerKey : Option (List Byte) := none
  ownerLock : Bool := false
  fleet : Nat := 0
  staticAddr : List Byte := []
  phyUp : Bool := true
  mail : Option (Nat × Nat) := none
  deriving DecidableEq, Repr

/-- State of the PPS discipline (R437). -/
inductive DiscState where
  | off
  | locking
  | locked
  | holdover
  deriving DecidableEq, Repr

/-- The timebase (R435 to R441): the counter in units of 2^-32 ns; `freqAdj` is FREQ_ADJ less the factory trim; `lastEdge`
and `validEdge` are times of the last PPS_IN edge and of the last valid one; sequence numbers of the PTP messages. -/
structure TimSt where
  count : Nat := 0
  taiValid : Bool := false
  freqAdj : Word := 0
  disc : DiscState := .off
  stepped : Bool := false
  goodEdges : Nat := 0
  lastEdge : Option Nat := none
  ppsErr : Int := 0
  slewLeft : Int := 0
  slewing : Bool := false
  validEdge : Option Nat := none
  syncSeq : Nat := 0
  announceSeq : Nat := 0
  deriving DecidableEq, Repr

/-- A unit operation of the NV array (R443, R445, R452): a program or a sector erase, by array address. -/
inductive NvUnit where
  | program (addr : Nat) (bytes : List Byte)
  | erase (addr : Nat)
  deriving DecidableEq, Repr

/-- Who a unit operation works for (R464); `internal` is the management core outside its descriptor queue. -/
inductive NvOwner where
  | host (p : Port)
  | mgmt
  | internal
  deriving DecidableEq, Repr

/-- A descriptor of a queue (R459). `data` holds what a PROGRAM of the management queue programs; `lost` marks one whose fetch
failed. -/
structure NvDesc where
  op : Nat
  flags : Nat
  reserved : Bool
  length : Nat
  addr : Nat
  ptr : Nat
  data : List Byte := []
  lost : Bool := false
  deriving DecidableEq, Repr

/-- A descriptor that has started: the unit operations left, the bytes done, the code with which it ends once they are done, whether
it waits for its data (R460, R463). -/
structure NvJob where
  desc : NvDesc
  units : List NvUnit
  done : Nat := 0
  code : Nat := 0
  waiting : Bool := false
  deriving DecidableEq, Repr

/-- A DMA read of a queue: that many descriptors, or the data of a PROGRAM. -/
inductive NvFetch where
  | descs (n : Nat)
  | data
  deriving DecidableEq, Repr

/-- One descriptor queue (R458): `asked` is the index after the last descriptor asked for. -/
structure NvQ where
  head : Nat := 0
  tail : Nat := 0
  asked : Nat := 0
  reads : List NvFetch := []
  fetched : List NvDesc := []
  job : Option NvJob := none
  deriving DecidableEq, Repr

/-- A settings record (R455): SECURITY (`format` 1) or CONFIG; where it stands; the body. -/
structure SetRec where
  security : Bool
  format : Nat
  defaults : Bool := false
  seq : Nat
  area : Nat
  sector : Nat
  owners : List Nat := []
  regs : List (PageId × Nat × Word) := []
  loops : List (Nat × Nat × Word) := []
  ownerKey : Option (List Byte) := none
  ownerLock : Bool := false
  fleet : Nat := 0
  staticAddr : List Byte := []
  deriving DecidableEq, Repr

/-- The NV array and its controller (R442 to R468). `cells` lists the bytes that are not 0xFF by array address; the head of a
bank's `units` is in progress; `remaps` gives a sector's spare, none for one marked failed; `coming` are records being written. -/
structure NvSt where
  cells : List (Nat × Byte) := []
  flags : List Nat := []
  remaps : Tbl (Option Nat) := []
  sparesUsed : Tbl Nat := []
  units : Tbl (List (NvOwner × NvUnit)) := []
  qs : Tbl NvQ := []
  turn : Port := .a
  exhausted : List Nat := []
  records : List SetRec := []
  coming : List SetRec := []
  nextSeq : Nat := 0
  deriving DecidableEq, Repr

/-- State of the update (R472). -/
inductive FwuPhase where
  | idle
  | downloading
  | downloaded
  | verifying
  | verified
  | scheduled
  | activating
  | trial
  deriving DecidableEq, Repr

/-- A boot block (R447): its record's fields, the SVN of its CONFIRM word, how many START words it has. -/
structure BootBlk where
  valid : Bool := false
  slot : Nat := 0
  len : Nat := 0
  digest : List Byte := []
  version : Nat := 0
  svn : Nat := 0
  floor : Nat := 0
  confirm : Option Nat := none
  starts : Nat := 0
  deriving DecidableEq, Repr

/-- What the formatter knows of an image (R469, R470): of its bridge sub-image the version and the bytes. -/
structure ImgInfo where
  version : Nat := 0
  svn : Nat := 0
  format : Nat := 0
  kxh2 : Nat := 0
  kxh2Image : List Byte := []
  deriving DecidableEq, Repr

/-- The firmware update and the boot choice (R447 to R451, R472 to R483): `reqQuiesce` is the request's QUIESCE, `quiesce` that it
is in force; `answer` names session, SEQ and chunk of the DL_CHUNK in progress; `took` that the core holds SEM2 for a step; `overwritten` that slot A no longer holds
the image of manufacture; SELECT_SEQ, sector and place of the newest select word. -/
structure FwuSt where
  phase : FwuPhase := .idle
  lastResult : Nat := 0
  reqQuiesce : Bool := false
  quiesce : Bool := false
  atTai : Nat := 0
  total : Nat := 0
  imageLen : Nat := 0
  done : List Nat := []
  chunk : Option Nat := none
  chunkBytes : Tbl Byte := []
  answer : Option (Nat × Nat × Nat) := none
  took : Bool := false
  candidate : Option ImgInfo := none
  block : Nat := 0
  blocks : Tbl BootBlk := []
  slots : Tbl ImgInfo := []
  overwritten : Bool := false
  select : Option (Nat × Nat × Nat) := none
  paused : Bool := false
  pausedAt : Nat := 0
  pausedTai : Nat := 0
  prepared : Bool := false
  byCid : Option Nat := none
  deriving DecidableEq, Repr

/-- What the formatter sends out. The newest stands first in `State.out`. -/
inductive Emit where
  | readData (m : Master) (addr : Nat) (v : Word)
  | barData (m : Master) (bar : Nat) (off : Nat) (v : Word)
  | completerAbort (m : Master)
  | cqEntry (p : Port) (addr : Nat) (bytes : List Byte)
  | msix (p : Port) (addr : Nat) (data : Word)
  | dmaWrite (p : Port) (addr : Nat) (bytes : List Byte)
  | dmaRead (p : Port) (addr : Nat) (len : Nat)
  | flit (n : Nat) (bytes : List Byte)
  | frame (n lane : Nat) (codewords : List (List (BitVec 10)))
  | fsp (bytes : List Byte)
  | smbus (bytes : List Byte)
  | net (bytes : List Byte)
  | uart (bytes : List Byte)
  | pin (name : String) (level : Bool)
  | aer (p : Port)
  deriving DecidableEq, Repr

end Sys2Proof.Machine
end

