-- ==== Sys2Proof/Machine/State.lean ====
section
/-! DEFINITION. The state of the formatter, the reasons a command can stop, and the state after power-on. -/

namespace Sys2Proof.Machine

/-- Why a command stops with a fault. -/
inductive Fault where
  /-- Raised by every command whose operands `Instr.wf` refuses: they spell no command of the hardware (a flit that is
  not 64 bytes, a link rate that does not exist). Safe: the hardware never sees such a command. -/
  | malformed
  deriving DecidableEq, Repr

/-- Why a command is refused. -/
inductive Refusal where
  /-- Raised by an arm of `exec` whose command has no meaning yet. Safe: nothing is claimed of it. -/
  | notModelled (mnemonic : String)
  deriving DecidableEq, Repr

/-- The formatter. Tables list only what differs from the default of the accessor that reads them (Ops). -/
structure State where
  code : OrderCode
  tick : Nat
  free : Nat
  ready : Bool
  pages : Tbl Page
  masters : Tbl MasterSt
  sems : Tbl Sem
  owners : Tbl Nat
  lastForced : Word
  ports : Tbl PortSt
  cmds : Tbl Cmd
  nextCid : Nat
  vols : Tbl Vol
  slices : Tbl SliceSt
  links : Tbl LinkSt
  servos : Tbl ServoSt
  loops : Tbl LoopSt
  clusters : Tbl Cluster
  sched : Sched
  pool : PoolSt
  mem : MemSt
  keys : Tbl KeySlot
  alarms : List AlarmSrc
  pwr : PwrSt
  sensors : Tbl Sensor
  log : LogSt
  fsp : FspSt
  tim : TimSt
  nv : NvSt
  fwu : FwuSt
  out : List Emit
  pending : List Instr
  deriving DecidableEq, Repr

/-- The formatter at power-on, before PG_OUT rises: D00 alone is alive, every register is at its reset value, no key is
loaded, no transport is owned, the buffer has no content, and no command waits (R398, R53, R63, R69, R244, R435). -/
def State.reset : State where
  code := .kxf64A
  tick := 0
  free := 0
  ready := false
  pages := []
  masters := []
  sems := []
  owners := []
  lastForced := 0
  ports := []
  cmds := []
  nextCid := 0
  vols := []
  slices := []
  links := []
  servos := []
  loops := []
  clusters := []
  sched := {}
  pool := {}
  mem := {}
  keys := []
  alarms := []
  pwr := {}
  sensors := []
  log := {}
  fsp := {}
  tim := {}
  nv := {}
  fwu := {}
  out := []
  pending := []

end Sys2Proof.Machine
end

