-- ==== Sys2Proof/Machine/Acc.lean ====
section
/-! DEFINITION. Reading and writing the parts of the state: one reader and one writer for each kind of thing, with the
default that an unlisted entry reads as. -/

namespace Sys2Proof.Machine

/-- Number of a master: its requester ID (R13). -/
def mIdx : Master → Nat
  | .portA => 0
  | .portB => 1
  | .mgmt => 2

/-- Number of a port. -/
def pIdx : Port → Nat
  | .a => 0
  | .b => 1

/-- The master on a port. -/
def portMaster : Port → Master
  | .a => .portA
  | .b => .portB

/-- The port of a master, none for the management core. -/
def masterPort : Master → Option Port
  | .portA => some .a
  | .portB => some .b
  | .mgmt => none

/-- The coding of a holder: 0b01 port A, 0b10 port B, 0b11 management core (R42). -/
def holderCode : Option Master → Nat
  | none => 0
  | some .portA => 1
  | some .portB => 2
  | some .mgmt => 3

/-- Number of a page in the page table of the state. -/
def pageIdx : PageId → Nat
  | .dev => 0
  | .sem => 1
  | .pwr => 2
  | .tim => 3
  | .mgt => 4
  | .fwu => 5
  | .nva => 6
  | .log => 7
  | .pool => 8
  | .mem => 9
  | .key => 10
  | .hp p => 11 + pIdx p
  | .loopG => 13
  | .link n => 16 + 4 * n.val
  | .fmt n => 17 + 4 * n.val
  | .ciph n => 18 + 4 * n.val
  | .servo n => 19 + 4 * n.val
  | .cdc n => 80 + n.val

/-- Transport number as an index. -/
def tFin (n : Nat) : Fin 16 := ⟨n % 16, Nat.mod_lt _ (by decide)⟩

/-- Pages whose CAPS.ENABLE_IMPL is 0 (R53, R68, R417, R481): ENABLE and ENABLED read 1 from reset. -/
def enableImpl : PageId → Bool
  | .dev => false
  | .sem => false
  | .mgt => false
  | .fwu => false
  | _ => true

/-- A page at reset. -/
def pageInit (pg : PageId) : Page := { enabled := !enableImpl pg }

/-- The page `pg`. -/
def page (s : State) (pg : PageId) : Page := tget s.pages (pageIdx pg) (pageInit pg)
/-- Replace page `pg`. -/
def setPage (s : State) (pg : PageId) (x : Page) : State := { s with pages := tput s.pages (pageIdx pg) x }
/-- Change page `pg`. -/
def modPage (s : State) (pg : PageId) (f : Page → Page) : State := setPage s pg (f (page s pg))

/-- The row of the register that `off` lies in, with whether `off` is its HI half. -/
def findRow : List RegRow → Nat → Option (RegRow × Bool)
  | [], _ => none
  | r :: rs, off =>
    let inRow (o : Nat) : Bool := r.off ≤ o && (o - r.off) % r.stride == 0 && (o - r.off) / r.stride < r.cnt
    if inRow off then some (r, false)
    else if r.wide && off ≥ 4 && inRow (off - 4) then some (r, true)
    else findRow rs off

/-- Pool sizes and shares after reset in MiB, by ordering code (R178, R184). -/
def poolReset (c : OrderCode) (off : Nat) : Option Word :=
  let big := c == .kxf64A
  if off == 0x040 then some (if big then 512 else 256)
  else if off == 0x044 then some (if big then 2048 else 1024)
  else if off == 0x048 then some (if big then 27648 else 13824)
  else if off == 0x04C then some (if big then 6144 else 3072)
  else if off == 0x050 then some (if big then 20992 else 10496)
  else if 0x0A0 ≤ off && off < 0x0E0 then some (if big then 3584 else 1792)
  else none

/-- Reset value of a register (the table's, or the code's for the pool). -/
def regReset (c : OrderCode) (pg : PageId) (off : Nat) : Word :=
  match pg, poolReset c off with
  | .pool, some v => v
  | _, _ => match findRow (pageRows pg) off with
    | some (r, false) => r.reset
    | _ => 0

/-- The stored value of a block register. -/
def reg (s : State) (pg : PageId) (off : Nat) : Word :=
  tget (page s pg).regs off (regReset s.code pg off)
/-- Store a block register. -/
def setReg (s : State) (pg : PageId) (off : Nat) (v : Word) : State :=
  modPage s pg fun x => { x with regs := tput x.regs off v }
/-- Store a 64-bit register. -/
def setReg64 (s : State) (pg : PageId) (off : Nat) (v : Nat) : State :=
  setReg (setReg s pg off (BitVec.ofNat 32 v)) pg (off + 4) (BitVec.ofNat 32 (v / 2 ^ 32))
/-- A stored 64-bit register. -/
def reg64 (s : State) (pg : PageId) (off : Nat) : Nat :=
  (reg s pg off).toNat + 2 ^ 32 * (reg s pg (off + 4)).toNat
/-- Bits `[lo + w - 1 : lo]` of a block register. -/
def field (s : State) (pg : PageId) (off lo w : Nat) : Nat :=
  (reg s pg off).toNat / 2 ^ lo % 2 ^ w

/-- What master `m` has of its own. -/
def mst (s : State) (m : Master) : MasterSt := tget s.masters (mIdx m) {}
/-- Replace it. -/
def setMst (s : State) (m : Master) (x : MasterSt) : State := { s with masters := tput s.masters (mIdx m) x }
/-- Change it. -/
def modMst (s : State) (m : Master) (f : MasterSt → MasterSt) : State := setMst s m (f (mst s m))

/-- Semaphore `k`; its token register starts at k + 1 (R69). -/
def sem (s : State) (k : Nat) : Sem := tget s.sems k { token := BitVec.ofNat 16 (k + 1) }
/-- Replace semaphore `k`. -/
def setSem (s : State) (k : Nat) (x : Sem) : State := { s with sems := tput s.sems k x }

/-- Owner of transport `n`: 0 none, 1 port A, 2 port B (R63). -/
def owner (s : State) (n : Nat) : Nat := tget s.owners n 0
/-- Set the owner of transport `n`. -/
def setOwner (s : State) (n v : Nat) : State := { s with owners := tput s.owners n v }

/-- Host port `p`. -/
def port (s : State) (p : Port) : PortSt := tget s.ports (pIdx p) {}
/-- Replace port `p`. -/
def setPort (s : State) (p : Port) (x : PortSt) : State := { s with ports := tput s.ports (pIdx p) x }
/-- Change port `p`. -/
def modPort (s : State) (p : Port) (f : PortSt → PortSt) : State := setPort s p (f (port s p))

/-- SQ `q` of port `p`. -/
def sq (s : State) (p : Port) (q : Nat) : Sq := tget (port s p).sqs q {}
/-- Replace SQ `q`. -/
def setSq (s : State) (p : Port) (q : Nat) (x : Sq) : State := modPort s p fun t => { t with sqs := tput t.sqs q x }
/-- Change SQ `q`. -/
def modSq (s : State) (p : Port) (q : Nat) (f : Sq → Sq) : State := setSq s p q (f (sq s p q))

/-- CQ `c` of port `p`. -/
def cq (s : State) (p : Port) (c : Nat) : Cq := tget (port s p).cqs c {}
/-- Replace CQ `c`. -/
def setCq (s : State) (p : Port) (c : Nat) (x : Cq) : State := modPort s p fun t => { t with cqs := tput t.cqs c x }
/-- Change CQ `c`. -/
def modCq (s : State) (p : Port) (c : Nat) (f : Cq → Cq) : State := setCq s p c (f (cq s p c))

/-- A command that is not there. -/
def noCmd : Cmd := { port := .a, sq := 0, bytes := [], phase := .ended }
/-- Started command `i`; one that never started reads as ended. -/
def cmd (s : State) (i : Nat) : Cmd := tget s.cmds i noCmd
/-- Replace command `i`. -/
def setCmd (s : State) (i : Nat) (x : Cmd) : State := { s with cmds := tput s.cmds i x }
/-- Change command `i`. -/
def modCmd (s : State) (i : Nat) (f : Cmd → Cmd) : State := setCmd s i (f (cmd s i))

/-- Volume `v` = 4n + p. -/
def vol (s : State) (v : Nat) : Vol := tget s.vols v {}
/-- Replace volume `v`. -/
def setVol (s : State) (v : Nat) (x : Vol) : State := { s with vols := tput s.vols v x }
/-- Change volume `v`. -/
def modVol (s : State) (v : Nat) (f : Vol → Vol) : State := setVol s v (f (vol s v))

/-- Slice `n`. -/
def slice (s : State) (n : Nat) : SliceSt := tget s.slices n {}
/-- Replace slice `n`. -/
def setSlice (s : State) (n : Nat) (x : SliceSt) : State := { s with slices := tput s.slices n x }
/-- Change slice `n`. -/
def modSlice (s : State) (n : Nat) (f : SliceSt → SliceSt) : State := setSlice s n (f (slice s n))

/-- Link `n`. -/
def link (s : State) (n : Nat) : LinkSt := tget s.links n {}
/-- Replace link `n`. -/
def setLink (s : State) (n : Nat) (x : LinkSt) : State := { s with links := tput s.links n x }
/-- Change link `n`. -/
def modLink (s : State) (n : Nat) (f : LinkSt → LinkSt) : State := setLink s n (f (link s n))

/-- Servo part of transport `n`. -/
def servo (s : State) (n : Nat) : ServoSt := tget s.servos n {}
/-- Replace it. -/
def setServo (s : State) (n : Nat) (x : ServoSt) : State := { s with servos := tput s.servos n x }
/-- Change it. -/
def modServo (s : State) (n : Nat) (f : ServoSt → ServoSt) : State := setServo s n (f (servo s n))

/-- Loop `i`. -/
def loop (s : State) (i : Nat) : LoopSt := tget s.loops i {}
/-- Replace loop `i`. -/
def setLoop (s : State) (i : Nat) (x : LoopSt) : State := { s with loops := tput s.loops i x }
/-- Change loop `i`. -/
def modLoop (s : State) (i : Nat) (f : LoopSt → LoopSt) : State := setLoop s i (f (loop s i))

/-- Codec cluster `m`. -/
def cluster (s : State) (m : Nat) : Cluster := tget s.clusters m {}
/-- Replace cluster `m`. -/
def setCluster (s : State) (m : Nat) (x : Cluster) : State := { s with clusters := tput s.clusters m x }
/-- Change cluster `m`. -/
def modCluster (s : State) (m : Nat) (f : Cluster → Cluster) : State := setCluster s m (f (cluster s m))

/-- Key slot `k`. -/
def keySlot (s : State) (k : Nat) : KeySlot := tget s.keys k {}
/-- Replace key slot `k`. -/
def setKey (s : State) (k : Nat) (x : KeySlot) : State := { s with keys := tput s.keys k x }
/-- Change key slot `k`. -/
def modKey (s : State) (k : Nat) (f : KeySlot → KeySlot) : State := setKey s k (f (keySlot s k))

/-- Sensor `k`. -/
def sensor (s : State) (k : Nat) : Sensor := tget s.sensors k {}
/-- Replace sensor `k`. -/
def setSensor (s : State) (k : Nat) (x : Sensor) : State := { s with sensors := tput s.sensors k x }

/-- A number of the image in slot A at manufacture. -/
def factory (i n : Nat) : Nat := Config.factoryImage i % 2 ^ n

/-- Boot block 0 at manufacture: it names slot A and is confirmed (R447, R451). -/
def factoryBlk : BootBlk :=
  { valid := true, version := factory 0 16, svn := factory 1 16, confirm := some (factory 1 16) }

/-- The image in slot A at manufacture. -/
def factoryInfo : ImgInfo :=
  { version := factory 0 16, svn := factory 1 16, format := factory 2 8, kxh2 := factory 3 16,
    kxh2Image := Config.factoryBridge }

/-- Boot block `k`. -/
def bootBlk (s : State) (k : Nat) : BootBlk := tget s.fwu.blocks k (if k = 0 then factoryBlk else {})

/-- What is known of the image in slot `k`. -/
def slotImage (s : State) (k : Nat) : ImgInfo := tget s.fwu.slots k (if k = 0 then factoryInfo else {})

/-- The slot of the running image: the one that the current boot block names (R447, R472). -/
def runSlot (s : State) : Nat := (bootBlk s s.fwu.block).slot
/-- The running image. -/
def runImage (s : State) : ImgInfo := slotImage s (runSlot s)
/-- The running image is in trial (R447). -/
def inTrial (s : State) : Bool := (bootBlk s s.fwu.block).confirm.isNone

/-- Record something the formatter sends. -/
def emit (s : State) (e : Emit) : State := { s with out := e :: s.out }

/-- The counter in ns (R435). -/
def now (s : State) : Nat := s.tim.count / 2 ^ 32 % 2 ^ 64

/-- Nanoseconds of device time, for leases and timers: one TCXO cycle is 40 ns. -/
def clock (s : State) : Nat := 40 * s.tick

/-- The time that leases run on: it stands still in an activation pause (R75). -/
def leaseClock (s : State) : Nat := if s.fwu.paused then s.fwu.pausedAt else clock s

/-- A free value: nothing constrains it. -/
def freeVal (s : State) : Nat := Config.freeNat s.free
/-- The next free value is a fresh one. -/
def nextFree (s : State) : State := { s with free := s.free + 1 }

/-- `n` little-endian bytes of `v` (R9). -/
def leBytes : Nat → Nat → List Byte
  | 0, _ => []
  | n + 1, v => BitVec.ofNat 8 v :: leBytes n (v / 256)

/-- The number that little-endian bytes spell (R9). -/
def leNat : List Byte → Nat
  | [] => 0
  | b :: r => b.toNat + 256 * leNat r

/-- Bytes `[off, off + n)` of a list; bytes that are not there read 0. -/
def sub (l : List Byte) (off n : Nat) : List Byte :=
  (List.range n).map fun i => l.getD (off + i) 0

/-- The little-endian number in bytes `[off, off + n)`. -/
def leAt (l : List Byte) (off n : Nat) : Nat := leNat (sub l off n)

/-- A list of `n` zero bytes. -/
def zeros (n : Nat) : List Byte := List.replicate n 0

/-- `l` cut or filled with zeros to `n` bytes. -/
def padTo (l : List Byte) (n : Nat) : List Byte := sub l 0 n

/-- Overwrite the bytes of `l` from `off` on. -/
def splice (l : List Byte) (off : Nat) (b : List Byte) : List Byte :=
  l.take off ++ b ++ l.drop (off + b.length)

/-- ⌈a / b⌉. -/
def ceilDiv (a b : Nat) : Nat := (a + b - 1) / b

/-- Truth as a bit. -/
def bit (b : Bool) : Nat := if b then 1 else 0

/-- A word from a number. -/
def w32 (n : Nat) : Word := BitVec.ofNat 32 n
/-- A 64-bit word from a number. -/
def w64 (n : Nat) : DWord := BitVec.ofNat 64 n

/-- The value that means "no segment" and "no LBN": all ones of 64 bits (R293, R105). -/
def allOnes : Nat := 0xFFFFFFFFFFFFFFFF

end Sys2Proof.Machine
end

