-- ==== Sys2Proof/Machine/Crc.lean ====
section
/-! DEFINITION. The cyclic redundancy codes of the spec, bit by bit. -/

namespace Sys2Proof.Machine

/-- One bit step of a reflected CRC with polynomial `poly`. -/
def crcStepR {w : Nat} (poly c : BitVec w) : BitVec w :=
  if c.getLsbD 0 then (c >>> 1) ^^^ poly else c >>> 1

/-- `n` steps. -/
def iter {α : Type} (f : α → α) : Nat → α → α
  | 0, x => x
  | n + 1, x => iter f n (f x)

/-- One byte of a reflected CRC. -/
def crcByteR {w : Nat} (poly c : BitVec w) (b : Byte) : BitVec w :=
  iter (crcStepR poly) 8 (c ^^^ b.setWidth w)

/-- CRC-32C of bytes (R204). -/
def crc32c (bs : List Byte) : Word :=
  (bs.foldl (crcByteR 0x82F63B78) (0xFFFFFFFF : Word)) ^^^ 0xFFFFFFFF

/-- One bit step of an unreflected CRC with polynomial `poly`. -/
def crcStep {w : Nat} (poly c : BitVec w) : BitVec w :=
  if c.getLsbD (w - 1) then (c <<< 1) ^^^ poly else c <<< 1

/-- One byte of an unreflected CRC. -/
def crcByte {w : Nat} (poly c : BitVec w) (b : Byte) : BitVec w :=
  iter (crcStep poly) 8 (c ^^^ (b.setWidth w <<< (w - 8)))

/-- CRC-16 of bytes (R285). -/
def crc16 (bs : List Byte) : BitVec 16 := bs.foldl (crcByte 0x1021) (0xFFFF : BitVec 16)

/-- CRC-64 of bytes (R294). -/
def crc64 (bs : List Byte) : DWord :=
  (bs.foldl (crcByteR 0xC96C5795D7870F42) (0xFFFFFFFFFFFFFFFF : DWord)) ^^^ 0xFFFFFFFFFFFFFFFF

end Sys2Proof.Machine
end

