-- ==== Sys2Proof/Machine/Flags.lean ====
section
/-! DEFINITION. The status words that the formatter computes: the page header (R35 to R42), domains and gating, the event
summary (R60), and the condition of an event interrupt (R61). -/

namespace Sys2Proof.Machine

/-- ID block type of a page (R29). -/
def pageType : PageId → Nat
  | .dev => 0x01
  | .sem => 0x02
  | .pwr => 0x03
  | .tim => 0x04
  | .mgt => 0x05
  | .fwu => 0x06
  | .nva => 0x07
  | .log => 0x08
  | .pool => 0x09
  | .mem => 0x0A
  | .key => 0x0B
  | .hp _ => 0x0C
  | .loopG => 0x15
  | .link _ => 0x10
  | .fmt _ => 0x11
  | .ciph _ => 0x12
  | .servo _ => 0x13
  | .cdc _ => 0x14

/-- `ID.INSTANCE` of a page (R35). -/
def pageInst : PageId → Nat
  | .hp p => pIdx p
  | .link n => n.val
  | .fmt n => n.val
  | .ciph n => n.val
  | .servo n => n.val
  | .cdc n => n.val
  | _ => 0

/-- BAR 0 address of a page (R29). -/
def pageBase : PageId → Nat
  | .dev => 0x0
  | .sem => 0x1000
  | .pwr => 0x2000
  | .tim => 0x3000
  | .mgt => 0x4000
  | .fwu => 0x5000
  | .nva => 0x6000
  | .log => 0x7000
  | .pool => 0x8000
  | .mem => 0x9000
  | .key => 0xA4000
  | .hp p => 0x10000 + 0x10000 * pIdx p
  | .loopG => 0x90000
  | .link n => 0x40000 + n.val * 0x4000
  | .fmt n => 0x41000 + n.val * 0x4000
  | .ciph n => 0x42000 + n.val * 0x4000
  | .servo n => 0x43000 + n.val * 0x4000
  | .cdc n => 0x80000 + n.val * 0x1000

/-- Number of the semaphore that guards a page (R46); 0x3F for none. -/
def guardSem : PageId → Nat
  | .sem => 0x3F
  | .hp _ => 0x3F
  | .pwr => 3
  | .fwu => 2
  | .nva => 2
  | .key => 1
  | .link n => 4 + n.val
  | .fmt n => 4 + n.val
  | .ciph n => 4 + n.val
  | .servo n => 4 + n.val
  | _ => 0

/-- The transport a page belongs to. -/
def pageTransport : PageId → Option Nat
  | .link n => some n.val
  | .fmt n => some n.val
  | .ciph n => some n.val
  | .servo n => some n.val
  | _ => none

/-- `ABORT_IMPL`, `IDLE_GATED` and `COUNTERS` of a page, and its EXIT_LAT (R36, R53, R90, R177, R184, R235, R246, R265,
R303, R368, R393, R395, R413, R417, R429, R441, R466, R481). -/
def capsOf : PageId → Bool × Bool × Bool × Nat
  | .dev => (false, false, false, 0)
  | .hp _ => (true, false, true, 0)
  | .cdc _ => (true, true, true, 200)
  | .ciph _ => (false, true, true, 200)
  | .fmt _ => (true, true, true, 200)
  | .link _ => (true, false, true, 0)
  | .servo _ => (true, false, true, 0)
  | .nva => (true, false, true, 0)
  | _ => (false, false, true, 0)

/-- `ABORT_IMPL` of a page. -/
def abortImpl (pg : PageId) : Bool := (capsOf pg).1

/-- The domain that a page's work lies in, for the domains the formatter gates (R12, R24, R406, R407). -/
def pageDomain : PageId → Option Nat
  | .loopG => some 3
  | .cdc n => some (16 + n.val)
  | .link n => some (32 + 3 * n.val)
  | .fmt n => some (33 + 3 * n.val)
  | .ciph n => some (33 + 3 * n.val)
  | .servo n => some (34 + 3 * n.val)
  | _ => none

/-- Whether domain `d` is gated. -/
def domGated (s : State) (d : Nat) : Bool := s.pwr.gated.contains d

/-- Whether the domain of a page is gated (R38). -/
def pageGated (s : State) (pg : PageId) : Bool :=
  match pageDomain pg with
  | some d => domGated s d
  | none => false

/-- `STAT.ENABLED`. -/
def enabled (s : State) (pg : PageId) : Bool := (page s pg).enabled
/-- Enabled and not draining: what a dependent page's check asks of it (R50). -/
def enabledNow (s : State) (pg : PageId) : Bool := (page s pg).enabled && !(page s pg).draining

/-- `ID` (R35). -/
def idReg (pg : PageId) : Word := w32 (pageType pg * 2 ^ 24 + pageInst pg * 2 ^ 16 + 0x0100)

/-- `CAPS` (R36). -/
def capsReg (pg : PageId) : Word :=
  let (a, g, c, lat) := capsOf pg
  w32 (bit (enableImpl pg) + 2 * bit a + 4 * bit g + 8 * bit c
    + 16 * (Config.capsBits (pageIdx pg)).toNat + 2 ^ 16 * lat)

/-- `CTRL` (R37): ENABLE reads the requested state, the action bits read 0. -/
def ctrlReg (s : State) (pg : PageId) : Word := w32 (bit (enabledNow s pg))

/-- `STAT` (R38). -/
def statReg (s : State) (pg : PageId) : Word :=
  let x := page s pg
  w32 (bit x.enabled + 2 * bit x.draining + 4 * bit x.fault + 8 * bit (pageGated s pg)
    + (if pg = .dev then 2 ^ 16 * bit s.ready else 0))

/-- `CHECK` (R39). -/
def checkReg (s : State) (pg : PageId) : Word :=
  let x := page s pg
  w32 (x.reason.toNat + 2 ^ 16 * x.field.toNat)

/-- WRITER of a page that is not a transport's, or of transport `n` (R42). -/
def writerCode (s : State) (pg : PageId) : Nat :=
  match pageTransport pg with
  | some n => if owner s n = 1 then 1 else if owner s n = 2 then 2 else 3
  | none => match pg with
    | .hp p => 1 + pIdx p
    | _ => 0

/-- `OWNER` (R42). -/
def ownerReg (s : State) (pg : PageId) : Word :=
  let g := guardSem pg
  w32 (writerCode s pg + 2 ^ 8 * g + (if g = 0x3F then 0 else 2 ^ 16 * holderCode (sem s g).holder))

/-- A page has a pending event (R60). -/
def pendingEvt (s : State) (pg : PageId) : Bool := (page s pg).evt &&& (page s pg).evtEn != 0

/-- The pages of EVT_SUM0 in bit order (R60). -/
def sum0Pages : List PageId :=
  [.dev, .sem, .pwr, .tim, .mgt, .fwu, .nva, .log, .pool, .mem, .key, .hp .a, .hp .b, .loopG]

/-- The bits of a list of truths, first at bit 0. -/
def bitsOf : List Bool → Nat
  | [] => 0
  | b :: r => bit b + 2 * bitsOf r

/-- `DEV.EVT_SUM0` (R60). -/
def evtSum0 (s : State) : Word := w32 (bitsOf (sum0Pages.map (pendingEvt s)))

/-- Any page of transport `n` is pending. -/
def tslPending (s : State) (n : Fin 16) : Bool :=
  pendingEvt s (.link n) || pendingEvt s (.fmt n) || pendingEvt s (.ciph n) || pendingEvt s (.servo n)

/-- The sixteen transport (or cluster) numbers. -/
def all16 : List (Fin 16) := (List.range 16).map tFin

/-- `DEV.EVT_SUM1` (R60). -/
def evtSum1 (s : State) : Word :=
  w32 (bitsOf (all16.map (tslPending s) ++ all16.map fun n => pendingEvt s (.cdc n)))

/-- Port `p` selects a pending page (R61). -/
def evtSelected (s : State) (p : Port) : Bool :=
  (evtSum0 s &&& reg s (.hp p) 0x040) != 0 || (evtSum1 s &&& reg s (.hp p) 0x044) != 0

/-- The port can send to its host: its link is up, its function is in D0 (R506), and no activation pause holds it (R157). -/
def portSends (s : State) (p : Port) : Bool :=
  (port s p).linkUp && !(port s p).d3hot && !s.fwu.paused

/-- An event interrupt is due at port `p` (R61). -/
def evtDue (s : State) (p : Port) : Bool := (port s p).armed && portSends s p && evtSelected s p

end Sys2Proof.Machine
end

