-- ==== Sys2Proof/Machine/Ops.lean ====
section
/-! DEFINITION. The operations every block shares: statistics counters, event bits, the event log, device faults, MSI-X
messages, forced release of semaphores, and the settling of event interrupts after each command. -/

namespace Sys2Proof.Machine

/-- The row of a page's statistics counter `k`. -/
def ctrRow (k : Nat) : List RegRow → Option RegRow
  | [] => none
  | r :: rs => if r.ctr = some k then some r else ctrRow k rs

/-- Largest value of counter `k` of a page (R58). On SERVO, counters 2 + 3j are the 64-bit SAMPLES of loop j (R394). -/
def ctrMax (pg : PageId) (k : Nat) : Nat :=
  let wide := match ctrRow k (pageRows pg) with
    | some r => r.wide
    | none => k % 3 == 2
  if wide then 2 ^ 64 - 1 else 2 ^ 32 - 1

/-- Value of counter `k`. -/
def ctrVal (s : State) (pg : PageId) (k : Nat) : Nat := tget (page s pg).ctrs k 0

/-- Set an EVT bit without an event-log entry (R40). -/
def setEvt (s : State) (pg : PageId) (b : Nat) : State :=
  modPage s pg fun x => { x with evt := x.evt ||| w32 (2 ^ b) }

/-- Count `n` events on counter `k` of a page; an event that cannot be counted sets COUNTER_SAT (R58). -/
def count (s : State) (pg : PageId) (k : Nat) (n : Nat := 1) : State :=
  let v := ctrVal s pg k + n
  if v ≤ ctrMax pg k then modPage s pg fun x => { x with ctrs := tput x.ctrs k v }
  else setEvt (modPage s pg fun x =>
    { x with ctrs := tput x.ctrs k (ctrMax pg k), sat := x.sat ||| w32 (2 ^ k) }) pg 3

/-- Sections R426: the 64 bytes of an event-log entry. -/
def entryBytes (e : LogEntry) : List Byte :=
  let head := leBytes 8 e.seq ++ leBytes 8 e.tai ++ leBytes 2 e.code
    ++ leBytes 1 e.source ++ leBytes 1 e.inst ++ leBytes 1 e.severity ++ leBytes 1 e.requester
    ++ leBytes 1 (bit e.taiValid + 2 * bit e.summary + 4 * bit e.deferred) ++ zeros 1
    ++ leBytes 8 e.d0 ++ leBytes 8 e.d1 ++ leBytes 8 e.d2 ++ leBytes 8 e.d3 ++ zeros 4
  head ++ leBytes 4 (crc32c head).toNat

/-- An FSP datagram (R431): header, payload and, under a session key, its TAG. -/
def fspDatagram (ty session seq opcode status : Nat) (payload : List Byte) (key : Option (List Byte)) : List Byte :=
  let body := leBytes 2 0x5346 ++ leBytes 1 1 ++ leBytes 1 ty ++ leBytes 4 session ++ leBytes 4 seq
    ++ leBytes 2 opcode ++ leBytes 2 status ++ leBytes 2 payload.length ++ zeros 6 ++ payload
  match key with
  | some k => body ++ padTo (Config.hmacSha384 k body) 48
  | none => body

/-- Send `payload` as a NOTIFY to every authenticated session (R432). -/
def notifyAll (s : State) (payload : List Byte) : State :=
  let ss := s.fsp.sessions
  let s := (ss.filter (·.authed)).foldl
    (fun s x => emit s (.fsp (fspDatagram 2 x.id (x.txSeq + 1) 0 0 payload (some x.key)))) s
  { s with fsp := { s.fsp with sessions := ss.map fun x => if x.authed then { x with txSeq := x.txSeq + 1 } else x } }

/-- What the management core does with an entry it has written: SEVERE, UART and NOTIFY for severity 2 and 3 (R429,
R432, R434). -/
def announce (s : State) (e : LogEntry) : State :=
  if e.severity < 2 then s
  else notifyAll (emit (setEvt s .log 8) (.uart (entryBytes e))) (entryBytes e)

/-- A unit operation of the management core outside its queue takes its place behind the one in progress and before any of a
descriptor (R464). -/
def nvInternal (s : State) (bank : Nat) (us : List NvUnit) : State :=
  let mine (x : NvOwner × NvUnit) : Bool := x.1 == .internal
  let put (l : List (NvOwner × NvUnit)) : List (NvOwner × NvUnit) :=
    let n := 1 + ((l.drop 1).takeWhile mine).length
    l.take n ++ us.map (fun u => (NvOwner.internal, u)) ++ l.drop n
  { s with nv := { s.nv with units := tput s.nv.units bank (put (tget s.nv.units bank [])) } }

/-- Replace the event log. -/
def setLog (s : State) (l : LogSt) : State := { s with log := l }

/-- Array address of sector `k` of the event-log ring (R446). -/
def logAddr (k : Nat) : Nat := 0x1000000 * (k / 512) + 0x840000 + k % 512 * 4096

/-- The next sector of the ring after `k` that has not left it (R425). -/
def nextLogSector (l : LogSt) (k : Nat) : Nat :=
  ((List.range 1024).map fun i => (k + 1 + i) % 1024).find? (fun j => !l.lost.contains j) |>.getD k

/-- The number after `n` of the statistics class, 64 bits wide: it holds at the largest (R57, R58). -/
def nextNo (n : Nat) : Nat := min (n + 1) (2 ^ 64 - 1)

/-- Enter `e` in the ring: entering a sector erases it and loses the 64 entries it held (R425). -/
def logPush (s : State) (e : LogEntry) : State :=
  let l := s.log
  let fresh := 64 ≤ l.inSector
  let k := if fresh then nextLogSector l l.sector else l.sector
  let i := if fresh then 0 else l.inSector
  let e := { e with seq := l.nextSeq }
  let es := e :: (if fresh then l.entries.take (l.capacity - 64) else l.entries)
  let s := setLog s { l with entries := es, nextSeq := nextNo l.nextSeq, oldest := l.nextSeq + 1 - es.length, sector := k,
                             inSector := i + 1 }
  nvInternal s (k / 512)
    ((if fresh then [.erase (logAddr k)] else []) ++ [.program (logAddr k + 64 * i) (entryBytes e)])

/-- Write an event-log entry, or hold it in TCM while the store is below 90 % (R410, R425). Held entries take their sequence
numbers at once. -/
def logWrite (s : State) (e : LogEntry) : State :=
  if s.pwr.charge ≥ 90 && s.log.held == 0 then announce (logPush s e) { e with seq := s.log.nextSeq }
  else if s.log.held < 256 then
    let l := s.log
    let x := { e with deferred := true, seq := l.nextSeq }
    setLog s { l with entries := x :: l.entries, nextSeq := nextNo l.nextSeq, held := l.held + 1,
                      oldest := l.nextSeq - l.entries.length }
  else
    count (setLog s { s.log with heldDropped := s.log.heldDropped + 1 }) .log 1

/-- The SUMMARY entry of a fold at the end of its second, where it went beyond 16 (R428). -/
def logFoldEnd (s : State) (f : LogFold) : State :=
  if f.count ≤ 16 then s
  else logWrite s { f.last with tai := now s, taiValid := s.tim.taiValid, summary := true, d3 := f.count - 16 }

/-- Fold an event, or write its entry: beyond 16 of one CODE, SOURCE and INSTANCE in a second of the counter (R428). -/
def logEvent (s : State) (e : LogEntry) : State :=
  let same (f : LogFold) : Bool := f.code == e.code && f.source == e.source && f.inst == e.inst
  let sec := now s / 1000000000
  let put (s : State) (f : LogFold) : State := setLog s { s.log with folds := f :: s.log.folds.filter fun x => !same x }
  let first (s : State) : State := logWrite (put s { sec := sec, code := e.code, source := e.source, inst := e.inst, count := 1, last := e }) e
  match s.log.folds.find? same with
  | none => first s
  | some f =>
    if f.sec != sec then first (logFoldEnd s f)
    else
      let s := put s { f with count := f.count + 1, last := e }
      if f.count < 16 then logWrite s e else count s .log 0

/-- An entry of a management code (R427): SOURCE 0x05, INSTANCE 0. -/
def mgmtEntry (s : State) (code sev req d0 d1 d2 d3 : Nat) : LogEntry :=
  { seq := 0, tai := now s, code := code, source := 5, inst := 0, severity := sev, requester := req,
    taiValid := s.tim.taiValid, d0 := d0, d1 := d1, d2 := d2, d3 := d3 }

/-- Log a management code. -/
def logMgmt (s : State) (code sev req : Nat) (d0 d1 d2 d3 : Nat := 0) : State :=
  logEvent s (mgmtEntry s code sev req d0 d1 d2 d3)

/-- The EVT bits that the chapters mark "written to the event log". -/
def loggedBits : PageId → List Nat
  | .hp _ => [10, 12]
  | .mem => [8, 9, 10, 11]
  | .pool => [12, 13]
  | .cdc _ => [8, 9, 10, 11]
  | .key => [8, 9, 11]
  | .ciph _ => [8, 9, 10]
  | .fmt _ => [8, 9, 10, 12, 13, 14, 15, 16, 17]
  | .link _ => [8, 9, 10, 11, 13, 14, 16]
  | .servo _ => [8]
  | .loopG => [8]
  | .pwr => [10]
  | .mgt => [10, 11, 12, 13]
  | .tim => [8, 9, 10, 11, 12]
  | .nva => [10, 11, 12, 13]
  | .fwu => [9, 10, 11, 12, 13]
  | _ => []

/-- Raise event `b` of a page: its EVT bit and, where the chapter says so, its event-log entry (R62, R427). -/
def raise (s : State) (pg : PageId) (b : Nat) (d0 : Nat := 0) (req : Nat := 0x3F) : State :=
  let s := setEvt s pg b
  if (loggedBits pg).contains b then
    let code := pageType pg * 256 + b
    logEvent s { seq := 0, tai := now s, code := code, source := pageType pg, inst := pageInst pg,
                 severity := Config.blockSeverity code % 4, requester := req, taiValid := s.tim.taiValid,
                 d0 := d0, d1 := (statReg s pg).toNat }
  else s

/-- A device fault of a block (R56): STAT.FAULT, EVT.FAULT and a DEVICE_FAULT entry. -/
def deviceFault (s : State) (pg : PageId) (addr req : Nat) : State :=
  let s := setEvt (modPage s pg fun x => { x with fault := true }) pg 2
  logMgmt s 0x0585 3 req addr req (pageType pg * 256 + pageInst pg) 0

/-- The result of a check (R39, R48): reason and field, and CHECK_FAILED where it failed. -/
def setCheck (s : State) (pg : PageId) (reason fieldNo : Nat) : State :=
  let s := modPage s pg fun x => { x with reason := BitVec.ofNat 16 reason, field := BitVec.ofNat 8 fieldNo }
  if reason = 0 then s else setEvt s pg 0

/-- Word `i` of a port's MSI-X table; the vector-control word starts masked. -/
def msixWord (s : State) (p : Port) (i : Nat) : Word := tget (port s p).msixTable i (if i % 4 = 3 then 1 else 0)

/-- Send the MSI-X message of a vector, or set its pending bit while it is masked (R61, R88). -/
def sendMsix (s : State) (p : Port) (v : Nat) : State :=
  if (port s p).msixMasked || (msixWord s p (4 * v + 3)).getLsbD 0 then
    modPort s p fun t => { t with msixPba := if t.msixPba.contains v then t.msixPba else v :: t.msixPba }
  else
    emit s (.msix p ((msixWord s p (4 * v)).toNat + 2 ^ 32 * (msixWord s p (4 * v + 1)).toNat)
      (msixWord s p (4 * v + 2)))

/-- Send the event interrupt of a port if it is due, and disarm it (R61). -/
def settlePort (s : State) (p : Port) : State :=
  if evtDue s p then
    modPort (sendMsix s p (field s (.hp p) 0x048 0 7)) p fun t => { t with armed := false }
  else s

/-- Both ports' event interrupts after a command (R61). -/
def settle (s : State) : State := settlePort (settlePort s .a) .b

/-- Set `SEM.LAST_FORCED`. -/
def setForced (s : State) (w : Word) : State := { s with lastForced := w }

/-- Release semaphore `k` by force (R74), with cause 0 lease expired, 1 holder frozen, 2 port reset. -/
def forceRelease (s : State) (k : Nat) (cause : Nat) : State :=
  match (sem s k).holder with
  | none => s
  | some m =>
    let s := setSem s k { sem s k with holder := none }
    let s := setForced s (w32 (k + 2 ^ 8 * holderCode (some m) + 2 ^ 10 * cause))
    logMgmt (setEvt (count s .sem 0) .sem 8) 0x058B 1 (mIdx m) k cause

/-- Release by force every semaphore that `m` holds. -/
def forceReleaseAll (s : State) (m : Master) (cause : Nat) : State :=
  (List.range 32).foldl (fun s k => if (sem s k).holder = some m then forceRelease s k cause else s) s

/-- Whether `m` holds semaphore `k`. -/
def holds (s : State) (m : Master) (k : Nat) : Bool := (sem s k).holder = some m

/-- Grant semaphore `k` to `m` (R69): the token register advances, the lease starts at 100 ms. -/
def grantSem (s : State) (m : Master) (k : Nat) : State :=
  let r := (sem s k).token
  let t := if r.getLsbD 0 then (r >>> 1) ^^^ 0xB400 else r >>> 1
  setSem s k { holder := some m, token := t, lease := 100, due := leaseClock s + 100000000 }

/-- `SEM.MY_RESULT` of a master (R72). -/
def semResult (s : State) (m : Master) (k r : Nat) : State :=
  modMst s m fun x => { x with semRes := BitVec.ofNat 4 r, semNo := BitVec.ofNat 6 k }

/-- A domain is ungated; D04 with the first slice domain (R21, R407). -/
def ungate (s : State) (d : Nat) : State :=
  if s.pwr.gated.contains d then
    let up := 32 ≤ d && d % 3 == 0
    let s := { s with pwr := { s.pwr with gated := s.pwr.gated.filter fun e => e != d && !(up && e == 4),
                                          gateWait := s.pwr.gateWait.filter (· != d) } }
    count s .pwr 2
  else s

/-- The answer of a command: the next state, with both ports' event interrupts settled (R61) and the queue as it was. -/
def finish (s t : State) : Host.Outcome State Fault Refusal := .next { settle t with pending := s.pending }

/-- The answer of a command whose operands must spell a command of the hardware. -/
def finishIf (ok : Bool) (s t : State) : Host.Outcome State Fault Refusal := if ok then finish s t else .fault .malformed

end Sys2Proof.Machine
end

