-- ==== Sys2Proof/Machine/Clock.lean ====
section
/-! DEFINITION. The timebase: the TCXO tick (R435), STEP and SLEW (R436), the PPS discipline (R437) and PPS_OUT (R438). -/

namespace Sys2Proof.Machine

/-- Change the timebase. -/
def modTim (s : State) (f : TimSt → TimSt) : State := { s with tim := f s.tim }

/-- FREQ_ADJ in 2^-32 ns a cycle: the factory trim and what the discipline has added (R435). -/
def freqAdj (s : State) : Word := Config.factoryTrim + s.tim.freqAdj

/-- What a slew gains in one TCXO cycle: 200 ppm of 40 ns, in 2^-32 ns (R436). -/
def slewGain : Nat := 34359738

/-- Part of a slew that one cycle gains. -/
def slewPart (left : Int) : Int := if left < -(slewGain : Int) then -(slewGain : Int) else if (slewGain : Int) < left then slewGain else left

/-- Milliseconds since the present lap of the scrubber began (R177). -/
def lapAge (s : State) : Nat := (clock s - s.mem.ageFrom) / 1000000

/-- `MEM.SCRUB_LAP_AGE`, counter 5, cannot count a millisecond that has passed since `s` (R58, R177). -/
def ageSat (s t : State) : State :=
  if lapAge s < lapAge t && 2 ^ 32 ≤ lapAge t then settle (setEvt (modPage t .mem fun x => { x with sat := x.sat ||| 0x20 }) .mem 3) else t

/-- One TCXO cycle: the counter adds 40 ns and FREQ_ADJ, and what a slew gains (R435, R436). Nothing moves while the TCXO
is stopped or D00 has no power. -/
def tcxoTick (s : State) : State :=
  if !s.pwr.tcxo || !s.pwr.supplied then s
  else
    let t := s.tim
    let g := if t.slewing then slewPart t.slewLeft else 0
    let c : Int := (t.count : Int) + 40 * 2 ^ 32 + (freqAdj s).toInt + g
    ageSat s { s with tick := s.tick + 1, tim := { t with count := (c % 2 ^ 96).toNat, slewLeft := t.slewLeft - g } }

/-- DISC_STATE is LOCKING or LOCKED. -/
def disciplined (s : State) : Bool := s.tim.disc == .locking || s.tim.disc == .locked

/-- The counter changes by a step: EVT.STEPPED, STEPS and a TIME_STEP entry, with cause 0 STEP or 1 discipline (R436, R437). -/
def timeStep (s : State) (count cause req : Nat) : State :=
  let a := now s
  let s := modTim s fun t => { t with count := count }
  logMgmt (raise (count1 s) .tim 8 0 req) 0x058A 1 req a (now s) cause
where
  /-- STEPS counts. -/
  count1 (s : State) : State := Machine.count s .tim 1

/-- `TIM.CMD.STEP` (R436). -/
def timCmdStep (s : State) (m : Master) : State :=
  let set := reg64 s .tim 0x058
  let c := if disciplined s then set / 1000000000 * 1000000000 + now s % 1000000000 else set
  let s := timeStep s (c % 2 ^ 64 * 2 ^ 32) 0 (mIdx m)
  modTim s fun t => { t with taiValid := true, slewing := false, slewLeft := 0 }

/-- `TIM.CMD.SLEW` (R436). -/
def timCmdSlew (s : State) : State :=
  let a := (reg s .tim 0x060).toInt
  if 1000000000 < a.natAbs || disciplined s then setEvt s .tim 13
  else modTim s fun t => { t with slewing := true, slewLeft := a * 2 ^ 32 }

/-- The slew has gained ADJUST ns (R436). -/
def slewEnd (s : State) : State :=
  if s.tim.slewing then
    modTim s fun t => { t with count := (((t.count : Int) + t.slewLeft) % 2 ^ 96).toNat, slewing := false, slewLeft := 0 }
  else s

/-- Enabling TIM with DISCIPLINE starts LOCKING; without, or disabled, the discipline is OFF (R437). -/
def discSet (s : State) : State :=
  let on := (page s .tim).enabled && field s .tim 0x040 0 1 == 1
  modTim s fun t => { t with disc := if on then .locking else .off, stepped := false, goodEdges := 0, validEdge := none }

/-- The error of an edge: its time less PPS_IN_DELAY, modulo 10^9, in -5 x 10^8 to just under 5 x 10^8 (R437). -/
def ppsError (s : State) : Int :=
  let d := (BitVec.ofNat 16 (field s .tim 0x044 16 16)).toInt
  ((now s : Int) - d + 500000000) % 1000000000 - 500000000

/-- An edge counts: it is the first, or 0.999 to 1.001 s after the previous valid one (R437). -/
def edgeValid (s : State) : Bool :=
  match s.tim.validEdge with
  | none => true
  | some t => t + 999000000 ≤ clock s && clock s ≤ t + 1001000000

/-- A valid edge with error `e` at time `c`: pulses that return in HOLDOVER start LOCKING (R437). -/
def edgeSeen (t : TimSt) (e : Int) (c : Nat) : TimSt :=
  let t := { t with ppsErr := e, validEdge := some c }
  if t.disc = .holdover then { t with disc := .locking, stepped := false, goodEdges := 0 } else t

/-- A valid edge steers the discipline (R437). -/
def discEdge (s : State) : State :=
  let e := ppsError s
  let s := modTim s fun t => edgeSeen t e (clock s)
  if s.tim.disc = .locking && !s.tim.stepped && 1000 < e.natAbs then
    let c : Int := (s.tim.count : Int) - e * 2 ^ 32
    modTim (timeStep s (c % 2 ^ 96).toNat 1 0x3F) fun t => { t with stepped := true }
  else
    let tau := max 1 (field s .tim 0x048 0 8)
    let f := Config.disciplineStep tau e (freqAdj s)
    let good := if e.natAbs < 100 then s.tim.goodEdges + 1 else 0
    let s := modTim s fun t => { t with freqAdj := f - Config.factoryTrim, goodEdges := good }
    if s.tim.disc = .locking && 8 ≤ good then raise (modTim s fun t => { t with disc := .locked }) .tim 9 else s

/-- A rising edge of PPS_IN (R437). -/
def ppsEdge (s : State) : State :=
  let s := modTim (count s .tim 0) fun t => { t with lastEdge := some (clock s) }
  if s.tim.disc = .off || !edgeValid s then s else discEdge s

/-- No valid edge for 3 s (R437). FREQ_ADJ is held at its mean. -/
def ppsLost (s : State) : State :=
  if disciplined s then
    let f := Config.holdoverMean s.free - Config.factoryTrim
    let s := nextFree (modTim s fun t => { t with disc := .holdover, goodEdges := 0, validEdge := none, freqAdj := f })
    raise (raise s .tim 10) .tim 11
  else s

/-- The counter crosses a whole second: PPS_OUT and REF10M_OUT rise where they are on (R438). -/
def secondMark (s : State) : State :=
  let on := (page s .tim).enabled
  let s := if on && field s .tim 0x040 2 1 = 1 then emit s (.pin "PPS_OUT" true) else s
  if on && field s .tim 0x040 3 1 = 1 then emit s (.pin "REF10M_OUT" true) else s

/-- The timebase runs while the TCXO runs. -/
def timeRuns (s : State) (t : State) : State := if s.pwr.tcxo then t else s

/-- SLEW_DONE (R436). -/
def execSlewDone (s : State) : Host.Outcome State Fault Refusal := finish s (timeRuns s (slewEnd s))
/-- PPS_IN_EDGE (R437). -/
def execPpsInEdge (s : State) : Host.Outcome State Fault Refusal := finish s (timeRuns s (ppsEdge s))
/-- PPS_IN_LOST (R437). -/
def execPpsInLost (s : State) : Host.Outcome State Fault Refusal := finish s (timeRuns s (ppsLost s))
/-- SECOND_CROSSING (R438). -/
def execSecondCrossing (s : State) : Host.Outcome State Fault Refusal := finish s (timeRuns s (secondMark s))

end Sys2Proof.Machine
end

