-- ==== Sys2Proof/Machine/Bits.lean ====
section
/-! DEFINITION. Bitstreams packed least significant bit first (R207), canonical prefix codes (R212), and the Deflate
decoder of RFC 1951 that R223 names. -/

namespace Sys2Proof.Machine

/-- The bits of a byte, least significant first. -/
def byteBits (b : Byte) : List Bool := (List.range 8).map b.getLsbD

/-- The bits of bytes in stream order (R207). -/
def toBits (bs : List Byte) : List Bool := bs.flatMap byteBits

/-- The number that bits spell, least significant first. -/
def bitsNat (l : List Bool) : Nat := l.foldr (fun b n => (if b then 1 else 0) + 2 * n) 0

/-- A fixed-width field, least significant bit first (R207). -/
def natBits : Nat → Nat → List Bool
  | 0, _ => []
  | w + 1, v => (v % 2 == 1) :: natBits w (v / 2)

/-- Pack bits into bytes; the last byte is padded with zeros. -/
def packBits : Nat → List Bool → List Byte
  | 0, _ => []
  | fuel + 1, l => if l.isEmpty then [] else BitVec.ofNat 8 (bitsNat (l.take 8)) :: packBits fuel (l.drop 8)

/-- Bytes of a bit list. -/
def fromBits (l : List Bool) : List Byte := packBits (l.length / 8 + 1) l

/-- Read a fixed-width field. -/
def takeBits (n : Nat) (l : List Bool) : Option (Nat × List Bool) :=
  if l.length < n then none else some (bitsNat (l.take n), l.drop n)

/-- A stream stands at its padding: fewer than 8 bits, all zero (R207). -/
def atPadding (l : List Bool) : Bool := l.length < 8 && l.all (!·)

/-- A prefix code: length, code and symbol of each used symbol. -/
abbrev PCode := List (Nat × Nat × Nat)

/-- Symbols that have length `n`. -/
def symbolsOf (lens : List Nat) (n : Nat) : List Nat :=
  (List.range lens.length).filter fun i => lens.getD i 0 == n

/-- The canonical code of a list of lengths (R212), for lengths up to `maxLen`. -/
def canonical (lens : List Nat) (maxLen : Nat) : PCode :=
  ((List.range maxLen).foldl (fun (acc : Nat × PCode) k =>
    let syms := symbolsOf lens (k + 1)
    let first := acc.1 * 2
    (first + syms.length,
     acc.2 ++ (List.range syms.length).map fun i => (k + 1, first + i, syms.getD i 0))) (0, [])).2

/-- Read a symbol: code bits come most significant first. `len` and `code` are what has been read. -/
def readSym (c : PCode) : Nat → Nat → Nat → List Bool → Option (Nat × List Bool)
  | 0, _, _, _ => none
  | fuel + 1, len, code, l =>
    match l with
    | [] => none
    | b :: r =>
      let code := 2 * code + (if b then 1 else 0)
      match c.find? fun e => e.1 == len + 1 && e.2.1 == code with
      | some e => some (e.2.2, r)
      | none => readSym c fuel (len + 1) code r

/-- Sum of 2^(maxLen - length) over the used symbols. -/
def kraft (lens : List Nat) (maxLen : Nat) : Nat :=
  (lens.map fun n => if n = 0 then 0 else 2 ^ (maxLen - n)).foldl (· + ·) 0

/-- Base and extra bits of a Deflate length symbol 257 to 285. -/
def lengthBase (s : Nat) : Option (Nat × Nat) :=
  ([(3,0),(4,0),(5,0),(6,0),(7,0),(8,0),(9,0),(10,0),(11,1),(13,1),(15,1),(17,1),(19,2),(23,2),(27,2),(31,2),
    (35,3),(43,3),(51,3),(59,3),(67,4),(83,4),(99,4),(115,4),(131,5),(163,5),(195,5),(227,5),(258,0)] :
    List (Nat × Nat))[s - 257]?

/-- Base and extra bits of a Deflate distance symbol 0 to 29. -/
def distBase (s : Nat) : Option (Nat × Nat) :=
  if s < 4 then some (s + 1, 0)
  else if s < 30 then
    let e := s / 2 - 1
    some ((2 + s % 2) * 2 ^ e + 1, e)
  else none

/-- Repeat the byte at distance `d` behind the end `n` times; `acc` holds the output newest first. -/
def copyBack : Nat → Nat → List Byte → List Byte
  | 0, _, acc => acc
  | n + 1, d, acc => copyBack n d (acc.getD (d - 1) 0 :: acc)

/-- The symbols of one compressed Deflate block, up to its end-of-block symbol. -/
def inflateSyms (lit dist : PCode) : Nat → List Byte → List Bool → Option (List Byte × List Bool)
  | 0, _, _ => none
  | fuel + 1, acc, l =>
    match readSym lit 15 0 0 l with
    | none => none
    | some (s, l) =>
      if s < 256 then inflateSyms lit dist fuel (BitVec.ofNat 8 s :: acc) l
      else if s = 256 then some (acc, l)
      else match lengthBase s with
        | none => none
        | some (b, e) => match takeBits e l with
          | none => none
          | some (x, l) => match readSym dist 15 0 0 l with
            | none => none
            | some (t, l) => match distBase t with
              | none => none
              | some (db, de) => match takeBits de l with
                | none => none
                | some (y, l) =>
                  if acc.length < db + y then none
                  else inflateSyms lit dist fuel (copyBack (b + x) (db + y) acc) l

/-- The fixed codes of RFC 1951. -/
def fixedLit : PCode :=
  canonical (List.replicate 144 8 ++ List.replicate 112 9 ++ List.replicate 24 7 ++ List.replicate 8 8) 15
def fixedDist : PCode := canonical (List.replicate 30 5) 15

/-- Code lengths of a dynamic block, `n` of them, newest first in `acc`. -/
def readLens (c : PCode) : Nat → Nat → List Nat → List Bool → Option (List Nat × List Bool)
  | 0, _, _, _ => none
  | fuel + 1, n, acc, l =>
    if n = acc.length then some (acc.reverse, l)
    else if n < acc.length then none
    else match readSym c 7 0 0 l with
      | none => none
      | some (s, l) =>
        if s < 16 then readLens c fuel n (s :: acc) l
        else
          let (w, base, v) := if s = 16 then (2, 3, acc.head?) else if s = 17 then (3, 3, some 0) else (7, 11, some 0)
          match v, takeBits w l with
          | some v, some (k, l) => readLens c fuel n (List.replicate (base + k) v ++ acc) l
          | _, _ => none

/-- The order in which a dynamic block gives the lengths of its code-length code. -/
def clOrder : List Nat := [16, 17, 18, 0, 8, 7, 9, 6, 10, 5, 11, 4, 12, 3, 13, 2, 14, 1, 15]

/-- A set of lengths is no over-subscribed code. -/
def notOver (lens : List Nat) : Bool := kraft lens 15 ≤ 2 ^ 15

/-- The two codes of a dynamic block. -/
def dynCodes (l : List Bool) : Option (PCode × PCode × List Bool) :=
  match takeBits 14 l with
  | none => none
  | some (h, l) =>
    let hlit := h % 32 + 257
    let hdist := h / 32 % 32 + 1
    let hclen := h / 1024 + 4
    if 286 < hlit then none
    else match takeBits (3 * hclen) l with
      | none => none
      | some (v, l) =>
        let cl := (List.range 19).map fun s => match clOrder.findIdx? (· == s) with
          | some i => if i < hclen then v / 2 ^ (3 * i) % 8 else 0
          | none => 0
        if !notOver cl then none else
        match readLens (canonical cl 7) (hlit + hdist + 1) (hlit + hdist) [] l with
        | none => none
        | some (lens, l) =>
          let a := lens.take hlit
          let b := lens.drop hlit
          if a.getD 256 0 = 0 || !notOver a || !notOver b then none
          else some (canonical a 15, canonical b 15, l)

/-- The Deflate blocks of a stream (R223): the output newest first, and the bits left after BFINAL's block. -/
def inflateBlocks : Nat → List Byte → List Bool → Option (List Byte × List Bool)
  | 0, _, _ => none
  | fuel + 1, acc, l =>
    match takeBits 3 l with
    | none => none
    | some (h, l) =>
      let final := h % 2 == 1
      let r := match h / 2 with
        | 0 =>
          let l := l.drop (l.length % 8)
          match takeBits 32 l with
          | none => none
          | some (v, l) =>
            let n := v % 65536
            if n + v / 65536 != 65535 || l.length < 8 * n then none
            else some ((fromBits (l.take (8 * n))).reverse ++ acc, l.drop (8 * n))
        | 1 => inflateSyms fixedLit fixedDist (l.length + 1) acc l
        | 2 => match dynCodes l with
          | none => none
          | some (a, b, l) => inflateSyms a b (l.length + 1) acc l
        | _ => none
      match r with
      | none => none
      | some (acc, l) => if final then some (acc, l) else inflateBlocks fuel acc l

/-- Decode a raw Deflate stream that ends in its last byte (R223). -/
def inflate (stream : List Byte) : Option (List Byte) :=
  match inflateBlocks (8 * stream.length + 1) [] (toBits stream) with
  | some (acc, l) => if l.length < 8 then some acc.reverse else none
  | none => none

end Sys2Proof.Machine
end

