-- ==== Sys2Proof/Machine/Codec.lean ====
section
/-! DEFINITION. Delsatum blocks: the layout (R201, R202), malformed headers (R203), the decoders of LZ (R209 to R213),
PREDICT (R217 to R222) and DEFLATE, and the choice of a candidate by a lane (R215, R216). -/

namespace Sys2Proof.Machine

/-- A table entry (R202): offset and kind, 1 RECORD_END or 2 FILEMARK. -/
abbrev BEntry := Nat × Nat

/-- A block header (R201). -/
structure BlkHdr where
  method : Nat
  level : Nat
  variant : Nat
  entries : Nat
  cont : Bool
  ends : Bool
  res3 : Nat
  dlen : Nat
  plen : Nat
  chainIndex : Nat
  res10 : Nat
  inChain : Bool
  crc : Nat
  deriving DecidableEq, Repr

/-- Read the header at the start of bytes. -/
def parseHdr (b : List Byte) : BlkHdr :=
  let x := leAt b 0 1
  let f := leAt b 3 1
  let c := leAt b 10 2
  { method := x % 16, level := x / 16, variant := leAt b 1 1, entries := leAt b 2 1, cont := f % 2 == 1,
    ends := f / 2 % 2 == 1, res3 := f / 4, dlen := leAt b 4 3, plen := leAt b 7 3, chainIndex := c % 64,
    res10 := c / 64 % 512, inChain := c / 32768 == 1, crc := leAt b 12 4 }

/-- The 16 bytes of a header. -/
def hdrBytes (h : BlkHdr) : List Byte :=
  leBytes 1 (h.method + 16 * h.level) ++ leBytes 1 h.variant ++ leBytes 1 h.entries
    ++ leBytes 1 (bit h.cont + 2 * bit h.ends) ++ leBytes 3 h.dlen ++ leBytes 3 h.plen
    ++ leBytes 2 (h.chainIndex + 32768 * bit h.inChain) ++ leBytes 4 h.crc

/-- Length of a block (R201). -/
def blkLen (h : BlkHdr) : Nat := 16 + 4 * h.entries + h.plen

/-- Table entries in bytes (R202). -/
def tableBytes (es : List BEntry) : List Byte := es.flatMap fun e => leBytes 4 (e.1 + 2 ^ 24 * e.2)

/-- The table of a block. -/
def parseTable (b : List Byte) (n : Nat) : List BEntry :=
  (List.range n).map fun k => (leAt b (16 + 4 * k) 4 % 2 ^ 24, leAt b (19 + 4 * k) 1)

/-- Entries in ascending order, RECORD_END before FILEMARK, no two RECORD_END at one offset (R202, R203). -/
def entriesOk : List BEntry → Bool
  | [] => true
  | [_] => true
  | a :: b :: r => (a.1 < b.1 || (a.1 == b.1 && b.2 == 2)) && entriesOk (b :: r)

/-- A header or table is malformed by the rules that do not depend on the method (R203). A block without data is always STORED (R216):
one of another method breaks a rule of its method. DEDUCED: R216 speaks of what is written. -/
def malformed (h : BlkHdr) (es : List BEntry) : Bool :=
  3 < h.method || h.res3 != 0 || h.res10 != 0 || 65536 < 4 * h.entries + h.dlen || h.entries + h.dlen == 0
    || 65536 < h.plen
    || es.any (fun e => if e.2 = 1 then e.1 == 0 || h.dlen ≤ e.1 else if e.2 = 2 then h.dlen < e.1 else true)
    || !entriesOk es
    || (h.cont && es.any fun e => e.2 == 2 && e.1 == 0)
    || (h.dlen == 0 && (h.cont || h.ends))
    || (h.inChain && (h.method == 2 || h.method == 3)) || (!h.inChain && h.chainIndex != 0)
    || (h.dlen == 0 && h.method != 0)

/-! ### LZ -/

/-- Value of class `c` (R210): base and extra bits. -/
def classBase (c : Nat) : Nat × Nat := if c < 4 then (c, 0) else ((2 + c % 2) * 2 ^ (c / 2 - 1), c / 2 - 1)

/-- Lengths of one alphabet of `n` symbols from the TABLES stream (R211), newest first in `acc`. -/
def lzLens : Nat → Nat → List Nat → List Bool → Option (List Nat × List Bool)
  | 0, _, _, _ => none
  | fuel + 1, n, acc, l =>
    if acc.length = n then some (acc.reverse, l)
    else if n < acc.length then none
    else match takeBits 4 l with
      | none => none
      | some (o, l) =>
        if o ≤ 12 then lzLens fuel n (o :: acc) l
        else
          let (w, base, v) := if o = 13 then (4, 2, some 0) else if o = 14 then (8, 18, some 0) else (2, 3, acc.head?)
          match v, takeBits w l with
          | some v, some (k, l) => lzLens fuel n (List.replicate (base + k) v ++ acc) l
          | _, _ => none

/-- A table is complete, empty, or one symbol of length 1 (R211). -/
def lzTableOk (lens : List Nat) : Bool :=
  let used := lens.filter (· != 0)
  used.isEmpty || used == [1] || kraft lens 12 == 2 ^ 12

/-- Read one value of an alphabet of classes (R210). -/
def readValue (c : PCode) (l : List Bool) : Option (Nat × List Bool) :=
  match readSym c 12 0 0 l with
  | none => none
  | some (k, l) =>
    let (base, e) := classBase k
    (takeBits e l).map fun x => (base + x.1, x.2)

/-- `n` literals, newest first onto `acc`. -/
def readLits (c : PCode) : Nat → List Byte → List Bool → Option (List Byte × List Bool)
  | 0, acc, l => some (acc, l)
  | n + 1, acc, l => match readSym c 12 0 0 l with
    | none => none
    | some (s, l) => readLits c n (BitVec.ofNat 8 s :: acc) l

/-- The sequences of an LZ block (R213): `acc` is history and output newest first, `h` the history's length. -/
def lzSeqs (lit cmd len off : PCode) (n h : Nat) :
    Nat → List Byte → List Bool → List Bool → List Bool → List Bool → Option (List Byte)
  | 0, _, _, _, _, _ => none
  | fuel + 1, acc, ls, cs, ns, os =>
    let fin (acc : List Byte) (ls cs ns os : List Bool) : Option (List Byte) :=
      if atPadding ls && atPadding cs && atPadding ns && atPadding os then some ((acc.take n).reverse) else none
    match readValue cmd cs with
    | none => none
    | some (run, cs) =>
      if n < acc.length - h + run then none
      else match readLits lit run acc ls with
        | none => none
        | some (acc, ls) =>
          if acc.length - h = n then fin acc ls cs ns os
          else match readValue len ns, readValue off os with
            | some (m, ns), some (o, os) =>
              if n < acc.length - h + (m + 4) || acc.length < o + 1 then none
              else
                let acc := copyBack (m + 4) (o + 1) acc
                if acc.length - h = n then fin acc ls cs ns os
                else lzSeqs lit cmd len off n h fuel acc ls cs ns os
            | _, _ => none

/-- Decode an LZ payload of `n` data bytes behind a history (R209, R213). -/
def lzDecode (n : Nat) (hist payload : List Byte) : Option (List Byte) :=
  let tb := leAt payload 0 3
  let lb := leAt payload 3 3
  let cb := leAt payload 6 3
  let eb := leAt payload 9 3
  if n = 0 || payload.length < 12 + tb + lb + cb + eb then none
  else
    let body := payload.drop 12
    let stream (o k : Nat) : List Bool := toBits ((body.drop o).take k)
    let t := stream 0 tb
    match lzLens (t.length + 1) 256 [] t with
    | none => none
    | some (a, t) => match lzLens (t.length + 1) 33 [] t with
      | none => none
      | some (b, t) => match lzLens (t.length + 1) 32 [] t with
        | none => none
        | some (c, t) => match lzLens (t.length + 1) 32 [] t with
          | none => none
          | some (d, t) =>
            if !(atPadding t && lzTableOk a && lzTableOk b && lzTableOk c && lzTableOk d) then none
            else lzSeqs (canonical a 12) (canonical b 12) (canonical c 12) (canonical d 12) n hist.length (n + 1)
              hist.reverse (stream tb lb) (stream (tb + lb) cb) (stream (tb + lb + cb) eb)
              (toBits (body.drop (tb + lb + cb + eb)))

/-! ### PREDICT -/

/-- Width in bytes of a hint (R217). -/
def hintWidth (h : Nat) : Nat := 2 ^ (h % 4)
/-- The hint is of float elements. -/
def hintFloat (h : Nat) : Bool := h / 4 % 2 == 1
/-- The hint is given and listed (R217). -/
def hintValid (h : Nat) : Bool := h / 8 % 2 == 1 && h / 16 == 0 && !(hintFloat h && h % 4 == 0)
/-- A hint and stride that R217 does not refuse. -/
def hintOk (h stride : Nat) : Bool :=
  (hintValid h || h == 0) && (stride == 0 || (2 ≤ stride && stride ≤ 8192))

/-- The prediction of R219 on W-bit integers; `xs` holds the earlier elements, newest first. -/
def predict (w code stride : Nat) (xs : List Nat) : Nat :=
  let m := 2 ^ w
  match code with
  | 0 => 0
  | 1 => xs.getD 0 0 % m
  | 2 => (2 * xs.getD 0 0 + m - xs.getD 1 0 % m) % m
  | _ => (xs.getD 0 0 + xs.getD (stride - 1) 0 + m - xs.getD stride 0 % m) % m

/-- Leading zeros of a W-bit number. -/
def leadZeros (w v : Nat) : Nat := if v = 0 then w else w - 1 - Nat.log2 v

/-- Width of the leading-zero field (R221). -/
def zWidth (w : Nat) : Nat := if w = 16 then 5 else if w = 32 then 6 else 7

/-- Unary ones before a zero, at most `lim`. -/
def takeOnes : Nat → List Bool → Nat × List Bool
  | 0, l => (0, l)
  | n + 1, true :: r => let x := takeOnes n r; (x.1 + 1, x.2)
  | _ + 1, l => (0, l)

/-- Read one integer residue (R220), as W bits. -/
def readRice (w k : Nat) (l : List Bool) : Option (Nat × List Bool) :=
  let (q, r) := takeOnes 24 l
  let u : Option (Nat × List Bool) :=
    if q = 24 then takeBits w r
    else match r with
      | [] => none
      | _ :: r => (takeBits k r).map fun x => (q * 2 ^ k + x.1, x.2)
  u.map fun x => (if x.1 % 2 = 0 then x.1 / 2 % 2 ^ w else (2 ^ w - (x.1 + 1) / 2) % 2 ^ w, x.2)

/-- Read one float residue (R221). -/
def readFloat (w : Nat) (l : List Bool) : Option (Nat × List Bool) :=
  match takeBits (zWidth w) l with
  | none => none
  | some (z, l) =>
    if w < z then none
    else if z = w then some (0, l)
    else (takeBits (w - z - 1) l).map fun x => (2 ^ (w - z - 1) + x.1, x.2)

/-- The elements of one group (R219 to R221), newest first onto `xs`. -/
def readGroup (w : Nat) (flt : Bool) (code k stride : Nat) : Nat → List Nat → List Bool → Option (List Nat × List Bool)
  | 0, xs, l => some (xs, l)
  | n + 1, xs, l =>
    let p := predict w code stride xs
    match (if flt then readFloat w l else readRice w k l) with
    | none => none
    | some (r, l) =>
      let x := if flt then Nat.xor r p else (p + r) % 2 ^ w
      readGroup w flt code k stride n (x :: xs) l

/-- All groups of a block: `n` elements left. -/
def readGroups (w : Nat) (flt strided : Bool) (stride : Nat) : Nat → Nat → List Nat → List Bool →
    Option (List Nat × List Bool)
  | 0, _, _, _ => none
  | fuel + 1, n, xs, l =>
    if n = 0 then some (xs, l)
    else match takeBits 2 l with
      | none => none
      | some (code, l) =>
        match (if flt then some (0, l) else takeBits 5 l) with
        | none => none
        | some (k, l) =>
          if (code = 3 && !strided) || (!flt && min 31 w < k) then none
          else match readGroup w flt code k stride (min n 64) xs l with
            | none => none
            | some (xs, l) => readGroups w flt strided stride fuel (n - 64) xs l

/-- Decode a PREDICT payload (R218). -/
def predictDecode (n variant : Nat) (payload : List Byte) : Option (List Byte) :=
  let wb := 2 ^ (variant % 4)
  let flt := variant / 4 % 2 == 1
  let strided := variant / 8 % 2 == 1
  let stride := leAt payload 0 2
  let t := n % wb
  if 16 ≤ variant || (flt && variant % 4 == 0) || n = 0 || payload.length < 2 + t
    || (if strided then stride < 2 || 8192 < stride else stride != 0) then none
  else
    let tail := payload.drop (payload.length - t)
    match readGroups (8 * wb) flt strided stride (n / wb + 1) (n / wb) []
        (toBits ((payload.drop 2).take (payload.length - 2 - t))) with
    | none => none
    | some (xs, l) => if atPadding l then some (xs.reverse.flatMap (leBytes wb) ++ tail) else none

/-- Code of one integer residue (R220). -/
def riceBits (w k r : Nat) : List Bool :=
  let u := if r < 2 ^ (w - 1) then 2 * r else 2 * (2 ^ w - r) - 1
  let q := u / 2 ^ k
  if q < 24 then List.replicate q true ++ [false] ++ natBits k u else List.replicate 24 true ++ natBits w u

/-- Code of one float residue (R221). -/
def floatBits (w r : Nat) : List Bool :=
  let z := leadZeros w r
  natBits (zWidth w) z ++ (if z < w then natBits (w - z - 1) r else [])

/-- The shortest of a list, the first among equals. -/
def shortest : List (List Bool) → List Bool
  | [] => []
  | [a] => a
  | a :: r => let b := shortest r; if a.length ≤ b.length then a else b

/-- Residues of a group's elements under one predictor; `xs` holds the earlier elements, newest first. -/
def residues (w : Nat) (flt : Bool) (code stride : Nat) : List Nat → List Nat → List Nat
  | _, [] => []
  | xs, x :: r =>
    let p := predict w code stride xs
    (if flt then Nat.xor x p else (x + 2 ^ w - p) % 2 ^ w) :: residues w flt code stride (x :: xs) r

/-- One group, with the predictor and Rice parameter of fewest bits, ties to the lower (R220, R222). -/
def groupBits (w : Nat) (flt : Bool) (stride : Nat) (xs g : List Nat) : List Bool :=
  let codes := if stride = 0 then [0, 1, 2] else [0, 1, 2, 3]
  shortest (codes.map fun c =>
    let rs := residues w flt c stride xs g
    natBits 2 c ++ (if flt then rs.flatMap (floatBits w)
      else shortest ((List.range (min 31 w + 1)).map fun k => natBits 5 k ++ rs.flatMap (riceBits w k))))

/-- All groups of a list of elements. -/
def groupsBits (w : Nat) (flt : Bool) (stride : Nat) : Nat → List Nat → List Nat → List Bool
  | 0, _, _ => []
  | fuel + 1, xs, l =>
    if l.isEmpty then []
    else groupBits w flt stride xs (l.take 64) ++ groupsBits w flt stride fuel ((l.take 64).reverse ++ xs) (l.drop 64)

/-- Encode data as PREDICT with a hint and stride (R217 to R222): variant and payload. -/
def predictEncode (hint stride : Nat) (data : List Byte) : Nat × List Byte :=
  let wb := hintWidth hint
  let n := data.length / wb
  let elems := (List.range n).map fun i => leAt data (i * wb) wb
  (hint % 8 + 8 * bit (stride != 0),
   leBytes 2 stride ++ fromBits (groupsBits (8 * wb) (hintFloat hint) stride (n + 1) [] elems) ++ data.drop (n * wb))

/-- The auto-detect hints (R222). -/
def autoHints : List Nat := [8, 9, 10, 11, 14, 15]

/-! ### Blocks -/

/-- What decoding a block gives (R206, R241). -/
inductive Decode where
  | ok (data : List Byte)
  | malformed
  | crc
  deriving DecidableEq, Repr

/-- Decode the payload of a block by its method. -/
def decodePayload (h : BlkHdr) (hist payload : List Byte) : Option (List Byte) :=
  match h.method with
  | 0 => if h.variant = 0 && h.plen = h.dlen then some payload else none
  | 1 => if h.variant = 0 then lzDecode h.dlen hist payload else none
  | 2 => predictDecode h.dlen h.variant payload
  | _ => if 4 ≤ h.variant then none
    else match inflate payload with
      | some d => if d.length = h.dlen then some d else none
      | none => none

/-- Decode a whole block (R203, R206); `hist` is its chain history. -/
def decodeBlock (hist b : List Byte) : Decode :=
  let h := parseHdr b
  let es := parseTable b h.entries
  if b.length < 16 || b.length != blkLen h || malformed h es then .malformed
  else match decodePayload h (if h.inChain then hist else []) (b.drop (16 + 4 * h.entries)) with
    | none => .malformed
    | some d => if (crc32c (tableBytes es ++ d)).toNat = h.crc then .ok d else .crc

/-- Bytes that agree from two places of a list on, at most `n`. -/
def agree (b : List Byte) (p q n : Nat) : Nat := ((List.zip (b.drop p) ((b.drop q).take n)).takeWhile fun e => e.1 == e.2).length

/-- Earlier positions that a level examines, at most (R214). -/
def levelTries (level : Nat) : Nat := 2 ^ (level - 1)

/-- The match that a lane takes at place `q` (R214): among the positions it examines within the window, the longest of 4 bytes or more, the
nearer one among equals; length and distance. -/
def bestMatch (level window longest : Nat) (b : List Byte) (q : Nat) : Option (Nat × Nat) :=
  let ps := ((Config.hashChain b q).filter fun p => p < q && q ≤ p + window).take (levelTries level)
  let ms := (ps.map fun p => (agree b p q longest, q - p)).filter fun m => 4 ≤ m.1
  ms.foldl (fun best m => match best with
    | none => some m
    | some x => if x.1 < m.1 || (x.1 == m.1 && m.2 < x.2) then some m else some x) none

/-- The sequences that a lane makes of the bytes from place `q` on (R214); `run` is the open literal run, newest first. From level 6 on
matching is lazy: a match is put off by a byte where the next place offers a longer one. -/
def searchGo (level window longest : Nat) (b : List Byte) : Nat → Nat → List Byte → List (List Byte × Nat × Nat)
  | 0, _, run => [(run.reverse, 0, 0)]
  | fuel + 1, q, run =>
    if b.length ≤ q then (if run.isEmpty then [] else [(run.reverse, 0, 0)])
    else
      let lit := searchGo level window longest b fuel (q + 1) (b.getD q 0 :: run)
      match bestMatch level window longest b q with
      | none => lit
      | some (n, d) =>
        if 6 ≤ level && (bestMatch level window longest b (q + 1)).any (fun m => n < m.1) then lit
        else (run.reverse, n, d) :: searchGo level window longest b fuel (q + n) []

/-- LZ payload of data behind its history (R214): within 64 KiB. -/
def lzEncode (level : Nat) (hist data : List Byte) : List Byte :=
  Config.lzCode (searchGo level 65536 65536 (hist ++ data) (data.length + 1) hist.length [])

/-- Deflate stream of data (R224): one block with BFINAL, of fixed codes or dynamic ones, from the search within 32 KiB. -/
def deflateEncode (dynamic : Bool) (level : Nat) (data : List Byte) : List Byte :=
  match Config.deflateCode dynamic (searchGo level 32768 258 data (data.length + 1) 0 []) with
  | [] => []
  | x :: r => ((x &&& 0xF8) ||| (if dynamic then 5 else 3)) :: r

/-- A candidate of a lane (R215): method, variant and payload. -/
abbrev Cand := Nat × Nat × List Byte

/-- The candidates of a block, in order (R215); `linked` gives the chain history a block may use. -/
def candidates (par : CodeParams) (hist data : List Byte) : List Cand :=
  let given := par.hint.toNat
  let pred (h st : Nat) : Cand := let x := predictEncode h st data; (2, x.1, x.2)
  let hinted : List Cand := if hintValid given then [pred given par.stride] else []
  let autos : List Cand := autoHints.map fun h => pred h 0
  match par.method with
  | 0 => [(0, 0, data)]
  | 1 => (1, 0, lzEncode par.level hist data) ::
      (if par.linked then [] else if 5 ≤ par.level then hinted ++ autos else if 3 ≤ par.level then hinted else [])
  | 2 => if 5 ≤ par.level then hinted ++ autos
      else if hintValid given then hinted else [pred 8 0]
  | _ => [(3, bit par.dynamic, deflateEncode par.dynamic par.level data)]

/-- The candidate of the smallest payload, the first among equals. -/
def bestCand : List Cand → Option Cand
  | [] => none
  | c :: r => match bestCand r with
    | none => some c
    | some d => if c.2.2.length ≤ d.2.2.length then some c else some d

/-- What a lane makes of a block: its bytes, whether it fell back to STORED (R216), and whether its self-check failed
(R205). -/
structure Coded where
  bytes : List Byte
  fallback : Bool
  selfFailed : Bool
  method : Nat
  deriving DecidableEq, Repr

/-- Assemble a block. -/
def assemble (method level variant : Nat) (es : List BEntry) (cont ends : Bool) (chain : Option Nat)
    (data payload : List Byte) : List Byte :=
  let t := tableBytes es
  hdrBytes { method := method, level := level, variant := variant, entries := es.length, cont := cont, ends := ends,
             res3 := 0, dlen := data.length, plen := payload.length, chainIndex := chain.getD 0, res10 := 0,
             inChain := chain.isSome, crc := (crc32c (t ++ data)).toNat } ++ t ++ payload

/-- Compress one block (R205, R215, R216). -/
def codeBlock (par : CodeParams) (es : List BEntry) (cont ends : Bool) (chain : Option Nat) (hist data : List Byte) :
    Coded :=
  let stored := assemble 0 par.level 0 es cont ends chain data data
  match bestCand (candidates par hist data) with
  | none => { bytes := stored, fallback := par.method != 0, selfFailed := false, method := 0 }
  | some (m, v, p) =>
    if m = 0 then { bytes := stored, fallback := false, selfFailed := false, method := 0 }
    else if data.length ≤ p.length then { bytes := stored, fallback := true, selfFailed := false, method := 0 }
    else
      let b := assemble m par.level v es cont ends chain data p
      if decodeBlock hist b = .ok data then { bytes := b, fallback := false, selfFailed := false, method := m }
      else { bytes := stored, fallback := true, selfFailed := true, method := 0 }

/-- The magic of a pass-through frame (R225). -/
def ptMagic : List Byte := [0x44, 0x53, 0x4D, 0x2D, 0x50, 0x54, 0x48, 0x31]

/-- A record begins with the magic (R225). -/
def ptBegins (rec : List Byte) : Bool := rec.take 8 == ptMagic

/-- The decoded data of a valid pass-through frame (R225). -/
def ptFrame (rec : List Byte) : Option (List Byte) :=
  let st := rec.drop 16
  if ptBegins rec && 17 ≤ rec.length && st.length ≤ 65536 then
    match inflate st with
    | some d => if d.length = leAt rec 8 4 && 1 ≤ d.length && d.length ≤ 65536
        && (crc32c d).toNat == leAt rec 12 4 then some d else none
    | none => none
  else none

/-- The block of a valid pass-through frame (R225). -/
def ptBlock (rec data : List Byte) : List Byte :=
  assemble 3 0 2 [] false true none data (rec.drop 16)

/-! ### Cutting (R198, R199) -/

/-- A cut of a segment: data range, table entries, CONTINUED and ENDS_RECORD; `pt` for a pass-through block. -/
structure Cut where
  start : Nat
  dlen : Nat
  entries : List BEntry
  cont : Bool
  ends : Bool
  pt : Bool := false
  deriving DecidableEq, Repr

/-- Cut a segment's bytes into blocks (R198). The records left are given by their lengths; `pos` is the place in the
segment, `start` and `es` (newest first) the open block, `cont` whether it continues a record, `left` the bytes left of
the current record. A block closes when one more byte would pass 65,536 or one more record end would need a 256th
entry. -/
def cutGo : Nat → List Nat → Nat → Nat → List BEntry → Bool → Nat → List Cut
  | 0, _, _, _, _, _, _ => []
  | fuel + 1, recs, pos, start, es, cont, left =>
    let room := 65536 - 4 * es.length - (pos - start)
    let close (ends : Bool) : Cut := { start := start, dlen := pos - start, entries := es.reverse, cont := cont, ends := ends }
    if left = 0 then
      -- a record has just ended at `pos`
      match recs with
      | [] => [close true]
      | r :: rest =>
        -- the end needs an entry if the block goes on with the next record's first byte
        if es.length < 255 && 5 ≤ room then cutGo fuel rest pos start ((pos - start, 1) :: es) cont r
        else close true :: cutGo fuel rest pos pos [] false r
    else if room = 0 then close false :: cutGo fuel recs pos pos [] true left
    else
      let k := min room left
      cutGo fuel recs (pos + k) start es cont (left - k)

/-- The cuts of a segment of records (R198). -/
def cutSegment (recs : List Nat) : List Cut :=
  match recs with
  | [] => []
  | r :: rest => cutGo (4 * recs.length + 2 * (recs.foldl (· + ·) 0) / 65000 + 8) rest 0 0 [] false r

/-- The cuts of a WRITE_MARK segment of `n` filemarks (R199). -/
def cutMarks (n : Nat) : List Cut :=
  (List.range (ceilDiv n 255)).map fun k =>
    { start := 0, dlen := 0, entries := List.replicate (min 255 (n - 255 * k)) (0, 2), cont := false, ends := false }

end Sys2Proof.Machine
end

