-- ==== Sys2Proof/Machine/Frames.lean ====
section
/-! DEFINITION. The frames of a transport link: the marker (R336), the 40 flit slots and their order over the lanes (R337), the message
symbols of the four codewords (R335), and their parity. The code is RS(544,514) over the field of 1,024 elements with x^10 + x^3 + 1 and
the generator with roots α^0 to α^29: R335 takes it from IEEE 802.3, so its numbers are PRESUMED. -/

namespace Sys2Proof.Machine

/-- A frame marker (R336): the lane, its direction, whether it is used alone, the lanes of the opposite direction that the sender's receiver
finds good, and the frame's count. -/
structure Marker where
  lane : Nat
  up : Bool
  solo : Bool
  good : Nat
  frame : Nat
  deriving DecidableEq, Repr

/-- PATTERN of a marker (R336). -/
def markerPattern : List Byte := [0x4B, 0x54, 0x4C, 0x46]

/-- The 10 bytes of a marker (R336). -/
def markerBytes (k : Marker) : List Byte :=
  markerPattern ++ leBytes 1 (k.lane + 2 * bit k.up + 4 * bit k.solo) ++ leBytes 1 k.good ++ leBytes 4 k.frame

/-- The marker that 10 bytes spell; none where the pattern or a reserved bit is wrong (R336). -/
def readMarker (b : List Byte) : Option Marker :=
  let i := b.getD 4 0
  let g := b.getD 5 0
  if sub b 0 4 = markerPattern && i.toNat < 8 && g.toNat < 4 then
    some { lane := bit (i.getLsbD 0), up := i.getLsbD 1, solo := i.getLsbD 2, good := g.toNat, frame := leAt b 6 4 }
  else none

/-- Flit slots of a frame on one lane (R335). -/
def frameSlots : Nat := 40

/-- The lane and the slot of flit `k` of a frame: over both lanes in turn, or down the slots of the one lane in use (R337). -/
def dealSlot (both : Bool) (k : Nat) : Nat × Nat := if both then (k % 2, k / 2) else (0, k)

/-- The flits that the frames sent together on one or two lanes carry, in the order of R337. -/
def dealt (both : Bool) (at0 at1 : List (List Byte)) : List (List Byte) :=
  if both then ((at0.zip at1).map fun p => [p.1, p.2]).flatten else at0

/-- The 2,570 bytes of a frame (R335): its marker, its flits, and `idle` in every slot that is left. -/
def frameBytes (k : Marker) (flits : List (List Byte)) (idle : List Byte) : List Byte :=
  markerBytes k ++ ((List.range frameSlots).map fun i => padTo (flits.getD i idle) 64).flatten

/-- Bit `b` of a frame (R335: byte j supplies bits 8j to 8j + 7, the least significant first). -/
def frameBit (f : List Byte) (b : Nat) : Bool := (f.getD (b / 8) 0).getLsbD (b % 8)

/-- Message symbol `i` of codeword `c` of a frame (R335: frame bit b is bit b mod 10 of symbol (b mod 5,140) div 10 of codeword b div 5,140). -/
def frameSymbol (f : List Byte) (c i : Nat) : BitVec 10 :=
  BitVec.ofNat 10 (((List.range 10).map fun k => 2 ^ k * bit (frameBit f (5140 * c + 10 * i + k))).foldl (· + ·) 0)

/-- Byte `j` of the frame that the message symbols of four codewords spell. -/
def symbolsByte (ws : List (List (BitVec 10))) (j : Nat) : Byte :=
  BitVec.ofNat 8 (((List.range 8).map fun k =>
    2 ^ k * bit (((ws.getD ((8 * j + k) / 5140) []).getD ((8 * j + k) % 5140 / 10) 0).getLsbD ((8 * j + k) % 10))).foldl (· + ·) 0)

/-- Twice an element of the field of 1,024. -/
def twice10 (a : BitVec 10) : BitVec 10 := (a <<< 1) ^^^ (if a.msb then 9 else 0)

/-- A product in the field of 1,024: by the bits of the second factor, the highest first. -/
def mul10 (a b : BitVec 10) : BitVec 10 :=
  (List.range 10).foldl (fun r k => twice10 r ^^^ (if b.getLsbD (9 - k) then a else 0)) 0

/-- The generator's coefficients below x^t, that of x^(t-1) first, and the root after its last. -/
def fecGen : Nat → List (BitVec 10) × BitVec 10
  | 0 => ([], 1)
  | t + 1 =>
    let (g, r) := fecGen t
    (List.zipWith (· ^^^ ·) (g ++ [0]) (mul10 r 1 :: g.map (mul10 r)), twice10 r)

/-- The 30 parity symbols of a codeword, the coefficient of x^29 first (R335). -/
def fecParity (ms : List (BitVec 10)) : List (BitVec 10) :=
  let g := (fecGen 30).1
  ms.foldl (fun reg m =>
    let top := m ^^^ reg.headD 0
    List.zipWith (· ^^^ ·) (reg.drop 1 ++ [0]) (g.map (mul10 top))) (List.replicate 30 0)

/-- The four codewords of a frame: 514 message symbols and 30 parity symbols each (R335). -/
def frameCodewords (f : List Byte) : List (List (BitVec 10)) :=
  (List.range 4).map fun c =>
    let ms := (List.range 514).map (frameSymbol f c)
    ms ++ fecParity ms

/-- The receiver's search for the marker: the first place where a valid one stands (R335). -/
def findMarker (bs : List Byte) : Option Nat := (List.range bs.length).find? fun j => (readMarker (sub bs j 10)).isSome

/-- Number of a frame that leaves `k` frames after the first one of a link start (R336: it wraps at 32 bits). -/
def frameNumber (first k : Nat) : Nat := (first + k) % 2 ^ 32

/-- ns from the first frame of a link start to the departure of frame `k`: a frame lasts 204.8 ns (R335). -/
def frameDeparts (k : Nat) : Nat := k * 1024 / 5

/-- The first frame whose marker leaves `t` ns or more after that of the first one (R351). -/
def frameFrom (t : Nat) : Nat := ceilDiv (t * 5) 1024

end Sys2Proof.Machine
end

