-- ==== Sys2Proof/Machine/Buffer.lean ====
section
/-! DEFINITION. The buffer memory: its bytes, the mapping onto DRAM rows (R160, R161), crossword parity (R163, R164),
uncorrectable blocks (R166, R172), hard faults (R173). -/

namespace Sys2Proof.Machine

/-- What a port's configuration space says of the formatter (R5). -/
structure PciIdentity where
  vendor : Nat
  device : Nat
  subsystem : Nat
  revision : Nat
  classCode : Nat
  subclass : Nat
  deriving DecidableEq, Repr

/-- The identity of each ordering code (R5): mass storage, subclass other. -/
def pciIdentity (c : OrderCode) : PciIdentity :=
  { vendor := 0x1EC7, device := if c = .kxf64A then 0x0B16 else 0x0B17, subsystem := if c = .kxf64A then 0x0064 else 0x0032,
    revision := 0x0A, classCode := 0x01, subclass := 0x80 }

/-- Usable buffer in bytes (R160). -/
def usableBytes (c : OrderCode) : Nat := if c = .kxf64A then 56 * 2 ^ 30 else 28 * 2 ^ 30

/-- DRAM rows per channel (R160). -/
def rowsPerChannel (c : OrderCode) : Nat := if c = .kxf64A then 1048576 else 524288

/-- What a byte of the buffer that nothing has written reads as: 0, as the groundsheet fill leaves it (R169). -/
def ramDefault : Byte := 0

/-- The canonical form: addresses strictly rising, no byte equal to what an unlisted address reads as. -/
def Memory.sorted (d : Byte) : List (Nat × Byte) → Bool
  | [] => true
  | [c] => c.2 != d
  | c :: e :: r => c.2 != d && decide (c.1 < e.1) && Memory.sorted d (e :: r)

/-- The buffer is in canonical form. -/
def Memory.wf (m : List (Nat × Byte)) : Bool := Memory.sorted ramDefault m

/-- The byte at `a`. -/
def Memory.get (d : Byte) (m : List (Nat × Byte)) (a : Nat) : Byte :=
  match m with
  | [] => d
  | c :: r => if c.1 = a then c.2 else Memory.get d r a

/-- The cells that bytes from `a` on make, those equal to the default left out. -/
def Memory.cells (d : Byte) (a : Nat) : List Byte → List (Nat × Byte)
  | [] => []
  | b :: r => if b = d then Memory.cells d (a + 1) r else (a, b) :: Memory.cells d (a + 1) r

/-- Replace the bytes from `a` on. -/
def Memory.put (d : Byte) (m : List (Nat × Byte)) (a : Nat) (bs : List Byte) : List (Nat × Byte) :=
  m.filter (fun c => c.1 < a) ++ Memory.cells d a bs ++ m.filter (fun c => a + bs.length ≤ c.1)

/-- Set every byte of `[a, a + n)` to the default. -/
def Memory.clear (m : List (Nat × Byte)) (a n : Nat) : List (Nat × Byte) :=
  m.filter fun c => c.1 < a || a + n ≤ c.1

/-- The byte of the buffer at `a`. -/
def ramByte (s : State) (a : Nat) : Byte := Memory.get ramDefault s.mem.ram a

/-- `n` bytes of the buffer from `a` on. -/
def ramRead (s : State) (a n : Nat) : List Byte :=
  let part := s.mem.ram.filter fun c => a ≤ c.1 && c.1 < a + n
  (List.range n).map fun i => Memory.get ramDefault part (a + i)

/-- Change the memory part of the state. -/
def modMem (s : State) (f : MemSt → MemSt) : State := { s with mem := f s.mem }

/-- `MEM.LAST_FAULT` and the counter and event of a fault of kind 0 corrected, 1 check repaired, 2 uncorrectable,
3 hard (R164, R173, R177). -/
def memFault (s : State) (kind addr req : Nat) : State :=
  let s := setReg64 s .mem 0x108 (addr + 2 ^ 36 * req + 2 ^ 42 * kind)
  match kind with
  | 0 => count s .mem 1
  | 1 => count s .mem 3
  | 2 => raise (count s .mem 2) .mem 8 addr req
  | _ => raise (count s .mem 4) .mem 9 addr req

/-- A word of SRAM macro `f.chip` is hard (R174, R175): it takes one of the macro's 4 remap entries; where none is left, a frame of a
slice's frame SRAM or a region of its ingest buffer is retired. -/
def sramHard (s : State) (f : SramFault) : State :=
  let n := tget s.mem.sramRemaps f.chip.toNat 0
  if n < 4 then
    let s := modMem s fun m => { m with sramRemaps := tput m.sramRemaps f.chip.toNat (n + 1) }
    if n = 3 then raise s .mem 10 else s
  else match f.part with
    | .frame k => modMem s fun m => { m with frameRetired := if m.frameRetired.contains k.val then m.frameRetired else k.val :: m.frameRetired }
    | .ingest k i => modMem s fun m =>
        { m with ingestRetired := if m.ingestRetired.contains (k.val, i) then m.ingestRetired else (k.val, i) :: m.ingestRetired }
    | .tcm => s
    | .other => s

/-- KIND of a fault that the check of a read finds (R177). -/
def sramKindCode : SramKind → Nat
  | .corrected => 0
  | .checkRepaired => 1
  | .uncorrectable => 2

/-- One fault of an on-die SRAM, counted and logged as one of the buffer, with SRAM set in `MEM.LAST_FAULT` (R164, R177). -/
def sramFault (s : State) (kind : Nat) (f : SramFault) (req : Nat) : State :=
  let s := memFault s kind (f.word.toNat + 2 ^ 20 * f.chip.toNat) req
  setReg64 s .mem 0x108 (reg64 s .mem 0x108 + 2 ^ 44)

/-- A fault in an on-die SRAM that requester `req` met (R164, R167, R173). -/
def sramMet (s : State) (f : SramFault) (req : Nat) : State :=
  let s := sramFault s (sramKindCode f.kind) f req
  if f.hard then sramHard (sramFault s 3 f req) f else s

/-- Work of requester `req` meets a fault in an on-die SRAM, if any: true where the word is uncorrectable. -/
def sramHit (s : State) (f : Option SramFault) (req : Nat) : State × Bool :=
  match f with
  | some f => (sramMet s f req, decide (f.kind = .uncorrectable))
  | none => (s, false)

/-- A lap of the scrubber begins (R171, R177). -/
def lapBegins (s : State) : State := modMem s fun m => { m with scrubRows := [], lapStart := clock s, ageFrom := clock s }

/-- Some byte of `[a, a + n)` lies in a block whose stored word is uncorrectable. -/
def anyBad (s : State) (a n : Nat) : Bool := s.mem.bad.any fun b => a < 32 * b + 32 && 32 * b < a + n

/-- A requester reads uncorrectable blocks (R166): counted and logged. -/
def readBad (s : State) (a n req : Nat) : State :=
  match s.mem.bad.find? fun b => a < 32 * b + 32 && 32 * b < a + n with
  | some b => memFault s 2 (32 * b) req
  | none => s

/-- Bit `i` of a block: bit (i mod 8) of byte (i div 8) (R163). -/
def blockBit (d : List Byte) (i : Nat) : Bool := (d.getD (i / 8) 0).getLsbD (i % 8)

/-- XOR of a list of truths. -/
def parity (l : List Bool) : Bool := l.foldl (fun a b => a != b) false

/-- The check word of a block: row parities in bits 15:0, column parities in bits 31:16 (R163). -/
def checkWord (d : List Byte) : Word :=
  w32 (bitsOf ((List.range 16).map (fun i => parity ((List.range 16).map fun j => blockBit d (16 * i + j)))
    ++ (List.range 16).map fun j => parity ((List.range 16).map fun i => blockBit d (16 * i + j))))

/-- What a read of a block meets (R164). -/
inductive ParityClass where
  | clean
  | dataBit (i : Nat)
  | checkBit
  | uncorrectable
  deriving DecidableEq, Repr

/-- The set bits of a 16-bit syndrome. -/
def syndromeBits (w : Word) (lo : Nat) : List Nat := (List.range 16).filter fun i => w.getLsbD (lo + i)

/-- Classify a stored word by its syndromes (R164). -/
def classify (d : List Byte) (chk : Word) : ParityClass :=
  let x := checkWord d ^^^ chk
  match syndromeBits x 0, syndromeBits x 16 with
  | [], [] => .clean
  | [i], [j] => .dataBit (16 * i + j)
  | [_], [] => .checkBit
  | [], [_] => .checkBit
  | _, _ => .uncorrectable

/-- Flip bit `i` of a block. -/
def flipBit (d : List Byte) (i : Nat) : List Byte :=
  d.set (i / 8) (d.getD (i / 8) 0 ^^^ BitVec.ofNat 8 (2 ^ (i % 8)))

/-- Buffer address of block `b` of row `r` of channel `ch` (R161). -/
def blockAddr (ch r b : Nat) : Nat := (r * 32 + ch) * 1792 + 32 * b

/-- Channel of a buffer address (R161). -/
def channelOf (a : Nat) : Nat := a / 1792 % 32

end Sys2Proof.Machine
end

