-- ==== Sys2Proof/Machine/Pool.lean ====
section
/-! DEFINITION. The buffer pool manager: layout of the pools, slots and their metadata, allocation, sharing and release,
wait lists, floors, charges (R178 to R197), retirement (R175, R176), and writes into the buffer. -/

namespace Sys2Proof.Machine

/-- Slot size of a pool in bytes (R178). -/
def slotSize (p : Nat) : Nat := [256, 4096, 73728, 49152, 1048576].getD p 1

/-- Size of a pool in bytes. -/
def poolBytes (s : State) (p : Nat) : Nat := 2 ^ 20 * field s .pool (0x040 + 4 * p) 0 17

/-- Base address of a pool: the sum of the sizes before it (R178). -/
def poolBase (s : State) : Nat → Nat
  | 0 => 0
  | p + 1 => poolBase s p + poolBytes s p

/-- Slots of a pool. -/
def nSlots (s : State) (p : Nat) : Nat := poolBytes s p / slotSize p

/-- Slots of all five pools. -/
def allSlots (s : State) : Nat := nSlots s 0 + nSlots s 1 + nSlots s 2 + nSlots s 3 + nSlots s 4

/-- Internal slots at the start of P0 (R179). -/
def internalSlots (s : State) : Nat := 2 * (ceilDiv (allSlots s) 32 + ceilDiv (allSlots s) 2048)

/-- Slots of one transport's floor in a pool (R194). -/
def floorPer (p : Nat) : Nat := [0, 0, 520, 256, 75].getD p 0
/-- Those of them that are its segment reservation; they are the last ones (log entry 20). -/
def floorRes (p : Nat) : Nat := [0, 0, 520, 0, 16].getD p 0
/-- Those charged at all times. -/
def floorFixed (p : Nat) : Nat := floorPer p - floorRes p

/-- First slot that is not internal. -/
def firstSlot (s : State) (p : Nat) : Nat := if p = 0 then internalSlots s else 0
/-- First slot of the floors, which stand at the top of the pool (log entry 20). -/
def floorStart (s : State) (p : Nat) : Nat := nSlots s p - 16 * floorPer p

/-- Address of slot `i` of pool `p`. -/
def slotAddr (s : State) (p i : Nat) : Nat := poolBase s p + i * slotSize p

/-- The pool that an address lies in. -/
def poolOf (s : State) (a : Nat) : Option Nat :=
  (List.range 5).find? fun p => poolBase s p ≤ a && a < poolBase s p + poolBytes s p

/-- Pool and index of the slot that contains an address. -/
def slotOf (s : State) (a : Nat) : Option (Nat × Nat) :=
  (poolOf s a).map fun p => (p, (a - poolBase s p) / slotSize p)

/-- Start address of the slot that contains an address. -/
def slotStart (s : State) (a : Nat) : Option Nat := (slotOf s a).map fun x => slotAddr s x.1 x.2

/-- Metadata of the slot at an address. -/
def slotMeta (s : State) (a : Nat) : SlotMeta := tget s.pool.slots a {}
/-- Change the pool part. -/
def modPool (s : State) (f : PoolSt → PoolSt) : State := { s with pool := f s.pool }
/-- Set the metadata of a slot. -/
def setMeta (s : State) (a : Nat) (x : SlotMeta) : State :=
  modPool s fun t => { t with slots := tput t.slots a x }

/-- The transport whose segment reservation slot `i` of pool `p` is at home in, and whether it is a fixed floor slot. -/
def floorOf (s : State) (p i : Nat) : Option (Nat × Bool) :=
  if floorStart s p ≤ i then
    let k := i - floorStart s p
    some (k / floorPer p, k % floorPer p < floorFixed p)
  else none

/-- The slot at `a`, number `i` of pool `p`, is set aside for some transport's segment reservation. -/
def setAside (s : State) (p i : Nat) (a : Nat) : Bool :=
  (match floorOf s p i with
    | some (n, false) => !(tget s.pool.resOut (16 * p + n) []).contains a
    | _ => false)
  || (List.range 16).any fun n => (tget s.pool.resIn (16 * p + n) []).contains a

/-- Slot `i` of pool `p` is a general slot (R180). -/
def isGeneral (s : State) (p i : Nat) : Bool :=
  firstSlot s p ≤ i && i < nSlots s p
    && (match floorOf s p i with
        | some (_, true) => false
        | _ => true)
    && !setAside s p i (slotAddr s p i)

/-- The general slot that starts at address `a`, as pool and index. -/
def generalAt (s : State) (a : Nat) : Option (Nat × Nat) :=
  match slotOf s a with
  | some (p, i) => if slotAddr s p i = a && isGeneral s p i then some (p, i) else none
  | none => none

/-- Slots set aside now for transport `n` in pool `p`. -/
def resCount (s : State) (p n : Nat) : Nat :=
  floorRes p - (tget s.pool.resOut (16 * p + n) []).length + (tget s.pool.resIn (16 * p + n) []).length

/-- The listed slots of a pool that are not FREE. -/
def usedIn (s : State) (p : Nat) : List (Nat × SlotMeta) :=
  s.pool.slots.filter fun x => x.2.st != .free && poolOf s x.1 == some p

/-- Retired slots of a pool. -/
def retiredIn (s : State) (p : Nat) : Nat := ((usedIn s p).filter fun x => x.2.st == .retired).length

/-- General slots of a pool: its slots less internal slots, floors and retired slots (R180). -/
def generalCount (s : State) (p : Nat) : Nat := nSlots s p - firstSlot s p - 16 * floorPer p - retiredIn s p

/-- General slots that are FREE. -/
def freeCount (s : State) (p : Nat) : Nat :=
  nSlots s p - firstSlot s p - 16 * floorFixed p
    - ((List.range 16).map (resCount s p)).foldl (· + ·) 0
    - ((usedIn s p).filter fun x => match slotOf s x.1 with
        | some (_, i) => (floorOf s p i).map (·.2) != some true
        | none => false).length

/-- The requester is a holder of a slot. -/
def isHolder (x : SlotMeta) (r : Nat) : Bool :=
  x.st != .free && x.st != .retired
    && ((x.ownerHolds && x.owner.toNat == r) || x.h1.toNat == r || x.h2.toNat == r || x.h3.toNat == r || x.h4.toNat == r)

/-- The pool has no slot of its own left for one kind of transport work: floor `n` of pool `p` is short (R189). -/
def markShort (s : State) (p n : Nat) : State :=
  if resCount s p n < floorRes p && !(tget s.pool.short p []).contains n then
    modPool s fun t => { t with short := tput t.short p (tget t.short p [] ++ [n]) }
  else s

/-- The twin copy of metadata block `blk`: the copies are the two halves of the internal slots (R176, R179). -/
def twinBlock (s : State) (p blk : Nat) : Nat :=
  let half := 8 * (firstSlot s p / 2)
  if blk < half then blk + half else blk - half

/-- Both copies of a block of metadata are lost: device fault of the pool, until a device reset (R176). -/
def poolGone (s : State) (addr : Nat) : State := deviceFault (modPool s fun t => { t with dead := true }) .pool addr 35

/-- A copy of a metadata block is lost; with its twin lost too, the pool is in device fault (R176). -/
def loseCopy (s : State) (p addr : Nat) : State :=
  let blk := (addr - poolBase s p) / 32
  let t := raise (modPool s fun t => { t with copyLost := blk :: t.copyLost }) .pool 13 addr
  if t.pool.copyLost.contains (twinBlock s p blk) then poolGone t addr else t

/-- The FREE slot at `a` of pool `p` leaves the reservation it is set aside for, whose floor may now be short (R175, R189). -/
def leaveReservation (s : State) (p a : Nat) (fl : Option (Nat × Bool)) : State :=
  match fl with
  | some (n, _) => markShort (modPool s fun t =>
      { t with resOut := tput t.resOut (16 * p + n) (a :: tget t.resOut (16 * p + n) []) }) p n
  | none => (List.range 16).foldl (fun s n =>
      if (tget s.pool.resIn (16 * p + n) []).contains a then markShort (modPool s fun t =>
        { t with resIn := tput t.resIn (16 * p + n) ((tget t.resIn (16 * p + n) []).filter (· != a)) }) p n else s) s

/-- Add the size of a slot of pool `p` to what transport `n` lost to retirement (R181). -/
def chargeRetired (s : State) (p n : Nat) : State :=
  modPool s fun t => { t with retiredCharge := tput t.retiredCharge n (tget t.retiredCharge n 0 + slotSize p) }

/-- A FREE slot is retired at once; a fixed floor slot is in use at all times (R175). -/
def retireFree (s : State) (p i a : Nat) : State :=
  match floorOf s p i with
  | some (n, true) => chargeRetired (setMeta s a { slotMeta s a with st := .retiring }) p n
  | fl =>
    let t := if setAside s p i a then leaveReservation s p a fl else s
    raise (count (setMeta t a { slotMeta s a with st := .retired }) .pool 4) .pool 12 a

/-- Retire the slot that contains a faulty block, or let it go on RETIRING while it has holders (R175). -/
def retireSlotAt (s : State) (addr : Nat) : State :=
  match slotOf s addr with
  | none => s
  | some (p, i) =>
    if i < firstSlot s p then loseCopy s p addr
    else
      let a := slotAddr s p i
      match (slotMeta s a).st with
      | .free => retireFree s p i a
      | .allocated =>
        (List.range 16).foldl (fun t n => if isHolder (slotMeta s a) (3 + n) then chargeRetired t p n else t)
          (setMeta s a { slotMeta s a with st := .retiring })
      | _ => s

/-- A hard fault of block `b` (R173 to R175): remapped while its channel has an entry, else its slot is retired. -/
def hardFault (s : State) (b req : Nat) : State :=
  let addr := 32 * b
  let s := memFault s 3 addr req
  let ch := channelOf addr
  let used := tget s.mem.remaps ch []
  if used.length < 8 then
    let s := modMem s fun m => { m with remaps := tput m.remaps ch (b :: used) }
    if used.length = 7 then raise s .mem 10 addr else s
  else if s.mem.retireList.length < 4096 then
    let s := modMem s fun m => { m with retireList := addr :: m.retireList }
    if enabled s .pool then retireSlotAt s addr else s
  else raise (deviceFault s .mem addr req) .mem 11 addr

/-- The read-back tests that waited for a write to `[a, a + n)` find hard faults (R173). -/
def testsDue (s : State) (a n req : Nat) : State :=
  (s.mem.testDue.filter fun b => a < 32 * b + 32 && 32 * b < a + n).foldl (fun s b =>
    hardFault (modMem s fun m => { m with testDue := m.testDue.filter (· != b) }) b req) s

/-- Write bytes into the buffer. An uncorrectable block that is covered in part is read first: its other bytes become 0
and the fault is logged; one covered whole takes the new word (R166). A block whose read-back test waited for this
write takes it now (R173). -/
def bufWrite (s : State) (a : Nat) (bs : List Byte) (req : Nat) : State :=
  let touches (b : Nat) : Bool := a < 32 * b + 32 && 32 * b < a + bs.length
  let s := (s.mem.bad.filter touches).foldl (fun s b =>
    let whole := a ≤ 32 * b && 32 * b + 32 ≤ a + bs.length
    let s := modMem s fun m => { m with ram := Memory.clear m.ram (32 * b) 32, bad := m.bad.filter (· != b) }
    if whole then s else memFault s 2 (32 * b) req) s
  testsDue (modMem s fun m => { m with ram := Memory.put ramDefault m.ram a bs }) a bs.length req

/-- Fill `[a, a + n)` with zeros, whole blocks of it: a write as any other (R170, R173). -/
def bufClear (s : State) (a n req : Nat) : State :=
  testsDue (modMem s fun m => { m with ram := Memory.clear m.ram a n, bad := m.bad.filter fun b => !(a ≤ 32 * b && 32 * b + 32 ≤ a + n) })
    a n req

/-! ### Slot metadata in its two copies (R176) -/

/-- The block of the first copy that holds the metadata of slot `i` of pool `p`: 64 bits a slot, in the order of the pools (R179, R186). -/
def metaBlock (s : State) (p i : Nat) : Nat := (((List.range p).map (nSlots s)).foldl (· + ·) 0 + i) / 4

/-- A copy of a block of metadata cannot be read. -/
def copyGone (s : State) (b : Nat) : Bool := s.mem.bad.contains b || s.pool.copyLost.contains b

/-- Neither copy of the metadata of a slot can be read. -/
def metaGone (s : State) (p i : Nat) : Bool := copyGone s (metaBlock s p i) && copyGone s (twinBlock s 0 (metaBlock s p i))

/-- The metadata of a slot is read (R176): where the first copy is uncorrectable the second serves and the first is written again; with
neither the pool is in device fault. -/
def metaRead (s : State) (p i : Nat) : State :=
  let b := metaBlock s p i
  if !copyGone s b then s
  else
    let s := if s.mem.bad.contains b then memFault s 2 (32 * b) 35 else s
    if metaGone s p i then poolGone s (32 * b)
    else if s.pool.copyLost.contains b then s
    else testsDue (modMem s fun m => { m with bad := m.bad.filter (· != b) }) (32 * b) 32 35

/-- The metadata of the slot that starts at `a` is read. -/
def metaAt (s : State) (a : Nat) : State :=
  match slotOf s a with
  | some (p, i) => metaRead s p i
  | none => s

/-- Lowest FREE general slot of pool `p` from index `i` on (R183); `fuel` bounds the search. -/
def lowestFree (s : State) (p : Nat) : Nat → Nat → Option Nat
  | 0, _ => none
  | fuel + 1, i =>
    if nSlots s p ≤ i then none
    else if isGeneral s p i && (slotMeta s (slotAddr s p i)).st == .free then some (slotAddr s p i)
    else lowestFree s p fuel (i + 1)

/-- Lowest FREE general slot of a pool (R183). -/
def findFree (s : State) (p : Nat) : Option Nat :=
  if freeCount s p = 0 then none else lowestFree s p (nSlots s p) (firstSlot s p)

/-- Allocate the slot at `a` to requester `r` (R187): a grant to a master starts its zero fill (R170). -/
def takeSlot (s : State) (a r : Nat) : State :=
  let s := metaAt s a
  let x := slotMeta s a
  count (setMeta s a { st := .allocated, refs := 1, ownerHolds := true, owner := BitVec.ofNat 6 r,
                       gen := x.gen + 1, filling := r < 3 }) .pool 0

/-- Working slots that a port's codec jobs hold or wait for (R117). -/
def jobSlots (s : State) (m : Master) : Nat :=
  (s.cmds.filter fun c => portMaster c.2.port == m && c.2.phase != .ended && (c.2.workSlot.isSome || c.2.workWait)).length

/-- Slots of pool `p` that master `m` holds, with its wait and its jobs' working slots (R184 USED_A, USED_B; R187, R117). -/
def usedBy (s : State) (m : Master) (p : Nat) : Nat :=
  ((usedIn s p).filter fun x => isHolder x.2 (mIdx m)).length
    + (if (mst s m).waitPending && (mst s m).waitPool.toNat == p then 1 else 0) + (if p = 4 then jobSlots s m else 0)

/-- One more slot of pool `p` would pass the master's quota (R187). -/
def overQuota (s : State) (m : Master) (p : Nat) : Bool :=
  match m with
  | .portA => usedBy s m p + 1 > field s .pool (0x060 + 4 * p) 0 28
  | .portB => usedBy s m p + 1 > field s .pool (0x080 + 4 * p) 0 28
  | .mgmt => false

/-- The wait list of a pool, head first. -/
def waitList (s : State) (p : Nat) : List Waiter := tget s.pool.waits p []
/-- Replace it. -/
def setWaits (s : State) (p : Nat) (l : List Waiter) : State := modPool s fun t => { t with waits := tput t.waits p l }

/-- The result code of a master's pool operation (R185). -/
def poolResult (s : State) (m : Master) (r op : Nat) : State :=
  modMst s m fun x => { x with poolRes := BitVec.ofNat 4 r, poolOp := BitVec.ofNat 3 op }

/-- A FREE slot, number `i` of pool `p`, goes to the reservation of transport `n`, which is short (R189, R195). -/
def giveFloor (s : State) (p i n a : Nat) : State :=
  modPool s fun t =>
    if floorOf s p i = some (n, false) then
      { t with resOut := tput t.resOut (16 * p + n) ((tget t.resOut (16 * p + n) []).filter (· != a)) }
    else { t with resIn := tput t.resIn (16 * p + n) (a :: tget t.resIn (16 * p + n) []) }

/-- Transport `n` is short no longer once its floor is full. -/
def endShort (s : State) (p n : Nat) (rest : List Nat) : State :=
  if floorRes p ≤ resCount s p n then modPool s fun t => { t with short := tput t.short p rest } else s

/-- The grant of a wait to a master: the pointer it reads, the result and the event (R189). -/
def grantWait (s : State) (m : Master) (a : Nat) : State :=
  raise (poolResult (modMst s m fun x => { x with waitPending := false, waitGranted := true, waitPtr := w64 a }) m 3 2)
    .pool (8 + mIdx m) a

/-- A slot that has become FREE goes to the floor short longest, else to the head of the wait list, else it stays with
the general slots (R189). -/
def handOut (s : State) (a : Nat) : State :=
  match slotOf s a with
  | none => s
  | some (p, i) =>
    match tget s.pool.short p [] with
    | n :: rest => endShort (giveFloor s p i n a) p n rest
    | [] =>
      match waitList s p with
      | [] => s
      | .master m :: rest => grantWait (takeSlot (setWaits s p rest) a (mIdx m)) m a
      | .job cid r :: rest =>
        modCmd (takeSlot (setWaits s p rest) a r) cid fun c => { c with workSlot := some a, workWait := false }

/-- The last holder of a slot has gone: FREE, or RETIRED if it was RETIRING (R187, R175). -/
def emptySlot (s : State) (a : Nat) : State :=
  let x := slotMeta s a
  if x.st = .retiring then
    raise (count (setMeta s a { x with st := .retired, refs := 0 }) .pool 4) .pool 12 a
  else handOut (setMeta s a { x with st := .free, refs := 0, filling := false }) a

/-- Take requester `r` from the holders of a slot (R187). -/
def dropHolder (x : SlotMeta) (r : Nat) : SlotMeta :=
  let x := { x with refs := x.refs - 1 }
  if x.ownerHolds && x.owner.toNat == r then { x with ownerHolds := false }
  else if x.h1.toNat = r then { x with h1 := 0x3F }
  else if x.h2.toNat = r then { x with h2 := 0x3F }
  else if x.h3.toNat = r then { x with h3 := 0x3F }
  else { x with h4 := 0x3F }

/-- RELEASE of a slot by a holder (R187). -/
def releaseSlot (s : State) (a r : Nat) : State :=
  let s := metaAt s a
  let x := dropHolder (slotMeta s a) r
  let s := setMeta s a x
  if x.refs = 0 then emptySlot s a else s

/-- Release if the requester holds the slot: what an engine does when it ends. -/
def letGo (s : State) (a r : Nat) : State := if isHolder (slotMeta s a) r then releaseSlot s a r else s

/-- Some HOLDER field is free and the reference count is below 5 (R188 order 7). -/
def canShare (x : SlotMeta) : Bool :=
  x.refs < 5 && (x.h1 == 0x3F || x.h2 == 0x3F || x.h3 == 0x3F || x.h4 == 0x3F)

/-- Put requester `r` into the first free HOLDER field (R187). -/
def addHolder (x : SlotMeta) (r : Nat) : SlotMeta :=
  let x := { x with refs := x.refs + 1 }
  let b := BitVec.ofNat 6 r
  if x.h1 = 0x3F then { x with h1 := b }
  else if x.h2 = 0x3F then { x with h2 := b }
  else if x.h3 = 0x3F then { x with h3 := b }
  else { x with h4 := b }

/-- Outcome of a pool operation: the state and, for a violation, its cause and the pointer it names (R76). -/
abbrev PoolOut := State × Option (Nat × Nat)

/-- ALLOC and ALLOC_WAIT past their common refusals (R511 orders 6 to 8). -/
def allocFrom (s : State) (m : Master) (op p : Nat) : State :=
  if overQuota s m p then poolResult s m 5 op
  else match findFree s p with
    | some a =>
      let s := takeSlot s a (mIdx m)
      poolResult (modMst s m fun x => { x with myPtr := w64 a }) m 0 op
    | none =>
      let s := raise s .pool 11
      if op = 1 then poolResult (count s .pool 1) m 1 op
      else
        let s := setWaits s p (waitList s p ++ [.master m])
        let s := modMst s m fun x => { x with waitPending := true, waitPool := BitVec.ofNat 3 p }
        poolResult (count s .pool 2) m 2 op

/-- Withdraw a master's wait. -/
def withdrawWait (s : State) (m : Master) : State :=
  if (mst s m).waitPending then
    let p := (mst s m).waitPool.toNat
    let s := setWaits s p ((waitList s p).filter (· != .master m))
    modMst s m fun x => { x with waitPending := false }
  else s

/-- SHARE and RELEASE in the order of R188. -/
def shareRelease (s : State) (m : Master) (op target : Nat) : PoolOut :=
  let a := (mst s m).opPtr.toNat
  match generalAt s a with
  | none => (s, some (4, a))
  | some (p, i) =>
    let s := metaRead s p i
    let x := slotMeta s a
    if op = 4 && x.st == .free then (s, some (2, a))
    else if !isHolder x (mIdx m) then (s, some (3, a))
    else if op = 4 then (poolResult (releaseSlot s a (mIdx m)) m 0 op, none)
    else if x.st = .retiring then (poolResult s m 0xA op, none)
    else if 2 < target then (poolResult s m 7 op, none)
    else if isHolder x target then (poolResult s m 6 op, none)
    else if !canShare x then (poolResult (count s .pool 3) m 4 op, none)
    else if overQuota s (if target = 0 then .portA else if target = 1 then .portB else .mgmt) p then
      (poolResult s m 5 op, none)
    else (poolResult (setMeta s a (addHolder x target)) m 0 op, none)

/-- A write of `POOL.OP` by a master that is not frozen (R185, R188, R511). -/
def poolOperation (s : State) (m : Master) (v : Word) : PoolOut :=
  let op := v.toNat % 8
  let p := v.toNat / 16 % 8
  let s := if op = 2 then modMst s m fun x => { x with waitGranted := false } else s
  if op = 0 || 5 < op then (poolResult s m 0xC op, none)
  else if !enabledNow s .pool then (poolResult s m 0xB op, none)
  else if (page s .pool).fault || s.pool.dead then (poolResult s m 0xD op, none)
  else if op = 3 || op = 4 then shareRelease s m op (v.toNat / 2 ^ 8 % 64)
  else if 4 < p then (poolResult s m 0xC op, none)
  else if op = 5 then
    if (mst s m).waitPending then (poolResult (withdrawWait s m) m 0 op, none) else (poolResult s m 9 op, none)
  else if op = 2 && (mst s m).waitPending then (poolResult s m 8 op, none)
  else (allocFrom s m op p, none)

/-- Ascending insertion. -/
def insertNat (a : Nat) : List Nat → List Nat
  | [] => [a]
  | b :: r => if a ≤ b then a :: b :: r else b :: insertNat a r

/-- Ascending order. -/
def sortNat (l : List Nat) : List Nat := l.foldr insertNat []

/-- Release every slot that a port holds, in ascending address order, and withdraw its wait (R190 port reset). -/
def releaseAll (s : State) (m : Master) : State :=
  let s := withdrawWait s m
  let mine := sortNat ((s.pool.slots.filter fun x => isHolder x.2 (mIdx m)).map (·.1))
  mine.foldl (fun s a => letGo s a (mIdx m)) s

/-- `POOL.META` of the slot at an address; all ones where no general slot starts there (R184, R186). -/
def metaReg (s : State) (a : Nat) : Nat :=
  match generalAt s a with
  | none => allOnes
  | some (p, _) =>
    let x := slotMeta s a
    let st := match x.st with
      | .free => 0
      | .allocated => 1
      | .retiring => 2
      | .retired => 3
    st + 2 ^ 2 * x.refs + 2 ^ 5 * bit x.ownerHolds + 2 ^ 8 * x.owner.toNat + 2 ^ 14 * x.h1.toNat + 2 ^ 20 * x.h2.toNat
      + 2 ^ 26 * x.h3.toNat + 2 ^ 32 * x.h4.toNat + 2 ^ 40 * p + 2 ^ 48 * x.gen.toNat

/-- Fixed charge of every transport in bytes: 71 MiB (R194). -/
def fixedCharge : Nat := 71 * 2 ^ 20

/-- `POOL.CHARGE[n]` in bytes: the fixed charge and every slot the transport's requester holds (R193). Fixed floor slots
are in the fixed charge. -/
def chargeOf (s : State) (n : Nat) : Nat :=
  fixedCharge + ((s.pool.slots.filter fun x => isHolder x.2 (3 + n)).map fun x =>
    match poolOf s x.1 with
    | some p => slotSize p
    | none => 0).foldl (· + ·) 0

/-- Usable share of a transport in bytes (R193). -/
def usableShare (s : State) (n : Nat) : Nat :=
  2 ^ 20 * field s .pool (0x0A0 + 4 * n) 0 17 - tget s.pool.retiredCharge n 0

/-- Retired capacity: the slot size of the pool of each listed address (R181). -/
def retiredCapacity (s : State) : Nat :=
  (s.mem.retireList.map fun a => match poolOf s a with
    | some p => slotSize p
    | none => 0).foldl (· + ·) 0

/-- Slots of the segment reservation that transport `n` has set aside in pool `p`, `k` of them. -/
def resSlots (s : State) (p n : Nat) : List Nat :=
  let out := tget s.pool.resOut (16 * p + n) []
  let start := floorStart s p + n * floorPer p + floorFixed p
  ((List.range (floorRes p)).map fun k => slotAddr s p (start + k)).filter (fun a => !out.contains a)
    ++ tget s.pool.resIn (16 * p + n) []

/-- Take one slot of the segment reservation for transport `n`: it leaves the set-aside slots (R195). -/
def takeReserved (s : State) (p n a : Nat) : State :=
  let s := modPool s fun t =>
    let inn := tget t.resIn (16 * p + n) []
    if inn.contains a then { t with resIn := tput t.resIn (16 * p + n) (inn.filter (· != a)) }
    else { t with resOut := tput t.resOut (16 * p + n) (a :: tget t.resOut (16 * p + n) []) }
  takeSlot s a (3 + n)

/-- `k` general slots of pool `p` for requester `r`, lowest first. -/
def takeGeneral (s : State) (p r : Nat) : Nat → State × List Nat
  | 0 => (s, [])
  | k + 1 => match findFree s p with
    | none => (s, [])
    | some a => let (s, l) := takeGeneral (takeSlot s a r) p r k; (s, a :: l)

/-! ### What a slice holds for reading -/

/-- The P3 slots of transport `n`'s floor: they hold one decoded data set (R194). -/
def homeFrames (s : State) (n : Nat) : List Nat := (List.range 256).map fun k => slotAddr s 3 (floorStart s 3 + 256 * n + k)

/-- The slots that a decoded data set goes to: the floor's where no other has them, else general slots (R327); where there are not enough of
those, the floor's serve again. -/
def framesFor (s : State) (n : Nat) : State × List Nat :=
  let home := homeFrames s n
  if 256 ≤ freeCount s 3 && (slice s n).decoded.any (fun d => d.slots.head? == home.head?) then takeGeneral s 3 (3 + n) 256
  else (s, home)

/-- General slots are left for a data set read ahead (R327). -/
def framesLeft (s : State) : Bool := 256 ≤ freeCount s 3

/-- The decoded data sets of a slice that are not kept leave their slots. -/
def dropDecoded (s : State) (n : Nat) (keep : Decoded → Bool) : State :=
  let s := (((slice s n).decoded.filter fun d => !keep d).flatMap (·.slots)).foldl (fun s a => letGo s a (3 + n)) s
  modSlice s n fun x => { x with decoded := x.decoded.filter keep }

/-- A retained block's slot is taken back, as an ALLOC of that slot; a reservation that it is set aside for gives it up (R191). -/
def takeBack (s : State) (n a : Nat) : State :=
  match slotOf s a with
  | some (p, i) => takeSlot (if setAside s p i a then leaveReservation s p a (floorOf s p i) else s) a (3 + n)
  | none => s

/-- The units of a slice that are not kept are done with: the slots taken back for them that no other unit needs are released. -/
def dropUnits (s : State) (n : Nat) (keep : ReadUnit → Bool) : State :=
  let us := (slice s n).units
  let left := (us.filter keep).filterMap (·.took)
  let s := ((((us.filter fun u => !keep u).filterMap (·.took)).filter fun a => !left.contains a).eraseDups).foldl
    (fun s a => letGo s a (3 + n)) s
  modSlice s n fun x => { x with units := x.units.filter keep }

end Sys2Proof.Machine
end

