-- ==== Sys2Proof/Machine/Space.lean ====
section
/-! DEFINITION. Places and lengths on tape (R267 to R270), the room left on a partition and early warning (R316, R317),
and the measure of buffered data (R321). -/

namespace Sys2Proof.Machine

/-- A wrap runs forward (R269). -/
def wrapForward (w : Nat) : Bool := w % 2 == 0

/-- Place on tape at a physical length, in channel bytes, from the start of a wrap (R267, R269): LPOS and µm past it in
the direction of the wrap. One µm is 11.71875 channel bytes. -/
def placeOf (wrap len : Nat) : Nat × Nat :=
  let um := len * 32 / 375
  (if wrapForward wrap then 220000 + um / 100 else 11219999 - um / 100, um % 100)

/-- Physical length in channel bytes at a place. -/
def lenOf (wrap lpos um : Nat) : Nat :=
  let frames := if wrapForward wrap then lpos - 220000 else 11219999 - lpos
  (frames * 100 + um) * 375 / 32

/-- Nominal limit of a wrap: 1,100 m in channel bytes (R270). -/
def wrapNominal : Nat := 12890625000
/-- Physical limit: 100 mm before the end of the spare zone, 1,121.9 m (R270). -/
def wrapPhysical : Nat := 13147265625

/-- An item of `nom` nominal and `phys` physical channel bytes fits at lengths `n0` and `p0` (R270). -/
def fitsAt (n0 p0 nom phys : Nat) : Bool := n0 + nom ≤ wrapNominal && p0 + phys ≤ wrapPhysical

/-- Members for which `room` channel bytes have room: 16 to each 137.8965 mm (R316); 64 x 11,718.75 x 137.8965 is
103,422,375. -/
def membersIn (room : Nat) : Nat := 16 * 64 * room / 103422375

/-- Payload of a data set (R280). -/
def payloadBytes : Nat := 9804800

/-- START_WRAP and END_WRAP of a volume's partition (R271). -/
def partOf (s : State) (v : Nat) : Nat × Nat := (slice s (v / 4)).want.table.getD (v % 4) (0, 0)

/-- `members_left` of R316. -/
def membersLeft (s : State) (v : Nat) : Int :=
  let x := vol s v
  let room := min (wrapNominal - x.nominal) (wrapPhysical - x.physical)
  membersIn room + ((partOf s v).2 - x.wrap) * membersIn wrapNominal - 5 - x.gpos

/-- The unit length of a block: what it takes, or may take, of a payload (R252, R317). -/
def unitLen (b : Blk) : Nat :=
  let enc := match b.bind with
    | .slot _ => true
    | _ => false
  let n := if b.phase = .done then b.len else b.dlen + 4 * b.entries.length + 16
  if enc then max n 32 else n

/-- What the blocks of a Buffered segment that is not cut yet may take of payloads (R317). -/
def uncutLen (g : Seg) : Nat :=
  if g.phase = .buffered && !g.cut then
    ((if 0 < g.marks then cutMarks g.marks else cutSegment g.recs).map fun c =>
      let n := c.dlen + 4 * c.entries.length + 16
      if g.keySlot.isSome then max n 32 else n).foldl (· + ·) 0
  else 0

/-- `projected` of R317. -/
def projected (s : State) (v : Nat) : Int :=
  let p := (((vol s v).blks.filter fun b => !b.sent && !b.retained).map unitLen ++ (vol s v).segs.map uncutLen).foldl (· + ·) 0
  membersLeft s v - ceilDiv p payloadBytes

/-- Early warning is passed (R317). -/
def ewPassed (s : State) (v : Nat) : Bool :=
  (vol s v).mounted && projected s v ≤ 16 * (field s (.fmt (tFin (v / 4))) 0x08C 0 16 : Nat)

/-- REMAINING of READ_POSITION (R317). -/
def remaining (s : State) (v : Nat) : Nat :=
  payloadBytes * (projected s v - 16 * (field s (.fmt (tFin (v / 4))) 0x08C 0 16 : Nat)).toNat

/-- The level of a transport in bytes of P2 slots (R321). -/
def levelBytes (s : State) (n : Nat) : Nat :=
  73728 * ((List.range 4).map fun p =>
    ((vol s (4 * n + p)).blks.filter fun b => b.phase == .done && !b.sent && !b.retained).length).foldl (· + ·) 0

/-- `LEVEL` in MiB (R321). -/
def levelMib (s : State) (n : Nat) : Nat := levelBytes s n / 2 ^ 20

/-- The rate of a transport in bytes a second: what finished compression in the last 16 ms (R321). -/
def inputRate (s : State) (n : Nat) : Nat :=
  (((slice s n).done.filter fun d => clock s < d.1 + 16000000).map (·.2)).foldl (· + ·) 0 * 1000 / 16

/-- The link of a transport runs on one lane in either direction (R320, R355). -/
def solo (s : State) (n : Nat) : Bool :=
  let l := (link s n).lanes
  (l.getLsbD 0 != l.getLsbD 1) || (l.getLsbD 2 != l.getLsbD 3)

/-- Permitted steps: lowest and effective maximum (R320). -/
def steps (s : State) (n : Nat) : Nat × Nat :=
  let lo := field s (.fmt (tFin n)) 0x080 0 5
  let hi := field s (.fmt (tFin n)) 0x080 8 5
  let hi := if (slice s n).capped then min hi 12 else hi
  (min lo hi, hi)

/-- t(k) in bytes a second: 1.1375 GB/s for each m/s (R319). -/
def stepRate (k : Nat) : Nat := 1137500 * (2000 + 400 * k)

end Sys2Proof.Machine
end

