-- ==== Sys2Proof/Machine/Queue.lean ====
section
/-! DEFINITION. Queues: posting of completion-queue entries (R120 to R125), the error log and the freeze of a queue
(R147 to R152), completion of commands, the freeze of a master (R76 to R82), and the acceptance of capsules (R98). -/

namespace Sys2Proof.Machine

/-- CLASS and DETAIL of the completions (R124). -/
abbrev Code := Nat × Nat

/-- Opcode of a capsule. -/
def cOpc (b : List Byte) : Nat := leAt b 0 1
/-- FLAGS of a capsule. -/
def cFlags (b : List Byte) : Nat := leAt b 1 1
/-- LBN field of a capsule. -/
def cLbn (b : List Byte) : Nat := leAt b 8 8

/-- CQ of an SQ (R93 BIND). -/
def sqCq (x : Sq) : Nat := x.bind.toNat / 2 ^ 24 % 64
/-- The SQ is a device SQ. -/
def sqDevice (x : Sq) : Bool := x.bind.getLsbD 16
/-- Transport byte of the binding. -/
def sqTransport (x : Sq) : Nat := x.bind.toNat % 256
/-- Partition byte of the binding. -/
def sqPartition (x : Sq) : Nat := x.bind.toNat / 256 % 256
/-- Volume of a volume SQ, numbered 4n + p. -/
def sqVol (x : Sq) : Option Nat := if sqDevice x then none else some (4 * sqTransport x + sqPartition x)

/-- The CQ holds SIZE - 1 unconsumed entries (R122). -/
def cqFull (x : Cq) : Bool := (x.tail + 1) % x.size.toNat == x.head

/-- The 16 bytes of an entry (R120). -/
def cqeBytes (s : State) (p : Port) (x : Cq) (e : CqEntry) : List Byte :=
  let ty := match e.kind with
    | .completion => 0
    | .xferRdy => 1
    | .segmentDone => 2
  leBytes 2 e.tag.toNat ++ leBytes 1 e.sq ++ leBytes 1 (bit x.phase + 2 * ty) ++ leBytes 2 (sq s p e.sq).sqhd
    ++ (match e.kind with
        | .completion => leBytes 1 e.cls.toNat ++ leBytes 1 e.detail.toNat
        | _ => leBytes 2 e.segNo.toNat)
    ++ leBytes 8 e.result.toNat

/-- The 64 bytes of an error-log entry (R148). -/
def errBytes (s : State) (p : Port) (e : CqEntry) : List Byte :=
  let x := sq s p e.sq
  leBytes 8 (port s p).errCount ++ leBytes 8 (now s) ++ leBytes 2 e.tag.toNat ++ leBytes 1 e.sq ++ [e.opc]
    ++ leBytes 1 e.cls.toNat ++ leBytes 1 e.detail.toNat ++ leBytes 2 e.reason.toNat
    ++ leBytes 8 (e.accSeq.getD allOnes) ++ leBytes 8 e.result.toNat ++ leBytes 8 (e.causeSeq.getD allOnes)
    ++ [e.transport, e.partition] ++ leBytes 2 x.sqhd ++ leBytes 2 x.inbox.length ++ [e.origin] ++ zeros 1
    ++ leBytes 4 e.dataSet.toNat ++ zeros 4

/-- Write an error-log entry (R148, R149). -/
def writeErr (s : State) (p : Port) (e : CqEntry) : State :=
  let i := (port s p).errNext
  let lost := match tget (port s p).errs i { bytes := [], read := true } with
    | x => !x.read
  let b := errBytes s p e
  let s := modPort s p fun t => { t with errs := tput t.errs i { bytes := b, read := false },
                                         errNext := (i + 1) % 256, errCount := nextNo t.errCount }
  let s := count s (.hp p) 3
  if lost then raise s (.hp p) 12 else s

/-- Freeze SQ `q` (R147); a draining SQ does not freeze (R97). -/
def freezeSq (s : State) (p : Port) (q : Nat) : State :=
  let x := sq s p q
  if x.frozen || x.draining || !x.enabled then s
  else raise (modSq s p q fun x => { x with frozen := true }) (.hp p) 10

/-- MSI-X message of a CQ (R125). -/
def cqMessage (s : State) (p : Port) (c : Nat) : State :=
  sendMsix (modCq s p c fun x => { x with coalN := 0 }) p ((cq s p c).irq.toNat % 128)

/-- Interrupt accounting of a posted entry (R125). -/
def cqInterrupt (s : State) (p : Port) (c : Nat) (e : CqEntry) : State :=
  let x := cq s p c
  if !x.ien then s
  else if e.kind = .xferRdy then cqMessage s p c
  else if !e.counted then s
  else
    let n := x.coalN + 1
    let lim := x.irq.toNat / 2 ^ 16 % 256
    if lim ≤ 1 || x.coalTime == 0 || lim ≤ n then cqMessage s p c
    else modCq s p c fun x => { x with coalN := n }

/-- Change the segment `no` of command `cid` on volume `v`. -/
def modSeg (s : State) (v cid no : Nat) (f : Seg → Seg) : State :=
  modVol s v fun x => { x with segs := x.segs.map fun g => if g.cid == cid && g.no == no then f g else g }

/-- What follows the posting of an entry: an XFER_RDY opens its segment, which takes the next segment sequence (R108); a
SEGMENT_DONE lets the next segment wait for admission; the last DISCARDED entry ends the discard (R151). -/
def onPosted (s : State) (p : Port) (e : CqEntry) : State :=
  match e.kind with
  | .xferRdy =>
    match (cmd s e.cid).vol with
    | none => s
    | some v =>
      let n := (vol s v).segNext
      let s := modVol s v fun x => { x with segNext := n + 1 }
      modSeg s v e.cid e.segNo.toNat fun g => { g with phase := .isOpen, seq := n }
  | .segmentDone =>
    match (cmd s e.cid).vol with
    | none => s
    | some v =>
      let no := e.segNo.toNat + 1
      let s := modSeg s v e.cid no fun g => { g with phase := .waitAdmit }
      modSlice s (v / 4) fun x => { x with toAdmit := x.toAdmit ++ [(e.cid, no)] }
  | .completion =>
    if e.origin = 2 then
      modSq s p e.sq fun x => { x with discarding := x.discarding - 1,
                                       frozen := x.frozen && x.discarding != 1 }
    else s

/-- The drain of an SQ ends when its inbox is empty, its started commands have completed and, but for an abort, its
entries are posted (R97). -/
def sqEndCheck (s : State) (p : Port) (q : Nat) : State :=
  let x := sq s p q
  let busy := s.cmds.any fun c => c.2.port == p && c.2.sq == q && c.2.phase != .ended && !c.2.mute
  let waits := (cq s p (sqCq x)).waiting.any fun e => e.sq == q
  if x.draining && x.inbox.isEmpty && !busy && (x.aborting || !waits) then
    modSq s p q fun x => { x with enabled := false, draining := false, aborting := false, frozen := false,
                                  discarding := 0 }
  else s

/-- A WRITE or WRITE_MARK posted while early warning is passed says so instead of SUCCESS (R317). -/
def earlyWarned (s : State) (e : CqEntry) : CqEntry :=
  if e.kind = .completion && (e.opc == 1 || e.opc == 3) && e.cls == 0
      && ewPassed s (4 * e.transport.toNat + e.partition.toNat) then { e with cls := 1, detail := 3 }
  else e

/-- Post an entry at TAIL (R122): the entry, its interrupt, and for class 0x02 or above the error log and the freeze. -/
def writeCqe (s : State) (p : Port) (c : Nat) (e : CqEntry) : State :=
  let x := cq s p c
  let e := earlyWarned s e
  let s := emit s (.cqEntry p (x.base.toNat + 16 * x.tail) (cqeBytes s p x e))
  let t := (x.tail + 1) % x.size.toNat
  let s := modCq s p c fun x => { x with tail := t, phase := if t = 0 then !x.phase else x.phase }
  let s := cqInterrupt (count s (.hp p) 1) p c e
  let s := if e.kind = .completion && 2 ≤ e.cls.toNat then
      let s := writeErr s p e
      if e.noFreeze then s else freezeSq s p e.sq
    else s
  sqEndCheck (onPosted s p e) p e.sq

/-- Post an entry, or let it wait on a full CQ, during an activation pause, or while the port issues no DMA (R122, R157, R506). -/
def postEntry (s : State) (p : Port) (e : CqEntry) : State :=
  let c := sqCq (sq s p e.sq)
  let x := cq s p c
  if x.enabled && x.waiting.isEmpty && !s.fwu.paused && !(port s p).d3hot && !cqFull x then writeCqe s p c e
  else
    let s := modCq s p c fun x => { x with waiting := x.waiting ++ [e] }
    if x.enabled && cqFull x then raise (count s (.hp p) 4) (.hp p) 11 else s

/-- Close the open range of a segment in its SQ's window. -/
def closeRange (s : State) (p : Port) (q : Nat) (off : Nat) : State :=
  modSq s p q fun x => { x with ranges := x.ranges.filter fun r => r.1 != off }

/-- The slots that a segment holds. -/
def segHolds (g : Seg) : List Nat := g.staging ++ g.p2 ++ g.early.filterMap (·.slot)

/-- Free the reservation of a segment and close its range; the segment is gone (R110, R146, R256). -/
def dropSeg (s : State) (g : Seg) : State :=
  let c := cmd s g.cid
  let n := g.vol / 4
  let s := (segHolds g).foldl (fun s a => letGo s a (3 + n)) s
  let s := match g.keySlot with
    | some k => modKey s k fun x => { x with reserved := x.reserved - g.duReserved }
    | none => s
  let s := if g.phase = .isOpen || g.phase = .waitPost then closeRange s c.port c.sq g.off else s
  let s := modSq s c.port c.sq fun x => { x with rangeWait := x.rangeWait.filter (· != g.cid) }
  let s := modSlice s n fun x => { x with toAdmit := x.toAdmit.filter fun a => a.1 != g.cid }
  modVol s g.vol fun x => { x with segs := x.segs.filter fun h => !(h.cid == g.cid && h.no == g.no) }

/-- Drop every segment of a command that is not Buffered. -/
def dropPending (s : State) (cid : Nat) : State :=
  match (cmd s cid).vol with
  | none => s
  | some v => ((vol s v).segs.filter fun g => g.cid == cid && g.phase != .buffered).foldl dropSeg s

/-- The command that a reading of data sets serves. -/
def gatherCid : GatherPurpose → Option Nat
  | .items c => some c
  | .lastMap c => some c
  | .baseMap c => some c
  | .scan c => some c
  | .header c => some c
  | .search c => some c
  | .overwrite c => some c
  | _ => none

/-- The output area of a codec job whose content the spec leaves undefined takes free bytes (R241). -/
def scramble (s : State) (c : Cmd) : State :=
  let n := leAt c.bytes 32 4
  { bufWrite s (leAt c.bytes 24 8) ((List.range n).map fun i => Config.freeByte (s.free + i)) c.holder with free := s.free + n }

/-- A codec job that a cluster runs ends: its slots go back, its lanes are idle, it counts (R117, R235). A job cut short leaves its
output open. -/
def dropJob (s : State) (cid : Nat) : State :=
  let c := cmd s cid
  if c.holder = 0x3F then s
  else
    let s := if c.phase = .running && c.stage = 1 && !c.workWait then scramble s c else s
    let s := (c.job ++ c.workSlot.toList).foldl (fun s a => letGo s a c.holder) s
    let s := modPool s fun t => { t with waits := t.waits.map fun w => (w.1, w.2.filter fun u => match u with
      | .job i _ => i != cid
      | .master _ => true) }
    let s := { s with clusters := s.clusters.map fun k => (k.1, { k.2 with lanes := k.2.lanes.map fun l =>
        (l.1, if l.2 = .job cid then .idle else l.2) }) }
    count (modCmd s cid fun c => { c with job := [], workSlot := none, workWait := false }) (.cdc (tFin (c.holder - 19))) 11

/-- Take a command's tape reading away from its slice, and its job away from its slots and lanes. -/
def dropWork (s : State) (cid : Nat) : State :=
  match (cmd s cid).vol with
  | none => dropJob s cid
  | some v => modSlice (dropUnits s (v / 4) fun u => u.cid != cid) (v / 4) fun x =>
        { x with gather := if gatherCid x.gather.purpose = some cid then {} else x.gather }

/-- What a completion says beyond CLASS, DETAIL and RESULT (R148). -/
structure CplInfo where
  reason : Nat := 0
  origin : Nat := 0
  cause : Option Nat := none
  dataSet : Nat := 0xFFFFFFFF
  deriving DecidableEq, Repr

/-- The entry of a command that has been read from its capsule; its REASON is the RESULT of an INVALID_FIELD or CHECK_REFUSED unless one
is given. -/
def cplEntry (b : List Byte) (q : Nat) (acc : Option Nat) (code : Code) (result : Nat) (i : CplInfo)
    (noFreeze : Bool) (cid : Nat) : CqEntry :=
  { kind := .completion, sq := q, tag := BitVec.ofNat 16 (leAt b 2 2), cls := BitVec.ofNat 8 code.1,
    detail := BitVec.ofNat 8 code.2, result := w64 result, counted := !(b.getD 1 0).getLsbD 1, opc := b.getD 0 0,
    reason := BitVec.ofNat 16 (if i.reason = 0 && (code = (2, 2) || code = (2, 0xB)) then result else i.reason), accSeq := acc, causeSeq := i.cause, transport := b.getD 4 0,
    partition := b.getD 5 0, origin := BitVec.ofNat 8 i.origin, dataSet := BitVec.ofNat 32 i.dataSet,
    noFreeze := noFreeze, cid := cid }

/-- The events and counts of `TSL[n].CIPH` that a completion raises (R265). -/
def keyEvents (s : State) (v : Option Nat) (opc : Nat) (code : Code) : State :=
  match v with
  | none => s
  | some v => if code = (5, 1) then raise s (.ciph (tFin (v / 4))) 9
    else if code = (5, 3) && opc == 2 then raise s (.ciph (tFin (v / 4))) 8
    else if code = (5, 4) then count s (.ciph (tFin (v / 4))) 4 else s

/-- Complete a started command: its pending segments and its work end, its turn ends, its COMPLETION is posted unless a
port reset took it away (R154). -/
def complete (s : State) (cid : Nat) (code : Code) (result : Nat) (i : CplInfo := {}) : State :=
  let c := cmd s cid
  if c.phase = .ended then s
  else
    let s := dropWork (dropPending s cid) cid
    let s := keyEvents (modCmd s cid fun c => { c with phase := .ended, dma := [] }) c.vol (cOpc c.bytes) code
    let s := match c.vol with
      | none => s
      | some v => modVol s v fun x => { x with turn := if x.turn = some cid then none else x.turn }
    let s := if c.mute then s else
      postEntry s c.port (cplEntry c.bytes c.sq c.accSeq code result i (sq s c.port c.sq).draining cid)
    sqEndCheck s c.port c.sq

/-- Complete a capsule that has not started; it leaves the inbox (R98). -/
def completeCapsule (s : State) (p : Port) (q : Nat) (k : Capsule) (code : Code) (result : Nat) (i : CplInfo) : State :=
  let s := modSq s p q fun x => { x with inbox := x.inbox.erase k, sqhd := (x.sqhd + 1) % 65536 }
  let s := keyEvents s (sqVol (sq s p q)) (cOpc k.bytes) code
  postEntry s p (cplEntry k.bytes q k.accSeq code result i (i.origin = 3) s.nextCid)

/-- A signed number as 64 bits. -/
def signed64 (n : Int) : Nat := (n % 2 ^ 64).toNat

/-- RESULT of a completion by the rows of R123 that name the opcode, else by class: for a capsule of bytes `b` on volume
`v` that reached LBN `at_`, left `residual` and copied `n` entries. -/
def rowResult (s : State) (b : List Byte) (v : Option Nat) (cls writeLbn residual n : Nat) : Nat :=
  let x := vol s (v.getD 64)
  match cOpc b with
  | 0x01 => if cls = 6 || cls = 7 then writeLbn else if cls = 3 || cls = 4 then allOnes else 0
  | 0x04 => x.pos
  | 0x05 => residual
  | 0x06 => x.comEnd
  | 0x08 => x.eod
  | 0x20 => n
  | 0x30 => leAt b 36 8
  | _ => if cls = 3 || cls = 4 then allOnes else 0

/-- RESULT of a command that ends before its own effect is complete (R123). -/
def endResult (s : State) (cid cls : Nat) : Nat :=
  let c := cmd s cid
  rowResult s c.bytes c.vol cls c.endLbn (signed64 c.residual) c.delivered

/-- RESULT of a capsule that completes without starting (R123). The first LBN of a WRITE at end of data that never had
its turn is a free value. -/
def capsuleResult (s : State) (k : Capsule) (v : Option Nat) (cls : Nat) : Nat :=
  rowResult s k.bytes v cls (if cLbn k.bytes = allOnes then freeVal s % 2 ^ 64 else cLbn k.bytes) (leAt k.bytes 16 8) 0

/-- Complete every capsule of an inbox with one code, in inbox order. -/
def completeInbox (s : State) (p : Port) (q : Nat) (ks : List Capsule) (code : Code) (origin : Nat) : State :=
  let v := sqVol (sq s p q)
  ks.foldl (fun s k => nextFree (completeCapsule s p q k code (capsuleResult s k v code.1) { origin := origin })) s

/-- R124 codes used at several places. -/
def cDisabled : Code := (2, 4)

/-- Complete every capsule of an inbox with DISABLED, in inbox order (R97). -/
def flushInbox (s : State) (p : Port) (q : Nat) : State :=
  sqEndCheck (completeInbox s p q (sq s p q).inbox cDisabled 3) p q

/-- Commands that have started and not completed, by a test. -/
def liveCmds (s : State) (f : Nat → Cmd → Bool) : List Nat :=
  (s.cmds.filter fun c => c.2.phase != .ended && f c.1 c.2).map (·.1)

/-- The record of a freeze and what it frees (R78, R79): cause, address and, for NO_WRITE_RIGHT, the guard; the EVT bit and the entry;
every semaphore of the master. -/
def markFrozen (s : State) (m : Master) (cause semNo addr : Nat) : State :=
  let s := modMst s m fun x => { x with frozen := true, cause := BitVec.ofNat 8 cause, sem := BitVec.ofNat 6 semNo, addr := addr }
  forceReleaseAll (logMgmt (setEvt s .dev (8 + mIdx m)) 0x058C 2 (mIdx m) addr cause (mIdx m)) m 1

/-- A WRITE waits for segment data: it has a segment open (R108). -/
def waitsData (s : State) (cid : Nat) (c : Cmd) : Bool :=
  cOpc c.bytes == 1 && c.vol.any fun v => (vol s v).segs.any fun g => g.cid == cid && g.phase == .isOpen

/-- The WRITEs of a port that wait for segment data end when it freezes (R78). -/
def endWrites (s : State) (p : Port) : State :=
  (liveCmds s fun i c => c.port == p && waitsData s i c).foldl
    (fun s cid => complete s cid (6, 4) (endResult s cid 6) { origin := 4 }) s

/-- A segment that opens while its port is frozen ends its WRITE at once (R78). -/
def endIfFrozen (s : State) (p : Port) : State := if (mst s (portMaster p)).frozen then endWrites s p else s

/-- Freeze a master (R78). A master that is frozen already stays as it is (R80). -/
def freezeMaster (s : State) (m : Master) (cause semNo addr : Nat) : State :=
  if (mst s m).frozen then s
  else
    let s := markFrozen s m cause semNo addr
    match masterPort m with
    | none => s
    | some p => endWrites (withdrawWait s m) p

/-- Give a capsule the next acceptance sequence of its volume; none once the sequence is used up (R59). -/
def nextAcc (s : State) (v : Nat) : State × Option Nat :=
  let n := (vol s v).accSeq + 1
  if n < allOnes then (modVol s v fun x => { x with accSeq := n }, some n) else (s, none)

/-- The capsules of an inbox take new acceptance sequences in inbox order (R150, R81). -/
def resequence (s : State) (p : Port) (q : Nat) : State :=
  match sqVol (sq s p q) with
  | none => s
  | some v =>
    let r := (sq s p q).inbox.foldl (fun (r : State × List Capsule) k =>
      ((nextAcc r.1 v).1, r.2 ++ [{ k with accSeq := (nextAcc r.1 v).2 }])) (s, [])
    modSq r.1 p q fun x => { x with inbox := r.2 }

/-- Thaw a master (R81): its held capsules take new acceptance sequences. -/
def thawMaster (s : State) (m : Master) : State :=
  if (mst s m).frozen then
    let s := modMst s m fun x => { x with frozen := false }
    match masterPort m with
    | none => s
    | some p => (List.range 64).foldl (fun s q => resequence s p q) s
  else s

/-- Wake the formatter from BIVOUAC, or reverse an entry to it (R406), with the cause of PWR.STATE.LAST_WAKE (R413). -/
def wake (s : State) (cause : Nat) : State :=
  let p := s.pwr
  if p.bivouac then
    setEvt (count { s with pwr := { p with bivouac := false, entering := false, lastWake := BitVec.ofNat 4 cause } } .pwr 1) .pwr 8
  else { s with pwr := { p with entering := false } }

/-- A port reaches the BARs: READY, its link up, its function in D0 (R398, R506). -/
def barOpen (s : State) (p : Port) : Bool := s.ready && (port s p).linkUp && !(port s p).d3hot

/-- The acceptance sequence of a capsule on SQ `x`: none on a device SQ (R98). -/
def acceptSeq (s : State) (x : Sq) : State × Option Nat :=
  match sqVol x with
  | none => (s, none)
  | some v => nextAcc s v

/-- A 64-byte capsule enters the inbox of SQ `q` (R98, R65). -/
def acceptCapsule (s : State) (p : Port) (q : Nat) (bytes : List Byte) : State :=
  let x := sq s p q
  let r := acceptSeq s x
  let k : Capsule := { bytes := bytes, accSeq := r.2, owned := sqDevice x || owner s (sqTransport x) == 1 + pIdx p }
  let s := count (modSq r.1 p q fun x => { x with inbox := x.inbox ++ [k] }) (.hp p) 0
  if x.draining then flushInbox s p q else s

/-- Send the messages of the vectors that are pending and not masked any more, where the port sends any (R88, R157, R506). -/
def flushMsix (s : State) (p : Port) : State :=
  let due := (port s p).msixPba.filter fun v => !(msixWord s p (4 * v + 3)).getLsbD 0 && !(port s p).msixMasked
  if portSends s p then
    due.foldl (fun s v => sendMsix s p v) (modPort s p fun t => { t with msixPba := t.msixPba.filter fun v => !due.contains v })
  else s

/-- Write words of the MSI-X table; a vector that is unmasked while pending sends its message (R88). -/
def msixTableWrite (s : State) (p : Port) (i : Nat) (bytes : List Byte) : State :=
  let ws := (List.range (bytes.length / 4)).map fun k => (i + k, w32 (leAt bytes (4 * k) 4))
  let s := ws.foldl (fun s w => if w.1 < 512 then modPort s p fun t => { t with msixTable := tput t.msixTable w.1 w.2 }
    else s) s
  flushMsix s p

/-- A posted write to BAR 4 of a port: a capsule window or the MSI-X table (R87, R98). -/
def bar4Write (s : State) (p : Port) (off : Nat) (bytes : List Byte) : State :=
  let m := portMaster p
  if !barOpen s p || (mst s m).frozen then s
  else if 0x40000 ≤ off then
    if off < 0x40800 && off % 4 = 0 && bytes.length % 4 = 0 then msixTableWrite s p ((off - 0x40000) / 4) bytes else s
  else
    let s := wake s 1
    let q := off / 0x1000
    let x := sq s p q
    if bytes.length = 64 && off % 64 = 0 && x.enabled && x.inbox.length < 256 then acceptCapsule s p q bytes
    else freezeMaster s m 5 0x3F off

/-- The check of an SQ enable (R95), as reason and field. -/
def sqCheck (s : State) (p : Port) (q : Nat) : Nat × Nat :=
  let x := sq s p q
  if !s.ready then (0x0001, 0xFF)
  else if !enabledNow s (.hp p) then (0x0003, 0xFF)
  else if !sqDevice x && (15 < sqTransport x || 3 < sqPartition x) then (0x0701, q)
  else if !sqDevice x && owner s (sqTransport x) != 1 + pIdx p then (0x0702, q)
  else if !(cq s p (sqCq x)).enabled then (0x0705, q)
  else (0, 0)

/-- Write 1 to an SQ's ENABLE (R95). -/
def sqEnableOp (s : State) (p : Port) (q : Nat) : State :=
  let x := sq s p q
  if x.draining then setCheck s (.hp p) 0x0002 0xFF
  else if x.enabled then s
  else
    let r := sqCheck s p q
    let s := setCheck s (.hp p) r.1 r.2
    if r.1 = 0 then
      modSq s p q fun x => { x with enabled := true, frozen := false, sqhd := 0, inbox := [], ranges := [], lastEnd := 0,
                                    rangeWait := [], discarding := 0 }
    else s

/-- Write 0 to an SQ's ENABLE: its inbox completes with DISABLED and its started commands run on (R97). -/
def sqDisableOp (s : State) (p : Port) (q : Nat) : State :=
  let x := sq s p q
  if x.enabled && !x.draining then flushInbox (modSq s p q fun x => { x with draining := true }) p q else s

/-- Abort an SQ: as a disable, and its started commands complete with SQ_ABORT (R55, R93). -/
def sqAbortOp (s : State) (p : Port) (q : Nat) : State :=
  if (sq s p q).enabled then
    let s := modSq s p q fun x => { x with draining := true, aborting := true }
    let s := (liveCmds s fun _ c => c.port == p && c.sq == q).foldl
      (fun s cid => complete s cid (6, 5) (endResult s cid 6)) s
    flushInbox s p q
  else s

/-- RESUME of a frozen SQ (R150). -/
def sqResume (s : State) (p : Port) (q : Nat) : State :=
  resequence (modSq s p q fun x => { x with frozen := false }) p q

/-- DISCARD of a frozen SQ (R151). -/
def sqDiscard (s : State) (p : Port) (q : Nat) : State :=
  let ks := (sq s p q).inbox
  if ks.isEmpty then modSq s p q fun x => { x with frozen := x.discarding != 0 }
  else
    let s := modSq s p q fun x => { x with discarding := x.discarding + ks.length }
    completeInbox s p q ks (6, 3) 2

/-- A write of SQ[q].CTRL: an abort wins over ENABLE (R37); RESTART acts on a frozen SQ only (R93). -/
def sqCtrl (s : State) (p : Port) (q : Nat) (v : Word) : State :=
  let s := if v.getLsbD 1 then sqAbortOp s p q
    else if v.getLsbD 0 then sqEnableOp s p q
    else sqDisableOp s p q
  let x := sq s p q
  let r := v.toNat / 4 % 4
  if x.frozen && !x.draining then
    if r = 1 && x.discarding == 0 then sqResume s p q else if r = 2 then sqDiscard s p q else s
  else s

/-- The check of a CQ enable (R95). -/
def cqCheck (s : State) (p : Port) (c : Nat) : Nat × Nat :=
  let x := cq s p c
  if !s.ready then (0x0001, 0xFF)
  else if !enabledNow s (.hp p) then (0x0003, 0xFF)
  else if x.base.toNat % 4096 != 0 then (0x0704, 0x40 + c)
  else if x.size.toNat < 2 || 65536 < x.size.toNat then (0x0703, 0x40 + c)
  else if 127 < x.irq.toNat % 256 then (0x0706, 0x40 + c)
  else (0, 0)

/-- An enabled SQ names CQ `c` (R95). -/
def cqNamed (s : State) (p : Port) (c : Nat) : Bool :=
  (port s p).sqs.any fun x => x.2.enabled && sqCq x.2 == c

/-- A write of CQ[c].CTRL (R94, R95). -/
def cqCtrl (s : State) (p : Port) (c : Nat) (v : Word) : State :=
  let s := modCq s p c fun x => { x with ien := v.getLsbD 2 }
  let x := cq s p c
  if v.getLsbD 0 then
    if x.enabled then s
    else
      let r := cqCheck s p c
      let s := setCheck s (.hp p) r.1 r.2
      if r.1 = 0 then
        modCq s p c fun x => { x with enabled := true, head := 0, tail := 0, phase := true, waiting := [], coalN := 0 }
      else s
  else if !x.enabled then s
  else if cqNamed s p c then setCheck s (.hp p) 0x0004 0xFF
  else modCq s p c fun x => { x with enabled := false, waiting := [], coalN := 0 }

/-- A write of CQ[c].HEAD (R122). -/
def cqHead (s : State) (p : Port) (c : Nat) (v : Word) : State :=
  let x := cq s p c
  let h := v.toNat % 65536
  let n := x.size.toNat
  if n ≤ h || (x.tail + n - x.head) % n < (h + n - x.head) % n then raise s (.hp p) 13
  else modCq s p c fun x => { x with head := h }

/-- Post the entry that has waited longest for a CQ (R122). -/
def cqPostNext (s : State) (p : Port) (c : Nat) : State :=
  let x := cq s p c
  match x.waiting with
  | e :: rest =>
    if x.enabled && !cqFull x && !s.fwu.paused && !(port s p).d3hot then
      endIfFrozen (writeCqe (modCq s p c fun x => { x with waiting := rest }) p c e) p
    else s
  | [] => s

/-- The coalescing time of a CQ ends (R125). -/
def coalExpire (s : State) (p : Port) (c : Nat) : State :=
  let x := cq s p c
  if x.ien && 0 < x.coalN && !s.fwu.paused && !(port s p).d3hot then cqMessage s p c else s

/-- Work of page group HP: some queue of the port is enabled. -/
def anyQueue (s : State) (p : Port) : Bool :=
  (port s p).sqs.any (·.2.enabled) || (port s p).cqs.any (·.2.enabled)

end Sys2Proof.Machine
end

