-- ==== Sys2Proof/Machine/LinkIo.lean ====
section
/-! DEFINITION. The transport link below its commands: frames (R335 to R337), flits, sequencing, acknowledgement and retransmission (R338 to
R343), CTRL and MBX sending (R352, R360), and the check of a received flit (R339, R341). -/

namespace Sys2Proof.Machine

/-- Flit TYPE codes (R339). -/
def tyIdle : Nat := 0
def tyChan : Nat := 1
def tyServo : Nat := 2
def tyCtrl : Nat := 3
def tyTime : Nat := 4
def tyMbx : Nat := 5
def tyFw : Nat := 6

/-- A flit takes part in retransmission (R339). -/
def sequenced (ty : Nat) : Bool := ty == 1 || ty == 2 || ty == 3 || ty == 5 || ty == 6

/-- The ACK word (R340). -/
def ackWord (l : LinkSt) (nak : Bool) : Nat :=
  (l.rxSeq + 8191) % 8192 + 2 ^ 14 * bit nak + 2 ^ 15 * bit l.rxAny

/-- The 64 bytes of a flit (R338). -/
def flitBytes (ty seqNo : Nat) (payload : List Byte) : List Byte :=
  let body := leBytes 2 (ty * 2 ^ 13 + seqNo) ++ padTo payload 60
  body ++ leBytes 2 (crc16 body).toNat

/-- Both downstream lanes are in use (R337). -/
def bothDown (l : LinkSt) : Bool := l.lanes.getLsbD 0 && l.lanes.getLsbD 1

/-- Flits that one frame time takes: 40 on each lane in use (R335). -/
def frameRoom (l : LinkSt) : Nat := if bothDown l then 2 * frameSlots else frameSlots

/-- The marker of the frame being dealt, on one lane (R336). -/
def markerOn (l : LinkSt) (lane : Nat) : Marker :=
  { lane := lane, up := false, solo := !bothDown l, good := l.lanes.toNat / 4, frame := frameNumber l.frameFirst l.txFrame }

/-- The flits that one lane carries of those dealt to a frame (R337). -/
def onLane (l : LinkSt) (lane : Nat) : List (List Byte) :=
  if bothDown l then
    ((List.range l.txDealt.length).filter fun k => (dealSlot true k).1 == lane).map fun k => l.txDealt.getD k []
  else l.txDealt

/-- What a link sends in a slot that is left: an IDLE flit (R339 to R341, R343). -/
def idleFlit (l : LinkSt) : List Byte := flitBytes tyIdle l.txSeq (leBytes 2 (ackWord l false))

/-- The frame being dealt leaves on every lane in use (R335 to R337); a frame without a flit of its own is not listed. -/
def frameLeaves (s : State) (n : Nat) : State :=
  let l := link s n
  if l.txDealt.isEmpty then s
  else
    let s := ((List.range 2).filter fun k => l.lanes.getLsbD k).foldl (fun s k =>
      emit s (.frame n k (frameCodewords (frameBytes (markerOn l k) (onLane l k) (idleFlit l))))) s
    modLink s n fun l => { l with txFrame := l.txFrame + 1, txDealt := [] }

/-- ns since the first frame of the link. -/
def frameTime (s : State) (n : Nat) : Nat := clock s - (link s n).frameAt

/-- Make room for a flit: a frame that is full leaves, and one whose marker has left already takes no more. -/
def openFrame (s : State) (n : Nat) : State :=
  let l := link s n
  let k := frameFrom (frameTime s n)
  if l.txDealt.length < frameRoom l && k ≤ l.txFrame then s
  else modLink (frameLeaves s n) n fun l => { l with txFrame := max k l.txFrame }

/-- Put a flit on the link (R343: a run of CHAN flits is at most 127 long). -/
def putFlit (s : State) (n ty : Nat) (bytes : List Byte) : State :=
  let s := count (emit (openFrame s n) (.flit n bytes)) (.link (tFin n)) 0
  modLink s n fun l =>
    { l with chanRun := if ty = tyChan then l.chanRun + 1 else 0,
             sinceMbx := if ty = tyMbx || ty = tyFw then 0 else l.sinceMbx + 1,
             txDealt := l.txDealt ++ [bytes] }

/-- Put a TIME flit in the first slot of lane 0 of the frame being dealt (R351): it takes the SEQ of the flit that it goes before. -/
def putFirst (s : State) (n : Nat) (payload : List Byte) : State :=
  let l := link s n
  let b := flitBytes tyTime ((l.txDealt.head?.map fun f => leAt f 0 2 % 2 ^ 13).getD l.txSeq) (leBytes 2 (ackWord l false) ++ payload)
  let s := count (emit s (.flit n b)) (.link (tFin n)) 0
  modLink s n fun l =>
    { l with chanRun := if l.txDealt.isEmpty then 0 else l.chanRun, sinceMbx := l.sinceMbx + 1, txDealt := b :: l.txDealt }

/-- Send an unsequenced flit: its SEQ is the one the next sequenced flit will take (R341). -/
def sendUnseq (s : State) (n ty : Nat) (nak : Bool) (payload : List Byte) : State :=
  let l := link s n
  putFlit s n ty (flitBytes ty l.txSeq (leBytes 2 (ackWord l nak) ++ payload))

/-- Send a sequenced flit and keep it until it is acknowledged (R342). -/
def sendSeq (s : State) (n ty : Nat) (payload : List Byte) : State :=
  let l := link s n
  let s := openFrame (if ty = tyChan && 127 ≤ l.chanRun then sendUnseq s n tyIdle false [] else s) n
  let b := flitBytes ty l.txSeq (if ty = tyChan then payload else leBytes 2 (ackWord l false) ++ payload)
  let s := modLink s n fun l => { l with txSeq := (l.txSeq + 1) % 8192, unacked := l.unacked ++ [(l.txSeq, b, 0)] }
  putFlit s n ty b

/-- Rank of a waiting flit (R343): while CHAN waits, MBX and FW take at most one slot in eight. -/
def txRank (l : LinkSt) (ty : Nat) : Nat :=
  if ty = tyServo then 0
  else if ty = tyCtrl then 1
  else if ty = tyChan then 3
  else if l.sinceMbx < 7 && l.txQueue.any (·.1 == tyChan) then 4 else 2

/-- The waiting flit that goes next: the first of the best rank. -/
def pickTx (l : LinkSt) : List (Nat × List Byte) → Option (Nat × List Byte)
  | [] => none
  | f :: r => match pickTx l r with
    | none => some f
    | some g => if txRank l f.1 ≤ txRank l g.1 then some f else some g

/-- Send waiting sequenced flits while fewer than 1,024 are unacknowledged (R342). -/
def pump (s : State) (n : Nat) : Nat → State
  | 0 => s
  | fuel + 1 =>
    let l := link s n
    if 1024 ≤ l.unacked.length then s
    else match pickTx l l.txQueue with
      | none => s
      | some f => pump (sendSeq (modLink s n fun l => { l with txQueue := l.txQueue.erase f }) n f.1 f.2) n fuel

/-- Hand sequenced flits to the link sender. -/
def queueFlits (s : State) (n : Nat) (fs : List (Nat × List Byte)) : State :=
  let s := modLink s n fun l => { l with txQueue := l.txQueue ++ fs }
  pump s n (link s n).txQueue.length

/-- Resend one flit (R342), with an IDLE flit before it where 127 CHAN flits have gone in a row (R343). -/
def resendFlit (s : State) (n : Nat) (b : List Byte) : State :=
  let l := link s n
  let ty := leAt b 0 2 / 2 ^ 13
  let s := if ty = tyChan && 127 ≤ l.chanRun then putFlit s n tyIdle (flitBytes tyIdle (leAt b 0 2 % 2 ^ 13) (leBytes 2 (ackWord l false)))
    else s
  count (putFlit s n ty b) (.link (tFin n)) 5

/-- Resend every unacknowledged flit from the oldest (R342); true if one would need more attempts than the limit. -/
def resendAll (s : State) (n : Nat) : State × Bool :=
  let l := link s n
  let lim := field s (.link (tFin n)) 0x044 0 5
  if l.unacked.any fun u => lim ≤ u.2.2 then (s, true)
  else
    let s := l.unacked.foldl (fun s u => resendFlit s n u.2.1) s
    (modLink s n fun l => { l with unacked := l.unacked.map fun u => (u.1, u.2.1, u.2.2 + 1) }, false)

/-- Take the flits that an ACK word acknowledges (R342). -/
def takeAck (s : State) (n ackSeq : Nat) : State :=
  if (link s n).unacked.any (·.1 == ackSeq) then
    modLink s n fun l => { l with unacked := (l.unacked.dropWhile (·.1 != ackSeq)).drop 1 }
  else s

/-- Send what waits, as far as the limit of unacknowledged flits lets it (R342). -/
def pumpAll (s : State) (n : Nat) : State := pump s n (link s n).txQueue.length

/-- What the receiver does with a flit. -/
inductive RxVerdict where
  | discard
  | protocol
  | overLimit
  | deliver
  deriving DecidableEq, Repr

/-- The bytes of a flit from `a` to `b` are all zero. -/
def zeroBytes (f : List Byte) (a b : Nat) : Bool := (sub f a (b + 1 - a)).all (· == 0)

/-- The parameter bytes that an upstream CTRL event names (R360). -/
def ctrlNamed (code i : Nat) : Bool :=
  if code = 0x80 then i ≤ 14 || (16 ≤ i && i ≤ 27)
  else if code = 0x81 then i ≤ 9
  else if code = 0x82 then i ≤ 10 || i == 12 || i == 13
  else if code = 0x83 then i ≤ 8
  else if code = 0x84 then i ≤ 12
  else if code = 0x85 then i ≤ 20
  else code != 0x86

/-- The reserved fields of a flit are zero (R339, R348, R351, R352, R360). -/
def reservedOk (ty : Nat) (f : List Byte) : Bool :=
  if ty = tyChan then true
  else !(f.getD 3 0).getLsbD 5 &&
    (if ty = tyIdle then zeroBytes f 4 61
     else if ty = tyServo then
       f.getD 5 0 == 0 &&
       (if f.getD 4 0 == 1 then (f.getD 24 0).toNat < 16 && zeroBytes f 25 61
        else (f.getD 30 0).toNat < 4 && leAt f 10 2 < 512 && leAt f 12 2 < 512 && zeroBytes f 31 61)
     else if ty = tyTime then zeroBytes f 16 61
     else if ty = tyMbx then zeroBytes f 58 61
     else if ty = tyCtrl then (List.range 54).all fun k => ctrlNamed (f.getD 6 0).toNat (8 + k) || f.getD (8 + k) 0 == 0
     else true)

/-- A gap or a CRC failure is reported once: an IDLE flit with the NAK bit (R341). -/
def sendNak (s : State) (n : Nat) : State := sendUnseq (modLink s n fun l => { l with nakSent := true }) n tyIdle true []

/-- The ACK word of a received flit: what it acknowledges, and a NAK, which resends before any new flit goes; true where a flit is past its
limit (R340, R342). -/
def rxAck (s : State) (n ty w : Nat) : State × Bool :=
  if ty = tyChan then (s, false)
  else
    let t := if w / 2 ^ 15 = 1 then takeAck s n (w % 2 ^ 13) else s
    let r := if w / 2 ^ 14 % 2 = 1 then resendAll t n else (t, false)
    (if r.2 then r.1 else pumpAll r.1 n, r.2)

/-- How far a SEQ is ahead of the one expected, modulo 8192; from 4096 on it is behind (R341). -/
def seqAhead (l : LinkSt) (seqNo : Nat) : Nat := (seqNo + 8192 - l.rxSeq) % 8192

/-- The place of a received flit in the sequence (R341). -/
def rxPlace (s : State) (n ty seqNo : Nat) : State × RxVerdict :=
  let l := link s n
  let lost := seqAhead l seqNo != 0 && seqAhead l seqNo < 4096 && !l.nakSent
  if !sequenced ty then (if lost then sendNak s n else s, .deliver)
  else if seqAhead l seqNo = 0 then
    (sendUnseq (modLink s n fun l => { l with rxSeq := (l.rxSeq + 1) % 8192, rxAny := true, nakSent := false }) n tyIdle false [],
      .deliver)
  else (if lost then sendNak s n else s, .discard)

/-- Receive an upstream flit that the row expects to be of TYPE `ty` (R340, R341): FLITS_RECEIVED and CRC_FAILURES, the
ACK word, and the place of a sequenced flit. -/
def rxFlit (s : State) (n ty : Nat) (f : List Byte) : State × RxVerdict :=
  let pg : PageId := .link (tFin n)
  let l := link s n
  let got := count s pg 1
  let fty := leAt f 0 2 / 2 ^ 13
  if l.phase != .loading && l.phase != .up then (s, .discard)
  else if leAt f 62 2 != (crc16 (sub f 0 62)).toNat then
    (if l.nakSent then count got pg 4 else sendNak (count got pg 4) n, .discard)
  else if fty = 7 || fty = 6 then (got, .protocol)
  else if fty != ty then (got, .discard)
  else if !reservedOk ty f then (got, .protocol)
  else
    let r := rxAck got n ty (leAt f 2 2)
    if r.2 then (r.1, .overLimit) else rxPlace r.1 n ty (leAt f 0 2 % 2 ^ 13)

/-- A flit arrives from the lanes (R341, R368): FEC_CORRECTED and FEC_UNCORRECTABLE, then the flit itself; one whose codeword was
uncorrectable is discarded, and the first loss is answered with NAK. -/
def rxLink (s : State) (n ty : Nat) (f : LinkFlit) : State × RxVerdict :=
  let l := link s n
  if l.phase != .loading && l.phase != .up then (s, .discard)
  else
    let s := if f.corrected = 0 then s else count s (.link (tFin n)) 2 f.corrected
    let s := if f.uncorrectable = 0 then s else count s (.link (tFin n)) 3 f.uncorrectable
    if f.lost then (if l.nakSent then s else sendNak s n, .discard) else rxFlit s n ty f.bytes

/-- Send a CTRL command and wait for its ACK (R360). -/
def ctrlGo (s : State) (n code : Nat) (params : List Byte) (cid : Option Nat) : State :=
  let i := (link s n).cmdNext
  let s := modLink s n fun l =>
    { l with cmdNext := (i + 1) % 0xFFFF, ctrl := l.ctrl ++ [{ cmdId := i, code := BitVec.ofNat 8 code, cid := cid }] }
  queueFlits s n [(tyCtrl, leBytes 2 i ++ leBytes 1 code ++ zeros 1 ++ params)]

/-- A CTRL command to send; during an activation pause none is sent, and it waits for the end of the pause (R359). -/
def ctrlSend (s : State) (n code : Nat) (params : List Byte) (cid : Option Nat := none) : State :=
  if s.fwu.paused then modLink s n fun l => { l with ctrlHeld := l.ctrlHeld ++ [(code, params, cid)] } else ctrlGo s n code params cid

/-- The pause is over: the CTRL commands that waited are sent, and a calibration that it stopped starts again (R359). -/
def sendHeld (s : State) (n : Nat) : State :=
  let l := link s n
  let s := modLink s n fun l => { l with ctrlHeld := [], recal := false }
  let s := if l.recal && l.mode = .calibrating && l.phase = .up then ctrlGo s n 0x11 [] none else s
  l.ctrlHeld.foldl (fun s c => ctrlGo s n c.1 c.2.1 c.2.2) s

/-- The same for every transport. -/
def sendHeldAll (s : State) : State := (List.range 16).foldl sendHeld s

/-- An activation pause begins: a calibration stops (R359). -/
def stopCalibration (s : State) : State :=
  (List.range 16).foldl (fun s n => if (link s n).mode = .calibrating then modLink s n fun l => { l with recal := true } else s) s

/-- Payload of an MBX transfer (R352), after the ACK word. -/
def mbxPayload (m : MbxOut) : List Byte :=
  [m.op, m.tag] ++ leBytes 2 m.addr ++ leBytes 1 m.len ++ zeros 1 ++ padTo m.data 48

/-- Start an MBX transfer (R352). -/
def mbxSend (s : State) (n : Nat) (op : Byte) (addr : Nat) (data : List Byte) (len : Nat) (who : Nat := 0) : State :=
  let m : MbxOut := { op := op, tag := BitVec.ofNat 8 (link s n).mbxNext, addr := addr, data := data, len := len, tries := 0,
                      who := who }
  let s := modLink s n fun l => { l with mbxNext := (l.mbxNext + 1) % 256, mbx := l.mbx ++ [m] }
  queueFlits s n [(tyMbx, mbxPayload m)]

/-- The bridge image travels in FW flits, 48 bytes each, in ascending OFFSET (R353). -/
def fwFlits (img : List Byte) : List (Nat × List Byte) :=
  (List.range (ceilDiv img.length 48)).map fun k =>
    (tyFw, leBytes 4 (48 * k) ++ leBytes 4 img.length ++ sub img (48 * k) 48 ++ zeros 2)

/-- Cut a stream of channel units into payloads of 60 bytes; a last short one ends with 0xFF (R344). -/
def chanFlits : Nat → List Byte → List (Nat × List Byte)
  | 0, _ => []
  | fuel + 1, b =>
    if b.isEmpty then []
    else if b.length < 60 then [(tyChan, padTo (b ++ [0xFF]) 60)]
    else (tyChan, b.take 60) :: chanFlits fuel (b.drop 60)

/-- Send a stream of channel units that starts at a unit boundary. -/
def chanSend (s : State) (n : Nat) (b : List Byte) : State := queueFlits s n (chanFlits (b.length / 60 + 1) b)

/-- Bytes of a round: one unit for each channel (R344, R345). -/
def roundBytes : Nat := 128 * 249

/-- Flits of an item of `r` rounds. -/
def itemFlits (r : Nat) : Nat := ceilDiv (roundBytes * r) 60

/-- What a stop at the end of the current round leaves unsent of the items of a burst, newest first, of which the last `q` flits have not been
sent (R326, R345): the rounds, the flits, and the bytes of the last flit that stays. -/
def unsentRounds : List Nat → Nat → Nat × Nat × Nat
  | [], _ => (0, 0, 60)
  | r :: rest, q =>
    if q = 0 then (0, 0, 60)
    else if itemFlits r ≤ q then
      let u := unsentRounds rest (q - itemFlits r)
      (u.1 + r, u.2.1 + itemFlits r, u.2.2)
    else
      let k := ceilDiv (60 * (itemFlits r - q)) roundBytes
      if r ≤ k then (0, 0, 60)
      else (r - k, itemFlits r - itemFlits k, roundBytes * k - 60 * (itemFlits k - 1))

/-- The slice stops sending channel data at the end of the current round (R260, R326): the flits of later rounds leave the queue, and the
rounds of the burst are those sent. -/
def chanStop (s : State) (n : Nat) : State :=
  let isChan (t : Nat × List Byte) : Bool := t.1 == tyChan
  let q := ((link s n).txQueue.filter isChan).length
  let (gone, drop, lastLen) := unsentRounds (slice s n).items.reverse q
  let keep := ((link s n).txQueue.filter isChan).take (q - drop)
  let keep := if lastLen = 60 then keep
    else keep.dropLast ++ (keep.getLast?.toList.map fun t => (t.1, padTo (t.2.take lastLen ++ [0xFF]) 60))
  let s := modLink s n fun l => { l with txQueue := l.txQueue.filter (fun t => !isChan t) ++ keep }
  modSlice s n fun x => { x with round := x.round - gone, await := x.await.filter fun a => a.round < x.round - gone }

/-- A page of transport `n`. -/
def pLink (n : Nat) : PageId := .link (tFin n)
def pFmt (n : Nat) : PageId := .fmt (tFin n)
def pCiph (n : Nat) : PageId := .ciph (tFin n)
def pServo (n : Nat) : PageId := .servo (tFin n)

end Sys2Proof.Machine
end

