-- ==== Sys2Proof/Machine/Aes.lean ====
section
/-! DEFINITION. The ciphers of the format: AES-256 (FIPS 197), XTS (IEEE 1619, R252, R253) and CMAC (SP 800-38B, R257).
The spec names these standards and does not restate them (log entry 11). -/

namespace Sys2Proof.Machine

/-- Multiplication in GF(2^8) modulo a polynomial whose low byte is `poly`, shift and add, least bit first. -/
def gfMul (poly : Byte) (a b : Byte) : Byte :=
  ((List.range 8).foldl (fun (r : Byte × Byte) i =>
    (if b.getLsbD i then r.1 ^^^ r.2 else r.1, if r.2.getLsbD 7 then (r.2 <<< 1) ^^^ poly else r.2 <<< 1)) (0, a)).1

/-- AES multiplication. -/
def aesMul (a b : Byte) : Byte := gfMul 0x1B a b

/-- AES inverse: the 254th power. -/
def aesInv (a : Byte) : Byte :=
  let a2 := aesMul a a
  let a3 := aesMul a2 a
  let a12 := aesMul (aesMul a3 a3) (aesMul a3 a3)
  let a15 := aesMul a12 a3
  let a30 := aesMul a15 a15
  let a60 := aesMul a30 a30
  let a63 := aesMul a60 a3
  let a126 := aesMul a63 a63
  let a127 := aesMul a126 a
  aesMul a127 a127

/-- The AES S-box. -/
def aesSub (a : Byte) : Byte :=
  let b := aesInv a
  b ^^^ b.rotateLeft 1 ^^^ b.rotateLeft 2 ^^^ b.rotateLeft 3 ^^^ b.rotateLeft 4 ^^^ 0x63

/-- Its inverse. -/
def aesUnsub (a : Byte) : Byte := aesInv (a.rotateLeft 1 ^^^ a.rotateLeft 3 ^^^ a.rotateLeft 6 ^^^ 0x05)

/-- XOR of two byte lists, as long as the shorter. -/
def xorBytes (a b : List Byte) : List Byte := List.zipWith (· ^^^ ·) a b

/-- Words of the AES-256 key schedule, 4 bytes each, newest first: `i` is the number of the next. -/
def aesExpand : Nat → Nat → Byte → List (List Byte) → List (List Byte)
  | 0, _, _, ws => ws
  | n + 1, i, rc, ws =>
    let t := ws.headD []
    let t := if i % 8 = 0 then (match (t.drop 1 ++ t.take 1).map aesSub with
        | a :: r => (a ^^^ rc) :: r
        | [] => [])
      else if i % 8 = 4 then t.map aesSub else t
    aesExpand n (i + 1) (if i % 8 = 0 then aesMul rc 2 else rc) (xorBytes (ws.getD 7 []) t :: ws)

/-- The fifteen round keys of 16 bytes. -/
def aesKeys (key : List Byte) : List (List Byte) :=
  let ws := (aesExpand 52 8 1 ((List.range 8).map fun i => sub key (4 * i) 4).reverse).reverse
  (List.range 15).map fun i => (List.range 4).flatMap fun j => ws.getD (4 * i + j) []

/-- ShiftRows on a column-major block. -/
def shiftRows (b : List Byte) : List Byte := (List.range 16).map fun i => b.getD ((i + 4 * (i % 4)) % 16) 0
/-- Its inverse. -/
def unshiftRows (b : List Byte) : List Byte := (List.range 16).map fun i => b.getD ((i + 16 - 4 * (i % 4)) % 16) 0

/-- A column times a circulant matrix. -/
def mixWith (m : List Byte) (b : List Byte) : List Byte :=
  (List.range 16).map fun i =>
    ((List.range 4).map fun k => aesMul (m.getD ((k + 4 - i % 4) % 4) 0) (b.getD (4 * (i / 4) + k) 0)).foldl (· ^^^ ·) 0

/-- AES-256 encryption of one block. -/
def aesEnc (key b : List Byte) : List Byte :=
  let ks := aesKeys key
  let st := (List.range 13).foldl (fun b i =>
    xorBytes (mixWith [2, 3, 1, 1] (shiftRows (b.map aesSub))) (ks.getD (i + 1) [])) (xorBytes (padTo b 16) (ks.getD 0 []))
  xorBytes (shiftRows (st.map aesSub)) (ks.getD 14 [])

/-- AES-256 decryption of one block. -/
def aesDec (key b : List Byte) : List Byte :=
  let ks := aesKeys key
  let st := (List.range 13).foldl (fun b i =>
    mixWith [14, 11, 13, 9] (xorBytes ((unshiftRows b).map aesUnsub) (ks.getD (13 - i) [])))
    (xorBytes (padTo b 16) (ks.getD 14 []))
  xorBytes ((unshiftRows st).map aesUnsub) (ks.getD 0 [])

/-- Multiplication by α in GF(2^128), little-endian bytes (IEEE 1619). -/
def xtsAlpha (t : List Byte) : List Byte :=
  let v := leNat t
  leBytes 16 (Nat.xor (v * 2 % 2 ^ 128) (if v / 2 ^ 127 % 2 = 1 then 0x87 else 0))

/-- One block under tweak block `t`. -/
def xtsBlock (f : List Byte → List Byte) (t b : List Byte) : List Byte := xorBytes (f (xorBytes b t)) t

/-- Whole blocks under successive tweak blocks; also the tweak block after them. -/
def xtsBlocks (f : List Byte → List Byte) : Nat → List Byte → List Byte → List Byte × List Byte
  | 0, t, _ => ([], t)
  | n + 1, t, b =>
    let c := xtsBlock f t (b.take 16)
    let r := xtsBlocks f n (xtsAlpha t) (b.drop 16)
    (c ++ r.1, r.2)

/-- The tweak of block sequence `q` of volume serial `v` (R253). -/
def tweakBytes (v q : Nat) : List Byte := leBytes 16 (v * 2 ^ 80 + q * 2 ^ 16)

/-- XTS encryption of one data unit of 16 bytes or more, with ciphertext stealing (R252). -/
def xtsEnc (k1 k2 tweak b : List Byte) : List Byte :=
  let m := b.length % 16
  let n := b.length / 16
  let t := aesEnc k2 tweak
  if m = 0 then (xtsBlocks (aesEnc k1) n t b).1
  else
    let (head, t1) := xtsBlocks (aesEnc k1) (n - 1) t b
    let cc := xtsBlock (aesEnc k1) t1 (sub b (16 * (n - 1)) 16)
    head ++ xtsBlock (aesEnc k1) (xtsAlpha t1) (b.drop (16 * n) ++ cc.drop m) ++ cc.take m

/-- XTS decryption of one data unit (R252). -/
def xtsDec (k1 k2 tweak b : List Byte) : List Byte :=
  let m := b.length % 16
  let n := b.length / 16
  let t := aesEnc k2 tweak
  if m = 0 then (xtsBlocks (aesDec k1) n t b).1
  else
    let (head, t1) := xtsBlocks (aesDec k1) (n - 1) t b
    let pp := xtsBlock (aesDec k1) (xtsAlpha t1) (sub b (16 * (n - 1)) 16)
    head ++ xtsBlock (aesDec k1) t1 (b.drop (16 * n) ++ pp.drop m) ++ pp.take m

/-- The CMAC doubling of a big-endian block. -/
def cmacDbl (b : List Byte) : List Byte :=
  let v := leNat b.reverse
  (leBytes 16 (Nat.xor (v * 2 % 2 ^ 128) (if v / 2 ^ 127 % 2 = 1 then 0x87 else 0))).reverse

/-- CBC-MAC over `n` whole blocks from chaining value `x`. -/
def cmacGo (key k1 : List Byte) : Nat → List Byte → List Byte → List Byte
  | 0, x, _ => x
  | n + 1, x, m =>
    let b := xorBytes (m.take 16) x
    cmacGo key k1 n (aesEnc key (if n = 0 then xorBytes b k1 else b)) (m.drop 16)

/-- AES-CMAC of a message of whole 16-byte blocks (R257). -/
def cmac (key m : List Byte) : List Byte :=
  cmacGo key (cmacDbl (aesEnc key (zeros 16))) (m.length / 16) (zeros 16) m

end Sys2Proof.Machine
end

