-- ==== Sys2Proof/Machine/Rs.lean ====
section
/-! DEFINITION. The two Reed-Solomon codes of the recording format (R277 to R279): encoding, and the decoding of errors
and erasures within the stated bound. -/

namespace Sys2Proof.Machine

/-- Multiplication in the field of R277. -/
def gmul (a b : Byte) : Byte := gfMul 0x1D a b

/-- α^k (R277). -/
def gpow (k : Nat) : Byte := iter (fun x => gmul x 2) (k % 255) 1

/-- `n`-th power. -/
def gexp (a : Byte) : Nat → Byte
  | 0 => 1
  | n + 1 => gmul a (gexp a n)

/-- Inverse. -/
def ginv (a : Byte) : Byte := gexp a 254

/-- A polynomial, coefficient of x^0 first. -/
abbrev Poly := List Byte

/-- Sum of polynomials. -/
def padd : Poly → Poly → Poly
  | [], b => b
  | a, [] => a
  | x :: a, y :: b => (x ^^^ y) :: padd a b

/-- Product with a constant. -/
def pscale (c : Byte) (p : Poly) : Poly := p.map (gmul c)

/-- Product. -/
def pmul (a b : Poly) : Poly := a.foldr (fun c r => padd (pscale c b) (0 :: r)) []

/-- Value at `x`. -/
def peval (p : Poly) (x : Byte) : Byte := p.foldr (fun c r => c ^^^ gmul x r) 0

/-- The generator with roots α^0 to α^(t-1) (R277). -/
def rsGen (t : Nat) : Poly := (List.range t).foldl (fun g i => pmul g [gpow i, 1]) [1]

/-- The parity of data symbols: `t` symbols, the coefficient of x^(t-1) first (R278). -/
def rsParity (t : Nat) (data : List Byte) : List Byte :=
  let g := (rsGen t).take t
  (data.foldl (fun (reg : List Byte) d =>
    let fb := d ^^^ reg.headD 0
    xorBytes (reg.drop 1 ++ [0]) (pscale fb g).reverse) (zeros t))

/-- A whole codeword (R278). -/
def rsEncode (t : Nat) (data : List Byte) : List Byte := data ++ rsParity t data

/-- Syndromes of a word. -/
def rsSyndromes (t : Nat) (w : List Byte) : List Byte := (List.range t).map fun i => peval w.reverse (gpow i)

/-- Locator of position `j` in a word of `n`. -/
def rsLoc (n j : Nat) : Byte := gpow (n - 1 - j)

/-- The errata locator by Berlekamp and Massey from the erasure locator: `r` from f + 1 to t. -/
def rsLocator (t f : Nat) (syn : List Byte) : Nat → Nat → Nat → Poly → Poly → Poly
  | 0, _, _, lam, _ => lam
  | n + 1, r, l, lam, b =>
    let d := ((List.range r).map fun j => gmul (lam.getD j 0) (syn.getD (r - 1 - j) 0)).foldl (· ^^^ ·) 0
    if d = 0 then rsLocator t f syn n (r + 1) l lam (0 :: b)
    else
      let lam' := padd lam (pscale d (0 :: b))
      if 2 * l ≤ r + f - 1 then rsLocator t f syn n (r + 1) (r + f - l) lam' (pscale (ginv d) lam)
      else rsLocator t f syn n (r + 1) l lam' (0 :: b)

/-- Degree of a polynomial. -/
def pdeg (p : Poly) : Nat := (p.reverse.dropWhile (· == 0)).length - 1

/-- The formal derivative. -/
def pderiv (p : Poly) : Poly := (List.range (p.length - 1)).map fun i => if i % 2 = 0 then p.getD (i + 1) 0 else 0

/-- Decode a word with `t` parity symbols and erasures (R279): the codeword and the positions it changes, if 2e + f is
at most t. -/
def rsDecode (t : Nat) (w : List Byte) (erased : List Nat) : Option (List Byte × List Nat) :=
  let n := w.length
  let f := erased.length
  let syn := rsSyndromes t w
  if t < f then none
  else if syn.all (· == 0) then some (w, [])
  else
    let g := erased.foldl (fun p j => pmul p [1, rsLoc n j]) [1]
    let psi := rsLocator t f syn (t - f) (f + 1) f g g
    let at_ := (List.range n).filter fun j => peval psi (ginv (rsLoc n j)) == 0
    let e := at_.length - f
    if at_.length != pdeg psi || t < 2 * e + f then none
    else
      let omega := (pmul syn psi).take t
      let dpsi := pderiv psi
      let fix (j : Nat) : Byte :=
        let x := rsLoc n j
        let xi := ginv x
        gmul x (gmul (peval omega xi) (ginv (peval dpsi xi)))
      let c := (List.range n).map fun j => if at_.contains j then w.getD j 0 ^^^ fix j else w.getD j 0
      if (rsSyndromes t c).all (· == 0) then
        some (c, at_.filter fun j => c.getD j 0 != w.getD j 0)
      else none

/-- C1: 12 parity symbols over a row of 228 (R277). -/
def c1Parity : Nat := 12
/-- C2: 24 parity symbols over a column of 168 (R277). -/
def c2Parity : Nat := 24

end Sys2Proof.Machine
end

