-- ==== Sys2Proof/Machine/Rrf.lean ====
section
/-! DEFINITION. The RRF-2 recording format as bytes (chapter 09): sub-data-sets and codewords, the DSIT, the volume map,
the HEADER data set and the cartridge record, each built and read. -/

namespace Sys2Proof.Machine

/-- Data area of an SDS (R280). -/
def sdsBytes : Nat := 38304
/-- Data area of a data set (R280). -/
def areaBytes : Nat := 256 * sdsBytes

/-- Code of a kind in the codeword header and the DSIT (R284, R293). -/
def kindCode : DsKind → Nat
  | .data => 0
  | .ridge => 1
  | .map => 2
  | .header => 3

/-- Kind of a code. -/
def kindOf (c : Nat) : DsKind := if c = 0 then .data else if c = 1 then .ridge else if c = 2 then .map else .header

/-- Rows of an SDS that are written: ridge parity leaves out rows 186 to 191 (R289). -/
def rowsOf (k : DsKind) : Nat := if k = .ridge then 186 else 192

/-- Codewords of a data set on one channel (R287). -/
def cwPerChannel (k : DsKind) : Nat := if k = .ridge then 372 else 384

/-- Nominal length on one channel in bytes (R287). -/
def nominalLen (k : DsKind) : Nat := 248 * cwPerChannel k

/-- The data rows of SDS `s` of a data area: 168 rows of 228 bytes (R280). -/
def sdsRows (area : List Byte) (s : Nat) : List (List Byte) :=
  (List.range 168).map fun r => sub area (sdsBytes * s + 228 * r) 228

/-- The 192 rows of 240 bytes of an SDS: C2 on each column, then C1 on each row (R280). -/
def sdsEncode (rows : List (List Byte)) : List (List Byte) :=
  let cols := (List.range 228).map fun c => rsParity c2Parity (rows.map fun r => r.getD c 0)
  let par := (List.range 24).map fun k => cols.map fun p => p.getD k 0
  (rows ++ par).map (rsEncode c1Parity)

/-- Row `r` of SDS `s` as it goes to tape. -/
def rowBytes (area : List Byte) (s r : Nat) : List Byte := (sdsEncode (sdsRows area s)).getD r []

/-- The 8 header bytes of a framed codeword (R284). -/
def cwHeader (s r num wrap : Nat) (k : DsKind) (prov : Bool) (copy pass : Nat) : List Byte :=
  let h := [BitVec.ofNat 8 s, BitVec.ofNat 8 r] ++ leBytes 2 num
    ++ leBytes 1 (wrap % 2 + 2 * kindCode k + 8 * bit prov) ++ leBytes 1 (copy + 4 * pass)
  h ++ leBytes 2 (crc16 h).toNat

/-- Channel of a row in pass `p` (R286, R311). -/
def cwChannel (s r p : Nat) : Nat := (r + 3 * s + 15 * p) % 128

/-- The (SDS, row) pairs of one channel in writing order (R286, R311). -/
def channelRows (k : DsKind) (p ch : Nat) : List (Nat × Nat) :=
  (List.range 256).flatMap fun s =>
    ((List.range (rowsOf k)).filter fun r => cwChannel s r p == ch).map fun r => (s, r)

/-- A header read from tape (R284). -/
structure CwHdr where
  s : Nat
  r : Nat
  low : Nat
  wrapParity : Nat
  kind : DsKind
  prov : Bool
  copy : Nat
  pass : Nat
  deriving DecidableEq, Repr

/-- Read the header of a framed codeword; none where R284 has it discarded. -/
def readHeader (b : List Byte) (wrap : Nat) : Option CwHdr :=
  let k := leAt b 4 1
  let c := leAt b 5 1
  if leAt b 6 2 != (crc16 (sub b 0 6)).toNat || 16 ≤ k || 64 ≤ c || k % 2 != wrap % 2 || 192 ≤ leAt b 1 1 then none
  else some { s := leAt b 0 1, r := leAt b 1 1, low := leAt b 2 2, wrapParity := k % 2, kind := kindOf (k / 2 % 4),
              prov := k / 8 == 1, copy := c % 4, pass := c / 4 }

/-- The DSIT of a data set (R293). -/
def dsitBytes (d : DataSet) (serial : Nat) : List Byte :=
  let counts := d.kind == .data
  let z (n : Nat) : Nat := if counts then n else 0
  let b := leBytes 4 0x32465252 ++ leBytes 1 1 ++ leBytes 1 (kindCode d.kind)
    ++ leBytes 1 (bit d.early + 2 * bit d.continues + 4 * bit d.contd) ++ leBytes 1 (d.vol % 4)
    ++ leBytes 4 d.num ++ leBytes 4 d.group ++ leBytes 1 d.gpos ++ leBytes 1 d.wrap ++ zeros 2 ++ leBytes 4 d.lpos
    ++ leBytes 6 serial ++ zeros 2 ++ leBytes 8 d.firstLbn ++ leBytes 4 (z d.ends) ++ leBytes 4 (z d.marks)
    ++ leBytes 8 d.marksBefore ++ leBytes 4 (z d.units) ++ leBytes 4 (z d.firstUnit) ++ leBytes 4 d.used
    ++ leBytes 8 (z d.firstSeq) ++ leBytes 8 d.nextSeq ++ leBytes 8 (if d.hzn = 0 then allOnes else d.hzn - 1)
    ++ leBytes 8 (if d.hzn = 0 then 0 else d.hznEod) ++ leBytes 8 d.tai ++ leBytes 8 d.label ++ padTo d.tag 16
    ++ zeros 884
  b ++ leBytes 8 (crc64 b).toNat

/-- The whole data area of a data set other than ridge parity. -/
def areaOf (d : DataSet) (serial : Nat) : List Byte := padTo d.payload payloadBytes ++ dsitBytes d serial

/-- The DSIT passes its CRC-64 (R294). -/
def dsitCrcOk (area : List Byte) : Bool :=
  leAt area (payloadBytes + 1016) 8 == (crc64 (sub area payloadBytes 1016)).toNat

/-- A data set is blank to a partition (R295): FORMAT_ID, VERSION, VOLUME_SERIAL or a reserved field. -/
def dsitBlank (area : List Byte) (serial : Nat) : Bool :=
  let t := sub area payloadBytes 1024
  leAt t 0 4 != 0x32465252 || leAt t 4 1 != 1 || leAt t 24 6 != serial || 8 ≤ leAt t 6 1 || leAt t 18 2 != 0
    || leAt t 30 2 != 0 || !((sub t 132 884).all (· == 0))

/-- Read the DSIT of a data area. -/
def dsitInfo (area : List Byte) : DsitInfo :=
  let t := sub area payloadBytes 1024
  let f := leAt t 6 1
  { kind := kindOf (leAt t 5 1), partition := leAt t 7 1, num := leAt t 8 4, group := leAt t 12 4, gpos := leAt t 16 1,
    wrap := leAt t 17 1, lpos := leAt t 20 4, contd := f / 4 % 2 == 1, continues := f / 2 % 2 == 1,
    firstLbn := leAt t 32 8, ends := leAt t 40 4, marks := leAt t 44 4, marksBefore := leAt t 48 8, units := leAt t 56 4,
    firstUnit := leAt t 60 4, used := leAt t 64 4, firstSeq := leAt t 68 8, nextSeq := leAt t 76 8,
    hzn := (leAt t 84 8 + 1) % 2 ^ 64, hznEod := leAt t 92 8, label := leAt t 108 8, tag := sub t 116 16 }

/-! ### The volume map -/

/-- A map entry (R298). -/
def mapEntryBytes (e : MapEntry) : List Byte :=
  let b := leBytes 8 e.firstLbn ++ leBytes 4 e.firstDs ++ leBytes 5 e.marksBefore ++ leBytes 1 e.startWrap
    ++ leBytes 4 e.startLpos ++ leBytes 1 e.endWrap ++ leBytes 1 (e.members + 32 * bit e.parity + 64 * bit e.provisional)
    ++ leBytes 4 e.endLpos
  b ++ leBytes 2 (crc16 b).toNat

/-- Read a map entry; none where its CRC-16 fails. -/
def readMapEntry (b : List Byte) : Option MapEntry :=
  let m := leAt b 23 1
  if leAt b 28 2 != (crc16 (sub b 0 28)).toNat then none
  else some { firstLbn := leAt b 0 8, firstDs := leAt b 8 4, marksBefore := leAt b 12 5, startWrap := leAt b 17 1,
              startLpos := leAt b 18 4, endWrap := leAt b 22 1, members := m % 32, parity := m / 32 % 2 == 1,
              provisional := m / 64 % 2 == 1, endLpos := leAt b 24 4 }

/-- Entries in one map data set (R297). -/
def mapEntriesPerSet : Nat := 326824
/-- Entries that the floor of a transport holds (R301). -/
def mapCapacity : Nat := 1607816

/-- Payload of a map data set (R297). -/
def mapPayload (h : MapHdr) (es : List MapEntry) : List Byte :=
  leBytes 4 0x4D465252 ++ leBytes 1 (bit h.clean) ++ leBytes 1 (bit h.full) ++ leBytes 1 h.index ++ leBytes 1 h.cnt
    ++ leBytes 8 h.eod ++ leBytes 8 (if h.hzn = 0 then allOnes else h.hzn - 1) ++ leBytes 8 h.nextSeq ++ leBytes 4 h.total
    ++ leBytes 4 h.first ++ leBytes 4 h.entries ++ leBytes 4 h.baseDs ++ leBytes 1 h.baseWrap ++ zeros 3
    ++ leBytes 4 h.baseLpos ++ zeros 8 ++ es.flatMap mapEntryBytes

/-- Read the header of a map data set's payload. -/
def readMapHdr (b : List Byte) : Option MapHdr :=
  if leAt b 0 4 != 0x4D465252 then none
  else some { clean := leAt b 4 1 == 1, full := leAt b 5 1 == 1, index := leAt b 6 1, cnt := leAt b 7 1, eod := leAt b 8 8,
              hzn := (leAt b 16 8 + 1) % 2 ^ 64, nextSeq := leAt b 24 8, total := leAt b 32 4, first := leAt b 36 4,
              entries := leAt b 40 4, baseDs := leAt b 44 4, baseWrap := leAt b 48 1, baseLpos := leAt b 52 4 }

/-- Its entries; none where one fails its CRC. -/
def readMapEntries (b : List Byte) (h : MapHdr) : Option (List MapEntry) :=
  (List.range h.entries).mapM fun k => readMapEntry (sub b (64 + 30 * k) 30)

/-- Apply a map data set to the map formed so far (R299): its entries replace those from FIRST_ENTRY on. -/
def applyMap (m : List MapEntry) (h : MapHdr) (es : List MapEntry) : List MapEntry := (m.take h.first ++ es).take h.total

/-! ### HEADER data set and cartridge record -/

/-- Payload of the HEADER data set of partition `p` (R272). -/
def headerPayload (table : List (Nat × Nat)) (p tai : Nat) (serials : List Nat) : List Byte :=
  leBytes 4 0x48465252 ++ leBytes 1 table.length ++ leBytes 1 p
    ++ (List.range 4).flatMap (fun k => let w := table.getD k (0, 0); leBytes 1 w.1 ++ leBytes 1 w.2)
    ++ (List.range 4).flatMap (fun k => leBytes 6 (serials.getD k 0)) ++ leBytes 8 tai

/-- Bytes of a partition's entry. -/
def recPartBytes (x : RecPart) : List Byte :=
  leBytes 6 x.serial ++ leBytes 1 (bit x.dirty) ++ zeros 1 ++ leBytes 4 x.lastDs ++ leBytes 1 x.lastWrap ++ zeros 3
    ++ leBytes 4 x.lastLpos ++ leBytes 8 x.eod ++ leBytes 8 x.nextSeq ++ leBytes 8 x.seqReserved ++ zeros 4

/-- The 256 bytes of a record. -/
def recBytes (r : CartRec) : List Byte :=
  let b := leBytes 4 0x43465252 ++ leBytes 4 r.seq ++ leBytes 4 r.dsReserved ++ leBytes 4 r.dsNext
    ++ leBytes 1 r.table.length ++ leBytes 1 (bit r.cmFailed)
    ++ (List.range 4).flatMap (fun k => let w := r.table.getD k (0, 0); leBytes 1 w.1 ++ leBytes 1 w.2) ++ zeros 6
    ++ (List.range 4).flatMap (fun k => recPartBytes (r.parts.getD k {})) ++ zeros 24
  b ++ leBytes 8 (crc64 b).toNat

/-- Read a copy of the record; none where MAGIC, CRC-64 or COUNT is wrong. -/
def readRec (b : List Byte) : Option CartRec :=
  let n := leAt b 16 1
  if leAt b 0 4 != 0x43465252 || leAt b 248 8 != (crc64 (sub b 0 248)).toNat || n = 0 || 4 < n then none
  else some
    { seq := leAt b 4 4, dsReserved := leAt b 8 4, dsNext := leAt b 12 4, cmFailed := leAt b 17 1 % 2 == 1,
      table := (List.range n).map fun k => (leAt b (18 + 2 * k) 1, leAt b (19 + 2 * k) 1),
      parts := (List.range 4).map fun k =>
        let o := 32 + 48 * k
        { serial := leAt b o 6, dirty := leAt b (o + 6) 1 % 2 == 1, lastDs := leAt b (o + 8) 4,
          lastWrap := leAt b (o + 12) 1, lastLpos := leAt b (o + 16) 4, eod := leAt b (o + 20) 8,
          nextSeq := leAt b (o + 28) 8, seqReserved := leAt b (o + 36) 8 } }

/-- The record of two copies with the higher SEQUENCE (R273). -/
def pickRec (a b : Option CartRec) : Option CartRec :=
  match a, b with
  | some x, some y => if y.seq ≤ x.seq then some x else some y
  | some x, none => some x
  | none, y => y

end Sys2Proof.Machine
end

