-- ==== Sys2Proof/Machine/Tape.lean ====
section
/-! DEFINITION. From a Buffered segment to a closed data set: cutting into blocks (R198 to R200), the P2 slots, encryption
(R252), packing and closing (R281, R282), horizons (R140), and what a verified data set frees (R135, R191). -/

namespace Sys2Proof.Machine

/-- The items of a block in LBN order (R202): kind 1 a record end, 2 a filemark, with its offset. -/
def itemsOf (entries : List BEntry) (dlen : Nat) (ends : Bool) : List (Nat × Nat) :=
  let e := entries.map fun x => (x.2, x.1)
  e.filter (fun x => x.2 < dlen) ++ (if ends then [(1, dlen)] else []) ++ e.filter (fun x => dlen ≤ x.2)

/-- A block's items. -/
def blkItems (b : Blk) : List (Nat × Nat) := itemsOf b.entries b.dlen b.ends

/-- Bytes `[off, off + n)` of a segment, from its staging slots. -/
def segRead (s : State) (g : Seg) (off n : Nat) : List Byte :=
  (List.range n).map fun i => ramByte s (g.staging.getD ((off + i) / 2 ^ 20) 0 + (off + i) % 2 ^ 20)

/-- The staging pieces, as address and length, of bytes `[off, off + n)` of a segment. -/
def segPieces (g : Seg) (off n : Nat) : List (Nat × Nat) :=
  (List.range g.staging.length).filterMap fun j =>
    let lo := max off (j * 2 ^ 20)
    let hi := min (off + n) ((j + 1) * 2 ^ 20)
    if lo < hi then some (g.staging.getD j 0 + (lo - j * 2 ^ 20), hi - lo) else none

/-- Cut records where a valid pass-through frame takes a block of its own (R225): `run` holds the ordinary records since
`runStart`, newest first. -/
def cutPt (bytes : Nat → Nat → List Byte) : List Nat → Nat → List Nat → Nat → List Cut
  | [], _, run, runStart => (cutSegment run.reverse).map fun c => { c with start := c.start + runStart }
  | r :: rest, pos, run, runStart =>
    if (ptFrame (bytes pos r)).isSome then
      (cutSegment run.reverse).map (fun c => { c with start := c.start + runStart })
        ++ { start := pos, dlen := r, entries := [], cont := false, ends := true, pt := true }
        :: cutPt bytes rest (pos + r) [] (pos + r)
    else cutPt bytes rest (pos + r) (r :: run) runStart

/-- Places and LBNs of the records of a segment. -/
def recStarts : List Nat → Nat → Nat → List (Nat × Nat × Nat)
  | [], _, _ => []
  | r :: rest, pos, lbn => (pos, r, lbn) :: recStarts rest (pos + r) (lbn + 1)

/-- LBNs of records that begin with the magic and are no valid frame (R226), with where they start. -/
def ptRejected (s : State) (g : Seg) : List (Nat × Nat) :=
  (recStarts g.recs 0 g.firstLbn).filterMap fun r =>
    let b := segRead s g r.1 r.2.1
    if ptBegins b && (ptFrame b).isNone then some (r.1, r.2.2) else none

/-- The cuts of a Buffered segment (R198, R199). -/
def segCuts (s : State) (g : Seg) (par : CodeParams) : List Cut :=
  if 0 < g.marks then cutMarks g.marks
  else if par.method = 3 then cutPt (segRead s g) g.recs 0 [] 0
  else cutSegment g.recs

/-- Blocks of a segment from its cuts; `q` and `lbn` run on. Blocks of filemarks have METHOD and LEVEL 0 (R199). -/
def mkBlks (x : Vol) (g : Seg) (brk : Bool) (rej : List (Nat × Nat)) : List Cut → Nat → Nat → List Blk
  | [], _, _ => []
  | c :: r, q, lbn =>
    let next := lbn + (itemsOf c.entries c.dlen c.ends).length
    { q := q, vol := g.vol, cid := g.cid, seg := g.seq, segNo := g.no, start := c.start, dlen := c.dlen,
      entries := c.entries, cont := c.cont, ends := c.ends, firstLbn := lbn, nextLbn := next,
      par := if 0 < g.marks then { method := 0, level := 0 } else g.par,
      passThrough := c.pt, chainBreak := brk, bind := x.bind, duKey := g.keySlot,
      ptRejects := (rej.filter fun e => c.start ≤ e.1 && e.1 < c.start + c.dlen).map (·.2) }
    :: mkBlks x g false rej r (q + 1) next

/-- SEQ_RESERVED of a volume's partition as the cartridge record holds it (R275). -/
def seqReserved (s : State) (v : Nat) : Nat :=
  match (slice s (v / 4)).record with
  | some r => (r.parts.getD (v % 4) {}).seqReserved
  | none => 0

/-- Change the cartridge record that is wanted, and have it written (R274). -/
def wantRec (s : State) (n : Nat) (f : CartRec → CartRec) : State :=
  modSlice s n fun x => { x with want := f x.want, recWant := true }

/-- Change one partition's entry. -/
def recPart (r : CartRec) (p : Nat) (f : RecPart → RecPart) : CartRec :=
  { r with parts := (List.range 4).map fun k => let e := r.parts.getD k {}; if k = p then f e else e }

/-- SEQ_RESERVED is raised once fewer than 2^24 numbers remain below it, `q` being the next one (R275). -/
def raiseSeq (s : State) (v q : Nat) : State :=
  if seqReserved s v < q + 2 ^ 24 then
    wantRec s (v / 4) fun r => recPart r (v % 4) fun e => { e with seqReserved := seqReserved s v + 2 ^ 32 }
  else s

/-- The volumes of the transport of volume `v`. -/
def sisters (v : Nat) : List Nat := (List.range 4).map fun p => 4 * (v / 4) + p

/-- Change one block of a volume. -/
def modBlk (s : State) (v q : Nat) (f : Blk → Blk) : State :=
  modVol s v fun x => { x with blks := x.blks.map fun b => if b.q = q then f b else b }

/-- Block `q` of a volume. -/
def blk? (s : State) (v q : Nat) : Option Blk := (vol s v).blks.find? fun b => b.q == q

/-- The P2 slot a block takes: the next of its segment's reservation, else a general slot of P2. -/
def takeP2 (s : State) (v cid no : Nat) : State × Option Nat :=
  match (vol s v).segs.find? fun g => g.cid == cid && g.no == no with
  | some g => match g.p2 with
    | a :: r => (modSeg s v cid no fun g => { g with p2 := r }, some a)
    | [] => let (s, l) := takeGeneral s 2 (3 + v / 4) 1; (s, l.head?)
  | none => let (s, l) := takeGeneral s 2 (3 + v / 4) 1; (s, l.head?)

/-- Write a finished block into its P2 slot; the block is done. -/
def storeBlk (s : State) (v : Nat) (b : Blk) (bytes : List Byte) : State :=
  match takeP2 s v b.cid b.segNo with
  | (s, none) => s
  | (s, some a) =>
    let s := bufWrite s a bytes (3 + v / 4)
    modBlk s v b.q fun b => { b with phase := .done, slot := a, gen := (slotMeta s a).gen.toNat, len := bytes.length,
                                     input := [] }

/-- Release the staging of a segment all of whose blocks are compressed, and what its reservation has left (R195). -/
def freeStaging (s : State) (v : Nat) (g : Seg) : State :=
  if g.cut && !((vol s v).blks.any fun b => b.cid == g.cid && b.segNo == g.no && b.phase != .done) then
    let s := (g.staging ++ g.p2).foldl (fun s a => letGo s a (3 + v / 4)) s
    modSeg s v g.cid g.no fun g => { g with staging := [], p2 := [] }
  else s

/-- A block of a cut that a lane had before the cut (R16): it is compressed, or still in that lane. -/
def earlyBlk (g : Seg) (b : Blk) : Blk :=
  match g.early.find? fun e => e.start == b.start with
  | some e => match e.slot with
    | some a => { b with phase := .done, slot := a, gen := e.gen, len := e.len }
    | none => { b with phase := .lane }
  | none => b

/-- The lanes that have blocks of a segment know them by number once it is cut. -/
def nameLanes (s : State) (v : Nat) (bs : List Blk) : State :=
  let named (w : LaneWork) : LaneWork :=
    match w with
    | .early u cid no st => match bs.find? fun b => u == v && b.cid == cid && b.segNo == no && b.start == st with
      | some b => .compress v b.q
      | none => w
    | _ => w
  { s with clusters := s.clusters.map fun c => (c.1, { c.2 with lanes := c.2.lanes.map fun l => (l.1, named l.2) }) }

/-- Cut a Buffered segment into blocks; it waits while its numbers are not below SEQ_RESERVED (R198, R275). Segments
are cut in the order of their sequence. -/
def cutSeg (s : State) (v : Nat) (g : Seg) : State :=
  let x := vol s v
  let cuts := segCuts s g g.par
  if g.cut || seqReserved s v < x.blkNext + cuts.length
      || x.segs.any (fun h => h.phase == .buffered && !h.cut && decide (h.seq < g.seq)) then s
  else
    let bs := (mkBlks x g x.chainBreak (if g.par.method = 3 && g.marks = 0 then ptRejected s g else []) cuts x.blkNext
      g.firstLbn).map (earlyBlk g)
    let q := x.blkNext + cuts.length
    let s := modVol s v fun x => { x with blks := x.blks ++ bs, blkNext := q,
                                          chainBreak := if cuts.isEmpty then x.chainBreak else 0 < g.marks }
    let s := match g.keySlot with
      | some k => modKey s k fun y => { y with reserved := y.reserved + cuts.length - g.duReserved }
      | none => s
    let s := modSeg s v g.cid g.no fun g => { g with cut := true, duReserved := 0, early := [] }
    let s := if g.early.isEmpty then s else nameLanes s v bs
    let s := if x.blkNext < 2 ^ 63 && 2 ^ 63 ≤ q then raise s (pCiph (v / 4)) 10 v else s
    let s := if g.par.linked && !cuts.isEmpty then
        (sisters v).foldl (fun s w => if w = v then s else modVol s w fun x => { x with chainBreak := true }) s
      else s
    let s := raiseSeq s v q
    match (vol s v).segs.find? fun h => h.cid == g.cid && h.no == g.no with
    | some g => freeStaging s v g
    | none => s

/-- A segment is Buffered (R135). -/
def bufferSeg (s : State) (g : Seg) : State :=
  let s := modSeg s g.vol g.cid g.no fun g => { g with phase := .buffered }
  let s := modCmd s g.cid fun c => { c with endLbn := g.endLbn }
  let s := modVol s g.vol fun x =>
    { x with bufEnd := g.eodAfter, eod := g.eodAfter, pos := g.endLbn, haltMap := false,
             mapWanted := if x.haltMap then x.mapWanted.orElse fun _ => some false else x.mapWanted }
  cutSeg s g.vol { g with phase := .buffered }

/-! ### Encryption and packing -/

/-- The 32 bytes of key `k` of a slot (R243). -/
def keyBytes (s : State) (sl k : Nat) : List Byte :=
  (List.range 8).flatMap fun w => leBytes 4 (tget (keySlot s sl).words (8 * k + w) 0).toNat

/-- One reserved data unit of a slot is used, or a unit counts (R256). -/
def countUnit (s : State) (sl : Nat) (reserved : Bool) : State :=
  let x := keySlot s sl
  let s := setKey s sl { x with du := x.du + 1, reserved := if reserved then x.reserved - 1 else x.reserved }
  if x.du ≤ 0xF00000000000 && 0xF00000000000 < x.du + 1 then raise s .key 11 sl else s

/-- The unit of a block as its data set carries it (R252): its bytes, encrypted where it is bound to a slot. -/
def unitOf (s : State) (b : Blk) : List Byte :=
  let plain := ramRead s b.slot b.len
  match b.bind with
  | .slot k => xtsEnc (keyBytes s k 0) (keyBytes s k 1) (tweakBytes (vol s b.vol).serial b.q)
      (if b.len < 32 then padTo plain 32 else plain)
  | _ => plain

/-- The open data set of a volume. -/
def openOf (s : State) (v : Nat) : Option OpenDs := (slice s (v / 4)).opens.find? fun o => o.vol == v
/-- Replace it. -/
def setOpen (s : State) (v : Nat) (o : Option OpenDs) : State :=
  modSlice s (v / 4) fun x => { x with opens := x.opens.filter (fun p => p.vol != v) ++ o.toList }

/-- Segments wholly packed so far: every one with a lower sequence (R140). -/
def placedUpTo (x : Vol) : Nat :=
  (x.segs.filter fun g => !(g.phase == .buffered && g.cut
      && !(x.blks.any fun b => b.cid == g.cid && b.segNo == g.no && !b.placed))).foldl
    (fun m g => if g.phase = .buffered || g.phase = .isOpen || 0 < g.marks then min m g.seq else m) x.segNext

/-- Bring the packed horizon and the end of data it leaves up to date. -/
def advancePlaced (s : State) (v : Nat) : State :=
  modVol s v fun x =>
    let h := placedUpTo x
    let e := ((x.segs.filter fun g => g.phase == .buffered && x.placed ≤ g.seq && g.seq < h).foldl
      (fun (m : Nat × Nat) g => if m.1 ≤ g.seq then (g.seq, g.eodAfter) else m) (0, x.placedEod)).2
    if x.placed < h then { x with placed := h, placedEod := e } else x

/-- The next data set number may be issued (R59, R274). -/
def numberFree (s : State) (n : Nat) : Bool :=
  match (slice s n).record with
  | some r => (slice s n).dsNext < r.dsReserved && (slice s n).dsNext < 0xFFFFFFFF
  | none => false

/-- Issue a data set number; the record is raised once fewer than 16,384 remain (R274). -/
def issueNumber (s : State) (n : Nat) : State × Nat :=
  let x := slice s n
  let k := x.dsNext
  let s := modSlice s n fun x => { x with dsNext := k + 1 }
  let res := match x.record with
    | some r => r.dsReserved
    | none => 0
  (if res < k + 1 + 16384 && x.want.dsReserved ≤ res then wantRec s n fun r => { r with dsReserved := res + 65536 } else s, k)

/-- The fields of a closing data set that hold for every kind. -/
def closeBase (s : State) (v : Nat) (kind : DsKind) : DataSet :=
  let x := vol s v
  { id := (slice s (v / 4)).setNext, kind := kind, vol := v, hzn := x.placed, hznEod := x.placedEod, nextSeq := x.blkNext,
    tai := now s, marksBefore := x.placedMarks }

/-- Add a data set to those of the slice. -/
def addSet (s : State) (n : Nat) (d : DataSet) : State :=
  modSlice s n fun x => { x with sets := x.sets ++ [d], setNext := x.setNext + 1 }

/-- Close the open data set of a volume (R282, R293): horizon, label, tag. -/
def closeOpen (s : State) (v : Nat) (early continues : Bool) : State :=
  match openOf s v with
  | none => s
  | some o =>
    let s := advancePlaced s v
    let (label, tag, sl) := match o.bind with
      | .slot k => ((keySlot s k).label.toNat, cmac (keyBytes s k 2) (padTo o.payload payloadBytes), some k)
      | _ => (0, zeros 16, none)
    let base := closeBase s v .data
    let d : DataSet := { base with
      payload := o.payload, early := early, continues := continues, contd := o.contd, firstLbn := o.firstLbn,
      ends := o.ends, marks := o.marks, marksBefore := o.marksBefore, units := o.units, firstUnit := o.firstUnit,
      used := o.payload.length, firstSeq := o.firstSeq, nextSeq := (vol s v).packed, label := label, tag := tag,
      endLbn := o.endLbn, blocks := o.blocks, unitAt := o.unitAt, cipherSlot := sl }
    let s := modVol s v fun x =>
      { x with blks := x.blks.map fun b =>
                 if o.blocks.contains b.q then { b with inSets := b.inSets ++ [d.id] } else b }
    let s := setOpen (addSet s (v / 4) d) v none
    if early then count s (pFmt (v / 4)) 4 else s

/-- An empty data set for a volume, opened for a block. -/
def newOpen (x : Vol) (v : Nat) (b : Blk) : OpenDs :=
  { vol := v, bind := b.bind, firstLbn := b.firstLbn, marksBefore := x.placedMarks, endLbn := b.firstLbn }

/-- Count the items of a block as ended in a data set. -/
def endItems (o : OpenDs) (b : Blk) : OpenDs :=
  let i := blkItems b
  { o with ends := o.ends + (i.filter (·.1 == 1)).length, marks := o.marks + (i.filter (·.1 == 2)).length,
           endLbn := b.nextLbn }

/-- Pack one block: its unit joins the open data set, and runs on into the next where that is full (R281, R196). -/
def packBlk (s : State) (v : Nat) (b : Blk) : State :=
  let s := match openOf s v with
    | some o => if o.bind != b.bind || 1820 < o.slots + 1 then closeOpen s v true false else s
    | none => s
  let o := (openOf s v).getD (newOpen (vol s v) v b)
  let label := match b.bind with
    | .slot k => (keySlot s k).label.toNat
    | _ => 0
  let u := unitOf s b
  let at_ := o.payload.length
  let o := { o with payload := o.payload ++ u, units := o.units + 1, slots := o.slots + 1, blocks := o.blocks ++ [b.q],
                    unitAt := o.unitAt ++ [(b.q, at_)],
                    firstUnit := if o.units = 0 then at_ else o.firstUnit,
                    firstSeq := if o.units = 0 then b.q else o.firstSeq }
  let s := match b.bind with
    | .slot k => countUnit (count s (pCiph (v / 4)) 0) k (b.duKey == some k)
    | _ => s
  let s := modVol s v fun x => { x with packed := b.q + 1 }
  let fin (s : State) (o : OpenDs) : State :=
    let o := endItems o b
    let s := setOpen s v (some o)
    modBlk (modVol s v fun x => { x with placedMarks := x.placedMarks + ((blkItems b).filter (·.1 == 2)).length })
      v b.q fun b => { b with placed := true, label := label }
  if payloadBytes < o.payload.length then
    let rest := o.payload.drop payloadBytes
    let s := closeOpen (setOpen s v (some { o with payload := o.payload.take payloadBytes })) v false true
    fin s { newOpen (vol s v) v b with payload := rest, contd := true, firstUnit := rest.length, blocks := [b.q], slots := 1 }
  else
    let s := fin s o
    if o.payload.length = payloadBytes then closeOpen s v false false else s

/-- The next block to place: the oldest that is in no data set. -/
def nextBlk (x : Vol) : Option Blk := x.blks.find? fun b => !b.placed && !b.retained

/-- Blocks of Buffered segments that are in no data set yet, compressed or not: the data to place (R282). -/
def dataToPlace (s : State) (v : Nat) : Bool :=
  (nextBlk (vol s v)).isSome || (vol s v).segs.any fun g => g.phase == .buffered && !g.cut

/-- A data set of a volume in the order its data sets were formed. -/
def setsOf (s : State) (v : Nat) : List DataSet := (slice s (v / 4)).sets.filter fun d => d.vol == v

/-- Change data set `id` of slice `n`. -/
def modSet (s : State) (n id : Nat) (f : DataSet → DataSet) : State :=
  modSlice s n fun x => { x with sets := x.sets.map fun d => if d.id = id then f d else d }

/-- A volume has write data that is not yet Verified (R132). -/
def writeStream (s : State) (v : Nat) : Bool :=
  dataToPlace s v || (openOf s v).isSome || !(setsOf s v).isEmpty
    || (vol s v).segs.any fun g => g.phase == .isOpen || g.phase == .buffered && !g.cut

/-- The append point of a volume as it stands. -/
def appendPt (x : Vol) : AppendPt :=
  { wrap := x.wrap, nominal := x.nominal, physical := x.physical, lpos := x.endLpos, um := x.endUm, group := x.group,
    gpos := x.gpos, memWrap := x.memWrap, memLpos := x.memLpos, marks := x.placedMarks, lastData := x.lastData }

/-- A block leaves a data set: with the last of them its P2 slot is released, and the block stays a read-hit source while
the slot keeps its generation (R191). -/
def leaveSet (s : State) (v id : Nat) (b : Blk) : State :=
  let left := b.inSets.filter (· != id)
  if left.isEmpty && b.placed && !b.retained then
    modBlk (letGo s b.slot (3 + v / 4)) v b.q fun b => { b with inSets := [], retained := true }
  else modBlk s v b.q fun b => { b with inSets := left }

/-- A map has passed verify whole (R296): Mapped, and the record is to point at its last data set. -/
def mapVerified (s : State) (v : Nat) (d : DataSet) (h : MapHdr) : State :=
  let s := raise s (pFmt (v / 4)) 11
  let s := modVol s v fun x =>
    let x := { x with mapped := max x.mapped h.hzn, mapEnd := h.eod, mapMaking := false, mapClean := h.clean }
    if h.full then { x with base := some (h.baseDs, h.baseWrap, h.baseLpos), baseAt := 16 * d.group + d.gpos - h.index }
    else x
  wantRec s (v / 4) fun r => recPart r (v % 4) fun e =>
    { e with lastDs := d.num, lastWrap := d.wrap, lastLpos := d.lpos, eod := h.eod, nextSeq := h.nextSeq }

/-- The later of two append points in length along the partition. -/
def laterPt (a b : AppendPt) : Bool := a.wrap < b.wrap || (a.wrap == b.wrap && a.physical ≤ b.physical)

/-- The append point that a halt goes back to once `d` is verified: after `d` in the group, and in length after every copy
of it and of those before it. -/
def retAfter (r : AppendPt) (d : DataSet) : AppendPt :=
  let a := d.after
  let a := { a with marks := if d.kind = .data then d.marksBefore + d.marks else r.marks }
  if laterPt r a then a
  else { a with wrap := r.wrap, nominal := r.nominal, physical := r.physical, lpos := r.lpos, um := r.um }

/-- Take the leading Verified data sets of a volume out of the slice: their horizon is Committed, their blocks leave them
(R135, R137, R191). A segment is Committed only once every data set before it is Verified (R313). -/
def retireSets (s : State) (v : Nat) : Nat → State
  | 0 => s
  | fuel + 1 =>
    match setsOf s v with
    | [] => s
    | d :: _ =>
      if !d.verified then s
      else
        let s := modSlice s (v / 4) fun x => { x with sets := x.sets.filter fun e => e.id != d.id }
        let s := d.blocks.foldl (fun s q => match blk? s v q with
          | some b => leaveSet s v d.id b
          | none => s) s
        let s := modVol s v fun x =>
          let x := { x with ret := retAfter x.ret d }
          let x := if d.kind = .ridge || d.hzn < x.hzn || d.hzn = 0 then x
            else { x with hzn := d.hzn, comEnd := d.hznEod }
          let x := if d.kind = .data then { x with tapeEnd := d.endLbn } else x
          { x with segs := x.segs.filter fun g => !(g.phase == .buffered && g.cut && g.seq < x.hzn
                     && g.staging.isEmpty) }
        let s := match d.map with
          | some h => if h.index + 1 = h.cnt then mapVerified s v d h else s
          | none => s
        retireSets s v fuel

/-! ### Maps, headers and ridge parity to be written -/

/-- A FLUSH or UNMOUNT waits on a volume for its data to be Mapped up to a segment count, or a READ, LOCATE or SPACE for it
to be Verified (R132, R137). -/
def waitsOn (s : State) (v : Nat) (opcs : List Nat) : Bool :=
  s.cmds.any fun c => c.2.vol == some v && c.2.phase == .tape && opcs.contains (cOpc c.2.bytes)

/-- Committed segments with those after them that carry no data (R140): what a map written now covers, and the end of data
it states. -/
def mapCovers (s : State) (v : Nat) : Nat × Nat :=
  let x := vol s v
  if (setsOf s v).all (fun d => d.kind != .data || d.verified) && (openOf s v).isNone && !dataToPlace s v
      && !(x.segs.any fun g => g.phase == .isOpen) then (x.placed, x.placedEod)
  else (x.hzn, x.comEnd)

/-- The full map or the delta that a map of a volume is (R299): first entry and whether full. -/
def mapExtent (x : Vol) (total : Nat) : Nat × Bool :=
  let f := min x.mapChanged (total - 1)
  if x.base.isSome && 0 < total && total - f ≤ mapEntriesPerSet then (f, false) else (0, true)

end Sys2Proof.Machine
end

