-- ==== Sys2Proof/Machine/Halt.lean ====
section
/-! DEFINITION. How write data goes away without reaching tape: discarding (R145, R146), going back to an earlier append
point, and the halt of a volume (R143, R144). -/

namespace Sys2Proof.Machine

/-- Volume number of transport `n`, partition `p`, as event-log entries give it. -/
def volWord (v : Nat) : Nat := v / 4 * 256 + v % 4

/-- Take a block out of its volume: its slot, and the key unit reserved for it where it was never encrypted (R256). -/
def removeBlk (s : State) (v : Nat) (b : Blk) : State :=
  let s := if b.phase = .done && !b.retained then letGo s b.slot (3 + v / 4) else s
  let s := match b.duKey with
    | some k => if b.placed then s else modKey s k fun x => { x with reserved := x.reserved - 1 }
    | none => s
  modVol s v fun x => { x with blks := x.blks.filter fun c => c.q != b.q }

/-- Take data sets of a volume out of the slice with everything that is owed to them. -/
def dropSets (s : State) (v : Nat) (f : DataSet → Bool) : State :=
  let gone := ((setsOf s v).filter f).map (·.id)
  modSlice s (v / 4) fun x =>
    { x with sets := x.sets.filter (fun d => !gone.contains d.id), owed := x.owed.filter (fun r => !gone.contains r.ds),
             whole := x.whole.filter (fun i => !gone.contains i), await := x.await.filter (fun a => !gone.contains a.ds) }

/-- The volume map cut back to a place in a ridge group. -/
def trimMap (m : List MapEntry) (p : AppendPt) : List MapEntry :=
  if p.gpos = 0 then m.take p.group
  else m.take p.group ++ ((m.drop p.group).take 1).map fun e =>
    { e with members := p.gpos, parity := false, provisional := false, endWrap := p.memWrap, endLpos := p.memLpos }

/-- Writing is to go on at an earlier append point; the group is seeded again where it has members there (R291). -/
def goBack (s : State) (v : Nat) (p : AppendPt) : State :=
  modVol s v fun x =>
    { x with wrap := p.wrap, nominal := p.nominal, physical := p.physical, endLpos := p.lpos, endUm := p.um,
             moved := x.moved || x.wrap != p.wrap || x.physical != p.physical, group := p.group, gpos := p.gpos,
             memWrap := p.memWrap, memLpos := p.memLpos, placedMarks := p.marks, lastData := p.lastData,
             seedDue := decide (0 < p.gpos), accum := [], accumOk := true, map := trimMap x.map p,
             mapChanged := min x.mapChanged p.group,
             base := if x.baseAt < 16 * p.group + p.gpos then x.base else none, mapMaking := false, mapWanted := none,
             ridgeDue := none }

/-- Discard the write data of a volume that is not Committed: end of data becomes COMMITTED_END, and nothing of it goes to
tape any more (R145). The removed segments count as placed (R140). A burst for the volume ends at the next boundary. -/
def discardAll (s : State) (v : Nat) : State :=
  let x := vol s v
  let gone (b : Blk) : Bool := !(b.retained && b.nextLbn ≤ x.comEnd)
  let s := (x.blks.filter gone).foldl (fun s b => removeBlk s v b) s
  let s := x.segs.foldl dropSeg s
  let s := setOpen (dropSets s v fun _ => true) v none
  let s := if x.ret = appendPt x then s else goBack s v x.ret
  let s := modVol s v fun x =>
    { x with eod := x.comEnd, bufEnd := x.comEnd, tapeEnd := x.comEnd, pos := min x.pos x.comEnd, packed := x.blkNext,
             placed := x.segNext, placedEod := x.comEnd, chainBreak := true, ending := false,
             waitSeek := none }
  modSlice s (v / 4) fun y => { y with stopNow := y.stopNow || (y.inBurst && y.curVol == some v) }

/-- A command in the span of a halt (R144): started, or a capsule in an inbox. -/
inductive Spanned where
  | live (cid : Nat)
  | held (p : Port) (q : Nat) (k : Capsule)
  deriving DecidableEq, Repr

/-- Its acceptance sequence. -/
def spanSeq (s : State) : Spanned → Nat
  | .live i => (cmd s i).accSeq.getD 0
  | .held _ _ k => k.accSeq.getD 0

/-- Its opcode. -/
def spanOpc (s : State) : Spanned → Nat
  | .live i => cOpc (cmd s i).bytes
  | .held _ _ k => cOpc k.bytes

/-- Ordered insertion by a key. -/
def insertBy {α : Type} (f : α → Nat) (a : α) : List α → List α
  | [] => [a]
  | b :: r => if f a ≤ f b then a :: b :: r else b :: insertBy f a r

/-- Ascending order by a key. -/
def sortBy {α : Type} (f : α → Nat) (l : List α) : List α := l.foldr (insertBy f) []

/-- The span of a halt in acceptance order (R144). -/
def spanOf (s : State) (v : Nat) : List Spanned :=
  let live := (liveCmds s fun _ c => c.vol == some v).map Spanned.live
  let held := [Port.a, Port.b].flatMap fun p =>
    if (mst s (portMaster p)).frozen then []
    else (List.range 64).flatMap fun q =>
      let x := sq s p q
      if x.enabled && !x.frozen && sqVol x == some v then (x.inbox.filter (·.accSeq.isSome)).map (Spanned.held p q) else []
  sortBy (spanSeq s) (live ++ held)

/-- Complete a command of a span. -/
def spanEnd (s : State) (v : Nat) (a : Spanned) (code : Code) (res : Option Nat) (i : CplInfo) : State :=
  match a with
  | .live c => complete s c code (res.getD (endResult s c code.1)) i
  | .held p q k => nextFree (completeCapsule s p q k code (res.getD (capsuleResult s k (some v) code.1)) i)

/-- The opcodes that can report a halt: WRITE, WRITE_MARK, SET_EOD, FLUSH, UNMOUNT (R144). -/
def reports (o : Nat) : Bool := o == 1 || o == 3 || o == 0xB || o == 6 || o == 9

/-- Halt a volume (R143 to R145): its open data set is closed (R282) and goes with the write data, and a map is owed (R296), with the code of the reporting command and that of the others. -/
def haltVol (s : State) (v : Nat) (code others : Code) (ds : Nat := 0xFFFFFFFF) : State :=
  let sp := spanOf s v
  let s := closeOpen s v true false
  let s := discardAll s v
  let s := modVol s v fun x => { x with mapWanted := none, haltMap := x.mounted && !x.readOnly }
  let e := (vol s v).comEnd
  let lo := (sp.head?.map (spanSeq s)).getD 0
  let hi := (sp.getLast?.map (spanSeq s)).getD 0
  let s := logMgmt s 0x0584 2 0x3F (code.1 * 256 + code.2) lo hi (volWord v)
  let r := sp.find? fun a => reports (spanOpc s a)
  let s := sp.foldl (fun s a =>
    if r = some a then spanEnd s v a code (some e) { dataSet := ds }
    else spanEnd s v a others none { origin := 1, cause := r.map (spanSeq s), dataSet := ds }) s
  if r.isNone then modVol s v fun x => { x with pendingFail := some (code.1, code.2, e), pos := e } else s

/-- The completion of the commands of a span that do not report, but for a zeroise (R143). -/
def volumeHalted : Code := (0xF, 1)

/-- Halts of R143. -/
def haltPersistent (s : State) (v ds : Nat) : State := raise (haltVol s v (3, 2) volumeHalted ds) (pFmt (v / 4)) 14 ds
def haltMedium (s : State) (v : Nat) : State := haltVol s v (3, 3) volumeHalted
def haltBuffer (s : State) (v : Nat) : State := haltVol s v (4, 1) volumeHalted
def haltErased (s : State) (v : Nat) : State := haltVol s v (5, 1) (5, 1)
def haltExhausted (s : State) (v : Nat) : State := haltVol s v (5, 2) volumeHalted
def haltLocate (s : State) (v : Nat) : State := haltVol s v (3, 5) volumeHalted

end Sys2Proof.Machine
end

