-- ==== Sys2Proof/Machine/Loops.lean ====
section
/-! DEFINITION. The control loops: states (R376 to R378), arithmetic (R379 to R382), repetitive control (R383, R384),
manual control (R385, R386), coefficients (R387, R396) and supervision (R388). -/

namespace Sys2Proof.Machine

/-- The signed value of 16 bits. -/
def s16 (n : Nat) : Int := (BitVec.ofNat 16 n).toInt
/-- A signed number as 16 bits. -/
def u16 (i : Int) : Nat := (i % 65536).toNat
/-- A signed number as 32 bits. -/
def u32 (i : Int) : Nat := (i % 4294967296).toNat
/-- Clamp to a range. -/
def clampI (lo hi x : Int) : Int := if x < lo then lo else if hi < x then hi else x
/-- Saturate to signed Q15. -/
def satQ15 (x : Int) : Int := clampI (-32768) 32767 x
/-- Saturate to a 32-bit state (R379). -/
def sat32 (x : Int) : Int := clampI (-2147483648) 2147483647 x
/-- Round a value of 30 fraction bits to Q15 before its limit (R379). -/
def roundQ15 (x : Int) : Int := (x + 16384) / 32768
/-- Product of a Q15 coefficient and a 32-bit value, rounded to 30 fraction bits, halves towards +∞ (R379). -/
def mulState (c x : Int) : Int := (c * x + 16384) / 32768

/-- Active set of a loop, as its registers give it (R394). -/
structure Coefs where
  b0 : Int
  b1 : Int
  b2 : Int
  b3 : Int
  a1 : Int
  a2 : Int
  a3 : Int
  ki : Int
  shiftC : Nat
  shiftI : Nat
  outMin : Int
  outMax : Int
  feLimit : Nat
  feCount : Nat
  rcEn : Bool
  reelB : Bool
  lead : Nat
  gamma : Nat
  lambda : Nat
  deriving DecidableEq, Repr

/-- Bits of a register of a set. -/
def setField (t : Tbl Word) (off lo w : Nat) : Nat := (tget t off 0).toNat / 2 ^ lo % 2 ^ w

/-- The coefficients that a set of registers holds; ORDER 2 takes B3 = A3 = 0 (R380). -/
def coefs (t : Tbl Word) : Coefs :=
  let third (x : Int) : Int := if setField t 0x10 0 4 = 3 then x else 0
  { b0 := s16 (setField t 0x00 0 16), b1 := s16 (setField t 0x00 16 16), b2 := s16 (setField t 0x04 0 16),
    b3 := third (s16 (setField t 0x04 16 16)), a1 := s16 (setField t 0x08 0 16), a2 := s16 (setField t 0x08 16 16),
    a3 := third (s16 (setField t 0x0C 0 16)), ki := s16 (setField t 0x0C 16 16), shiftC := setField t 0x10 4 4,
    shiftI := setField t 0x10 8 4, outMin := s16 (setField t 0x14 0 16), outMax := s16 (setField t 0x14 16 16),
    feLimit := setField t 0x18 0 16, feCount := setField t 0x18 16 16, rcEn := (setField t 0x1C 0 1) == 1,
    reelB := (setField t 0x1C 1 1) == 1, lead := setField t 0x1C 8 10, gamma := setField t 0x20 0 16,
    lambda := setField t 0x20 16 16 }

/-- ORDER 3 uses the third state. -/
def orderThree (t : Tbl Word) : Bool := setField t 0x10 0 4 == 3

/-- A start of a loop (R378): its states clear, and the first sample presets the integrator. -/
def loopStart (l : LoopSt) (v : Int) : LoopSt :=
  { l with s1 := 0, s2 := 0, s3 := 0, fresh := true, startVal := v, feRun := 0 }

/-- The pending set becomes active at the next sample or keepalive (R387). -/
def takePending (l : LoopSt) : LoopSt :=
  if l.applyPending then { l with act := l.regs.filter fun r => r.1 ≤ 0x20, applyPending := false } else l

/-- The output of the output phase (R380), for error `e` and table value `r`: the loop with its integrator preset after
a start, the value before rounding, and y. -/
def outputPhase (l : LoopSt) (e r : Int) : LoopSt × Int × Int :=
  let c := coefs l.act
  let y := c.b0 * e * 2 ^ c.shiftC + l.s1
  let lo := c.outMin * 32768
  let hi := c.outMax * 32768
  let l := if l.fresh then { l with i := clampI lo hi (sat32 (l.startVal * 32768 - y - r)), fresh := false } else l
  (l, y + l.i + r, y)

/-- The update phase (R380): compensator states, integrator, bin `k` of the table. -/
def updatePhase (l : LoopSt) (e y : Int) (k : Nat) (sat : Bool) : LoopSt :=
  let c := coefs l.act
  let ys := sat32 y
  let term (b a : Int) : Int := b * e * 2 ^ c.shiftC - mulState a ys * 2 ^ c.shiftC
  let s3 := if orderThree l.act then sat32 (term c.b3 c.a3) else l.s3
  let s2 := sat32 (term c.b2 c.a2 + (if orderThree l.act then l.s3 else 0))
  let s1 := sat32 (term c.b1 c.a1 + l.s2)
  let i := if sat then l.i
    else clampI (c.outMin * 32768) (c.outMax * 32768) (sat32 (l.i + c.ki * e * 2 ^ c.shiftI))
  let bin := tget l.bins k 0
  let bins := if c.rcEn && !sat then
      tput l.bins k (sat32 ((c.lambda * bin + 32768) / 65536 + (c.gamma * e + 1) / 2))
    else l.bins
  { l with s1 := s1, s2 := s2, s3 := s3, i := i, bins := bins }

/-- Supervision (R388): the count of consecutive valid samples beyond FE_LIMIT, and whether it faults. -/
def supervise (l : LoopSt) (e : Int) : LoopSt × Bool :=
  let c := coefs l.act
  if (c.feLimit : Int) < e.natAbs then
    let n := l.feRun + 1
    ({ l with feRun := n }, n == c.feCount)
  else ({ l with feRun := 0 }, false)

/-- Change of a reel angle between two samples, within -256 to 255 (R383). -/
def angleDelta (a a0 : Nat) : Int := ((a : Int) - a0 + 256) % 512 - 256

/-- Bin index for L-TF: the angle of the latest REEL sample, extrapolated to the FRAME sample's stamp (R383). -/
def extrapolate (ang : Nat) (d : Int) (stamp stamp0 t : Nat) : Nat :=
  let den := ((stamp : Int) - stamp0) % 2 ^ 32
  if den = 0 then ang % 512
  else
    let dt := ((t : Int) - stamp + 2 ^ 31) % 2 ^ 32 - 2 ^ 31
    (((2 * (ang * den + d * dt) + den) / (2 * den)) % 512).toNat

/-- The bin ahead (R383). With an angle that neither rises nor falls the direction is a free value. -/
def binAhead (k : Nat) (d : Int) (lead free : Nat) : Nat :=
  if 0 < d || (d == 0 && free % 2 == 0) then (k + lead) % 512 else (k + 1024 - lead % 512) % 512

/-- Manual output: MANUAL_VALUE limited to OUT_MIN to OUT_MAX (R385). -/
def manualOut (l : LoopSt) : Int :=
  let c := coefs l.act
  clampI c.outMin c.outMax (s16 (setField l.regs 0x84 0 16))

/-- Number of loop `j` of transport `n`. -/
def loopIdx (n j : Nat) : Nat := 4 * n + j

/-- A loop takes the state that the mode gives it (R376, R378). -/
def loopTo (s : State) (i : Nat) (ph : LoopPhase) : State :=
  modLoop s i fun l =>
    let l := if ph = .run && l.phase != .run && !l.manual then
        loopStart l (if l.phase = .hold then l.lastOut else 0)
      else l
    { l with phase := ph }

/-- States of the head loops and the reel loops in a mode (R376), none where the mode leaves them as they are. -/
def modePhases (m : TMode) (threaded loopFault : Bool) : Option (LoopPhase × LoopPhase) :=
  match m with
  | .empty => some (.off, .off)
  | .loaded => some (.off, .off)
  | .threading => some (.off, if threaded then .run else .off)
  | .calibrating => some (.run, .run)
  | .locating => some (.run, .run)
  | .writing => some (.run, .run)
  | .reading => some (.run, .run)
  | .ready => some (.hold, .run)
  | .rewinding => some (.off, .run)
  | .unthreading => some (.off, if threaded then .run else .off)
  | .service => none
  | .faulted => if loopFault then some (.stopped, .stopped) else some (.off, .off)

/-- Set the loops of transport `n` from its mode (R376). While SERVO is not enabled they stay OFF (R397). -/
def setLoops (s : State) (n : Nat) : State :=
  let l := link s n
  match modePhases l.mode l.threaded (servo s n).loopFault with
  | none => s
  | some (h, r) =>
    let on := enabledNow s (pServo n)
    let h := if on then h else .off
    let r := if on then r else .off
    loopTo (loopTo (loopTo (loopTo s (loopIdx n 0) h) (loopIdx n 1) h) (loopIdx n 2) r) (loopIdx n 3) r

/-- Every bin of the loops of transport `n` becomes 0 (R384). -/
def clearBins (s : State) (n : Nat) : State :=
  (List.range 4).foldl (fun s j => modLoop s (loopIdx n j) fun l => { l with bins := [] }) s

/-- Every MANUAL bit of transport `n` becomes 0 (R386). -/
def clearManual (s : State) (n : Nat) : State :=
  (List.range 4).foldl (fun s j => modLoop s (loopIdx n j) fun l =>
    if l.manual then { loopStart l (s16 (setField l.regs 0x84 0 16)) with manual := false } else l) s

/-- An output counts and becomes the last output sent (R393, R394). -/
def loopOutput (s : State) (i : Nat) (u e ref r : Int) (sat : Bool) (ns : Nat) : State :=
  let s := count s .loopG 0
  let s := setReg s .loopG 0x044 (w32 (max (reg s .loopG 0x044).toNat ns))
  modLoop s i fun l => { l with lastOut := u, lastErr := e, lastRef := ref, lastRc := satQ15 (roundQ15 r),
                                saturated := sat, invalid := false, latency := ns }

/-- Counters of a loop are the SERVO page's (R394): 0 SAMPLES, 1 INVALID_SAMPLES, 2 SATURATED_SAMPLES. -/
def loopCount (s : State) (n j k : Nat) : State := count s (pServo n) (2 + 3 * j + k)

/-- The loop answers: its command field is marked valid (R377, R385). -/
def loopLive (l : LoopSt) : Bool := l.manual || l.phase = .run || l.phase = .hold

/-- The HEAD command from the last outputs (R349). -/
def sendHead (s : State) (n : Nat) : State :=
  let a := loop s (loopIdx n 0)
  let b := loop s (loopIdx n 1)
  if loopLive a || loopLive b then
    let p := [(1 : Byte)] ++ leBytes 1 (bit (loopLive a) + 2 * bit (loopLive b)) ++ leBytes 4 (servo s n).frameStamp
      ++ leBytes 2 (u16 a.lastOut) ++ leBytes 2 (u16 b.lastOut)
    count (queueFlits s n [(tyServo, p)]) (pServo n) 0
  else s

/-- The REEL command from the last currents (R349, R376: brakes released). -/
def sendReel (s : State) (n : Nat) : State :=
  let a := loop s (loopIdx n 2)
  let b := loop s (loopIdx n 3)
  if loopLive a || loopLive b then
    let v := servo s n
    let s := setReg s (pServo n) 0x058 (w32 (u16 v.curA + 65536 * u16 v.curB))
    let p := [(2 : Byte), 1] ++ leBytes 4 v.stamp ++ leBytes 2 (u16 v.curA) ++ leBytes 2 (u16 v.curB) ++ zeros 1
    count (queueFlits s n [(tyServo, p)]) (pServo n) 1
  else s

/-- A loop fault: loop j, kind 0 FOLLOWING_ERROR or 1 SAMPLE_TIMEOUT, and e. -/
abbrev LoopFault := Nat × Nat × Int

/-- What the output phase of one loop leaves: e, y, bin k, the value before rounding, the table term and the reference. -/
structure LoopCalc where
  e : Int
  y : Int
  k : Nat
  v : Int
  r : Int
  ref : Int
  deriving DecidableEq, Repr

/-- Run the output phase of loop `j` on a measurement (R380), with the bin index and the direction of its reel. -/
def calcOut (s : State) (n j : Nat) (ref meas : Int) (k : Nat) (d : Int) : State × LoopCalc :=
  let i := loopIdx n j
  let s := modLoop s i takePending
  let l := loop s i
  let c := coefs l.act
  let e := satQ15 (ref - meas)
  let r := if c.rcEn then tget l.bins (binAhead k d c.lead (freeVal s)) 0 else 0
  let s := if c.rcEn && d == 0 then nextFree s else s
  let (l, v, y) := outputPhase l e r
  (setLoop s i l, { e := e, y := y, k := k, v := v, r := r, ref := ref })

/-- Close one loop's sample: limit, count, update, supervise (R380, R381, R388). `curSat` says that a reel current of
the sample was limited. -/
def calcEnd (s : State) (n j : Nat) (x : LoopCalc) (curSat : Bool) (ns : Nat) : State × List LoopFault :=
  let i := loopIdx n j
  let c := coefs (loop s i).act
  let q := roundQ15 x.v
  let sat := q < c.outMin || c.outMax < q || curSat
  let s := loopOutput s i (clampI c.outMin c.outMax q) x.e x.ref x.r sat ns
  let s := if sat then loopCount s n j 2 else s
  let l := updatePhase (loop s i) x.e x.y x.k sat
  let (l, bad) := supervise l x.e
  (setLoop s i l, if bad then [(j, 0, x.e)] else [])

/-- The reference of a loop (R372, R374). -/
def loopRef (s : State) (n j : Nat) : Int :=
  let h := s16 (setField (loop s (loopIdx n j)).regs 0x88 0 16)
  match j with
  | 0 => satQ15 (h + s16 (field s (pServo n) 0x054 0 16))
  | 2 => s16 (field s (pServo n) 0x050 0 16)
  | _ => h

/-- A head loop takes a FRAME sample (R373, R380, R385). -/
def headLoop (s : State) (n j : Nat) (meas : Option Int) (t : Nat) : State × List LoopFault :=
  let i := loopIdx n j
  let s := loopCount s n j 0
  let s := if meas.isNone then modLoop (loopCount s n j 1) i fun l => { l with invalid := true } else s
  let l := loop s i
  if l.manual then
    let s := modLoop s i takePending
    (modLoop s i fun l => { l with lastOut := manualOut l }, [])
  else match l.phase, meas with
    | .run, some x =>
      let v := servo s n
      let c := coefs (takePending l).act
      let (ang, d) := if c.reelB then (v.angB, angleDelta v.angB v.angB0) else (v.angA, angleDelta v.angA v.angA0)
      let d := if v.reels < 2 then 0 else d
      let k := if v.reels < 2 then ang % 512 else extrapolate ang d v.stamp v.stamp0 t
      let (s, r) := calcOut s n j (loopRef s n j) x k d
      calcEnd s n j r false 160
    | _, _ => (s, [])

/-- An upstream FRAME sample runs L-TF and L-SK and produces a HEAD command (R373, R380). -/
def frameSample (s : State) (n : Nat) (f : List Byte) : State × List LoopFault :=
  let q := (f.getD 24 0).toNat
  let up := s16 (leAt f 14 2)
  let lo := s16 (leAt f 16 2)
  let t := leAt f 6 4
  let tf : Option Int := match q % 4 with
    | 3 => some ((up + lo) / 2)
    | 1 => some up
    | 2 => some lo
    | _ => none
  let sk : Option Int := if q % 4 = 3 then some (s16 (leAt f 18 2)) else none
  let s := modServo (setReg s (pServo n) 0x06C (w32 (leAt f 20 4))) n fun v =>
    { v with frameStamp := t, lpos := if (f.getD 24 0).getLsbD 2 then leAt f 10 3 else v.lpos }
  let (s, f0) := headLoop s n 0 tf t
  let (s, f1) := headLoop s n 1 sk t
  let runs := (List.range 2).any fun j => (loop s (loopIdx n j)).phase == .run || (loop s (loopIdx n j)).manual
  (if runs then sendHead s n else s, f0 ++ f1)

/-- The decoupling matrix (R382): currents A and B, and whether each was limited. -/
def mix (s : State) (n : Nat) (uv ut : Int) : Int × Int × Bool :=
  let sh := 2 ^ field s (pServo n) 0x048 0 4
  let row (off : Nat) : Int :=
    roundQ15 ((s16 (field s (pServo n) off 0 16) * uv + s16 (field s (pServo n) off 16 16) * ut) * sh)
  let a := row 0x040
  let b := row 0x044
  (satQ15 a, satQ15 b, satQ15 a != a || satQ15 b != b)

/-- Nearest integer to a / b for b > 0, halves up. -/
def roundDiv (a : Int) (b : Nat) : Int := if b = 0 then 0 else (2 * a + b) / (2 * b)

/-- VEL_REF moves by 1 mm/s per REEL sample towards its target (R374). -/
def stepVel (s : State) (n : Nat) : State :=
  let v := servo s n
  let x := if v.velNow < v.velTarget then v.velNow + 1 else if v.velTarget < v.velNow then v.velNow - 1 else v.velNow
  let fs := field s (pServo n) 0x064 0 16
  setReg (modServo s n fun v => { v with velNow := x }) (pServo n) 0x050
    (w32 (u16 (satQ15 (roundDiv (x * 32768) fs))))

/-- TF_OFFSET for an offset of -1, 0 or +1 eighth of a track: OFFSET x 54.6875 nm over the LATERAL full scale (R374). -/
def setTfOffset (s : State) (n : Nat) (o : Int) : State :=
  let fs := field s (pServo n) 0x060 0 16
  setReg s (pServo n) 0x054 (w32 (u16 (satQ15 (roundDiv (o * 1792000) fs))))

/-- An upstream REEL sample runs L-VEL and L-TEN and the decoupling matrix, and produces a REEL command (R380, R382). -/
def reelSample (s : State) (n : Nat) (f : List Byte) : State × List LoopFault :=
  let a := leAt f 10 2 % 512
  let b := leAt f 12 2 % 512
  let s := modServo s n fun v => { v with angA0 := v.angA, angB0 := v.angB, stamp0 := v.stamp, angA := a, angB := b,
                                          stamp := leAt f 6 4, reels := min 2 (v.reels + 1) }
  let s := stepVel s n
  let s := loopCount (loopCount s n 2 0) n 3 0
  let v := servo s n
  let meas (j : Nat) : Int := if j = 2 then s16 (leAt f 24 2) else s16 (leAt f 22 2)
  let one (s : State) (j : Nat) : State × Option LoopCalc :=
    let l := loop s (loopIdx n j)
    if l.manual then
      let s := modLoop s (loopIdx n j) takePending
      (modLoop s (loopIdx n j) fun l => { l with lastOut := manualOut l }, none)
    else if l.phase = .run then
      let c := coefs (takePending l).act
      let (k, d) := if c.reelB then (b, angleDelta b v.angB0) else (a, angleDelta a v.angA0)
      let (s, r) := calcOut s n j (loopRef s n j) (meas j) k (if v.reels < 2 then 0 else d)
      (s, some r)
    else (s, none)
  let (s, xv) := one s 2
  let (s, xt) := one s 3
  let out (j : Nat) (x : Option LoopCalc) : Int := match x with
    | some r =>
      let c := coefs (loop s (loopIdx n j)).act
      clampI c.outMin c.outMax (roundQ15 r.v)
    | none => (loop s (loopIdx n j)).lastOut
  let (ca, cb, lim) := mix s n (out 2 xv) (out 3 xt)
  let s := modServo s n fun v => { v with curA := ca, curB := cb }
  let fin (s : State) (j : Nat) (x : Option LoopCalc) : State × List LoopFault := match x with
    | some r => calcEnd s n j r lim 180
    | none => (s, [])
  let (s, fv) := fin s 2 xv
  let (s, ft) := fin s 3 xt
  let runs := xv.isSome || xt.isSome || (loop s (loopIdx n 2)).manual || (loop s (loopIdx n 3)).manual
  (if runs then sendReel s n else s, fv ++ ft)

/-- A keepalive repeats the last outputs (R377); a pending set or a MANUAL_VALUE takes effect here too (R385, R387). -/
def keepalive (s : State) (n : Nat) : State :=
  let s := (List.range 4).foldl (fun s j => modLoop s (loopIdx n j) fun l =>
    let l := takePending l
    if l.manual then { l with lastOut := manualOut l } else l) s
  let s := if (loop s (loopIdx n 2)).manual || (loop s (loopIdx n 3)).manual then
      let (ca, cb, _) := mix s n (loop s (loopIdx n 2)).lastOut (loop s (loopIdx n 3)).lastOut
      modServo s n fun v => { v with curA := ca, curB := cb }
    else s
  sendReel (sendHead s n) n

/-- The check of a loop's pending set (R396 step 3), as reason and field. -/
def loopCheck (l : LoopSt) (j : Nat) : Nat × Nat :=
  let f (off : Nat) : Nat := 0x80 + 0x20 * j + off / 4
  let order := setField l.regs 0x10 0 4
  if order != 2 && order != 3 then (0x0501, f 0x10)
  else if 7 < setField l.regs 0x10 4 4 || 7 < setField l.regs 0x10 8 4 then (0x0502, f 0x10)
  else if s16 (setField l.regs 0x14 16 16) ≤ s16 (setField l.regs 0x14 0 16) then (0x0503, f 0x14)
  else if setField l.regs 0x18 0 16 = 0 || setField l.regs 0x18 16 16 = 0 then (0x0504, f 0x18)
  else if setField l.regs 0x1C 0 1 = 1 && (j = 1 || j = 2) then (0x0506, f 0x1C)
  else if 511 < setField l.regs 0x1C 8 10 then (0x0507, f 0x1C)
  else (0, 0)

/-- A write of LOOP_CTRL (R385 to R387): MANUAL, APPLY and CLEAR_TABLE. -/
def loopCtrl (s : State) (i : Nat) (v : Word) : State :=
  let n := i / 4
  let l := loop s i
  let s :=
    if v.getLsbD 0 && !l.manual then
      if (link s n).mode = .service then
        modLoop s i fun l => { l with manual := true, feRun := 0,
                                      regs := tput l.regs 0x84 (w32 (u16 l.lastOut)) }
      else setEvt s (pServo n) 9
    else if !v.getLsbD 0 && l.manual then
      let s := modLoop s i fun l => { loopStart l (s16 (setField l.regs 0x84 0 16)) with manual := false }
      setLoops s n
    else s
  let s :=
    if v.getLsbD 2 then modLoop s i fun l =>
      let l := { l with bins := [] }
      if l.manual then l else loopStart l l.lastOut
    else s
  if v.getLsbD 1 then
    let r := loopCheck (loop s i) (i % 4)
    let s := setCheck s (pServo n) r.1 r.2
    if r.1 = 0 then modLoop s i fun l =>
      let l := { l with applyPending := true }
      if l.manual then l else loopStart l l.lastOut
    else s
  else s

end Sys2Proof.Machine
end

