-- ==== Sys2Proof/Machine/TapeWrite.lean ====
section
/-! DEFINITION. Writing to tape: placing data sets, maps and ridge parity (R286 to R290, R296 to R299), rewrites (R309 to
R313), wraps and the end of a partition (R315 to R318), speed (R322, R323), stops and restarts (R324 to R326). -/

namespace Sys2Proof.Machine

/-- Append the codewords of rounds to the stream of a burst: channel, then framed codeword (R344). -/
abbrev Unit249 := List Byte

/-- A framed codeword for a channel (R284, R344). -/
def cwUnit (ch : Nat) (d : DataSet) (wrap k r copy pass : Nat) (row : List Byte) : Unit249 :=
  leBytes 1 ch ++ cwHeader k r d.num wrap d.kind d.prov copy pass ++ row

/-- The places of a pass: for each round, for each channel, SDS and row (R286, R311, R345). -/
def passPlaces (k : DsKind) (pass : Nat) : List (List (Nat × Nat)) :=
  let chans := (List.range 128).map fun c => channelRows k pass c
  (List.range (cwPerChannel k)).map fun j => chans.map fun l => l.getD j (0, 0)

/-- Units of `l` numbered from 0. -/
def numbered {α : Type} (l : List α) : List (Nat × α) := (List.range l.length).zip l

/-- Send a whole pass of a data set (R286, R311) and expect its verdicts (R307). -/
def sendPass (s : State) (n : Nat) (d : DataSet) (wrap pass : Nat) : State :=
  let places := passPlaces d.kind pass
  let enc := (List.range 256).map fun k => sdsEncode (sdsRows d.area k)
  let bytes := places.flatMap fun l => (numbered l).flatMap fun e =>
    cwUnit e.1 d wrap e.2.1 e.2.2 0 pass ((enc.getD e.2.1 []).getD e.2.2 [])
  let r := (slice s n).round
  let aw := (numbered places).flatMap fun l => (numbered l.2).map fun e : Nat × (Nat × Nat) =>
    ({ round := r + l.1, chan := e.1, ds := d.id, pass := pass, s := e.2.1, r := e.2.2, copy := 0 } : SentCw)
  chanSend (modSlice s n fun x => { x with round := r + places.length, items := x.items ++ [places.length], await := x.await ++ aw }) n bytes

/-- Every row of a data set. -/
def allRows (k : DsKind) : List (Nat × Nat) := (List.range 256).flatMap fun i => (List.range (rowsOf k)).map fun r => (i, r)

/-- `n` more channel bytes are used on the wrap of a volume, of which `nom` count as nominal. -/
def advance (s : State) (v nom phys : Nat) : State :=
  modVol s v fun x =>
    let (l, u) := placeOf x.wrap (x.physical + phys)
    { x with nominal := x.nominal + nom, physical := x.physical + phys, endLpos := l, endUm := u }

/-- The append point, in length, after the last copy of a data set. -/
def setAfter (s : State) (v id : Nat) : State :=
  let x := vol s v
  modSet s (v / 4) id fun d => { d with after := { d.after with wrap := x.wrap, nominal := x.nominal, physical := x.physical,
                                                                lpos := x.endLpos, um := x.endUm } }

/-! ### Forming -/

/-- The entry of a group with a member or the parity placed (R298). -/
def mapWith (m : List MapEntry) (d : DataSet) (parity : Bool) : List MapEntry :=
  if parity then
    m.take d.group ++ ((m.drop d.group).take 1).map fun e =>
      { e with parity := true, provisional := d.prov, endWrap := d.wrap, endLpos := d.lpos }
  else if d.gpos = 0 then
    m.take d.group ++ [{ firstLbn := d.firstLbn, firstDs := d.num, marksBefore := d.marksBefore, startWrap := d.wrap,
                         startLpos := d.lpos, endWrap := d.wrap, members := 1, endLpos := d.lpos }]
  else
    m.take d.group ++ ((m.drop d.group).take 1).map fun e =>
      { e with members := d.gpos + 1, parity := false, provisional := false, endWrap := d.wrap, endLpos := d.lpos }

/-- The headers of a map whose first data set is `d`, with the entries of each (R297, R299). -/
def mapParts (s : State) (v : Nat) (d : DataSet) (clean : Bool) : List (MapHdr × List MapEntry) :=
  let x := vol s v
  let total := x.map.length
  let (f, full) := mapExtent x total
  let es := x.map.drop f
  let cnt := max 1 (ceilDiv es.length mapEntriesPerSet)
  let (h, e) := mapCovers s v
  let b := if full then (d.num, d.wrap, d.lpos) else x.base.getD (0, 0, 0)
  (List.range cnt).map fun i =>
    let part := (es.drop (i * mapEntriesPerSet)).take mapEntriesPerSet
    ({ clean := clean, full := full, index := i, cnt := cnt, eod := e, hzn := h, nextSeq := x.blkNext, total := total,
       first := f + i * mapEntriesPerSet, entries := part.length, baseDs := b.1, baseWrap := b.2.1, baseLpos := b.2.2 }, part)

/-- Insert data sets behind the one that `id` names. -/
def insertAfter (l : List DataSet) (id : Nat) (more : List DataSet) : List DataSet :=
  l.flatMap fun d => if d.id = id then d :: more else [d]

/-- The first data set of a map is placed: it and those after it get their contents. -/
def buildMap (s : State) (v : Nat) (d : DataSet) (clean : Bool) : State × DataSet :=
  let parts := mapParts s v d clean
  let mk (e : DataSet) (q : MapHdr × List MapEntry) : DataSet :=
    let p := mapPayload q.1 q.2
    { e with firstLbn := q.1.eod, payload := p, used := p.length, map := some q.1 }
  match parts with
  | [] => (s, d)
  | p :: more =>
    let i := (slice s (v / 4)).setNext
    let rest := (numbered more).map fun q => mk { d with id := i + q.1, num := 0 } q.2
    let s := modSlice s (v / 4) fun x => { x with setNext := i + rest.length, sets := insertAfter x.sets d.id rest }
    (modVol s v fun x => (if p.1.full then { x with base := none, mapChanged := p.1.total - 1 } else x), mk d p)

/-- Filemarks of a partition before the append point: those of its last data set placed, else of the last verified one. -/
def marksPlaced (s : State) (v : Nat) : Nat :=
  match ((setsOf s v).filter fun d => d.begun && d.kind == .data).getLast? with
  | some d => d.marksBefore + d.marks
  | none => (vol s v).ret.marks

/-- Give a closed data set its number, group and place, and its data area (R283, R288, R289, R293). -/
def formSet (s : State) (v : Nat) (d : DataSet) : State × DataSet :=
  let n := v / 4
  let (s, num) := issueNumber s n
  let x := vol s v
  let d := { d with num := num, group := x.group, gpos := x.gpos, wrap := x.wrap, lpos := (placeOf x.wrap x.physical).1,
                    marksBefore := if d.kind = .data then d.marksBefore else marksPlaced s v }
  if d.kind = .ridge then
    (modVol s v fun x => { x with map := mapWith x.map d true, mapChanged := min x.mapChanged d.group },
      { d with area := padTo x.accum areaBytes })
  else
    let s := modVol s v fun x => { x with map := mapWith x.map d false, mapChanged := min x.mapChanged d.group }
    let (s, d) := match d.map with
      | some h => if h.cnt = 0 then buildMap s v d h.clean else (s, d)
      | none => (s, d)
    let area := areaOf d x.serial
    (modVol s v fun y => { y with accum := if x.gpos = 0 then area else xorBytes y.accum area }, { d with area := area })

/-- What the group does once a member or a parity is placed (R290). -/
def groupStep (s : State) (v : Nat) (d : DataSet) : State :=
  modVol s v fun x =>
    if d.kind = .ridge then
      if d.prov then { x with ridgeDue := none, seedDue := decide (0 < x.gpos) }
      else { x with ridgeDue := none, group := x.group + 1, gpos := 0, seedDue := false }
    else
      let k := x.gpos + 1
      let due := if k = 16 then some false
        else match d.map with
          | some h => if h.index + 1 = h.cnt && x.ending then some false
            else if h.index + 1 = h.cnt && h.clean then some true else x.ridgeDue
          | none => x.ridgeDue
      { x with gpos := k, memWrap := d.wrap, memLpos := d.lpos, ridgeDue := due, seedDue := false }

/-- Blocks of a data set whose first pass is sent (R321). -/
def markSent (s : State) (v : Nat) (d : DataSet) : State :=
  let left := ((setsOf s v).filter fun e => !e.begun && e.id != d.id).map (·.id)
  let hit (b : Blk) : Bool := d.blocks.contains b.q && b.placed && !(b.inSets.any left.contains)
  modVol s v fun x => { x with blks := x.blks.map (fun b => if hit b then { b with sent := true } else b) }

/-- The speed target at a boundary that begins a first pass (R322). -/
def matchSpeed (s : State) (n : Nat) : State :=
  let s := modSlice s n fun x => { x with capped := solo s n }
  let x := slice s n
  let (lo, hi) := steps s n
  let rate := inputRate s n
  let fit := ((List.range 16).filter fun k => lo ≤ k && k ≤ hi && stepRate k ≤ rate).foldl max lo
  let low := 2 ^ 20 * field s (pFmt n) 0x084 0 16
  let high := 2 ^ 20 * field s (pFmt n) 0x084 16 16
  let lev := levelBytes s n
  let t := x.target
  let t := if lev < low then min t fit
    else if high < lev then max t fit
    else if fit + 2 ≤ t || t + 2 ≤ fit then fit else t
  let t := min t hi
  if t = x.target then s
  else ctrlSend (count (modSlice s n fun x => { x with target := t, ramping := true }) (pFmt n) 11) n 0x15 (leBytes 1 t)

/-- Write the first pass of a data set (R309). One that was placed before goes over its old place with its old bytes
(R326). -/
def placeFirst (s : State) (v : Nat) (d : DataSet) : State :=
  let n := v / 4
  let s := matchSpeed s n
  let x := vol s v
  let (s, d) := if d.area.isEmpty then
      let (s, d) := formSet s v d
      let s := modVol s v fun y => { y with log := tput y.log d.num (x.nominal, x.physical) }
      (groupStep s v d, d)
    else (s, d)
  let s := sendPass s n d x.wrap 0
  let s := count s (pFmt n) 0
  let s := if d.kind = .ridge then count s (pFmt n) 1 else if d.kind = .map then count s (pFmt n) 2 else s
  let y := vol s v
  let beyond := d.kind == .ridge && d.prov
  let lastData := if d.kind = .data then d.num else y.lastData
  let after : AppendPt := { appendPt y with lastData := lastData }
  let s := modVol s v fun y => { y with dsNow := d.num, wrapNow := x.wrap, lastData := lastData, moved := beyond }
  let s := modSlice s n fun z => { z with sets := z.sets.map fun e =>
    if e.id = d.id then { d with begun := true, pass := 0, flaggedN := 0, left := allRows d.kind, followed := 0,
                                 verified := false, after := after }
    else if e.begun && e.vol = v then { e with followed := e.followed + 1 } else e }
  let s := markSent s v d
  -- a provisional parity lies at the append point and is overwritten by the next data set (R290)
  if beyond then s else setAfter (advance s v (nominalLen d.kind) (nominalLen d.kind)) v d.id

/-! ### Rewrites -/

/-- A pass is to be written again whole, or the bound of R313 is passed (R311). -/
def rewriteWhole (s : State) (v : Nat) (d : DataSet) : State :=
  if 8 ≤ d.pass then haltPersistent s v d.num
  else
    let s := modSlice s (v / 4) fun x => { x with owed := x.owed.filter (fun r => r.ds != d.id),
                                                  whole := x.whole.filter (· != d.id) ++ [d.id] }
    modSet s (v / 4) d.id fun d => { d with pass := d.pass + 1, flaggedN := 0, left := allRows d.kind, followed := 0 }

/-- Data set `id` of a slice. -/
def set? (s : State) (n id : Nat) : Option DataSet := (slice s n).sets.find? fun d => d.id == id

/-- Rewrite whole the data sets of a volume that pass a test. -/
def wholeWhere (s : State) (v : Nat) (f : DataSet → Bool) : State :=
  ((setsOf s v).filter f).foldl (fun s d => match set? s (v / 4) d.id with
    | some d => rewriteWhole s v d
    | none => s) s

/-- The rows owed to data sets of a volume, in area order: data set number, SDS, row (R310). -/
def owedRows (s : State) (v : Nat) : List (RowOwed × DataSet) :=
  sortBy (fun e => e.2.num * 2 ^ 16 + e.1.s * 2 ^ 8 + e.1.r)
    ((slice s (v / 4)).owed.filterMap fun r => match set? s (v / 4) r.ds with
      | some d => if d.vol = v then some (r, d) else none
      | none => none)

/-- Fill the channels of an area that have fewer than `len` copies, cycling through its rows (R310). -/
def fillArea (rows : List (RowOwed × DataSet)) (len : Nat) :
    List (List (RowOwed × DataSet)) → Nat → List (List (RowOwed × DataSet))
  | [], _ => []
  | c :: r, k =>
    let more := (List.range (len - c.length)).filterMap fun i => rows[(k + i) % rows.length]?
    (c ++ more) :: fillArea rows len r (k + more.length)

/-- The channels of a rewrite area (R310). -/
def areaLayout (rows : List (RowOwed × DataSet)) : Nat × List (List (RowOwed × DataSet)) :=
  let chans := (List.range 128).map fun c => rows.filter fun e => (e.1.chan + 64) % 128 == c
  let len := (chans.map List.length).foldl max 0
  (len, fillArea rows len chans 0)

/-- Channel bytes from the start of a wrap to the end of its spare zone: 1,122 m (R268). -/
def spareEnd : Nat := 13148437500

/-- Write a rewrite area (R310). -/
def writeArea (s : State) (v : Nat) (rows : List (RowOwed × DataSet)) : State :=
  let n := v / 4
  let (len, chans) := areaLayout rows
  let x := slice s n
  let wrap := (vol s v).wrap
  let rounds := (List.range len).map fun j => chans.filterMap fun c => (c.drop j).head?
  let bytes := rounds.flatMap fun l => (numbered l).flatMap fun e =>
    let (r, d) := e.2
    cwUnit e.1 d wrap r.s r.r r.copy d.pass (rowBytes d.area r.s r.r)
  let aw := (numbered rounds).flatMap fun l => (numbered l.2).map fun e : Nat × (RowOwed × DataSet) =>
    ({ round := x.round + l.1, chan := e.1, ds := e.2.2.id, pass := e.2.2.pass, s := e.2.1.s, r := e.2.1.r,
       copy := e.2.1.copy } : SentCw)
  let s := modSlice s n fun x => { x with round := x.round + len, items := x.items ++ [len], await := x.await ++ aw,
                                          owed := x.owed.filter fun o => !(rows.any fun e => e.1 == o) }
  let s := advance (count (chanSend s n bytes) (pFmt n) 8 rows.length) v 0 (248 * len)
  (rows.map (·.2.id)).foldl (fun s i => setAfter s v i) s

/-- Write a whole rewrite (R311). -/
def writeWhole (s : State) (v : Nat) (d : DataSet) : State :=
  let n := v / 4
  let s := sendPass s n d (vol s v).wrap d.pass
  let s := modSlice (count s (pFmt n) 9) n fun x => { x with whole := x.whole.filter (· != d.id) }
  let s := modSet s n d.id fun d => { d with followed := 0 }
  setAfter (advance s v 0 (nominalLen d.kind)) v d.id

/-! ### Verdicts -/

/-- A copy of the row still awaits its verdict. -/
def copyAwaits (s : State) (n : Nat) (w : SentCw) : Bool :=
  (slice s n).await.any fun a => a.ds == w.ds && a.pass == w.pass && a.s == w.s && a.r == w.r

/-- A row copy of the present pass passed: the row is verified, and with the last the data set (R308). -/
def rowPassed (s : State) (n : Nat) (w : SentCw) : State :=
  match set? s n w.ds with
  | none => s
  | some d =>
    if d.pass != w.pass then s
    else
      let left := d.left.filter (· != (w.s, w.r))
      let s := modSlice s n fun x => { x with owed := x.owed.filter fun o => !(o.ds == w.ds && o.s == w.s && o.r == w.r) }
      modSet s n w.ds fun d => { d with left := left, verified := left.isEmpty }

/-- A row copy was flagged: the row is owed its next copy once no other copy of it awaits a verdict, or the pass is
rewritten whole, or the bounds are passed (R309, R311, R313). -/
def rowFlagged (s : State) (n : Nat) (w : SentCw) : State :=
  let s := count s (pFmt n) 7
  match set? s n w.ds with
  | none => s
  | some d =>
    if d.pass != w.pass || !d.left.contains (w.s, w.r) then s
    else if w.copy = 0 && 64 < d.flaggedN + 1 then rewriteWhole s d.vol { d with flaggedN := d.flaggedN + 1 }
    else
      let s := modSet s n w.ds fun d => { d with flaggedN := if w.copy = 0 then d.flaggedN + 1 else d.flaggedN }
      if copyAwaits s n w then s
      else if 3 ≤ w.copy then haltPersistent s d.vol d.num
      else modSlice s n fun x => { x with owed := x.owed ++
        [{ ds := w.ds, s := w.s, r := w.r, copy := w.copy + 1, chan := (cwChannel w.s w.r w.pass + 64 * w.copy) % 128 }] }

/-- The verdict on a copy. -/
def verdict (s : State) (n : Nat) (w : SentCw) (ok : Bool) : State :=
  let s := modSlice s n fun x => { x with await := x.await.erase w }
  let s := count s (pFmt n) 5
  if ok then rowPassed s n w else rowFlagged s n w

/-- Copies that the verify elements are 1.0 mm past, 47.25 codewords, without any having been received (R307). -/
def flagMissing (s : State) (n r : Nat) : State :=
  ((slice s n).await.filter fun a => a.round + 48 ≤ r).foldl (fun s a => verdict s n a false) s

/-- The hint bits of an upstream unit: for each byte of the framed codeword (R346). -/
def hinted (h : List Byte) (i : Nat) : Bool := (h.getD (i / 8) 0).getLsbD (i % 8)

/-- What C1 finds in a framed codeword: the row, the positions of the row with a hint, those corrected (R307). -/
def judge (cw h : List Byte) : Option (List Byte × List Nat) × List Nat :=
  let marks := (List.range 240).filter fun i => hinted h (i + 8)
  (rsDecode c1Parity (cw.drop 8) marks, marks)

/-- Verify one received unit of 280 bytes (R307). A unit whose header fails belongs to no copy. -/
def verifyUnit (s : State) (n : Nat) (u : List Byte) : State :=
  let x := slice s n
  let wrap := match x.curVol with
    | some v => (vol s v).wrap
    | none => 0
  let cw := sub u 1 248
  match readHeader cw wrap with
  | none => s
  | some h =>
    let ch := leAt u 0 1
    match x.await.find? fun a => a.chan == ch && a.s == h.s && a.r == h.r && a.copy == h.copy && a.pass == h.pass
        && (match set? s n a.ds with
            | some d => d.num % 65536 == h.low && d.kind == h.kind
            | none => false) with
    | none => s
    | some a =>
      let (dec, marks) := judge cw (sub u 249 31)
      let fixed := match dec with
        | some r => r.2
        | none => []
      let unhinted := fixed.filter fun i => !marks.contains i
      let s := count s (pFmt n) 6 (marks.length + unhinted.length)
      let s := verdict s n a (dec.isSome && unhinted.length ≤ 2 && marks.length ≤ 4)
      flagMissing s n a.round

/-- A servo frame has come while writing: the copies that the verify elements, GAP behind the write elements, are past without having
received them are flagged (R307). -/
def framePassed (s : State) (n : Nat) : State :=
  let x := slice s n
  match x.curVol with
  | none => s
  | some v =>
    let at_ := lenOf (vol s v).wrap (servo s n).lpos 0
    let back := x.burstAt + field s (pFmt n) 0x0A4 0 16 * 375 / 32
    if x.inBurst && (link s n).mode = .writing && back ≤ at_ then flagMissing s n ((at_ - back) / 248) else s

/-! ### Stops, wraps and restarts -/

/-- Send WRITE_END and wait for the stop (R324, R360). -/
def endBurst (s : State) (n : Nat) (next : Option Nat) : State :=
  let x := slice s n
  let s := ctrlSend s n 0x16 (leBytes 4 x.round ++ leBytes 1 (next.getD 0xFF) ++ leBytes 1 (steps s n).1)
  let s := modSlice s n fun x => { x with ending := true, nextWrap := next, stopNow := false }
  if (x.curVol.map (writeStream s)).getD false then raise (count s (pFmt n) 12) (pFmt n) 18 else s

/-- An item does not fit: the wrap ends early, owed data sets go whole to the next wrap, or the medium ends (R315). -/
def endWrap (s : State) (v : Nat) : State :=
  let n := v / 4
  let x := vol s v
  let s := raise (count s (pFmt n) 10) (pFmt n) 13 x.wrap
  let owed := (owedRows s v).map (·.2.id)
  let s := wholeWhere s v fun d => owed.contains d.id
  if (partOf s v).2 ≤ x.wrap then endBurst (haltMedium s v) n none else endBurst s n (some (x.wrap + 1))

/-- A FORMAT is at work on a transport. -/
def formatting (s : State) (n : Nat) : Bool :=
  s.cmds.any fun c => c.2.phase != .ended && cOpc c.2.bytes == 0xA && c.2.vol.map (· / 4) == some n

/-- A data set may be placed: a number is free, and DIRTY stands in the record if the last map is clean (R274, R276). -/
def mayPlace (s : State) (v : Nat) (k : DsKind) : Bool :=
  let n := v / 4
  let dirty := match (slice s n).record with
    | some r => (r.parts.getD (v % 4) {}).dirty
    | none => false
  numberFree s n && (dirty || k == .ridge || formatting s n || !(vol s v).mapClean)

/-- Read access wants the tape of a transport and may have it: the slice begins no first pass (R132). -/
def wantsTape (s : State) (n : Nat) : Bool :=
  let g := (slice s n).gather
  g.phase == .seek && (match g.purpose with
    | .items c => (match (cmd s c).vol with
        | none => false
        | some v => ((cmd s c).bytes.getD 1 0).getLsbD 0 || !writeStream s v || (vol s v).waitSeek == some (c, 1))
    | .overwrite _ => true
    | _ => true)

/-- No first pass is begun: tape reading takes its turn, or the formatter is being quieted (R132, R157). -/
def noFirst (s : State) (n : Nat) : Bool := wantsTape s n || s.fwu.quiesce || s.fwu.paused

/-- Next first pass of a volume: a data set closed, or a ridge parity or a map to be made (R290, R296). -/
inductive NextSet where
  | none
  | have (d : DataSet)
  | ridge (prov : Bool)
  | map (clean : Bool)

/-- The next first pass of a volume: one placed before goes again first; a parity that is due comes before a further map data set, so that
a group has no more than 16 members (R288, R290). -/
def nextSet (s : State) (v : Nat) : NextSet :=
  let x := vol s v
  let un := (setsOf s v).filter fun d => !d.begun
  match un.find? fun d => !d.area.isEmpty with
  | some d => .have d
  | Option.none =>
    match x.ridgeDue with
    | some p => .ridge p
    | Option.none =>
      match un.find? fun d => d.kind != .data with
      | some d => .have d
      | Option.none =>
        match x.mapWanted with
        | some c => if x.ending && (setsOf s v).any (·.begun) then .none else .map c
        | Option.none => match un with
          | d :: _ => if x.ending then .none else .have d
          | [] => .none

/-- Kind of a next set. -/
def nextKind : NextSet → Option DsKind
  | .none => Option.none
  | .have d => some d.kind
  | .ridge _ => some .ridge
  | .map _ => some .map

/-- Horizon and end of data that a map's DSIT carries: those of the data sets before it on tape. -/
def mapHorizon (s : State) (v : Nat) : Nat × Nat :=
  let x := vol s v
  let before := (setsOf s v).filter fun d => d.begun && d.kind == .data
  if ((setsOf s v).all (·.begun)) && (openOf s v).isNone && !dataToPlace s v then (x.placed, x.placedEod)
  else match before.getLast? with
    | some d => (d.hzn, d.hznEod)
    | none => (x.hzn, x.comEnd)

/-- Put the data set of a map or a parity before the closed data sets of its volume. -/
def makeSet (s : State) (v : Nat) (d : DataSet) : State × DataSet :=
  (modSlice s (v / 4) fun x =>
    { x with setNext := x.setNext + 1,
             sets := x.sets.takeWhile (fun e => e.begun || e.vol != v) ++ [d]
               ++ x.sets.dropWhile (fun e => e.begun || e.vol != v) }, d)

/-- The data set that goes next, made where it is a map or a parity. -/
def takeNext (s : State) (v : Nat) : State × Option DataSet :=
  match nextSet s v with
  | .none => (s, none)
  | .have d => (s, some d)
  | .ridge p =>
    let (s, d) := makeSet s v { closeBase s v .ridge with prov := p }
    (s, some d)
  | .map c =>
    let (h, e) := mapHorizon s v
    let hdr : MapHdr := { clean := c, full := false, index := 0, cnt := 0, eod := 0, hzn := 0, nextSeq := 0, total := 0,
                          first := 0, entries := 0, baseDs := 0, baseWrap := 0, baseLpos := 0 }
    let s := modVol s v fun x => { x with mapWanted := none, mapMaking := true }
    let (s, d) := makeSet s v { closeBase s v .map with hzn := h, hznEod := e, map := some hdr }
    (s, some d)

/-- Map entries held for a transport (R301). -/
def mapHeld (s : State) (n : Nat) : Nat := ((List.range 4).map fun p => (vol s (4 * n + p)).map.length).foldl (· + ·) 0

/-- The next first pass would open a group that the map cannot hold (R301). -/
def mapIsFull (s : State) (v : Nat) : Bool :=
  let x := vol s v
  x.gpos == 0 && mapCapacity ≤ mapHeld s (v / 4) && x.map.length ≤ x.group

/-- Step 3 of R309: the next data set, or the end of the burst. -/
def boundaryNext (s : State) (v : Nat) : State :=
  let n := v / 4
  let x := vol s v
  if noFirst s n then endBurst s n none
  else match nextKind (nextSet s v) with
    | none => endBurst s n none
    | some k =>
      let again := match nextSet s v with
        | .have d => !d.area.isEmpty
        | _ => false
      if !again && 0xFFFFFFFF ≤ (slice s n).dsNext then endBurst (haltMedium s v) n none
      else if !again && (!mayPlace s v k || x.seedDue) then endBurst s n none
      else if !again && k != .ridge && mapIsFull s v then endBurst (haltMedium (raise s (pFmt n) 9) v) n none
      else if !again && k == .data && membersLeft s v ≤ 0 then
        endBurst (modVol s v fun x => { x with ending := true, mapWanted := some false }) n none
      else
        let len := nominalLen k
        if !fitsAt (if again then 0 else x.nominal) x.physical len len then endWrap s v
        else match takeNext s v with
          | (s, some d) => placeFirst s v d
          | (s, none) => s

/-- Step 2 of R309: the pending whole rewrites, oldest first. -/
def boundaryWhole (s : State) (v : Nat) : Nat → State
  | 0 => s
  | fuel + 1 =>
    match (slice s (v / 4)).whole.filterMap (set? s (v / 4)) |>.find? (fun d => d.vol == v) with
    | none => s
    | some d =>
      if fitsAt 0 (vol s v).physical 0 (nominalLen d.kind) then boundaryWhole (writeWhole s v d) v fuel
      else endWrap s v

/-- Step 1 of R309: one rewrite area. Rows past the window make their pass be written whole (R312). -/
def boundaryArea (s : State) (v : Nat) : State :=
  let n := v / 4
  let w := field s (pFmt n) 0x088 0 4
  let owed := (owedRows s v).map (·.2.id)
  let s := wholeWhere s v fun d => owed.contains d.id && w ≤ d.followed
  let rows := owedRows s v
  if rows.isEmpty then s
  else if spareEnd < (vol s v).physical + 248 * (areaLayout rows).1 then endWrap s v
  else writeArea s v rows

/-- A boundary between items on tape (R309). -/
def boundary (s : State) (n : Nat) : State :=
  let x := slice s n
  if !(x.inBurst && !x.ending && (link s n).mode = .writing) then s
  else match x.curVol with
    | none => endBurst s n none
    | some v =>
      if x.stopNow then endBurst s n none
      else
        let s := boundaryArea s v
        if (slice s n).ending then s
        else
          let s := boundaryWhole s v ((slice s n).whole.length + 1)
          if (slice s n).ending then s
          else if (slice s n).stopNow then endBurst s n none
          else boundaryNext s v

/-- Data sets of a volume that are on their way: rows owed, rewrites pending, or verdicts outstanding. -/
def owing (s : State) (v : Nat) : Bool :=
  (slice s (v / 4)).whole.any (fun i => (set? s (v / 4) i).map (·.vol) == some v) || !(owedRows s v).isEmpty

/-- A volume has an item of R309 ready to write. -/
def itemReady (s : State) (v : Nat) : Bool :=
  owing s v || (!noFirst s (v / 4) && match nextSet s v with
    | .none => false
    | .have d => !d.area.isEmpty || (mayPlace s v d.kind)
    | .ridge _ => mayPlace s v .ridge
    | .map _ => mayPlace s v .map)

/-- A command waits on an item of the volume reaching tape or being verified (R325). -/
def commandWaits (s : State) (v : Nat) : Bool :=
  waitsOn s v [6, 9, 8, 0xA] || (vol s v).waitSeek.isSome || wantsTape s (v / 4) || (page s (pFmt (v / 4))).draining
    || s.fwu.quiesce

/-- A stopped tape restarts for a volume (R325). -/
def mayRestart (s : State) (v : Nat) : Bool :=
  itemReady s v && (2 ^ 20 * field s (pFmt (v / 4)) 0x084 0 16 ≤ levelBytes s (v / 4) || commandWaits s v
    || (match nextKind (nextSet s v) with
        | some .data => false
        | some _ => true
        | none => false))

/-- The volume that a stopped tape restarts for: the one it wrote last, else the lowest. -/
def restartVol (s : State) (n : Nat) : Option Nat :=
  let l := ((List.range 4).map fun p => 4 * n + p).filter (mayRestart s)
  match (slice s n).curVol with
  | some v => if l.contains v then some v else l.head?
  | none => l.head?

/-- Start the LOCATE of a positioning (R362); `offset` is in eighths of a track, as a byte. -/
def startLocate (s : State) (n : Nat) (p : LocatePurpose) (wrap lpos offset : Nat) : State :=
  let s := setTfOffset s n (if offset = 1 then 1 else if offset = 0xFF then -1 else 0)
  let s := modSlice s n fun x => { x with locFor := some p, locTo := (wrap, lpos) }
  ctrlSend s n 0x12 (leBytes 1 wrap ++ leBytes 3 lpos ++ leBytes 1 80 ++ leBytes 1 offset)

/-- Send WRITE_START for a volume at its append point (R363). -/
def startWrite (s : State) (n v : Nat) : State :=
  let x := vol s v
  let s := setTfOffset s n 0
  let s := modSlice s n fun y => { y with starting := true, curVol := some v, capped := solo s n }
  ctrlSend s n 0x13 (leBytes 1 x.wrap ++ leBytes 3 x.endLpos ++ leBytes 1 x.endUm ++ leBytes 1 (steps s n).1)

/-- The tape of a transport is at rest, and nothing moves it. -/
def atRest (s : State) (n : Nat) : Bool :=
  let x := slice s n
  (link s n).phase == .up && (link s n).mode == .ready && !x.starting && !x.inBurst && x.locFor.isNone
    && (x.gather.phase == .idle || x.gather.phase == .seek) && (link s n).ctrl.all (fun c => c.cid.isNone && c.code != 0x18
      && c.code != 0x19 && c.code != 0x11)

/-- Members of the group are to be read before the next first pass (R291). -/
def seedFirst (s : State) (v : Nat) : Bool :=
  (vol s v).seedDue && !owing s v && (match nextSet s v with
    | .have d => d.area.isEmpty && d.kind != .ridge
    | .map _ => true
    | .ridge _ => true
    | _ => false)

/-- A stopped tape restarts (R325): a seed is read first where it is due, and the head is located to the append point where
it is not there. -/
def restart (s : State) (n : Nat) : State :=
  if !atRest s n || s.fwu.paused then s
  else match restartVol s n with
    | none => s
    | some v =>
      let x := vol s v
      if seedFirst s v then
        let e := x.map.getD x.group { firstLbn := 0, firstDs := 0, marksBefore := 0, startWrap := x.wrap, startLpos := x.endLpos,
                                      endWrap := x.wrap, members := 0, endLpos := x.endLpos }
        modSlice s n fun y => { y with gather := { purpose := .seed v, phase := .seek, vol := v, wrap := e.startWrap,
                                                   lpos := e.startLpos } }
      else if (slice s n).headAt = some (x.wrap, x.endLpos, x.endUm) && !x.moved then startWrite s n v
      else startLocate s n (.append v) x.wrap x.endLpos 0

/-- WRITING has begun: the burst starts at MIN_STEP with its splice (R270, R325). The length of the splice is open. -/
def burstBegun (s : State) (n : Nat) : State :=
  let k := (steps s n).1
  let s := modSlice s n fun x => { x with starting := false, inBurst := true, ending := false, stopped := false, round := 0, items := [],
                                          target := k, current := k, ramping := false, headAt := none }
  match (slice s n).curVol with
  | none => s
  | some v =>
    let s := nextFree (advance (modVol s v fun x => { x with moved := false }) v 0 (freeVal s % 11719))
    modSlice s n fun x => { x with burstAt := (vol s v).physical }

/-- The tape of a burst is at rest: the next wrap begins where it named one (R361), and what is still owed goes there whole (R315). -/
def burstEnded (s : State) (n : Nat) : State :=
  let x := slice s n
  let s := x.await.foldl (fun s a => verdict s n a false) s
  let s := match x.curVol with
    | none => s
    | some v => match x.nextWrap with
      | none => modSlice s n fun x => { x with headAt := some ((vol s v).wrap, (vol s v).endLpos, (vol s v).endUm) }
      | some w =>
        let owed := (owedRows s v).map (·.2.id)
        let s := wholeWhere s v fun d => owed.contains d.id
        let (l, u) := placeOf w 0
        modSlice (modVol s v fun y => { y with wrap := w, nominal := 0, physical := 0, endLpos := l, endUm := u }) n
          fun x => { x with headAt := some (w, l, u) }
  modSlice s n fun x => { x with inBurst := false, ending := false, nextWrap := none, stopNow := false, stopped := true,
                                 starting := false }

/-- BURST_DONE gives the end position (R360): it is the splice point of the next burst, unless writing goes on elsewhere. -/
def burstDone (s : State) (n : Nat) (f : List Byte) : State :=
  let x := slice s n
  match x.curVol, x.nextWrap with
  | some v, none =>
    if (vol s v).moved || !x.inBurst || leAt f 16 1 != (vol s v).wrap then s
    else
      let l := leAt f 17 3
      let u := leAt f 20 1
      modVol s v fun y => { y with endLpos := l, endUm := u, physical := max (lenOf y.wrap l u) y.nominal }
  | _, _ => s

/-- The link has fallen to one lane while a burst above step 12 goes on (R326): above step 12 a write stops at the end of the round and goes on from the earliest
data set whose verify had not finished. -/
def soloWrite (s : State) (n : Nat) : State :=
  let x := slice s n
  match x.curVol with
  | none => s
  | some v =>
    if !(x.inBurst && !x.ending && 12 < x.current) then s
    else
      let s := raise (count s (pFmt n) 16) (pFmt n) 17
      let s := endBurst (chanStop s n) n none
      match (setsOf s v).find? fun d => d.begun && x.await.any fun a => a.ds == d.id with
      | none => s
      | some d =>
        let again := ((setsOf s v).dropWhile (·.id != d.id)).filterMap fun e => if e.begun then some e.id else none
        let (nom, phys) := tget (vol s v).log d.num ((vol s v).nominal, (vol s v).physical)
        let (l, u) := placeOf d.wrap phys
        let s := modVol s v fun y => { y with wrap := d.wrap, nominal := nom, physical := phys, endLpos := l, endUm := u,
                                              moved := true }
        modSlice s n fun y =>
          { y with await := y.await.filter (fun a => !again.contains a.ds), owed := y.owed.filter (fun o => !again.contains o.ds),
                   whole := y.whole.filter (fun i => !again.contains i),
                   sets := y.sets.map fun e => if again.contains e.id then { e with begun := false, verified := false } else e }

/-- The tape reaches the next step of a ramp, 0.4 m/s towards the target; one that was redirected between two steps reaches the step it came
from (R323). -/
def rampStep (s : State) (n : Nat) : State :=
  let x := slice s n
  if x.stopped || !x.ramping then s
  else
    let k := if x.current < x.target then x.current + 1 else if x.target < x.current then x.current - 1 else x.current
    modSlice s n fun x => { x with current := k, ramping := k != x.target }

end Sys2Proof.Machine
end

