-- ==== Sys2Proof/Machine/Fault.lean ====
section
/-! DEFINITION. The mode of a transport (R359, R361), faults (R18, R146, R364, R390), the link going down (R357), and what
they do to the commands of the transport. -/

namespace Sys2Proof.Machine

/-- Code of a mode (R359). -/
def modeCode : TMode → Nat
  | .empty => 0
  | .loaded => 1
  | .threading => 2
  | .calibrating => 3
  | .ready => 4
  | .locating => 5
  | .writing => 6
  | .reading => 7
  | .rewinding => 8
  | .unthreading => 9
  | .service => 10
  | .faulted => 11

/-- Mode of a code; none above 11. -/
def modeOf (c : Nat) : Option TMode :=
  [TMode.empty, .loaded, .threading, .calibrating, .ready, .locating, .writing, .reading, .rewinding, .unthreading, .service,
   .faulted][c]?

/-- The moving modes (R359). -/
def moving (m : TMode) : Bool :=
  match m with
  | .threading => true
  | .locating => true
  | .writing => true
  | .reading => true
  | .rewinding => true
  | .unthreading => true
  | _ => false

/-- The volumes of transport `n`. -/
def volsOf (n : Nat) : List Nat := (List.range 4).map fun p => 4 * n + p

/-- Some partition of the cartridge is mounted. -/
def anyMounted (s : State) (n : Nat) : Bool := (volsOf n).any fun v => (vol s v).mounted

/-- A volume is not mounted any more. What it held of write data is discarded, and nothing of it is on tape that was not before
(R146, R365). -/
def unmountVol (s : State) (v : Nat) : State :=
  let x := vol s v
  let s := x.blks.foldl (fun s b => removeBlk s v b) s
  let s := x.segs.foldl dropSeg s
  let s := setOpen (dropSets s v fun _ => true) v none
  setVol s v { accSeq := x.accSeq, turn := x.turn, bind := x.bind, par := x.par, segNext := x.segNext, kept := x.kept }

/-- The slots that hold write data of a volume which is not on tape. -/
def dataSlots (x : Vol) : List Nat :=
  (x.blks.filter fun b => b.phase == .done && !b.retained).map (·.slot) ++ x.segs.flatMap segHolds

/-- A volume is not mounted any more after a fault: its write data stays in its slots until the next MOUNT (R146). -/
def keepVol (s : State) (v : Nat) : State :=
  let k := dataSlots (vol s v)
  unmountVol (modVol s v fun x =>
    { x with kept := x.kept ++ k, segs := x.segs.map fun g => { g with staging := [], p2 := [], early := [] },
             blks := x.blks.map fun b => { b with retained := b.retained || b.phase == .done } }) v

/-- The write data that a fault left in the buffer is discarded (R146). -/
def freeKept (s : State) (v : Nat) : State :=
  modVol ((vol s v).kept.foldl (fun s a => letGo s a (3 + v / 4)) s) v fun x => { x with kept := [] }

/-- Every volume of a transport becomes not mounted, and the slice forgets the cartridge's place (R357, R365). -/
def unmountAll (s : State) (n : Nat) : State :=
  let drop := if (link s n).mode = .faulted then keepVol else unmountVol
  let s := (volsOf n).foldl (fun s v => if (vol s v).mounted then drop s v else s) s
  let s := dropUnits (dropDecoded s n fun _ => false) n fun _ => false
  modSlice s n fun x =>
    { x with chain := none, headAt := none, curVol := none, gather := {}, owed := [], whole := [],
             await := [], opens := [], sets := [], search := {}, record := none, recKnown := false, recReading := false,
             recOut := none, recWant := false }

/-- The cartridge of a transport is gone or unthreaded: volume parameters end with it (R116). -/
def forgetCartridge (s : State) (n : Nat) : State :=
  let s := unmountAll s n
  let s := modSlice s n fun x => { x with want := {}, recUnwritable := false }
  (volsOf n).foldl (fun s v => modVol s v fun x => { x with bind := .none, par := {} }) s

/-- A started command needs tape (R146): write-type commands, FLUSH, UNMOUNT, MOUNT, FORMAT, and a READ, LOCATE or SPACE that
waits for tape. -/
def needsTape (c : Cmd) : Bool :=
  let o := cOpc c.bytes
  o == 1 || o == 3 || o == 0xB || o == 6 || o == 8 || o == 9 || o == 0xA
    || ((o == 2 || o == 4 || o == 5) && c.phase == .tape)

/-- Code of the completions under a fault (R364). -/
def faultCode (cause : Nat) : Code := if cause = 1 then (7, 2) else (7, 1)

/-- A COMPLETION that waits to be posted, of a command that needs tape, takes the code of the fault; its RESULT is that of class 0x07
(R123, R146). -/
def faultEntry (n : Nat) (code : Code) (e : CqEntry) : CqEntry :=
  let o := e.opc.toNat
  if e.kind = .completion && e.cls.toNat ≤ 1 && e.transport.toNat == n && [1, 3, 0xB, 6, 8, 9, 0xA].contains o then
    { e with cls := BitVec.ofNat 8 code.1, detail := BitVec.ofNat 8 code.2, result := if o = 1 || o = 6 || o = 8 then e.result else 0 }
  else e

/-- The COMPLETIONs of a transport that wait to be posted. -/
def faultWaiting (s : State) (n : Nat) (code : Code) : State :=
  [Port.a, Port.b].foldl (fun s p => modPort s p fun t =>
    { t with cqs := t.cqs.map fun c => (c.1, { c.2 with waiting := c.2.waiting.map (faultEntry n code) }) }) s

/-- The commands of a transport that need tape complete with class 0x07, in the order they started (R146). Segments that are
Buffered stay. -/
def faultCommands (s : State) (n : Nat) (code : Code) : State :=
  (liveCmds s fun _ c => c.vol.map (· / 4) == some n && needsTape c).foldl
    (fun s cid => complete s cid code (endResult s cid 7)) (faultWaiting s n code)

/-- The tape work of a slice stops where it stands: nothing more is sent, and what was sent is not counted as on tape (R18). -/
def haltTape (s : State) (n : Nat) : State :=
  modSlice s n fun x =>
    { x with inBurst := false, ending := false, starting := false, stopNow := false, nextWrap := none, stopped := true,
             locFor := none, gather := {}, headAt := none, await := [] }

/-- The tape speed reference of a transport (R374): the step in force while writing or reading, with the sign of the wrap; 0 at
rest; open in the other moving modes. -/
def velTarget (s : State) (n : Nat) : Int :=
  let x := slice s n
  let speed : Int := 2000 + 400 * (x.target : Int)
  let along (w : Nat) : Int := if wrapForward w then speed else -speed
  match (link s n).mode with
  | .writing => match x.curVol with
    | some v => along (vol s v).wrap
    | none => 0
  | .reading => along x.gather.wrap
  | .calibrating => s16 (freeVal s)
  | .locating => s16 (freeVal s)
  | .threading => s16 (freeVal s)
  | .rewinding => s16 (freeVal s)
  | .unthreading => s16 (freeVal s)
  | _ => 0

/-- Set the speed target of the loops (R374). -/
def aimSpeed (s : State) (n : Nat) : State :=
  nextFree (modServo s n fun v => { v with velTarget := velTarget s n })

/-- The transport enters a mode (R361, R376, R384, R386). -/
def enterMode (s : State) (n : Nat) (m : TMode) : State :=
  let old := (link s n).mode
  if old = m then setLoops s n
  else
    let s := setEvt (count (modLink s n fun l => { l with mode := m }) (pLink n) 10) (pLink n) 12
    let s := modSlice s n fun x => { x with stopped := !(moving m || m == .calibrating) }
    let s := if m = .threading then clearBins s n else s
    let s := if old = .faulted then modServo s n fun v => { v with loopFault := false } else s
    let s := if old = .service || m = .faulted then clearManual s n else s
    aimSpeed (setLoops s n) n

/-- A transport enters FAULTED with a cause (R364). -/
def enterFaulted (s : State) (n cause : Nat) : State :=
  if (link s n).mode = .faulted then s
  else
    let s := modLink s n fun l => { l with cause := BitVec.ofNat 8 cause, ctrl := l.ctrl.filter fun c => c.code == 0x1D || c.code == 0x1E }
    let s := raise (enterMode s n .faulted) (pLink n) 13 cause
    faultCommands (haltTape s n) n (faultCode cause)

/-- A fault that the formatter finds: HALT goes first, KIND 1 for a brake stop (R364). -/
def transportFault (s : State) (n cause : Nat) (brake : Bool := false) : State :=
  if (link s n).mode = .faulted then s
  else
    let s := if (link s n).phase = .up then ctrlSend s n 0x1D (leBytes 1 (bit brake)) else s
    enterFaulted s n cause

/-- The link sender and receiver start afresh. -/
def clearLink (l : LinkSt) : LinkSt :=
  { l with lanes := 0, txSeq := 0, rxSeq := 0, rxAny := false, nakSent := false, unacked := [], txQueue := [], chanRun := 0,
           sinceMbx := 7, chanRx := [], ctrl := [], ctrlHeld := [], mbx := [], frameFirst := 0, frameAt := 0, txFrame := 0,
           txDealt := [] }

/-- The link of a transport is not up: its start failed, or it went down and waits for a retry (R354, R357). -/
def linkFailed (s : State) (n cause : Nat) (retry : Bool) : State :=
  let off := (page s (pLink n)).draining || !(page s (pLink n)).enabled
  let s := modLink s n fun l => { clearLink l with phase := if off then .disabled else .failed, failCause := cause, noRetry := !retry }
  modSlice s n fun x => { x with recOut := none, recReading := false }

/-- The link goes down (R357) with a FAIL_CAUSE of R368. A start that has not reached UP fails. -/
def linkDown (s : State) (n cause : Nat) : State :=
  match (link s n).phase with
  | .up =>
    let s := linkFailed s n cause true
    let s := raise (count s (pLink n) 7) (pLink n) 9 cause
    if (link s n).mode = .faulted then modLink s n fun l => { l with cause := 1 }
    else enterFaulted s n 1
  | .training => linkFailed s n cause true
  | .loading => linkFailed s n cause true
  | _ => s

/-- Loop faults of one transport at one moment (R390). -/
def loopFaults (s : State) (n : Nat) (fs : List LoopFault) : State :=
  match fs.getLast? with
  | none => s
  | some (j, kind, e) =>
    let brake := fs.any fun f => f.1 == 2 || f.1 == 3
    let s := modServo s n fun v => { v with loopFault := true }
    let s := (List.range 4).foldl (fun s j => loopTo s (loopIdx n j) .stopped) s
    let s := setReg s (pServo n) 0x05C (w32 (j + 4 * kind + 8 * bit brake + 65536 * u16 e))
    let s := raise (count s (pServo n) 14 fs.length) (pServo n) 8
    transportFault s n 4 brake

/-- What the receiver's verdict leaves to do: a protocol error faults the transport, a flit at its retransmit limit takes the link
down (R339, R342). -/
def afterRx (s : State) (n : Nat) (v : RxVerdict) (f : State → State) : State :=
  match v with
  | .discard => s
  | .protocol => transportFault s n 6
  | .overLimit => linkDown s n 3
  | .deliver => f s

end Sys2Proof.Machine
end

