-- ==== Sys2Proof/Machine/Record.lean ====
section
/-! DEFINITION. The cartridge record in the cartridge memory: reading it, writing its copies in turn, and the retries of its
transfers (R273 to R276, R352). -/

namespace Sys2Proof.Machine

/-- Addresses of the transfers of one copy of the record: 48 bytes each, the last 16 (R352, R273). -/
def copyParts (k : Nat) : List (Nat × Nat) := (List.range 6).map fun i => (0x1000 + 0x100 * k + 48 * i, if i = 5 then 16 else 48)

/-- A transfer of the cartridge memory. -/
def isCm (m : MbxOut) : Bool := m.op == 1 || m.op == 2

/-- Start reading both copies of the record (R273). -/
def readRecord (s : State) (n : Nat) : State :=
  let s := modSlice s n fun x => { x with recReading := true, recKnown := false, recIn := [], record := none }
  (copyParts 0 ++ copyParts 1).foldl (fun s a => mbxSend s n 1 a.1 [] a.2) s

/-- A copy of the record as its transfers delivered it. -/
def copyBytes (x : SliceSt) (k : Nat) : List Byte := (copyParts k).flatMap fun a => tget x.recIn a.1 []

/-- Both copies have been read: the valid one with the higher SEQUENCE is the record (R273). FLAGS keeps that the cartridge memory could
not be written at the last mount until a mount has written it; whether it can be written is found anew. -/
def recordRead (s : State) (n : Nat) : State :=
  modSlice s n fun x =>
    let a := readRec (copyBytes x 0)
    let b := readRec (copyBytes x 1)
    let r := pickRec a b
    { x with recReading := false, recKnown := true, record := r, recCopy := if r = a then 1 else 0,
             want := { r.getD {} with cmFailed := x.recUnwritable || (r.getD {}).cmFailed }, recIn := [], recWant := false,
             recUnwritable := x.recUnwritable && anyMounted s n }

/-- The record can be written: the link is up and nothing is being written. -/
def mayWriteRecord (s : State) (n : Nat) : Bool :=
  let x := slice s n
  x.recWant && x.recOut.isNone && !x.recUnwritable && (link s n).phase == .up && !(link s n).wprot

/-- Write the copy of the record that is in turn, with the next SEQUENCE (R273). -/
def writeRecord (s : State) (n : Nat) : State :=
  if !mayWriteRecord s n then s
  else
    let x := slice s n
    let q := match x.record with
      | some r => (r.seq + 1) % 2 ^ 32
      | none => 0
    let r := { x.want with seq := q }
    let b := recBytes r
    let s := modSlice s n fun x => { x with recOut := some (r, x.recCopy), recWant := false, recFail := false }
    (copyParts x.recCopy).foldl (fun s a => mbxSend s n 2 a.1 (sub b (a.1 % 256) a.2) a.2) s

/-- The command of one opcode that is at work on a transport. -/
def workOf (s : State) (n opc : Nat) : Option Nat :=
  (liveCmds s fun _ c => cOpc c.bytes == opc && c.vol.map (· / 4) == some n && c.phase == .tape).head?

/-- A write of the record failed after the retries (R274): FORMAT ends with WRITE_PROTECTED, MOUNT goes on read-only, otherwise
the transport faults. -/
def recordFailed (s : State) (n : Nat) : State :=
  let s := raise (modSlice s n fun x => { x with recOut := none, recFail := false, recWant := false }) (pFmt n) 10
  match workOf s n 0xA with
  | some c => complete s c (2, 8) 0
  | none => match workOf s n 8 with
    | some _ => modSlice s n fun x => { x with recUnwritable := true, want := { x.want with cmFailed := true } }
    | none => transportFault s n 8

/-- No transfer of one kind is under way. -/
def noneOf (s : State) (n : Nat) (op : Byte) : Bool := (link s n).mbx.all fun m => m.op != op

/-- A transfer of the cartridge memory has ended for good, with its data or without. -/
def cmEnded (s : State) (n : Nat) (m : MbxOut) (data : Option (List Byte)) : State :=
  let s := modLink s n fun l => { l with mbx := l.mbx.erase m }
  if m.op = 1 then
    let s := match data with
      | some d => modSlice s n fun x => { x with recIn := tput x.recIn m.addr d }
      | none => s
    if (slice s n).recReading && noneOf s n 1 then recordRead s n else s
  else
    let s := if data.isNone then modSlice s n fun x => { x with recFail := true } else s
    match (slice s n).recOut with
    | none => s
    | some (r, k) =>
      if !noneOf s n 2 then s
      else if (slice s n).recFail then recordFailed s n
      else modSlice s n fun x => { x with record := some r, recOut := none, recCopy := 1 - k }

/-- A transfer failed: it is tried up to 3 more times (R352). -/
def cmFailed (s : State) (n : Nat) (m : MbxOut) : State :=
  if 3 ≤ m.tries then cmEnded s n m none
  else
    let t : MbxOut := { m with tries := m.tries + 1, tag := BitVec.ofNat 8 (link s n).mbxNext }
    let s := modLink (count s (pLink n) 11) n fun l => { l with mbxNext := (l.mbxNext + 1) % 256, mbx := l.mbx.erase m ++ [t] }
    queueFlits s n [(tyMbx, mbxPayload t)]

/-- An answer of the cartridge memory arrives (R352). -/
def cmAnswer (s : State) (n : Nat) (op : Byte) (f : List Byte) : State :=
  match (link s n).mbx.find? fun m => m.op == op && m.tag == f.getD 5 0 with
  | none => s
  | some m =>
    if f.getD 9 0 != 0 then cmFailed s n m
    else cmEnded s n m (some (sub f 10 m.len))

end Sys2Proof.Machine
end

