-- ==== Sys2Proof/Machine/Read.lean ====
section
/-! DEFINITION. Reading: items of blocks (R202, R302), units of decoded data sets (R281, R252), what a READ may take under its
binding (R258), and the collection and decoding of a data set from tape (R314, R327, R328). -/

namespace Sys2Proof.Machine

/-- A part of an item that lies in a block: its LBN, whether it is a filemark, its bytes, whether the item begins and ends in
the block. -/
structure Piece where
  lbn : Nat
  mark : Bool
  off : Nat
  len : Nat
  begins : Bool
  ends : Bool
  deriving DecidableEq, Repr

/-- The pieces of a block from its items in LBN order: `at_` is where the next record begins, `cont` whether it is a
continuation. -/
def piecesGo (dlen : Nat) : List (Nat × Nat) → Nat → Nat → Bool → List Piece
  | [], at_, lbn, cont => if at_ < dlen then [{ lbn := lbn, mark := false, off := at_, len := dlen - at_, begins := !cont, ends := false }] else []
  | (k, o) :: r, at_, lbn, cont =>
    if k = 1 then
      { lbn := lbn, mark := false, off := at_, len := o - at_, begins := !cont, ends := true } :: piecesGo dlen r o (lbn + 1) false
    else { lbn := lbn, mark := true, off := o, len := 0, begins := true, ends := true } :: piecesGo dlen r at_ (lbn + 1) cont

/-- The pieces of a block whose first item is `lbn` (R202). -/
def piecesOf (entries : List BEntry) (dlen : Nat) (cont ends : Bool) (lbn : Nat) : List Piece :=
  piecesGo dlen (itemsOf entries dlen ends) 0 lbn cont

/-- The pieces of a plain block. -/
def unitPieces (u : List Byte) (lbn : Nat) : List Piece :=
  let h := parseHdr u
  piecesOf (parseTable u h.entries) h.dlen h.cont h.ends lbn

/-- A block in the buffer still holds its bytes: its slot is FREE, or taken back, with the generation they were written under (R191). -/
def blkHeld (s : State) (b : Blk) : Bool :=
  b.phase == .done && (!b.retained || ((slotMeta s b.slot).gen.toNat == b.gen && (slotMeta s b.slot).st != .retired
    && !anyBad s b.slot b.len))

/-- The blocks of a volume whose bytes are in the buffer, or will be once they are compressed (R131). -/
def heldBlks (s : State) (v : Nat) : List Blk := (vol s v).blks.filter fun b => b.phase != .done || blkHeld s b

/-- A unit as it lies in a decoded data set: block number, plain bytes, LBN of its first item, number of its data set. -/
structure TapeUnit where
  q : Nat
  bytes : List Byte
  firstLbn : Nat
  ds : Nat
  label : Nat
  rebuilt : Bool
  deriving DecidableEq, Repr

/-- The key slot for a label: none for label 0, the slot that is COMMITTED under it (R258, R302). -/
def slotOfLabel (s : State) (label : Nat) : Option Nat :=
  (List.range 128).find? fun k => (keySlot s k).st == .committed && (keySlot s k).label.toNat == label

/-- Decrypt a unit of a data set with a label (R252). -/
def plainUnit (s : State) (v label q : Nat) (b : List Byte) : List Byte :=
  if label = 0 then b
  else match slotOfLabel s label with
    | some k => xtsDec (keyBytes s k 0) (keyBytes s k 1) (tweakBytes (vol s v).serial q) b
    | none => b

/-- A decrypted unit without the zero bytes that fill it up to 32 (R252); others beyond the block stay, and make it malformed. -/
def trimUnit (label : Nat) (p : List Byte) : List Byte :=
  let n := blkLen (parseHdr p)
  if label != 0 && n < 32 && p.length == 32 && (p.drop n).all (· == 0) then p.take n else p

/-- Length of the unit that starts with these bytes, from the header in its first 16 (R252, R281). -/
def unitLenAt (s : State) (v label q : Nat) (b : List Byte) : Nat :=
  let n := blkLen (parseHdr (plainUnit s v label q (b.take 16)))
  if label = 0 then n else max n 32

/-- The units that begin in a data set, from the bytes of its payload and the continued bytes of the sets after it: `n` are
left, `off` is the place of the next, `q` its number. A unit that is not whole ends the list. -/
def unitsGo (s : State) (v label : Nat) (b : List Byte) : Nat → Nat → Nat → List (Nat × Nat × Nat)
  | 0, _, _ => []
  | n + 1, off, q =>
    let len := unitLenAt s v label q (b.drop off)
    if b.length < off + len then [] else (q, off, len) :: unitsGo s v label b n (off + len) (q + 1)

/-- Payload bytes of a decoded data set that belong to units begun in earlier ones. -/
def contBytes (d : Decoded) : List Byte :=
  if d.info.contd then d.area.take (if d.info.units = 0 then d.info.used else d.info.firstUnit) else []

/-- The bytes that continue a data set in those after it. -/
def tailBytes : List Decoded → List Byte
  | [] => []
  | d :: r => contBytes d ++ (if d.info.units = 0 && d.info.continues then tailBytes r else [])

/-- The units that begin in a decoded data set; `rest` are the DATA sets after it (R281, R293). -/
def setUnits (s : State) (d : Decoded) (rest : List Decoded) : List TapeUnit :=
  let i := d.info
  let own := d.area.take i.used
  let b := if i.label != 0 && (slotOfLabel s i.label).isNone then [] else own ++ (if i.continues then tailBytes rest else [])
  let us := unitsGo s d.vol i.label b i.units i.firstUnit i.firstSeq
  let plain (u : Nat × Nat × Nat) : List Byte := trimUnit i.label (plainUnit s d.vol i.label u.1 (sub b u.2.1 u.2.2))
  let count (u : Nat × Nat × Nat) : Nat :=
    let p := plain u
    let h := parseHdr p
    (itemsOf (parseTable p h.entries) h.dlen h.ends).length
  let ended := ((us.filter fun u => u.2.1 + u.2.2 ≤ i.used).map count).foldl (· + ·) 0
  let first := i.firstLbn + i.ends + i.marks - ended
  (us.foldl (fun (acc : List TapeUnit × Nat) u =>
    (acc.1 ++ [{ q := u.1, bytes := plain u, firstLbn := acc.2, ds := i.num, label := i.label, rebuilt := d.rebuilt }],
     acc.2 + count u)) ([], first)).1

/-- The units of a run of decoded data sets. -/
def runUnits (s : State) : List Decoded → List TapeUnit
  | [] => []
  | d :: r => setUnits s d r ++ runUnits s r

/-- Decoded DATA sets of a volume, in tape order. -/
def decodedOf (s : State) (v : Nat) : List Decoded := (slice s (v / 4)).decoded.filter fun d => d.vol == v

/-- The label that a binding writes under: 0 for CLEAR. -/
def bindLabel (s : State) (b : Binding) : Nat :=
  match b with
  | .slot k => (keySlot s k).label.toNat
  | _ => 0

/-- What R258 answers for data under a DSIT label: none where the blocks are delivered, else the code. `tagOk` is the outcome of
the tag check. -/
def labelCheck (s : State) (v label : Nat) (tagOk : Bool) : Option Code :=
  if label = 0 then
    if (reg s (pCiph (v / 4)) 0x048).getLsbD (v % 4) then some (5, 3) else none
  else match (vol s v).bind with
    | .slot k =>
      if (keySlot s k).st != .committed then some (5, 1)
      else if (keySlot s k).label.toNat != label then some (5, 4)
      else if tagOk then none else some (5, 3)
    | .lost => some (5, 1)
    | _ => some (5, 5)

/-- The tag of a data area under its label's key (R257). -/
def tagOk (s : State) (i : DsitInfo) (area : List Byte) : Bool :=
  match slotOfLabel s i.label with
  | some k => cmac (keyBytes s k 2) (area.take payloadBytes) == i.tag
  | none => true

/-- A data set is to pass its tag: its label is not 0 and the volume is bound to a COMMITTED slot with that label (R258). -/
def tagDue (s : State) (v : Nat) (i : DsitInfo) : Bool :=
  i.label != 0 && (match (vol s v).bind with
    | .slot k => (keySlot s k).st == .committed && (keySlot s k).label.toNat == i.label
    | _ => false)

/-! ### Collecting a data set -/

/-- Change the reading of a slice. -/
def modGather (s : State) (n : Nat) (f : Gather → Gather) : State := modSlice s n fun x => { x with gather := f x.gather }

/-- A copy of a row, as C1 leaves it, joins its data set until the end of the 8th first pass after the last pass of the data set that was
found (R314). -/
def joinRow (x : GSet) (h : CwHdr) (row : Option (List Byte)) : GSet :=
  let x := if h.copy = 0 && x.pass < h.pass then { x with pass := h.pass, after := 0 } else x
  if 8 < x.after then x
  else { x with first := x.first || (h.copy == 0 && h.pass == 0),
                rows := match row with
                  | some r => tput x.rows (192 * h.s + h.r) r
                  | none => x.rows }

/-- One received unit of 280 bytes while reading: a row that C1 corrects joins its data set (R314, R327). -/
def gatherUnit (s : State) (n : Nat) (u : List Byte) : State :=
  let cw := sub u 1 248
  match readHeader cw (slice s n).gather.wrap with
  | none => s
  | some h =>
    let row := (judge cw (sub u 249 31)).1.map fun r => r.1.take 228
    modGather s n fun g =>
      let seen := if g.seen.any fun x => x.low == h.low && x.kind == h.kind then g.seen
        else g.seen ++ [{ low := h.low, kind := h.kind, prov := h.prov }]
      let opens := h.copy == 0 && h.pass == 0 && !(seen.any fun x => x.low == h.low && x.kind == h.kind && x.first)
      { g with seen := seen.map fun x =>
          if x.low = h.low && x.kind = h.kind then joinRow x h row else if opens then { x with after := x.after + 1 } else x }

/-- The data set whose reading is in turn. -/
def setInTurn (g : Gather) : Option GSet :=
  match g.want with
  | some (low, k) => g.seen.find? fun x => x.low == low && x.kind == k
  | none => g.seen.find? fun x => x.first && !g.past.contains (x.low, x.kind)

/-- The entry of a table, where it has one. -/
def tget? {α : Type} (t : Tbl α) (k : Nat) : Option α := (t.find? fun e => e.1 == k).map (·.2)

/-- Column `c` of SDS `i`: kept from an earlier attempt, or corrected by C2 with the missing rows as erasures (R327, R328). -/
def column (g : Gather) (x : GSet) (i c : Nat) : Option (List Byte) :=
  match tget? g.cols (228 * i + c) with
  | some l => some l
  | none =>
    let rows := (List.range 192).map fun r => tget? x.rows (192 * i + r)
    let lost := (List.range 192).filter fun r => ((rows.getD r none).isNone)
    (rsDecode c2Parity (rows.map fun r => (r.getD []).getD c 0) lost).map fun w => w.1.take 168

/-- The columns of a data set that are corrected. -/
def goodCols (g : Gather) (x : GSet) : Tbl (List Byte) :=
  (List.range (256 * 228)).filterMap fun k => (column g x (k / 228) (k % 228)).map fun l => (k, l)

/-- The data area from its columns. -/
def areaFrom (cols : Tbl (List Byte)) : List Byte :=
  (List.range 256).flatMap fun i => (List.range 168).flatMap fun r => (List.range 228).map fun c =>
    (tget cols (228 * i + c) []).getD r 0

/-- The data area of a data set, once every column is corrected. -/
def gatheredArea (cols : Tbl (List Byte)) : Option (List Byte) :=
  if cols.length = 256 * 228 then some (areaFrom cols) else none

/-- Step of an attempt (R328). -/
def attemptStep (s : State) (n k : Nat) : Nat :=
  let (lo, hi) := steps s n
  if k = 0 then hi else if k < 3 then max lo (min 7 hi) else lo

/-- Lateral offset of an attempt, in eighths of a track, as a byte (R328). -/
def attemptOffset (k : Nat) : Nat := if k = 1 || k = 3 then 1 else if k = 2 || k = 4 then 0xFF else 0

/-- Where the data set after one of kind `k` at a place can begin at the earliest. -/
def placeAfter (wrap lpos : Nat) (k : DsKind) : Nat := (placeOf wrap (lenOf wrap lpos 0 + nominalLen k)).1

/-- Start of a reading: the tape is to be located there. -/
def startGather (s : State) (n : Nat) (p : GatherPurpose) (v wrap lpos grp idx : Nat) : State :=
  modSlice s n fun x =>
    { x with locTries := 0,
             gather := { purpose := p, phase := .seek, vol := v, wrap := wrap, lpos := lpos, grp := grp, idx := idx } }

/-- The reading ends; the tape, where it moves, is to stop. -/
def endGather (s : State) (n : Nat) : State := modSlice s n fun x => { x with gather := {} }

/-- Send READ_START for the reading of a slice (R327, R328). -/
def startRead (s : State) (n : Nat) : State :=
  let s := modSlice s n fun x => { x with capped := solo s n, headAt := none }
  let g := (slice s n).gather
  let k := attemptStep s n g.attempt
  let o := attemptOffset g.attempt
  let s := setTfOffset s n (if o = 1 then 1 else if o = 0xFF then -1 else 0)
  let s := modSlice s n fun x => { x with target := k, current := k, ramping := false, gather := { x.gather with phase := .starting } }
  ctrlSend s n 0x14 (leBytes 1 g.wrap ++ leBytes 3 g.lpos ++ leBytes 1 k ++ leBytes 1 o)

/-- Send STOP for a reading tape (R324, R361). -/
def stopRead (s : State) (n : Nat) : State :=
  ctrlSend (modSlice s n fun x => { x with ending := true }) n 0x17 (leBytes 1 0xFF ++ leBytes 1 (steps s n).1)

/-- Read on from another place: stop, and locate there (R328). -/
def moveGather (s : State) (n wrap lpos : Nat) : State :=
  modGather s n fun g => { g with phase := .seek, wrap := wrap, lpos := lpos, seen := if g.attempt = 0 then [] else g.seen }

end Sys2Proof.Machine
end

