-- ==== Sys2Proof/Machine/Deliver.lean ====
section
/-! DEFINITION. The commands that find items: READ (R111, R112, R131, R206, R231, R258), LOCATE and SPACE (R113), and the walk
along the tape that serves them (R512). -/

namespace Sys2Proof.Machine

/-- Where item `t` stands among blocks in rising order. -/
inductive Found where
  | none
  | mark (q : Nat)
  | record (qs : List Nat)
  | broken (q : Nat)
  deriving DecidableEq, Repr

/-- Follow a record over the blocks after the one it begins in (R202, R206). -/
def followRecord (t : Nat) : List (Nat × List Piece) → Nat → List Nat → Found
  | [], _, _ => .none
  | (q, ps) :: r, prev, acc =>
    if q != prev + 1 then .none
    else match ps with
      | p :: _ =>
        if p.mark || p.begins || p.lbn != t then .broken q
        else if p.ends then .record (acc ++ [q]) else followRecord t r q (acc ++ [q])
      | [] => .broken q

/-- CONTINUED of a block disagrees with how the block before it ends (R202): block `q` with pieces `ps` after `prev`. -/
def disagrees (prev : Option (Nat × List Piece)) (q : Nat) (ps : List Piece) : Bool :=
  match prev, ps with
  | some (q0, ps0), p :: _ => q == q0 + 1 && (ps0.getLast?.any fun l => l.ends != p.begins)
  | _, _ => false

/-- Find item `t` among blocks given by number and pieces, `prev` being the block before them: a block whose structure disagrees with the
one before delivers nothing (R206). -/
def findAfter (t : Nat) : Option (Nat × List Piece) → List (Nat × List Piece) → Found
  | _, [] => .none
  | prev, (q, ps) :: r =>
    match ps.find? fun p => p.lbn == t && p.begins with
    | some p =>
      if disagrees prev q ps then .broken q
      else if p.mark then .mark q
      else if p.ends then .record [q]
      else followRecord t r q [q]
    | none => findAfter t (some (q, ps)) r

/-- Find item `t` among blocks given by number and pieces. -/
def findItem (t : Nat) (l : List (Nat × List Piece)) : Found := findAfter t none l

/-- The held blocks of a volume with their pieces. -/
def heldPieces (s : State) (v : Nat) : List (Nat × List Piece) :=
  (sortBy (·.q) (heldBlks s v)).map fun b => (b.q, piecesOf b.entries b.dlen b.cont b.ends b.firstLbn)

/-- The units of the decoded data sets of a volume. -/
def tapeUnits (s : State) (v : Nat) : List TapeUnit := runUnits s (decodedOf s v)

/-- Decoded data sets, each with the LBN from which its items are left over: a later data set that does not continue it begins
at the end of data it was cut to, and one that nothing is known to follow counts as far as its horizon (R142); `last` is the last
data set placed. -/
def limits (last : Nat) : List Decoded → List (Decoded × Nat)
  | [] => []
  | d :: r =>
    let l := limits last r
    let top := match l with
      | [] => if d.info.num = last then allOnes else d.info.hznEod
      | (e, k) :: _ => if e.info.contd then max e.info.firstLbn k else max d.info.hznEod e.info.firstLbn
    (d, top) :: l

/-- The decoded data sets of a volume with their limits. -/
def limited (s : State) (v : Nat) : List (Decoded × Nat) := limits (vol s v).lastData (decodedOf s v)

/-- The same with their pieces. -/
def tapePieces (s : State) (v : Nat) : List (Nat × List Piece) :=
  let ls := limited s v
  (tapeUnits s v).map fun u =>
    let top := ((ls.find? fun d => d.1.info.num == u.ds).map (·.2)).getD 0
    (u.q, (unitPieces u.bytes u.firstLbn).filter fun p => p.lbn < top)

/-- Item `t` of a volume in the buffer, else in what was read from tape. -/
def locateItem (s : State) (v t : Nat) : Found :=
  match findItem t (heldPieces s v) with
  | .none => findItem t (tapePieces s v)
  | f => f

/-- A decoded data set holds a part of item `t`. -/
def holdsItem (d : Decoded) (t : Nat) : Bool :=
  let e := d.info.firstLbn + d.info.ends + d.info.marks
  d.info.firstLbn ≤ t && (t < e || (t == e && d.info.continues))

/-- The decoded data sets of a volume that hold a part of item `t`. -/
def holders (s : State) (v t : Nat) : List Decoded :=
  ((limited s v).filter fun d => t < d.2 && holdsItem d.1 t).map (·.1)

/-- The decoded data sets reach item `t`. -/
def reached (s : State) (v t : Nat) : Bool :=
  (limited s v).any fun d => t < min d.2 (d.1.info.firstLbn + d.1.info.ends + d.1.info.marks)

/-- The command waits for tape (R131, R132). -/
def needTape (s : State) (cid : Nat) : State :=
  modCmd s cid fun c => { c with phase := .tape }

/-- The walk of R512 for item `t`: it goes on after what has been read, or starts at the group of the last map entry at or below
`t`, `back` groups before it. -/
def startWalk (s : State) (p : GatherPurpose) (v t back : Nat) : State :=
  let n := v / 4
  let x := vol s v
  match (decodedOf s v).head?, (decodedOf s v).getLast? with
  | some d, some e =>
    if back = 0 && d.info.firstLbn ≤ t && !reached s v t then
      let i := e.info
      let s := startGather s n p v i.wrap (placeAfter i.wrap i.lpos i.kind) i.group (i.gpos + 1)
      modGather s n fun g => { g with past := [(i.num % 65536, i.kind)] }
    else fresh s n x
  | _, _ => fresh s n x
where
  /-- Start at the map entry. -/
  fresh (s : State) (n : Nat) (x : Vol) : State :=
    let k := (((numbered x.map).filter fun e => e.2.firstLbn ≤ t).getLast?.map (·.1)).getD 0 - back
    let s := dropDecoded s n fun _ => false
    match x.map[k]? with
    | some e => startGather s n p v e.startWrap e.startLpos k 0
    | none => startGather s n p v x.wrap 220000 0 0

/-- The command that a reading serves cannot find its item (R330, R512). -/
def itemsFailed (s : State) (cid : Nat) (code : Code) (ds : Nat) : State :=
  let c := cmd s cid
  let n := (c.vol.getD 0) / 4
  let s := endGather s n
  if cOpc c.bytes = 2 then
    let s := if code = (3, 1) then raise (count s (pFmt n) 15) (pFmt n) 16 c.lbn else s
    complete s cid code (if code.1 = 3 then c.lbn else 0) { dataSet := ds }
  else complete s cid (3, 5) (endResult s cid 3) { dataSet := ds }

/-! ### READ -/

/-- A READ ends (R112, R123, R330). -/
def readEnd (s : State) (cid : Nat) (code : Code) (nextLen : Nat) : State :=
  let c := cmd s cid
  complete s cid (if code = (0, 0) && c.rebuilt then (1, 6) else code) (c.delivered + 2 ^ 32 * nextLen)

/-- Room left in the areas of a scatter list that have been read. -/
def scatterRoom (l : List (Nat × Nat)) : Nat := (l.map (·.2)).foldl (· + ·) 0

/-- Place bytes into the areas, in list order. -/
def scatterPut (s : State) (p : Port) : Nat → List (Nat × Nat) → List Byte → State × List (Nat × Nat)
  | 0, l, _ => (s, l)
  | fuel + 1, l, b =>
    if b.isEmpty then (s, l)
    else match l with
      | [] => (s, [])
      | (a, n) :: r =>
        if n = 0 then scatterPut s p fuel r b
        else
          let k := min n b.length
          scatterPut (emit s (.dmaWrite p a (b.take k))) p fuel ((a + k, n - k) :: r) (b.drop k)

/-- Deliver a record, or ask for more of the scatter list; true when the READ goes on at once (R111, R112). -/
def deliverRecord (s : State) (cid : Nat) (b : List Byte) (rebuilt : Bool) : State × Bool :=
  let c := cmd s cid
  let v := c.vol.getD 0
  if b.length ≤ scatterRoom c.scatter then
    let (s, l) := scatterPut s c.port (c.scatter.length + b.length + 1) c.scatter b
    let s := emit s (.dmaWrite c.port (leAt c.bytes 36 8 + 4 * c.delivered) (leBytes 4 b.length))
    let s := modCmd s cid fun c => { c with scatter := l, delivered := c.delivered + 1, lbn := c.lbn + 1,
                                            rebuilt := c.rebuilt || rebuilt }
    (modVol s v fun x => { x with pos := c.lbn + 1 }, true)
  else if 16 * c.scNext < leAt c.bytes 32 4 then
    (emit (modCmd s cid fun c => { c with phase := .listWait }) (.dmaRead c.port (leAt c.bytes 24 8 + 16 * c.scNext) 16), false)
  else (readEnd (modVol s v fun x => { x with pos := c.lbn }) cid (1, 2) b.length, false)

/-- Numbers of the blocks that block `q` needs decoded before it: the chain from its index 0 (R231). -/
def chainBefore (b : List Byte) (q : Nat) : List Nat :=
  let h := parseHdr b
  if h.inChain then (List.range h.chainIndex).map fun k => q - h.chainIndex + k else []

/-- Outcome of gathering what a record needs. -/
inductive Need where
  | ready
  | wait
  | missing
  | bad (code : Code) (lbn ds : Nat)
  deriving DecidableEq, Repr

/-- Bytes of block `q` of a volume: from the buffer, else from tape; with its first LBN, data set and whether it was rebuilt. A
block that is not compressed yet answers none in the last place. -/
def blockSource (s : State) (v q : Nat) : Option (Option (List Byte) × Nat × Nat × Bool) :=
  match (heldBlks s v).find? fun b => b.q == q with
  | some b => some (if b.phase = .done then some (ramRead s b.slot b.len) else none, b.firstLbn, 0xFFFFFFFF, false)
  | none => ((tapeUnits s v).find? fun u => u.q == q).map fun u => (some u.bytes, u.firstLbn, u.ds, u.rebuilt)

/-- Where the bytes of a block lie in the buffer: its P2 slot, or the P3 frames of its data set (R206, R233). -/
def sourceAreas (s : State) (v q : Nat) : List (Nat × Nat) :=
  match (heldBlks s v).find? fun b => b.q == q with
  | some b => if b.phase = .done then [(b.slot, b.len)] else []
  | none => match (tapeUnits s v).find? fun u => u.q == q with
    | some u => ((decodedOf s v).filter fun d => d.info.num == u.ds).flatMap fun d => d.slots.map fun a => (a, slotSize 3)
    | none => []

/-- The source of a block lies over an uncorrectable word of the buffer. -/
def badSource (s : State) (v q : Nat) : Bool := !s.mem.bad.isEmpty && (sourceAreas s v q).any fun a => anyBad s a.1 a.2

/-- The slice reads a block of the buffer that lies over an uncorrectable word: the fault is counted and logged (R164, R166). -/
def readSource (s : State) (v q : Nat) : State :=
  match (sourceAreas s v q).find? fun a => anyBad s a.1 a.2 with
  | some a => readBad s a.1 a.2 (3 + v / 4)
  | none => s

/-- The slot of a retained block that serves a read hit, which is taken back for it (R191). -/
def serveRetained (s : State) (v q : Nat) : State × Option Nat :=
  match (heldBlks s v).find? fun b => b.q == q with
  | some b =>
    if !b.retained then (s, none)
    else if (slotMeta s b.slot).st = .free then
      let s := takeBack s (v / 4) b.slot
      (modBlk s v q fun c => { c with gen := (slotMeta s b.slot).gen.toNat }, some b.slot)
    else (s, some b.slot)
  | none => (s, none)

/-- A unit for a READ to decode. -/
def addUnit (s : State) (n cid v q : Nat) (b : List Byte) (lbn ds : Nat) (rebuilt skip : Bool) : State :=
  if (slice s n).units.any fun u => u.cid == cid && u.q == q then
    modSlice s n fun x => { x with units := x.units.map fun u =>
      if u.cid = cid && u.q = q then { u with skip := u.skip && skip } else u }
  else
    let (s, slot) := serveRetained s v q
    modSlice s n fun x =>
      { x with unitNext := x.unitNext + 1,
               units := x.units ++ [{ cid := cid, vol := v, id := x.unitNext, q := q, bytes := b, firstLbn := lbn, ds := ds,
                                      rebuilt := rebuilt, skip := skip, took := slot }] }

/-- See that the blocks `qs` are decoded, with the blocks that their chains need (R206, R231). -/
def needBlocks (s : State) (cid v : Nat) : List Nat → Bool → State × Need
  | [], _ => (s, .ready)
  | q :: r, skip =>
    if badSource s v q then (readSource s v q, .bad (4, 1) (((blockSource s v q).map (·.2.1)).getD 0) 0xFFFFFFFF) else
    match blockSource s v q with
    | none => (s, .missing)
    | some (none, _) => (s, .wait)
    | some (some b, lbn, ds, rebuilt) =>
      let s := addUnit s (v / 4) cid v q b lbn ds rebuilt skip
      let mine := match (slice s (v / 4)).units.find? fun u => u.cid == cid && u.q == q with
        | some u => match u.st with
          | .ok => Need.ready
          | .bad cls d ds => .bad (cls, d) u.firstLbn ds
          | _ => .wait
        | none => .wait
      let (s, rest) := needBlocks s cid v r skip
      match mine, rest with
      | .bad c l d, _ => (s, .bad c l d)
      | _, .bad c l d => (s, .bad c l d)
      | _, .missing => (s, .missing)
      | .missing, _ => (s, .missing)
      | .ready, .ready => (s, .ready)
      | _, _ => (s, .wait)

/-- The blocks of a record and of their chains. -/
def withChains (s : State) (v : Nat) (qs : List Nat) : List Nat :=
  (qs.flatMap fun q => match blockSource s v q with
    | some (some b, _) => chainBefore b q
    | _ => []).filter fun q => !qs.contains q

/-- The bytes of record `t` from its decoded blocks. -/
def recordBytes (s : State) (n cid t : Nat) (qs : List Nat) : List Byte :=
  qs.flatMap fun q => match (slice s n).units.find? fun u => u.cid == cid && u.q == q with
    | some u => (unitPieces u.bytes u.firstLbn).flatMap fun p =>
        if p.lbn = t && !p.mark then (u.out.drop p.off).take p.len else []
    | none => []

/-- The label check of the blocks of a record: those in the buffer under the binding they are packed under, those read from tape
under the label of their data set (R258). -/
def recordLabel (s : State) (v t : Nat) (q : Nat) : Option (Code × Nat) :=
  match (heldBlks s v).find? fun b => b.q == q with
  | some b => (labelCheck s v (if b.placed then b.label else bindLabel s b.bind) true).map fun c => (c, 0xFFFFFFFF)
  | none => (holders s v t).findSome? fun d => (labelCheck s v d.info.label (tagOk s d.info d.area)).map fun c => (c, d.info.num)

/-- A READ without its item in the buffer: on tape that has been read and does not hold it, it fails; else it waits for tape. -/
def readMiss (s : State) (cid v t back : Nat) : State × Bool :=
  match (holders s v t).findSome? fun d => (labelCheck s v d.info.label true).map fun c => (c, d.info.num) with
  | some (c, ds) => (itemsFailed s cid c ds, false)
  | none =>
    if back = 0 && reached s v t && !((decodedOf s v).getLast?.any fun d => d ∈ holders s v t) then (itemsFailed s cid (3, 1) 0xFFFFFFFF, false)
    else
      let s := if (cmd s cid).stage < back then endGather s (v / 4) else s
      (needTape (modCmd s cid fun c => { c with stage := back }) cid, false)

/-- One step of a READ: true when it delivered a record and goes on. A port in D3hot issues no DMA (R506). -/
def readOne (s : State) (cid : Nat) : State × Bool :=
  let c := cmd s cid
  let v := c.vol.getD 0
  let n := v / 4
  let t := c.lbn
  if c.phase != .reading || (port s c.port).d3hot then (s, false)
  else if c.delivered = leAt c.bytes 16 4 then (readEnd s cid (0, 0) 0, false)
  else if (vol s v).eod ≤ t then (readEnd s cid (1, 4) 0, false)
  else match locateItem s v t with
    | .mark q => match recordLabel s v t q with
      | some (code, ds) => (complete s cid code 0 { dataSet := ds }, false)
      | none => (readEnd (modVol s v fun x => { x with pos := t + 1 }) cid (1, 1) 0, false)
    | .none => readMiss s cid v t 0
    | .broken q =>
      -- the cluster whose lane decodes the block counts the failure
      let (s, a) := needBlocks s cid v [q] false
      let cl := tFin ((((slice s n).units.find? fun u => u.cid == cid && u.q == q).map (·.cl)).getD 0)
      match a with
      | .bad code lbn ds => (complete s cid code lbn { dataSet := ds }, false)
      | .missing => readMiss s cid v t 0
      | .wait => (s, false)
      | .ready => (complete (raise (count s (.cdc cl) 6) (.cdc cl) 8 t) cid (4, 2) (((blockSource s v q).map (·.2.1)).getD t), false)
    | .record qs =>
      match recordLabel s v t (qs.headD 0) with
      | some (code, ds) => (complete s cid code 0 { dataSet := ds }, false)
      | none =>
        let (s, a) := needBlocks s cid v (withChains s v qs) true
        let (s, b) := needBlocks s cid v qs false
        match a, b with
        | .bad code lbn ds, _ => (complete s cid code lbn { dataSet := ds }, false)
        | _, .bad code lbn ds => (complete s cid code lbn { dataSet := ds }, false)
        | .missing, _ => if (decodedOf s v).isEmpty then readMiss s cid v t 0 else readMiss s cid v t (c.stage + 1)
        | _, .missing => readMiss s cid v t 0
        | .ready, .ready =>
          let rebuilt := (slice s n).units.any fun u => u.cid == cid && qs.contains u.q && u.rebuilt
          deliverRecord s cid (recordBytes s n cid t qs) rebuilt
        | _, _ => (s, false)

/-- Run a READ as far as it goes. -/
def readRun (s : State) (cid : Nat) : Nat → State
  | 0 => s
  | fuel + 1 => match readOne s cid with
    | (s, true) => readRun s cid fuel
    | (s, false) => s

/-! ### LOCATE and SPACE -/

/-- A LOCATE or SPACE without its item: as a READ. -/
def seekMiss (s : State) (cid v t : Nat) : State :=
  if reached s v t then itemsFailed s cid (3, 5) 0xFFFFFFFF else needTape s cid

/-- A LOCATE at work (R113): it reaches its LBN once the item there has been found. -/
def locateRun (s : State) (cid : Nat) : State :=
  let c := cmd s cid
  let v := c.vol.getD 0
  let e := (vol s v).eod
  let t := if leAt c.bytes 36 1 = 1 then e else c.lbn
  let arrive (s : State) (code : Code) : State := complete (modVol s v fun x => { x with pos := t }) cid code t
  if c.phase != .reading then s
  else if e ≤ t then arrive s (1, 4)
  else match locateItem s v t with
    | .none => if reached s v t && (holders s v t).any (fun d => d.info.label != 0) then arrive s (0, 0)
        else seekMiss s cid v t
    | _ => arrive s (0, 0)

/-- One item of a SPACE: true while it goes on (R113). `c.pos` is where it stands, `c.residual` what is left. -/
def spaceOne (s : State) (cid : Nat) : State × Bool :=
  let c := cmd s cid
  let v := c.vol.getD 0
  let back := c.residual < 0
  let stop (s : State) (pos : Nat) (left : Int) (code : Code) : State × Bool :=
    (complete (modVol (modCmd s cid fun c => { c with residual := left }) v fun x => { x with pos := pos }) cid code (signed64 left), false)
  if c.phase != .reading then (s, false)
  else if c.residual = 0 then stop s c.pos 0 (0, 0)
  else if back && c.pos = 0 then stop s 0 c.residual (1, 5)
  else if !back && (vol s v).eod ≤ c.pos then stop s c.pos c.residual (1, 4)
  else
    let t := if back then c.pos - 1 else c.pos
    let next := if back then c.pos - 1 else c.pos + 1
    let left := if back then c.residual + 1 else c.residual - 1
    let marks := leAt c.bytes 36 1 == 1
    match locateItem s v t with
    | .none => (seekMiss s cid v t, false)
    | .mark _ =>
      if marks then (modCmd s cid fun c => { c with pos := next, residual := left }, true) else stop s next left (1, 1)
    | _ => (modCmd s cid fun c => { c with pos := next, residual := if marks then c.residual else left }, true)

/-- Run a SPACE as far as it goes. -/
def spaceRun (s : State) (cid : Nat) : Nat → State
  | 0 => s
  | fuel + 1 => match spaceOne s cid with
    | (s, true) => spaceRun s cid fuel
    | (s, false) => s

/-- A READ, LOCATE or SPACE goes on as far as it can. -/
def itemsRun (s : State) (cid : Nat) : State :=
  let c := cmd s cid
  if cOpc c.bytes = 2 then readRun s cid (leAt c.bytes 16 4 + 1)
  else if cOpc c.bytes = 4 then locateRun s cid
  else if cOpc c.bytes = 5 then spaceRun s cid ((vol s (c.vol.getD 0)).eod + 2)
  else s

/-- The item that a command waiting for tape needs next. -/
def itemWanted (s : State) (cid : Nat) : Nat :=
  let c := cmd s cid
  if cOpc c.bytes = 5 then (if c.residual < 0 then c.pos - 1 else c.pos) else c.lbn

end Sys2Proof.Machine
end

