-- ==== Sys2Proof/Machine/Gather.lean ====
section
/-! DEFINITION. What follows from an attempt to read a data set: the recovery ladder (R328), the ridge rebuild (R329, R292), the
seed of the accumulator (R291), and the walk of R512. -/

namespace Sys2Proof.Machine

/-- The head has passed the first pass of data set `x` on a wrap (R114). Ridge parity has no DSIT: its number is the next one after the
last passed that its codeword headers allow. -/
def headPassed (s : State) (v : Nat) (x : GSet) (wrap : Nat) (info : Option DsitInfo) : State :=
  modVol s v fun y => match info with
    | some i => { y with dsNow := i.num, wrapNow := i.wrap }
    | none => { y with dsNow := y.dsNow + (x.low + 65536 - y.dsNow % 65536) % 65536, wrapNow := wrap }

/-- The reading goes on after data set `x`; the cap of a link on one lane holds or is lifted here (R326). `info` is its DSIT; ridge parity has
none. -/
def gatherNext (s : State) (n : Nat) (x : GSet) (info : Option DsitInfo) : State :=
  let s := headPassed s (slice s n).gather.vol x (slice s n).gather.wrap info
  modGather (modSlice s n fun y => { y with capped := solo s n }) n fun g =>
    let g := { g with past := g.past ++ [(x.low, x.kind)], want := none, attempt := 0, cols := [], wrapTried := false, area := [],
                      seen := g.seen.filter fun y => !(y.low == x.low && y.kind == x.kind) }
    match info with
    | some i => { g with wrap := i.wrap, lpos := placeAfter i.wrap i.lpos i.kind, grp := i.group, idx := i.gpos + 1 }
    | none => { g with lpos := placeAfter g.wrap g.lpos .ridge, grp := if x.prov then g.grp else g.grp + 1,
                       idx := if x.prov then g.idx else 0 }

/-- Skip a data set that was lost: the reading goes on behind it. -/
def gatherSkip (s : State) (n : Nat) : State :=
  modGather s n fun g =>
    let past := match setInTurn g with
      | some x => g.past ++ [(x.low, x.kind)]
      | none => g.past
    { g with past := past, want := none, attempt := 0, cols := [], wrapTried := false,
             lpos := placeAfter g.wrap g.lpos .data, idx := g.idx + 1 }

/-- The next attempt on the data set in turn (R328). -/
def nextAttempt (s : State) (n : Nat) (cols : Tbl (List Byte)) : State :=
  let g := (slice s n).gather
  let want := (setInTurn g).map fun x => (x.low, x.kind)
  let s := count (modGather s n fun g => { g with attempt := g.attempt + 1, cols := cols, want := want }) (pFmt n) 13
  moveGather s n g.wrap g.lpos

/-- Nothing of a further data set was met on this wrap: the reading goes on at the start of the next one (R269, R271). -/
def nextWrap (s : State) (n : Nat) : State :=
  let g := (slice s n).gather
  let s := modGather s n fun g => { g with attempt := 0, cols := [], want := none, wrapTried := true }
  moveGather s n (g.wrap + 1) (placeOf (g.wrap + 1) 0).1

/-! ### Ridge rebuild -/

/-- A data area rebuilt from a ridge group is what was lost: its CRC-64 is correct, and its own tag where one is due (R28, R292). -/
def rebuiltOk (s : State) (v : Nat) (area : List Byte) : Bool :=
  dsitCrcOk area && !dsitBlank area (vol s v).serial && (!tagDue s v (dsitInfo area) || tagOk s (dsitInfo area) area)

/-- A rebuild can be made for group `k` of a volume (R329): its parity on tape, or the accumulator of the open group. -/
def rebuildSource (s : State) (v k : Nat) : Option (Nat × Bool) :=
  let x := vol s v
  match x.map[k]? with
  | none => none
  | some e =>
    if e.parity then some (e.members, false)
    else if k = x.group && x.accumOk && !x.seedDue && 0 < x.gpos then some (x.gpos, true)
    else none

/-- Start a rebuild of the data set in turn: the group is read from its first member (R292, R329). -/
def startRebuild (s : State) (n members : Nat) (accum : Bool) : State :=
  let g := (slice s n).gather
  let x := vol s g.vol
  let lost := (setInTurn g).getD { low := 0x10000, kind := .data }
  let e := x.map.getD g.grp { firstLbn := 0, firstDs := 0, marksBefore := 0, startWrap := g.wrap, startLpos := g.lpos,
                              endWrap := 0, members := 0, endLpos := 0 }
  let r : Rebuild := { low := lost.low, kind := lost.kind, wrap := g.wrap, lpos := g.lpos,
                       acc := if accum then x.accum else zeros areaBytes, members := members, accum := accum, auth := g.area }
  let s := modGather s n fun g => { g with rebuild := some r, attempt := 0, cols := [], want := none, wrapTried := false,
                                           past := [(lost.low, lost.kind)], idx := 0 }
  moveGather s n e.startWrap e.startLpos

/-- A decoded DATA set joins those read for a volume. -/
def addDecoded (s : State) (n v : Nat) (i : DsitInfo) (area : List Byte) (rebuilt : Bool) : State :=
  let (s, slots) := framesFor s n
  modSlice s n fun x => { x with decoded := x.decoded ++ [{ vol := v, info := i, area := area, rebuilt := rebuilt, slots := slots }] }

/-- The READs of a volume that have started and read, or wait for tape. -/
def readsOf (s : State) (v : Nat) : List Nat :=
  liveCmds s fun _ c => c.vol == some v && cOpc c.bytes == 2 && (c.phase == .reading || c.phase == .tape || c.phase == .listWait)

/-- The command of a walk tries again with what has been read; the tape goes on while it or, after it, another READ of the volume needs
more, or reads ahead up to 4 data sets beyond those that the READs need (R327). -/
def walkOn (s : State) (n cid : Nat) : State :=
  let old := (slice s n).gather
  let s := modCmd s cid fun c => { c with phase := .reading }
  let s := itemsRun s cid
  let c := cmd s cid
  let reads := readsOf s old.vol
  let last := (reads.map fun i => (cmd s i).lbn + leAt (cmd s i).bytes 16 4 - (cmd s i).delivered).foldl max 0
  let ahead := ((decodedOf s old.vol).filter fun d => last ≤ d.info.firstLbn).length
  if c.phase = .tape then s
  else match (if c.phase = .ended then reads.head? else if cOpc c.bytes = 2 then some cid else none) with
    | some i =>
      if (cmd s i).phase = .tape || (ahead < 4 && framesLeft s && !((vol s old.vol).tapeEnd ≤ last && reached s old.vol (last - 1))) then
        modGather s n fun g => { g with purpose := .items i }
      else endGather s n
    | none => endGather s n

/-- A data set read for a walk (R512). -/
def walkGot (s : State) (n : Nat) (x : GSet) (area : List Byte) (rebuilt : Bool) : State :=
  let g := (slice s n).gather
  let i := dsitInfo area
  let before := ((decodedOf s g.vol).getLast?.map (·.info.num)).getD 0
  let s := gatherNext s n x (if x.kind = .ridge then none else some i)
  if x.kind = .ridge then s
  else
    let stale := dsitBlank area (vol s g.vol).serial || (!(decodedOf s g.vol).isEmpty && i.num ≤ before)
    match g.purpose with
    | .items cid =>
      if stale then itemsFailed s cid (3, 1) i.num
      else if x.kind != .data then s
      else walkOn (addDecoded s n g.vol i area rebuilt) n cid
    | .overwrite cid =>
      if stale then complete (endGather s n) cid (3, 1) (cmd s cid).lbn { dataSet := i.num }
      else if x.kind != .data then s
      else addDecoded s n g.vol i area rebuilt
    | _ => s

/-- A walk cannot read a data set (R329, R330, R512). A READ that does not wait for it delivers first what lies before it, and the walk only
ends. A truncating command ends as a READ does. -/
def walkLost (s : State) (n : Nat) : State :=
  let g := (slice s n).gather
  let code : Code := if g.area.isEmpty then (3, 1) else (5, 3)
  let ds := if g.area.isEmpty then 0xFFFFFFFF else (dsitInfo g.area).num
  match g.purpose with
  | .items cid => if cOpc (cmd s cid).bytes = 2 && (cmd s cid).phase = .reading then endGather s n else itemsFailed s cid code ds
  | .overwrite cid => complete (endGather s n) cid code (cmd s cid).lbn { dataSet := ds }
  | _ => s

/-- A rebuild fails: the data set is lost, or fails its tag where it could be decoded (R258). -/
def rebuildLost (s : State) (n : Nat) (r : Rebuild) : State :=
  walkLost (modGather s n fun g => { g with rebuild := none, area := r.auth }) n

/-- The rebuild has read what it needs: the data set is checked and takes its place (R329). -/
def finishRebuild (s : State) (n : Nat) (r : Rebuild) : State :=
  let g := (slice s n).gather
  let i := dsitInfo r.acc
  if rebuiltOk s g.vol r.acc then
    let s := raise (count s (pFmt n) 14) (pFmt n) 15 i.num
    let s := modGather s n fun g => { g with rebuild := none }
    let s := moveGather s n r.wrap r.lpos
    walkGot s n { low := i.num % 65536, kind := i.kind } r.acc true
  else rebuildLost s n { r with auth := if dsitCrcOk r.acc then r.acc else r.auth }

/-- A member or the parity of the group is read for a rebuild (R292); a blank data set is no member (R295). -/
def rebuildGot (s : State) (n : Nat) (r : Rebuild) (x : GSet) (area : List Byte) : State :=
  if x.kind != .ridge && dsitBlank area (vol s (slice s n).gather.vol).serial then
    rebuildLost s n r
  else
  let s := gatherNext s n x (if x.kind = .ridge then none else some (dsitInfo area))
  let member := x.kind != .ridge
  let r := { r with acc := xorBytes r.acc area, readSoFar := if member then r.readSoFar + 1 else r.readSoFar,
                    accum := r.accum || !member }
  let s := modGather s n fun g => { g with rebuild := some r }
  if r.accum && r.members ≤ r.readSoFar + 1 then finishRebuild s n r else s

/-! ### Seed -/

/-- The map with a group that keeps no ridge parity: it ends with its last member (R291, R298). -/
def unparity (m : List MapEntry) (g wrap lpos : Nat) : List MapEntry :=
  m.take g ++ ((m.drop g).take 1).map (fun e => { e with parity := false, provisional := false, endWrap := wrap, endLpos := lpos })
    ++ m.drop (g + 1)

/-- The seed fails: the slice starts a new group at the next data set (R291). -/
def seedFailed (s : State) (n v : Nat) : State :=
  let s := endGather s n
  let s := raise (count s (pFmt n) 3) (pFmt n) 8
  modVol s v fun x => { x with group := x.group + 1, gpos := 0, seedDue := false, ridgeDue := none, accum := [], accumOk := true,
                               map := unparity x.map x.group x.memWrap x.memLpos }

/-- The seed is done. -/
def seedDone (s : State) (n v : Nat) (area : List Byte) : State :=
  modVol (endGather s n) v fun x => { x with seedDue := false, accumOk := true, accum := area }

/-- A member of the open group, or its provisional parity, has been read for the seed (R291). -/
def seedTake (s : State) (n v : Nat) (x : GSet) (area : List Byte) : State :=
  let g := (slice s n).gather
  let acc := if g.idx = 0 && g.rebuild.isNone then area else xorBytes ((g.rebuild.map (·.acc)).getD g.area) area
  let k := (vol s v).gpos
  if x.kind = .ridge then
    -- the parity of all members, one of which was lost
    if g.rebuild.isSome && k ≤ g.idx && rebuiltOk s v acc then seedDone s n v area else seedFailed s n v
  else
    let s := gatherNext s n x (some (dsitInfo area))
    let s := modGather s n fun h => { h with area := acc, idx := g.idx + 1, grp := g.grp,
                                             rebuild := g.rebuild.map fun r => { r with acc := acc } }
    if g.rebuild.isNone && k ≤ g.idx + 1 then seedDone s n v acc else s

/-- A member cannot be read for the seed: the provisional parity makes up for one (R291). -/
def seedLost (s : State) (n v : Nat) : State :=
  let g := (slice s n).gather
  let x := vol s v
  match x.map[x.group]? with
  | some e =>
    if e.parity && e.provisional && g.rebuild.isNone && g.idx < x.gpos then
      let acc := if g.idx = 0 then zeros areaBytes else g.area
      let s := gatherSkip s n
      modGather s n fun h => { h with rebuild := some { low := 0, kind := .data, wrap := g.wrap, lpos := g.lpos, acc := acc, members := x.gpos } }
    else seedFailed s n v
  | none => seedFailed s n v

/-- A data set is read for the seed; a blank one is no member (R295). -/
def seedGot (s : State) (n v : Nat) (x : GSet) (area : List Byte) : State :=
  if x.kind != .ridge && dsitBlank area (vol s v).serial then seedLost s n v else seedTake s n v x area

/-! ### Positioning of a reading -/

/-- The command or volume that a reading serves fails after four LOCATE attempts (R362). -/
def gatherUnplaced (s : State) (n : Nat) : State :=
  let g := (slice s n).gather
  match g.purpose with
  | .seed v => haltLocate (endGather s n) v
  | .overwrite _ => haltLocate (endGather s n) g.vol
  | p => match gatherCid p with
    | some cid => complete (endGather s n) cid (3, 5) (endResult s cid 3)
    | none => endGather s n

end Sys2Proof.Machine
end

