-- ==== Sys2Proof/Machine/Truncate.lean ====
section
/-! DEFINITION. What a truncating write-type command does to the data above its LBN (R129, R134, R302): in the buffer, in data
sets that are on their way to tape, and on tape. -/

namespace Sys2Proof.Machine

/-- A block is part of the write stream: it is not yet released by verified data sets. -/
def inStream (b : Blk) : Bool := !b.retained

/-- The piece of a block in which item `t` begins. -/
def beginsIn (b : Blk) (t : Nat) : Option Piece :=
  (piecesOf b.entries b.dlen b.cont b.ends b.firstLbn).find? fun p => p.lbn == t && p.begins

/-- The part of a block before item `t`, which begins at piece `p` (R302): data length, table, ENDS_RECORD. -/
def cutBefore (ps : List Piece) (p : Piece) : Nat × List BEntry × Bool :=
  let before := ps.takeWhile fun x => x.lbn != p.lbn
  let es := before.filterMap fun x =>
    if x.mark then some (x.off, 2) else if x.off + x.len < p.off then some (x.off + x.len, 1) else none
  (p.off, es, before.any fun x => !x.mark && x.off + x.len == p.off)

/-- The history of a chain from decoded blocks: its last 65,536 bytes (R227). -/
def lastHist (l : List Byte) : List Byte := l.drop (l.length - 65536)

/-- Decode the blocks of a chain one after the other from bytes at hand (R231). -/
def decodeChain : List (List Byte) → List Byte → Option (List Byte)
  | [], _ => none
  | [b], h => match decodeBlock h b with
    | .ok d => some d
    | _ => none
  | b :: r, h => match decodeBlock h b with
    | .ok d => decodeChain r (lastHist (h ++ d))
    | _ => none

/-- The data of block `q` of a volume, decoded from where its bytes lie (R302): none where a block it needs is not at hand. -/
def blockData (s : State) (v q : Nat) : Option (List Byte) :=
  match blockSource s v q with
  | some (some b, _) =>
    match (chainBefore b q).mapM fun k => match blockSource s v k with
      | some (some c, _) => some c
      | _ => none with
    | some l => decodeChain (l ++ [b]) []
    | none => none
  | _ => none

/-- The bytes a block that is not compressed yet is made from. -/
def rawData (s : State) (v : Nat) (b : Blk) : List Byte :=
  if !b.input.isEmpty then b.input
  else match (vol s v).segs.find? fun g => g.cid == b.cid && g.no == b.segNo with
    | some g => segRead s g b.start b.dlen
    | none => []

/-- The data of a block of the write stream. -/
def streamData (s : State) (v : Nat) (b : Blk) : List Byte :=
  if b.phase = .done then (blockData s v b.q).getD [] else rawData s v b

/-- A block that a lane has is kept for it with its input (R234). -/
def doom (s : State) (v : Nat) (b : Blk) : State :=
  if b.phase = .lane then modSlice s (v / 4) fun x => { x with doomed := x.doomed ++ [{ b with input := rawData s v b }] } else s

/-- Remove the blocks of the write stream from number `q` on. -/
def removeFrom (s : State) (v q : Nat) : State :=
  ((vol s v).blks.filter fun b => q ≤ b.q).foldl (fun s b => removeBlk (doom s v b) v b) s

/-- Segments with nothing below LBN `t` are removed; one that is not cut yet loses its records from `t` on (R129, R140). -/
def trimSegs (s : State) (v t : Nat) : State :=
  let s := ((vol s v).segs.filter fun g => g.phase == .buffered && t ≤ g.firstLbn && t < g.endLbn).foldl dropSeg s
  modVol s v fun x => { x with segs := x.segs.map fun g =>
    if g.phase = .buffered && !g.cut && g.firstLbn ≤ t && t < g.endLbn then
      let k := t - g.firstLbn
      if 0 < g.marks then { g with marks := k, endLbn := t, eodAfter := t }
      else { g with recs := g.recs.take k, len := (g.recs.take k).foldl (· + ·) 0, endLbn := t, eodAfter := t }
    else { g with eodAfter := min g.eodAfter t } }

/-- The block that takes the place of a cut one: the items before `t` that lie in it, cut again under the volume's parameters,
with a new number and a new chain (R302, R228). -/
def recut (s : State) (v : Nat) (lbn t : Nat) (cont : Bool) (ps : List Piece) (p : Piece) (data : List Byte) (bind : Binding)
    (cid seg segNo : Nat) (rejects : List Nat := []) : State :=
  let (n, es, ends) := cutBefore ps p
  if n = 0 && es.isEmpty then s
  else
    let x := vol s v
    let b : Blk := { q := x.blkNext, vol := v, cid := cid, seg := seg, segNo := segNo, start := 0, dlen := n, entries := es, cont := cont,
                     ends := ends, firstLbn := lbn, nextLbn := t,
                     par := if n = 0 then { method := 0, level := 0 } else x.par, chainBreak := true, bind := bind,
                     input := data.take n, ptRejects := rejects.filter (· < t) }
    raiseSeq (modVol s v fun x => { x with blks := x.blks ++ [b], blkNext := x.blkNext + 1 }) v (x.blkNext + 1)

/-- An open data set that holds what a data set held before the unit at `off` (R302): `items` and `marks` count what ends
there. -/
def reopened (v : Nat) (bind : Binding) (payload : List Byte) (off : Nat) (contd : Bool) (unitAt : List (Nat × Nat))
    (firstLbn items marks marksBefore endLbn : Nat) (blocks : List Nat) (firstUnit firstSeq : Nat) : OpenDs :=
  let us := unitAt.filter fun u => u.2 < off
  { vol := v, payload := payload.take off, bind := bind, contd := contd, units := us.length,
    firstUnit := if us.isEmpty then 0 else firstUnit, firstSeq := if us.isEmpty then 0 else firstSeq, firstLbn := firstLbn,
    ends := items - marks, marks := marks, marksBefore := marksBefore, endLbn := endLbn, slots := blocks.length,
    blocks := blocks, unitAt := us }

/-- Filemarks among the blocks of a list. -/
def marksIn (x : Vol) (qs : List Nat) : Nat :=
  ((x.blks.filter fun b => qs.contains b.q).map fun b => ((blkItems b).filter (·.1 == 2)).length).foldl (· + ·) 0

/-- After a truncation at `t`: nothing above it is on tape, and a new chain starts. `low` is the LBN from which data is no longer
in Verified data sets. -/
def afterCut (s : State) (v t low : Nat) : State :=
  modVol s v fun x =>
    { x with eod := t, bufEnd := min x.bufEnd t, tapeEnd := min x.tapeEnd low, comEnd := min x.comEnd low,
             mapEnd := min x.mapEnd t, placedEod := min x.placedEod t, chainBreak := true, ending := false }

/-- The placed blocks after a cut: packed up to the last that is left. -/
def repack (s : State) (v : Nat) : State :=
  modVol s v fun x => { x with packed := match x.blks.find? fun b => !b.placed && !b.retained with
    | some b => b.q
    | none => x.blkNext }

/-- Truncate at item `t`, which begins in a block of the write stream (R134, R302). -/
def truncStream (s : State) (v t : Nat) (b : Blk) (p : Piece) : State :=
  let n := v / 4
  let ps := piecesOf b.entries b.dlen b.cont b.ends b.firstLbn
  let data := if p.off = 0 then [] else streamData s v b
  let cutTo (s : State) (bind : Binding) : State :=
    let s := removeFrom s v b.q
    repack (recut s v b.firstLbn t b.cont ps p data bind b.cid b.seg b.segNo (if b.phase = .done then [] else b.ptRejects)) v
  if !b.placed then afterCut (cutTo s b.bind) v t t
  else
    let inOpen := (openOf s v).bind fun o => (o.unitAt.find? fun u => u.1 == b.q).map fun u => (o, u.2)
    match inOpen with
    | some (o, off) =>
      let blocks := o.blocks.takeWhile (· != b.q)
      let m := marksIn (vol s v) blocks
      let o' := reopened v o.bind o.payload off o.contd o.unitAt o.firstLbn (b.firstLbn - o.firstLbn) m o.marksBefore b.firstLbn
        blocks o.firstUnit o.firstSeq
      let s := setOpen s v (if off = 0 then none else some o')
      let s := modVol s v fun x => { x with placedMarks := o.marksBefore + m }
      afterCut (cutTo s o.bind) v t t
    | none =>
      match (setsOf s v).find? fun d => d.kind == .data && d.unitAt.any fun u => u.1 == b.q with
      | none => afterCut (cutTo s b.bind) v t t
      | some d =>
        let off := ((d.unitAt.find? fun u => u.1 == b.q).map (·.2)).getD 0
        let gone := ((setsOf s v).dropWhile (·.id != d.id)).map (·.id)
        let blocks := d.blocks.takeWhile (· != b.q)
        let m := marksIn (vol s v) blocks
        let bind := match d.cipherSlot with
          | some k => Binding.slot k
          | none => .clear
        let o := reopened v bind d.payload off d.contd d.unitAt d.firstLbn (b.firstLbn - d.firstLbn) m d.marksBefore b.firstLbn
          blocks d.firstUnit d.firstSeq
        let s := dropSets s v fun e => gone.contains e.id
        let s := modVol s v fun x => { x with blks := x.blks.map fun c => { c with inSets := c.inSets.filter fun i => !gone.contains i } }
        let s := setOpen s v (if off = 0 then none else some o)
        let s := if d.area.isEmpty then modVol s v fun x => { x with placedMarks := d.marksBefore + m }
          else
            let (nom, phys) := tget (vol s v).log d.num ((vol s v).nominal, (vol s v).physical)
            let (l, u) := placeOf d.wrap phys
            let pt : AppendPt := { wrap := d.wrap, nominal := nom, physical := phys, lpos := l, um := u, group := d.group, gpos := d.gpos,
                                   memWrap := d.wrap, memLpos := d.lpos, marks := d.marksBefore + m }
            let s := modVol (goBack s v pt) v fun x => { x with ret := if laterPt x.ret pt then x.ret else pt, moved := true }
            modSlice s n fun y => { y with stopNow := y.stopNow || (y.inBurst && y.curVol == some v) }
        let s := afterCut (cutTo s bind) v t (if d.area.isEmpty then t else d.firstLbn)
        repack s v

/-- Truncate at item `t` in a decoded data set that lies on tape (R302). -/
def truncTape (s : State) (v t : Nat) (d : Decoded) (u : TapeUnit) (p : Piece) (bind : Binding) (data : List Byte) : State :=
  let i := d.info
  let us := setUnits s d []
  let prefixUnits := (tapeUnits s v).filter fun w => w.ds == i.num && w.q < u.q
  let count (l : List TapeUnit) (k : Nat) : Nat :=
    (l.map fun w => ((itemsOf (parseTable w.bytes (parseHdr w.bytes).entries) (parseHdr w.bytes).dlen (parseHdr w.bytes).ends).filter
      fun e => e.1 == k).length).foldl (· + ·) 0
  let whole := unitsGo s v i.label (d.area.take i.used) i.units i.firstUnit i.firstSeq
  let lens := whole.map fun w => (w.1, w.2.1)
  -- a unit that runs on into the next data set begins where the last whole one ends
  let off := ((lens.find? fun w => w.1 == u.q).map (·.2)).getD ((whole.getLast?.map fun w => w.2.1 + w.2.2).getD i.firstUnit)
  let own := us.filter fun w => lens.any fun l => l.1 == w.q
  let m := (i.marks - count own 2) + count prefixUnits 2
  let unitAt := (prefixUnits.filterMap fun w => (lens.find? fun l => l.1 == w.q))
  let o := reopened v bind d.area off i.contd unitAt i.firstLbn (u.firstLbn - i.firstLbn) m i.marksBefore u.firstLbn [] i.firstUnit i.firstSeq
  let s := (vol s v).segs.foldl (fun s g => if g.phase = .buffered then dropSeg s g else s) s
  let s := ((vol s v).blks.filter fun b => inStream b || t < b.nextLbn).foldl (fun s b => removeBlk (doom s v b) v b) s
  let s := setOpen (dropSets s v fun _ => true) v (if off = 0 then none else some o)
  let phys := ((vol s v).log.find? fun e => e.1 == i.num).map (·.2)
  let (nom, phys) := phys.getD (lenOf i.wrap i.lpos 0, lenOf i.wrap i.lpos 0)
  let (l, um) := placeOf i.wrap phys
  let pt : AppendPt := { wrap := i.wrap, nominal := nom, physical := phys, lpos := l, um := um, group := i.group, gpos := i.gpos,
                         memWrap := i.wrap, memLpos := i.lpos, marks := i.marksBefore + m }
  let s := modVol (goBack s v pt) v fun x => { x with ret := pt, moved := true }
  let s := modSlice (dropDecoded s (v / 4) fun _ => false) (v / 4) fun y =>
    { y with stopNow := y.stopNow || (y.inBurst && y.curVol == some v) }
  let h := parseHdr u.bytes
  let s := recut s v u.firstLbn t h.cont (unitPieces u.bytes u.firstLbn) p data bind 0 0 0x10000
  afterCut (repack s v) v t i.firstLbn

/-- A truncation that cuts a block anew at piece `p` needs a block number that the record does not allow yet (R275). -/
def seqSpent (s : State) (v : Nat) (ps : List Piece) (p : Piece) : Bool :=
  let c := cutBefore ps p
  !(c.1 == 0 && c.2.1.isEmpty) && seqReserved s v ≤ (vol s v).blkNext

/-- What a truncation needs first. -/
inductive Trunc where
  | done (s : State)
  | wait (s : State)
  | fail (code : Code) (ds : Nat)

/-- The binding under which a data set on tape was written (R302): none where no COMMITTED slot carries its label. -/
def bindOfLabel (s : State) (label : Nat) : Option Binding :=
  if label = 0 then some .clear else (slotOfLabel s label).map Binding.slot

/-- Truncate a volume at LBN `t`, below its end of data (R134, R302). Where the data set that holds `t` has to be read from tape
first, the command waits. -/
def truncateAt (s : State) (cid v t : Nat) : Trunc :=
  let x := vol s v
  let stream := x.blks.filter inStream
  let top := (stream.getLast?.map (·.nextLbn)).getD x.tapeEnd
  if top ≤ t then .done (afterCut (trimSegs s v t) v t t)
  else match stream.find? fun b => (beginsIn b t).isSome with
    | some b =>
      if b.placed && (openOf s v).all (fun o => !o.unitAt.any fun u => u.1 == b.q)
          && (setsOf s v).any (fun d => d.unitAt.any (fun u => u.1 == b.q) && d.label != 0 && bindOfLabel s d.label != d.cipherSlot.map Binding.slot)
        then .fail (5, 4) 0xFFFFFFFF
      else match beginsIn b t with
        | some p => if seqSpent s v (piecesOf b.entries b.dlen b.cont b.ends b.firstLbn) p then
            .wait (needTape (raiseSeq s v (vol s v).blkNext) cid)
          else .done (truncStream (trimSegs s v t) v t b p)
        | none => .done s
    | none =>
      let us := tapeUnits s v
      let here := (tapePieces s v).filterMap fun u => if u.2.any fun p => p.lbn == t && p.begins then some u.1 else none
      match us.find? fun u => here.contains u.q && (unitPieces u.bytes u.firstLbn).any fun p => p.lbn == t && p.begins with
      | none => if reached s v t && (holders s v t).any (fun d => d.info.label != 0 && (slotOfLabel s d.info.label).isNone)
          then .fail (5, 4) 0xFFFFFFFF
        else if reached s v t then .fail (3, 1) 0xFFFFFFFF
        else .wait (needTape s cid)
      | some u =>
        match bindOfLabel s u.label, (unitPieces u.bytes u.firstLbn).find? fun p => p.lbn == t && p.begins,
            (decodedOf s v).find? fun d => d.info.num == u.ds with
        | none, _, _ => .fail (5, 4) u.ds
        | some bind, some p, some d =>
          if seqSpent s v (unitPieces u.bytes u.firstLbn) p then .wait (needTape (raiseSeq s v (vol s v).blkNext) cid)
          else if p.off = 0 then .done (truncTape s v t d u p bind [])
          else match blockData s v u.q with
            | some data => .done (truncTape s v t d u p bind data)
            | none => .wait (needTape (modCmd (endGather s (v / 4)) cid fun c => { c with stage := c.stage + 1 }) cid)
        | _, _, _ => .wait (needTape s cid)

end Sys2Proof.Machine
end

