-- ==== Sys2Proof/Machine/Mount.lean ====
section
/-! DEFINITION. MOUNT: threading, the cartridge record, the last map and its base, the scan of an open map, the search of a
cartridge without a record (R115, R141, R142, R249, R255, R273 to R276, R300, R361, R510). -/

namespace Sys2Proof.Machine

/-- A command that works on a whole cartridge, and started earlier, is still at work on the transport. -/
def workBefore (s : State) (n cid : Nat) : Bool :=
  s.cmds.any fun c => c.1 < cid && c.2.phase == .tape && c.2.vol.map (· / 4) == some n
    && [8, 9, 0xA].contains (cOpc c.2.bytes)

/-- Change the progress of a MOUNT. -/
def modSearch (s : State) (n : Nat) (f : SearchSt → SearchSt) : State := modSlice s n fun x => { x with search := f x.search }

/-- Go on to a stage. -/
def toStage (s : State) (cid k : Nat) : State := modCmd s cid fun c => { c with stage := k }

/-- A MOUNT or FORMAT ends without a mounted volume. -/
def mountFail (s : State) (n cid : Nat) (code : Code) : State :=
  let s := unmountVol (endGather s n) ((cmd s cid).vol.getD 0)
  complete s cid code (endResult s cid code.1)

/-- Thread the tape where it is not threaded, calibrate where it is (R361); a MOUNT or FORMAT without a cartridge, or in SERVICE,
ends (R364). -/
def threadFor (s : State) (n cid : Nat) : State :=
  let l := link s n
  let go (code : Nat) : State := toStage (ctrlSend s n code [] (some cid)) cid 1
  match l.mode with
  | .empty => mountFail s n cid (7, 3)
  | .service => mountFail s n cid (7, 4)
  | .loaded => go (if l.threaded then 0x11 else 0x10)
  | .ready => if atRest s n then go 0x11 else s
  | _ => s

/-- The transport has begun what stage 1 asked of it. -/
def threadBegun (s : State) (n cid : Nat) : State :=
  match (link s n).mode with
  | .threading => toStage s cid 2
  | .calibrating => toStage s cid 2
  | _ => s

/-- Once the transport is READY, the record is read (R273). -/
def threadDone (s : State) (n cid : Nat) : State :=
  if (link s n).mode = .ready then toStage (readRecord s n) cid 3 else s

/-! ### The map -/

/-- What a map entry needs to know of a data set. -/
def asSet (i : DsitInfo) : DataSet :=
  { id := 0, kind := i.kind, vol := i.partition, num := i.num, firstLbn := i.firstLbn, marksBefore := i.marksBefore,
    group := i.group, gpos := i.gpos, wrap := i.wrap, lpos := i.lpos }

/-- The map with a data set that was read. -/
def noteSet (m : List MapEntry) (i : DsitInfo) : List MapEntry := mapWith m (asSet i) false

/-- The map with a parity that was read, behind the members of group `g`. -/
def noteParity (m : List MapEntry) (g : Nat) (prov : Bool) (wrap lpos : Nat) : List MapEntry :=
  m.take g ++ ((m.drop g).take 1).map fun e => { e with parity := true, provisional := prov, endWrap := wrap, endLpos := lpos }

/-- Filemarks before the end of data that a scan leaves: those of the last data set accepted, less those of items beyond; where
the units cannot be decrypted, a free value. -/
def scanMarks (s : State) (v : Nat) (i : DsitInfo) (eod : Nat) : Nat :=
  let ds := decodedOf s v
  let top := match ds.getLast? with
    | some d => d.info.firstLbn + d.info.ends + d.info.marks
    | none => eod
  if top ≤ eod then i.marksBefore + i.marks
  else if ds.any fun d => d.info.label != 0 && (slotOfLabel s d.info.label).isNone then freeVal s % (i.marksBefore + i.marks + 1)
  else
    let first := (ds.head?.map (·.info.marksBefore)).getD 0
    first + ((runUnits s ds).map fun u => ((unitPieces u.bytes u.firstLbn).filter fun p => p.mark && p.lbn < eod).length).foldl (· + ·) 0

/-- Place a volume behind the last data set that its MOUNT accepted. The nominal length of the wrap is taken as the physical
one. -/
def placeVol (s : State) (n v : Nat) (i : DsitInfo) : State :=
  let y := (slice s n).search
  let h := y.hdr.getD { clean := false, full := true, index := 0, cnt := 1, eod := 0, hzn := 0, nextSeq := 0, total := 0, first := 0,
                        entries := 0, baseDs := 0, baseWrap := 0, baseLpos := 0 }
  let phys := lenOf i.wrap i.lpos 0 + nominalLen i.kind + (if y.closed then nominalLen .ridge else 0)
  let (l, u) := placeOf i.wrap phys
  let whole := y.closed
  let marks := scanMarks s v i y.eod
  let p : AppendPt := { wrap := i.wrap, nominal := phys, physical := phys, lpos := l, um := u, group := if whole then i.group + 1 else i.group,
                        gpos := if whole then 0 else i.gpos + 1, memWrap := i.wrap, memLpos := i.lpos, marks := marks }
  let s := modVol s v fun x =>
    { x with pos := 0, eod := y.eod, bufEnd := y.eod, tapeEnd := y.eod, comEnd := y.eod, mapEnd := h.eod, segNext := y.hzn, placed := y.hzn,
             placedEod := y.eod, placedMarks := marks, hzn := y.hzn, mapped := h.hzn, dsNow := i.num, wrapNow := i.wrap,
             group := p.group, gpos := p.gpos, seedDue := decide (0 < p.gpos),
             ridgeDue := if p.gpos = 16 then some false else none, accum := [], accumOk := true,
             map := y.form, mapChanged := if h.full then h.total - 1 else h.first,
             base := some (h.baseDs, h.baseWrap, h.baseLpos), baseAt := y.baseAt, mapClean := false, wrap := p.wrap,
             nominal := phys, physical := phys, endLpos := l, endUm := u, moved := true, ret := p, memWrap := i.wrap,
             memLpos := i.lpos, log := [], chainBreak := true }
  nextFree s

/-- Bindings and coding parameters that a MOUNT gives a volume (R249, R200). -/
def defaultParams (s : State) (v : Nat) : State :=
  let n := v / 4
  let d := field s (pCiph n) 0x044 (8 * (v % 4)) 8
  let b : Binding := if d = 0xFF then .clear else if d < 128 && (keySlot s d).st == .committed then .slot d else .lost
  let cd : PageId := .cdc (tFin n)
  modVol s v fun x =>
    { x with bind := b, par := { method := field s cd 0x044 0 4, level := field s cd 0x048 0 4, linked := field s cd 0x044 8 1 == 1,
                                 dynamic := field s cd 0x044 9 1 == 1, hint := BitVec.ofNat 16 (field s cd 0x04C 0 16),
                                 stride := field s cd 0x04C 16 16 } }

/-- The MOUNT may write to the cartridge (R141). -/
def mountWrites (s : State) (n cid : Nat) : Bool :=
  !((cmd s cid).bytes.getD 36 0).getLsbD 0 && !(link s n).wprot && !(slice s n).recUnwritable

/-- The volume is mounted at LBN 0 (R115). -/
def mountDone (s : State) (n cid : Nat) : State :=
  let v := (cmd s cid).vol.getD 0
  let ro := ((cmd s cid).bytes.getD 36 0).getLsbD 0 || (slice s n).recUnwritable
  let s := modSlice (dropDecoded s n fun d => d.vol != v) n fun x => { x with want := { x.want with cmFailed := x.recUnwritable } }
  let s := defaultParams (modVol s v fun x => { x with mounted := true, readOnly := ro, pos := 0 }) v
  complete s cid (0, 0) (vol s v).eod

/-- Some partition is DIRTY in the record. -/
def anyDirty (r : CartRec) : Bool := (r.parts.take r.table.length).any (·.dirty)

/-- The record that a MOUNT raises before the first write: numbers, and for a scan also sequences and DIRTY (R274, R275). A record
that a search has made is raised already. -/
def raiseRecord (s : State) (n p : Nat) (scan : Bool) : State :=
  let old := (slice s n).want
  if (slice s n).search.searched then modSlice s n fun x => { x with recWant := true }
  else if anyDirty old || scan then
    let s := modSlice s n fun x => { x with dsNext := if anyDirty old then old.dsReserved else old.dsNext }
    wantRec s n fun r =>
      let r := { r with dsReserved := r.dsReserved + 65536 }
      if scan then recPart r p fun e => { e with dirty := true, seqReserved := e.seqReserved + 2 ^ 32 } else r
  else modSlice s n fun x => { x with dsNext := old.dsNext }

/-- A clean map: the volume is mounted as the map gives it (R255, R275, R510). The parity that follows the map, provisional or that of a
full group, is on tape (R290); a record that has to be raised first is written first (R274). -/
def mountClean (s : State) (n cid : Nat) (h : MapHdr) (i : DsitInfo) : State :=
  let v := (cmd s cid).vol.getD 0
  let s := modSearch s n fun y => { y with closed := i.gpos == 15,
                                           form := noteParity y.form i.group (i.gpos != 15) i.wrap (placeAfter i.wrap i.lpos .map) }
  let s := placeVol (endGather s n) n v i
  let s := modVol s v fun x => { x with blkNext := h.nextSeq, packed := h.nextSeq, mapClean := true }
  let s := if h.nextSeq < 2 ^ 63 then s else raise s (pCiph n) 10 v
  let s := if mountWrites s n cid then raiseRecord s n (v % 4) false else s
  if (slice s n).recWant then toStage s cid 7 else mountDone s n cid

/-- The scan ends (R141, R142): the entry, the new end of data, and what it has to write. -/
def scanEnd (s : State) (n cid : Nat) : State :=
  let v := (cmd s cid).vol.getD 0
  let y := (slice s n).search
  let s := endGather s n
  match y.last with
  | none => mountFail s n cid (3, 4)
  | some i =>
    let beyond := match (decodedOf s v).getLast? with
      | some d => d.info.continues || y.eod < d.info.firstLbn + d.info.ends + d.info.marks
      | none => false
    -- blocks do not tell their segment, so the number of segments removed (R141) is open where data lies beyond the horizon
    let gone := if beyond then 1 + freeVal s % 0xFFFFFFFF else 0
    let s := logMgmt (nextFree s) 0x0583 1 0x3F y.old y.eod gone (volWord v)
    let s := placeVol s n v i
    let q := ((slice s n).want.parts.getD (v % 4) {}).seqReserved
    let q := if y.searched then q - 2 ^ 32 else q
    let s := modVol s v fun x => { x with blkNext := q, packed := q }
    let s := if q < 2 ^ 63 then s else raise s (pCiph n) 10 v
    if mountWrites s n cid then toStage (raiseRecord s n (v % 4) true) cid 5 else mountDone s n cid

/-! ### The search -/

/-- Place of the start of a wrap (R268). -/
def wrapStart (w : Nat) : Nat := (placeOf w 0).1

/-- Look for a HEADER at the start of a wrap. -/
def lookHeader (s : State) (n cid w : Nat) : State :=
  if 200 ≤ w then mountFail s n cid (3, 4)
  else startGather s n (.header cid) ((cmd s cid).vol.getD 0) w (wrapStart w) 0 0

/-- Search the cartridge (R274, R300); a second search finds no more than the first. -/
def startSearch (s : State) (n cid : Nat) : State :=
  if (slice s n).search.searched then mountFail s n cid (3, 4)
  else lookHeader (modSearch s n fun _ => { searched := true }) n cid 0

/-- The last map of a partition, where the record or the search gives one, is read from its place (R300). -/
def readLastMap (s : State) (n cid num wrap lpos : Nat) : State :=
  let s := startGather s n (.lastMap cid) ((cmd s cid).vol.getD 0) wrap lpos 0 0
  modGather s n fun g => { g with want := some (num % 65536, .map) }

/-- The record that a search stands for (R274): numbers, every partition DIRTY, the maps found, SEQ_RESERVED (R275). -/
def searchRecord (y : SearchSt) : CartRec × Nat :=
  let top := (y.found.filterMap (·.1)).foldl max 0
  let next := top + 65536
  ({ seq := 0, dsReserved := next + 65536, dsNext := 0, table := y.table,
     parts := (List.range 4).map fun k =>
       match y.found[k]? with
       | some (_, q, m) =>
         let m := m.getD {}
         { serial := y.serials.getD k 0, dirty := true, lastDs := m.num, lastWrap := m.wrap, lastLpos := m.lpos, eod := m.eod,
           nextSeq := m.nextSeq, seqReserved := q + 2 ^ 43 + 2 ^ 32 }
       | none => {} }, next)

/-- Every partition has been searched. -/
def searchDone (s : State) (n cid : Nat) : State :=
  let v := (cmd s cid).vol.getD 0
  let y := (slice s n).search
  let (r, next) := searchRecord y
  let s := modSlice s n fun x => { x with want := r, dsNext := next }
  if y.table.length ≤ v % 4 then mountFail s n cid (3, 4)
  else match (y.found.getD (v % 4) (none, 0, none)).2.2 with
    | none => mountFail s n cid (3, 4)
    | some m => readLastMap (modVol s v fun x => { x with serial := y.serials.getD (v % 4) 0 }) n cid m.num m.wrap m.lpos

/-- Search partition `k` from its start. -/
def searchPart (s : State) (n cid k : Nat) : State :=
  let y := (slice s n).search
  if y.table.length ≤ k then searchDone s n cid
  else
    let w := (y.table.getD k (0, 0)).1
    startGather (modSearch s n fun y => { y with part := k, high := none, nextSeq := 0, lastMap := none }) n (.search cid) (4 * n + k) w
      (wrapStart w) 0 0

/-- The end of a partition is found. -/
def partEnd (s : State) (n cid : Nat) : State :=
  let y := (slice s n).search
  searchPart (modSearch s n fun y => { y with found := y.found ++ [(y.high, y.nextSeq, y.lastMap)] }) n cid (y.part + 1)

/-- A HEADER as read: table and serials (R272); none where the data set is no HEADER of this place. -/
def headerAt (area : List Byte) (w : Nat) : Option (List (Nat × Nat) × List Nat) :=
  let i := dsitInfo area
  let n := leAt area 4 1
  let k := leAt area 5 1
  let t := (List.range n).map fun k => (leAt area (6 + 2 * k) 1, leAt area (7 + 2 * k) 1)
  if dsitBlank area (leAt area (payloadBytes + 24) 6) || i.kind != .header || leAt area 0 4 != 0x48465252 || n = 0 || 4 < n || n ≤ k
      || (t.getD k (0, 0)).1 != w then none
  else some (t, (List.range n).map fun k => leAt area (14 + 6 * k) 6)

/-- Check the HEADERs of the partitions from `k` on. -/
def checkHeaders (s : State) (n cid k : Nat) : State :=
  let y := (slice s n).search
  if y.table.length ≤ k then searchPart s n cid 0
  else lookHeader (modSearch s n fun y => { y with part := k }) n cid (y.table.getD k (0, 0)).1

/-- The first data set of a wrap is read for a HEADER, or cannot be read (R274): the first HEADER found gives the table, and every
partition's HEADER that can be read must agree with it. -/
def gotHeader (s : State) (n cid : Nat) (area : Option (List Byte)) : State :=
  let y := (slice s n).search
  let w := (slice s n).gather.wrap
  let s := endGather s n
  match area.bind fun a => headerAt a w with
  | some (t, ss) =>
    if y.table.isEmpty then checkHeaders (modSearch s n fun y => { y with table := t, serials := ss, cand := w }) n cid 0
    else if y.table = t && y.serials = ss then checkHeaders s n cid (y.part + 1)
    else lookHeader (modSearch s n fun y => { y with table := [], serials := [], cand := y.cand + 1 }) n cid (y.cand + 1)
  | none =>
    if y.table.isEmpty then lookHeader (modSearch s n fun y => { y with cand := w + 1 }) n cid (w + 1)
    else checkHeaders s n cid (y.part + 1)

/-- A data set of the partition in turn is read by a search. -/
def gotSearch (s : State) (n cid : Nat) (x : GSet) (area : List Byte) : State :=
  let y := (slice s n).search
  if x.kind = .ridge then gatherNext s n x none
  else
    let i := dsitInfo area
    if dsitBlank area (y.serials.getD y.part 0) || (y.high.any fun k => i.num ≤ k) then partEnd (endGather s n) n cid
    else
      let m : Option MapAt := if i.kind = .map then
          (readMapHdr area).bind fun h => if h.index + 1 = h.cnt then
            some { num := i.num, wrap := i.wrap, lpos := i.lpos, eod := h.eod, nextSeq := h.nextSeq } else none
        else none
      let s := modSearch s n fun y => { y with high := some i.num, nextSeq := max y.nextSeq i.nextSeq,
                                               lastMap := if m.isSome then m else y.lastMap }
      gatherNext s n x (some i)

/-! ### Reading the map and scanning -/

/-- The map is formed: a clean one of a partition that is not DIRTY is done, else the scan begins after it (R141, R276). -/
def mapFormed (s : State) (n cid : Nat) : State :=
  let v := (cmd s cid).vol.getD 0
  let y := (slice s n).search
  match y.hdr, y.sets.getLast? with
  | some h, some i =>
    let s := modSearch s n fun y => { y with form := y.sets.foldl noteSet y.form, last := some i, closed := false, hzn := h.hzn,
                                             eod := h.eod, old := h.eod }
    let dirty := y.searched || ((slice s n).want.parts.getD (v % 4) {}).dirty
    if h.clean && !dirty then mountClean s n cid h i
    else
      let s := startGather s n (.scan cid) v i.wrap (placeAfter i.wrap i.lpos .map) i.group (i.gpos + 1)
      modGather s n fun g => { g with past := [(i.num % 65536, i.kind)] }
  | _, _ => startSearch s n cid

/-- The last map's last data set is read (R299, R300): a full map in one data set is the map, else its base is read. -/
def gotLastMap (s : State) (n cid : Nat) (area : List Byte) : State :=
  let v := (cmd s cid).vol.getD 0
  let i := dsitInfo area
  let s := endGather s n
  let h := if dsitBlank area (vol s v).serial || i.kind != .map then none else readMapHdr area
  match h, h.bind (readMapEntries area) with
  | some h, some es =>
    let s := modSearch s n fun y => { y with hdr := some h, ents := es, form := [], sets := [] }
    if h.full && h.cnt ≤ 1 then
      mapFormed (modSearch s n fun y => { y with form := applyMap [] h es, sets := [i], baseAt := 16 * i.group + i.gpos }) n cid
    else
      let s := modSearch s n fun y => { y with sets := if h.full then [] else [i] }
      let s := startGather s n (.baseMap cid) v h.baseWrap h.baseLpos 0 0
      modGather s n fun g => { g with want := some (h.baseDs % 65536, .map) }
  | _, _ => startSearch s n cid

/-- A data set of the base map is read (R299). -/
def gotBaseMap (s : State) (n cid : Nat) (x : GSet) (area : List Byte) : State :=
  let v := (cmd s cid).vol.getD 0
  let y := (slice s n).search
  if x.kind = .ridge then gatherNext s n x none
  else
    let i := dsitInfo area
    let h := if dsitBlank area (vol s v).serial || i.kind != .map then none else readMapHdr area
    match y.hdr, h, h.bind (readMapEntries area) with
    | some m, some h, some es =>
      if !h.full || h.baseDs != m.baseDs || (h.index = 0 && i.num != m.baseDs) then startSearch (endGather s n) n cid
      else
        let s := modSearch s n fun y => { y with form := applyMap y.form h es,
                                                 baseAt := if h.index = 0 then 16 * i.group + i.gpos else y.baseAt,
                                                 sets := if m.full then y.sets ++ [i] else y.sets }
        if h.index + 1 < h.cnt then gatherNext s n x (some i)
        else
          let s := endGather s n
          mapFormed (if m.full then s else modSearch s n fun y => { y with form := applyMap y.form m y.ents }) n cid
    | _, _, _ => startSearch (endGather s n) n cid

/-- A data set is read by the scan (R141). -/
def gotScan (s : State) (n cid : Nat) (x : GSet) (area : List Byte) : State :=
  let v := (cmd s cid).vol.getD 0
  let g := (slice s n).gather
  if x.kind = .ridge then
    let s := modSearch s n fun y => { y with form := noteParity y.form g.grp x.prov g.wrap g.lpos, closed := !x.prov }
    gatherNext s n x none
  else
    let i := dsitInfo area
    let prev := ((slice s n).search.last.map (·.num)).getD 0
    if dsitBlank area (vol s v).serial || i.num ≤ prev then scanEnd s n cid
    else
      let s := modSearch s n fun y => { y with form := noteSet y.form i, closed := false, hzn := i.hzn, eod := i.hznEod, last := some i }
      let s := if i.kind = .data then
          addDecoded s n v i area false
        else s
      gatherNext s n x (some i)

/-! ### MOUNT by stages -/

/-- The record is known: the last map is looked for (R115, R273, R300). -/
def mountRecord (s : State) (n cid : Nat) : State :=
  let v := (cmd s cid).vol.getD 0
  let x := slice s n
  if !x.recKnown || x.recReading || x.gather.phase != .idle then s
  else
    let s := modSlice (dropDecoded s n fun d => d.vol != v) n fun x => { x with search := {} }
    let s := toStage s cid 4
    match x.record with
    | none => startSearch s n cid
    | some r =>
      if r.table.length ≤ v % 4 then mountFail s n cid (3, 4)
      else
        let e := x.want.parts.getD (v % 4) {}
        let s := modVol s v fun y => { y with serial := e.serial }
        if e.lastLpos = 0 then startSearch s n cid else readLastMap s n cid e.lastDs e.lastWrap e.lastLpos

/-- The record that allows the first write stands, or cannot be written (R274). -/
def mountRaised (s : State) (n cid : Nat) : State :=
  let v := (cmd s cid).vol.getD 0
  if (slice s n).recUnwritable then mountDone s n cid
  else if (slice s n).recWant || (slice s n).recOut.isSome then s
  else toStage (modVol s v fun x => { x with mapWanted := some false }) cid 6

/-- The record that a MOUNT by a clean map raises stands, or cannot be written (R274). -/
def mountCleanRaised (s : State) (n cid : Nat) : State :=
  if (slice s n).recUnwritable then mountDone s n cid
  else if (slice s n).recWant || (slice s n).recOut.isSome then s else mountDone s n cid

/-- The map of the scan is on tape and verified. -/
def mountMapped (s : State) (n cid : Nat) : State :=
  let x := vol s ((cmd s cid).vol.getD 0)
  if x.mapWanted.isNone && !x.mapMaking && (setsOf s ((cmd s cid).vol.getD 0)).isEmpty then mountDone s n cid else s

/-- A MOUNT goes on as far as it can at its stage. Another mounted partition leaves the tape as it is (R361). -/
def mountGo (s : State) (n cid : Nat) : State :=
  let v := (cmd s cid).vol.getD 0
  match (cmd s cid).stage with
  | 0 =>
    if workBefore s n cid then s
    else if anyMounted s n then toStage (unmountVol s v) cid 3
    else threadFor (unmountAll (unmountVol s v) n) n cid
  | 1 => threadBegun s n cid
  | 2 => threadDone s n cid
  | 3 => mountRecord s n cid
  | 5 => mountRaised s n cid
  | 6 => mountMapped s n cid
  | 7 => mountCleanRaised s n cid
  | _ => s

end Sys2Proof.Machine
end

