-- ==== Sys2Proof/Machine/Whole.lean ====
section
/-! DEFINITION. The other commands that work with a volume as a whole: FORMAT (R115, R272, R274, R275), UNMOUNT and FLUSH (R115,
R137, R276, R296). -/

namespace Sys2Proof.Machine

/-- PART_TABLE of a FORMAT capsule. -/
def fmtTable (b : List Byte) : List (Nat × Nat) := (List.range (leAt b 44 1)).map fun k => (leAt b (36 + 2 * k) 1, leAt b (37 + 2 * k) 1)

/-- Every record write that was wanted has been made. -/
def recordStands (s : State) (n : Nat) : Bool := !(slice s n).recWant && (slice s n).recOut.isNone

/-- The cartridge memory cannot be written. -/
def recordBlocked (s : State) (n : Nat) : Bool := (slice s n).recUnwritable || (link s n).wprot

/-- A new volume serial for partition `k` (R254). -/
def newSerial (s : State) (k : Nat) : Nat := 4 * (Config.randomBits (s.free + k) 46 % 2 ^ 46) + k

/-- FORMAT knows the old record: it has the new one written first (R274). -/
def formatRecord (s : State) (n cid : Nat) : State :=
  let x := slice s n
  let c := cmd s cid
  if !x.recKnown || x.recReading then s
  else if recordBlocked s n then complete s cid (2, 8) 0
  else
    let first := match x.record with
      | some r => r.dsReserved
      | none => 0
    let t := fmtTable c.bytes
    let r : CartRec := { seq := x.want.seq, dsReserved := first + 65536, dsNext := first, table := t,
                         parts := (List.range 4).map fun k =>
                           if k < t.length then { serial := newSerial s k, seqReserved := 2 ^ 32 } else {} }
    let s := modSlice (dropDecoded s n fun _ => false) n fun x => { x with want := r, recWant := true, dsNext := first }
    toStage { s with free := s.free + 4 } cid 4

/-- Partition `k` begins with its HEADER, a clean map and a provisional parity (R272). -/
def formatPart (s : State) (n k : Nat) : State :=
  let v := 4 * n + k
  let r := (slice s n).want
  let w := (r.table.getD k (0, 0)).1
  let (l, u) := placeOf w 0
  let x := vol s v
  let s := setVol s v { accSeq := x.accSeq, turn := x.turn, serial := (r.parts.getD k {}).serial, wrap := w, endLpos := l, endUm := u,
                        moved := true, mapWanted := some true, ret := { wrap := w, lpos := l, um := u } }
  let p := headerPayload r.table k (now s) ((r.parts.take r.table.length).map (·.serial))
  addSet s n { closeBase s v .header with payload := p, used := p.length }

/-- The record stands: every partition is written. -/
def formatWrite (s : State) (n cid : Nat) : State :=
  if !recordStands s n then s
  else toStage ((List.range (slice s n).want.table.length).foldl (fun s k => formatPart s n k) s) cid 5

/-- Nothing of a volume is left to write or to verify. -/
def volWritten (s : State) (v : Nat) : Bool :=
  let x := vol s v
  (setsOf s v).isEmpty && x.mapWanted.isNone && !x.mapMaking && x.ridgeDue.isNone

/-- Every partition has been written and verified: the record is written again (R274, R296). -/
def formatVerified (s : State) (n cid : Nat) : State :=
  if (volsOf n).all (volWritten s) then toStage (wantRec s n fun r => { r with dsNext := (slice s n).dsNext }) cid 6 else s

/-- FORMAT leaves partition 0 mounted at LBN 0 (R115). -/
def formatDone (s : State) (n cid : Nat) : State :=
  if !recordStands s n then s
  else
    let s := [4 * n + 1, 4 * n + 2, 4 * n + 3].foldl unmountVol s
    complete (defaultParams (modVol s (4 * n) fun x => { x with mounted := true, readOnly := false }) (4 * n)) cid (0, 0) 0

/-- A FORMAT goes on as far as it can at its stage. -/
def formatGo (s : State) (n cid : Nat) : State :=
  match (cmd s cid).stage with
  | 0 => if workBefore s n cid then s else threadFor (unmountAll ((volsOf n).foldl unmountVol s) n) n cid
  | 1 => threadBegun s n cid
  | 2 => threadDone s n cid
  | 3 => formatRecord s n cid
  | 4 => formatWrite s n cid
  | 5 => formatVerified s n cid
  | 6 => formatDone s n cid
  | _ => s

/-! ### UNMOUNT -/

/-- The volume may be written. -/
def volWritable (s : State) (v : Nat) : Bool := !(vol s v).readOnly && !recordBlocked s (v / 4)

/-- The last map does not describe the volume as it stands, or is not clean (R276, R296). -/
def mapDue (s : State) (v : Nat) : Bool :=
  let x := vol s v
  volWritable s v && (!x.mapClean || x.mapped < x.segNext || ((slice s (v / 4)).want.parts.getD (v % 4) {}).dirty)

/-- Every segment is Committed: a clean map is written, where one is due. -/
def unmountMap (s : State) (cid : Nat) : State :=
  let v := (cmd s cid).vol.getD 0
  if writeStream s v then s
  else if mapDue s v then toStage (modVol s v fun x => { x with mapWanted := some true }) cid 2
  else toStage s cid 4

/-- The clean map and its parity stand: DIRTY clears, and DS_NEXT is exact (R276). -/
def unmountRecord (s : State) (n cid : Nat) : State :=
  let v := (cmd s cid).vol.getD 0
  if !volWritten s v then s
  else toStage (wantRec s n fun r => recPart { r with dsNext := (slice s n).dsNext } (v % 4) fun e => { e with dirty := false }) cid 3

/-- The tape is unthreaded or rewound (R115, R361). -/
def unmountMove (s : State) (n cid : Nat) : State :=
  if atRest s n then
    toStage (ctrlSend s n (if (cmd s cid).bytes.getD 36 0 = 0 then 0x19 else 0x18) [] (some cid)) cid 5
  else s

/-- The transport has begun to move. -/
def unmountMoving (s : State) (n cid : Nat) : State :=
  match (link s n).mode with
  | .rewinding => toStage s cid 6
  | .unthreading => toStage s cid 6
  | _ => s

/-- The tape is where the UNMOUNT takes it. -/
def unmountDone (s : State) (n cid : Nat) : State :=
  match (link s n).mode with
  | .loaded => complete (forgetCartridge s n) cid (0, 0) 0
  | .ready => complete (unmountVol s ((cmd s cid).vol.getD 0)) cid (0, 0) 0
  | _ => s

/-- An UNMOUNT goes on as far as it can at its stage; mode 0 is refused while another partition is mounted (R115). -/
def unmountGo (s : State) (n cid : Nat) : State :=
  let c := cmd s cid
  let v := c.vol.getD 0
  match c.stage with
  | 0 =>
    if workBefore s n cid then s
    else if c.bytes.getD 36 0 = 0 && (volsOf n).any (fun w => w != v && (vol s w).mounted) then complete s cid (2, 0xE) 0
    else toStage s cid 1
  | 1 => unmountMap s cid
  | 2 => unmountRecord s n cid
  | 3 => if recordStands s n then toStage s cid 4 else s
  | 4 => unmountMove s n cid
  | 5 => unmountMoving s n cid
  | 6 => unmountDone s n cid
  | _ => s

/-! ### FLUSH -/

/-- A FLUSH completes; commands that wait to read are served then (R132). -/
def flushDone (s : State) (cid v : Nat) : State :=
  complete (modVol s v fun x => { x with waitSeek := x.waitSeek.map fun w => (w.1, 1) }) cid (0, 0) (vol s v).comEnd

/-- A FLUSH completes once everything before it is Mapped; a map is written once it is Committed (R137). -/
def flushGo (s : State) (cid : Nat) : State :=
  let c := cmd s cid
  let v := c.vol.getD 0
  let x := vol s v
  if c.pos ≤ x.mapped then flushDone s cid v
  else if (c.pos ≤ x.hzn || !writeStream s v) && x.mapWanted.isNone && !x.mapMaking then
    modVol s v fun x => { x with mapWanted := some false }
  else s

end Sys2Proof.Machine
end

