-- ==== Sys2Proof/Machine/ReadRow.lean ====
section
/-! DEFINITION. The outcome of an attempt to read a data set (R327 to R329): what is read goes to what the reading serves, and what
is not climbs the recovery ladder. -/

namespace Sys2Proof.Machine

/-- Last wrap of the partition that a reading is on. -/
def endWrapOf (s : State) (n v : Nat) : Nat :=
  let x := slice s n
  ((if x.want.table.isEmpty then x.search.table else x.want.table).getD (v % 4) (0, 0)).2

/-- The map of the partition that a reading is on: a MOUNT has the one it forms. -/
def mapOf (s : State) (n v : Nat) : List MapEntry :=
  match (slice s n).gather.purpose with
  | .scan _ => (slice s n).search.form
  | _ => (vol s v).map

/-- The next data set may stand at the start of the next wrap: by the map, or where nothing but the tape says. -/
def mayTurn (s : State) (n : Nat) : Bool :=
  let g := (slice s n).gather
  g.wrap < endWrapOf s n g.vol && !g.wrapTried && g.attempt == 0
    && (match g.purpose with
        | .scan _ => true
        | .search _ => true
        | .baseMap _ => !g.past.isEmpty
        | .lastMap _ => false
        | .header _ => false
        | .none => false
        | _ =>
          let m := mapOf s n g.vol
          (m[g.grp]?.any fun e => g.wrap < e.endWrap) || (m[g.grp + 1]?.any fun e => g.wrap < e.startWrap))

/-- A member read is not the one in turn: one before it was not met at all. A group ends at its members. -/
def gapped (s : State) (n : Nat) (i : DsitInfo) : Bool :=
  let g := (slice s n).gather
  let here := i.group == g.grp && i.gpos == g.idx
  let next := i.group == g.grp + 1 && i.gpos == 0 && ((mapOf s n g.vol)[g.grp]?.all fun e => e.members ≤ g.idx)
  match g.purpose with
  | .items _ => g.rebuild.isNone && !here && !next
  | .overwrite _ => g.rebuild.isNone && !here && !next
  | .scan _ => !here && !next
  | .seed _ => !here
  | _ => false

/-- Some data set of the partition may lie on a later wrap than the reading is on. -/
def laterWrap (s : State) (n : Nat) : Bool :=
  let g := (slice s n).gather
  g.wrap < endWrapOf s n g.vol && (match g.purpose with
    | .scan _ => true
    | .search _ => true
    | .header _ => false
    | .none => false
    | _ => (mapOf s n g.vol).any fun e => g.wrap < e.endWrap)

/-- Copies of a data set may stand at the start of the next wrap: fewer than 8 first passes have followed it on this one (R314). -/
def mayCross (s : State) (n : Nat) (x : GSet) : Bool := (slice s n).gather.home.isNone && decide (x.after < 8) && laterWrap s n

/-- The gathering of a data set goes on at the start of the next wrap. -/
def crossWrap (s : State) (n : Nat) (x : GSet) : State :=
  modGather s n fun g => { g with home := some (g.wrap, g.lpos), want := some (x.low, x.kind), phase := .seek, wrap := g.wrap + 1,
                                  lpos := (placeOf (g.wrap + 1) 0).1 }

/-- The reading is back where its attempt began. -/
def comeHome (s : State) (n : Nat) : State :=
  modGather s n fun g => match g.home with
    | some (w, l) => { g with home := none, wrap := w, lpos := l }
    | none => g

/-- A data set is lost to the reading after every attempt (R329, R291, R300, R141). -/
def setLost (s : State) (n : Nat) (x : Option GSet) : State :=
  let g := (slice s n).gather
  let s := if x.isNone then modGather s n fun g => { g with want := some (0x10000, .data) } else s
  let walk (s : State) : State :=
    match g.rebuild with
    | some r => rebuildLost s n r
    | none => match rebuildSource s g.vol g.grp with
      | some (members, accum) => startRebuild s n members accum
      | none => walkLost s n
  match g.purpose with
  | .none => s
  | .items _ => walk s
  | .overwrite _ => walk s
  | .lastMap c => startSearch (endGather s n) n c
  | .baseMap c => startSearch (endGather s n) n c
  | .header c => gotHeader s n c none
  | .search c => if x.isSome then
      let s := gatherSkip s n
      moveGather s n g.wrap (slice s n).gather.lpos
    else partEnd (endGather s n) n c
  | .scan c => scanEnd s n c
  | .seed v => seedLost s n v

/-- Another attempt on the data set in turn, or it is lost (R328). -/
def readFailed (s : State) (n : Nat) (x : Option GSet) (cols : Tbl (List Byte)) : State :=
  let s := comeHome s n
  if (slice s n).gather.attempt < 4 then
    let s := if x.isNone then modGather s n fun g => { g with want := none, seen := [] } else s
    nextAttempt s n cols
  else setLost s n x

/-- A data set has been read. -/
def gotSet (s : State) (n : Nat) (x : GSet) (area : List Byte) : State :=
  let g := (slice s n).gather
  let walk : State := match g.rebuild with
    | some r =>
      if x.kind != .ridge && (dsitInfo area).group != g.grp then rebuildLost s n r
      else rebuildGot s n r x area
    | none => walkGot s n x area false
  match g.purpose with
  | .none => s
  | .items _ => walk
  | .overwrite _ => walk
  | .lastMap c => gotLastMap s n c area
  | .baseMap c => gotBaseMap s n c x area
  | .header c => gotHeader s n c (some area)
  | .search c => gotSearch s n c x area
  | .scan c => gotScan s n c x area
  | .seed v => seedGot s n v x area

/-- After a data set that took further attempts, the next one begins with attempt 0 (R328). -/
def backToSpeed (s : State) (n attempt : Nat) : State :=
  let g := (slice s n).gather
  if attempt = 0 || g.phase != .running then s else moveGather s n g.wrap g.lpos

/-- Ridge parity is stepped over but where a rebuild or a seed needs it (R141, R292). -/
def ridgeSkipped (g : Gather) : Bool := g.rebuild.isNone

/-- The tag of a data set that is read for a command (R258): checked and counted, true where it passes or none is due. -/
def checkTag (s : State) (n : Nat) (area : List Byte) : State × Bool :=
  let g := (slice s n).gather
  let i := dsitInfo area
  let due := i.kind == .data && tagDue s g.vol i && (match g.purpose with
    | .items _ => true
    | .overwrite _ => true
    | _ => false)
  if !due then (s, true)
  else
    let s := count s (pCiph n) 2
    if tagOk s i area then (s, true) else (count s (pCiph n) 3, false)

/-- Without the columns of an SDS whose frame cannot be read (R167). -/
def withoutSds (cols : Tbl (List Byte)) (sds : Option Nat) : Tbl (List Byte) := cols.filter fun c => some (c.1 / 228) != sds

/-- An attempt on the data set in turn is complete (R327). -/
def readAttempt (s : State) (n : Nat) (sram : Option (Fin 256 × SramFault)) : State :=
  let g := (slice s n).gather
  if g.phase != .running then s
  else
  let (s, lost) := sramHit s (sram.map (·.2)) (3 + n)
  match setInTurn g with
    | none => if mayTurn s n then nextWrap s n else readFailed s n none []
    | some x =>
      if x.kind = .ridge && ridgeSkipped g then
        match g.purpose with
        | .seed _ => readFailed s n none []
        | _ => gotSet s n x []
      else
        let cols := if lost then withoutSds (goodCols g x) (sram.map (·.1.val)) else goodCols g x
        match gatheredArea cols with
        | none => if mayCross s n x then crossWrap s n x else readFailed s n (some x) cols
        | some a =>
          if x.kind = .ridge then gotSet (comeHome s n) n x a
          else if !dsitCrcOk a then readFailed s n (some x) cols
          else if gapped s n (dsitInfo a) then readFailed s n none []
          else
            let (s, ok) := checkTag s n a
            if ok then backToSpeed (gotSet (comeHome s n) n x a) n g.attempt
            else readFailed (modGather s n fun g => { g with area := a }) n (some x) cols

end Sys2Proof.Machine
end

