-- ==== Sys2Proof/Machine/Start.lean ====
section
/-! DEFINITION. The start of a command: the bytes of its capsule (R100 to R104, R106, R111, R113 to R119), the conditions of R508
and R509, its turn (R127), and the row COMMAND_START. -/

namespace Sys2Proof.Machine

/-- What a capsule's bytes are found to be (R101). -/
inductive CapsuleFault where
  | opcode
  | wrongKind
  | mismatch
  | badByte (off : Nat)
  deriving DecidableEq, Repr

/-- A field of a capsule: first byte, length, whether its value is allowed. -/
abbrev FieldRule := Nat × Nat × Bool

/-- FLAGS bits that an opcode allows (R104); none for an opcode that is not listed. -/
def opcFlags (o : Nat) : Option Nat :=
  if o = 0x02 || o = 0x04 || o = 0x05 then some 3
  else if o = 0x10 then some 10
  else if o = 0x30 then some 6
  else if (1 ≤ o && o ≤ 0x0B) || o = 0x20 || o = 0x21 then some 2
  else none

/-- Opcodes that a device SQ carries (R96). -/
def deviceOpc (o : Nat) : Bool := o == 0x10 || o == 0x20 || o == 0x30
/-- Opcodes that a volume SQ carries. -/
def volumeOpc (o : Nat) : Bool := o != 0x10 && o != 0x30

/-- A number lies in a range. -/
def within (lo hi x : Nat) : Bool := lo ≤ x && x ≤ hi

/-- The named fields of an opcode and their ranges, in ascending order of their offset. -/
def fieldRules (b : List Byte) : List FieldRule :=
  let f (o n : Nat) : Nat := leAt b o n
  let count := f 16 4
  match f 0 1 with
  | 0x01 =>
    let rc := f 20 4
    let rl := f 36 4
    [(8, 8, true), (16, 4, within 1 268435456 count), (20, 4, within 1 65536 rc),
     (24, 8, if rl = 0 then f 24 8 % 4 == 0 else f 24 8 == 0), (32, 4, f 32 4 == (if rl = 0 then 4 * rc else 0)),
     (36, 4, rl == 0 || (rl ≤ 16777216 && count == rc * rl))]
  | 0x02 =>
    [(8, 8, true), (16, 4, within 1 65536 count), (24, 8, f 24 8 % 16 == 0),
     (32, 4, within 16 1048576 (f 32 4) && f 32 4 % 16 == 0), (36, 8, f 36 8 % 4 == 0), (44, 4, 4 * count ≤ f 44 4)]
  | 0x03 => [(8, 8, true), (16, 4, within 1 65536 count)]
  | 0x04 => [(8, 8, f 36 1 != 1 || f 8 8 == 0), (36, 1, f 36 1 ≤ 1)]
  | 0x05 => [(16, 8, f 16 8 != 0), (36, 1, f 36 1 ≤ 1)]
  | 0x07 => [(24, 8, f 24 8 % 8 == 0), (32, 4, f 32 4 == 64)]
  | 0x08 => [(36, 1, f 36 1 ≤ 1)]
  | 0x09 => [(36, 1, f 36 1 ≤ 1)]
  | 0x0A => (List.range 8).map (fun i => (36 + i, 1, decide (i / 2 < f 44 1) || f (36 + i) 1 == 0)) ++ [(44, 1, within 1 4 (f 44 1))]
  | 0x0B => [(8, 8, true)]
  | 0x21 =>
    [(36, 1, f 36 1 < 128 || f 36 1 == 0xFF), (37, 1, f 37 1 ≤ 3), (38, 1, within 1 9 (f 38 1)),
     (39, 1, f 39 1 ≤ 3 && (f 39 1 % 2 == 0 || f 37 1 == 1)), (40, 2, hintOk (f 40 2) 0), (42, 2, hintOk 0 (f 42 2))]
  | 0x10 =>
    let comp := f 36 1 == 0
    [(16, 4, within 1 1048576 count), (24, 8, f 24 8 % 16 == 0), (32, 4, within 1 1048576 (f 32 4)), (36, 1, f 36 1 ≤ 1),
     (37, 1, if comp then f 37 1 ≤ 3 else f 37 1 == 0), (38, 1, if comp then within 1 9 (f 38 1) else f 38 1 == 0),
     (39, 1, f 39 1 == 0 || f 39 1 == 2), (40, 2, hintOk (f 40 2) 0), (42, 2, hintOk 0 (f 42 2)), (44, 8, true)]
  | 0x20 =>
    let ring := f 36 1 == 0
    [(16, 4, !ring || count < 256), (20, 4, within 1 (if ring then 256 else 65536) (f 20 4)), (24, 8, f 24 8 % 64 == 0),
     (32, 4, 64 * f 20 4 ≤ f 32 4), (36, 1, f 36 1 ≤ 1)]
  | 0x30 => [(36, 8, true)]
  | _ => []

/-- The first offending byte from offset 8 on, by the rules left and the place reached: a field with a value that is not allowed, or
a reserved byte that is not 0. -/
def badField (b : List Byte) : Nat → Nat → List FieldRule → Option Nat
  | 0, _, _ => none
  | fuel + 1, i, rules =>
    if 64 ≤ i then none
    else match rules with
      | (o, n, ok) :: r =>
        if i = o then (if ok then badField b fuel (i + n) r else some i)
        else if b.getD i 0 != 0 then some i else badField b fuel (i + 1) rules
      | [] => if b.getD i 0 != 0 then some i else badField b fuel (i + 1) []

/-- Check the bytes of a capsule on an SQ in ascending order (R96, R100 to R104). -/
def capsuleFault (x : Sq) (b : List Byte) : Option CapsuleFault :=
  match opcFlags (cOpc b) with
  | none => some .opcode
  | some fl =>
    if !(if sqDevice x then deviceOpc (cOpc b) else volumeOpc (cOpc b)) then some .wrongKind
    else if cFlags b &&& (255 - fl) != 0 then some (.badByte 1)
    else if leAt b 4 1 != (if sqDevice x then 0 else sqTransport x) || leAt b 5 1 != (if sqDevice x then 0 else sqPartition x) then
      some .mismatch
    else if b.getD 6 0 != 0 then some (.badByte 6)
    else if b.getD 7 0 != 0 then some (.badByte 7)
    else (badField b 64 8 (fieldRules b)).map .badByte

/-- Write-type commands (R129). -/
def writeType (o : Nat) : Bool := o == 1 || o == 3 || o == 0xB

/-- The volume's binding is a slot. -/
def slotBound (x : Vol) : Bool :=
  match x.bind with
  | .slot _ => true
  | _ => false

/-- A page that the command needs is not enabled, or draining (R508). -/
def pageMissing (s : State) (b : List Byte) (v : Option Nat) : Bool :=
  let o := cOpc b
  match v with
  | some v =>
    if o = 0x20 then b.getD 36 0 == 1 && !enabledNow s .log
    else !enabledNow s (pFmt (v / 4))
      || ((o == 1 || o == 2 || o == 3) && slotBound (vol s v) && !enabledNow s (pCiph (v / 4)))
  | none =>
    if o = 0x20 then b.getD 36 0 == 1 && !enabledNow s .log
    else if o = 0x10 then !(all16.any fun n => enabledNow s (.cdc n))
    else false

/-- A partition table as R271 allows it: 0, or the reason code of FORMAT's refusal. -/
def tableRefusal (t : List (Nat × Nat)) : Nat :=
  if t.any fun p => 199 < p.1 || 199 < p.2 || p.2 < p.1 then 0x0301
  else if (List.range t.length).any fun i => (List.range i).any fun j =>
      (t.getD i (0, 0)).1 ≤ (t.getD j (0, 0)).2 && (t.getD j (0, 0)).1 ≤ (t.getD i (0, 0)).2 then 0x0302
  else 0

/-- What a start condition answers: completion code, RESULT, and the REASON of the error log. -/
structure StartStop where
  code : Code
  result : Nat
  reason : Nat := 0

/-- A state of the transport that a command which needs tape does not get past (R364, R365). -/
def tapeStop (s : State) (n : Nat) : Option Code :=
  let l := link s n
  if l.mode = .faulted then some (faultCode l.cause.toNat)
  else if l.phase != .up then some (7, 2)
  else if l.mode = .empty then some (7, 3)
  else if l.mode = .service then some (7, 4)
  else none

/-- The segment sequences that a command is sure to need (R108, R133): of a WRITE with a list, one until the list is read. -/
def segsNeeded (b : List Byte) : Nat :=
  let l := leAt b 36 4
  if cOpc b = 1 && l != 0 then ceilDiv (leAt b 20 4) (16777216 / l) else 1

/-- A sequence limit that the command would pass (R59). -/
def sequenceSpent (x : Vol) (b : List Byte) (accSeq : Option Nat) : Bool :=
  let o := cOpc b
  let first := if cLbn b = allOnes then x.eod else cLbn b
  accSeq.isNone
    || ((o == 1 || o == 3 || o == 0xB) && allOnes < x.segNext + segsNeeded b)
    || (o == 1 && allOnes < first + leAt b 20 4) || (o == 3 && allOnes < first + leAt b 16 4)

/-- Volume state that a command does not get past (R509 order 5). -/
def volStop (s : State) (v : Nat) (b : List Byte) : Option StartStop :=
  let o := cOpc b
  let x := vol s v
  let y := slice s (v / 4)
  let busy : Option StartStop := some { code := (2, 0xE), result := 0 }
  if o = 0x08 then
    if x.mounted then some { code := (2, 0xE), result := x.eod }
    else if anyMounted s (v / 4) && y.want.table.length ≤ v % 4 then some { code := (3, 4), result := x.eod }
    else none
  else if o = 0x0A then (if v % 4 != 0 || anyMounted s (v / 4) then busy else none)
  else if o = 0x21 then
    (if leAt b 36 1 < 128 && writeStream s v then busy else none)
  else if o = 0x20 then none
  else if !x.mounted then some { code := (2, 7), result := 0 }
  else if o = 0x09 && b.getD 36 0 == 0 && (volsOf (v / 4)).any (fun w => w != v && (vol s w).mounted) then busy
  else none

/-- The LBN of a command lies beyond end of data (R105). -/
def beyondEod (s : State) (v : Nat) (b : List Byte) : Bool :=
  let o := cOpc b
  (writeType o || o == 2 || o == 4) && decide ((vol s v).eod < cLbn b) && !(cLbn b == allOnes && (o == 1 || o == 2 || o == 3))

/-- A command needs tape whatever the buffer holds (R146): a READ or LOCATE beyond end of data is not served from the buffer. -/
def tapeNeeded (s : State) (v : Nat) (b : List Byte) : Bool :=
  let o := cOpc b
  writeType o || o == 6 || o == 8 || o == 9 || o == 0xA || ((o == 2 || o == 4) && beyondEod s v b)

/-- The values of a command against its volume (R509 order 9). -/
def valueStop (s : State) (v : Nat) (b : List Byte) (accSeq : Option Nat) : Option StartStop :=
  let o := cOpc b
  let x := vol s v
  if beyondEod s v b then some { code := (2, 9), result := 0 }
  else if o = 0x0A && tableRefusal (fmtTable b) != 0 then
    some { code := (2, 0xB), result := tableRefusal (fmtTable b), reason := tableRefusal (fmtTable b) }
  else if o = 0x21 && leAt b 36 1 < 128 && (keySlot s (leAt b 36 1)).st != .committed then
    some { code := (2, 0xB), result := 0x0207, reason := 0x0207 }
  else if sequenceSpent x b accSeq then some { code := (2, 0xA), result := 0 }
  else none

/-- RESULT of a capsule that completes at its turn (R123): the first LBN of a WRITE at end of data is resolved there. -/
def turnResult (s : State) (k : Capsule) (v : Option Nat) (cls : Nat) : Nat :=
  if cOpc k.bytes = 1 && cLbn k.bytes = allOnes && (cls = 6 || cls = 7) then (vol s (v.getD 64)).eod else capsuleResult s k v cls

/-- RESULT of a completion that a start condition decides. R101 has the offending byte, and R119 and R272 the reason code, in RESULT
whatever the opcode; otherwise the rows of R123 that name the opcode come first. -/
def stopResult (s : State) (k : Capsule) (v : Option Nat) (c : Code) (r : Nat) : Nat :=
  if c = (2, 2) || c = (2, 0xB) then r
  else if [0x04, 0x05, 0x06, 0x08, 0x20, 0x30].contains (cOpc k.bytes) then turnResult s k v c.1
  else if c.1 = 2 then r else turnResult s k v c.1

/-- Commands that take slots of the pool: they end while it is in device fault (R176). -/
def needsPool (o : Nat) : Bool := o == 1 || o == 2 || o == 3 || o == 0x10

/-- The first of the conditions of R509 that holds for a capsule at its turn. -/
def startStop (s : State) (p : Port) (q : Nat) (k : Capsule) : Option StartStop :=
  let x := sq s p q
  let b := k.bytes
  let o := cOpc b
  let stop (c : Code) (r : Nat) : Option StartStop := some { code := c, result := stopResult s k (sqVol x) c r, reason := if c = (2, 2) then r else 0 }
  if !k.owned then stop (2, 3) 0
  else match capsuleFault x b with
    | some .opcode => stop (2, 1) 0
    | some .wrongKind => stop (2, 6) 0
    | some .mismatch => stop (2, 5) 0
    | some (.badByte i) => stop (2, 2) i
    | none =>
      if x.draining || pageMissing s b (sqVol x) then stop (2, 4) 0
      else match sqVol x with
        | none => if o = 0x30 && !holds s (portMaster p) 2 then stop (2, 0xC) 0
            else if s.pool.dead && needsPool o then stop (4, 1) 0 else none
        | some v =>
          let y := vol s v
          let takes := writeType o || o == 6 || o == 9
          match (if takes then y.pendingFail else none) with
          | some (c, d, e) => some { code := (c, d), result := e }
          | none => match volStop s v b with
            | some t => stop t.code t.result
            | none =>
              if (writeType o || o == 0xA) && (y.readOnly && o != 0xA || (link s (v / 4)).wprot) then stop (2, 8) 0
              else if writeType o && (match y.bind with
                  | .lost => true
                  | .slot j => (keySlot s j).st != .committed
                  | _ => false) then stop (5, 1) 0
              else match (if tapeNeeded s v b then tapeStop s (v / 4) else none) with
                | some c => stop c 0
                | none => match valueStop s v b k.accSeq with
                  | some t => some { t with result := stopResult s k (some v) t.code t.result }
                  | none => if s.pool.dead && needsPool o then stop (4, 1) 0 else none

/-- Acceptance sequences that wait for their turn on a volume: of capsules in inboxes that no freeze holds. -/
def waitingSeqs (s : State) (v : Nat) : List Nat :=
  [Port.a, Port.b].flatMap fun p =>
    if (mst s (portMaster p)).frozen then []
    else (port s p).sqs.flatMap fun x =>
      if x.2.enabled && !x.2.frozen && sqVol x.2 == some v then x.2.inbox.filterMap (·.accSeq) else []

/-- It is the turn of a capsule of a volume: no command holds the turn, and none accepted before it waits (R126, R127). -/
def turnOf (s : State) (v : Nat) (k : Capsule) : Bool :=
  (vol s v).turn.isNone && (waitingSeqs s v).all fun a => k.accSeq.all fun b => b ≤ a

/-- The command that a capsule of SQ `q` becomes (R98). -/
def newCmd (s : State) (p : Port) (q : Nat) (k : Capsule) (v : Option Nat) : Cmd :=
  { port := p, sq := q, bytes := k.bytes, accSeq := k.accSeq, vol := v,
    encBound := (v.map fun w => slotBound (vol s w)).getD false, lbn := cLbn k.bytes }

/-- A command takes the next number. -/
def addCmd (s : State) (c : Cmd) : State := { s with cmds := tput s.cmds s.nextCid c, nextCid := s.nextCid + 1 }

/-- Command `cid` takes the turn of its volume, if it has one (R127). -/
def takeTurn (s : State) (v : Option Nat) (cid : Nat) : State :=
  match v with
  | none => s
  | some v => modVol s v fun x => { x with turn := some cid }

/-- The command of a capsule starts (R98, R127). -/
def startCmd (s : State) (p : Port) (q : Nat) (k : Capsule) (v : Option Nat) : State :=
  let t := modSq s p q fun x => { x with inbox := x.inbox.erase k, sqhd := (x.sqhd + 1) % 65536 }
  takeTurn (addCmd t (newCmd s p q k v)) v s.nextCid

/-- A capsule whose inbox entry cannot be read (R168): TAG 0xFFFF and OPC 0xFF. -/
def unreadable (k : Capsule) : Capsule := { k with bytes := k.bytes.mapIdx fun i b => if i = 0 || i = 2 || i = 3 then 0xFF else b }

/-- COMMAND_START of SQ `q`: the oldest capsule at its turn starts, or completes with the first condition of R509 (R98, R101). -/
def commandStart (s : State) (p : Port) (q : Nat) (sram : Option SramFault) : State :=
  let x := sq s p q
  match x.inbox with
  | [] => s
  | k :: _ =>
    if !x.enabled || x.frozen || (mst s (portMaster p)).frozen || !portSends s p then s
    else
      let v := sqVol x
      if !(v.map fun w => turnOf s w k).getD true then s
      else
      let (s, lost) := sramHit s sram (pIdx p)
      if lost then
        let s := modSq s p q fun x => { x with inbox := unreadable k :: x.inbox.tail }
        completeCapsule s p q (unreadable k) (4, 1) allOnes {}
      else match startStop s p q k with
        | some t =>
          let s := completeCapsule (nextFree s) p q k t.code t.result { reason := t.reason }
          match v with
          | none => s
          | some v => modVol s v fun x => { x with pendingFail := if (x.pendingFail.map fun f => (f.1, f.2.1)) = some t.code
              && (writeType (cOpc k.bytes) || cOpc k.bytes == 6 || cOpc k.bytes == 9) then none else x.pendingFail }
        | none => startCmd s p q k v

end Sys2Proof.Machine
end

