-- ==== Sys2Proof/Machine/Segments.lean ====
section
/-! DEFINITION. Segments of a WRITE (R108): admission (R195, R255, R256), the data window (R109), completion and the transfer
timeout (R110). -/

namespace Sys2Proof.Machine

/-- Cut records into segments of at most 16 MiB (R108): `acc` is the open segment, newest record first. -/
def cutSegs : List Nat → Nat → List Nat → List (List Nat)
  | [], _, acc => if acc.isEmpty then [] else [acc.reverse]
  | r :: rest, total, acc =>
    if acc.isEmpty || total + r ≤ 16777216 then cutSegs rest (total + r) (r :: acc)
    else acc.reverse :: cutSegs rest r [r]

/-- Sum of record lengths. -/
def sumLens (l : List Nat) : Nat := l.foldl (· + ·) 0

/-- The segments of a WRITE whose first record is `lbn`. -/
def mkSegs (cid v : Nat) : List (List Nat) → Nat → Nat → List Seg
  | [], _, _ => []
  | l :: rest, no, lbn =>
    { seq := 0, cid := cid, no := no, vol := v, len := sumLens l, recs := l, firstLbn := lbn, endLbn := lbn + l.length,
      eodAfter := lbn + l.length, blocks := (cutSegment l).length, first := no == 0 } :: mkSegs cid v rest (no + 1) (lbn + l.length)

/-- A segment of a volume. -/
def seg? (s : State) (v cid no : Nat) : Option Seg := (vol s v).segs.find? fun g => g.cid == cid && g.no == no

/-- P4 and P2 slots that a segment needs (R195). -/
def segNeeds (g : Seg) : Nat × Nat := (ceilDiv g.len 1048576, g.blocks)

/-- The segment reservation of a transport is whole, so it is unused (R195). -/
def reservationWhole (s : State) (n : Nat) : Bool :=
  resCount s 4 n == floorRes 4 && resCount s 2 n == floorRes 2

/-- The slots of a segment, from the reservation or from the general slots: P4 slots, P2 slots; none where they are not available. -/
def segSlots (s : State) (n : Nat) (g : Seg) : Option (State × List Nat × List Nat) :=
  let (a, b) := segNeeds g
  if reservationWhole s n then
    let la := (resSlots s 4 n).take a
    let lb := (resSlots s 2 n).take b
    let s := la.foldl (fun s x => takeReserved s 4 n x) s
    let s := lb.foldl (fun s x => takeReserved s 2 n x) s
    some (markShort (markShort s 4 n) 2 n, la, lb)
  else if a ≤ freeCount s 4 && b ≤ freeCount s 2 then
    let (s, la) := takeGeneral s 4 (3 + n) a
    let (s, lb) := takeGeneral s 2 (3 + n) b
    some (s, la, lb)
  else none

/-- The charge leaves room for a segment (R195). -/
def shareRoom (s : State) (n : Nat) (g : Seg) : Bool :=
  let (a, b) := segNeeds g
  chargeOf s n + a * slotSize 4 + b * slotSize 2 ≤ usableShare s n

/-- The segment that waits longest for admission on a transport. -/
def admitHead (s : State) (n : Nat) : Option (Nat × Seg) :=
  match (slice s n).toAdmit with
  | (cid, no) :: _ => ((cmd s cid).vol.bind fun v => seg? s v cid no).map fun g => (cid, g)
  | [] => none

/-- A segment can be admitted now. -/
def canAdmit (s : State) (n : Nat) (g : Seg) : Bool := shareRoom s n g && (segSlots s n g).isSome

/-- The blocks of a segment would pass the limit of block numbers, or of the data units of the bound slot (R255, R256). -/
def unitsSpent (s : State) (g : Seg) : Bool :=
  let x := vol s g.vol
  allOnes < x.blkNext + (x.segs.map fun h => if h.cut then 0 else if h.phase == .later || h.phase == .waitAdmit then 0 else h.blocks).foldl (· + ·) 0
      + g.blocks
    || (match x.bind with
        | .slot k => 0xFFFFFFFFFFFF ≤ (keySlot s k).du + (keySlot s k).reserved + g.blocks
        | _ => false)

/-- What a write-type command leaves when its last segment is Buffered (R120, R128). -/
def writeDone (s : State) (g : Seg) : State := complete s g.cid (0, 0) g.endLbn

/-- The key slot that the blocks of a segment are bound to (R256). -/
def admitKey (s : State) (g : Seg) : Option Nat :=
  match (vol s g.vol).bind with
  | .slot k => some k
  | _ => none

/-- Data units of a slot are reserved (R256). -/
def reserveUnits (s : State) (k : Option Nat) (n : Nat) : State :=
  match k with
  | some k => modKey s k fun x => { x with reserved := x.reserved + n }
  | none => s

/-- A segment has its slots; a WRITE segment goes on to wait for a range of its window (R195). -/
def admitSeg (s : State) (n cid : Nat) (g : Seg) (la lb : List Nat) : State :=
  let k := admitKey s g
  modSeg (modSlice (reserveUnits s k g.blocks) n fun x => { x with toAdmit := x.toAdmit.tail }) g.vol cid g.no fun h =>
    { h with staging := la, p2 := lb, keySlot := k, duReserved := if k.isSome then g.blocks else 0,
             phase := if 0 < g.marks then h.phase else .waitRange }

/-- SEGMENT_ADMIT (R195): the segment that began to wait first is admitted. The filemarks of a WRITE_MARK are Buffered at once. -/
def segmentAdmit (s : State) (n : Nat) : State :=
  match admitHead s n with
  | none => s
  | some (cid, g) =>
    if s.fwu.paused || !shareRoom s n g then s
    else if s.pool.dead then complete s cid (4, 1) (endResult s cid 4)
    else if unitsSpent s g then haltExhausted s g.vol
    else match segSlots s n g with
      | none => s
      | some (s, la, lb) =>
        let t := admitSeg s n cid g la lb
        if 0 < g.marks then
          match seg? t g.vol cid g.no with
          | some g => writeDone (bufferSeg t g) g
          | none => t
        else modSq t (cmd s cid).port (cmd s cid).sq fun x => { x with rangeWait := x.rangeWait ++ [cid] }

/-! ### The data window -/

/-- Size of a data window (R109). -/
def windowBytes : Nat := 0x4000000

/-- The next 4 KiB boundary. -/
def roundUp4k (a : Nat) : Nat := ceilDiv a 4096 * 4096

/-- A range of `len` bytes fits at an offset of a window. -/
def rangeFits (rs : List (Nat × Nat)) (len off : Nat) : Bool :=
  off + len ≤ windowBytes && rs.all fun r => off + len ≤ r.1 || r.1 + r.2 ≤ off

/-- Where a range goes (R109): from the boundary after the last one placed upward, wrapping to 0. -/
def placeRange (rs : List (Nat × Nat)) (lastEnd len : Nat) : Option Nat :=
  let start := roundUp4k lastEnd
  let ends := sortNat (rs.map fun r => roundUp4k (r.1 + r.2))
  let upward := start :: ends.filter (start < ·)
  (upward ++ 0 :: ends.filter (· < start)).find? (rangeFits rs len)

/-- XFER_RDY_POST (R109): the segment that waits first in a window is placed, and its XFER_RDY is made. -/
def xferRdyPost (s : State) (p : Port) (q : Nat) : State :=
  let x := sq s p q
  match x.rangeWait with
  | [] => s
  | cid :: rest =>
    match (cmd s cid).vol.bind fun v => (vol s v).segs.find? fun g => g.cid == cid && g.phase == .waitRange with
    | none => modSq s p q fun x => { x with rangeWait := rest }
    | some g =>
      if 16 ≤ x.ranges.length || s.fwu.paused then s
      else match placeRange x.ranges x.lastEnd g.len with
        | none => s
        | some off =>
          let s := modSq s p q fun x => { x with ranges := x.ranges ++ [(off, g.len)], lastEnd := off + g.len, rangeWait := rest }
          let s := modSeg s g.vol cid g.no fun h => { h with off := off, phase := .waitPost }
          endIfFrozen (postEntry s p { kind := .xferRdy, sq := q, tag := BitVec.ofNat 16 (leAt (cmd s cid).bytes 2 2),
                                       segNo := BitVec.ofNat 16 g.no, result := w64 (off + 2 ^ 32 * g.len), counted := false,
                                       cid := cid }) p

/-- The open segment of a window that covers an offset. -/
def openSegAt (s : State) (p : Port) (q a : Nat) : Option Seg :=
  (s.cmds.filterMap fun c =>
    if c.2.port == p && c.2.sq == q && c.2.phase != .ended then
      c.2.vol.bind fun v => (vol s v).segs.find? fun g => g.cid == c.1 && g.phase == .isOpen && g.off ≤ a && a < g.off + g.len
    else none).head?

/-- Every granule of a segment has arrived. -/
def segWhole (g : Seg) : Bool := ceilDiv g.len 64 ≤ g.granules.length

/-- A segment is complete (R109): its range closes, it is Buffered, and its entry follows (R120). -/
def segComplete (s : State) (g : Seg) : State :=
  let c := cmd s g.cid
  let s := bufferSeg (closeRange s c.port c.sq g.off) g
  if (vol s g.vol).segs.any fun h => h.cid == g.cid && g.no < h.no then
    postEntry s c.port { kind := .segmentDone, sq := c.sq, tag := BitVec.ofNat 16 (leAt c.bytes 2 2), segNo := BitVec.ofNat 16 g.no,
                         result := w64 g.endLbn, cid := g.cid }
  else writeDone s g

/-- Input of a segment is written again: what a lane made of the old bytes is dropped (R109). -/
def rewritten (g : Seg) (i n : Nat) : Seg :=
  let stale (e : EarlyBlk) : Bool := e.slot.isSome && decide (i < e.start + e.dlen) && decide (e.start < i + n)
  { g with early := g.early.filter (fun e => !stale e), p2 := (g.early.filter stale).filterMap (·.slot) ++ g.p2 }

/-- Bytes arrive for a segment at byte `i` of it: they are stored, and the granules that they cover whole have arrived (R109). -/
def segArrive (s : State) (g : Seg) (i : Nat) (b : List Byte) : State :=
  let s := ((segPieces g i b.length).foldl (fun (r : State × List Byte) a =>
    (bufWrite r.1 a.1 (r.2.take a.2) (3 + g.vol / 4), r.2.drop a.2)) (s, b)).1
  let whole := ((List.range (b.length / 64 + 2)).map (i / 64 + ·)).filter fun k =>
    i ≤ 64 * k && 64 * k < g.len && min (64 * k + 64) g.len ≤ i + b.length && !g.granules.contains k
  let g := rewritten { g with granules := g.granules ++ whole } i b.length
  let s := modSeg s g.vol g.cid g.no fun h => { h with granules := g.granules, early := g.early, p2 := g.p2 }
  if segWhole g then segComplete s g else s

/-- Store the part of a write that lies in open ranges, from window offset `a` on; true where some byte fell outside. -/
def windowStore (s : State) (p : Port) (q : Nat) : Nat → Nat → List Byte → State × Bool
  | 0, _, b => (s, !b.isEmpty)
  | fuel + 1, a, b =>
    if b.isEmpty then (s, false)
    else match openSegAt s p q a with
      | some g =>
        let k := min b.length (g.off + g.len - a)
        let (s, d) := windowStore (segArrive s g (a - g.off) (b.take k)) p q fuel (a + k) (b.drop k)
        (s, d)
      | none =>
        let (s, _) := windowStore s p q fuel (a + 1) (b.drop 1)
        (s, true)

/-- A posted write to BAR 2 (R87, R109, R78). -/
def dataWindowWrite (s : State) (p : Port) (off : Nat) (b : List Byte) : State :=
  if !barOpen s p || (mst s (portMaster p)).frozen then s
  else
    let s := wake s 1
    let (s, dropped) := windowStore s p (off / windowBytes) (b.length + 1) (off % windowBytes) b
    if dropped then setEvt (count s (.hp p) 2) (.hp p) 9 else s

end Sys2Proof.Machine
end

