-- ==== Sys2Proof/Machine/Commands.lean ====
section
/-! DEFINITION. The bodies of the volume commands at their turn: WRITE, WRITE_MARK and SET_EOD (R105 to R108, R113, R128, R129, R133,
R134), READ, LOCATE and SPACE (R111 to R113), READ_POSITION (R114), SET_VOLUME_PARAMS (R116), GET_LOG (R118), and the DMA reads that
WRITE and READ need (R107, R111, R507). -/

namespace Sys2Proof.Machine

/-- The body of a command needs DMA that its port does not issue in D3hot (R506). -/
def dmaHeld (s : State) (cid opc : Nat) : Bool :=
  (port s (cmd s cid).port).d3hot && !(cmd s cid).mute && (opc == 1 || opc == 7 || opc == 0x20)

/-- A command has started and its body has not run. -/
def atStart (s : State) (cid opc : Nat) : Bool :=
  (cmd s cid).phase == .started && cOpc (cmd s cid).bytes == opc && !s.fwu.paused && !dmaHeld s cid opc && s.cmds.any fun c => c.1 == cid

/-- The volume of a command. -/
def cmdVol (s : State) (cid : Nat) : Nat := (cmd s cid).vol.getD 0

/-! ### Write-type commands -/

/-- The truncation of a write-type command is done: what was read for it is not needed any more. -/
def truncDone (s : State) (cid v : Nat) : State :=
  modSlice (dropDecoded s (v / 4) fun d => d.vol != v) (v / 4) fun x =>
    { x with gather := if gatherCid x.gather.purpose = some cid then {} else x.gather }

/-- Truncate for a write-type command where its LBN is below end of data, and go on (R134). -/
def afterTrunc (s : State) (cid : Nat) (go : State → State) : State :=
  let v := cmdVol s cid
  let t := (cmd s cid).lbn
  if (vol s v).eod ≤ t then go s
  else match truncateAt s cid v t with
    | .done s => go (truncDone s cid v)
    | .wait s => s
    | .fail code ds => complete s cid code (if code.1 = 3 then t else 0) { dataSet := ds }

/-- The segments of a WRITE wait their turn, the first one for admission (R108). -/
def writeSegs (s : State) (cid : Nat) : State :=
  let v := cmdVol s cid
  let c := cmd s cid
  let gs := (mkSegs cid v c.segs 0 c.lbn).map fun g =>
    { g with phase := if g.no = 0 then .waitAdmit else g.phase, par := (vol s v).par }
  let s := modVol s v fun x => { x with segs := x.segs ++ gs }
  let s := modSlice s (v / 4) fun x => { x with toAdmit := x.toAdmit ++ [(cid, 0)] }
  modCmd s cid fun c => { c with phase := .transfer, endLbn := c.lbn }

/-- The record lengths of a WRITE are known and its turn goes on. -/
def writeTurn (s : State) (cid : Nat) : State := afterTrunc s cid fun s => writeSegs s cid

/-- The next segment sequence of a volume (R133). -/
def takeSeq (s : State) (v : Nat) : State × Nat :=
  let n := (vol s v).segNext
  (modVol s v fun x => { x with segNext := n + 1 }, n)

/-- A segment without host data. -/
def bareSeg (s : State) (cid : Nat) (sn marks : Nat) : Seg :=
  let t := (cmd s cid).lbn
  { seq := sn, cid := cid, no := 0, vol := cmdVol s cid, len := 0, recs := [], firstLbn := t, endLbn := t + marks, eodAfter := t + marks,
    marks := marks, blocks := (cutMarks marks).length, phase := if marks = 0 then .buffered else .waitAdmit }

/-- WRITE_MARK takes its segment sequence and waits for the slots of its filemarks (R133, R195). -/
def markTurn (s : State) (cid : Nat) : State :=
  afterTrunc s cid fun s =>
    let v := cmdVol s cid
    let (s, sn) := takeSeq s v
    let g := bareSeg s cid sn (leAt (cmd s cid).bytes 16 4)
    let s := modVol s v fun x => { x with segs := x.segs ++ [g] }
    let s := modSlice s (v / 4) fun x => { x with toAdmit := x.toAdmit ++ [(cid, 0)] }
    modCmd s cid fun c => { c with phase := .transfer, endLbn := c.lbn }

/-- SET_EOD takes effect at its turn (R113, R133, R135). -/
def eodTurn (s : State) (cid : Nat) : State :=
  afterTrunc s cid fun s =>
    let v := cmdVol s cid
    let (s, sn) := takeSeq s v
    let g := bareSeg s cid sn 0
    let s := modVol s v fun x => { x with segs := x.segs ++ [g] }
    complete (bufferSeg s g) cid (0, 0) 0

/-- The record-length list of a WRITE is asked for (R107), once the data set that the WRITE would cut, if any, has been found to be one
that it may cut: the label of R302 is tested at its turn (R509). -/
def writeList (s : State) (cid : Nat) : State :=
  let v := cmdVol s cid
  let c := cmd s cid
  let ask (s : State) : State :=
    emit (modCmd s cid fun c => { c with phase := .listWait }) (.dmaRead c.port (leAt c.bytes 24 8) (4 * leAt c.bytes 20 4))
  if (vol s v).eod ≤ c.lbn then ask s
  else match truncateAt s cid v c.lbn with
    | .done _ => ask s
    | .wait s => s
    | .fail code ds => complete s cid code (if code.1 = 3 then c.lbn else 0) { dataSet := ds }

/-- A WRITE goes on at its turn: its record lengths are known, or they are to be asked for. -/
def writeOn (s : State) (cid : Nat) : State := if (cmd s cid).segs.isEmpty then writeList s cid else writeTurn s cid

/-- A write-type command goes on at its turn. -/
def writeTypeTurn (s : State) (cid : Nat) : State :=
  let o := cOpc (cmd s cid).bytes
  if o = 1 then writeOn s cid else if o = 3 then markTurn s cid else if o = 0xB then eodTurn s cid else s

/-- The first LBN of a command, with all ones resolved to a position (R105). -/
def resolveLbn (s : State) (cid at_ : Nat) : State :=
  modCmd s cid fun c => { c with lbn := if cLbn c.bytes = allOnes then at_ else cLbn c.bytes,
                                 endLbn := if cLbn c.bytes = allOnes then at_ else cLbn c.bytes }

/-- WRITE (R106, R107): with RECORD_LENGTH the lengths are known, else the list is read by DMA. -/
def writeStart (s : State) (cid : Nat) : State :=
  let s := resolveLbn s cid (vol s (cmdVol s cid)).eod
  let c := cmd s cid
  let n := leAt c.bytes 20 4
  let l := leAt c.bytes 36 4
  if l = 0 then writeList s cid
  else writeTurn (modCmd s cid fun c => { c with segs := cutSegs (List.replicate n l) 0 [] }) cid

/-- WRITE_MARK (R113). -/
def markStart (s : State) (cid : Nat) : State := markTurn (resolveLbn s cid (vol s (cmdVol s cid)).eod) cid

/-- SET_EOD (R113). -/
def eodStart (s : State) (cid : Nat) : State := eodTurn (resolveLbn s cid (vol s (cmdVol s cid)).eod) cid

/-- The record-length list of a WRITE has arrived (R107). -/
def listArrived (s : State) (cid : Nat) (b : List Byte) : State :=
  let c := cmd s cid
  let n := leAt c.bytes 20 4
  let ls := (List.range n).map fun i => leAt b (4 * i) 4
  if ls.all (within 1 16777216) && sumLens ls == leAt c.bytes 16 4 then
    if allOnes < (vol s (cmdVol s cid)).segNext + (cutSegs ls 0 []).length then complete s cid (2, 0xA) 0
    else writeTurn (modCmd s cid fun c => { c with segs := cutSegs ls 0 [], dma := [] }) cid
  else complete s cid (2, 0xF) 0

/-! ### Reading and positioning -/

/-- READ (R111). -/
def readStart (s : State) (cid : Nat) : State :=
  let s := resolveLbn s cid (vol s (cmdVol s cid)).pos
  itemsRun (modCmd s cid fun c => { c with phase := .reading }) cid

/-- LOCATE (R113). -/
def locateStart (s : State) (cid : Nat) : State :=
  itemsRun (modCmd s cid fun c => { c with phase := .reading, lbn := if leAt c.bytes 36 1 = 1 then (vol s (cmdVol s cid)).eod else cLbn c.bytes }) cid

/-- SPACE (R113). -/
def spaceStart (s : State) (cid : Nat) : State :=
  itemsRun (modCmd s cid fun c => { c with phase := .reading, pos := (vol s (cmdVol s cid)).pos,
                                           residual := (BitVec.ofNat 64 (leAt c.bytes 16 8)).toInt }) cid

/-- A scatter-list entry of a READ has arrived (R111). -/
def scatterArrived (s : State) (cid : Nat) (b : List Byte) : State :=
  let c := cmd s cid
  let a := leAt b 0 8
  let n := leAt b 8 4
  if n = 0 || leAt b 12 4 != 0 || 0xFFFFFFFF < c.scSum + n then complete s cid (2, 2) 24
  else itemsRun (modCmd s cid fun c => { c with phase := .reading, scatter := c.scatter ++ [(a, n)], scNext := c.scNext + 1,
                                                scSum := c.scSum + n, dma := [] }) cid

/-- A command of opcode `opc` waits for data of a DMA read. -/
def waitsDma (s : State) (cid opc : Nat) : Bool := (cmd s cid).phase == .listWait && cOpc (cmd s cid).bytes == opc

/-- Data of a DMA read arrives for a command: it goes on once it has what it asked for (R107, R111). -/
def cmdDma (s : State) (cid need : Nat) (b : List Byte) (go : State → List Byte → State) : State :=
  let d := (cmd s cid).dma ++ b
  if d.length < need then modCmd s cid fun c => { c with dma := d }
  else go s (d.take need)

/-- Data that arrives during an activation pause is kept (R157). -/
def keepDma (s : State) (cid : Nat) (b : List Byte) : State := modCmd s cid fun c => { c with dma := c.dma ++ b }

/-- A command whose DMA data is complete goes on (R107, R111). -/
def dmaReady (s : State) (cid : Nat) : State :=
  let b := (cmd s cid).bytes
  if cOpc b = 1 then cmdDma s cid (4 * leAt b 20 4) [] fun s d => listArrived s cid d
  else if cOpc b = 2 then cmdDma s cid 16 [] fun s d => scatterArrived s cid d
  else s

/-- A DMA read of a command fails (R507). -/
def cmdDmaFail (s : State) (cid : Nat) : State := complete (emit s (.aer (cmd s cid).port)) cid (2, 2) 24

/-! ### READ_POSITION, SET_VOLUME_PARAMS, GET_LOG -/

/-- The 64 bytes of READ_POSITION (R114). -/
def positionBytes (s : State) (v : Nat) : List Byte :=
  let x := vol s v
  leBytes 8 x.pos ++ leBytes 8 x.bufEnd ++ leBytes 8 x.tapeEnd ++ leBytes 8 x.comEnd
    ++ leBytes 8 (if x.hzn = 0 then allOnes else x.hzn - 1) ++ leBytes 4 x.dsNow ++ leBytes 2 x.wrapNow ++ leBytes 1 (v % 4)
    ++ leBytes 1 (bit (x.pos == 0) + 2 * bit (x.pos == x.eod) + 4 * bit (ewPassed s v) + 8 * bit x.mounted
        + 16 * bit (x.readOnly || (link s (v / 4)).wprot))
    ++ leBytes 8 (remaining s v) ++ leBytes 8 x.accSeq

/-- READ_POSITION (R114). -/
def readPosition (s : State) (cid : Nat) : State :=
  let c := cmd s cid
  complete (emit s (.dmaWrite c.port (leAt c.bytes 24 8) (positionBytes s (cmdVol s cid)))) cid (0, 0) 0

/-- SET_VOLUME_PARAMS (R116): for the commands that follow. -/
def setParams (s : State) (cid : Nat) : State :=
  let b := (cmd s cid).bytes
  let k := leAt b 36 1
  let s := modVol s (cmdVol s cid) fun x =>
    { x with bind := if k < 128 then .slot k else .clear, chainBreak := true,
             par := { method := leAt b 37 1, level := leAt b 38 1, linked := leAt b 39 1 % 2 == 1, dynamic := leAt b 39 1 / 2 % 2 == 1,
                      hint := BitVec.ofNat 16 (leAt b 40 2), stride := leAt b 42 2 } }
  complete s cid (0, 0) 0

/-- The error-log entries of a port from ring index `i` on; an entry that was never written is zeros. -/
def errEntries (s : State) (p : Port) (i n : Nat) : List (List Byte) :=
  (List.range n).map fun k => padTo (tget (port s p).errs ((i + k) % 256) { bytes := [], read := true }).bytes 64

/-- Entries of the error log count as read once they are copied (R149). -/
def markErrRead (s : State) (p : Port) (i n : Nat) : State :=
  modPort s p fun t => { t with errs := t.errs.map fun e => if (e.1 + 256 - i) % 256 < n then (e.1, { e.2 with read := true }) else e }

/-- The event-log entries from the one that FIRST names, else from the oldest (R118, R429). -/
def eventEntries (s : State) (first n : Nat) : List (List Byte) :=
  let l := s.log.entries.reverse
  let from_ := l.dropWhile fun e => e.seq % 2 ^ 32 != first
  ((if from_.isEmpty then l else from_).take n).map entryBytes

/-- GET_LOG (R118): entries by DMA, oldest first. It stops at an entry of the error log that cannot be read (R167). -/
def getLog (s : State) (cid : Nat) (sram : Option (Nat × SramFault)) : State :=
  let c := cmd s cid
  let b := c.bytes
  let first := leAt b 16 4
  let n := leAt b 20 4
  let ring := b.getD 36 0 == 0
  let bad := sram.filter fun f => ring && decide (f.1 < n)
  let (s, lost) := sramHit s (bad.map (·.2)) (pIdx c.port)
  let n := if lost then (bad.map (·.1)).getD n else n
  let es := if ring then errEntries s c.port first n else eventEntries s first n
  let s := (numbered es).foldl (fun s e => emit s (.dmaWrite c.port (leAt b 24 8 + 64 * e.1) e.2)) s
  let s := if ring then markErrRead s c.port first n else s
  complete s cid (if lost then (4, 1) else (0, 0)) es.length

end Sys2Proof.Machine
end

