-- ==== Sys2Proof/Machine/Progress.lean ====
section
/-! DEFINITION. What a transport does of its own accord after each event: cutting, packing and closing data sets (R198, R281, R282),
taking verified ones away (R135), the DIRTY mark (R276), early warning (R317), the commands that wait for tape (R132, R137), and the
motion of the tape for reading (R327, R362). -/

namespace Sys2Proof.Machine

/-- A FLUSH or UNMOUNT waits for data that the horizon of no closed data set covers (R282). -/
def flushCloses (s : State) (v : Nat) : Bool :=
  let h := ((setsOf s v).getLast?.map (·.hzn)).getD (vol s v).hzn
  s.cmds.any fun c => c.2.vol == some v && c.2.phase == .tape && (cOpc c.2.bytes == 6 || cOpc c.2.bytes == 9) && h < c.2.pos

/-- A command with INTERRUPT_STREAM wants the tape for a volume, or a MOUNT that interrupts in the same way (R132, R361). -/
def interrupted (s : State) (v : Nat) : Bool :=
  match (slice s (v / 4)).gather.purpose with
  | .items c => (cmd s c).vol == some v && ((cmd s c).bytes.getD 1 0).getLsbD 0
  | .lastMap _ => true
  | .baseMap _ => true
  | .scan _ => true
  | .header _ => true
  | .search _ => true
  | _ => false

/-- A segment of a transport waits for admission (R196). -/
def admissionWaits (s : State) (n : Nat) : Bool :=
  match admitHead s n with
  | some (_, g) => !canAdmit s n g
  | none => false

/-- The open data set of a volume is to be closed early now (R196, R282). -/
def closeDue (s : State) (v : Nat) : Bool :=
  (openOf s v).isSome && (interrupted s v
    || (!dataToPlace s v && (flushCloses s v || (vol s v).waitSeek.isSome || admissionWaits s (v / 4)
      || (page s (pFmt (v / 4))).draining)))

/-- Cut the Buffered segments that can be cut. -/
def cutAll (s : State) (v : Nat) : State := (vol s v).segs.foldl (fun s g => if g.phase = .buffered then cutSeg s v g else s) s

/-- Early warning is passed for the first time since MOUNT (R317). -/
def warnEarly (s : State) (v : Nat) : State :=
  if (vol s v).ewSeen || !ewPassed s v then s else raise (modVol s v fun x => { x with ewSeen := true }) (pFmt (v / 4)) 12 (v % 4)

/-- Something is to be written after a clean map: DIRTY is set first (R276). -/
def markDirty (s : State) (v : Nat) : State :=
  let n := v / 4
  let due := match nextSet s v with
    | .none => false
    | _ => true
  if (vol s v).mounted && (vol s v).mapClean && due && !formatting s n && !((slice s n).want.parts.getD (v % 4) {}).dirty then
    wantRec s n fun r => recPart r (v % 4) fun e => { e with dirty := true }
  else s

/-- A MOUNT, FORMAT or UNMOUNT is at work on a transport. -/
def wholeWork (s : State) (n : Nat) : Bool :=
  s.cmds.any fun c => c.2.phase == .tape && [8, 9, 0xA].contains (cOpc c.2.bytes) && c.2.vol.map (· / 4) == some n

/-- A volume that is not mounted and that nothing works on holds no write data. -/
def sweepVol (s : State) (v : Nat) : State :=
  let x := vol s v
  if !x.mounted && !wholeWork s (v / 4) && !(x.segs.isEmpty && x.blks.isEmpty && (setsOf s v).isEmpty && x.mapWanted.isNone) then
    unmountVol s v
  else s

/-- The wait of a command to read is over once the command is (R132). -/
def clearSeek (s : State) (v : Nat) : State :=
  match (vol s v).waitSeek with
  | some (c, _) => if (cmd s c).phase = .ended then modVol s v fun x => { x with waitSeek := none } else s
  | none => s

/-- A FMT page that drains has the map of what its volumes wrote written too (R304). -/
def drainMap (s : State) (v : Nat) : State :=
  let x := vol s v
  if (page s (pFmt (v / 4))).draining && !(page s (pFmt (v / 4))).aborting && x.mounted && volWritable s v && !writeStream s v && x.mapped < x.hzn && x.mapWanted.isNone && !x.mapMaking then
    modVol s v fun x => { x with mapWanted := some false }
  else s

/-- Place blocks while the next one is compressed (R281). One that lies over an uncorrectable word of the buffer halts the volume
(R143, R166). -/
def packAll (s : State) (v : Nat) : Nat → State
  | 0 => s
  | fuel + 1 =>
    match nextBlk (vol s v) with
    | none => s
    | some b =>
      if b.phase != .done then s
      else if anyBad s b.slot b.len then haltBuffer (readBad s b.slot b.len (3 + v / 4)) v
      else packAll (packBlk s v b) v fuel

/-- The end of the medium is reached and closed, with write data still to place: the volume halts (R318). -/
def mediumEnds (s : State) (v : Nat) : State :=
  let x := vol s v
  if x.ending && x.mapWanted.isNone && !x.mapMaking && x.ridgeDue.isNone && !((setsOf s v).any (·.begun)) then haltMedium s v else s

/-- What goes on of itself on a volume. -/
def progressVol (s : State) (v : Nat) : State :=
  let s := cutAll (clearSeek (sweepVol s v) v) v
  let s := packAll s v ((vol s v).blks.length + 1)
  let s := advancePlaced s v
  let s := if closeDue s v then closeOpen s v true false else s
  let s := mediumEnds (retireSets s v ((setsOf s v).length + 1)) v
  warnEarly (markDirty (drainMap s v) v) v

/-- A READ, LOCATE or SPACE waits for tape: it waits for the write stream first, or reading begins (R132, R512). -/
def itemsTape (s : State) (cid : Nat) : State :=
  let c := cmd s cid
  let v := cmdVol s cid
  match tapeStop s (v / 4) with
  | some code => complete s cid code (endResult s cid code.1)
  | none =>
    let s := if !(c.bytes.getD 1 0).getLsbD 0 && writeStream s v && (vol s v).waitSeek.isNone then
        modVol s v fun x => { x with waitSeek := some (cid, 0) }
      else s
    if (slice s (v / 4)).gather.phase = .idle then startWalk s (.items cid) v (itemWanted s cid) c.stage else s

/-- A truncating command waits for the data set that it cuts (R302). -/
def truncTapeRead (s : State) (cid : Nat) : State :=
  let v := cmdVol s cid
  let s := writeTypeTurn s cid
  if (cmd s cid).phase = .tape && (slice s (v / 4)).gather.phase = .idle && (vol s v).blkNext < seqReserved s v then
    startWalk s (.overwrite cid) v (cmd s cid).lbn (cmd s cid).stage
  else s

/-- What goes on of itself for a command of transport `n`. -/
def progressCmd (n : Nat) (s : State) (cid : Nat) : State :=
  let c := cmd s cid
  let o := cOpc c.bytes
  if c.phase = .reading then itemsRun s cid
  else if c.phase = .listWait then dmaReady s cid
  else if c.phase != .tape then s
  else if o = 8 then mountGo s n cid
  else if o = 0xA then formatGo s n cid
  else if o = 9 then unmountGo s n cid
  else if o = 6 then flushGo s cid
  else if writeType o then truncTapeRead s cid
  else itemsTape s cid

/-- The tape moves for reading as it can: to its place, into READING, or to a stop (R328, R361, R362). -/
def drive (s : State) (n : Nat) : State :=
  let x := slice s n
  let g := x.gather
  if (link s n).phase != .up then s
  else if g.phase = .running && s.fwu.quiesce && g.attempt == 0 && (setInTurn g).isNone then
    modGather s n fun g => { g with phase := .seek }
  else if atRest s n && wantsTape s n && !s.fwu.quiesce && !((volsOf n).any (owing s)) then
    startLocate (modGather s n fun g => { g with phase := .locating }) n .gather g.wrap g.lpos (attemptOffset g.attempt)
  else if g.phase = .placed && (link s n).mode = .ready && !s.fwu.quiesce then startRead s n
  else if (link s n).mode = .reading && !x.ending && (g.phase = .seek || g.phase = .idle) then stopRead s n
  else s

/-- Commands of a transport that have started. -/
def cmdsOf (s : State) (n : Nat) : List Nat := liveCmds s fun _ c => c.vol.map (· / 4) == some n

/-- One round of what goes on of itself. -/
def progressOnce (s : State) (n : Nat) : State :=
  let s := (volsOf n).foldl progressVol s
  let s := (cmdsOf s n).foldl (progressCmd n) s
  drive s n

/-- Where the commands of a transport stand. -/
def standing (s : State) (n : Nat) : List (Nat × CmdPhase) := (cmdsOf s n).map fun c => ((cmd s c).stage, (cmd s c).phase)

/-- Rounds, while commands go on. -/
def progressFor (s : State) (n : Nat) : Nat → State
  | 0 => s
  | fuel + 1 =>
    let t := progressOnce s n
    if standing t n = standing s n then t else progressFor t n fuel

/-- The slice of transport `n` has work: a started command, write data, or a reading (R407). -/
def sliceBusy (s : State) (n : Nat) : Bool :=
  !(cmdsOf s n).isEmpty || (volsOf n).any (writeStream s) || (slice s n).gather.phase != .idle

/-- Work for a gated slice ungates it (R21). -/
def ungateSlice (s : State) (n : Nat) : State := if domGated s (33 + 3 * n) && sliceBusy s n then ungate s (33 + 3 * n) else s

/-- A link that drains is stopped once its transfers have finished (R371). -/
def linkStop (s : State) (n : Nat) : State :=
  let l := link s n
  if (page s (pLink n)).draining && l.phase == .up && l.mbx.isEmpty && l.ctrl.all (·.code != 0x1E) then ctrlSend s n 0x1E []
  else s

/-- What goes on of itself on transport `n`; nothing during an activation pause (R157). -/
def progress (s : State) (n : Nat) : State :=
  if s.fwu.paused then s else ungateSlice (linkStop (progressFor s n 12) n) n

end Sys2Proof.Machine
end

