-- ==== Sys2Proof/Machine/Links.lean ====
section
/-! DEFINITION. What arrives over a transport link and what its timers do: the link start (R354), lanes (R355, R356), link down (R357),
the events of R360 and R361, positioning (R362), time (R351), channel data (R346), cartridge memory (R352). -/

namespace Sys2Proof.Machine

/-- Take the flags of HELLO, MODE and CARTRIDGE events (R360). -/
def takeFlags (s : State) (n : Nat) (b : Byte) : State :=
  modLink s n fun l => { l with present := b.getLsbD 0, threaded := b.getLsbD 1, wprot := b.getLsbD 2 }

/-- An upstream CTRL flit with the event `code` (R360). -/
def ctrlEvent (s : State) (n code : Nat) (f : LinkFlit) (go : State → State) : State :=
  let (s, v) := rxLink s n tyCtrl f
  afterRx s n v fun s => if leAt f.bytes 6 1 = code then go s else s

/-! ### Link start -/

/-- The link of an enabled page starts from training (R354). -/
def linkStart (s : State) (n : Nat) : State :=
  modLink s n fun l => { clearLink l with phase := .training, stage := 0, retrain := 0, fwTries := 0, noRetry := false }

/-- LINK_TRAINED: the trained lanes that are not masked; a direction with none fails the start (R354). The count of the first frame is a free
value (R336). -/
def linkTrained (s : State) (n : Nat) (down up : BitVec 2) : State :=
  if (link s n).phase != .training then s
  else
    let m := field s (pLink n) 0x040 0 4
    let d := down.toNat &&& (m % 4)
    let u := up.toNat &&& (m / 4)
    if d = 0 || u = 0 then linkFailed s n 1 true
    else
      let s := nextFree (modLink s n fun l =>
        { l with lanes := BitVec.ofNat 4 (d + 4 * u), phase := .loading, stage := 0, frameFirst := freeVal s % 2 ^ 32, frameAt := clock s,
                 txFrame := 0, txDealt := [] })
      if solo s n then raise s (pLink n) 10 else s

/-- TRAIN_TIMEOUT, or a HELLO that does not come (R354, R368). -/
def trainTimeout (s : State) (n : Nat) : State :=
  match (link s n).phase with
  | .training => linkFailed s n 1 true
  | .loading => if (link s n).stage = 1 then s else linkFailed s n 7 true
  | _ => s

/-- The link is tried again 1 s after a failure (R354). -/
def linkRetry (s : State) (n : Nat) : State :=
  if (link s n).phase = .failed && !(link s n).noRetry && enabledNow s (pLink n) then linkStart s n else s

/-- Send the KXH2 sub-image and FW_DONE (R353, R354). -/
def loadBridge (s : State) (n : Nat) : State :=
  let img := (runImage s).kxh2Image
  let s := queueFlits (count s (pLink n) 8) n (fwFlits img)
  ctrlSend (modLink s n fun l => { l with stage := 1 }) n 0x01 (leBytes 4 img.length ++ leBytes 4 (crc32c img).toNat)

/-- The mode that a transport reports. -/
def takeMode (s : State) (n : Nat) (m : TMode) : State :=
  let s := if (link s n).threaded then s else forgetCartridge s n
  enterMode s n m

/-- HELLO with STAGE 1: the link is up (R354, R360). -/
def linkUp (s : State) (n : Nat) (f : List Byte) : State :=
  let s := modLink s n fun l => { l with phase := .up }
  let s := setReg (setReg s (pLink n) 0x068 (w32 (leAt f 10 2 + 2 ^ 16 * leAt f 9 1))) (pFmt n) 0x0A4 (w32 (leAt f 16 2))
  let s := setReg s (pServo n) 0x060 (w32 (leAt f 24 2 + 2 ^ 16 * leAt f 26 2))
  let s := setReg s (pServo n) 0x064 (w32 (leAt f 20 2 + 2 ^ 16 * leAt f 18 2))
  let s := setReg s (pServo n) 0x068 (w32 (leAt f 22 2))
  let s := takeFlags (unmountAll s n) n (f.getD 14 0)
  let s := raise s (pLink n) 8
  match modeOf (leAt f 13 1) with
  | some m => takeMode s n m
  | none => s

/-- HELLO (R354). -/
def hello (s : State) (n : Nat) (f : List Byte) : State :=
  let l := link s n
  if l.phase = .loading && l.stage = 0 && leAt f 8 1 = 0 then loadBridge s n
  else if l.phase = .loading && l.stage = 2 && leAt f 8 1 = 1 then linkUp s n f
  else s

/-- FW_RESULT (R354): one further load, then FW_REJECTED without a retry. -/
def fwResult (s : State) (n : Nat) (f : List Byte) : State :=
  let l := link s n
  if !(l.phase = .loading && l.stage = 1) then s
  else if leAt f 7 1 = 0 then modLink s n fun l => { l with stage := 2 }
  else if l.fwTries = 0 then loadBridge (modLink s n fun l => { l with fwTries := 1 }) n
  else raise (linkFailed s n 5 false) (pLink n) 16

/-! ### Lanes and link down -/

/-- Bit of a lane in LANE_MASK: 0 and 1 down, 2 and 3 up. -/
def laneBit (up : Bool) (lane : Nat) : Nat := (if up then 2 else 0) + lane

/-- Reading above step 12 on one lane stops, and reads the data set in progress again (R326). -/
def soloRead (s : State) (n : Nat) : State :=
  let x := slice s n
  if (link s n).mode = .reading && x.gather.phase = .running && 12 < x.current then
    moveGather (raise (count s (pFmt n) 16) (pFmt n) 17) n x.gather.wrap x.gather.lpos
  else s

/-- The RX_GOOD bit of a lane in a marker that the bridge sends; none where the marker is not valid (R336). -/
def rxGoodBit (b : List Byte) (lane : Nat) : Option Bool :=
  (readMarker b).bind fun k => if k.up then some (k.good / 2 ^ lane % 2 == 1) else none

/-- A marker that a receiver finds valid on an upstream lane (R336, R355). -/
def markerValid (b : List Byte) (lane : Nat) : Bool := (readMarker b).any fun k => k.up && k.lane == lane

/-- What the receiver or the sender has seen declares the lane failed (R355). -/
def laneLost (up : Bool) (lane : Nat) : LaneFault → Bool
  | .markers ms => up && ms.length == 4 && ms.all fun b => !markerValid b lane
  | .pma => up
  | .fec k => up && decide (16 < k)
  | .rxGood a b => !up && rxGoodBit a lane == some false && rxGoodBit b lane == some false

/-- A lane has failed (R355): the frames that follow go without it. -/
def laneFailed (s : State) (n : Nat) (up : Bool) (lane : Nat) (why : LaneFault) : State :=
  let l := link s n
  let k := laneBit up lane
  if !(l.phase = .up || l.phase = .loading) || !l.lanes.getLsbD k || !laneLost up lane why then s
  else
    let s := modLink (frameLeaves s n) n fun l => { l with lanes := l.lanes &&& ~~~(BitVec.ofNat 4 (2 ^ k)) }
    let s := raise (count s (pLink n) 6) (pLink n) 10 k
    let m := (link s n).lanes.toNat
    if m % 4 = 0 || m / 4 = 0 then linkDown s n 4 else soloRead (soloWrite s n) n

/-- A failed lane is retrained (R356); a masked one never is. -/
def laneRetrain (s : State) (n : Nat) : State :=
  let l := link s n
  if l.phase = .up || l.phase = .loading then
    modLink s n fun l => { l with retrain := BitVec.ofNat 4 (field s (pLink n) 0x040 0 4) &&& ~~~l.lanes }
  else s

/-- A retrained lane is good at its receiver (R356): no uncorrectable codeword in 100 ms upstream, and the RX_GOOD bit of the bridge's
marker downstream. -/
def laneGood (up : Bool) (lane bad : Nat) (marker : List Byte) : Bool :=
  if up then bad == 0 else rxGoodBit marker lane == some true

/-- A retrained lane rejoins at a frame boundary (R356). -/
def laneRestored (s : State) (n : Nat) (up : Bool) (lane bad : Nat) (marker : List Byte) : State :=
  let l := link s n
  let k := laneBit up lane
  if (l.phase = .up || l.phase = .loading) && l.retrain.getLsbD k && laneGood up lane bad marker then
    raise (modLink (frameLeaves s n) n fun l => { l with lanes := l.lanes ||| BitVec.ofNat 4 (2 ^ k), retrain := l.retrain &&& ~~~(BitVec.ofNat 4 (2 ^ k)) })
      (pLink n) 11 k
  else s

/-- No valid frame for RX_TIMEOUT (R357). -/
def rxTimeout (s : State) (n : Nat) : State :=
  if (link s n).phase = .up || (link s n).phase = .loading then linkDown s n 2 else s

/-- The oldest unacknowledged flit has waited 4 µs (R342). -/
def retransmit (s : State) (n : Nat) : State :=
  let l := link s n
  if l.unacked.isEmpty || !(l.phase = .up || l.phase = .loading) then s
  else match resendAll s n with
    | (s, true) => linkDown s n 3
    | (s, false) => s

/-! ### CTRL events -/

/-- The volume that a LOCATE or WRITE_START of a slice writes. -/
def writesTo (s : State) (n : Nat) (c : CtrlOut) : Option Nat :=
  if c.code = 0x13 then (slice s n).curVol
  else if c.code = 0x12 then (match (slice s n).locFor with
    | some (.append v) => some v
    | _ => none)
  else none

/-- The command that needs a motion of the tape for writing (R360): the MOUNT, FORMAT or UNMOUNT at work on the transport, else the
oldest FLUSH that waits on the volume written to. -/
def moveNeeds (s : State) (n : Nat) (c : CtrlOut) : Option Nat :=
  (writesTo s n c).bind fun v =>
    (((workOf s n 8).orElse fun _ => workOf s n 0xA).orElse fun _ => workOf s n 9).orElse fun _ =>
      (liveCmds s fun _ d => d.vol == some v && d.phase == .tape && cOpc d.bytes == 6).head?

/-- A command ends because the bridge refused the motion that it needs (R360); a MOUNT or FORMAT leaves its volume not mounted. -/
def refuseMove (s : State) (cid : Nat) : State :=
  let c := cmd s cid
  let s := if cOpc c.bytes = 8 || cOpc c.bytes = 0xA then unmountVol s (c.vol.getD 0) else s
  complete s cid (7, 4) (endResult s cid 7)

/-- The bridge refuses a command: the formatter command that needed it completes (R360). -/
def modeRefused (s : State) (n : Nat) (c : CtrlOut) : State :=
  let s := setEvt s (pLink n) 15
  match c.cid with
  | some cid => complete s cid (7, 4) (endResult s cid 7)
  | none =>
    if c.code = 0x14 || (c.code = 0x12 && (slice s n).locFor == some .gather) then
      let s := modSlice s n fun x => { x with locFor := none }
      match gatherCid (slice s n).gather.purpose with
      | some cid => complete (endGather s n) cid (7, 4) (endResult s cid 7)
      | none => endGather s n
    else
      let who := moveNeeds s n c
      let s := modSlice s n fun x => { x with locFor := if c.code = 0x12 then none else x.locFor,
                                              starting := if c.code = 0x13 then false else x.starting }
      match who with
      | some cid => refuseMove s cid
      | none => s

/-- ACK (R360, R365, R371). -/
def ctrlAck (s : State) (n : Nat) (f : List Byte) : State :=
  match (link s n).ctrl.find? fun c => c.cmdId == leAt f 8 2 with
  | none => s
  | some c =>
    let s := modLink s n fun l => { l with ctrl := l.ctrl.erase c }
    match leAt f 7 1 with
    | 0 => if c.code = 0x1E then linkDown s n 6 else if c.code = 0x1C then unmountAll s n else s
    | 1 => modeRefused s n c
    | 2 => transportFault s n 6
    | _ => s

/-- No ACK within CTRL_TIMEOUT (R364); a LINK_STOP that is not answered ends the link all the same (R371). -/
def ctrlTimeout (s : State) (n : Nat) : State :=
  match (link s n).ctrl with
  | [] => s
  | c :: rest =>
    if (link s n).phase != .up then s
    else
      let s := modLink s n fun l => { l with ctrl := rest }
      if c.code = 0x1E then linkDown s n 6 else transportFault s n 2

/-- A mode transition is under way that has a bound (R361). -/
def transitBound (s : State) (n : Nat) : Bool :=
  let x := slice s n
  match (link s n).mode with
  | .threading => true
  | .calibrating => true
  | .locating => true
  | .rewinding => true
  | .unthreading => true
  | .writing => x.ending
  | .reading => x.ending
  | _ => (link s n).ctrl.any fun c => c.code == 0x1A || c.code == 0x1B || c.code == 0x1C

/-- A mode transition passes its bound (R361). -/
def modeTimeout (s : State) (n : Nat) : State :=
  if (link s n).phase = .up && transitBound s n then transportFault s n 3 else s

/-- What a slice does when its transport has come to rest in READY (R324, R361). -/
def tapeAtRest (s : State) (n : Nat) : State :=
  let s := if (slice s n).inBurst then burstEnded s n else s
  modSlice s n fun x =>
    { x with ending := false, stopped := true, starting := false,
             gather := if x.gather.phase = .running || x.gather.phase = .starting then { x.gather with phase := .seek } else x.gather }

/-- What a slice does when its transport begins to write or read. -/
def tapeMoving (s : State) (n : Nat) (m : TMode) : State :=
  match m with
  | .writing => if (slice s n).starting then burstBegun s n else s
  | .reading => modSlice s n fun x =>
      { x with stopped := false, gather := if x.gather.phase = .starting then { x.gather with phase := .running } else x.gather }
  | .ready => tapeAtRest s n
  | _ => s

/-- MODE (R361). -/
def modeEvent (s : State) (n : Nat) (f : List Byte) : State :=
  match modeOf (leAt f 8 1) with
  | none => s
  | some m =>
    let old := (link s n).mode
    let s := takeFlags s n (f.getD 9 0)
    if m = .faulted then
      enterFaulted (modServo s n fun v => { v with haltSent := false }) n (leAt f 10 1)
    else
      let s := if old = .faulted then unmountAll s n else s
      let s := if old != m && (m = .ready) then tapeMoving s n m else s
      let s := takeMode s n m
      if m = .ready then s else if old != m then aimSpeed (tapeMoving s n m) n else s

/-- CARTRIDGE (R361, R367): inserted, removed, or lost while the tape is threaded. -/
def cartridgeEvent (s : State) (n : Nat) (f : List Byte) : State :=
  let l := link s n
  let b := f.getD 8 0
  let s := raise s (pLink n) 14 b.toNat
  let s := takeFlags s n b
  if !b.getLsbD 0 && l.threaded then enterFaulted s n 0x24
  else if b.getLsbD 0 && l.mode = .empty then takeMode s n .loaded
  else if !b.getLsbD 0 && l.mode = .loaded then takeMode s n .empty
  else s

/-- The positioning succeeded (R362). -/
def placed (s : State) (n : Nat) (p : LocatePurpose) : State :=
  match p with
  | .gather => modSlice s n fun x => { x with locTries := 0, gather := { x.gather with phase := .placed } }
  | .append v =>
    let x := vol s v
    modSlice (modVol s v fun x => { x with moved := false }) n fun y => { y with locTries := 0, headAt := some (x.wrap, x.endLpos, x.endUm) }

/-- Four attempts have failed (R362). -/
def unplaced (s : State) (n : Nat) (p : LocatePurpose) : State :=
  let s := modSlice s n fun x => { x with locTries := 0 }
  match p with
  | .gather => gatherUnplaced s n
  | .append v =>
    match (workOf s n 8).orElse fun _ => workOf s n 0xA with
    | some cid => complete (unmountVol s v) cid (3, 5) (endResult s cid 3)
    | none => haltLocate s v

/-- POSITIONED (R362). -/
def positioned (s : State) (n : Nat) (f : List Byte) : State :=
  let x := slice s n
  match x.locFor with
  | none => s
  | some p =>
    let s := modSlice s n fun x => { x with locFor := none }
    let lpos := leAt f 9 3
    if leAt f 7 1 = 0 && leAt f 8 1 = x.locTo.1 && lpos ≤ x.locTo.2 + 1000 && x.locTo.2 ≤ lpos + 1000 then placed s n p
    else
      let s := setEvt (count s (pLink n) 9) (pLink n) 17
      let s := modSlice s n fun x => { x with locTries := x.locTries + 1 }
      if 4 ≤ (slice s n).locTries then unplaced s n p
      else modSlice s n fun x => { x with gather := if x.gather.phase = .locating then { x.gather with phase := .seek } else x.gather }

/-! ### Time, channel data, cartridge memory -/

/-- The round trip that an upstream TIME flit shows, less HOLD_NS (R351): from the departure of the frame it names to now; none where that
frame has not left, or the bridge says that it held it longer. -/
def roundTrip (s : State) (n downFrame hold : Nat) : Option Nat :=
  let t := frameTime s n
  let k := t * 5 / 1024
  let back := (frameNumber (link s n).frameFirst k + 2 ^ 32 - downFrame) % 2 ^ 32
  if back ≤ k && hold ≤ t - frameDeparts (k - back) then some (t - frameDeparts (k - back) - hold) else none

/-- The estimate of the link's delay (R351), in 16 bits. -/
def storeDelay (s : State) (n ns : Nat) : State := setReg s (pLink n) 0x06C (w32 (ns % 65536))

/-- Half of a measured round trip is the estimate (R351). Where none was measured, the estimate is a free value. -/
def takeTrip (s : State) (n : Nat) : Option Nat → State
  | some r => storeDelay s n (r / 2)
  | none => nextFree (storeDelay s n (freeVal s))

/-- A TIME flit from the bridge (R351): half of the round trip less HOLD_NS. -/
def timeUp (s : State) (n : Nat) (f : List Byte) : State := takeTrip s n (roundTrip s n (leAt f 4 4) (leAt f 8 4))

/-- TAI, in units of 2^-32 ns, at which the marker of the frame being dealt leaves (R351, R435). -/
def frameTai (s : State) (n : Nat) : Nat := s.tim.count + ((link s n).txFrame * 1024 - 5 * frameTime s n) * 2 ^ 32 / 5

/-- A TIME flit to the bridge (R351): in the first slot of lane 0 of the next frame, with that frame's count and time. -/
def timeDown (s : State) (n : Nat) : State :=
  if (link s n).phase = .up || (link s n).phase = .loading then
    let s := openFrame s n
    let tai := frameTai s n
    putFirst s n (leBytes 8 (tai / 2 ^ 32) ++ leBytes 4 (tai % 2 ^ 32) ++ leBytes 4 (frameNumber (link s n).frameFirst (link s n).txFrame)
      ++ leBytes 2 (field s (pLink n) 0x06C 0 16) ++ leBytes 1 (bit s.tim.taiValid))
  else s

/-- The units of a stream of upstream channel bytes (R344, R346): what is left, the units, whether a CHANNEL above 127 was met. -/
def takeUnits : Nat → List Byte → List Byte × List (List Byte) × Bool
  | 0, b => (b, [], false)
  | fuel + 1, b =>
    match b with
    | [] => ([], [], false)
    | c :: _ =>
      if c = 0xFF then ([], [], false)
      else if 128 ≤ c.toNat then ([], [], true)
      else if b.length < 280 then (b, [], false)
      else
        let (r, us, bad) := takeUnits fuel (b.drop 280)
        (r, b.take 280 :: us, bad)

/-- Channel units go to the verify decoder while writing and to the read decoder while reading (R346). -/
def chanUp (s : State) (n : Nat) (f : List Byte) : State :=
  let (r, us, bad) := takeUnits 2 ((link s n).chanRx ++ sub f 2 60)
  let s := modLink s n fun l => { l with chanRx := r }
  let s := us.foldl (fun s u =>
    match (link s n).mode with
    | .writing => verifyUnit s n u
    | .reading => if (slice s n).gather.phase = .running then gatherUnit s n u else s
    | _ => s) s
  if bad then transportFault s n 6 else s

/-- A cartridge-memory transfer that has had no answer for 100 ms (R352). -/
def mbxLate (s : State) (n : Nat) : State :=
  match (link s n).mbx.find? isCm with
  | some m => if (link s n).phase = .up then cmFailed s n m else s
  | none => s

/-! ### MODE_CTRL -/

/-- ENTER_SERVICE (R366). -/
def enterSvc (s : State) (n : Nat) : State :=
  let l := link s n
  if l.phase = .up && (l.mode = .empty || l.mode = .loaded || l.mode = .ready) && !anyMounted s n && (cmdsOf s n).isEmpty then
    ctrlSend s n 0x1A []
  else setEvt s (pLink n) 15

/-- EXIT_SERVICE (R366). -/
def exitSvc (s : State) (n : Nat) : State := if (link s n).phase = .up then ctrlSend s n 0x1B [] else s

/-- CLEAR_FAULT (R365). -/
def clearFlt (s : State) (n : Nat) : State := if (link s n).phase = .up then ctrlSend s n 0x1C [] else s

/-- A write of MODE_CTRL (R368). -/
def modeCtrl (s : State) (n : Nat) (v : Word) : State :=
  let s := if v.getLsbD 0 then enterSvc s n else s
  let s := if v.getLsbD 1 then exitSvc s n else s
  if v.getLsbD 2 then clearFlt s n else s

end Sys2Proof.Machine
end

