-- ==== Sys2Proof/WellFormed.lean ====
section
/-! DEFINITION. Which operands spell a command the hardware can receive. -/

namespace Sys2Proof

/-- A flit is 64 bytes (R338). -/
def flitOk (flit : LinkFlit) : Bool := flit.bytes.length == 64

/-- The rates a host link trains at: 32, 64 and 128 GT/s in the coding of `PORT_STAT.RATE` (R88, R90). -/
def rateOk (r : BitVec 3) : Bool := r == 5 || r == 6 || r == 7

/-- The widths a host link trains at: 4, 8 and 16 lanes (R88, R90). -/
def widthOk (w : BitVec 5) : Bool := w == 4 || w == 8 || w == 16

/-- A scrubbed row has 56 blocks of 32 bytes (R161). -/
def findingOk (f : ScrubFinding) : Bool := f.blk < 56 && f.data.length == 32

/-- A MMIO or posted write carries at most 4,096 bytes, and at least one. -/
def burstOk (b : List Byte) : Bool := 0 < b.length && b.length ≤ 4096

/-- A master names the pool; the management core may name a size instead (R183). -/
def wantOk (m : Master) : PoolWant → Bool
  | .pool _ => true
  | .size _ => m == .mgmt

/-- The operands spell a command of the hardware. -/
def Instr.wf : Instr → Bool
  | .registerWrite _ _ _ _ more => more.length < 1024
  | .idle _ f => flitOk f
  | .chanUp _ f => flitOk f
  | .servoFrameSample _ f => flitOk f
  | .servoReelSample _ f => flitOk f
  | .hello _ f => flitOk f
  | .ack _ f => flitOk f
  | .mode _ f => flitOk f
  | .cartridge _ f => flitOk f
  | .positioned _ f => flitOk f
  | .burstDone _ f => flitOk f
  | .fwResult _ f => flitOk f
  | .timeUp _ f => flitOk f
  | .cmData _ f => flitOk f
  | .cmDone _ f => flitOk f
  | .mailboxUp _ f => flitOk f
  | .hostLinkUp _ r w => rateOk r && widthOk w
  | .scrubRow _ fs => fs.all findingOk
  | .capsuleWrite _ _ b => burstOk b
  | .dataWindowWrite _ _ b => burstOk b
  | .sensorSample k _ _ => k.val < 50
  | .alloc m want => wantOk m want
  | .allocWait m want => wantOk m want
  | _ => true

end Sys2Proof
end

