-- ==== Sys2Proof/Machine/VolumeRows.lean ====
section
/-! DEFINITION. The rows of the volume commands and of their data: COMMAND_START, WRITE to SET_VOLUME_PARAMS, GET_LOG, SEGMENT_ADMIT,
XFER_RDY_POST, DATA_WINDOW_WRITE, TRANSFER_TIMEOUT, and the slice's own rows. -/

namespace Sys2Proof.Machine

/-- What goes on of itself on the transport of a command. -/
def progressOf (s : State) (cid : Nat) : State :=
  match (cmd s cid).vol with
  | some v => progress s (v / 4)
  | none => s

/-- What goes on of itself on the transport that an SQ is bound to. -/
def progressSq (s : State) (p : Port) (q : Nat) : State :=
  match sqVol (sq s p q) with
  | some v => progress s (v / 4)
  | none => s

/-- Run the body of a command that has started, and what follows from it. -/
def runBody (s : State) (cid opc : Nat) (body : State → Nat → State) : State :=
  if atStart s cid opc then progressOf (body s cid) cid else s

/-- A command that works with a volume as a whole begins (R115, R137). -/
def wholeStart (s : State) (cid : Nat) : State :=
  modCmd s cid fun c => { c with phase := .tape, stage := 0, pos := (vol s (cmdVol s cid)).segNext }

/-- MOUNT and FORMAT begin: what a fault left of the volume's write data in the buffer is discarded (R146). -/
def mountStart (s : State) (cid : Nat) : State := wholeStart (freeKept s (cmdVol s cid)) cid

/-- FLUSH begins at its turn, and lets the next command have its own (R137). -/
def flushStart (s : State) (cid : Nat) : State :=
  modVol (wholeStart s cid) (cmdVol s cid) fun x => { x with turn := none }

/-- COMMAND_START (R509, R101, R98). -/
def execCommandStart (p : Port) (q : Fin 64) (sram : Option SramFault) (s : State) : Host.Outcome State Fault Refusal :=
  finish s (commandStart s p q.val sram)
/-- WRITE (R106 to R108). -/
def execWrite (cid : Nat) (s : State) : Host.Outcome State Fault Refusal := finish s (runBody s cid 0x01 writeStart)
/-- READ (R111, R112). -/
def execRead (cid : Nat) (s : State) : Host.Outcome State Fault Refusal := finish s (runBody s cid 0x02 readStart)
/-- WRITE_MARK (R113). -/
def execWriteMark (cid : Nat) (s : State) : Host.Outcome State Fault Refusal := finish s (runBody s cid 0x03 markStart)
/-- LOCATE (R113). -/
def execLocate (cid : Nat) (s : State) : Host.Outcome State Fault Refusal := finish s (runBody s cid 0x04 locateStart)
/-- SPACE (R113). -/
def execSpace (cid : Nat) (s : State) : Host.Outcome State Fault Refusal := finish s (runBody s cid 0x05 spaceStart)
/-- FLUSH (R137). -/
def execFlush (cid : Nat) (s : State) : Host.Outcome State Fault Refusal := finish s (runBody s cid 0x06 flushStart)
/-- READ_POSITION (R114). -/
def execReadPosition (cid : Nat) (s : State) : Host.Outcome State Fault Refusal := finish s (runBody s cid 0x07 readPosition)
/-- MOUNT (R115). -/
def execMount (cid : Nat) (s : State) : Host.Outcome State Fault Refusal := finish s (runBody s cid 0x08 mountStart)
/-- UNMOUNT (R115). -/
def execUnmount (cid : Nat) (s : State) : Host.Outcome State Fault Refusal := finish s (runBody s cid 0x09 wholeStart)
/-- FORMAT (R272, R115). -/
def execFormat (cid : Nat) (s : State) : Host.Outcome State Fault Refusal := finish s (runBody s cid 0x0A mountStart)
/-- SET_EOD (R113). -/
def execSetEod (cid : Nat) (s : State) : Host.Outcome State Fault Refusal := finish s (runBody s cid 0x0B eodStart)
/-- SET_VOLUME_PARAMS (R116). -/
def execSetVolumeParams (cid : Nat) (s : State) : Host.Outcome State Fault Refusal := finish s (runBody s cid 0x21 setParams)
/-- GET_LOG (R118). -/
def execGetLog (cid : Nat) (sram : Option (Nat × SramFault)) (s : State) : Host.Outcome State Fault Refusal :=
  finish s (runBody s cid 0x20 fun s cid => getLog s cid sram)

/-- The segment that waits longest on a transport is admitted where its charge allows, and what follows goes on (R195). -/
def admitRow (s : State) (n : Nat) : State :=
  match admitHead s n with
  | none => s
  | some (_, g) => if s.fwu.paused || !shareRoom s n g then s else progress (segmentAdmit s n) n

/-- A write into a data window that the BAR takes, and what follows from it (R109, R78). -/
def dataRow (s : State) (p : Port) (off : Nat) (b : List Byte) : State :=
  if !barOpen s p || (mst s (portMaster p)).frozen then s
  else progressSq (dataWindowWrite s p off b) p (off / windowBytes)

/-- A command has a segment open, whose timeout runs (R110); it stands still in an activation pause (R157). -/
def timeoutRuns (s : State) (cid : Nat) : Bool :=
  !s.fwu.paused && ((cmd s cid).vol.any fun v => (vol s v).segs.any fun g => g.cid == cid && g.phase == .isOpen)

/-- SEGMENT_ADMIT (R195). -/
def execSegmentAdmit (n : Fin 16) (s : State) : Host.Outcome State Fault Refusal := finish s (admitRow s n.val)
/-- XFER_RDY_POST (R109). -/
def execXferRdyPost (p : Port) (q : Fin 64) (s : State) : Host.Outcome State Fault Refusal := finish s (xferRdyPost s p q.val)
/-- DATA_WINDOW_WRITE (R109). -/
def execDataWindowWrite (p : Port) (off : BitVec 32) (bytes : List Byte) (s : State) : Host.Outcome State Fault Refusal :=
  finishIf (burstOk bytes) s (dataRow s p off.toNat bytes)
/-- TRANSFER_TIMEOUT (R110). -/
def execTransferTimeout (cid : Nat) (s : State) : Host.Outcome State Fault Refusal :=
  finish s (if timeoutRuns s cid then progressOf (complete s cid (6, 1) (endResult s cid 6)) cid else s)

/-- The open data set of a volume is closed after IDLE_CLOSE (R282). -/
def idleClose (s : State) (n p : Nat) : State :=
  if s.fwu.paused then s else progress (closeOpen s (4 * n + p) true false) n

/-- A row of a slice does nothing during an activation pause (R157). -/
def sliceRow (s : State) (n : Nat) (f : State → Nat → State) : State := if s.fwu.paused then s else progress (f s n) n

/-- IDLE_CLOSE_EXPIRY (R282). -/
def execIdleCloseExpiry (n : Fin 16) (p : Fin 4) (s : State) : Host.Outcome State Fault Refusal := finish s (idleClose s n.val p.val)
/-- The slice meets a fault in its frame SRAM while it writes: an uncorrectable word is uncorrectable write data (R143, R167). -/
def frameHit (s : State) (n : Nat) (f : Option SramFault) : State :=
  match (if (slice s n).inBurst then (slice s n).curVol else none) with
  | some v =>
    let (s, lost) := sramHit s f (3 + n)
    if lost then haltBuffer s v else s
  | none => s

/-- A boundary of a slice; a new speed target goes to the loops too (R322, R374). -/
def boundaryRow (s : State) (n : Nat) (f : Option SramFault) : State :=
  let t := boundary (frameHit s n f) n
  if (slice t n).target = (slice s n).target then t else aimSpeed t n

/-- ITEM_BOUNDARY (R309). -/
def execItemBoundary (n : Fin 16) (sram : Option SramFault) (s : State) : Host.Outcome State Fault Refusal :=
  finish s (sliceRow s n.val fun s n => boundaryRow s n sram)
/-- TAPE_RESTART (R325). -/
def execTapeRestart (n : Fin 16) (s : State) : Host.Outcome State Fault Refusal := finish s (sliceRow s n.val restart)
/-- SPEED_RAMP_STEP (R323). -/
def execSpeedRampStep (n : Fin 16) (s : State) : Host.Outcome State Fault Refusal := finish s (rampStep s n.val)
/-- DATA_SET_READ (R327). -/
def execDataSetRead (n : Fin 16) (sram : Option (Fin 256 × SramFault)) (s : State) : Host.Outcome State Fault Refusal :=
  finish s (sliceRow s n.val fun s n => readAttempt s n sram)
/-- CARTRIDGE_RECORD_WRITE (R273). -/
def execCartridgeRecordWrite (n : Fin 16) (s : State) : Host.Outcome State Fault Refusal := finish s (sliceRow s n.val writeRecord)

end Sys2Proof.Machine
end

