-- ==== Sys2Proof/Machine/LinkRows.lean ====
section
/-! DEFINITION. The rows of the transport link (R334 to R371) and of the control loops (R372 to R397). -/

namespace Sys2Proof.Machine

/-- A flit arrives: the link checks it, and where it is delivered `f` takes it; then the transport goes on. -/
def flitRow (s : State) (n ty : Nat) (flit : LinkFlit) (f : State → State) : State :=
  let (s, v) := rxLink s n ty flit
  progress (afterRx s n v f) n

/-- A CTRL event arrives. -/
def ctrlRow (s : State) (n code : Nat) (flit : LinkFlit) (f : State → Nat → List Byte → State) : State :=
  progress (ctrlEvent s n code flit fun s => f s n flit.bytes) n

/-- An MBX answer arrives. -/
def mbxRow (s : State) (n op : Nat) (flit : LinkFlit) (f : State → State) : State :=
  flitRow s n tyMbx flit fun s => if leAt flit.bytes 4 1 = op then f s else s

/-- IDLE (R340). -/
def execIdle (n : Fin 16) (flit : LinkFlit) (s : State) : Host.Outcome State Fault Refusal :=
  finishIf (flitOk flit) s (flitRow s n.val tyIdle flit id)
/-- CHAN_UP (R346). -/
def execChanUp (n : Fin 16) (flit : LinkFlit) (s : State) : Host.Outcome State Fault Refusal :=
  finishIf (flitOk flit) s (flitRow s n.val tyChan flit fun s => chanUp s n.val flit.bytes)
/-- HELLO (R354). -/
def execHello (n : Fin 16) (flit : LinkFlit) (s : State) : Host.Outcome State Fault Refusal :=
  finishIf (flitOk flit) s (ctrlRow s n.val 0x80 flit hello)
/-- ACK (R360). -/
def execAck (n : Fin 16) (flit : LinkFlit) (s : State) : Host.Outcome State Fault Refusal :=
  finishIf (flitOk flit) s (ctrlRow s n.val 0x81 flit ctrlAck)
/-- MODE (R361). -/
def execMode (n : Fin 16) (flit : LinkFlit) (s : State) : Host.Outcome State Fault Refusal :=
  finishIf (flitOk flit) s (ctrlRow s n.val 0x82 flit modeEvent)
/-- CARTRIDGE (R361). -/
def execCartridge (n : Fin 16) (flit : LinkFlit) (s : State) : Host.Outcome State Fault Refusal :=
  finishIf (flitOk flit) s (ctrlRow s n.val 0x83 flit cartridgeEvent)
/-- POSITIONED (R362). -/
def execPositioned (n : Fin 16) (flit : LinkFlit) (s : State) : Host.Outcome State Fault Refusal :=
  finishIf (flitOk flit) s (ctrlRow s n.val 0x84 flit positioned)
/-- BURST_DONE (R360). -/
def execBurstDone (n : Fin 16) (flit : LinkFlit) (s : State) : Host.Outcome State Fault Refusal :=
  finishIf (flitOk flit) s (ctrlRow s n.val 0x85 flit burstDone)
/-- FW_RESULT (R354). -/
def execFwResult (n : Fin 16) (flit : LinkFlit) (s : State) : Host.Outcome State Fault Refusal :=
  finishIf (flitOk flit) s (ctrlRow s n.val 0x86 flit fwResult)
/-- TIME_UP (R351). -/
def execTimeUp (n : Fin 16) (flit : LinkFlit) (s : State) : Host.Outcome State Fault Refusal :=
  finishIf (flitOk flit) s (flitRow s n.val tyTime flit fun s => timeUp s n.val flit.bytes)
/-- TIME_FLIT_SEND (R351). -/
def execTimeFlitSend (n : Fin 16) (s : State) : Host.Outcome State Fault Refusal := finish s (timeDown s n.val)
/-- CM_DATA (R352). -/
def execCmData (n : Fin 16) (flit : LinkFlit) (s : State) : Host.Outcome State Fault Refusal :=
  finishIf (flitOk flit) s (mbxRow s n.val 0x81 flit fun s => cmAnswer s n.val 1 flit.bytes)
/-- CM_DONE (R352). -/
def execCmDone (n : Fin 16) (flit : LinkFlit) (s : State) : Host.Outcome State Fault Refusal :=
  finishIf (flitOk flit) s (mbxRow s n.val 0x82 flit fun s => cmAnswer s n.val 2 flit.bytes)
/-- MBX_ANSWER_TIMEOUT (R352). -/
def execMbxAnswerTimeout (n : Fin 16) (s : State) : Host.Outcome State Fault Refusal := finish s (progress (mbxLate s n.val) n.val)
/-- RETRANSMIT_TIMER (R342). -/
def execRetransmitTimer (n : Fin 16) (s : State) : Host.Outcome State Fault Refusal := finish s (progress (retransmit s n.val) n.val)
/-- LANE_FAILED (R355). -/
def execLaneFailed (n : Fin 16) (up : Bool) (lane : Fin 2) (why : LaneFault) (s : State) : Host.Outcome State Fault Refusal :=
  finish s (progress (laneFailed s n.val up lane.val why) n.val)
/-- LANE_RETRAIN (R356). -/
def execLaneRetrain (n : Fin 16) (s : State) : Host.Outcome State Fault Refusal := finish s (laneRetrain s n.val)
/-- LANE_RESTORED (R356). -/
def execLaneRestored (n : Fin 16) (up : Bool) (lane : Fin 2) (bad : Nat) (marker : List Byte) (s : State) : Host.Outcome State Fault Refusal :=
  finish s (laneRestored s n.val up lane.val bad marker)
/-- RX_TIMEOUT (R357). -/
def execRxTimeout (n : Fin 16) (s : State) : Host.Outcome State Fault Refusal := finish s (progress (rxTimeout s n.val) n.val)
/-- LINK_TRAINED (R354). -/
def execLinkTrained (n : Fin 16) (down up : BitVec 2) (s : State) : Host.Outcome State Fault Refusal :=
  finish s (linkTrained s n.val down up)
/-- TRAIN_TIMEOUT (R354). -/
def execTrainTimeout (n : Fin 16) (s : State) : Host.Outcome State Fault Refusal := finish s (progress (trainTimeout s n.val) n.val)
/-- LINK_RETRY (R354). -/
def execLinkRetry (n : Fin 16) (s : State) : Host.Outcome State Fault Refusal := finish s (linkRetry s n.val)
/-- CTRL_TIMEOUT (R364). -/
def execCtrlTimeout (n : Fin 16) (s : State) : Host.Outcome State Fault Refusal := finish s (progress (ctrlTimeout s n.val) n.val)
/-- MODE_TIMEOUT (R361). -/
def execModeTimeout (n : Fin 16) (s : State) : Host.Outcome State Fault Refusal := finish s (progress (modeTimeout s n.val) n.val)

/-! ### Loops -/

/-- The loops of a transport take samples and answer: its SERVO page is enabled (R397). -/
def servoOn (s : State) (n : Nat) : Bool := enabledNow s (pServo n)

/-- A SERVO sample of one kind arrives: 1 FRAME, 2 REEL (R348). -/
def sampleRow (s : State) (n kind : Nat) (flit : LinkFlit) (f : State → Nat → List Byte → State × List LoopFault) : State :=
  flitRow s n tyServo flit fun s =>
    if leAt flit.bytes 4 1 = kind && servoOn s n then
      let (s, fs) := f s n flit.bytes
      loopFaults s n fs
    else s

/-- A FRAME sample goes to the loops (R380); where its LPOS is valid it tells how far the verify elements have come (R307). -/
def frameTaken (s : State) (n : Nat) (f : List Byte) : State × List LoopFault :=
  let r := frameSample s n f
  (if (f.getD 24 0).getLsbD 2 then framePassed r.1 n else r.1, r.2)

/-- A loop in RUN has had no sample for 1 ms (R389). -/
def sampleLate (s : State) (i : Nat) : State :=
  let l := loop s i
  if l.phase = .run && !l.manual && servoOn s (i / 4) then progress (loopFaults s (i / 4) [(i % 4, 1, l.lastErr)]) (i / 4) else s

/-- SERVO_FRAME_SAMPLE (R380). -/
def execServoFrameSample (n : Fin 16) (flit : LinkFlit) (s : State) : Host.Outcome State Fault Refusal :=
  finishIf (flitOk flit) s (sampleRow s n.val 1 flit frameTaken)
/-- SERVO_REEL_SAMPLE (R380). -/
def execServoReelSample (n : Fin 16) (flit : LinkFlit) (s : State) : Host.Outcome State Fault Refusal :=
  finishIf (flitOk flit) s (sampleRow s n.val 2 flit reelSample)
/-- SERVO_KEEPALIVE (R377). -/
def execServoKeepalive (n : Fin 16) (s : State) : Host.Outcome State Fault Refusal :=
  finish s (if servoOn s n.val then keepalive s n.val else s)
/-- SAMPLE_TIMEOUT (R389). -/
def execSampleTimeout (i : Fin 64) (s : State) : Host.Outcome State Fault Refusal := finish s (sampleLate s i.val)
/-- SERVO_DRAIN_TIMEOUT (R397). -/
def execServoDrainTimeout (n : Fin 16) (s : State) : Host.Outcome State Fault Refusal :=
  finish s (modServo s n.val fun v => { v with haltSent := false })

end Sys2Proof.Machine
end

