-- ==== Sys2Proof/Machine/Lanes.lean ====
section
/-! DEFINITION. The codec lanes: dispatch of blocks and jobs (R85, R232 to R234), LINKED chains (R227 to R231), what a lane does with a
write block (R205, R225, R226) and with a read block (R206), the enable check of a cluster (R236), and codec jobs (R117, R239 to
R241). -/

namespace Sys2Proof.Machine

/-- The CDC page of cluster `m`. -/
def pCdc (m : Nat) : PageId := .cdc (tFin m)

/-- Requester ID of cluster `m` (R13). -/
def cdcReq (m : Nat) : Nat := 19 + m

/-- What lane `l` of cluster `m` works on. -/
def laneWork (s : State) (m l : Nat) : LaneWork := tget (cluster s m).lanes l .idle

/-- Give lane `l` of cluster `m` its work. -/
def setLane (s : State) (m l : Nat) (w : LaneWork) : State := modCluster s m fun c => { c with lanes := tput c.lanes l w }

/-- Lane `l` of cluster `m` takes work: its cluster is enabled, LANE_MASK holds it and it is in service (R235, R205). -/
def laneServes (s : State) (m l : Nat) : Bool :=
  enabledNow s (pCdc m) && (reg s (pCdc m) 0x040).getLsbD l && !(cluster s m).faulted.getLsbD l

/-- It is free besides. -/
def laneFree (s : State) (m l : Nat) : Bool := laneServes s m l && laneWork s m l == .idle

/-- Some lane of a cluster that is not gated is free. -/
def openLane (s : State) : Bool :=
  (List.range 16).any fun m => !domGated s (16 + m) && (List.range 4).any fun l => laneFree s m l

/-! ### LINKED chains -/

/-- Address of the chain-state slot of transport `n`: the last of the fixed slots of its floor in P4 (R229, R194). -/
def chainSlot (s : State) (n : Nat) : Nat := slotAddr s 4 (floorStart s 4 + n * floorPer 4 + 58)

/-- The 65,600 bytes of a chain state (R229). -/
def chainBytes (c : ChainSt) : List Byte :=
  let b := zeros (65536 - c.hist.length) ++ c.hist ++ leBytes 1 (c.vol / 4) ++ leBytes 1 (c.vol % 4) ++ zeros 6
    ++ leBytes 8 c.nextSeq ++ leBytes 2 c.nextIdx ++ leBytes 4 c.hist.length ++ zeros 2 ++ leBytes 8 c.startSeq ++ zeros 28
  b ++ leBytes 4 (crc32c b).toNat

/-- A lane turns to other work: the chain it holds is saved (R230). -/
def saveChain (s : State) (n : Nat) : State :=
  match (slice s n).chain with
  | none => s
  | some c =>
    let s := bufWrite s (chainSlot s n) (chainBytes c) (cdcReq c.cluster)
    count (modSlice s n fun x => { x with chain := none }) (pCdc c.cluster) 9

/-- The chains that lane `l` of cluster `m` holds are saved. -/
def saveLane (s : State) (m l : Nat) : State :=
  (List.range 16).foldl (fun s n => match (slice s n).chain with
    | some c => if c.cluster = m && c.lane = l then saveChain s n else s
    | none => s) s

/-- Restore the saved chain of a transport for block `q` of volume `v`: none where its check fails (R230). -/
def loadChain (s : State) (v q m l : Nat) : Option ChainSt :=
  let a := chainSlot s (v / 4)
  let b := ramRead s a 65600
  let fill := leAt b 65554 4
  let idx := leAt b 65552 2
  if !anyBad s a 65600 && leAt b 65596 4 == (crc32c (b.take 65596)).toNat && leAt b 65536 1 == v / 4 && leAt b 65537 1 == v % 4
      && leAt b 65544 8 == q && within 1 63 idx && within 1 65536 fill then
    some { vol := v, nextSeq := q, nextIdx := idx, startSeq := leAt b 65560 8, hist := sub b (65536 - fill) fill, cluster := m,
           lane := l }
  else none

/-- A new chain begins with block `q`. -/
def newChain (v q m l : Nat) : ChainSt :=
  { vol := v, nextSeq := q, nextIdx := 0, startSeq := q, hist := [], cluster := m, lane := l }

/-- The block is one of a chain (R227). -/
def chainBlk (b : Blk) : Bool := b.par.linked && 0 < b.dlen && !b.passThrough

/-- The lane takes block `b` of a chain: it goes on with the chain it holds, restores the saved one, or starts a new one (R228,
R230). -/
def takeChain (s : State) (v : Nat) (b : Blk) (m l : Nat) : State :=
  let n := v / 4
  let set (s : State) (c : ChainSt) : State := modSlice s n fun x => { x with chain := some c }
  let held (s : State) : Option ChainSt := (slice s n).chain.filter fun c => c.vol == v && c.nextSeq == b.q
  if b.chainBreak then
    let s := if (slice s n).chain.any fun c => c.vol != v then saveChain s n else s
    set s (newChain v b.q m l)
  else
    let s := match held s with
      | some c => if c.cluster = m && c.lane = l then s else saveChain s n
      | none => saveChain s n
    match held s with
    | some _ => s
    | none => match loadChain s v b.q m l with
      | some c => set s c
      | none =>
        let s := readBad s (chainSlot s n) 65600 (cdcReq m)
        set (raise (count s (pCdc m) 10) (pCdc m) 12) (newChain v b.q m l)

/-! ### Ready work -/

/-- A chain block of transport `n` is in a lane: its chain state is in use (R230). -/
def chainBusy (s : State) (n : Nat) : Bool := (volsOf n).any fun v => (vol s v).blks.any fun b => b.phase == .lane && chainBlk b

/-- The next block of a volume's chains: the earlier ones are compressed, and no other chain block of the transport is in a lane (R230). -/
def readyChain (s : State) (v : Nat) : Option Blk :=
  if chainBusy s (v / 4) then none
  else (((vol s v).blks.filter chainBlk).find? fun b => b.phase != .done).filter fun b => b.phase == .raw

/-- The chain block of volume `v` is work for lane `l` of cluster `m`: the lane that holds its chain keeps it (R232). -/
def chainFor (s : State) (v m l : Nat) : Option Blk :=
  (readyChain s v).filter fun b =>
    match (slice s (v / 4)).chain with
    | some c => (c.cluster == m && c.lane == l) || c.vol != v || b.chainBreak || !laneFree s c.cluster c.lane
    | none => true

/-- The next block of a volume that is in no chain. -/
def readyWrite (s : State) (v : Nat) : Option Blk := (vol s v).blks.find? fun b => b.phase == .raw && !chainBlk b

/-- The input of a cut of an open segment has arrived whole (R16). -/
def cutArrived (g : Seg) (c : Cut) : Bool :=
  0 < c.dlen && (List.range (ceilDiv (c.start + c.dlen) 64 - c.start / 64)).all fun i => g.granules.contains (c.start / 64 + i)

/-- The first block of an open segment that can go to a lane before the segment is complete (R16). The cut of a PREDICT segment, and the
chain of a LINKED one, need the whole segment. -/
def earlyCut (g : Seg) : Option Cut :=
  if g.phase != .isOpen || g.par.method == 3 || g.par.linked then none
  else (cutSegment g.recs).find? fun c => !(g.early.any fun e => e.start == c.start) && cutArrived g c

/-- The next block of a volume of that kind. -/
def readyEarly (s : State) (v : Nat) : Option (Seg × Cut) := (vol s v).segs.findSome? fun g => (earlyCut g).map fun c => (g, c)

/-- The units of the chain that a unit goes on, from index 0 (R231). -/
def chainUnits (s : State) (n : Nat) (u : ReadUnit) : List (Option ReadUnit) :=
  (chainBefore u.bytes u.q).map fun q => (slice s n).units.find? fun w => w.cid == u.cid && w.q == q

/-- A unit is decided. -/
def unitDone (u : ReadUnit) : Bool :=
  match u.st with
  | .ok => true
  | .bad _ _ _ => true
  | _ => false

/-- A chain is decoded on one lane (R231): the unit before this one was decoded on lane `l` of cluster `m`, or its lane serves no more. -/
def chainLane (s : State) (n m l : Nat) (u : ReadUnit) : Bool :=
  ((chainUnits s n u).getLast?.bind id).all fun w => (w.cl == m && w.ln == l) || !laneServes s w.cl w.ln

/-- The next unit of a transport to decode on a lane: those of its chain before it are decided. -/
def readyUnit (s : State) (n m l : Nat) : Option ReadUnit :=
  (slice s n).units.find? fun u => u.st == .ready && (chainUnits s n u).all (fun w => w.any unitDone) && chainLane s n m l u

/-- The areas of a codec job: address and length of input and output (R117). -/
def jobIn (b : List Byte) : Nat × Nat := (leAt b 44 8, leAt b 16 4)
/-- The output area. -/
def jobOut (b : List Byte) : Nat × Nat := (leAt b 24 8, leAt b 32 4)

/-- The slots of a job's areas. -/
def jobSlotsOf (s : State) (b : List Byte) : List Nat :=
  ((slotStart s (jobIn b).1).toList ++ (slotStart s (jobOut b).1).toList).eraseDups

/-- A run of bytes holds a chain block, as far as its headers can be followed (R240). -/
def holdsChain : Nat → List Byte → Bool
  | 0, _ => false
  | fuel + 1, b =>
    let h := parseHdr b
    if b.length < 16 || b.length < blkLen h then false else h.inChain || holdsChain fuel (b.drop (blkLen h))

/-- A job needs a working slot (R240). -/
def jobNeedsSlot (s : State) (b : List Byte) : Bool :=
  b.getD 36 0 == 1 && holdsChain ((jobIn b).2 / 16 + 1) (ramRead s (jobIn b).1 (jobIn b).2)

/-- One more working slot would pass the port's quota of P4 slots (R117, R187). -/
def jobOverQuota (s : State) (c : Cmd) : Bool := overQuota s (portMaster c.port) 4

/-- The capsule waits for pool space (R103). -/
def waitSlot (b : List Byte) : Bool := (b.getD 1 0).getLsbD 3

/-- A job that no cluster runs yet can be given to one: its slots are filled (R170), and one with WAIT_SLOT that is short of quota
waits (R189). -/
def jobReady (s : State) (c : Cmd) : Bool :=
  cOpc c.bytes == 0x10 && c.phase == .running && c.stage == 0 && (jobSlotsOf s c.bytes).all (fun a => !(slotMeta s a).filling)
    && !(waitSlot c.bytes && jobNeedsSlot s c.bytes && jobOverQuota s c)

/-- The next job. -/
def readyJob (s : State) : Option Nat := (liveCmds s fun _ c => jobReady s c).head?

/-! ### Dispatch -/

/-- Volume `v` has work of a kind for lane `l` of cluster `m`: 0 write blocks, 1 read blocks, 2 jobs, 3 chain blocks. The read blocks of
a transport and the jobs stand under one volume. -/
def hasWork (s : State) (m l kind v : Nat) : Bool :=
  match kind with
  | 0 => (readyWrite s v).isSome || (readyEarly s v).isSome
  | 1 => v % 4 == 0 && (readyUnit s (v / 4) m l).isSome
  | 2 => v == 0 && (readyJob s).isSome
  | _ => (chainFor s v m l).isSome

/-- The requesters that have work for a lane, by key (R85). -/
def requesters (s : State) (m l : Nat) : List Nat := (List.range 256).filter fun k => hasWork s m l (k / 64) (k % 64)

/-- The requester of a kind whose turn it is, round-robin (R85). -/
def nextOf (s : State) (ks : List Nat) (kind : Nat) : Option Nat :=
  let l := ks.filter fun k => k / 64 == kind
  (l.find? fun k => tget s.sched.next kind 0 ≤ k % 64).orElse fun _ => l.head?

/-- The chain that a lane holds and that has its next block ready: the lane keeps it (R232). -/
def keptChain (s : State) (m l : Nat) (ks : List Nat) : Option Nat :=
  ks.find? fun k => k / 64 == 3 && (match (slice s (k % 64 / 4)).chain with
    | some c => c.cluster == m && c.lane == l && c.vol == k % 64 && !((readyChain s (k % 64)).any (·.chainBreak))
    | none => false)

/-- The requester that a lane serves: one that has been passed over 16 times in a row (R85), else the chain that the lane keeps, else chain
blocks, else write blocks, read blocks and jobs in turn (R232). -/
def chooseWork (s : State) (m l : Nat) (ks : List Nat) : Option Nat :=
  ((((ks.find? fun k => 16 ≤ tget s.sched.passed k 0).orElse fun _ => keptChain s m l ks).orElse fun _ => nextOf s ks 3).orElse
    fun _ => (List.range 3).findSome? fun i => nextOf s ks ((s.sched.kind + i) % 3))

/-- The scheduler after requester `k` of `ks` has been served. -/
def servedWork (x : Sched) (ks : List Nat) (k : Nat) : Sched :=
  { kind := if k / 64 = 3 then x.kind else (k / 64 + 1) % 3, next := tput x.next (k / 64) ((k % 64 + 1) % 64),
    passed := (ks.filter (· != k)).map fun j => (j, tget x.passed j 0 + 1) }

/-- A block goes to a lane to be compressed. -/
def giveBlk (s : State) (v m l : Nat) (b : Blk) (idx : Option Nat) : State :=
  modBlk (setLane s m l (.compress v b.q)) v b.q fun b => { b with phase := .lane, chain := idx }

/-- A block of an open segment goes to a lane. -/
def giveEarly (s : State) (v m l : Nat) (g : Seg) (c : Cut) : State :=
  modSeg (setLane s m l (.early v g.cid g.no c.start)) v g.cid g.no fun g => { g with early := g.early ++ [{ start := c.start, dlen := c.dlen }] }

/-- Give lane `l` of cluster `m` a chain block. -/
def giveChain (s : State) (v m l : Nat) (b : Blk) : State :=
  let s := takeChain s v b m l
  giveBlk s v m l b ((slice s (v / 4)).chain.map (·.nextIdx))

/-- The cluster adds itself as a holder of the slots of a job (R117). -/
def holdSlots (s : State) (req : Nat) (l : List Nat) : State :=
  l.foldl (fun s a => setMeta s a (addHolder (slotMeta s a) req)) s

/-- A job gets its working slot, waits for one, or ends with POOL_EMPTY (R117, R189, R240). -/
def jobWork (s : State) (cid m : Nat) : State :=
  let c := cmd s cid
  if !jobNeedsSlot s c.bytes then s
  else
    let empty (s : State) : State := complete (modCmd s cid fun c => { c with stage := 0 }) cid (4, 4) (endResult s cid 4)
    if jobOverQuota s c then empty s
    else match findFree s 4 with
      | some a => modCmd (takeSlot s a (cdcReq m)) cid fun c => { c with workSlot := some a }
      | none =>
        let s := raise s .pool 11
        if waitSlot c.bytes then
          modCmd (count (setWaits s 4 (waitList s 4 ++ [.job cid (cdcReq m)])) .pool 2) cid fun c => { c with workWait := true }
        else empty s

/-- A SHARE of a slot with an engine is refused: the slot retires, the engine holds it, or it has no room for a holder (R188). -/
def shareRefused (x : SlotMeta) (r : Nat) : Bool := x.st == .retiring || isHolder x r || !canShare x

/-- Cluster `m` takes a job: it runs on those of its lanes that are free (R117, R241). -/
def giveJob (s : State) (cid m : Nat) : State :=
  let c := cmd s cid
  let slots := jobSlotsOf s c.bytes
  let s := modCmd s cid fun c => { c with holder := cdcReq m }
  if s.pool.dead then complete s cid (4, 1) (endResult s cid 4)
  else if slots.any fun a => shareRefused (slotMeta s a) (cdcReq m) then complete s cid (2, 0x10) (endResult s cid 2)
  else
    let s := holdSlots s (cdcReq m) slots
    let s := modCmd s cid fun c => { c with stage := 1, job := slots }
    let s := (List.range 4).foldl (fun s l => if laneFree s m l then setLane (saveLane s m l) m l (.job cid) else s) s
    jobWork s cid m

/-- The chains of the other transports that a lane holds are saved (R230). -/
def saveOthers (s : State) (m l n : Nat) : State :=
  (List.range 16).foldl (fun s k => match (slice s k).chain with
    | some c => if c.cluster = m && c.lane = l && k != n then saveChain s k else s
    | none => s) s

/-- A lane takes the work of a requester. -/
def giveWork (s : State) (m l k : Nat) : State :=
  let v := k % 64
  match k / 64 with
  | 0 => match readyWrite s v with
    | some b => giveBlk (saveLane s m l) v m l b none
    | none => match readyEarly s v with
      | some (g, c) => giveEarly (saveLane s m l) v m l g c
      | none => s
  | 1 => match readyUnit s (v / 4) m l with
    | some u => setLane (modSlice (saveLane s m l) (v / 4) fun x =>
        { x with units := x.units.map fun w => if w.id = u.id then { w with st := .lane, cl := m, ln := l } else w }) m l
        (.decompress u.vol u.id)
    | none => s
  | 2 => match readyJob s with
    | some cid => giveJob s cid m
    | none => s
  | _ => match chainFor s v m l with
    | some b => giveChain (saveOthers s m l (v / 4)) v m l b
    | none => s

/-- LANE_DISPATCH (R85, R232). A gated cluster is ungated only where no other cluster has a free lane. -/
def dispatch (s : State) (m l : Nat) : State :=
  if s.fwu.paused || !laneFree s m l || (domGated s (16 + m) && openLane s) then s
  else
    let ks := requesters s m l
    match chooseWork s m l ks with
    | none => s
    | some k => giveWork { ungate s (16 + m) with sched := servedWork s.sched ks k } m l k

/-! ### A write block is finished -/

/-- What a lane counts for a block it has compressed (R205, R216, R235): `n` input bytes. -/
def countCoded (s : State) (m n : Nat) (c : Coded) : State :=
  let pg := pCdc m
  let s := count (count (count s pg 0) pg 2 n) pg 3 c.bytes.length
  let s := if c.fallback then count s pg 4 else s
  let s := if c.method = 2 then count s pg 5 else s
  if c.selfFailed then raise (count s pg 7) pg 9 else s

/-- A self-check failure of lane `l`: the third takes it out of service (R205). -/
def laneMismatch (s : State) (m l : Nat) : State :=
  let n := tget (cluster s m).mismatches l 0 + 1
  let s := modCluster s m fun c => { c with mismatches := tput c.mismatches l n }
  if n = 3 then
    let s := modCluster s m fun c => { c with faulted := c.faulted ||| BitVec.ofNat 4 (2 ^ l) }
    raise (deviceFault (saveLane s m l) (pCdc m) l (cdcReq m)) (pCdc m) 10 l
  else s

/-- A record that begins with the magic and is no valid frame (R226). -/
def logRejected (s : State) (m v lbn : Nat) : State :=
  let s := setEvt (count s (pCdc m) 8) (pCdc m) 11
  let code := 0x140B
  logEvent s { seq := 0, tai := now s, code := code, source := 0x14, inst := m, severity := Config.blockSeverity code % 4,
               requester := 3 + v / 4, taiValid := s.tim.taiValid, d0 := lbn, d1 := (statReg s (pCdc m)).toNat, d2 := volWord v }

/-- A chain goes on after a block, or ends at index 63 (R227, R228). -/
def chainAfter (s : State) (v : Nat) (b : Blk) (data : List Byte) : State :=
  match b.chain with
  | none => s
  | some 63 =>
    let s := modSlice s (v / 4) fun x => { x with chain := none }
    modVol s v fun x =>
      match x.blks.find? fun c => b.q < c.q with
      | some d => { x with blks := x.blks.map fun c => if c.q = d.q then { c with chainBreak := true } else c }
      | none => { x with chainBreak := true }
  | some i =>
    modSlice s (v / 4) fun x => { x with chain := x.chain.map fun c =>
      { c with nextSeq := b.q + 1, nextIdx := i + 1, hist := lastHist (c.hist ++ data) } }

/-- The staging bytes of a block lie over an uncorrectable word. -/
def rawBad (s : State) (v : Nat) (b : Blk) : Option (Nat × Nat) :=
  if !b.input.isEmpty then none
  else match (vol s v).segs.find? fun g => g.cid == b.cid && g.no == b.segNo with
    | some g => (segPieces g b.start b.dlen).find? fun p => anyBad s p.1 p.2
    | none => none

/-- A lane has compressed block `b` (R205, R216, R225). -/
def finishBlk (s : State) (m l v : Nat) (b : Blk) : State :=
  match rawBad s v b with
  | some p => haltBuffer (readBad (modBlk s v b.q fun b => { b with phase := .raw }) p.1 p.2 (cdcReq m)) v
  | none =>
    let data := rawData s v b
    let hist := ((slice s (v / 4)).chain.map (·.hist)).getD []
    let c : Coded := match (if b.passThrough then ptFrame data else none) with
      | some d => { bytes := ptBlock data d, fallback := false, selfFailed := false, method := 3 }
      | none => codeBlock b.par b.entries b.cont b.ends b.chain (if b.chain.isSome then hist else []) data
    let s := countCoded s m (data.length + 4 * b.entries.length) c
    let s := b.ptRejects.foldl (fun s lbn => logRejected s m v lbn) s
    let s := chainAfter (storeBlk s v b c.bytes) v b data
    let s := if c.selfFailed then laneMismatch s m l else s
    let s := modSlice s (v / 4) fun x =>
      { x with done := (clock s, c.bytes.length) :: x.done.filter fun d => clock s < d.1 + 16000000 }
    match (vol s v).segs.find? fun g => g.cid == b.cid && g.no == b.segNo with
    | some g => freeStaging s v g
    | none => s

/-- A block that a truncation took away while a lane had it is compressed, and discarded (R129, R234). -/
def finishDoomed (s : State) (m l v : Nat) (b : Blk) : State :=
  let c := codeBlock b.par b.entries b.cont b.ends b.chain [] b.input
  let s := modSlice (countCoded s m (b.input.length + 4 * b.entries.length) c) (v / 4) fun x =>
    { x with doomed := x.doomed.filter fun d => !(d.vol == v && d.q == b.q) }
  if c.selfFailed then laneMismatch s m l else s

/-- A lane has compressed block `c` of segment `g`, which is not cut yet: what it made keeps a P2 slot of the segment (R16). -/
def storeEarly (s : State) (m l v : Nat) (g : Seg) (c : Cut) : State :=
  match (segPieces g c.start c.dlen).find? fun p => anyBad s p.1 p.2 with
  | some p => haltBuffer (readBad s p.1 p.2 (cdcReq m)) v
  | none =>
    let data := segRead s g c.start c.dlen
    let k := codeBlock g.par c.entries c.cont c.ends none [] data
    let s := countCoded s m (data.length + 4 * c.entries.length) k
    let s := match takeP2 s v g.cid g.no with
      | (s, some a) => modSeg (bufWrite s a k.bytes (3 + v / 4)) v g.cid g.no fun h =>
          { h with early := h.early.map fun e => if e.start = c.start then
              { e with slot := some a, gen := (slotMeta s a).gen.toNat, len := k.bytes.length } else e }
      | (s, none) => s
    let s := if k.selfFailed then laneMismatch s m l else s
    modSlice s (v / 4) fun x =>
      { x with done := (clock s, k.bytes.length) :: x.done.filter fun d => clock s < d.1 + 16000000 }

/-- A lane is done with a block of an open segment; a segment that is gone left nothing to store. -/
def finishEarly (s : State) (m l v cid no start : Nat) : State :=
  match (vol s v).segs.find? fun g => g.cid == cid && g.no == no && g.early.any fun e => e.start == start && e.slot.isNone with
  | some g => match (cutSegment g.recs).find? fun c => c.start == start with
    | some c => storeEarly s m l v g c
    | none => s
  | none => s

/-- The lane has a P2 slot for what it makes of block `q`, or needs none. -/
def slotReady (s : State) (v q : Nat) : Bool :=
  ((blk? s v q).filter fun b => b.phase == .lane).all fun b => (rawBad s v b).isSome || (takeP2 s v b.cid b.segNo).2.isSome

/-- The job that runs on a cluster. -/
def jobOn (s : State) (m : Nat) : Option Nat :=
  (liveCmds s fun _ c => cOpc c.bytes == 0x10 && c.phase == .running && c.stage == 1 && c.holder == cdcReq m).head?

/-- A lane is done with its block: it joins the job that its cluster runs, if any (R241). -/
def laneDone (s : State) (m l : Nat) : State :=
  setLane s m l (if laneServes s m l then ((jobOn s m).map LaneWork.job).getD .idle else .idle)

/-- A lane meets an uncorrectable word of its SRAM (R167, R233): the fault counts, and the lane does its block again from its source. A
block in the ingest buffer is read from staging at once (R167). -/
def laneAgain (s : State) (m : Nat) (f : Option SramFault) : State × Bool :=
  let (s, hit) := sramHit s f (cdcReq m)
  (s, hit && f.all fun f => match f.part with
    | .ingest _ _ => false
    | _ => true)

/-- BLOCK_COMPRESSED (R205, R234). A block without a free P2 slot keeps its lane. -/
def blockCompressed (s : State) (m l : Nat) (sram : Option SramFault) : State :=
  match laneWork s m l with
  | .compress v q =>
    if s.fwu.paused || !slotReady s v q then s
    else
      let (s, again) := laneAgain s m sram
      if again then s
      else
        let s := laneDone s m l
        let s := match (blk? s v q).filter fun b => b.phase == .lane with
          | some b => finishBlk s m l v b
          | none => match (slice s (v / 4)).doomed.find? fun b => b.vol == v && b.q == q with
            | some b => finishDoomed s m l v b
            | none => s
        progress s (v / 4)
  | .early v cid no start =>
    if s.fwu.paused then s
    else
      let (s, again) := laneAgain s m sram
      if again then s else progress (finishEarly (laneDone s m l) m l v cid no start) (v / 4)
  | _ => s

/-! ### A read block is finished -/

/-- Change unit `id` of a slice. -/
def modUnit (s : State) (n id : Nat) (f : ReadUnit → ReadUnit) : State :=
  modSlice s n fun x => { x with units := x.units.map fun u => if u.id = id then f u else u }

/-- A lane has decoded a unit (R206, R231). -/
def finishUnit (s : State) (m : Nat) (u : ReadUnit) : State :=
  let n := u.vol / 4
  let before := (chainUnits s n u).filterMap id
  let s := if (slice s n).decoded.any fun d => d.vol == u.vol && d.info.num == u.ds && d.info.label != 0 then count s (pCiph n) 1 else s
  let bad (s : State) : State := modUnit s n u.id fun u => { u with st := .bad 4 2 u.ds }
  match before.find? fun w => w.st != .ok with
  | some w => modUnit s n u.id fun u => { u with st := w.st }
  | none => match decodeBlock (lastHist (before.flatMap (·.out))) u.bytes with
    | .ok d => modUnit (count s (pCdc m) 1) n u.id fun u => { u with st := .ok, out := d }
    | _ => bad (raise (count s (pCdc m) 6) (pCdc m) 8 u.firstLbn (3 + n))

/-- BLOCK_DECOMPRESSED (R206, R233). -/
def blockDecompressed (s : State) (m l : Nat) (sram : Option SramFault) : State :=
  match laneWork s m l with
  | .decompress v i =>
    if s.fwu.paused then s
    else
      let (s, again) := laneAgain s m sram
      if again then s
      else
        let s := laneDone s m l
        let s := match (slice s (v / 4)).units.find? fun u => u.id == i && u.st == .lane with
          | some u => finishUnit s m u
          | none => s
        progress s (v / 4)
  | _ => s

/-! ### Codec jobs -/

/-- The port holds the slot in which an address lies (R117). -/
def portHolds (s : State) (p : Port) (a : Nat) : Bool :=
  match slotStart s a with
  | some t => isHolder (slotMeta s t) (pIdx p) && (slotOf s a).any fun x => isGeneral s x.1 x.2
  | none => false

/-- An area runs past the end of its slot. -/
def pastSlot (s : State) (a : Nat × Nat) : Bool :=
  match slotOf s a.1 with
  | some (p, i) => slotAddr s p i + slotSize p < a.1 + a.2
  | none => true

/-- Two areas overlap. -/
def overlaps (a b : Nat × Nat) : Bool := a.1 < b.1 + b.2 && b.1 < a.1 + a.2

/-- The code and RESULT with which a job is turned away (R117, R241). -/
def jobRefused (s : State) (p : Port) (b : List Byte) : Option (Code × Nat) :=
  let i := jobIn b
  let o := jobOut b
  if !portHolds s p i.1 || !portHolds s p o.1 then some ((2, 0xD), 0)
  else if pastSlot s o then some ((2, 2), 24)
  else if overlaps i o then some ((2, 2), 24)
  else if pastSlot s i then some ((2, 2), 44)
  else none

/-- Jobs that wait for a cluster while none is enabled complete with DISABLED (R238). -/
def strandJobs (s : State) : State :=
  if all16.any fun m => enabledNow s (.cdc m) then s
  else (liveCmds s fun _ c => cOpc c.bytes == 0x10 && c.phase == .running && c.stage == 0).foldl
    (fun s cid => complete s cid cDisabled (endResult s cid 2)) s

/-- CODEC_JOB: the job waits for a lane (R117). -/
def jobStart (s : State) (cid : Nat) : State :=
  let c := cmd s cid
  match jobRefused s c.port c.bytes with
  | some (code, r) => complete s cid code r
  | none => strandJobs (modCmd s cid fun c => { c with phase := .running, stage := 0 })

/-- The data blocks of a compress job: up to 64 KiB each (R239). -/
def chunks : Nat → List Byte → List (List Byte)
  | 0, _ => []
  | fuel + 1, b => if b.isEmpty then [] else b.take 65536 :: chunks fuel (b.drop 65536)

/-- Parameters of a compress job. -/
def jobPar (b : List Byte) : CodeParams :=
  { method := leAt b 37 1, level := leAt b 38 1, linked := false, dynamic := (b.getD 39 0).getLsbD 1, hint := BitVec.ofNat 16 (leAt b 40 2),
    stride := leAt b 42 2 }

/-- The blocks of a compress job (R239). -/
def jobBlocks (par : CodeParams) (data : List Byte) : List (Nat × Coded) :=
  let cs := chunks (data.length / 65536 + 1) data
  (numbered cs).map fun x => (x.2.length, codeBlock par [] (decide (0 < x.1)) (x.1 + 1 == cs.length) none [] x.2)

/-- What a job comes to (R241): its output and number of blocks, or a code and the number of blocks done before. -/
inductive JobEnd where
  | ok (out : List Byte) (blocks : Nat)
  | fail (code : Code) (blocks : Nat)
  deriving DecidableEq, Repr

/-- Run the blocks of a decompress job in order (R240): `nx` is the index that goes on the chain at hand with its history. -/
def jobDecode (cap : Nat) : Nat → List Byte → List Byte → Nat → Nat → List Byte → JobEnd
  | 0, _, _, k, _, _ => .fail (4, 5) k
  | fuel + 1, b, out, blocks, nx, hist =>
    if b.isEmpty then .ok out blocks
    else
      let h := parseHdr b
      let n := blkLen h
      if b.length < 16 || b.length < n || malformed h (parseTable b h.entries)
          || (h.inChain && h.chainIndex != 0 && h.chainIndex != nx) then .fail (4, 5) blocks
      else if cap < out.length + h.dlen then .fail (4, 3) blocks
      else
        let hist := if h.inChain && h.chainIndex != 0 then hist else []
        match decodeBlock hist (b.take n) with
        | .malformed => .fail (4, 5) blocks
        | .crc => .fail (4, 2) blocks
        | .ok d => jobDecode cap fuel (b.drop n) (out ++ d) (blocks + 1) (if h.inChain then h.chainIndex + 1 else 0)
            (if h.inChain then lastHist (hist ++ d) else [])

/-- The end of a job on the present content of its input area. -/
def jobEnd (s : State) (b : List Byte) : JobEnd :=
  let i := jobIn b
  let d := ramRead s i.1 i.2
  if anyBad s i.1 i.2 then .fail (4, 1) 0
  else if b.getD 36 0 = 0 then
    let bs := jobBlocks (jobPar b) d
    let out := bs.flatMap fun x => x.2.bytes
    if (jobOut b).2 < out.length then .fail (4, 3) bs.length else .ok out bs.length
  else jobDecode (jobOut b).2 (i.2 / 16 + 1) d [] 0 0 []

/-- The lanes of a cluster that a job runs on. -/
def jobLanes (s : State) (m cid : Nat) : List Nat := (List.range 4).filter fun l => laneWork s m l == .job cid

/-- What the lanes count for a job (R205, R235): its blocks go to its lanes in turn. -/
def countJob (s : State) (m cid : Nat) (b : List Byte) (e : JobEnd) : State :=
  if b.getD 36 0 = 0 then
    let ls := jobLanes s m cid
    (numbered (jobBlocks (jobPar b) (ramRead s (jobIn b).1 (jobIn b).2))).foldl (fun s x =>
      let s := countCoded s m x.2.1 x.2.2
      if x.2.2.selfFailed then laneMismatch s m (ls.getD (x.1 % max 1 ls.length) 0) else s) s
  else match e with
    | .ok _ k => count s (pCdc m) 1 k
    | .fail c k =>
      let s := count s (pCdc m) 1 k
      if c = (4, 2) then raise (count s (pCdc m) 6) (pCdc m) 8 else s

/-- CODEC_JOB_DONE (R241). -/
def jobDone (s : State) (cid : Nat) : State :=
  let c := cmd s cid
  if cOpc c.bytes != 0x10 || c.phase != .running || c.stage != 1 || s.fwu.paused then s
  else if c.workWait then (if s.pool.dead then complete s cid (4, 1) (endResult s cid 4) else s)
  else
    let m := c.holder - 19
    let e := jobEnd s c.bytes
    let s := readBad (countJob s m cid c.bytes e) (jobIn c.bytes).1 (jobIn c.bytes).2 c.holder
    match e with
    | .fail code _ => complete s cid code (if code = (4, 3) then 0 else endResult s cid code.1)
    | .ok out k =>
      let s := if c.tainted then scramble s c else bufWrite s (jobOut c.bytes).1 out c.holder
      complete (modCmd s cid fun c => { c with stage := 2 }) cid (0, 0) (out.length + 2 ^ 32 * k)

/-! ### The CDC page -/

/-- The enable check of cluster `m` (R236). -/
def cdcCheck (s : State) (m : Nat) : Nat × Nat :=
  let meth := field s (pCdc m) 0x044 0 4
  let level := field s (pCdc m) 0x048 0 4
  if field s (pCdc m) 0x040 0 4 = 0 then (0x0603, 0)
  else if 3 < meth || ((reg s (pCdc m) 0x044).getLsbD 8 && meth != 1) then (0x0602, 1)
  else if !within 1 9 level then (0x0601, 2)
  else if !hintOk (field s (pCdc m) 0x04C 0 16) (field s (pCdc m) 0x04C 16 16) then (0x0604, 3)
  else (0, 0)

/-- A cluster is enabled: the mismatches of its lanes start from 0 (R205). -/
def cdcEnabled (s : State) (m : Nat) : State := modCluster s m fun c => { c with mismatches := [] }

/-- A cluster has work in flight (R238). -/
def cdcBusy (s : State) (m : Nat) : Bool := (List.range 4).any fun l => laneWork s m l != .idle

/-- An abort of a cluster: its jobs complete with BLOCK_ABORT and its volume blocks wait for another cluster (R238, R234). -/
def cdcAbort (s : State) (m : Nat) : State :=
  let s := (liveCmds s fun _ c => cOpc c.bytes == 0x10 && c.holder == cdcReq m).foldl
    (fun s cid => complete s cid (6, 2) (endResult s cid 6)) s
  (List.range 4).foldl (fun s l =>
    let s' := setLane s m l .idle
    match laneWork s m l with
    | .compress v q => modBlk s' v q fun b => if b.phase = .lane then { b with phase := .raw, chain := none } else b
    | .early v cid no st => modSeg s' v cid no fun g => { g with early := g.early.filter fun e => !(e.start == st && e.slot.isNone) }
    | .decompress v i => modUnit s' (v / 4) i fun u => if u.st = .lane then { u with st := .ready } else u
    | _ => s') s

/-- The drain of a cluster ends: its lanes are back in service once it is enabled, and the chains they hold are saved (R235, R230). -/
def cdcDrained (s : State) (m : Nat) : State :=
  modCluster ((List.range 4).foldl (fun s l => saveLane s m l) s) m fun c => { c with faulted := 0 }

end Sys2Proof.Machine
end

