-- ==== Sys2Proof/Machine/Keys.lean ====
section
/-! DEFINITION. The key store: key words and labels, COMMIT and ERASE (R242 to R248), bindings (R249, R262), zeroise and its alarm
sources (R259 to R263). -/

namespace Sys2Proof.Machine

/-- `KEY.SLOT[s].WRITTEN` (R242). -/
def writtenMask (x : KeySlot) : Nat := bitsOf ((List.range 24).map fun i => x.words.any fun w => w.1 == i)

/-- `BIND_COUNT`: mounted volumes bound to a slot (R242, R249). -/
def bindCount (s : State) (k : Nat) : Nat := (s.vols.filter fun x => x.2.mounted && x.2.bind == .slot k).length

/-- Blocks of a volume wait to be packed into a data set, under slot `k`, that is not open yet. -/
def packWaits (s : State) (v k : Nat) : Bool :=
  !((slice s (v / 4)).opens.any fun o => o.vol == v && o.bind == .slot k)
    && ((vol s v).blks.any (fun b => b.bind == .slot k && !b.placed && !b.retained)
      || (vol s v).segs.any fun g => g.keySlot == some k && g.phase == .buffered && !g.cut)

/-- Data sets of transport `n` whose encryption, tag or decryption work references a slot (R242): those to be packed from blocks that wait,
open and closed ones bound to it until they are verified, and decoded ones of which units are being read. -/
def cipherWork (s : State) (n k : Nat) : Nat :=
  let x := slice s n
  (x.opens.filter fun o => o.bind == .slot k).length + (x.sets.filter fun d => d.cipherSlot == some k && !d.verified).length
    + ((volsOf n).filter fun v => packWaits s v k).length
    + (x.decoded.filter fun d => d.info.label != 0 && slotOfLabel s d.info.label == some k && x.units.any fun u =>
        u.vol == d.vol && u.ds == d.info.num).length

/-- `IN_USE` of a slot (R242). -/
def inUse (s : State) (k : Nat) : Nat := ((List.range 16).map fun n => cipherWork s n k).foldl (· + ·) 0

/-- A slot is bound or in use (R242). -/
def slotBusy (s : State) (k : Nat) : Bool := 0 < bindCount s k || 0 < inUse s k

/-- Whether an alarm source is enabled (R259). -/
def srcEnabled (s : State) (a : AlarmSrc) : Bool :=
  match a with
  | .tamper0 => (reg s .key 0x04C).getLsbD 0
  | .tamper1 => (reg s .key 0x04C).getLsbD 1
  | .cover => (reg s .key 0x04C).getLsbD 2
  | _ => true

/-- Bit of an alarm source in ALARM_LIVE (R246). -/
def srcBit : AlarmSrc → Nat
  | .tamper0 => 0
  | .tamper1 => 1
  | .cover => 2
  | .overtemp => 3
  | .rail => 4

/-- An enabled alarm source is active (R245). -/
def alarmActive (s : State) : Bool := s.alarms.any (srcEnabled s)

/-- `KEY.MY_RESULT` of a master (R246, R247). -/
def keyResult (s : State) (m : Master) (slot r : Nat) : State :=
  modMst s m fun x => { x with keyRes := BitVec.ofNat 4 r, keySlot := BitVec.ofNat 7 slot }

/-- A SLOT_IN_USE result (R245, R246). -/
def keyInUse (s : State) (m : Master) (slot : Nat) : State := keyResult (setEvt (count s .key 2) .key 10) m slot 1

/-- Apply a write to a slot (R244). -/
def slotWrite (s : State) (m : Master) (slot : Nat) (f : KeySlot → KeySlot) : State :=
  if !enabledNow s .key then keyResult s m slot 5
  else if alarmActive s then keyResult s m slot 2
  else if slotBusy s slot then keyInUse s m slot
  else
    let s := modKey s slot fun x => f { (if x.st = .committed then {} else x) with st := .loading }
    keyResult s m slot 0

/-- A write of key word `i` (R243, R244). -/
def keyWord (s : State) (m : Master) (slot i : Nat) (v : Word) : State :=
  slotWrite s m slot fun x => { x with words := tput x.words i v }

/-- A write of LABEL (R244). -/
def keyLabel (s : State) (m : Master) (slot : Nat) (v : DWord) : State := slotWrite s m slot fun x => { x with label := v }

/-- The check of a COMMIT (R248). -/
def commitCheck (s : State) (slot : Nat) : Nat :=
  let x := keySlot s slot
  let k (i : Nat) : List Byte := keyBytes s slot i
  if alarmActive s then 0x0206
  else if x.st = .committed then 0
  else if writtenMask x != 0xFFFFFF then 0x0203
  else if (List.range 3).any fun i => k i == zeros 32 then 0x0202
  else if k 0 = k 1 then 0x0201
  else if k 2 = k 0 || k 2 = k 1 then 0x0204
  else if x.label = 0 || s.keys.any fun y => y.1 != slot && y.2.st == .committed && y.2.label == x.label then 0x0205
  else 0

/-- COMMIT (R244, R248). -/
def commitOp (s : State) (m : Master) (slot : Nat) : State :=
  let r := commitCheck s slot
  let s := setCheck s .key r (if r = 0 then 0 else slot)
  if r != 0 then keyResult s m slot 3
  else
    let was := (keySlot s slot).st
    let s := if was = .committed then s else modKey s slot fun x => { x with st := .committed, du := 0 }
    keyResult (count s .key 1) m slot 0

/-- ERASE (R244, R245). -/
def eraseOp (s : State) (m : Master) (slot : Nat) : State :=
  if slotBusy s slot then keyInUse s m slot else keyResult (setKey s slot {}) m slot 0

/-- A write of `KEY.SLOT_OP` (R245, R246). -/
def slotOp (s : State) (m : Master) (v : Word) : State :=
  let slot := v.toNat % 128
  let op := v.toNat / 256 % 4
  if !enabledNow s .key then keyResult s m slot 5
  else if op = 1 then commitOp s m slot
  else if op = 2 then eraseOp s m slot
  else keyResult s m slot 4

/-! ### Zeroise -/

/-- A volume holds write data that is not Committed, or a command that is to write such data has started. -/
def holdsWrite (s : State) (v : Nat) : Bool :=
  let x := vol s v
  writeStream s v || x.segs.any (fun g => g.phase == .isOpen || (g.phase == .buffered && x.hzn ≤ g.seq))
    || (liveCmds s fun _ c => c.vol == some v && writeType (cOpc c.bytes)) != []

/-- A binding is a slot. -/
def isSlot (b : Binding) : Bool :=
  match b with
  | .slot _ => true
  | _ => false

/-- A volume is bound to a slot, or its write stream has blocks that are (R261). -/
def boundVol (s : State) (v : Nat) : Bool :=
  ((vol s v).mounted && slotBound (vol s v)) || (vol s v).blks.any fun b => isSlot b.bind && !b.retained

/-- Every key slot is ZEROISED; labels stay (R244). -/
def zeroSlots (s : State) : State :=
  { s with keys := (List.range 128).map fun k =>
      (k, { keySlot s k with st := .zeroised, words := [], du := 0, reserved := 0 }) }

/-- A binding to a slot becomes LOST (R262). -/
def loseBind (x : Vol) : Vol := if isSlot x.bind then { x with bind := .lost } else x

/-- Every binding to a slot becomes LOST (R262). -/
def loseBindings (s : State) : State := { s with vols := s.vols.map fun x => (x.1, loseBind x.2) }

/-- The cipher work that a zeroise stops is counted at each transport (R260). -/
def countStopped (s : State) : State :=
  (List.range 16).foldl (fun s n =>
    count s (pCiph n) 5 (((List.range 128).map fun k => cipherWork s n k).foldl (· + ·) 0)) s

/-- The volumes that a zeroise halts: bound to a slot, with write data that is not Committed (R261). -/
def zeroiseHalts (s : State) : List Nat := (List.range 64).filter fun v => boundVol s v && holdsWrite s v

/-- The bursts of data sets of volumes bound to a slot that are not wholly sent stop (R260). -/
def stopBursts (s : State) : State :=
  (List.range 16).foldl (fun s n =>
    if (slice s n).inBurst && !(slice s n).ending && (slice s n).curVol.any (boundVol s) then chanStop s n else s) s

/-- A data set that was decrypted, or is to be, from which a command reads. -/
def cipherUnit (s : State) (n : Nat) (u : ReadUnit) : Bool :=
  (slice s n).decoded.any fun d => d.vol == u.vol && d.info.num == u.ds && d.info.label != 0

/-- The decryption work of a transport stops: a READ at work on encrypted data ends with KEY_ERASED after what it delivered, and what was
decoded of such data is dropped (R260, R261). -/
def stopReads (s : State) (n : Nat) : State :=
  let us := (slice s n).units.filter (cipherUnit s n)
  let s := ((us.map (·.cid)).eraseDups).foldl (fun s cid =>
    complete s cid (5, 1) 0 { dataSet := ((us.find? fun u => u.cid == cid).map (·.ds)).getD 0xFFFFFFFF }) s
  dropDecoded s n fun d => d.info.label == 0

/-- The slots are ZEROISED, the cipher work stops, those volumes are halted, the bindings lost (R260 to R262). -/
def eraseKeys (s : State) : State :=
  (List.range 16).foldl stopReads (loseBindings ((zeroiseHalts s).foldl haltErased (zeroSlots (stopBursts s))))

/-- The latches of a zeroise: the bit of its cause, the management alarm, the time (R246, R420). -/
def zeroiseMarks (s : State) (cause : Nat) : State :=
  let s := setReg s .key 0x054 (reg s .key 0x054 ||| w32 (2 ^ cause))
  let s := setReg s .mgt 0x04C (reg s .mgt 0x04C ||| 0x80)
  setReg64 s .key 0x058 (now s)

/-- A zeroise with its cause: the bit of ALARM_LATCH (R260 to R262, R420). -/
def zeroise (s : State) (cause : Nat) (req : Nat := 0x3F) : State :=
  (List.range 16).foldl progress
    (raise (count (zeroiseMarks (eraseKeys (countStopped s)) cause) .key 0) .key 8 cause req)

end Sys2Proof.Machine
end

