-- ==== Sys2Proof/Machine/Nv.lean ====
section
/-! DEFINITION. The NV array: its cells and unit operations (R442 to R445), failed sectors (R452 to R454), boot blocks and select
words (R447 to R450), settings records (R455, R456), and the descriptor queues (R458 to R467). -/

namespace Sys2Proof.Machine

/-- Change the NV part. -/
def modNv (s : State) (f : NvSt → NvSt) : State := { s with nv := f s.nv }
/-- Change the update part. -/
def modFwu (s : State) (f : FwuSt → FwuSt) : State := { s with fwu := f s.fwu }

/-- An erased byte (R443): what an array byte that nothing has programmed reads as. -/
def erased : Byte := 0xFF

/-- `n` bytes of the array from `a` on. -/
def arr (s : State) (a n : Nat) : List Byte :=
  let part := s.nv.cells.filter fun c => a ≤ c.1 && c.1 < a + n
  (List.range n).map fun i => Memory.get erased part (a + i)

/-- Bank of an array address (R442). -/
def nvBank (a : Nat) : Nat := a / 0x1000000 % 2
/-- Sector number over both banks. -/
def nvSector (a : Nat) : Nat := a / 4096
/-- The sector of an address is marked failed (R453). -/
def sectorFailed (s : State) (a : Nat) : Bool := tget s.nv.remaps (nvSector a) (some 0) == none
/-- Offset of an address within its bank. -/
def nvOff (a : Nat) : Nat := a % 0x1000000

/-- Base of boot block `b` (R446). -/
def bootBase (b : Nat) : Nat := 0x1000000 * b
/-- Base of image slot `k` (R446). -/
def slotBase (k : Nat) : Nat := 0x1000000 * k + 0x40000
/-- Base of settings area `k`. -/
def areaBase (k : Nat) : Nat := 0x1000000 * k + 0x7C0000
/-- Base of select sector `k`. -/
def selectBase (k : Nat) : Nat := 0x1000000 * k + 0xB60000
/-- Array address of a user-area offset (R461). -/
def userAddr (u : Nat) : Nat := if u < 0x100000 then 0xA40000 + u else 0x1A40000 + (u - 0x100000)

/-- Bank and first address of a unit operation. -/
def unitAddr : NvUnit → Nat
  | .program a _ => a
  | .erase a => a

/-- A word with its magic and the CRC-16 of bytes 0 to 5 (R448, R449). -/
def crcWord (low magic : Nat) : List Byte :=
  let b := leBytes 4 low ++ leBytes 2 magic
  b ++ leBytes 2 (crc16 b).toNat

/-- Rollback floor RB (R450). -/
def rollback (s : State) : Nat :=
  [0, 1].foldl (fun m k =>
    let b := bootBlk s k
    max m (max (if b.valid then b.floor else 0) (b.confirm.getD 0))) 0

/-- Set boot block `k`. -/
def setBoot (s : State) (k : Nat) (b : BootBlk) : State := modFwu s fun f => { f with blocks := tput f.blocks k b }

/-- What a programmed range means to the boot choice: a boot record (R447), a CONFIRM or START word (R449), a select word (R448), a
settings record (R455). -/
def programMeans (s : State) (a : Nat) (bs : List Byte) : State :=
  let k := nvBank a
  let o := nvOff a
  if o = 56 * 4096 && bs.length = 256 then
    setBoot s k { valid := true, slot := leAt bs 4 1, len := leAt bs 12 4, digest := sub bs 16 48, version := leAt bs 6 2, svn := leAt bs 8 2, floor := leAt bs 10 2 }
  else if o = 57 * 4096 then setBoot s k { bootBlk s k with confirm := some (leAt bs 0 2) }
  else if 57 * 4096 < o && o < 58 * 4096 then setBoot s k { bootBlk s k with starts := (bootBlk s k).starts + 1 }
  else if nvSector a = nvSector (selectBase k) then
    let w := leAt bs 0 4
    modFwu s fun f => { f with block := w % 2, select := some (w / 256, k, o % 4096 / 8) }
  else
    match s.nv.coming.find? fun r => areaBase r.area + 4096 * r.sector == a with
    | some r => modNv s fun x => { x with coming := x.coming.filter (· != r), records := x.records ++ [r] }
    | none => s

/-- What an erased sector means: its boot block is no longer valid, its record is gone. -/
def eraseMeans (s : State) (a : Nat) : State :=
  if nvOff a < 0x40000 then setBoot s (nvBank a) {}
  else if nvOff a < 0x7C0000 then modFwu s fun f => { f with overwritten := f.overwritten || nvBank a == 0 }
  else modNv s fun x => { x with records := x.records.filter fun r => nvSector (areaBase r.area) + r.sector != nvSector a }

/-- A unit operation has ended well (R443, R445). -/
def applyUnit (s : State) (u : NvUnit) : State :=
  match u with
  | .program a bs =>
    let s := modNv s fun x => { x with cells := Memory.put erased x.cells a bs }
    programMeans (count s .nva 1 (bs.length / 8)) a bs
  | .erase a =>
    let s := modNv s fun x => { x with cells := Memory.clear x.cells (a / 4096 * 4096) 4096,
                                       flags := x.flags.filter (· != nvSector a) }
    eraseMeans (count s .nva 2) a

/-- Unit operations of a bank, the one in progress first. -/
def bankUnits (s : State) (b : Nat) : List (NvOwner × NvUnit) := tget s.nv.units b []
/-- Replace them. -/
def setBankUnits (s : State) (b : Nat) (l : List (NvOwner × NvUnit)) : State := modNv s fun x => { x with units := tput x.units b l }

/-- The number of a queue. -/
def nvqIdx : NvQueue → Nat
  | .a => 0
  | .b => 1
  | .mgmt => 2
/-- Queue `q`. -/
def nvq (s : State) (q : NvQueue) : NvQ := tget s.nv.qs (nvqIdx q) {}
/-- Change queue `q`. -/
def modNvq (s : State) (q : NvQueue) (f : NvQ → NvQ) : State :=
  modNv s fun x => { x with qs := tput x.qs (nvqIdx q) (f (nvq s q)) }
/-- The port of a host queue. -/
def nvqPort : NvQueue → Option Port
  | .a => some .a
  | .b => some .b
  | .mgmt => none
/-- The queue of a port. -/
def portNvq : Port → NvQueue
  | .a => .a
  | .b => .b
/-- Owner of the unit operations of a queue. -/
def nvqOwner (q : NvQueue) : NvOwner :=
  match nvqPort q with
  | some p => .host p
  | none => .mgmt
/-- The queue of an owner. -/
def ownerQ : NvOwner → Option NvQueue
  | .host p => some (portNvq p)
  | .mgmt => some .mgmt
  | .internal => none

/-- The unit operation with which a job would go on in bank `b`. -/
def jobUnit (s : State) (q : NvQueue) (b : Nat) : Option (NvOwner × NvUnit) :=
  match (nvq s q).job with
  | none => none
  | some j => if [0, 1].any fun k => (bankUnits s k).any fun x => x.1 == nvqOwner q then none
    else match j.units with
      | u :: _ => if nvBank (unitAddr u) = b then some (nvqOwner q, u) else none
      | [] => none

/-- An idle bank starts its next unit operation: the management core's before a host's (R464). The flag of a sector whose erase is in
progress is set (R445). -/
def feedBank (s : State) (b : Nat) : State :=
  let s := if (bankUnits s b).isEmpty && !s.fwu.paused then
      match [NvQueue.mgmt, .a, .b].findSome? fun q => jobUnit s q b with
      | some x => setBankUnits s b [x]
      | none => s
    else s
  match bankUnits s b with
  | (_, .erase a) :: _ => modNv s fun x =>
      { x with flags := if x.flags.contains (nvSector a) then x.flags else nvSector a :: x.flags }
  | _ => s

/-- Both banks start what they can. -/
def feed (s : State) : State := feedBank (feedBank s 0) 1

/-! ### Images in the array -/

/-- A directory entry: kind, offset, length, SUB_VERSION, digest (R469). -/
structure ImgEntry where
  kind : Nat
  off : Nat
  len : Nat
  sub : Nat
  digest : List Byte
  deriving DecidableEq, Repr

/-- The directory of the image whose bytes start at `a`. -/
def imgEntries (s : State) (a : Nat) : List ImgEntry :=
  let n := (arr s (a + 11) 1).headD 0
  (List.range n.toNat).map fun e =>
    let b := arr s (a + 32 + 64 * e) 64
    { kind := leAt b 0 1, off := leAt b 4 4, len := leAt b 8 4, sub := leAt b 12 2, digest := sub b 16 48 }

/-- The bytes of the sub-image of a kind; none where the directory does not name it. -/
def subImage (s : State) (a kind : Nat) : List Byte :=
  match (imgEntries s a).find? (·.kind == kind) with
  | some e => arr s (a + e.off) e.len
  | none => []

/-- What an image in slot `k` says of itself. -/
def readImage (s : State) (k : Nat) : ImgInfo :=
  let a := slotBase k
  let h := arr s a 32
  { version := leAt h 6 2, svn := leAt h 8 2, format := leAt h 10 1,
    kxh2 := ((imgEntries s a).find? (·.kind == 8)).elim 0 (·.sub), kxh2Image := subImage s a 8 }

/-- The image in slot `k` under R470 and R474, as a LAST_RESULT code (R482): 1 for a valid image. -/
def checkImage (s : State) (k : Nat) : Nat :=
  let a := slotBase k
  let h := arr s a 32
  let len := leAt h 16 4
  let es := imgEntries s a
  let n := leAt h 11 1
  let formed := sub h 0 4 == [0x4B, 0x58, 0x46, 0x49] && leAt h 4 2 == 1 && 1 ≤ n && n ≤ 16 && 4096 ≤ len
    && len ≤ 7864320 && sub h 20 12 == zeros 12
    && es.all fun e => 1 ≤ e.kind && e.kind ≤ 8 && e.off + e.len ≤ len && (e.kind != 2 || e.len ≤ 229376)
        && (e.kind != 8 || e.len ≤ 4194304)
  if !formed || !((List.range 7).all fun i => (es.filter fun e => e.kind == i + 1).length == 1) then 5
  else if es.any fun e => Config.sha384 (arr s (a + e.off) e.len) != e.digest then 6
  else if !Config.ecdsaVerify (Config.sha384 (arr s a (len - 96))) (arr s (a + len - 96) 96) then 2
  else if leAt h 12 4 != 0x0016000A then 3
  else if leAt h 8 2 < rollback s then 4
  else 1

/-- The image that is to run stands the check at a start: its digest is that of the boot record, and it is valid under R470 (R451). The
image of slot A at manufacture does, for as long as nothing has been written over it. -/
def imageOk (s : State) : Bool :=
  let k := runSlot s
  let b := bootBlk s s.fwu.block
  (k == 0 && !s.fwu.overwritten) || (Config.sha384 (arr s (slotBase k) b.len) == b.digest && [1, 4].contains (checkImage s k))

/-- The boot record of the image in slot `k` (R447). -/
def bootRecord (s : State) (k : Nat) : List Byte :=
  let a := slotBase k
  let h := arr s a 32
  let len := leAt h 16 4
  let ld := subImage s a 2
  let b := [0x4B, 0x42, 0x52, 0x31] ++ leBytes 1 k ++ zeros 1 ++ sub h 6 2 ++ sub h 8 2 ++ leBytes 2 (rollback s)
    ++ leBytes 4 len ++ padTo (Config.sha384 (arr s a len)) 48 ++ leBytes 8 (now s) ++ leBytes 4 ld.length ++ zeros 4
    ++ leBytes 8 (crc64 ld).toNat ++ zeros 160
  b ++ leBytes 8 (crc64 b).toNat

/-- The word programs that write `bs` from `a` on, the last filled up with erased bytes. -/
def wordPrograms (a : Nat) (bs : List Byte) : List NvUnit :=
  (List.range (ceilDiv bs.length 8)).map fun i => .program (a + 8 * i) ((List.range 8).map fun j => bs.getD (8 * i + j) erased)

/-- Erase the sectors of `[a, a + n)`. -/
def sectorErases (a n : Nat) : List NvUnit := (List.range (n / 4096)).map fun i => .erase (a + 4096 * i)

/-- SWAP_BOOT's prepare part for the image in slot `k` (R460). -/
def prepareUnits (s : State) (k : Nat) : List NvUnit :=
  let a := bootBase (1 - s.fwu.block)
  sectorErases a 0x40000 ++ wordPrograms a (subImage s (slotBase k) 2) ++ [.program (a + 56 * 4096) (bootRecord s k)]

/-- The unit operations that write a select word naming block `b` (R448); none once no select sector can take it (R454). -/
def selectUnits (s : State) (b : Nat) : Option (List NvUnit) :=
  let bad (k : Nat) : Bool := sectorFailed s (selectBase k)
  let word (n k i : Nat) : NvUnit := .program (selectBase k + 8 * i) (crcWord (b % 2 + 256 * n) 0x5E1C)
  match s.fwu.select with
  | none => if !bad 0 then some [word 0 0 0] else if !bad 1 then some [word 0 1 0] else none
  | some (n, k, i) =>
    if !bad k && i < 511 then some [word (n + 1) k (i + 1)]
    else if bad (1 - k) then none
    else some (word (n + 1) (1 - k) 0 :: (if bad k then [] else [.erase (selectBase k)]))

/-! ### Settings records -/

/-- The newest of some records. -/
def newest (l : List SetRec) : Option SetRec :=
  l.foldl (fun b r => match b with
    | some x => if x.seq < r.seq then some r else some x
    | none => some r) none

/-- Two records of one KIND and FORMAT. -/
def sameKind (a b : SetRec) : Bool := a.security == b.security && a.format == b.format

/-- A record is the newest of its KIND and FORMAT. -/
def isNewest (s : State) (r : SetRec) : Bool := newest (s.nv.records.filter (sameKind r)) == some r

/-- Sector `k` of settings area `a` can take a record. -/
def areaBlank (s : State) (a k : Nat) : Bool :=
  !sectorFailed s (areaBase a + 4096 * k) && !((s.nv.records ++ s.nv.coming).any fun r => r.area == a && r.sector == k)

/-- The bytes of a record (R455); the image sets the body. -/
def setRecBytes (s : State) (r : SetRec) : List Byte :=
  let body := if r.defaults then [] else Config.settingsBody (leBytes 8 r.seq)
  let b := padTo ([0x4B, 0x53, 0x45, 0x54] ++ leBytes 1 (bit r.security) ++ leBytes 1 r.format ++ leBytes 1 (bit r.defaults)
    ++ zeros 1 ++ leBytes 8 r.seq ++ leBytes 8 (now s) ++ leBytes 4 (min body.length 4056) ++ zeros 4 ++ body) 4088
  b ++ leBytes 8 (crc64 b).toNat

/-- Put a record on its way to a sector of its area (R456): the lowest blank one, else that of the area's oldest record that is not
the newest of its kind. -/
def placeRecord (s : State) (r : SetRec) : State :=
  let area := match newest (s.nv.records.filter (sameKind r)) with
    | some x => 1 - x.area
    | none => 0
  let go (s : State) (k : Nat) (pre : List NvUnit) : State :=
    let r := { r with area := area, sector := k }
    nvInternal (modNv s fun x => { x with coming := x.coming ++ [r] }) area
      (pre ++ [.program (areaBase area + 4096 * k) (setRecBytes s r)])
  match (List.range 128).find? fun k => areaBlank s area k with
  | some k => go s k []
  | none =>
    let old := s.nv.records.filter fun x => x.area == area && !isNewest s x
    match old.foldl (fun b x => match b with
      | some y => if x.seq < y.seq then some x else some y
      | none => some x) (none : Option SetRec) with
    | some x => go s x.sector [.erase (areaBase area + 4096 * x.sector)]
    | none => s

/-- Write a settings record: it takes the next SEQ. -/
def writeSetRec (s : State) (r : SetRec) : State :=
  feed (placeRecord (modNv s fun x => { x with nextSeq := x.nextSeq + 1 }) { r with seq := s.nv.nextSeq })

/-! ### Descriptors -/

/-- `NVA.QUEUE_BASE` and `QUEUE_SIZE` of a port. -/
def nvBase (s : State) (p : Port) : Nat := reg64 s .nva (0x040 + 0x10 * pIdx p)
/-- Entries of a port's queue. -/
def nvSize (s : State) (p : Port) : Nat := field s .nva (0x048 + 0x10 * pIdx p) 0 13

/-- Ask for the descriptors up to the tail by DMA (R458): one read up to the end of the ring, one from its start. -/
def askDescs (s : State) (p : Port) : State :=
  let q := portNvq p
  let x := nvq s q
  let n := nvSize s p
  let ask (s : State) (i j : Nat) : State :=
    if i < j then emit (modNvq s q fun y => { y with reads := y.reads ++ [.descs (j - i)] })
      (.dmaRead p (nvBase s p + 32 * i) (32 * (j - i)))
    else s
  let s := if x.asked ≤ x.tail then ask s x.asked x.tail else ask (ask s x.asked n) 0 x.tail
  modNvq s q fun y => { y with asked := y.tail }

/-- A write of a port's doorbell by that port (R458, R466). -/
def nvaBell (s : State) (p : Port) (v : Word) : State :=
  if !enabledNow s .nva then s
  else
    let t := v.toNat % 4096
    if nvSize s p ≤ t then setEvt s .nva 14
    else askDescs (modNvq s (portNvq p) fun x => { x with tail := t }) p

/-- A descriptor from its 32 bytes (R459). -/
def descOf (b : List Byte) : NvDesc :=
  { op := leAt b 0 1, flags := leAt b 1 1, reserved := leAt b 26 2 != 0 || 8 ≤ leAt b 1 1, length := leAt b 4 4,
    addr := leAt b 8 8, ptr := leAt b 16 8 }

/-- `FWU.STATE.STATE` (R472). -/
def fwuCode : FwuPhase → Nat
  | .idle => 0
  | .downloading => 1
  | .downloaded => 2
  | .verifying => 3
  | .verified => 4
  | .scheduled => 5
  | .activating => 6
  | .trial => 7

/-- `FWU.STATE` (R481). -/
def fwuState (s : State) : Word :=
  let f := s.fwu
  w32 (fwuCode f.phase + 2 ^ 4 * f.lastResult + 2 ^ 8 * bit s.fsp.ownerLock + 2 ^ 9 * (s.fsp.fleet % 4)
    + 2 ^ 11 * bit (f.phase == .scheduled && f.reqQuiesce))

/-- Answer an FSP request of session `id` with SEQ `seq` and OPCODE `op`; an authenticated session signs its answers (R431, R432). -/
def fspAnswer (s : State) (id seq op status : Nat) (payload : List Byte) : State :=
  let key := match s.fsp.sessions.find? fun x => x.id == id && x.authed with
    | some x => some x.key
    | none => none
  emit s (.fsp (fspDatagram 1 id seq op status payload key))

/-- The management core takes a semaphore by the protocol of R69, if it can: its read of LOCK. -/
def coreTakes (s : State) (k : Nat) : State × Bool :=
  if (mst s .mgmt).frozen then (s, false)
  else if (sem s k).holder.isSome then (semResult s .mgmt k 1, false)
  else if (List.range 32).any fun j => k < j && holds s .mgmt j then (semResult s .mgmt k 2, false)
  else (semResult (grantSem s .mgmt k) .mgmt k 0, true)

/-- It releases it. -/
def coreGives (s : State) (k : Nat) : State := semResult (setSem s k { sem s k with holder := none }) .mgmt k 4

/-- A step that held SEM2 beyond its request has ended (R473). -/
def stepGives (s : State) : State :=
  if s.fwu.took then coreGives (modFwu s fun f => { f with took := false }) 2 else s

/-- A DL_CHUNK has ended (R473, R454). -/
def chunkEnd (s : State) (ok : Bool) : State :=
  match s.fwu.answer with
  | none => s
  | some (id, seq, c) =>
    let s := modFwu s fun f => { f with answer := none, done := if ok && !f.done.contains c then c :: f.done else f.done }
    let s := if !ok then modFwu s fun f => { f with phase := .idle, lastResult := 7 }
      else if s.fwu.phase = .downloading && s.fwu.total ≤ s.fwu.done.length then
        modFwu s fun f => { f with phase := .downloaded, candidate := some (readImage s (1 - runSlot s)) }
      else s
    stepGives (fspAnswer s id seq 0x42 0 (leBytes 4 (fwuState s).toNat))

/-- SWAP_BOOT's prepare part of an activation has ended (R476). -/
def prepareEnd (s : State) (ok : Bool) : State :=
  if s.fwu.phase != .activating && s.fwu.phase != .scheduled then s
  else if ok then modFwu s fun f => { f with prepared := true }
  else
    let cid := s.fwu.byCid
    let s := modFwu s fun f => { f with phase := .verified, lastResult := 7, quiesce := false, byCid := none, prepared := false }
    match cid with
    | some c => nextFree (complete s c (2, 0xB) (freeVal s % 2 ^ 64))
    | none => s

/-- A descriptor that is a step of the update has ended. -/
def mgmtEnd (s : State) (d : NvDesc) (code : Nat) : State :=
  match d.op with
  | 2 => chunkEnd s (code == 0)
  | 3 => if code = 0 then s else chunkEnd (modNvq s .mgmt fun x => { x with fetched := x.fetched.drop 1 }) false
  | 5 => prepareEnd s (code == 0)
  | _ => s

/-- A descriptor completes: STATUS and RESULT are written back, HEAD advances, the other queue has its turn (R458, R463). -/
def descEnd (s : State) (q : NvQueue) (d : NvDesc) (code result : Nat) : State :=
  let s := count (modNvq s q fun x => { x with job := none }) .nva 0
  match nvqPort q with
  | none => mgmtEnd s d code
  | some p =>
    let h := (nvq s q).head
    let s := if (port s p).d3hot then s
      else emit s (.dmaWrite p (nvBase s p + 32 * h + 24) (leBytes 2 (0x8000 + code) ++ zeros 2 ++ leBytes 4 result))
    let s := modNvq s q fun x => { x with head := if h + 1 < nvSize s p then h + 1 else 0 }
    let s := modNv s fun x => { x with turn := if p = .a then .b else .a }
    let s := if code = 0 then s else count s .nva 5
    if d.flags % 2 = 1 then setEvt s .nva (8 + pIdx p) else s

/-- A descriptor that has no row to start it: an unlisted OP, or one whose fetch failed. -/
def skimOne (s : State) (q : NvQueue) : State :=
  let x := nvq s q
  match x.job, x.fetched with
  | none, d :: rest =>
    if d.lost then descEnd (modNvq s q fun y => { y with fetched := rest }) q d 9 0
    else if d.op = 0 || 5 < d.op then descEnd (modNvq s q fun y => { y with fetched := rest }) q d 4 0
    else s
  | _, _ => s

/-- Complete every such descriptor at the front of the host queues. -/
def skim (s : State) : State :=
  [NvQueue.a, .b].foldl (fun s q => ((nvq s q).fetched).foldl (fun s _ => skimOne s q) s) s

/-- A port's queue has a descriptor that may have its turn: none while the port issues no DMA (R506). -/
def nvReady (s : State) (p : Port) : Bool := !(nvq s (portNvq p)).fetched.isEmpty && !(port s p).d3hot

/-- No descriptor of the other host queue is at work, and it is this queue's turn (R464). -/
def nvTurn (s : State) : NvQueue → Bool
  | .mgmt => true
  | .a => !(port s .a).d3hot && (nvq s .b).job.isNone && (s.nv.turn == .a || !nvReady s .b)
  | .b => !(port s .b).d3hot && (nvq s .a).job.isNone && (s.nv.turn == .b || !nvReady s .a)

/-- The front descriptor of a queue may start (R464, R465). -/
def mayStart (s : State) (q : NvQueue) : Bool := !s.fwu.paused && (nvq s q).job.isNone && nvTurn s q

/-- A descriptor breaks the table of R460. -/
def badDesc (q : NvQueue) (d : NvDesc) : Bool :=
  d.reserved || (d.op != 5 && 2 ≤ d.flags) ||
    (match d.op with
    | 1 => d.length = 0 || 65536 < d.length || d.ptr % 8 != 0
    | 2 => d.length = 0 || 65536 < d.length || d.length % 8 != 0 || d.addr % 8 != 0 || d.ptr % 8 != 0
    | 3 => d.length = 0 || 65536 < d.length || d.length % 4096 != 0 || d.addr % 4096 != 0 || d.ptr != 0
    | 4 => d.length = 0 || 65536 < d.length || d.length % 8 != 0 || d.addr % 8 != 0 || d.ptr != 0
    | _ => d.length != 0 || d.ptr != 0) ||
    (q != .mgmt && d.op != 5 && 0x200000 < d.addr + d.length)

/-- Array address of offset `o` of a descriptor. -/
def descAddr (q : NvQueue) (d : NvDesc) (o : Nat) : Nat := if q = .mgmt then d.addr + o else userAddr (d.addr + o)

/-- The bytes of a descriptor that lie before the first failed sector (R463). -/
def reach (s : State) (q : NvQueue) (d : NvDesc) : Nat :=
  let first := d.addr % 4096
  let starts := (List.range ((first + d.length + 4095) / 4096)).map fun i => if i = 0 then 0 else 4096 * i - first
  (starts.find? fun o => sectorFailed s (descAddr q d o)).getD d.length

/-- `n` bytes of a descriptor's range. -/
def descBytes (s : State) (q : NvQueue) (d : NvDesc) (n : Nat) : List Byte :=
  if q = .mgmt || d.addr + n ≤ 0x100000 || 0x100000 ≤ d.addr then arr s (descAddr q d 0) n
  else arr s (descAddr q d 0) (0x100000 - d.addr) ++ arr s (userAddr 0x100000) (d.addr + n - 0x100000)

/-- Offset of the first word that is not blank. -/
def notBlank (bs : List Byte) : Option Nat := ((List.range bs.length).find? fun i => bs.getD i erased != erased).map fun i => i / 8 * 8

/-- A job takes its units and starts. -/
def runJob (s : State) (q : NvQueue) (d : NvDesc) (us : List NvUnit) (code : Nat) : State :=
  if us.isEmpty then descEnd s q d code 0
  else feed (modNvq s q fun x => { x with job := some { desc := d, units := us, code := code } })

/-- The programs of a PROGRAM descriptor whose data is `bs`. -/
def programUnits (q : NvQueue) (d : NvDesc) (bs : List Byte) : List NvUnit :=
  (List.range (bs.length / 8)).map fun i => .program (descAddr q d (8 * i)) (sub bs (8 * i) 8)

/-- READ, BLANK_CHECK, PROGRAM, ERASE_SECTOR or SWAP_BOOT past its refusals; `n` of its bytes lie before a failed sector (R460). -/
def runDesc (s : State) (q : NvQueue) (d : NvDesc) (n : Nat) : State :=
  let code := if n < d.length then 6 else 0
  match d.op with
  | 1 =>
    let s := match nvqPort q with
      | some p => if 0 < n then emit s (.dmaWrite p d.ptr (descBytes s q d n)) else s
      | none => s
    descEnd s q d code n
  | 4 =>
    match notBlank (descBytes s q d n) with
    | some o => descEnd s q d 1 o
    | none => descEnd s q d code n
  | 2 =>
    match notBlank (descBytes s q d n), nvqPort q with
    | some o, _ => descEnd s q d 1 o
    | none, none => runJob s q d (programUnits q d (d.data.take n)) code
    | none, some p =>
      if n = 0 then descEnd s q d code 0
      else
        let s := modNvq s q fun x => { x with reads := x.reads ++ [.data],
                                              job := some { desc := d, units := [], code := code, waiting := true } }
        emit s (.dmaRead p d.ptr n)
  | 3 => runJob s q d ((List.range (n / 4096)).map fun i => .erase (descAddr q d (4096 * i))) code
  | _ =>
    let sel := if d.flags / 2 % 2 = 1 then some [] else selectUnits s (1 - s.fwu.block)
    let prep := if d.flags / 4 % 2 = 1 then [] else prepareUnits s (d.addr % 2)
    match sel with
    | none => descEnd s q d 6 0
    | some us =>
      if prep.any fun u => sectorFailed s (unitAddr u) then descEnd s q d 6 0 else runJob s q d (prep ++ us) 0

/-- Start the front descriptor of a queue if its OP is `op` (R460 to R464). -/
def startDesc (s : State) (q : NvQueue) (op : Nat) : State :=
  match (nvq s q).fetched with
  | d :: rest =>
    if d.op != op || d.lost || !mayStart s q then s
    else
      let s := modNvq s q fun x => { x with fetched := rest }
      skim (if badDesc q d then descEnd s q d 4 0
        else if op = 5 && q != .mgmt then descEnd s q d 8 0
        else if (op = 2 || op = 3 || op = 5) && s.pwr.charge < 90 then descEnd s q d 5 0
        else runDesc s q d (if op = 5 then 0 else reach s q d))
  | [] => s

/-- Data of the oldest outstanding DMA read of a queue has come: descriptors, or the data of its PROGRAM. -/
def descData (s : State) (p : Port) (bs : List Byte) : State :=
  let q := portNvq p
  match (nvq s q).reads with
  | [] => s
  | .descs n :: rest =>
    let ds := (List.range n).map fun i => descOf (sub bs (32 * i) 32)
    skim (modNvq s q fun x => { x with reads := rest, fetched := x.fetched ++ ds })
  | .data :: rest =>
    let s := modNvq s q fun x => { x with reads := rest }
    match (nvq s q).job with
    | some j =>
      let n := reach s q j.desc
      feed (modNvq s q fun x => { x with job := some { j with waiting := false, units := programUnits q j.desc (padTo bs n) } })
    | none => s

/-- That read has failed: DMA_ERROR (R463). -/
def descFail (s : State) (p : Port) : State :=
  let q := portNvq p
  match (nvq s q).reads with
  | [] => s
  | .descs n :: rest =>
    let d : NvDesc := { op := 0, flags := 0, reserved := false, length := 0, addr := 0, ptr := 0, lost := true }
    skim (modNvq s q fun x => { x with reads := rest, fetched := x.fetched ++ List.replicate n d })
  | .data :: rest =>
    let s := modNvq s q fun x => { x with reads := rest }
    match (nvq s q).job with
    | some j => skim (descEnd s q j.desc 9 0)
    | none => s

/-! ### The end of a unit operation -/

/-- Bytes that a unit operation did for its descriptor. -/
def nvUnitLen : NvUnit → Nat
  | .program _ bs => bs.length
  | .erase _ => 4096

/-- A unit operation of a job has ended. -/
def jobStep (s : State) (o : NvOwner) (u : NvUnit) : State :=
  match ownerQ o with
  | none => s
  | some q =>
    match (nvq s q).job with
    | none => s
    | some j =>
      let j := { j with units := j.units.drop 1, done := j.done + nvUnitLen u }
      if j.units.isEmpty then descEnd s q j.desc j.code j.done else modNvq s q fun x => { x with job := some j }

/-- Move the event-log entries that were on their way to a lost sector of the ring to the next one (R454). -/
def logLost (s : State) (k : Nat) (us : List NvUnit) : State :=
  let l := s.log
  let cap := l.capacity - 64
  let es := l.entries.take cap
  let s := setEvt { s with log := { l with lost := k :: l.lost, capacity := cap, entries := es, oldest := l.nextSeq - es.length } } .log 9
  let bs := us.filterMap fun u => match u with
    | .program _ b => some b
    | .erase _ => none
  if bs.isEmpty then s
  else
    let j := nextLogSector s.log k
    let s := { s with log := { s.log with sector := j, inSector := bs.length } }
    nvInternal s (j / 512) (.erase (logAddr j) :: (List.range bs.length).map fun i =>
      .program (logAddr j + 64 * i) (bs.getD i []))

/-- What a sector that is marked failed means to what was going on in it (R454); `us` are the internal operations on it. -/
def lostSector (s : State) (a : Nat) (o : NvOwner) (us : List NvUnit) : State :=
  let off := nvOff a
  if 0x840000 ≤ off && off < 0xA40000 then logLost s (nvBank a * 512 + (off - 0x840000) / 4096) us
  else if 0x7C0000 ≤ off && off < 0x840000 then
    let rs := s.nv.coming.filter fun r => nvSector (areaBase r.area) + r.sector == nvSector a
    rs.foldl placeRecord (modNv s fun x => { x with coming := x.coming.filter fun r => !rs.contains r,
                                                    records := x.records.filter fun r => nvSector (areaBase r.area) + r.sector != nvSector a })
  else
    match ownerQ o with
    | none => s
    | some q =>
      match (nvq s q).job with
      | none => s
      | some j =>
        match (if nvSector a = nvSector (selectBase (nvBank a)) then selectUnits s (1 - s.fwu.block) else none) with
        | some us => modNvq s q fun x => { x with job := some { j with units := us } }
        | none => descEnd s q j.desc 6 j.done

/-- A unit operation has failed its sector: a spare takes it, or the sector is marked failed (R452). -/
def failUnit (s : State) (b : Nat) (o : NvOwner) (u : NvUnit) : State :=
  let a := unitAddr u
  let used := tget s.nv.sparesUsed b 0
  if used < 32 then
    let words := ((List.range 512).filter fun i => (notBlank (arr s (a / 4096 * 4096 + 8 * i) 8)).isSome).length
    let s := modNv s fun x => { x with sparesUsed := tput x.sparesUsed b (used + 1),
                                       remaps := tput x.remaps (nvSector a) (some used) }
    raise (count (count s .nva 1 (words + 2)) .nva 4) .nva 10 (nvSector a)
  else
    let first := !s.nv.exhausted.contains b
    let on (x : NvOwner × NvUnit) : Bool := nvSector (unitAddr x.2) == nvSector a
    let us := ((bankUnits s b).filter on).map (·.2)
    let s := setBankUnits s b ((bankUnits s b).filter fun x => !on x)
    let s := modNv s fun x => { x with remaps := tput x.remaps (nvSector a) none, flags := x.flags.filter (· != nvSector a),
                                       exhausted := if first then b :: x.exhausted else x.exhausted }
    let s := raise (count s .nva 1 2) .nva 12 (nvSector a)
    let s := if first then raise s .nva 11 b else s
    lostSector s a o us

/-- NV_UNIT_DONE: the unit operation in progress in a bank has ended, well or with a failed sector (R444, R452). -/
def nvUnitEnd (s : State) (b : Nat) (ok : Bool) : State :=
  match bankUnits s b with
  | [] => s
  | (o, u) :: rest =>
    let s := if ok then jobStep (applyUnit (setBankUnits s b rest) u) o u else failUnit s b o u
    skim (feed s)

/-- Everything that runs to its end on the hold-up store or before a reset: the unit operation in progress in each bank, the records
and event-log entries that wait to be written (R411, R465). -/
def settleArray (s : State) : State :=
  let s := [0, 1].foldl (fun s b =>
    match bankUnits s b with
    | [] => s
    | x :: rest => ((x :: rest.filter fun y => y.1 == .internal).map (·.2)).foldl applyUnit (setBankUnits s b [])) s
  modNv s fun x => { x with qs := [], turn := .a }

/-- The part of a port in a port reset (R465). -/
def nvPortReset (s : State) (p : Port) : State := modNvq s (portNvq p) fun _ => {}

/-- Some host descriptor is at work or known of (R467, R404). -/
def nvBusy (s : State) : Bool :=
  [NvQueue.a, .b].any fun q => let x := nvq s q; x.job.isSome || x.head != x.tail

/-- An abort of the NVA page (R467). -/
def nvAbort (s : State) : State :=
  [Port.a, .b].foldl (fun s p =>
    let q := portNvq p
    let s := match (nvq s q).job with
      | none => s
      | some j =>
        match j.units with
        | u :: _ => if (bankUnits s (nvBank (unitAddr u))).head? = some (nvqOwner q, u) then
            modNvq s q fun x => { x with job := some { j with units := [u], code := 7 } }
          else descEnd s q j.desc 7 j.done
        | [] => descEnd s q j.desc 7 0
    modNvq s q fun x => { x with fetched := [], reads := [], tail := x.head, asked := x.head }) s

/-- An enable of the NVA page: each queue starts at 0 (R467). -/
def nvEnabled (s : State) : State := [NvQueue.a, .b].foldl (fun s q => modNvq s q fun _ => {}) s

/-- The enable check of the NVA page (R467). -/
def nvCheck (s : State) : Nat × Nat :=
  let bad (p : Port) : Option (Nat × Nat) :=
    let n := nvSize s p
    if n != 0 && nvBase s p % 32 != 0 then some (0x0801, 4 * pIdx p)
    else if (1 ≤ n && n ≤ 3) || 4096 < n then some (0x0802, 4 * pIdx p + 2)
    else none
  ((bad .a).orElse fun _ => bad .b).getD (0, 0)

/-- Erases that were cut short are done again at a start (R445). -/
def redoErases (s : State) : State :=
  let fs := s.nv.flags
  let s := fs.foldl (fun s k => count (applyUnit s (.erase (4096 * k))) .nva 3) s
  if fs.isEmpty then s else raise s .nva 13 fs.length

end Sys2Proof.Machine
end

