-- ==== Sys2Proof/Machine/Pages.lean ====
section
/-! DEFINITION. The common controls of a page (R37): the gating of its domains (R21, R407), its enable check (R48, R50), its drain
and abort (R54, R55), its counters (R58). -/

namespace Sys2Proof.Machine

/-- Change the power part. -/
def modPwr (s : State) (f : PwrSt → PwrSt) : State := { s with pwr := f s.pwr }

/-- Drive a pin. -/
def setPin (s : State) (name : String) (level : Bool) : State := emit s (.pin name level)

/-- What goes on of itself on every transport. -/
def progressAll (s : State) : State := (List.range 16).foldl progress s

/-- A page of the formatter by its number. -/
def allPages : List PageId :=
  [.dev, .sem, .pwr, .tim, .mgt, .fwu, .nva, .log, .pool, .mem, .key, .hp .a, .hp .b, .loopG]
    ++ all16.flatMap fun n => [.link n, .fmt n, .ciph n, .servo n, .cdc n]

/-! ### Gating -/

/-- Gate a domain. -/
def gate (s : State) (d : Nat) : State :=
  modPwr s fun p => { p with gated := if p.gated.contains d then p.gated else p.gated ++ [d], gateWait := p.gateWait.filter (· != d) }

/-- D04 is gated while every slice domain is (R21, R407). -/
def gateD04 (s : State) : State :=
  if (List.range 16).all fun n => domGated s (33 + 3 * n) then gate s 4 else s

/-- Number of the transport of a domain D(33+3n). -/
def sliceDomain (d : Nat) : Option Nat := if 33 ≤ d && d < 80 && d % 3 = 0 then some ((d - 33) / 3) else none

/-- Work in a domain that the idle timers gate (R407). -/
def domainBusy (s : State) (d : Nat) : Bool :=
  if 16 ≤ d && d < 32 then cdcBusy s (d - 16)
  else match sliceDomain d with
    | some n => sliceBusy s n
    | none => true

/-- Gate an idle cluster, whose lanes' chains are saved, or slice (R407, R230). -/
def gateIdle (s : State) (d : Nat) : State :=
  let s := if 16 ≤ d && d < 32 then (List.range 4).foldl (fun s l => saveLane s (d - 16) l) s else s
  let s := gate s d
  if (sliceDomain d).isSome then gateD04 s else s

/-- A request to gate a domain: work in flight makes it wait (R21). -/
def gateRequest (s : State) (d : Nat) : State :=
  if domGated s d then s
  else if domainBusy s d then modPwr s fun p => { p with gateWait := if p.gateWait.contains d then p.gateWait else p.gateWait ++ [d] }
  else gateIdle s d

/-- An idle timer of R407 expires. -/
def domainIdle (s : State) (d : Nat) : State :=
  let us := if 16 ≤ d && d < 32 then field s .pwr 0x04C 0 20 else if (sliceDomain d).isSome then field s .pwr 0x050 0 20 else 0
  if !enabledNow s .pwr || us = 0 then s else gateRequest s d

/-- The work in flight that a gating waited for has drained (R21). -/
def domainGateOp (s : State) (d : Nat) : State :=
  if s.pwr.gateWait.contains d && !domainBusy s d then gateIdle s d else s

/-- Domains that a disabled page leaves gated (R407). -/
def gatePage (s : State) (pg : PageId) : State :=
  match pg with
  | .loopG => gate s 3
  | .cdc m => gate s (16 + m.val)
  | .link n =>
    let s := gate s (32 + 3 * n.val)
    if (page s (.servo n)).enabled then s else gate s (34 + 3 * n.val)
  | .servo n => if (page s (.link n)).enabled then s else gate s (34 + 3 * n.val)
  | .fmt n => if (page s (.ciph n)).enabled then s else gateD04 (gate s (33 + 3 * n.val))
  | .ciph n => if (page s (.fmt n)).enabled then s else gateD04 (gate s (33 + 3 * n.val))
  | _ => s

/-- An enable ungates the domains of its page before its check (R407). -/
def ungatePage (s : State) (pg : PageId) : State :=
  match pg with
  | .link n => ungate (ungate s (32 + 3 * n.val)) (34 + 3 * n.val)
  | _ => match pageDomain pg with
    | some d => ungate s d
    | none => s

/-! ### The enable check -/

/-- The pages that a page depends on (R50). -/
def dependsOn : PageId → List PageId
  | .pool => [.mem]
  | .hp _ => [.pool]
  | .cdc _ => [.pool]
  | .servo n => [.link n, .loopG]
  | .ciph _ => [.key, .pool]
  | .fmt n => [.pool, .link n, .servo n]
  | _ => []

/-- Some enabled page depends on `pg`; the HP page has its queues (R50, R95). -/
def dependentEnabled (s : State) (pg : PageId) : Bool :=
  allPages.any (fun d => enabled s d && (dependsOn d).contains pg) || match pg with
    | .hp p => anyQueue s p
    | _ => false

/-- The first failing condition of a list of conditions, each with its reason and field. -/
def firstBad : List (Bool × Nat × Nat) → Nat × Nat
  | [] => (0, 0)
  | (b, c) :: r => if b then c else firstBad r

/-- Slots of pool `p` that contain a listed address. -/
def listedIn (s : State) (p : Nat) : Nat :=
  ((s.mem.retireList.filterMap (slotOf s)).filter fun x => x.1 == p).eraseDups.length

/-- General slots of a pool under the layout being checked (R180, R181). -/
def generalUnder (s : State) (p : Nat) : Nat := nSlots s p - firstSlot s p - 16 * floorPer p - listedIn s p

/-- Usable buffer less retired capacity in bytes (R181). -/
def usableLeft (s : State) : Nat := usableBytes s.code - retiredCapacity s

/-- Sum of the shares of all transports in bytes. -/
def shareSum (s : State) : Nat := ((List.range 16).map fun n => 2 ^ 20 * field s .pool (0x0A0 + 4 * n) 0 17).foldl (· + ·) 0

/-- The POOL check (R181). -/
def poolCheck (s : State) : Nat × Nat :=
  let ps := List.range 5
  let quota (base p : Nat) : Nat := field s .pool (base + 4 * p) 0 28
  firstBad (ps.flatMap (fun p => [(poolBytes s p == 0, 0x0103, p), (poolBytes s p % slotSize p != 0, 0x0102, p)])
    ++ [(decide (usableLeft s < (ps.map (poolBytes s)).foldl (· + ·) 0), 0x0101, 0xFF)]
    ++ ps.map (fun p => (generalUnder s p == 0, 0x0103, p))
    ++ [(ps.any fun p => generalUnder s p < quota 0x060 p + quota 0x080 p, 0x0108, 0xFF),
        (decide (usableLeft s < shareSum s), 0x0105, 0xFF)])

/-- A value outside a range. -/
def outside (lo hi v : Nat) : Bool := v < lo || hi < v

/-- The LINK check (R369). -/
def linkCheck (s : State) (n : Fin 16) : Nat × Nat :=
  let f (off lo w : Nat) : Nat := field s (.link n) off lo w
  firstBad [(f 0x040 0 2 == 0 || f 0x040 2 2 == 0, 0x0401, 0), (outside 1 16 (f 0x044 0 5), 0x0403, 1),
    (outside 100 10000 (f 0x048 0 16), 0x0404, 2), (outside 10 10000 (f 0x04C 0 16), 0x0404, 3),
    (outside 1 1000 (f 0x050 0 16), 0x0404, 4), ((List.range 4).any fun i => f 0x054 (8 * i) 8 == 0, 0x0404, 5),
    ((runImage s).kxh2Image.isEmpty, 0x0402, 0xFF)]

/-- The FMT check (R304, R332, R197). -/
def fmtCheck (s : State) (n : Fin 16) : Nat × Nat :=
  let f (off lo w : Nat) : Nat := field s (.fmt n) off lo w
  let low := f 0x084 0 16
  let high := f 0x084 16 16
  firstBad [(15 < f 0x080 0 5 || 15 < f 0x080 8 5 || f 0x080 8 5 < f 0x080 0 5, 0x0303, 0x10),
    (low == 0 || high ≤ low || usableShare s n < 2 ^ 20 * high, 0x0304, 0x11), (outside 3 8 (f 0x088 0 4), 0x0305, 0x12),
    (s.mem.frameRetired.contains n.val, 0x0306, 0xFF), (decide (usableShare s n < 512 * 2 ^ 20), 0x0104, 0xFF),
    (decide (usableLeft s < shareSum s), 0x0105, 0xFF)]

/-- The SERVO check (R396). -/
def servoCheck (s : State) (n : Fin 16) : Nat × Nat :=
  let m (off lo : Nat) : Int := s16 (field s (.servo n) off lo 16)
  let own := firstBad [(7 < field s (.servo n) 0x048 0 4, 0x0502, 2),
    (m 0x040 0 * m 0x044 16 == m 0x040 16 * m 0x044 0, 0x0505, 0xFF)]
  let js := (List.range 4).map fun j => loopCheck (loop s (4 * n.val + j)) j
  ((own :: js).find? fun r => r.1 != 0).getD (0, 0)

/-- The PWR check (R414). -/
def pwrCheck (s : State) : Nat × Nat :=
  let bad (off w lo hi : Nat) : Bool := let v := field s .pwr off 0 w; v != 0 && outside lo hi v
  firstBad [(bad 0x048 22 10 3600000, 0x0901, 2), (bad 0x04C 20 100 1000000, 0x0901, 3), (bad 0x050 20 100 1000000, 0x0901, 4)]

/-- A PPS_IN edge arrived in the last 2 s (R441). -/
def ppsSeen (s : State) : Bool :=
  match s.tim.lastEdge with
  | some t => clock s ≤ t + 2000000000
  | none => false

/-- A page's own conditions (R48). -/
def ownCheck (s : State) (pg : PageId) : Nat × Nat :=
  match pg with
  | .mem => firstBad [((reg s .mem 0x044).getLsbD 0 == false, 0x0106, 0xFF), (reg s .mem 0x048 != 0, 0x0107, 0xFF)]
  | .pool => poolCheck s
  | .hp p => firstBad [(outside 100 60000 (field s (.hp p) 0x054 0 16), 0x0707, 0x85)]
  | .cdc m => cdcCheck s m.val
  | .link n => linkCheck s n
  | .fmt n => fmtCheck s n
  | .servo n => servoCheck s n
  | .pwr => pwrCheck s
  | .tim => firstBad [(field s .tim 0x040 0 1 == 1 && !ppsSeen s, 0x0903, 0)]
  | .nva => nvCheck s
  | _ => (0, 0)

/-- The enable check of a page (R48). -/
def enableCheck (s : State) (pg : PageId) : Nat × Nat :=
  if !s.ready then (0x0001, 0xFF)
  else if !((dependsOn pg).all (enabledNow s)) then (0x0003, 0xFF)
  else ownCheck s pg

/-- The metadata of a slot that every holder has left: OWNER and GENERATION stay (R182, R186). -/
def freedMeta (x : SlotMeta) : SlotMeta := { owner := x.owner, gen := x.gen }

/-- The pool with every slot FREE and nobody waiting (R182); what metadata copies lost, and what retirement took, stays. -/
def freedPool (s : State) : PoolSt :=
  { slots := s.pool.slots.map fun x => (x.1, freedMeta x.2), retiredCharge := s.pool.retiredCharge, copyLost := s.pool.copyLost,
    dead := s.pool.dead }

/-- A slot that contains a listed address is retired at an enable; a segment reservation that it was set aside for takes another slot (R175,
R180). -/
def retireAtEnable (s : State) (a : Nat) : State :=
  match slotOf s a with
  | none => s
  | some (p, i) =>
    if i < firstSlot s p then s
    else
      let t := if setAside s p i a then leaveReservation s p a (floorOf s p i) else s
      let t := setMeta t a { slotMeta s a with st := .retired }
      match tget t.pool.short p [], findFree t p with
      | n :: rest, some b => (slotOf t b).elim t fun y => endShort (giveFloor t p y.2 n b) p n rest
      | _, _ => t

/-- The pool as an enable finds it: every slot of its layout FREE but those that contain a listed address (R175, R182). -/
def poolEnabled (s : State) : State :=
  let as := (s.mem.retireList.filterMap (slotStart s)).eraseDups
  let p := freedPool s
  as.foldl retireAtEnable { s with pool := { p with slots := p.slots.filter fun x => slotStart s x.1 == some x.1 } }

/-- The loops of a transport take their pending sets and the state of its mode (R396). -/
def servoEnabled (s : State) (n : Nat) : State :=
  let s := (List.range 4).foldl (fun s j => modLoop s (4 * n + j) fun l => { l with act := l.regs.filter fun r => r.1 < 0x24 }) s
  setLoops s n

/-- What a passed check starts. -/
def onEnabled (s : State) (pg : PageId) : State :=
  match pg with
  | .mem => if s.mem.scrubRows.isEmpty then lapBegins s else s
  | .pool => poolEnabled s
  | .cdc m => cdcEnabled s m.val
  | .nva => nvEnabled s
  | .tim => discSet s
  | .servo n => servoEnabled s n.val
  | .link n => linkStart s n.val
  | .fmt n => progress s n.val
  | _ => s

/-- A write of 1 to ENABLE (R48). -/
def enablePage (s : State) (pg : PageId) : State :=
  let x := page s pg
  if !enableImpl pg then s
  else if x.draining then setCheck s pg 0x0002 0xFF
  else if x.enabled then s
  else
    let s := ungatePage s pg
    let r := enableCheck s pg
    let s := setCheck s pg r.1 r.2
    if r.1 = 0 then onEnabled (modPage s pg fun x => { x with enabled := true }) pg else gatePage s pg

/-! ### Drain and abort -/

/-- A page has work in flight (R54): each chapter's unit of work. -/
def pageBusy (s : State) (pg : PageId) : Bool :=
  match pg with
  | .cdc m => cdcBusy s m.val
  | .ciph n => (liveCmds s fun _ c => c.vol.map (· / 4) == some n.val && c.encBound && [1, 2, 3].contains (cOpc c.bytes)) != []
      || (List.range 128).any fun k => cipherWork s n.val k != 0
  | .fmt n => if (page s pg).aborting then (link s n.val).txQueue.any fun t => t.1 == tyChan
    else (cmdsOf s n.val) != [] || (volsOf n.val).any fun v =>
      writeStream s v || ((vol s v).mounted && volWritable s v && (vol s v).mapped < (vol s v).hzn) || (vol s v).mapMaking || (vol s v).mapWanted.isSome
  | .link n => (link s n.val).phase != .disabled
  | .servo n => (servo s n.val).haltSent
  | .nva => nvBusy s
  | .log => (liveCmds s fun _ c => cOpc c.bytes == 0x20 && c.bytes.getD 36 0 == 1) != []
  | .hp p => (liveCmds s fun _ c => c.port == p && !c.mute) != []
  | _ => false

/-- The loops of a transport are withdrawn: one that is not at rest is stopped as for a fault (R18, R397). -/
def servoStop (s : State) (n : Nat) (brake : Bool) : State :=
  let live := (List.range 4).any fun j => (loop s (4 * n + j)).phase == .run || (loop s (4 * n + j)).phase == .hold
  let s := if live then transportFault (modServo s n fun v => { v with haltSent := true }) n 7 brake else s
  (List.range 4).foldl (fun s j => modLoop s (4 * n + j) fun l => { l with phase := .off }) s

/-- The link of a page that is disabled: one that is up is stopped, any other start ends (R371). -/
def linkOff (s : State) (n : Nat) : State :=
  if (link s n).phase = .up then linkStop s n else linkFailed s n 6 false

/-- What a drain starts. -/
def onDrain (s : State) (pg : PageId) : State :=
  match pg with
  | .link n => linkOff s n.val
  | .servo n => servoStop s n.val false
  | .fmt n => progress s n.val
  | .cdc _ => strandJobs s
  | _ => s

/-- What an abort ends (R55). -/
def onAbort (s : State) (pg : PageId) : State :=
  match pg with
  | .cdc m => strandJobs (cdcAbort s m.val)
  | .fmt n =>
    let s := (cmdsOf s n.val).foldl (fun s cid => complete s cid (6, 2) (endResult s cid 6)) s
    progress ((volsOf n.val).foldl (fun s v => modVol (discardAll s v) v fun x => { x with mapWanted := none, mapMaking := false }) s) n.val
  | .link n => if (link s n.val).phase = .up then linkDown s n.val 6 else linkFailed s n.val 6 false
  | .servo n => servoStop s n.val true
  | .nva => nvAbort s
  | _ => s

/-- Every wait on a pool ends with POOL_DISABLED (R182). -/
def endWaits (s : State) : State :=
  [Master.portA, .portB, .mgmt].foldl (fun s m =>
    if (mst s m).waitPending then modMst s m fun x => { x with waitPending := false, waitGranted := false, poolRes := 0xB } else s) s

/-- What a page leaves when its drain has ended. -/
def onDrained (s : State) (pg : PageId) : State :=
  match pg with
  | .pool => endWaits { s with pool := freedPool s }
  | .cdc m => cdcDrained s m.val
  | .tim => discSet s
  | _ => s

/-- The drain of a page ends (R54). -/
def endDrain (s : State) (pg : PageId) : State :=
  let s := modPage s pg fun x => { x with enabled := false, draining := false, aborting := false, fault := false }
  gatePage (onDrained (setEvt s pg 1) pg) pg

/-- It ends once no work is in flight. -/
def drainCheck (s : State) (pg : PageId) : State :=
  if (page s pg).draining && !pageBusy s pg then endDrain s pg else s

/-- A write of 0 to ENABLE (R54, R50). -/
def disablePage (s : State) (pg : PageId) : State :=
  if !enableImpl pg || !enabledNow s pg then s
  else if dependentEnabled s pg then setCheck s pg 0x0004 0xFF
  else drainCheck (onDrain (modPage s pg fun x => { x with draining := true }) pg) pg

/-- A write of 1 to ABORT (R55, R50). -/
def abortPage (s : State) (pg : PageId) : State :=
  if !enabled s pg then s
  else if dependentEnabled s pg then setCheck s pg 0x0004 0xFF
  else drainCheck (onAbort (modPage s pg fun x => { x with draining := true, aborting := true }) pg) pg

/-- A write of 1 to CLR_COUNTERS (R58). -/
def clearCounters (s : State) (pg : PageId) : State :=
  let s := modPage s pg fun x => { x with ctrs := [], sat := 0 }
  match pg with
  | .loopG => setReg s .loopG 0x044 0
  | .mem => { s with mem := { s.mem with ageFrom := clock s } }
  | _ => s

/-- A write of 1 to ABORT, with ENABLE as `en`: on a page that is not enabled it has no effect and ENABLE alone counts; on an enabled
one ENABLE 1 has none, and on a draining one ENABLE 1 is refused beside it (R48, R55). -/
def abortWrite (s : State) (pg : PageId) (en : Bool) : State :=
  let x := page s pg
  if en && (x.draining || !x.enabled) then (if x.draining then abortPage (enablePage s pg) pg else enablePage s pg)
  else abortPage s pg

/-- A write of CTRL (R37). -/
def ctrlWrite (s : State) (pg : PageId) (v : Word) : State :=
  let s := if v.getLsbD 2 then clearCounters s pg else s
  if v.getLsbD 1 && abortImpl pg then abortWrite s pg (v.getLsbD 0)
  else if v.getLsbD 0 then enablePage s pg
  else disablePage s pg

end Sys2Proof.Machine
end

