-- ==== Sys2Proof/Machine/Power.lean ====
section
/-! DEFINITION. Port resets (R155), device resets and the start sequence (R398 to R401), the power states (R402 to R409), power
loss and the hold-up store (R410 to R412), sensors and alarms (R418 to R420). -/

namespace Sys2Proof.Machine

/-! ### Port reset -/

/-- A started command that a port reset ends at once: READ, READ_POSITION, CODEC_JOB, GET_LOG, and a WRITE, whose earlier segments
go on (R154). -/
def endsAtReset (c : Cmd) : Bool := [1, 2, 7, 0x10, 0x20].contains (cOpc c.bytes)

/-- A command of a reset port: it posts nothing more. -/
def muteCmd (s : State) (cid : Nat) : State :=
  let s := modCmd s cid fun c => { c with mute := true }
  if endsAtReset (cmd s cid) then complete s cid (0, 0) 0 else s

/-- What a port reset clears (R153 to R155, R190, R465, R74), which thaws the port (R81). -/
def portCleared (s : State) (p : Port) : State :=
  let m := portMaster p
  let s := (liveCmds s fun _ c => c.port == p).foldl muteCmd s
  let s := forceReleaseAll s m 2
  let s := releaseAll s m
  let s := modPool s fun t => { t with held := t.held.filter fun h => h.m != m }
  let s := nvPortReset s p
  let x := mst s m
  let s := setMst s m { cause := x.cause, sem := x.sem, addr := x.addr, hiShadow := x.hiShadow,
                        pendLo := x.pendLo, semRes := x.semRes, semNo := x.semNo, keyRes := x.keyRes, keySlot := x.keySlot }
  let s := setPage s (.hp p) (pageInit (.hp p))
  let s := modPort s p fun t => { t with armed := true, sqs := [], cqs := [], msixTable := [], msixPba := [], msixMasked := false,
                                         maxPayload := 128, maxReadReq := 512,
                                         mailBusy := false, mailAnswer := none, mailResult := 0, mailRespLen := 0 }
  modPage s .mgt fun x => { x with regs := x.regs.filter fun r =>
    !(0x140 + 0x80 * pIdx p ≤ r.1 && r.1 < 0x180 + 0x80 * pIdx p) }

/-- A port reset, and what goes on of itself after it (R153). -/
def portResetOp (s : State) (p : Port) : State := progressAll (portCleared s p)

/-- The link of a port is gone. -/
def portLinkDown (s : State) (p : Port) : State := modPort s p fun t => { t with linkUp := false, rate := 0, width := 0, d3hot := false }

/-! ### Device reset and start -/

/-- Code of a reset cause (R413). -/
def causeCode : ResetCause → Nat
  | .powerOn => 0
  | .pwrEn => 1
  | .powerFail => 2
  | .tcxoLoss => 3
  | .watchdog => 4
  | .fspRequest => 5
  | .trialFallback => 6
  | .tcmUncorrectable => 7
  | .lanternExit => 8

/-- Held event-log entries are lost with the TCM, and SEQ resumes after the last entry written (R398, R425). -/
def logReset (l : LogSt) : LogSt :=
  let es := l.entries.drop l.held
  { l with entries := es, held := 0, heldDropped := 0, nextSeq := l.nextSeq - l.held, oldest := l.nextSeq - l.held - es.length,
           folds := [] }

/-- The volatile state is reset; D00, the pins, the NV array and what GDDR6 keeps stay (R401, R190, R154). -/
def deviceReset (s : State) (cause : ResetCause) : State :=
  let s := settleArray s
  let r := State.reset
  let f := s.fwu
  { r with
    code := s.code
    tick := s.tick
    free := s.free
    pages := [(pageIdx .pwr, { pageInit .pwr with regs := [(0x054, reg s .pwr 0x054)] }),
              (pageIdx .key, { pageInit .key with regs := [(0x054, reg s .key 0x054)] })]
    ports := s.ports.map fun p => (p.1, { perstHigh := p.2.perstHigh, refclk := p.2.refclk })
    mem := { remaps := s.mem.remaps, retireList := s.mem.retireList, sramRemaps := s.mem.sramRemaps,
             frameRetired := s.mem.frameRetired, ingestRetired := s.mem.ingestRetired }
    pool := { copyLost := s.pool.copyLost }
    keys := s.keys.map fun k => (k.1, { k.2 with reserved := 0 })
    alarms := s.alarms
    pwr := { phase := s.pwr.phase, cause := cause, pgOut := s.pwr.pgOut, pgPending := s.pwr.pgPending, pwrEnHigh := s.pwr.pwrEnHigh,
             dipped := s.pwr.dipped, tcxo := s.pwr.tcxo, charge := s.pwr.charge, degraded := s.pwr.degraded, wakeN := s.pwr.wakeN,
             watchdogs := s.pwr.watchdogs, pairedFallback := s.pwr.pairedFallback, supplied := s.pwr.supplied }
    log := logReset s.log
    fsp := { phyUp := s.fsp.phyUp }
    tim := { count := s.tim.count, taiValid := s.tim.taiValid, freqAdj := s.tim.freqAdj, lastEdge := s.tim.lastEdge }
    nv := s.nv
    fwu := { block := f.block, blocks := f.blocks, slots := f.slots, overwritten := f.overwritten, select := f.select }
    out := s.out
    pending := s.pending }

/-- Write a select word naming block `b` at once; nothing where no select sector can take it. -/
def writeSelect (s : State) (b : Nat) : State := ((selectUnits s b).getD []).foldl applyUnit s

/-- A fall-back to the other boot block (R451, R478). -/
def fallBack (s : State) : State :=
  let s := writeSelect s (1 - s.fwu.block)
  raise (count (modFwu (modPwr s fun p => { p with cause := .trialFallback }) fun f => { f with lastResult := 8 }) .fwu 1) .fwu 11

/-- Kindling (R451). -/
def kindle (s : State) : State :=
  let other (s : State) : BootBlk := bootBlk s (1 - s.fwu.block)
  let here (s : State) : BootBlk := bootBlk s s.fwu.block
  if !(here s).valid && !(other s).valid then modPwr s fun p => { p with phase := .dead }
  else
    let s := if (here s).valid then s else writeSelect s (1 - s.fwu.block)
    let s := if (here s).confirm.isSome then s
      else if (s.pwr.cause == .watchdog || 2 ≤ (here s).starts) && (other s).valid then fallBack s
      else
        let n := (here s).starts + 1
        applyUnit s (.program (bootBase s.fwu.block + 57 * 4096 + 8 * n) (crcWord n 0x57A7))
    modFwu s fun f => { f with phase := if inTrial s then .trial else .idle }

/-- The UART console reports `n` start steps (R399, R434); the spec gives no text. -/
def printSteps (s : State) (n : Nat) : State :=
  (List.range n).foldl (fun s _ => nextFree (emit s (.uart [Config.freeByte s.free]))) s

/-- The power-on sequence starts: D05 and D06 are powered, Kindling runs (R398, R401). -/
def startSeq (s : State) : State :=
  let s := setPin (setPin (modPwr s fun p => { p with phase := .starting, clkreq := [.a, .b] }) "CLKREQ_N_A" false) "CLKREQ_N_B" false
  printSteps (kindle s) 2

/-- The PHYs are switched off. -/
def phyOff (s : State) : State := setPin (setPin (modPwr s fun p => { p with clkreq := [] }) "CLKREQ_N_A" true) "CLKREQ_N_B" true

/-- A device reset after which the sequence runs again (R401). -/
def resetAndStart (s : State) (cause : ResetCause) : State := startSeq (deviceReset s cause)

/-- Offsets of the loop fields with reset "default" and their masks (R394). -/
def loopDefaults : List (Nat × Word) :=
  [(0x00, 0xFFFFFFFF), (0x04, 0xFFFFFFFF), (0x08, 0xFFFFFFFF), (0x0C, 0xFFFFFFFF), (0x10, 0xFFF), (0x14, 0xFFFFFFFF),
   (0x18, 0xFFFFFFFF), (0x20, 0xFFFFFFFF), (0x88, 0xFFFF)]

/-- The loop defaults of the running image (R394, R395, R471). -/
def loadDefaults (s : State) : State :=
  let s := { s with loops := (List.range 64).map fun i =>
    (i, { loop s i with regs := loopDefaults.map fun d => (d.1, Config.loopDefault (i % 4) d.1 &&& d.2) }) }
  all16.foldl (fun s n => setReg (setReg (setReg s (.servo n) 0x040 (Config.mixDefault 0x040)) (.servo n) 0x044
    (Config.mixDefault 0x044)) (.servo n) 0x048 (Config.mixDefault 0x048 &&& 0xF)) s

/-- Registers that a CONFIG record saves besides the owners and the loop fields (R423): every RWL field, TEMP_WARN, CURRENT_WARN
and ALARM_MASK. -/
def savedRegs (s : State) : List (PageId × Nat × Word) :=
  (allPages.flatMap fun pg => (pageRows pg).flatMap fun r => if r.rwl = 0 then [] else
    (List.range r.cnt).flatMap fun i =>
      let o := r.off + i * r.stride
      (pg, o, reg s pg o &&& r.rwl) :: (if r.wide then [(pg, o + 4, reg s pg (o + 4) &&& r.rwl)] else []))
    ++ [0x040, 0x044, 0x048].map fun o => (PageId.mgt, o, reg s .mgt o)

/-- The CONFIG record of the present settings (R423, R455). -/
def configRecord (s : State) (empty : Bool) : SetRec :=
  { security := false, format := (runImage s).format, defaults := empty, seq := 0, area := 0, sector := 0,
    owners := if empty then [] else (List.range 16).map (owner s), regs := if empty then [] else savedRegs s,
    loops := if empty then [] else (List.range 64).flatMap fun i => loopDefaults.map fun d => (i, d.1, tget (loop s i).regs d.1 0) }

/-- The SECURITY record of the present security fields (R455). -/
def securityRecord (s : State) : SetRec :=
  { security := true, format := 1, seq := 0, area := 0, sector := 0, ownerKey := s.fsp.ownerKey, ownerLock := s.fsp.ownerLock,
    fleet := s.fsp.fleet, staticAddr := s.fsp.staticAddr }

/-- Load a CONFIG record (R457, R53, R63). -/
def applyConfig (s : State) (r : SetRec) : State :=
  if r.defaults then s
  else
    let s := { s with owners := (List.range r.owners.length).map fun n => (n, r.owners.getD n 0) }
    let s := r.regs.foldl (fun s x => setReg s x.1 x.2.1 x.2.2) s
    r.loops.foldl (fun s x => modLoop s x.1 fun l => { l with regs := tput l.regs x.2.1 x.2.2 }) s

/-- Load the SECURITY record. -/
def applySecurity (s : State) (r : SetRec) : State :=
  { s with fsp := { s.fsp with ownerKey := r.ownerKey, ownerLock := r.ownerLock, fleet := r.fleet, staticAddr := r.staticAddr } }

/-- Erase every CONFIG record of another FORMAT (R457, R479). -/
def dropOtherFormats (s : State) : State :=
  (s.nv.records.filter fun r => !r.security && r.format != (runImage s).format).foldl
    (fun s r => nvInternal s r.area [.erase (areaBase r.area + 4096 * r.sector)]) s

/-- An image in trial that finds no CONFIG record of its FORMAT converts the newest one of another (R457). -/
def convertRecord (s : State) : State :=
  let own := s.nv.records.filter fun r => !r.security && r.format == (runImage s).format
  match newest (s.nv.records.filter (!·.security)) with
  | some r => if inTrial s && own.isEmpty && 90 ≤ s.pwr.charge then writeSetRec s { r with format := (runImage s).format } else s
  | none => s

/-- The settings records are loaded at a start (R457). -/
def loadSettings (s : State) : State :=
  let own := newest (s.nv.records.filter fun r => !r.security && r.format == (runImage s).format)
  let other := if inTrial s then newest (s.nv.records.filter (!·.security)) else none
  let s := match own.orElse fun _ => other with
    | some r => applyConfig s r
    | none => s
  let s := match newest (s.nv.records.filter (·.security)) with
    | some r => applySecurity s r
    | none => s
  let s := convertRecord s
  if inTrial s then s else dropOtherFormats s

/-- `MGT.IMAGE` (R421). -/
def mgtImage (s : State) : Word := w32 ((runImage s).version + 2 ^ 16 * runSlot s + 2 ^ 17 * bit (inTrial s))

/-- Domains that are gated while their pages are disabled (R407). -/
def disabledDomains : List Nat := [3, 4] ++ (List.range 64).map (· + 16)

/-- Steps 3 to 7 of the sequence (R398, R53, R169): erases are redone, channels in `failed` fail their training, settings are loaded,
the pages of R53 are enabled. -/
def startPages (s : State) (failed : Word) : State :=
  let s := redoErases s
  let s := setReg (setReg s .mem 0x044 3) .mem 0x048 failed
  let s := loadSettings (loadDefaults s)
  [PageId.mem, .tim, .log, .key].foldl enablePage { s with ready := true }

/-- The device runs: WAKE_N is released, the domains of disabled pages are gated (R398, R407, R409). -/
def startRuns (s : State) : State :=
  let s := if s.pwr.wakeN then setPin (setPin s "WAKE_N_A" true) "WAKE_N_B" true else s
  modPwr s fun p =>
    { p with phase := .running, gated := disabledDomains, wakeN := false, watchdogs := 0, pairedFallback := false }

/-- Steps 3 to 8 of the sequence; READY becomes 1 and the start is logged (R398, R427, R434). -/
def finishStart (s : State) (failed : Word) : State :=
  let s := feed (printSteps (startRuns (startPages s failed)) 6)
  logMgmt (nextFree s) 0x0580 0 0x3F (causeCode s.pwr.cause) (mgtImage s).toNat (runImage s).kxh2 (freeVal s)


/-- PG_OUT rises (R398, R496). -/
def powerGoodOp (s : State) : State :=
  if s.pwr.pgOut || !s.pwr.pwrEnHigh || s.pwr.phase = .powerFail then s
  else
    let fresh := !s.pwr.supplied
    let s := setPin (modPwr s fun p => { p with pgOut := true, supplied := true, dipped := false }) "PG_OUT" true
    let s := if fresh then (s.alarms.filter (srcEnabled s)).foldl (fun s a => zeroise s (srcBit a)) s else s
    if s.pwr.pgPending && s.pwr.tcxo then startSeq (modPwr s fun p => { p with pgPending := false }) else s

/-- The running image fails its check at step 5 (R400). -/
def imageFailure (s : State) : State :=
  if (bootBlk s (1 - s.fwu.block)).valid && !s.pwr.pairedFallback then
    startSeq (fallBack (deviceReset (modPwr s fun p => { p with watchdogs := 0, pairedFallback := true }) .trialFallback))
  else
    let s := match newest (s.nv.records.filter (·.security)) with
      | some r => applySecurity s r
      | none => s
    modPwr s fun p => { p with phase := .recovery, watchdogs := 0 }

/-- Steps 5 to 8 of the sequence: the image that is to run is checked first (R398, R451). -/
def bootImage (s : State) (failed : Word) : State := if imageOk s then finishStart s failed else imageFailure s

/-- READY (R398). -/
def readyOp (s : State) (failed : Word) : State := if s.pwr.phase = .starting then bootImage s failed else s

/-- The watchdog expires (R416, R400). -/
def watchdogOp (s : State) : State :=
  match s.pwr.phase with
  | .starting =>
    if s.pwr.watchdogs = 2 then imageFailure s
    else resetAndStart (modPwr s fun p => { p with watchdogs := p.watchdogs + 1 }) .watchdog
  | .running => resetAndStart s .watchdog
  | .recovery => resetAndStart s .watchdog
  | .lanternExit => resetAndStart s .watchdog
  | _ => s

/-- Every domain but D00 is switched off, and a power-on sequence is pending (R401, R411): the buffer memory loses what it held
(R174, R175). -/
def powerOff (s : State) (cause : ResetCause) (ph : RunPhase) : State :=
  let s := setPin (phyOff { deviceReset s cause with mem := {}, pool := {} }) "PG_OUT" false
  modPwr s fun p => { p with phase := ph, pgOut := false, pgPending := true, dipped := false, wakeN := false, watchdogs := 0 }

/-- PWR_EN goes low (R401, R497, R498). -/
def pwrEnLowOp (s : State) : State :=
  let s := modPwr s fun p => { p with pwrEnHigh := false }
  if s.pwr.phase = .powerFail || s.pwr.phase = .off then s else powerOff s .pwrEn .off

/-- PWR_EN goes high: PG_OUT may rise (R496). -/
def pwrEnHighOp (s : State) : State := modPwr s fun p => { p with pwrEnHigh := true }

/-- VIN dips below 11.4 V (R496). -/
def vinDipOp (s : State) : State :=
  if s.pwr.pgOut then setPin (modPwr s fun p => { p with pgOut := false, dipped := true }) "PG_OUT" false else s

/-- VIN is back (R496). -/
def vinRecoverOp (s : State) : State :=
  if s.pwr.dipped && s.pwr.pwrEnHigh then setPin (modPwr s fun p => { p with pgOut := true, dipped := false }) "PG_OUT" true else s

/-- Write the entries held in TCM, in SEQ order, and one that counts those dropped (R410). -/
def writeHeld (s : State) : State :=
  let n := s.log.held
  let hs := (s.log.entries.take n).reverse
  let d := s.log.heldDropped
  let l := logReset s.log
  let s := { s with log := { l with folds := s.log.folds } }
  let s := hs.foldl (fun s e => announce (logPush s e) { e with seq := s.log.nextSeq }) s
  if d = 0 then s
  else
    let e := mgmtEntry s 0x0589 1 0x3F d 0 0 0
    announce (logPush s e) { e with seq := s.log.nextSeq }

/-- A power fail (R411): the entries are written, every domain but D00 is switched off. -/
def powerFailOp (s : State) : State :=
  if s.pwr.phase = .powerFail then s
  else
    let s := writeHeld s
    let s := logPush s (mgmtEntry s 0x0581 2 0x3F (sensor s 48).value.toNat (sensor s 49).value.toNat 0 0)
    powerOff s .powerFail .powerFail

/-- A power-on has every slot EMPTY (R244). -/
def emptyKeys (s : State) : State := { s with keys := [] }

/-- The input returns before D00 has lost power (R412). -/
def powerReturnOp (s : State) : State :=
  if s.pwr.phase = .powerFail then modPwr (emptyKeys s) fun p => { p with phase := .off } else s

/-- The store is exhausted: D00 loses power (R411, R244, R435). -/
def holdupEmpty (s : State) : State :=
  if s.pwr.phase != .powerFail then s
  else
    let s := emptyKeys { s with tim := {}, pages := [] }
    let s := { s with mem := {} }
    modPwr s fun p => { p with phase := .off, cause := .powerOn, supplied := false, charge := 0, degraded := false }

/-- The TCXO stops (R23): a device reset, wherever D00 has power. -/
def tcxoLossOp (s : State) : State :=
  let ph := s.pwr.phase
  let s := modPwr s fun p => { p with tcxo := false }
  if !s.pwr.supplied || ph = .inReset then s
  else
    let s := deviceReset s .tcxoLoss
    if ph = .off || ph = .powerFail then s else modPwr (phyOff s) fun p => { p with phase := .inReset }

/-- The TCXO runs again (R23). -/
def tcxoResumeOp (s : State) : State :=
  let ph := s.pwr.phase
  let s := modPwr s fun p => { p with tcxo := true }
  if ph = .inReset then startSeq s
  else if ph = .off && s.pwr.pgOut && s.pwr.pgPending then startSeq (modPwr s fun p => { p with pgPending := false })
  else s

/-! ### Hold-up store -/

/-- The store reaches 90 % (R410, R415). -/
def chargedOp (s : State) (q : Nat) : State :=
  let s := modPwr s fun p => { p with charge := q }
  feed (writeHeld (setEvt s .pwr 9))

/-- HOLDUP_CHARGED. -/
def holdupCharged (s : State) : State :=
  if s.pwr.charge < 90 && s.pwr.phase != .off && s.pwr.phase != .powerFail then chargedOp s 90 else s

/-- The store has not reached 90 % within 2 s (R410). -/
def holdupLate (s : State) : State :=
  if s.pwr.charge < 90 && !s.pwr.degraded then raise (modPwr s fun p => { p with degraded := true }) .pwr 10 else s

/-! ### Power states -/

/-- The formatter is quiescent (R404). -/
def quiescent (s : State) : Bool :=
  [Port.a, .b].all (fun p => (port s p).sqs.all fun q => q.2.inbox.isEmpty && q.2.ranges.isEmpty)
    && (liveCmds s fun _ _ => true).isEmpty
    && (List.range 64).all (fun v => !writeStream s v)
    && [Master.portA, .portB, .mgmt].all (fun m => !(mst s m).waitPending)
    && (List.range 16).all (fun n => !moving (link s n).mode && (link s n).mode != .calibrating)
    && !nvBusy s && (nvq s .mgmt).job.isNone && (nvq s .mgmt).fetched.isEmpty
    && s.fwu.phase != .verifying && s.fwu.phase != .activating

/-- Whether a transport is in a moving mode. -/
def anyMoving (s : State) : Bool := (List.range 16).any fun n => moving (link s n).mode

/-- A write of `PWR.STATE_REQ` (R405). -/
def stateReqOp (s : State) (v : Word) : State :=
  let r := v.toNat % 4
  if r = 3 then s
  else
    let c := if !s.ready then 0x0001 else if r != 0 && anyMoving s then 0x0902 else 0
    let s := setCheck s .pwr c 0
    if c != 0 then s
    else
      let s := if r = 0 then wake s 7 else s
      modPwr s fun p => { p with request := BitVec.ofNat 2 r, reqDone := p.reqDone && r == 1 && p.request == 1 }

/-- The BIVOUAC timer expires (R406). -/
def bivouacIdle (s : State) : State :=
  if enabledNow s .pwr && s.pwr.request = 0 && field s .pwr 0x048 0 22 != 0 && !s.pwr.bivouac && quiescent s then
    modPwr s fun p => { p with entering := true }
  else s

/-- Domains that BIVOUAC gates besides D04: each cluster and each slice (R402). -/
def bivouacDomains : List Nat := (List.range 16).flatMap fun n => [16 + n, 33 + 3 * n]

/-- The domains that BIVOUAC turns off are gated, and the entry is counted (R402, R406). -/
def bivouacGated (s : State) : State :=
  setEvt (count (gateD04 (bivouacDomains.foldl gateRequest s)) .pwr 0) .pwr 8

/-- BIVOUAC is entered (R406). -/
def bivouacOp (s : State) : State :=
  if s.pwr.phase = .running && !s.pwr.bivouac && quiescent s && (s.pwr.request = 1 || (s.pwr.request = 0 && s.pwr.entering)) then
    if s.pwr.request = 1 && !s.pwr.reqDone then
      setEvt (modPwr (bivouacGated s) fun p => { p with bivouac := true, entering := false, reqDone := true }) .pwr 11
    else modPwr (bivouacGated s) fun p => { p with bivouac := true, entering := false }
  else modPwr s fun p => { p with entering := false }

/-- The ports are reset and their PHYs go off, and each enabled link is stopped (R408). -/
def lanternStops (s : State) : State :=
  let s := portLinkDown (portLinkDown (phyOff (portResetOp (portResetOp s .a) .b)) .a) .b
  all16.foldl (fun s n => if enabled s (.link n) then ctrlSend s n.val 0x1E [] else s) s

/-- LANTERN is entered (R408, R159). -/
def lanternOp (s : State) : State :=
  if s.pwr.phase = .running && s.pwr.request = 2 && quiescent s then
    let s := lanternStops s
    let s := logMgmt s 0x0582 0 0x3F (reg s .pwr 0x054).toNat
    let s := { deviceReset s .lanternExit with mem := {}, pool := {} }
    modPwr s fun p => { p with phase := .lantern }
  else s

/-- LANTERN ends; a timer or a zeroise asserts WAKE_N until READY (R409). -/
def endLantern (s : State) (wakeN : Bool) : State :=
  if s.pwr.phase != .lantern then s
  else
    let s := setPin (setPin (modPwr s fun p => { p with phase := .lanternExit, clkreq := [.a, .b], wakeN := wakeN })
      "CLKREQ_N_A" false) "CLKREQ_N_B" false
    if wakeN then setPin (setPin s "WAKE_N_A" false) "WAKE_N_B" false else s

/-- The exit sequence is complete, with the channels in `failed` untrained; an image that fails its check goes on as at step 5 of a
start (R409). -/
def lanternDone (s : State) (failed : Word) : State :=
  if s.pwr.phase = .lanternExit then
    bootImage (modFwu s fun f => { f with phase := if inTrial s then .trial else .idle }) failed
  else s

/-- LANTERN_WAKE expires (R409). -/
def lanternTimer (s : State) : State := if reg s .pwr 0x054 != 0 then endLantern s true else s

/-! ### Sensors and alarms -/

/-- Windows of the rails in mV, k = 30 to 47 (R499). -/
def railWindow (k : Nat) : Nat × Nat :=
  [(11400, 12600), (728, 773), (728, 773), (728, 773), (776, 824), (825, 876), (760, 840), (873, 927), (1164, 1236), (873, 927),
   (1164, 1236), (1310, 1391), (1310, 1391), (1710, 1890), (1710, 1890), (3135, 3465), (1164, 1236), (776, 824)].getD (k - 30) (0, 0)

/-- Samples of sensor `k` in 100 ms (R418). -/
def samples100 (k : Nat) : Nat := if k < 24 then 100 else 10

/-- Hysteresis: set at `hi`, cleared `back` below it. -/
def hyst (was : Bool) (v hi back : Int) : Bool := if was then hi - back < v else hi ≤ v

/-- The sensor after a valid sample (R419): WARN and CRIT. -/
def sensed (s : State) (k : Nat) (v : BitVec 16) : Sensor :=
  let x := sensor s k
  let n := v.toNat
  let d := v.toInt
  let warn (lo : Nat) : Int := (BitVec.ofNat 16 (field s .mgt 0x040 lo 16)).toInt
  let x := { x with value := v, valid := true, failed := false, missing := 0 }
  if k < 24 then { x with warn := hyst x.warn d (warn 0) 16, crit := hyst x.crit d 880 40, run := 0 }
  else if k < 30 then { x with warn := hyst x.warn d (warn 16) 16, crit := hyst x.crit d 680 40, run := 0 }
  else if k < 48 then
    let w := railWindow k
    if n < w.1 || w.2 < n then { x with crit := true, run := 0 }
    else { x with crit := x.crit && x.run + 1 < 10, run := x.run + 1 }
  else if k = 48 then { x with warn := hyst x.warn n (field s .mgt 0x044 0 16) 500, crit := hyst x.crit n 25000 1000, run := 0 }
  else { x with run := 0 }

/-- Every domain that a rail supplies and that can be off is off (R499). -/
def railOff (s : State) (k : Nat) : Bool :=
  let off (f : Nat → Nat) : Bool := (List.range 16).all fun n => domGated s (f n)
  if k = 32 then off (16 + ·) else if k = 33 then off (33 + 3 * ·) else if k = 37 || k = 38 then off (32 + 3 * ·) else false

/-- The sensor after a sample that gave no reading (R419): 100 ms of them make it fail, but for a rail that is off (R499). -/
def unsensed (s : State) (k : Nat) : Sensor :=
  let x := sensor s k
  let n := x.missing + 1
  if railOff s k then { x with valid := false, failed := false, missing := n }
  else if samples100 k ≤ n then { x with valid := false, failed := true, missing := n }
  else { x with missing := n }

/-- `MGT.ALARM_LIVE` (R420). -/
def alarmLive (s : State) : Word :=
  let some' (a b : Nat) (f : Sensor → Bool) : Bool := (List.range (b - a)).any fun i => f (sensor s (a + i))
  w32 (bitsOf [some' 0 24 (·.warn), some' 0 24 (·.crit), some' 24 30 (·.warn), some' 24 30 (·.crit), some' 30 48 (·.crit),
    some' 48 49 (fun x => x.warn || x.crit), some' 0 50 (·.failed), s.keys.any fun k => k.2.st == .zeroised])

/-- `ALARM_LATCH` takes the conditions that have become present (R420). -/
def latchAlarms (s : State) (before : Word) : State :=
  setReg s .mgt 0x04C (reg s .mgt 0x04C ||| (alarmLive s &&& ~~~before))

/-- A WARN or CRIT has become 1 (R419, R421). -/
def threshold (s : State) (k crit : Nat) : State :=
  let s := raise (count s .mgt 1) .mgt (10 + crit) k
  logMgmt s 0x0587 (1 + crit) 2 k (sensor s k).value.toNat crit

/-- `PWR.HOLDUP.CHARGE` of a store voltage in mV (R500). -/
def chargeOfMv (v : Nat) : Nat := min 100 (100 * v * v / (35000 * 35000))

/-- A sensor sample (R419). -/
def sensorOp (s : State) (k : Nat) (v : BitVec 16) (valid : Bool) : State :=
  let before := alarmLive s
  let x := sensor s k
  let s := setSensor s k (if valid then sensed s k v else unsensed s k)
  let y := sensor s k
  let s := if y.warn && !x.warn then threshold s k 0 else s
  let s := if y.crit && !x.crit then threshold s k 1 else s
  let s := latchAlarms s before
  if k = 49 && valid then
    let q := chargeOfMv v.toNat
    if 90 ≤ q && s.pwr.charge < 90 then chargedOp s q else modPwr s fun p => { p with charge := q }
  else s

/-- An enabled alarm source becomes active while D00 has power: the slots are zeroised, and LANTERN ends (R259, R409, R498). -/
def alarmActs (s : State) (a : AlarmSrc) : State :=
  if !srcEnabled s a || !s.pwr.supplied || (a == .rail && s.pwr.phase == .powerFail) then s
  else endLantern (zeroise s (srcBit a)) true

/-- An alarm source becomes active. -/
def alarmOn (s : State) (a : AlarmSrc) : State :=
  if s.alarms.contains a then s else alarmActs { s with alarms := s.alarms ++ [a] } a

/-- An alarm source becomes inactive: once the last enabled one is, ALARM_CLEARED is set (R246). -/
def alarmOff (s : State) (a : AlarmSrc) : State :=
  let was := alarmActive s
  let s := { s with alarms := s.alarms.filter (· != a) }
  if was && !alarmActive s then raise s .key 9 else s

/-- The pin ALARM_N is low (R420, R23, R400): a level that the state fixes. -/
def alarmN (s : State) : Bool :=
  (reg s .mgt 0x04C &&& reg s .mgt 0x048) != 0 || !s.pwr.tcxo || s.pwr.phase == .dead

end Sys2Proof.Machine
end

