-- ==== Sys2Proof/Machine/Fwu.lean ====
section
/-! DEFINITION. The firmware update (R472 to R483): download, verification, activation with its pause (R157), confirmation. -/

namespace Sys2Proof.Machine

/-- The update steps that R475 tells apart. -/
inductive UpdStep where
  | begin
  | data
  | chunk
  | verify
  | activate (at_ : Nat) (quiesce fleet : Bool)
  | confirm
  | cancel
  deriving DecidableEq, Repr

/-- The check of a step request (R475): 0 or the reason. -/
def stepReason (s : State) (u : UpdStep) : Nat :=
  let p := s.fwu.phase
  let low := s.pwr.charge < 90
  if s.fsp.ownerLock then 0x0804
  else match u with
    | .activate a q fl =>
      if p != .verified then 0x0806
      else if a != 0 && !fl then 0x0808
      else if a != 0 && a ≤ now s then 0x0807
      else if low then 0x0803
      else if a = 0 && !q && anyMoving s then 0x0805
      else 0
    | .verify => if p != .downloaded && p != .verified then 0x0806 else 0
    | .begin => if low then 0x0803 else 0
    | .chunk => if low then 0x0803 else 0
    | .confirm => if low then 0x0803 else 0
    | _ => 0

/-- The check is reported in `FWU.CHECK`; a refusal counts (R475, R481). -/
def stepCheck (s : State) (u : UpdStep) : State × Nat :=
  let r := stepReason s u
  let s := setCheck s .fwu r (if r = 0 then 0 else 0xFF)
  (if r = 0 then s else count s .fwu 3, r)

/-! ### Download -/

/-- DL_BEGIN (R473). -/
def dlBeginOp (s : State) (len : Nat) : State :=
  modFwu s fun f => { f with phase := .downloading, total := ceilDiv len 65536, imageLen := len, done := [], chunk := none,
                             chunkBytes := [], candidate := none, prepared := false }

/-- DL_DATA (R473). -/
def dlDataOp (s : State) (chunk off : Nat) (bs : List Byte) : State :=
  modFwu s fun f =>
    let old := if f.chunk = some chunk then f.chunkBytes else []
    { f with chunk := some chunk,
             chunkBytes := (List.range bs.length).map (fun i => (off + i, bs.getD i 0))
               ++ old.filter fun b => !(off ≤ b.1 && b.1 < off + bs.length) }

/-- Bytes of a chunk: 65,536 but for the last (R473). -/
def chunkLen (s : State) (c : Nat) : Nat := min 65536 (s.fwu.imageLen - 65536 * c)

/-- The chunk in the buffer, if it is whole. -/
def chunkData (s : State) (c : Nat) : Option (List Byte) :=
  let n := chunkLen s c
  if s.fwu.chunk = some c && 0 < n && ((s.fwu.chunkBytes.filter fun b => b.1 < n).map (·.1)).eraseDups.length = n then
    some ((List.range n).map fun i => tget s.fwu.chunkBytes i 0)
  else none

/-- A chunk is erased and programmed by two descriptors of the management queue (R473, R458). -/
def dlChunkOp (s : State) (c : Nat) (bs : List Byte) (id seq : Nat) : State :=
  let a := slotBase (1 - runSlot s) + 65536 * c
  let data := bs ++ List.replicate (8 * ceilDiv bs.length 8 - bs.length) erased
  let d : NvDesc := { op := 3, flags := 0, reserved := false, length := 65536, addr := a, ptr := 0 }
  let s := modNvq s .mgmt fun q => { q with fetched := q.fetched ++ [d, { d with op := 2, length := data.length, data := data }] }
  modFwu s fun f => { f with answer := some (id, seq, c), took := true,
                             phase := if f.phase = .downloading then .downloading else .downloaded,
                             done := f.done.filter (· != c) }

/-! ### Verification and activation -/

/-- VERIFY begins (R474). -/
def verifyOp (s : State) : State := modFwu s fun f => { f with phase := .verifying }

/-- VERIFY_DONE (R474). -/
def verifyEnd (s : State) : State :=
  if s.fwu.phase != .verifying then s
  else
    let k := 1 - runSlot s
    let r := checkImage s k
    let i := readImage s k
    let s := modFwu s fun f =>
      { f with phase := if r = 1 then .verified else .idle, lastResult := r, candidate := if r = 1 then some i else f.candidate,
               slots := if r = 1 then tput f.slots k i else f.slots }
    let s := if r = 1 then s else count s .fwu 2
    stepGives (setEvt s .fwu 8)

/-- The prepare part is given to the management queue (R460, R476). -/
def prepareOp (s : State) : State :=
  let d : NvDesc := { op := 5, flags := 2, reserved := false, length := 0, addr := 1 - runSlot s, ptr := 0 }
  modFwu (modNvq s .mgmt fun q => { q with fetched := q.fetched ++ [d] }) fun f => { f with prepared := false }

/-- An accepted activation, now or at a TAI time (R476, R477). -/
def activateOp (s : State) (a : Nat) (quiesce : Bool) (cid : Option Nat) : State :=
  let s := prepareOp s
  if a = 0 then
    progressAll (modFwu s fun f => { f with phase := .activating, quiesce := quiesce, byCid := cid })
  else raise (modFwu s fun f => { f with phase := .scheduled, reqQuiesce := quiesce, atTai := a }) .fwu 12

/-- The time of a scheduled activation has come (R477). -/
def scheduleDue (s : State) : State :=
  if s.fwu.phase != .scheduled || now s < s.fwu.atTai then s
  else
    let r := if s.pwr.charge < 90 then 0x0803 else if !s.fwu.reqQuiesce && anyMoving s then 0x0805 else 0
    let s := setCheck (wake s 6) .fwu r (if r = 0 then 0 else 0xFF)
    if r = 0 then progressAll (modFwu s fun f => { f with phase := .activating, quiesce := f.reqQuiesce, atTai := 0 })
    else raise (modFwu s fun f => { f with phase := .verified, lastResult := 9, atTai := 0 }) .fwu 13

/-- Every transport has come to rest at a data set boundary, its data sets verified and rewritten (R157). -/
def quiesced (s : State) : Bool :=
  (List.range 16).all fun n => !moving (link s n).mode && !(slice s n).inBurst && (volsOf n).all fun v => !owing s v

/-- The pause begins: the select word is written (R157, R476). -/
def pauseOp (s : State) : State :=
  if s.fwu.phase != .activating || !s.fwu.prepared || s.fwu.paused || (s.fwu.quiesce && !quiesced s) then s
  else match selectUnits s (1 - s.fwu.block) with
    | none => prepareEnd s false
    | some us => modFwu (us.foldl applyUnit (stopCalibration s)) fun f => { f with paused := true, pausedAt := clock s, pausedTai := now s }

/-- Post every entry that waits, now that the pause is over (R157). -/
def postWaiting (s : State) (p : Port) : State :=
  (List.range 64).foldl (fun s c => ((cq s p c).waiting).foldl (fun s _ => cqPostNext s p c) s) s

/-- Leases run on from what was left of them (R75). -/
def leasesRunOn (s : State) : State :=
  let d := clock s - s.fwu.pausedAt
  { s with sems := s.sems.map fun x => (x.1, if x.2.holder.isSome then { x.2 with due := x.2.due + d } else x.2) }

/-- The pause is over: the new image runs in trial (R476, R157). -/
def resumeOp (s : State) : State :=
  if !s.fwu.paused then s
  else
    let cid := s.fwu.byCid
    let s := leasesRunOn s
    let s := modFwu s fun f => { f with paused := false, phase := .trial, lastResult := 1, quiesce := false, byCid := none,
                                        prepared := false, candidate := none }
    let s := convertRecord (raise (count s .fwu 0) .fwu 9)
    let s := flushMsix (flushMsix (postWaiting (postWaiting (sendHeldAll s) .a) .b) .a) .b
    let s := match cid with
      | some c => complete s c (0, 0) s.fwu.pausedTai
      | none => s
    progressAll (skim (feed s))

/-- CONFIRM (R479). -/
def confirmOp (s : State) : State :=
  if s.fwu.phase != .trial then s
  else
    let u : NvUnit := .program (bootBase s.fwu.block + 57 * 4096) (crcWord (runImage s).svn 0xC0F1)
    let s := dropOtherFormats (applyUnit s u)
    raise (modFwu s fun f => { f with phase := .idle, lastResult := 1 }) .fwu 10

/-- CANCEL (R473). -/
def cancelOp (s : State) : State :=
  if s.fwu.phase = .scheduled then modFwu s fun f => { f with phase := .verified, atTai := 0 } else s

/-- Whether a port holds FLEET (R475). -/
def portFleet (s : State) (p : Port) : Bool := s.fsp.fleet / 2 ^ pIdx p % 2 == 1

/-- ACTIVATE_FIRMWARE (R119, R475). -/
def activateCmd (s : State) (cid : Nat) : State :=
  let c := cmd s cid
  let a := leAt c.bytes 36 8
  let q := (c.bytes.getD 1 0).getLsbD 2
  if !holds s (portMaster c.port) 2 then complete s cid (2, 0xC) (endResult s cid 2)
  else if s.fwu.phase = .scheduled || s.fwu.phase = .trial then complete s cid (8, 1) (endResult s cid 8)
  else
    let (s, r) := stepCheck s (.activate a q (portFleet s c.port))
    if r != 0 then complete s cid (2, 0xB) r
    else if a = 0 then activateOp (modCmd s cid fun c => { c with phase := .gated }) 0 q (some cid)
    else complete (activateOp s a q none) cid (0, 0) (endResult s cid 0)

/-- A write of `FWU.STEP` (R481). -/
def fwuStepWrite (s : State) (v : Word) : State :=
  let run (s : State) (u : UpdStep) (f : State → State) : State :=
    let (s, r) := stepCheck s u
    if r = 0 then f s else s
  match v.toNat % 16 with
  | 1 => run s .verify verifyOp
  | 2 => run s .confirm confirmOp
  | 3 => run s .cancel cancelOp
  | _ => s

end Sys2Proof.Machine
end

