-- ==== Sys2Proof/Machine/Views.lean ====
section
/-! DEFINITION. What each register reads as: the values that the formatter computes, page by page (R60 to R68, R79, R90 to R94, R177,
R184, R235, R242, R246, R265, R303, R331, R368, R393 to R395, R413, R421, R422, R429, R441, R466, R481), else the stored value. -/

namespace Sys2Proof.Machine

/-! ### DEV, SEM, POOL, MEM -/

/-- `DEV.TRANSPORT_OWNER` (R63). -/
def ownerWord (s : State) : Nat := ((List.range 16).map fun n => owner s n % 4 * 4 ^ n).foldl (· + ·) 0

/-- `DEV.FREEZE_INFO[m]` (R79). -/
def freezeInfo (s : State) (m : Master) : Nat :=
  let x := mst s m
  bit x.frozen + 2 ^ 8 * x.cause.toNat + 2 ^ 16 * x.sem.toNat

/-- The master of an index; the third and above is the management core. -/
def nthMaster (i : Nat) : Master := if i = 0 then .portA else if i = 1 then .portB else .mgmt

/-- DEV page. -/
def devView (s : State) (m : Master) (off : Nat) : Option Nat :=
  if off = 0x040 then some (evtSum0 s).toNat
  else if off = 0x044 then some (evtSum1 s).toNat
  else if off = 0x048 then some (ownerWord s)
  else if 0x050 ≤ off && off < 0x05C then some (freezeInfo s (nthMaster ((off - 0x050) / 4)))
  else if 0x060 ≤ off && off < 0x078 then some (mst s (nthMaster ((off - 0x060) / 8))).addr
  else if off = 0x078 then some (mIdx m)
  else none

/-- `SEM.HOLDERS` of semaphores `k` to `k + 15` (R68). -/
def holdersWord (s : State) (k : Nat) : Nat :=
  ((List.range 16).map fun i => holderCode (sem s (k + i)).holder * 4 ^ i).foldl (· + ·) 0

/-- `SEM.REMAIN[k]` (R68). -/
def remain (s : State) (k : Nat) : Nat :=
  let x := sem s k
  if x.holder.isNone then 0 else (x.due - leaseClock s) / 1000000

/-- SEM page; a read of LOCK is an operation of its own. -/
def semView (s : State) (m : Master) (off : Nat) : Option Nat :=
  let x := mst s m
  if off = 0x0C0 then some (holdersWord s 0)
  else if off = 0x0C4 then some (holdersWord s 16)
  else if off = 0x0C8 then some (x.semRes.toNat + 2 ^ 8 * x.semNo.toNat)
  else if off = 0x0CC then some s.lastForced.toNat
  else if 0x100 ≤ off && off < 0x180 then some (sem s ((off - 0x100) / 4)).lease
  else if 0x180 ≤ off && off < 0x200 then some (remain s ((off - 0x180) / 4))
  else none

/-- Rows that every channel has completed in the present lap (R177). -/
def scrubPosition (s : State) : Nat :=
  (List.range 32).foldl (fun a c => min a (tget s.mem.scrubRows c 0)) (rowsPerChannel s.code)

/-- MEM page. -/
def memView (s : State) (off : Nat) : Option Nat :=
  if off = 0x050 then some (min ((clock s - s.mem.ageFrom) / 1000000) 0xFFFFFFFF)
  else if off = 0x054 then some (scrubPosition s)
  else if off = 0x07C then some s.mem.retireList.length
  else if 0x080 ≤ off && off < 0x100 then some (tget s.mem.remaps ((off - 0x080) / 4) []).length
  else if off = 0x100 then some (s.mem.sramRemaps.filter fun x => 4 ≤ x.2).length
  else none

/-- `POOL.STATUS[p]`, word `i` (R184). -/
def poolStatus (s : State) (p i : Nat) : Nat :=
  if !enabled s .pool then 0
  else match i with
    | 0 => poolBase s p / 2 ^ 20
    | 1 => generalCount s p
    | 2 => freeCount s p
    | _ => (waitList s p).length

/-- POOL page (R184): the registers of the reading master, the status of the pools. -/
def poolView (s : State) (m : Master) (off : Nat) : Option Nat :=
  let x := mst s m
  let on := enabled s .pool
  if off = 0x100 then some x.opPtr.toNat
  else if off = 0x10C then some (x.poolRes.toNat + 2 ^ 4 * x.poolOp.toNat)
  else if off = 0x110 then some x.myPtr.toNat
  else if off = 0x118 then some (bit x.waitPending + 2 * bit x.waitGranted + 4 * x.waitPool.toNat)
  else if off = 0x120 then some x.waitPtr.toNat
  else if off = 0x128 then some x.winBase.toNat
  else if off = 0x130 then some x.metaPtr.toNat
  else if off = 0x138 then some (metaReg s x.metaPtr.toNat)
  else if 0x140 ≤ off && off < 0x190 then some (poolStatus s ((off - 0x140) / 16) (off / 4 % 4))
  else if 0x200 ≤ off && off < 0x280 then
    let n := (off - 0x200) / 8
    some (if !on then 0 else if off % 8 = 0 then chargeOf s n / 1024 else tget s.pool.retiredCharge n 0 / 1024)
  else if 0x280 ≤ off && off < 0x294 then some (if on then usedBy s .portA ((off - 0x280) / 4) else 0)
  else if 0x2A0 ≤ off && off < 0x2B4 then some (if on then usedBy s .portB ((off - 0x2A0) / 4) else 0)
  else none

/-! ### CDC, KEY, TSL -/

/-- Lane `l` of a cluster has work (R235). -/
def laneBusy (c : Cluster) (l : Nat) : Bool := tget c.lanes l .idle != .idle

/-- CDC page. -/
def cdcView (s : State) (n : Nat) (off : Nat) : Option Nat :=
  let c := cluster s n
  if off = 0x050 then some (bitsOf ((List.range 4).map (laneBusy c)) + 16 * c.faulted.toNat) else none

/-- `KEY.ALARM_LIVE` (R246). -/
def alarmSources (s : State) : Nat := bitsOf ([AlarmSrc.tamper0, .tamper1, .cover, .overtemp, .rail].map s.alarms.contains)

/-- `KEY.COMMITTED` from slot `k` on. -/
def committedMap (s : State) (k : Nat) : Nat := bitsOf ((List.range 64).map fun i => (keySlot s (k + i)).st == .committed)

/-- KEY control page. -/
def keyView (s : State) (m : Master) (off : Nat) : Option Nat :=
  let x := mst s m
  if off = 0x048 then some (x.keyRes.toNat + 2 ^ 8 * x.keySlot.toNat)
  else if off = 0x050 then some (alarmSources s)
  else if off = 0x060 then some (committedMap s 0)
  else if off = 0x068 then some (committedMap s 64)
  else none

/-- State code of a key slot (R242). -/
def keyCode : KeyState → Nat
  | .empty => 0
  | .loading => 1
  | .committed => 2
  | .zeroised => 3

/-- The 64-bit registers of a key slot: LABEL, DU_COUNT; none for another offset. -/
def keyWide (s : State) (k off : Nat) : Option Nat :=
  if off = 0x60 then some (keySlot s k).label.toNat else if off = 0x68 then some ((keySlot s k).du % 2 ^ 48) else none

/-- The other registers of a key slot (R242): key words read 0. -/
def keyNarrow (s : State) (k off : Nat) : Nat :=
  if off = 0x70 then keyCode (keySlot s k).st + 2 ^ 8 * (bindCount s k % 128) + 2 ^ 16 * (inUse s k % 65536)
  else if off = 0x74 then writtenMask (keySlot s k)
  else 0

/-- Code of a binding (R265). -/
def bindCode : Binding → Nat
  | .slot k => k
  | .clear => 0xFD
  | .lost => 0xFE
  | .none => 0xFF

/-- Four partitions' values as one word of `w`-bit fields. -/
def fourParts (w : Nat) (f : Nat → Nat) : Nat := f 0 + 2 ^ w * f 1 + 2 ^ (2 * w) * f 2 + 2 ^ (3 * w) * f 3

/-- TSL[n].CIPH page. -/
def ciphView (s : State) (n : Nat) (off : Nat) : Option Nat :=
  let v (p : Nat) : Vol := vol s (4 * n + p)
  if off = 0x040 then some (fourParts 8 fun p => if (v p).mounted then bindCode (v p).bind else 0xFF)
  else if 0x060 ≤ off && off < 0x080 then let x := v ((off - 0x060) / 8); some (if x.mounted then x.serial else 0)
  else if 0x080 ≤ off && off < 0x0A0 then some (v ((off - 0x080) / 8)).blkNext
  else none

/-- Spare use of the current wrap in mm (R315); 11.71875 channel bytes a µm (R267). -/
def spareUsed (s : State) (n : Nat) : Nat :=
  match (slice s n).curVol with
  | some v => (vol s v).physical - (vol s v).nominal
  | none => 0

/-- The wrap that the tape of a transport moves on, or is sent to. -/
def headWrap (s : State) (n : Nat) : Nat :=
  match (link s n).mode with
  | .writing => ((slice s n).curVol.map fun v => (vol s v).wrap).getD 0
  | .reading => (slice s n).gather.wrap
  | .locating => (slice s n).locTo.1
  | _ => 0

/-- TSL[n].FMT page. -/
def fmtView (s : State) (n : Nat) (off : Nat) : Option Nat :=
  let x := slice s n
  let v (p : Nat) : Vol := vol s (4 * n + p)
  if off = 0x044 then
    some (bit (!x.want.table.isEmpty) + 2 * bit x.record.isSome + 4 * bit x.recUnwritable
      + 16 * fourParts 1 (fun p => bit (v p).mounted) + 256 * x.want.table.length)
  else if off = 0x048 then some x.dsNext
  else if off = 0x04C then some (x.record.getD {}).dsReserved
  else if 0x050 ≤ off && off < 0x060 then let y := v ((off - 0x050) / 4); some (y.group + 2 ^ 24 * y.gpos)
  else if off = 0x078 then some (((List.range 4).map fun p => (v p).map.length).foldl (· + ·) 0)
  else if off = 0x07C then some (match x.headAt with
    | some (w, l, _) => w + 256 * l
    | none => headWrap s n + 256 * (servo s n).lpos)
  else if off = 0x090 then
    some (x.current + 2 ^ 8 * x.target + 2 ^ 16 * bit (!x.stopped && x.ramping) + 2 ^ 17 * bit x.capped
      + 2 ^ 18 * bit x.stopped)
  else if off = 0x094 then some (levelMib s n)
  else if off = 0x098 then some (min 0xFFFF (inputRate s n / 1000000))
  else if off = 0x09C then some (min 0xFFFF (spareUsed s n * 32 / 375000))
  else if off = 0x0A0 then some (fourParts 1 fun p => bit (ewPassed s (4 * n + p)))
  else none

/-- State code of a link (R368). -/
def linkCode : LinkPhase → Nat
  | .disabled => 0
  | .training => 1
  | .loading => 2
  | .up => 3
  | .failed => 4

/-- TSL[n].LINK page. -/
def linkView (s : State) (n : Nat) (off : Nat) : Option Nat :=
  let l := link s n
  let one (a b : Nat) : Bool := l.lanes.getLsbD a != l.lanes.getLsbD b
  if off = 0x060 then
    some (linkCode l.phase + 8 * bit (one 0 1) + 16 * bit (one 2 3) + 2 ^ 8 * l.lanes.toNat + 2 ^ 16 * l.failCause)
  else if off = 0x064 then
    some (modeCode l.mode + 16 * bit l.threaded + 32 * bit l.present + 64 * bit l.wprot + 2 ^ 8 * l.cause.toNat)
  else none

/-! ### The loops -/

/-- State code of a loop (R394). -/
def loopCode : LoopPhase → Nat
  | .off => 0
  | .hold => 1
  | .run => 2
  | .stopped => 3

/-- The registers of loop `i` (R394) by offset in its block; SAMPLES is a 64-bit pair and a counter of SERVO. -/
def loopReg (s : State) (i off : Nat) : Nat :=
  let l := loop s i
  let j := i % 4
  if 0x40 ≤ off && off ≤ 0x60 then (tget l.act (off - 0x40) 0).toNat
  else if off = 0x80 then bit l.manual
  else if off = 0x8C then loopCode l.phase + 4 * bit l.saturated + 8 * bit l.invalid + 2 ^ 16 * (l.feRun % 65536)
  else if off = 0x90 then u16 l.lastErr + 2 ^ 16 * u16 l.lastOut
  else if off = 0x94 then u16 l.lastRef + 2 ^ 16 * u16 l.lastRc
  else if off = 0x98 then u32 l.i
  else if off = 0x9C then l.latency % 65536
  else if off = 0xA0 then ctrVal s (pServo (i / 4)) (2 + 3 * j)
  else if off = 0xA8 then ctrVal s (pServo (i / 4)) (3 + 3 * j)
  else if off = 0xAC then ctrVal s (pServo (i / 4)) (4 + 3 * j)
  else if off = 0xC4 then
    if j = 0 || j = 3 then u32 (tget l.bins ((tget l.regs 0xC0 0).toNat % 512) 0) else 0
  else (tget l.regs off 0).toNat

/-! ### PWR, MGT, TIM -/

/-- A BIVOUAC or LANTERN request waits for quiescence (R413). -/
def statePending (s : State) : Bool :=
  (s.pwr.request == 2 || (s.pwr.request == 1 && !s.pwr.bivouac && !s.pwr.reqDone)) && !quiescent s

/-- An entry is under way (R413): a request has found the formatter quiescent, or the timer has expired. -/
def stateEntering (s : State) : Bool :=
  quiescent s && (s.pwr.entering || s.pwr.request == 2 || (s.pwr.request == 1 && !s.pwr.bivouac && !s.pwr.reqDone))

/-- Domains `d` to `d + k - 1` that are powered and ungated (R413). -/
def domainsOn (s : State) (d k : Nat) : Nat := bitsOf ((List.range k).map fun i => !domGated s (d + i))

/-- PWR page. -/
def pwrView (s : State) (off : Nat) : Option Nat :=
  let p := s.pwr
  if off = 0x040 then some p.request.toNat
  else if off = 0x044 then
    some (bit p.bivouac + 4 * bit (stateEntering s) + 8 * bit (statePending s) + 16 * p.lastWake.toNat)
  else if off = 0x060 then some (domainsOn s 0 32)
  else if off = 0x064 then some (domainsOn s 32 32)
  else if off = 0x068 then some (domainsOn s 64 16)
  else if off = 0x06C then some (p.charge % 256 + 2 ^ 8 * bit (90 ≤ p.charge) + 2 ^ 9 * bit p.degraded)
  else if off = 0x070 then some (causeCode p.cause)
  else none

/-- `MGT.SENSOR[k]` (R421). -/
def sensorWord (s : State) (k : Nat) : Nat :=
  let x := sensor s k
  x.value.toNat + 2 ^ 16 * bit x.valid + 2 ^ 17 * bit x.warn + 2 ^ 18 * bit x.crit

/-- `MBX_STAT` of a port (R422). -/
def mbxStat (s : State) (p : Port) : Nat :=
  let t := port s p
  bit t.mailBusy + 2 ^ 8 * (t.mailResult % 256) + 2 ^ 16 * (t.mailRespLen % 256)

/-- MGT page. -/
def mgtView (s : State) (off : Nat) : Option Nat :=
  if off = 0x050 then some (alarmLive s).toNat
  else if off = 0x054 then some (mgtImage s).toNat
  else if off = 0x104 then some (mbxStat s .a)
  else if off = 0x184 then some (mbxStat s .b)
  else if 0x200 ≤ off && off < 0x2C8 then some (sensorWord s ((off - 0x200) / 4))
  else none

/-- State code of the discipline (R441). -/
def discCode : DiscState → Nat
  | .off => 0
  | .locking => 1
  | .locked => 2
  | .holdover => 3

/-- clockClass, clockAccuracy and timeSource (R439). -/
def clockAttrs (s : State) : Nat × Nat × Nat :=
  match s.tim.disc with
  | .locked => (6, 0x21, 0x90)
  | .holdover => (7, 0xFE, 0x90)
  | _ => (248, 0xFE, 0xA0)

/-- `TIM.STAT` (R441). -/
def timStat (s : State) : Nat :=
  let t := s.tim
  bit t.taiValid + 2 * discCode t.disc + 16 * bit t.slewing + 32 * bit (ppsSeen s) + 2 ^ 8 * (clockAttrs s).1

/-- TIM page. -/
def timView (s : State) (off : Nat) : Option Nat :=
  if off = 0x050 then some (now s)
  else if off = 0x068 then some (timStat s)
  else if off = 0x06C then some (freqAdj s).toNat
  else if off = 0x070 then some (u32 s.tim.ppsErr)
  else none

/-! ### LOG, NVA, FWU, HP -/

/-- Word `off` of the log window: entry NEXT_SEQ - 1 - k at 0x100 + 64k (R429). -/
def logWindow (s : State) (off : Nat) : Nat :=
  if !enabled s .log then 0
  else match s.log.entries[(off - 0x100) / 64]? with
    | some e => leAt (entryBytes e) (off % 64) 4
    | none => 0

/-- LOG page. -/
def logView (s : State) (off : Nat) : Option Nat :=
  if off = 0x040 then some s.log.nextSeq
  else if off = 0x048 then some s.log.oldest
  else if off = 0x050 then some s.log.capacity
  else if 0x100 ≤ off && off < 0xD00 then some (logWindow s off)
  else none

/-- Sectors marked failed (R466). -/
def failedSectors (s : State) : Nat := (s.nv.remaps.filter fun r => r.2.isNone).length

/-- NVA page. -/
def nvaView (s : State) (off : Nat) : Option Nat :=
  if off = 0x060 then some (nvq s .a).tail
  else if off = 0x064 then some (nvq s .a).head
  else if off = 0x068 then some (nvq s .b).tail
  else if off = 0x06C then some (nvq s .b).head
  else if off = 0x070 then
    some (bit (!(bankUnits s 0).isEmpty) + 2 * bit (!(bankUnits s 1).isEmpty) + 2 ^ 8 * (32 - tget s.nv.sparesUsed 0 0)
      + 2 ^ 16 * (32 - tget s.nv.sparesUsed 1 0))
  else if off = 0x074 then some (failedSectors s)
  else none

/-- `FWU.CANDIDATE` (R481). -/
def candidateWord (s : State) : Nat :=
  match s.fwu.candidate with
  | some i => i.version + 2 ^ 16 * i.svn
  | none => 0

/-- `FWU.ROLLBACK` (R481). -/
def rollbackWord (s : State) : Nat :=
  rollback s + 2 ^ 16 * (if inTrial s then min 3 (bootBlk s s.fwu.block).starts else 0)

/-- `FWU.SCHEDULE_TAI` (R481). -/
def scheduleTai (s : State) : Nat := if s.fwu.phase = .scheduled then s.fwu.atTai else 0

/-- `FWU.DOWNLOAD` (R481). -/
def downloadWord (s : State) : Nat :=
  let f := s.fwu
  f.done.length % 256 + 2 ^ 8 * (f.total % 256) + 2 ^ 16 * ((runImage s).format % 256)
    + 2 ^ 24 * ((f.candidate.getD {}).format % 256)

/-- FWU page. -/
def fwuView (s : State) (off : Nat) : Option Nat :=
  if off = 0x044 then some (fwuState s).toNat
  else if off = 0x048 then some (candidateWord s)
  else if off = 0x04C then some (rollbackWord s)
  else if off = 0x050 then some (scheduleTai s)
  else if off = 0x058 then some (downloadWord s)
  else none

/-- `HPA.PORT_STAT` (R90). -/
def portStat (s : State) (p : Port) : Nat :=
  let t := port s p
  if t.linkUp then 1 + 2 * t.rate.toNat + 16 * t.width.toNat else 0

/-- First page of a host port's group. -/
def hpView (s : State) (p : Port) (off : Nat) : Option Nat :=
  if off = 0x050 then some (portStat s p)
  else if off = 0x07C then some (port s p).errNext
  else if off = 0x080 then some (bitsOf ((List.range 64).map fun q => (sq s p q).frozen))
  else none

/-- The registers of SQ `q` (R93) by offset in its block. -/
def sqReg (s : State) (p : Port) (q off : Nat) : Nat :=
  let x := sq s p q
  if off = 0x00 then bit (x.enabled && !x.draining)
  else if off = 0x04 then bit x.enabled + 2 * bit x.draining + 4 * bit x.frozen + 2 ^ 16 * x.inbox.length
  else if off = 0x08 then x.bind.toNat
  else if off = 0x0C then x.sqhd % 65536
  else if off = 0x10 then (if x.enabled then 256 - x.inbox.length else 0)
  else if off = 0x14 then x.ranges.length
  else 0

/-- The narrow registers of CQ `c` (R94) by offset in its block; BASE is a 64-bit pair. -/
def cqReg (s : State) (p : Port) (c off : Nat) : Nat :=
  let x := cq s p c
  if off = 0x00 then bit x.enabled + 4 * bit x.ien
  else if off = 0x04 then bit x.enabled + 4 * bit (x.enabled && cqFull x)
  else if off = 0x10 then x.size.toNat
  else if off = 0x14 then x.irq.toNat
  else if off = 0x18 then x.coalTime.toNat
  else if off = 0x1C then x.head
  else if off = 0x20 then x.tail + 2 ^ 16 * bit x.phase
  else 0

/-! ### One register of a page -/

/-- What the formatter computes for the register at `off` of a page, where it does. -/
def pageView (s : State) (m : Master) (pg : PageId) (off : Nat) : Option Nat :=
  match pg with
  | .dev => devView s m off
  | .sem => semView s m off
  | .pwr => pwrView s off
  | .tim => timView s off
  | .mgt => mgtView s off
  | .fwu => fwuView s off
  | .nva => nvaView s off
  | .log => logView s off
  | .pool => poolView s m off
  | .mem => memView s off
  | .key => keyView s m off
  | .hp p => hpView s p off
  | .link n => linkView s n.val off
  | .fmt n => fmtView s n.val off
  | .ciph n => ciphView s n.val off
  | .cdc n => cdcView s n.val off
  | .servo _ => none
  | .loopG => none

/-- The common header (R33 to R42). -/
def headerReg (s : State) (pg : PageId) (off : Nat) : Word :=
  if off = 0x00 then idReg pg
  else if off = 0x04 then capsReg pg
  else if off = 0x08 then ctrlReg s pg
  else if off = 0x0C then statReg s pg
  else if off = 0x10 then checkReg s pg
  else if off = 0x14 then (page s pg).evt
  else if off = 0x18 then (page s pg).evtEn
  else if off = 0x1C then (page s pg).sat
  else if off = 0x20 then ownerReg s pg
  else 0

/-- The value of a register of a page from 0x040 on, 64 bits of it where it is wide. -/
def pageReg (s : State) (m : Master) (pg : PageId) (r : RegRow) (off : Nat) : Nat :=
  match pageView s m pg off, r.ctr with
  | some v, _ => v
  | none, some k => ctrVal s pg k
  | none, none => if r.wide then reg64 s pg off else (reg s pg off).toNat

end Sys2Proof.Machine
end

