-- ==== Sys2Proof/Machine/Fsp.lean ====
section
/-! DEFINITION. The mailbox (R422 to R424), the service port (R430 to R433, R473), PTP (R439), SMBus (R494) and the end of a log second
(R428). -/

namespace Sys2Proof.Machine

/-- The management core answers on its ports: the sequence is past step 7 of R398, or the formatter is in recovery (R400, R494). -/
def coreServes (s : State) : Bool := s.pwr.phase == .running || s.pwr.phase == .recovery

/-- Change the service port. -/
def modFsp (s : State) (f : FspSt → FspSt) : State := { s with fsp := f s.fsp }

/-! ### What a request asks for -/

/-- The ordering code, in ASCII (R5). -/
def codeBytes (c : OrderCode) : List Byte :=
  let n : List Byte := match c with
    | .kxf64A => [0x36, 0x34]
    | .kxf32A => [0x33, 0x32]
  [0x4B, 0x58, 0x46, 0x31, 0x36, 0x2D] ++ n ++ [0x41]

/-- The MAC address of the service port, fixed at manufacture (R430). -/
def macBytes : List Byte := (List.range 6).map fun i => Config.identityByte (32 + i)

/-- The 42 bytes of an IDENTIFY response (R423). -/
def identifyBytes (s : State) : List Byte :=
  (List.range 16).map Config.identityByte ++ padTo (codeBytes s.code) 16 ++ macBytes ++ leBytes 2 (runImage s).version
    ++ leBytes 2 (runImage s).kxh2

/-- The sensor registers, 4 bytes each (R433, R494). -/
def sensorBytes (s : State) : List Byte := (List.range 50).flatMap fun k => leBytes 4 (sensorWord s k)

/-- A settings record is asked for; its SEQ. -/
def settingsOp (s : State) (empty : Bool) : State × Nat := (writeSetRec s (configRecord s empty), s.nv.nextSeq)

/-- A HOST_MARK entry (R427); the SEQ it gets, free where the second has folded it (R428). -/
def hostMark (s : State) (p : Port) (bs : List Byte) : State × Nat :=
  let n := s.log.nextSeq
  let s := logMgmt s 0x0586 0 (pIdx p) (leAt bs 0 8) (leAt bs 8 8) (leAt bs 16 8) (leAt bs 24 8)
  if s.log.nextSeq = n then (nextFree s, freeVal s) else (s, n)

/-- A message for the bridge of a transport (R352); `who` is where the answer goes. -/
def bridgeSend (s : State) (bs : List Byte) (who : Nat) : State :=
  mbxSend s (leAt bs 0 1) 3 (leAt bs 2 2) (bs.drop 4) (bs.length - 4) who

/-- A bridge message has a transport, an address and 1 to 48 bytes (R423, R352). -/
def bridgeShape (bs : List Byte) : Bool := 5 ≤ bs.length && bs.length ≤ 52 && leAt bs 0 1 ≤ 15

/-! ### Mailbox -/

/-- A mailbox request is at hand and the core can work on it (R423: it waits in an activation pause). -/
def mailOpen (s : State) (p : Port) : Bool := coreServes s && !s.fwu.paused && (port s p).mailBusy && (port s p).mailAnswer.isNone

/-- Byte `i` of a port's DATA words. -/
def mailByte (s : State) (p : Port) (i : Nat) : Byte :=
  BitVec.ofNat 8 ((reg s .mgt (0x140 + 0x80 * pIdx p + 4 * (i / 4))).toNat / 2 ^ (8 * (i % 4)))

/-- The request bytes. -/
def mailBytes (s : State) (p : Port) : List Byte := (List.range (port s p).mailLen).map (mailByte s p)

/-- Prepare the response: RESULT and its bytes. -/
def mailAnswer (s : State) (p : Port) (result : Nat) (bs : List Byte) : State :=
  modPort s p fun t => { t with mailAnswer := some (result, bs) }

/-- A write of `MBX_CMD` (R423): dropped while BUSY. -/
def mailStart (s : State) (p : Port) (v : Word) : State :=
  if (port s p).mailBusy then s
  else modPort (count s .mgt 0) p fun t =>
    { t with mailBusy := true, mailOp := v.toNat % 256, mailLen := v.toNat / 256 % 256, mailAnswer := none }

/-- IDENTIFY of the mailbox (R423). -/
def mailIdentify (s : State) (p : Port) : State :=
  mailAnswer s p (if (port s p).mailLen = 0 then 0 else 2) (if (port s p).mailLen = 0 then identifyBytes s else [])

/-- SETTINGS_SAVE or SETTINGS_CLEAR of the mailbox (R423); the response keeps the SEQ of the record that is being written. -/
def mailSettings (s : State) (p : Port) (empty : Bool) : State :=
  let m := portMaster p
  if (port s p).mailLen != 0 then mailAnswer s p 2 []
  else if !holds s m 0 || !holds s m 2 then mailAnswer s p 3 []
  else if s.pwr.charge < 90 then mailAnswer s p 4 []
  else
    let (s, n) := settingsOp s empty
    mailAnswer s p 0 (leBytes 8 n)

/-- LOG_MARK of the mailbox (R423). -/
def mailMark (s : State) (p : Port) : State :=
  if 32 < (port s p).mailLen then mailAnswer s p 2 []
  else
    let (s, n) := hostMark s p (mailBytes s p)
    mailAnswer s p 0 (leBytes 8 n)

/-- The message of a port that the bridge has not answered. -/
def mailMsg (s : State) (n who : Nat) : Option MbxOut := (link s n).mbx.find? fun m => m.op == 3 && m.who == who

/-- BRIDGE_MAILBOX of the mailbox (R423). -/
def mailBridge (s : State) (p : Port) : State :=
  let bs := mailBytes s p
  let n := leAt bs 0 1
  let m := portMaster p
  if !bridgeShape bs then mailAnswer s p 2 []
  else if owner s n != 1 + pIdx p then mailAnswer s p 5 []
  else if !holds s m (4 + n) then mailAnswer s p 3 []
  else if (link s n).phase != .up then mailAnswer s p 6 []
  else if (mailMsg s n (1 + pIdx p)).isSome then s
  else bridgeSend s bs (1 + pIdx p)

/-- Forget a message to a bridge. -/
def dropMsg (s : State) (n who : Nat) : State :=
  modLink s n fun l => { l with mbx := l.mbx.filter fun m => !(m.op == 3 && m.who == who) }

/-- Carry out the request at hand if its OPCODE is `op`. -/
def mailRequest (s : State) (p : Port) (op : Nat) : State :=
  if !mailOpen s p || (port s p).mailOp != op then s
  else match op with
    | 1 => mailIdentify s p
    | 2 => mailSettings s p false
    | 3 => mailSettings s p true
    | 4 => mailMark s p
    | 5 => mailBridge s p
    | _ => mailAnswer s p 1 []

/-- The response as it stands at the end: a bridge that has not answered gives NO_ANSWER (R424). -/
def mailSettle (s : State) (p : Port) : State :=
  let op := (port s p).mailOp
  let n := leAt (mailBytes s p) 0 1
  if mailOpen s p && op = 5 && (mailMsg s n (1 + pIdx p)).isSome then mailAnswer (dropMsg s n (1 + pIdx p)) p 6 []
  else mailRequest s p op

/-- A settings record is on its way to the array. -/
def recComing (s : State) (n : Nat) : Bool := s.nv.coming.any fun r => r.seq == n

/-- Write the response (R423 step 3). -/
def mailWrite (s : State) (p : Port) (result : Nat) (bs : List Byte) : State :=
  let b := 0x140 + 0x80 * pIdx p
  let s := (List.range 16).foldl (fun s w => setReg s .mgt (b + 4 * w) (w32 (leAt bs (4 * w) 4))) s
  let s := modPort s p fun t =>
    { t with mailBusy := false, mailAnswer := none, mailResult := result, mailRespLen := bs.length }
  setEvt s .mgt (8 + pIdx p)

/-- The response of a settings request: DONE and SETTINGS_SAVED once its record is written, NV_FAILED if it has gone (R424, R427). -/
def settingsDone (s : State) (p : Port) (n : Nat) : State :=
  if recComing s n then s
  else if s.nv.records.any fun r => r.seq == n then mailWrite (logMgmt s 0x0588 0 (pIdx p) n) p 0 []
  else mailWrite s p 7 []

/-- MAILBOX_DONE (R423). -/
def mailDone (s : State) (p : Port) : State :=
  let s := mailSettle s p
  if s.fwu.paused then s
  else match (port s p).mailAnswer with
    | none => s
    | some (r, bs) =>
      let op := (port s p).mailOp
      if r = 0 && (op = 2 || op = 3) then settingsDone s p (leNat bs) else mailWrite s p r bs

/-! ### FSP requests -/

/-- A valid request (R431): SESSION, SEQ, OPCODE, whether its session is authenticated, payload. -/
structure FspReq where
  id : Nat
  seq : Nat
  op : Nat
  authed : Bool
  body : List Byte
  deriving DecidableEq, Repr

/-- An open session. -/
def sessionOf (s : State) (id : Nat) : Option Session := s.fsp.sessions.find? fun x => x.id == id

/-- The header of a request is formed as R431 says; `tag` is the length of what follows the payload. -/
def headerOk (dg : List Byte) (tag : Nat) : Bool :=
  24 ≤ dg.length && leAt dg 0 2 == 0x5346 && leAt dg 2 1 == 1 && leAt dg 3 1 == 0 && sub dg 18 6 == zeros 6
    && leAt dg 16 2 ≤ 1400 && dg.length == 24 + leAt dg 16 2 + tag

/-- The request that a datagram makes; none where it is dropped (R431, R432). -/
def readDg (s : State) (dg : List Byte) : Option FspReq :=
  let id := leAt dg 4 4
  let seq := leAt dg 8 4
  let op := leAt dg 12 2
  match (sessionOf s id).filter (·.authed) with
  | none => if headerOk dg 0 then some { id := id, seq := seq, op := op, authed := false, body := dg.drop 24 } else none
  | some x =>
    let n := dg.length - 48
    let late := match x.lastSeq with
      | some l => seq ≤ l
      | none => false
    if !headerOk dg 48 || late || dg.drop n != padTo (Config.hmacSha384 x.key (dg.take n)) 48 then none
    else some { id := id, seq := seq, op := op, authed := true, body := (dg.take n).drop 24 }

/-- A valid datagram is counted, wakes the formatter, and keeps its session open (R421, R406, R432). -/
def heard (s : State) (r : FspReq) : State :=
  let s := wake (count s .mgt 2) 6
  modFsp s fun f => { f with sessions := f.sessions.map fun x =>
    if x.id == r.id then { x with lastSeq := some r.seq } else x }

/-- Answer a request. -/
def reply (s : State) (r : FspReq) (status : Nat) (payload : List Byte) : State := fspAnswer s r.id r.seq r.op status payload

/-- A refusal gives its reason (R433). -/
def refuse (s : State) (r : FspReq) (reason : Nat) : State := reply s r 6 (leBytes 2 reason)

/-- The opcodes that R433 and R473 list. -/
def fspOps : List Nat :=
  [0x01, 0x02, 0x03, 0x10, 0x11, 0x12, 0x13, 0x20, 0x21, 0x22, 0x23, 0x24, 0x25, 0x26, 0x27, 0x40, 0x41, 0x42, 0x43, 0x44, 0x45,
   0x46, 0x47]

/-- A datagram arrives that the row expects to carry OPCODE `op`, with a payload length that `len` allows; `own` asks for an
authenticated session. Every answer but a REFUSED begins with `pre`. -/
def fspRow (s : State) (dg : List Byte) (op : Nat) (len : Nat → Bool) (own : Bool) (pre : List Byte)
    (f : State → FspReq → State) : State :=
  if !coreServes s || s.fwu.paused || !s.fsp.phyUp then s
  else match readDg s dg with
    | none => s
    | some r =>
      if r.op = op then
        let s := heard s r
        if own && !r.authed then reply s r 3 pre else if !len r.body.length then reply s r 2 pre else f s r
      else if fspOps.contains r.op then s
      else reply (heard s r) r 1 []

/-! ### Sessions -/

/-- SESSION_OPEN (R432). -/
def openOp (s : State) (r : FspReq) : State :=
  if 4 ≤ s.fsp.sessions.length then reply s r 7 []
  else
    let nd := leBytes 32 (Config.randomBits s.free 256)
    let id := s.fsp.nextId
    let s := modFsp (nextFree s) fun f =>
      { f with nextId := id % 0xFFFFFFFF + 1, sessions := f.sessions ++ [{ id := id, nonce := nd }] }
    reply s r 0 (leBytes 4 id ++ nd)

/-- The proof of R432. -/
def proofOf (key nd nc : List Byte) (id : Nat) : List Byte :=
  padTo (Config.hmacSha384 key ([0x46, 0x53, 0x50, 0x31] ++ leBytes 4 id ++ nd ++ nc)) 48

/-- A failed AUTH (R432): the fifth in 60 s locks AUTH out. -/
def authFailed (s : State) (r : FspReq) : State :=
  let s := raise (count s .mgt 3) .mgt 12 r.id
  let fs := clock s :: s.fsp.failures.filter fun t => clock s < t + 60000000000
  let s := modFsp s fun f => { f with failures := fs, lockedUntil := if 5 ≤ fs.length then some (clock s + 60000000000) else none }
  reply s r 4 []

/-- AUTH (R432). -/
def authOp (s : State) (r : FspReq) : State :=
  if s.fsp.lockedUntil.isSome then reply s r 5 []
  else match sessionOf s r.id, s.fsp.ownerKey with
    | some x, some key =>
      let nc := r.body.take 32
      if r.body.drop 32 != proofOf key x.nonce nc r.id then authFailed s r
      else
        let k := padTo (Config.hmacSha384 key (x.nonce ++ nc)) 48
        reply (modFsp s fun f => { f with sessions := f.sessions.map fun y =>
          if y.id == r.id then { y with authed := true, key := k } else y }) r 0 []
    | _, _ => authFailed s r

/-- A session closes. -/
def closeSession (s : State) (id : Nat) : State := modFsp s fun f => { f with sessions := f.sessions.filter (·.id != id) }

/-- SESSION_CLOSE (R433). -/
def closeOp (s : State) (r : FspReq) : State :=
  if (sessionOf s r.id).isSome then closeSession (reply s r 0 []) r.id else reply s r 3 []

/-- The 60 s of a lockout are over (R432). -/
def lockoutEnd (s : State) : State := modFsp s fun f => { f with lockedUntil := none, failures := [] }

/-! ### Owner requests -/

/-- THAW (R433, R81). -/
def thawOp (s : State) (r : FspReq) : State :=
  let m := leAt r.body 0 1
  if 1 < m then reply s r 2 []
  else match coreTakes s 0 with
    | (s, false) => reply s r 7 []
    | (s, true) => reply (coreGives (thawMaster s (nthMaster m)) 0) r 0 []

/-- ZEROISE (R433, R259). -/
def fspZero (s : State) (r : FspReq) : State := reply (zeroise s 6 2) r 0 []

/-- RESET (R433): the answer goes first. -/
def resetOp (s : State) (r : FspReq) : State := resetAndStart (reply s r 0 []) .fspRequest

/-- A change of the security settings is written to the array (R455); it needs the hold-up store (R410). -/
def secure (s : State) (r : FspReq) (f : FspSt → FspSt) : State :=
  if s.pwr.charge < 90 then refuse s r 0x0803
  else
    let s := modFsp s f
    reply (writeSetRec s (securityRecord s)) r 0 []

/-- OWNER_LOCK (R433): bit 0 of byte 0. -/
def lockOp (s : State) (r : FspReq) : State :=
  let on := leAt r.body 0 1 % 2 == 1
  let s' := secure s r fun f => { f with ownerLock := on }
  if s'.fsp.ownerLock != s.fsp.ownerLock then raise s' .mgt 13 (bit on) else s'

/-- FLEET (R433): a bit for each port. -/
def fleetOp (s : State) (r : FspReq) : State := secure s r fun f => { f with fleet := leAt r.body 0 1 % 4 }

/-- OWNER_KEY (R432, R433): anyone's while none is installed. -/
def keyOp (s : State) (r : FspReq) : State :=
  if !r.authed && s.fsp.ownerKey.isSome then reply s r 3 []
  else if r.body.length != 48 then reply s r 2 []
  else secure s r fun f => { f with ownerKey := some r.body }

/-- NET_CONFIG (R433): 16 bytes, or none to remove the address. -/
def netOp (s : State) (r : FspReq) : State := secure s r fun f => { f with staticAddr := r.body }

/-- BRIDGE_MAILBOX (R433): the transport must be in SERVICE. The spec gives the refusal no reason code. -/
def fspBridge (s : State) (r : FspReq) : State :=
  let n := leAt r.body 0 1
  if !bridgeShape r.body then reply s r 2 []
  else if (link s n).phase != .up || (link s n).mode != .service then refuse (nextFree s) r (freeVal s % 65536)
  else
    let s := (List.range 16).foldl (fun s k => dropMsg s k 3) s
    modFsp (bridgeSend s r.body 3) fun f => { f with mail := some (r.id, r.seq) }

/-! ### Update steps -/

/-- An update step (R473): the core holds SEM2 for it, and R475 is tested. `f` says whether the step holds SEM2 beyond its answer. -/
def updStep (s : State) (r : FspReq) (u : UpdStep) (f : State → State) : State :=
  let st (s : State) : List Byte := leBytes 4 (fwuState s).toNat
  match coreTakes s 2 with
  | (s, false) => reply s r 7 (st s)
  | (s, true) =>
    let (s, c) := stepCheck s u
    if c != 0 then refuse (coreGives s 2) r c else f s

/-- A step that ends with its answer. -/
def stepDone (s : State) (r : FspReq) (status : Nat) : State := reply (coreGives s 2) r status (leBytes 4 (fwuState s).toNat)

/-- The update holds an image that a download may not touch (R473). -/
def downloadBusy (s : State) : Bool := s.fwu.phase == .scheduled || s.fwu.phase == .activating || s.fwu.phase == .trial

/-- DL_BEGIN (R473). -/
def beginOp (s : State) (r : FspReq) : State :=
  let n := leAt r.body 0 4
  updStep s r .begin fun s =>
    if n < 4096 || 7864320 < n then stepDone s r 2 else if downloadBusy s then stepDone s r 7 else stepDone (dlBeginOp s n) r 0

/-- DL_DATA (R473). -/
def dataOp (s : State) (r : FspReq) : State :=
  let c := leAt r.body 0 2
  let o := leAt r.body 2 2
  let bs := r.body.drop 4
  updStep s r .data fun s => if 119 < c || 65536 < o + bs.length then stepDone s r 2 else stepDone (dlDataOp s c o bs) r 0

/-- DL_CHUNK (R473): answered when the chunk is programmed. -/
def chunkOp (s : State) (r : FspReq) : State :=
  let c := leAt r.body 0 2
  updStep s r .chunk fun s =>
    if 119 < c then stepDone s r 2
    else if downloadBusy s then stepDone s r 7
    else match chunkData s c with
      | none => stepDone s r 2
      | some bs => if (crc32c bs).toNat = leAt r.body 4 4 then skim (feed (dlChunkOp s c bs r.id r.seq)) else stepDone s r 2

/-- VERIFY by FSP (R474): answered at its acceptance; the core keeps SEM2 until it ends. -/
def verifyFsp (s : State) (r : FspReq) : State :=
  updStep s r .verify fun s =>
    let s := modFwu (verifyOp s) fun f => { f with took := true }
    reply s r 0 (leBytes 4 (fwuState s).toNat)

/-- ACTIVATE by FSP (R476, R477). -/
def activateFsp (s : State) (r : FspReq) : State :=
  let q := leAt r.body 0 1 % 2 == 1
  let a := leAt r.body 8 8
  updStep s r (.activate a q true) fun s => stepDone (activateOp s a q none) r 0

/-- CONFIRM by FSP (R479). -/
def confirmFsp (s : State) (r : FspReq) : State := updStep s r .confirm fun s => stepDone (confirmOp s) r 0

/-- CANCEL by FSP (R473). -/
def cancelFsp (s : State) (r : FspReq) : State := updStep s r .cancel fun s => stepDone (cancelOp s) r 0

/-- UPDATE_STATUS (R473). -/
def statusFsp (s : State) (r : FspReq) : State :=
  match coreTakes s 2 with
  | (s, false) => reply s r 7 (leBytes 4 (fwuState s).toNat)
  | (s, true) =>
    reply (coreGives s 2) r 0 (leBytes 4 (fwuState s).toNat ++ leBytes 4 (candidateWord s) ++ leBytes 4 (rollbackWord s)
      ++ leBytes 4 (downloadWord s) ++ leBytes 8 (scheduleTai s))

/-! ### The bridge's answers -/

/-- A MAILBOX message from a bridge (R352): the answer that a request waits for. -/
def bridgeAnswer (s : State) (n : Nat) (flit : List Byte) : State :=
  match (link s n).mbx.find? fun m => m.op == 3 && m.tag == flit.getD 5 0 with
  | none => s
  | some m =>
    let s := modLink s n fun l => { l with mbx := l.mbx.filter (· != m) }
    let bs := sub flit 10 (min 48 (leAt flit 8 1))
    if m.who = 1 || m.who = 2 then
      let p : Port := if m.who = 1 then .a else .b
      if (port s p).mailBusy && (port s p).mailOp = 5 then mailAnswer s p 0 bs else s
    else match s.fsp.mail with
      | some (id, seq) => modFsp (fspAnswer s id seq 0x27 0 bs) fun f => { f with mail := none }
      | none => s

/-! ### Neighbor Discovery, Echo, PTP -/

/-- The EUI-64 of the MAC address. -/
def eui64 : List Byte := macBytes.take 3 ++ [0xFF, 0xFE] ++ macBytes.drop 3

/-- The link-local address (R430): the EUI-64 with its universal bit inverted. -/
def linkLocal : List Byte := [0xFE, 0x80] ++ zeros 6 ++ eui64.set 0 (eui64.headD 0 ^^^ 0x02)

/-- Sum in ones' complement of 16 bits. -/
def ocAdd (a b : Nat) : Nat := if 65536 ≤ a + b then a + b - 65535 else a + b

/-- A big-endian number of `n` bytes. -/
def beBytes (n v : Nat) : List Byte := (leBytes n v).reverse

/-- An ICMPv6 message (R430): an Echo Request is echoed, with its checksum carried on; a Neighbor Solicitation for an own
address is answered with an Advertisement, whose checksum takes in addresses that the message does not show. -/
def icmpOp (s : State) (msg : List Byte) : State :=
  if !coreServes s || s.fwu.paused || !s.fsp.phyUp then s
  else if leAt msg 0 1 = 128 && 8 ≤ msg.length then
    let old := leNat (sub msg 2 2).reverse
    let c := 65535 - ocAdd (ocAdd (65535 - old) (65535 - (0x8000 + leAt msg 1 1))) (0x8100 + leAt msg 1 1)
    emit s (.net ([0x81] ++ sub msg 1 1 ++ beBytes 2 c ++ msg.drop 4))
  else if leAt msg 0 1 = 135 && 24 ≤ msg.length && (sub msg 8 16 == linkLocal || sub msg 8 16 == s.fsp.staticAddr) then
    emit (nextFree s) (.net ([136, 0] ++ beBytes 2 (freeVal s % 65536) ++ [0x60, 0, 0, 0] ++ sub msg 8 16 ++ [2, 1] ++ macBytes))
  else s

/-- The formatter is a grandmaster (R439). -/
def ptpOn (s : State) : Bool :=
  coreServes s && !s.fwu.paused && s.fsp.phyUp && enabled s .tim && field s .tim 0x040 1 1 == 1 && s.tim.taiValid

/-- The source port of its messages. -/
def ptpPort : List Byte := eui64 ++ [0, 1]

/-- A PTP message of IEEE 1588-2019: type, flags, sequence number, control, log interval, body. -/
def ptpMsg (s : State) (ty flags seq ctl ival : Nat) (body : List Byte) : List Byte :=
  leBytes 1 ty ++ [0x12] ++ beBytes 2 (34 + body.length) ++ leBytes 1 (field s .tim 0x040 8 8) ++ [0] ++ beBytes 2 flags
    ++ zeros 12 ++ ptpPort ++ beBytes 2 seq ++ leBytes 1 ctl ++ leBytes 1 ival ++ body

/-- A PTP time stamp: seconds and nanoseconds. -/
def ptpStamp (t : Nat) : List Byte := beBytes 6 (t / 1000000000) ++ beBytes 4 (t % 1000000000)

/-- A two-step Sync and its Follow_Up (R439). -/
def ptpSyncOp (s : State) : State :=
  if !ptpOn s then s
  else
    let n := s.tim.syncSeq
    let s := emit s (.net (ptpMsg s 0x0 0x0200 n 0 0xFD (ptpStamp (now s))))
    let s := emit s (.net (ptpMsg s 0x8 0x0000 n 2 0xFD (ptpStamp (now s))))
    modTim (count s .tim 2) fun t => { t with syncSeq := (n + 1) % 65536 }

/-- Flags of an Announce: ptpTimescale, and currentUtcOffsetValid from `TIM.UTC_OFFSET` (R439). -/
def announceFlags (s : State) : Nat := 0x08 + 4 * field s .tim 0x04C 16 1

/-- An Announce (R439); the spec gives no variance. -/
def ptpAnnounceOp (s : State) : State :=
  if !ptpOn s then s
  else
    let n := s.tim.announceSeq
    let (cls, acc, src) := clockAttrs s
    let body := ptpStamp (now s) ++ beBytes 2 (field s .tim 0x04C 0 16) ++ [0] ++ leBytes 1 (field s .tim 0x040 16 8)
      ++ leBytes 1 cls ++ leBytes 1 acc ++ beBytes 2 (freeVal s % 65536) ++ leBytes 1 (field s .tim 0x040 24 8) ++ eui64
      ++ [0, 0] ++ leBytes 1 src
    modTim (nextFree (emit s (.net (ptpMsg s 0xB (announceFlags s) n 5 0 body)))) fun t => { t with announceSeq := (n + 1) % 65536 }

/-- A message of the profile's version and domain. -/
def ptpOurs (s : State) (msg : List Byte) (ty len : Nat) : Bool :=
  len ≤ msg.length && leAt msg 0 1 % 16 == ty && leAt msg 1 1 % 16 == 2 && leAt msg 4 1 == field s .tim 0x040 8 8

/-- A Delay_Req is answered (R439). -/
def ptpDelayOp (s : State) (msg : List Byte) : State :=
  if !ptpOn s || !ptpOurs s msg 1 44 then s
  else emit s (.net (ptpMsg s 0x9 0x0000 (leNat (sub msg 30 2).reverse) 3 0x7F (ptpStamp (now s) ++ sub msg 20 10)))

/-- A foreign Announce (R439). -/
def foreignOp (s : State) (msg : List Byte) : State :=
  if !ptpOn s || !ptpOurs s msg 0xB 64 || sub msg 20 8 == eui64 then s else raise (count s .tim 3) .tim 12

/-! ### SMBus -/

/-- An answer on SMBus (R494); the target NACKs while D01 is off and before step 7 of the start. -/
def smbRead (s : State) (bs : List Byte) : State := if coreServes s then emit s (.smbus bs) else s

/-- STATE (R494). -/
def smbStateByte (s : State) : Nat := bit s.ready + 2 * bit s.pwr.bivouac + 8 * bit (s.pwr.phase == .recovery)

/-- The pin SMB_ALERT_N is low (R494): a level that the state fixes. -/
def smbAlert (s : State) : Bool := coreServes s && reg s .mgt 0x04C &&& reg s .mgt 0x048 != 0

/-! ### The end of a second of the log -/

/-- LOG_SUMMARY (R428): one SUMMARY entry for each fold beyond 16. -/
def summarise (s : State) : State := s.log.folds.foldl logFoldEnd { s with log := { s.log with folds := [] } }

end Sys2Proof.Machine
end

