-- ==== Sys2Proof/Machine/Window.lean ====
section
/-! DEFINITION. The slot window (R192), the zero fill of granted slots (R170), and the scrubber (R171 to R173). -/

namespace Sys2Proof.Machine

/-! ### Slot window -/

/-- Master `m` holds the slot that byte `a` lies in. -/
def byteHeld (s : State) (m : Master) (a : Nat) : Bool :=
  a < 2 ^ 36 && match slotStart s a with
    | some t => isHolder (slotMeta s t) (mIdx m)
    | none => false

/-- A byte of `[a, a + 4)` lies in a slot whose fill is still running. -/
def fillRuns (s : State) (a : Nat) : Bool :=
  (List.range 4).any fun i => match slotStart s (a + i) with
    | some t => (slotMeta s t).filling
    | none => false

/-- `[a, a + 4)` and an area `(b, n)` share a byte. -/
def meets (a : Nat) (x : Nat × Nat) : Bool := a < x.1 + x.2 && x.1 < a + 4

/-- Jobs that run on an area that is written are tainted (R241). -/
def taintJobs (s : State) (a : Nat) : State :=
  { s with cmds := s.cmds.map fun c =>
      if cOpc c.2.bytes == 0x10 && c.2.phase == .running && c.2.stage == 1 && (meets a (jobIn c.2.bytes) || meets a (jobOut c.2.bytes))
      then (c.1, { c.2 with tainted := true }) else c }

/-- Give a value to the reading master. -/
def answer (s : State) (m : Master) (a : Nat) (v : Nat) : State := emit s (.readData m a (w32 v))

/-- Serve a window access whose slots are filled (R192, R166): `off` is its offset in the window. -/
def windowServe (s : State) (m : Master) (off : Nat) (wr : Option Word) : State :=
  let a := (mst s m).winBase.toNat + off
  if (List.range 4).any fun i => !byteHeld s m (a + i) then
    let s := poolResult s m 0xE (mst s m).poolOp.toNat
    match wr with
    | some _ => s
    | none => answer s m (0x8800 + off) 0
  else match wr with
    | some v => taintJobs (bufWrite s a (leBytes 4 v.toNat) (mIdx m)) a
    | none =>
      if anyBad s a 4 then emit (readBad s a 4 (mIdx m)) (.completerAbort m)
      else answer s m (0x8800 + off) (leNat (ramRead s a 4))

/-- Hold back an access of master `m` (R32, R192). -/
def hold (s : State) (m : Master) (x : Access) : State := modPool s fun t => { t with held := t.held ++ [{ m := m, acc := x }] }

/-- An access of master `m` is held back: its later accesses wait behind it, since they are applied in order (R32). -/
def waits (s : State) (m : Master) : Bool := s.pool.held.any (·.m == m)

/-- A window access (R192): held back while it reaches a held slot that is being filled (R170). -/
def windowAccess (s : State) (m : Master) (off : Nat) (wr : Option Word) : State :=
  let s := wake s 3
  let a := (mst s m).winBase.toNat + off
  if fillRuns s a && (List.range 4).all fun i => byteHeld s m (a + i) then
    hold s m (match wr with
      | some v => .write (0x8800 + off) 0xF v
      | none => .read (0x8800 + off))
  else windowServe s m off wr

/-- The zero fill of the slot that starts at an address runs. -/
def fillOf (s : State) (a : Nat) : Bool := (slotOf s a).isSome && (slotMeta s a).filling

/-! ### Scrubber -/

/-- The controller writes a block's word back or finds it clean: the block reads as `d` from now on. -/
def wordIs (s : State) (b : Nat) (d : List Byte) : State :=
  modMem s fun m => { m with ram := Memory.put ramDefault m.ram (32 * b) d, bad := m.bad.filter (· != b) }

/-- What the scrubber does with a block it reads (R164, R172, R173). -/
def scrubBlock (ch row : Nat) (s : State) (f : ScrubFinding) : State :=
  let a := blockAddr ch row f.blk
  let b := a / 32
  let test (s : State) : State := if f.readBackOk then s else hardFault s b 35
  match classify f.data f.check with
  | .clean => wordIs s b f.data
  | .dataBit i => test (memFault (wordIs s b (flipBit f.data i)) 0 a 35)
  | .checkBit => test (memFault (wordIs s b f.data) 1 a 35)
  | .uncorrectable =>
    let s := modMem s fun m => { m with bad := if m.bad.contains b then m.bad else b :: m.bad,
                                        testDue := if f.readBackOk || m.testDue.contains b then m.testDue else b :: m.testDue }
    memFault s 2 a 35

/-- Channel `c` failed its training (R169). -/
def chFailed (s : State) (c : Nat) : Bool := (reg s .mem 0x048).getLsbD c

/-- The lap ends once every trained channel has done every row (R171, R177). -/
def lapEnd (s : State) : State :=
  if (List.range 32).all fun c => chFailed s c || rowsPerChannel s.code ≤ tget s.mem.scrubRows c 0 then
    let s := setReg s .mem 0x04C (w32 (min ((clock s - s.mem.lapStart) / 1000000) 0xFFFFFFFF))
    setEvt (count (lapBegins s) .mem 0) .mem 12
  else s

/-- SCRUB_ROW: the scrubber reads the next row of channel `ch` (R171). -/
def scrubOp (s : State) (ch : Nat) (found : List ScrubFinding) : State :=
  let row := tget s.mem.scrubRows ch 0
  if !enabledNow s .mem || field s .mem 0x040 0 1 = 0 || chFailed s ch || rowsPerChannel s.code ≤ row || s.pwr.bivouac then s
  else
    let s := found.foldl (scrubBlock ch row) s
    lapEnd (modMem s fun m => { m with scrubRows := tput m.scrubRows ch (row + 1) })

end Sys2Proof.Machine
end

