-- ==== Sys2Proof/Machine/Mmio.lean ====
section
/-! DEFINITION. Register accesses: the address map of BAR 0 (R29, R30), dword and 64-bit accesses (R31, R44, R45), access types
(R43), guards and violations (R46, R47), and what a write of each register starts. -/

namespace Sys2Proof.Machine

/-- What a BAR 0 address names. -/
inductive Spot where
  | page (pg : PageId) (off : Nat)
  | sq (p : Port) (q off : Nat)
  | cq (p : Port) (c off : Nat)
  | err (p : Port) (i w : Nat)
  | loop (i off : Nat)
  | key (k off : Nat)
  | none
  deriving DecidableEq, Repr

/-- The single pages from 0 on (R29). -/
def lowPages : List PageId := [.dev, .sem, .pwr, .tim, .mgt, .fwu, .nva, .log, .pool, .mem]

/-- The page group of a host port (R89). -/
def hpSpot (p : Port) (o : Nat) : Spot :=
  if o < 0x1000 then .page (.hp p) o
  else if o < 0x2000 then .sq p ((o - 0x1000) / 64) (o % 64)
  else if o < 0x3000 then .cq p ((o - 0x2000) / 64) (o % 64)
  else if 0x4000 ≤ o && o < 0x8000 then .err p ((o - 0x4000) / 64) (o % 64 / 4)
  else .none

/-- A page of a transport (R29). -/
def tslSpot (a : Nat) : Spot :=
  let n := tFin ((a - 0x40000) / 0x4000)
  let o := a % 0x1000
  match a / 0x1000 % 4 with
  | 0 => .page (.link n) o
  | 1 => .page (.fmt n) o
  | 2 => .page (.ciph n) o
  | _ => .page (.servo n) o

/-- The address map (R29), by the address of a dword. -/
def spotOf (a : Nat) : Spot :=
  if a < 0xA000 then .page (lowPages.getD (a / 0x1000) .dev) (a % 0x1000)
  else if a < 0x10000 then .none
  else if a < 0x20000 then hpSpot .a (a - 0x10000)
  else if a < 0x30000 then hpSpot .b (a - 0x20000)
  else if a < 0x40000 then .none
  else if a < 0x80000 then tslSpot a
  else if a < 0x90000 then .page (.cdc (tFin ((a - 0x80000) / 0x1000))) (a % 0x1000)
  else if a < 0x91000 then .page .loopG (a % 0x1000)
  else if a < 0x95000 then .loop ((a - 0x91000) / 0x100) (a % 0x100)
  else if a < 0xA0000 then .none
  else if a < 0xA4000 then .key ((a - 0xA0000) / 0x80) (a % 0x80)
  else if a < 0xA5000 then .page .key (a - 0xA4000)
  else .none

/-- A spot that no register takes (R30, R33). -/
def reserved (t : Spot) : Bool :=
  match t with
  | .page pg off =>
    if off < 0x24 then false
    else if off < 0x40 then true
    else if pg = .pool && 0x800 ≤ off then false
    else (findRow (pageRows pg) off).isNone
  | .sq _ _ off => 0x18 ≤ off
  | .cq _ _ off => 0x24 ≤ off
  | .err _ _ _ => false
  | .loop _ off => (findRow loopRows off).isNone
  | .key _ off => 0x78 ≤ off
  | .none => true

/-- The HI half of a 64-bit pair (R44). -/
def isHi (t : Spot) : Bool :=
  match t with
  | .page pg off => 0x40 ≤ off && ((findRow (pageRows pg) off).map (·.2)).getD false
  | .cq _ _ off => off == 0x0C
  | .loop _ off => off == 0xA4
  | .key _ off => off == 0x64 || off == 0x6C
  | _ => false

/-- The LO half of a 64-bit pair. -/
def isLo (t : Spot) : Bool :=
  match t with
  | .page pg off => 0x40 ≤ off && ((findRow (pageRows pg) off).map fun r => r.1.wide && !r.2).getD false
  | .cq _ _ off => off == 0x08
  | .loop _ off => off == 0xA0
  | .key _ off => off == 0x60 || off == 0x68
  | _ => false

/-- A 64-bit pair that a write changes: the others are RO (R45). -/
def writablePair (t : Spot) : Bool :=
  match t with
  | .page .pool off => 0x100 ≤ off && off < 0x138 && !(0x108 ≤ off && off < 0x128)
  | .page .tim off => off == 0x058 || off == 0x05C
  | .page .nva off => 0x040 ≤ off && off < 0x058
  | .cq _ _ _ => true
  | .key _ off => off < 0x68
  | _ => false

/-! ### Who reaches what -/

/-- A master's accesses reach BAR 0: of a port at READY, or in recovery, with its link up and its function in D0 (R399, R400, R506). -/
def served (s : State) (m : Master) : Bool :=
  coreServes s && match masterPort m with
    | some p => (port s p).linkUp && !(port s p).d3hot
    | none => true

/-- In recovery the DEV page alone is served (R400). -/
def shown (s : State) (t : Spot) : Bool :=
  s.pwr.phase != .recovery || match t with
    | .page .dev _ => true
    | _ => false

/-- The page group of a master: what it can still read while it is frozen, beside DEV (R78). -/
def ownGroup (m : Master) (t : Spot) : Bool :=
  match t with
  | .page .dev _ => true
  | .page .mgt _ => m == .mgmt
  | .page (.hp p) _ => portMaster p == m
  | .sq p _ _ => portMaster p == m
  | .cq p _ _ => portMaster p == m
  | .err p _ _ => portMaster p == m
  | _ => false

/-- Master `m` is the writer that the owner of transport `n` allows (R42, R65). -/
def writesTransport (s : State) (m : Master) (n : Nat) : Bool :=
  match m with
  | .portA => owner s n == 1
  | .portB => owner s n == 2
  | .mgmt => owner s n == 0

/-- Master `m` may write the guarded registers of a page (R46). -/
def mayWrite (s : State) (m : Master) (pg : PageId) : Bool :=
  match pg with
  | .sem => true
  | .hp p => m == .mgmt || m == portMaster p
  | _ => holds s m (guardSem pg) && match pageTransport pg with
    | some n => writesTransport s m n
    | none => true

/-- A register of a page that no semaphore guards, for master `m` (R46). -/
def unguarded (m : Master) (pg : PageId) (off : Nat) : Bool :=
  match pg with
  | .hp _ => false
  | .mgt => off == 0x14 || off == 0x1C || off == 0x04C || (0x100 ≤ off && off < 0x180 && m == .portA)
      || (0x180 ≤ off && off < 0x200 && m == .portB)
  | .nva => off == 0x14 || off == 0x1C || (off == 0x060 && m == .portA) || (off == 0x068 && m == .portB)
  | .pool => off == 0x14 || off == 0x1C || (0x100 ≤ off && off < 0x10C) || (0x128 ≤ off && off < 0x138) || 0x800 ≤ off
  | _ => off == 0x14 || off == 0x1C

/-- A register that one port alone may write: no semaphore gives another master the right (R421, R466). -/
def onePort (m : Master) (pg : PageId) (off : Nat) : Bool :=
  match pg with
  | .mgt => (0x100 ≤ off && off < 0x180 && m != .portA) || (0x180 ≤ off && off < 0x200 && m != .portB)
  | .nva => (off == 0x060 && m != .portA) || (off == 0x068 && m != .portB)
  | _ => false

/-- Master `m` has the right to write a spot (R46). -/
def hasRight (s : State) (m : Master) (t : Spot) : Bool :=
  match t with
  | .page pg off => unguarded m pg off || (mayWrite s m pg && !onePort m pg off)
  | .sq p _ _ => mayWrite s m (.hp p)
  | .cq p _ _ => mayWrite s m (.hp p)
  | .err p _ _ => mayWrite s m (.hp p)
  | .loop i _ => holds s m (4 + i / 4) && writesTransport s m (i / 4)
  | .key _ _ => holds s m 1
  | .none => true

/-- The semaphore that a violation names (R79). -/
def spotSem (t : Spot) : Nat :=
  match t with
  | .page pg _ => guardSem pg
  | .loop i _ => 4 + i / 4
  | .key _ _ => 1
  | _ => 0x3F

/-! ### Reads -/

/-- A read of `SEM.LOCK[k]` (R69): the token or 0. -/
def lockRead (s : State) (m : Master) (k : Nat) : State × Nat :=
  let x := sem s k
  if x.holder = some m then
    let s := setSem s k { x with due := leaseClock s + x.lease * 1000000 }
    (semResult s m k 3, x.token.toNat)
  else if x.holder.isSome then (semResult s m k 1, 0)
  else if (List.range 32).any fun j => k < j && holds s m j then (semResult s m k 2, 0)
  else
    let s := grantSem s m k
    (semResult s m k 0, (sem s k).token.toNat)

/-- The value of a spot, 64 bits of it for a pair (`lo` is the offset of its LO half). -/
def spotValue (s : State) (m : Master) (t : Spot) : Nat :=
  match t with
  | .page pg off =>
    if off < 0x40 then (headerReg s pg off).toNat
    else match findRow (pageRows pg) off with
      | some (r, hi) => pageReg s m pg r (if hi then off - 4 else off)
      | none => 0
  | .sq p q off => sqReg s p q off
  | .cq p c off => if off = 0x08 then (cq s p c).base.toNat else cqReg s p c off
  | .err p i w => match tget ((port s p).errs.map fun e => (e.1, some e.2)) i none with
    | some e => leAt e.bytes (4 * w) 4
    | none => 0
  | .loop i off => loopReg s i off
  | .key k off => (keyWide s k off).getD (keyNarrow s k off)
  | .none => 0

/-- Mark an error-log entry read (R149). -/
def markErr (s : State) (p : Port) (i : Nat) : State :=
  modPort s p fun t => { t with errs := t.errs.map fun e => if e.1 = i then (e.1, { e.2 with read := true }) else e }

/-- A read of a dword that is answered: its value, with the side effects of R43. -/
def readSpot (s : State) (m : Master) (t : Spot) : State × Nat :=
  match t with
  | .page .sem off => if 0x40 ≤ off && off < 0xC0 then lockRead s m ((off - 0x40) / 4) else (s, spotValue s m t)
  | .err p i _ => (markErr s p i, spotValue s m t)
  | _ =>
    if isHi t then (s, (mst s m).hiShadow.toNat)
    else
      let v := spotValue s m t
      if isLo t then (modMst s m fun x => { x with hiShadow := w32 (v / 2 ^ 32) }, v % 2 ^ 32) else (s, v)

/-- A read of `POOL.META`: a Completer Abort where neither copy of the metadata can be read (R166, R176). -/
def metaAnswer (s : State) (m : Master) (t : Spot) (a : Nat) : State :=
  match generalAt s (mst s m).metaPtr.toNat with
  | some (p, i) =>
    let s := metaRead s p i
    if metaGone s p i then emit s (.completerAbort m) else let (s, v) := readSpot s m t; answer s m a v
  | none => let (s, v) := readSpot s m t; answer s m a v

/-- A read of one dword of BAR 0 (R31, R44, R78). -/
def mmioRead (s : State) (m : Master) (addr : Nat) : State :=
  let a := addr / 4 * 4
  let t := spotOf a
  if !served s m then s
  else if waits s m then hold s m (.read addr)
  else if !shown s t || reserved t || ((mst s m).frozen && !ownGroup m t) then answer s m a 0
  else match t with
    | .page .pool off =>
      if 0x800 ≤ off then windowAccess s m (off - 0x800) none
      else if 0x138 ≤ off && off < 0x140 then metaAnswer s m t a
      else let (s, v) := readSpot s m t; answer s m a v
    | _ => let (s, v) := readSpot s m t; answer s m a v

/-! ### Writes -/

/-- A page's RWL fields are locked (R43). -/
def locked (s : State) (pg : PageId) : Bool := (page s pg).enabled || (page s pg).draining

/-- A dword write of a register by its access types (R43). -/
def plainWrite (s : State) (pg : PageId) (r : RegRow) (off : Nat) (v : Word) : State :=
  let old := reg s pg off
  let lock := locked s pg && r.rwl != 0
  let mask := r.rw ||| (if lock then 0 else r.rwl)
  let new := ((old &&& ~~~mask) ||| (v &&& mask)) &&& ~~~(v &&& r.w1c)
  let s := if new = old then s else setReg s pg off new
  if lock then setEvt s pg 4 else s

/-- A write of `DEV.TRANSPORT_OWNER` (R64). -/
def ownerWrite (s : State) (m : Master) (v : Word) : State :=
  (List.range 16).foldl (fun s n =>
    let x := v.toNat / 4 ^ n % 4
    if x = 3 then s
    else match (sem s (4 + n)).holder with
      | some h =>
        if h != m then setEvt s .dev 11
        else if x = owner s n then s else setEvt (setOwner s n x) .dev 12
      | none => if x = owner s n then s else setEvt (setOwner s n x) .dev 12) s

/-- A write of `DEV.PORT_THAW` (R79, R81). -/
def thawWrite (s : State) (v : Word) : State :=
  [0, 1, 2].foldl (fun s i => if v.getLsbD i then thawMaster s (nthMaster i) else s) s

/-- A write of `SEM.LOCK[k]` (R70). -/
def lockWrite (s : State) (m : Master) (k : Nat) (v : Word) : State :=
  let x := sem s k
  if x.holder = some m && v.toNat % 65536 = x.token.toNat then semResult (setSem s k { x with holder := none }) m k 4
  else semResult s m k 5

/-- A write of `SEM.LEASE[k]` (R71). -/
def leaseWrite (s : State) (m : Master) (k : Nat) (v : Word) : State :=
  let x := sem s k
  let ms := v.toNat % 2 ^ 14
  if x.holder != some m then semResult s m k 6
  else if ms = 0 || 10000 < ms then semResult s m k 7
  else semResult (setSem s k { x with lease := ms, due := leaseClock s + ms * 1000000 }) m k 3

/-- A write of `POOL.OP`: a violation freezes the master (R185, R76). -/
def poolOp (s : State) (m : Master) (v : Word) : State :=
  match poolOperation (wake s 3) m v with
  | (s, none) => s
  | (s, some (cause, a)) => freezeMaster s m cause 0x3F a

/-- A write of `POOL.SHARE[n]` (R184): dropped while the FMT page of the transport is enabled or draining. -/
def shareWrite (s : State) (n : Nat) (r : RegRow) (off : Nat) (v : Word) : State :=
  if locked s (.fmt (tFin n)) then setEvt s .pool 4 else plainWrite s .pool r off v

/-- A write of `KEY.ALARM_EN` (R246): a source that is active when it is enabled becomes an alarm. -/
def alarmEnWrite (s : State) (r : RegRow) (off : Nat) (v : Word) : State :=
  let was := s.alarms.filter (srcEnabled s)
  let s := plainWrite s .key r off v
  (s.alarms.filter fun a => srcEnabled s a && !was.contains a).foldl alarmActs s

/-- A write of `TIM.CMD` (R436, R441). -/
def timCmd (s : State) (m : Master) (v : Word) : State :=
  let s := if v.getLsbD 0 then timeRuns s (timCmdStep s m) else s
  if v.getLsbD 1 then timeRuns s (timCmdSlew s) else s

/-- A write of the mailbox block of a port (R422, R423). -/
def mailWriteReg (s : State) (p : Port) (r : RegRow) (off : Nat) (v : Word) : State :=
  if off % 0x80 = 0 then mailStart s p v
  else if (port s p).mailBusy then s else plainWrite s .mgt r off v

/-- The header registers of a page (R37, R40, R41). -/
def headerWrite (s : State) (pg : PageId) (off : Nat) (v : Word) : State :=
  if off = 0x08 then ctrlWrite (if v.getLsbD 0 && pageGated s pg then wake s 4 else s) pg v
  else if off = 0x14 then modPage s pg fun x => { x with evt := x.evt &&& ~~~v }
  else if off = 0x18 then modPage s pg fun x => { x with evtEn := v &&& 0xFFFFFF1F }
  else if off = 0x1C then modPage s pg fun x => { x with sat := x.sat &&& ~~~v }
  else s

/-- A write of a register of a page from 0x040 on, by its row; registers that start something have a line of their own. -/
def blockWrite (s : State) (m : Master) (pg : PageId) (r : RegRow) (off : Nat) (v : Word) : State :=
  match pg with
  | .dev => if off = 0x048 then ownerWrite s m v else if off = 0x04C then thawWrite s v else s
  | .sem =>
    if off < 0xC0 then lockWrite s m ((off - 0x40) / 4) v
    else if 0x100 ≤ off && off < 0x180 then leaseWrite s m ((off - 0x100) / 4) v else s
  | .hp p => if off = 0x04C then (if v.getLsbD 0 then modPort s p fun t => { t with armed := true } else s)
      else plainWrite s pg r off v
  | .pool =>
    if off = 0x108 then poolOp s m v
    else if 0x0A0 ≤ off && off < 0x0E0 then shareWrite s ((off - 0x0A0) / 4) r off v
    else plainWrite s pg r off v
  | .key =>
    if off = 0x040 then slotOp s m v
    else if off = 0x044 then (if v.getLsbD 0 then zeroise s 5 (mIdx m) else s)
    else if off = 0x04C then alarmEnWrite s r off v
    else plainWrite s pg r off v
  | .link n => if off = 0x058 then progress (modeCtrl (if v.toNat % 8 != 0 then wake s 4 else s) n.val v) n.val
      else plainWrite s pg r off v
  | .fmt n => progress (plainWrite s pg r off v) n.val
  | .pwr => if off = 0x040 then stateReqOp s v else plainWrite s pg r off v
  | .tim => if off = 0x064 then timCmd s m v else plainWrite s pg r off v
  | .mgt =>
    if 0x100 ≤ off && off < 0x180 then mailWriteReg s .a r off v
    else if 0x180 ≤ off && off < 0x200 then mailWriteReg s .b r off v
    else plainWrite s pg r off v
  | .nva => if off = 0x060 then nvaBell s .a v else if off = 0x068 then nvaBell s .b v else plainWrite s pg r off v
  | .fwu => if off = 0x040 then fwuStepWrite s v else s
  | _ => plainWrite s pg r off v

/-- A configuration field of a queue is locked (R92). -/
def queueLocked (s : State) (p : Port) : State := setEvt s (.hp p) 4

/-- A write of a register of SQ `q` (R93). -/
def sqWrite (s : State) (p : Port) (q off : Nat) (v : Word) : State :=
  if off = 0x00 then sqCtrl s p q v
  else if off = 0x08 then
    if (sq s p q).enabled || (sq s p q).draining then queueLocked s p
    else modSq s p q fun x => { x with bind := v &&& 0x3F01FFFF }
  else s

/-- A write of a narrow register of CQ `c` (R94). -/
def cqWrite (s : State) (p : Port) (c off : Nat) (v : Word) : State :=
  let set (f : Cq → Cq) : State := if (cq s p c).enabled then queueLocked s p else modCq s p c f
  if off = 0x00 then cqCtrl s p c v
  else if off = 0x10 then set fun x => { x with size := BitVec.ofNat 17 v.toNat }
  else if off = 0x14 then set fun x => { x with irq := v &&& 0x00FF00FF }
  else if off = 0x18 then set fun x => { x with coalTime := BitVec.ofNat 16 v.toNat }
  else if off = 0x1C then cqHead s p c v
  else s

/-- A write of a loop's register (R394). -/
def loopWrite (s : State) (i off : Nat) (v : Word) : State :=
  match findRow loopRows off with
  | some (r, _) =>
    if off = 0x80 then loopCtrl s i v
    else if r.rw = 0 then s
    else modLoop s i fun l => { l with regs := tput l.regs off ((tget l.regs off 0 &&& ~~~r.rw) ||| (v &&& r.rw)) }
  | none => s

/-- The whole of a 64-bit register takes a value (R45). -/
def pairWrite (s : State) (m : Master) (t : Spot) (v : Nat) : State :=
  match t with
  | .page .pool off => modMst s m fun x =>
      if off < 0x108 then { x with opPtr := w64 v } else if off < 0x130 then { x with winBase := w64 v } else { x with metaPtr := w64 v }
  | .page .nva off => if locked s .nva then setEvt s .nva 4 else setReg64 s .nva (off / 8 * 8) v
  | .page pg off => setReg64 s pg (off / 8 * 8) v
  | .cq p c _ => if (cq s p c).enabled then queueLocked s p else modCq s p c fun x => { x with base := w64 v }
  | .key k _ => keyLabel s m k (w64 v)
  | _ => s

/-- The LO half of the pair of a spot. -/
def loSpot (t : Spot) : Spot :=
  match t with
  | .page pg off => .page pg (off / 8 * 8)
  | .cq p c _ => .cq p c 0x08
  | .key k off => .key k (off / 8 * 8)
  | t => t

/-- A write of the HI half at `a` (R45). -/
def hiWrite (s : State) (m : Master) (t : Spot) (a : Nat) (v : Word) : State :=
  let lo := match (mst s m).pendLo with
    | some (b, x) => if b + 4 = a then x.toNat else spotValue s m (loSpot t) % 2 ^ 32
    | none => spotValue s m (loSpot t) % 2 ^ 32
  pairWrite (modMst s m fun x => { x with pendLo := none }) m t (lo + 2 ^ 32 * v.toNat)

/-- A whole dword written by a master that has the right (R43, R45). -/
def applyWrite (s : State) (m : Master) (t : Spot) (a : Nat) (v : Word) : State :=
  if isLo t then (if writablePair t then modMst s m fun x => { x with pendLo := some (a, v) } else s)
  else if isHi t then (if writablePair t then hiWrite s m t a v else s)
  else match t with
    | .page pg off =>
      if off < 0x40 then headerWrite s pg off v
      else match findRow (pageRows pg) off with
        | some (r, _) => blockWrite s m pg r off v
        | none => if pg = .pool && 0x800 ≤ off then windowAccess s m (off - 0x800) (some v) else s
    | .sq p q off => sqWrite s p q off v
    | .cq p c off => cqWrite s p c off v
    | .loop i off => loopWrite s i off v
    | .key k off => if off < 0x60 then keyWord s m k (off / 4) v else s
    | _ => s

/-- The BAD_ACCESS bit of the writing port (R31). -/
def badAccess (s : State) (m : Master) : State :=
  match masterPort m with
  | some p => setEvt s (.hp p) 8
  | none => s

/-- A write of one dword of BAR 0 (R31, R45 to R47, R78). -/
def mmioWrite (s : State) (m : Master) (addr : Nat) (be : BitVec 4) (v : Word) : State :=
  let t := spotOf addr
  if !served s m || (mst s m).frozen || !shown s t then s
  else if waits s m then hold s m (.write addr be v)
  else if be != 0xF || addr % 4 != 0 then badAccess s m
  else if reserved t then s
  else if hasRight s m t then applyWrite s m t addr v
  else freezeMaster s m 1 (spotSem t) addr

/-- The dwords of a TLP from `addr` on, in ascending order (R31). Both halves of a pair written so take effect as one: the LO half
waits for its HI half, and nothing comes between them (R45). -/
def tlpWrite (s : State) (m : Master) (addr : Nat) : List (BitVec 4 × Word) → State
  | [] => s
  | (be, v) :: r => tlpWrite (mmioWrite s m addr be v) m (addr + 4) r

/-- A read of `n` dwords from `addr` on, in ascending order (R31): the HI half of a pair is the shadow that its LO half has just left
(R44). -/
def tlpRead (s : State) (m : Master) (addr : Nat) : Nat → State
  | 0 => s
  | n + 1 => tlpRead (mmioRead s m addr) m (addr + 4) n

/-- Apply an access that was held back. -/
def redo (s : State) (h : HeldAccess) : State :=
  match h.acc with
  | .read a => mmioRead s h.m a
  | .write a be v => mmioWrite s h.m a be v

/-- The accesses held back are applied in the order they were made; one whose fill still runs is held back again, and with it those
of its master behind it (R32, R192). -/
def serveHeld (s : State) : State := s.pool.held.foldl redo (modPool s fun t => { t with held := [] })

/-- The fill of the slot that starts at an address ends: its bytes are 0, and the accesses that waited for it are served (R170). -/
def fillDone (s : State) (a : Nat) : State :=
  match slotOf s a with
  | none => s
  | some (p, _) => serveHeld (setMeta (bufClear s a (slotSize p) (slotMeta s a).owner.toNat) a { slotMeta s a with filling := false })

/-- A dword of BAR 4 (R87): of the MSI-X table, of the pending bits, else 0. -/
def bar4Word (s : State) (p : Port) (off : Nat) : Nat :=
  if 0x40000 ≤ off && off < 0x40800 then (msixWord s p ((off - 0x40000) / 4)).toNat
  else if 0x41000 ≤ off && off < 0x41010 then
    bitsOf ((List.range 32).map fun i => (port s p).msixPba.contains (8 * (off - 0x41000) + i))
  else 0

/-- A dword read of BAR 2 or BAR 4, which the management core does not have: the windows read as zeros, and so does all of it for a
frozen master (R87, R78). -/
def barRead (s : State) (m : Master) (bar off : Nat) : State :=
  match masterPort m with
  | some p =>
    if !served s m then s
    else emit s (.barData m bar off (w32 (if bar == 4 && !(mst s m).frozen then bar4Word s p (off / 4 * 4) else 0)))
  | none => s

/-- A read of `n` dwords (R31, R44, R87). -/
def readFrom (s : State) (m : Master) (src : ReadAt) (n : Nat) : State :=
  match src with
  | .bar0 a => tlpRead s m a.toNat n
  | .bar2 off => (List.range n).foldl (fun s i => barRead s m 2 (off.toNat + 4 * i)) s
  | .bar4 off => (List.range n).foldl (fun s i => barRead s m 4 (off.toNat + 4 * i)) s

/-- A read whose SRAM reported a fault (R166, R167): an uncorrectable word gets a Completer Abort, a bus error for the core. -/
def sramRead (s : State) (m : Master) (f : SramFault) (go : State → State) : State :=
  let s := sramMet s f (mIdx m)
  if f.kind = .uncorrectable then emit s (.completerAbort m) else go s

/-- A write of a register of a page by a master, whole. -/
def regWrite (s : State) (m : Master) (pg : PageId) (off : Nat) (v : Word) : State := mmioWrite s m (pageBase pg + off) 0xF v

end Sys2Proof.Machine
end

