-- ==== Sys2Proof/Machine/RegRows.lean ====
section
/-! DEFINITION. The rows of register accesses (R43 to R48, R54, R55, R58, R61), of ownership and semaphores (R63 to R75, R81), and of
the host ports' links and resets (R23, R155, R399, R506). -/

namespace Sys2Proof.Machine

/-- A write of some action bits of `CTRL` that leaves ENABLE as it reads (R37). -/
def ctrlAction (s : State) (m : Master) (pg : PageId) (b : Word) : State := regWrite s m pg 0x08 (ctrlReg s pg ||| b)

/-- REGISTER_WRITE (R43, R31). -/
def execRegisterWrite (m : Master) (addr : BitVec 22) (be : BitVec 4) (v : Word) (more : List (BitVec 4 × Word)) (s : State) :
    Host.Outcome State Fault Refusal := finishIf (more.length < 1024) s (tlpWrite s m addr.toNat ((be, v) :: more))
/-- WRITE_LO (R45). -/
def execWriteLo (m : Master) (addr : BitVec 22) (v : Word) (s : State) : Host.Outcome State Fault Refusal :=
  finish s (mmioWrite s m addr.toNat 0xF v)
/-- WRITE_HI (R45). -/
def execWriteHi (m : Master) (addr : BitVec 22) (v : Word) (s : State) : Host.Outcome State Fault Refusal :=
  finish s (mmioWrite s m addr.toNat 0xF v)
/-- A register read, where an SRAM may have failed (R44, R87, R166). An uncorrectable word of the management TCM resets the formatter
(R167). -/
def readRow (s : State) (m : Master) (src : ReadAt) (n : Nat) (sram : Option SramFault) : State :=
  match sram with
  | some f =>
    if served s m && f.part == .tcm && f.kind == .uncorrectable then resetAndStart s .tcmUncorrectable
    else if served s m && !waits s m then sramRead s m f fun s => readFrom s m src n else readFrom s m src n
  | none => readFrom s m src n

/-- READ_LO (R44). -/
def execReadLo (m : Master) (src : ReadAt) (more : Fin 1024) (sram : Option SramFault) (s : State) :
    Host.Outcome State Fault Refusal := finish s (readRow s m src (more.val + 1) sram)
/-- ENABLE (R48). -/
def execEnable (m : Master) (pg : PageId) (s : State) : Host.Outcome State Fault Refusal := finish s (regWrite s m pg 0x08 1)
/-- DISABLE (R54). -/
def execDisable (m : Master) (pg : PageId) (s : State) : Host.Outcome State Fault Refusal := finish s (regWrite s m pg 0x08 0)
/-- ABORT (R55). -/
def execAbort (m : Master) (pg : PageId) (s : State) : Host.Outcome State Fault Refusal := finish s (ctrlAction s m pg 2)
/-- DRAIN_END (R54). -/
def execDrainEnd (pg : PageId) (s : State) : Host.Outcome State Fault Refusal := finish s (drainCheck s pg)
/-- CLR_COUNTERS (R58). -/
def execClrCounters (m : Master) (pg : PageId) (s : State) : Host.Outcome State Fault Refusal := finish s (ctrlAction s m pg 4)
/-- EVT_REARM (R61). -/
def execEvtRearm (m : Master) (p : Port) (s : State) : Host.Outcome State Fault Refusal := finish s (regWrite s m (.hp p) 0x04C 1)
/-- TRANSPORT_OWNER_WRITE (R64). -/
def execTransportOwnerWrite (m : Master) (v : Word) (s : State) : Host.Outcome State Fault Refusal :=
  finish s (regWrite s m .dev 0x048 v)
/-- PORT_THAW (R81). -/
def execPortThaw (m : Master) (v : Word) (s : State) : Host.Outcome State Fault Refusal := finish s (regWrite s m .dev 0x04C v)
/-- SEM_LOCK_READ (R69). -/
def execSemLockRead (m : Master) (k : Fin 32) (s : State) : Host.Outcome State Fault Refusal :=
  finish s (mmioRead s m (0x1040 + 4 * k.val))
/-- SEM_LOCK_WRITE (R70). -/
def execSemLockWrite (m : Master) (k : Fin 32) (v : Word) (s : State) : Host.Outcome State Fault Refusal :=
  finish s (regWrite s m .sem (0x040 + 4 * k.val) v)
/-- SEM_LEASE_WRITE (R71). -/
def execSemLeaseWrite (m : Master) (k : Fin 32) (v : Word) (s : State) : Host.Outcome State Fault Refusal :=
  finish s (regWrite s m .sem (0x100 + 4 * k.val) v)

/-- A lease runs out (R74); leases stand still in an activation pause (R75). -/
def leaseEnd (s : State) (k : Nat) : State := if s.fwu.paused then s else forceRelease s k 0

/-- LEASE_EXPIRY (R74). -/
def execLeaseExpiry (k : Fin 32) (s : State) : Host.Outcome State Fault Refusal := finish s (leaseEnd s k.val)

/-! ### Host ports -/

/-- A port is reset (R155). PERST_N goes low and ends LANTERN (R409); with it, or at a link down, the link goes. -/
def portResetRow (s : State) (p : Port) (kind : ResetKind) : State :=
  let s := portResetOp s p
  match kind with
  | .hot => s
  | .flr => s
  | .linkDown => portLinkDown s p
  | .perst => endLantern (modPort (portLinkDown s p) p fun t => { t with perstHigh := false }) false

/-- PORT_RESET (R155). -/
def execPortReset (p : Port) (kind : ResetKind) (s : State) : Host.Outcome State Fault Refusal := finish s (portResetRow s p kind)
/-- PERST_N_DEASSERT (R399): the link may train from now on. -/
def execPerstNDeassert (p : Port) (s : State) : Host.Outcome State Fault Refusal :=
  finish s (modPort s p fun t => { t with perstHigh := true })

/-- The function of a port goes to D0 with the effect of a port reset (R506). -/
def toD0 (s : State) (p : Port) : State :=
  if (port s p).d3hot then modPort (portResetOp s p) p fun t => { t with d3hot := false } else s

/-- D3HOT_TO_D0 (R506). -/
def execD3hotToD0 (p : Port) (s : State) : Host.Outcome State Fault Refusal := finish s (toD0 s p)
/-- D3HOT_ENTRY (R506): a function whose link is up goes to D3hot. -/
def execD3hotEntry (p : Port) (s : State) : Host.Outcome State Fault Refusal :=
  finish s (modPort s p fun t => { t with d3hot := t.d3hot || t.linkUp })

/-- A port's reference is lost: its link goes down (R23). -/
def refLost (s : State) (p : Port) : State :=
  let s := if (port s p).linkUp then portLinkDown (portResetOp s p) p else s
  modPort s p fun t => { t with refclk := false }

/-- REFCLK_LOSS (R23). -/
def execRefclkLoss (p : Port) (s : State) : Host.Outcome State Fault Refusal := finish s (refLost s p)
/-- REFCLK_RESTORED (R23): the link may train again. -/
def execRefclkRestored (p : Port) (s : State) : Host.Outcome State Fault Refusal :=
  finish s (modPort s p fun t => { t with refclk := true })

/-- A port's link comes up: its PHY is powered, its reference present, PERST_N high (R399, R90). -/
def linkComes (s : State) (p : Port) (rate : BitVec 3) (width : BitVec 5) : State :=
  let t := port s p
  if t.perstHigh && t.refclk && s.pwr.clkreq.contains p && !t.linkUp then
    modPort s p fun t => { t with linkUp := true, rate := rate, width := width }
  else s

/-- HOST_LINK_UP (R90). -/
def execHostLinkUp (p : Port) (rate : BitVec 3) (width : BitVec 5) (s : State) : Host.Outcome State Fault Refusal :=
  finishIf (rateOk rate && widthOk width) s (linkComes s p rate width)

end Sys2Proof.Machine
end

