-- ==== Sys2Proof/Machine/QueueRows.lean ====
section
/-! DEFINITION. The rows of capsules, completion queues and submission queues (R93 to R98, R122, R125, R149 to R151), of the
formatter's DMA reads (R107, R111, R458, R507), and of ACTIVATE_FIRMWARE (R119). -/

namespace Sys2Proof.Machine

/-- Address of a register of SQ `q` of a port (R89). -/
def sqAddr (p : Port) (q off : Nat) : Nat := 0x10000 + 0x10000 * pIdx p + 0x1000 + 0x40 * q + off
/-- Address of a register of CQ `c` of a port. -/
def cqAddr (p : Port) (c off : Nat) : Nat := 0x10000 + 0x10000 * pIdx p + 0x2000 + 0x40 * c + off
/-- Address of word `w` of error-log entry `i` of a port. -/
def errAddr (p : Port) (i w : Nat) : Nat := 0x10000 + 0x10000 * pIdx p + 0x4000 + 0x40 * i + 4 * w

/-- CAPSULE_WRITE (R98). -/
def execCapsuleWrite (p : Port) (off : BitVec 19) (bytes : List Byte) (s : State) : Host.Outcome State Fault Refusal :=
  finishIf (burstOk bytes) s (bar4Write s p off.toNat bytes)
/-- SQ_ENABLE (R95). -/
def execSqEnable (m : Master) (p : Port) (q : Fin 64) (s : State) : Host.Outcome State Fault Refusal :=
  finish s (mmioWrite s m (sqAddr p q.val 0) 0xF 1)
/-- SQ_DISABLE (R97). -/
def execSqDisable (m : Master) (p : Port) (q : Fin 64) (s : State) : Host.Outcome State Fault Refusal :=
  finish s (mmioWrite s m (sqAddr p q.val 0) 0xF 0)
/-- SQ_ABORT (R93). -/
def execSqAbort (m : Master) (p : Port) (q : Fin 64) (s : State) : Host.Outcome State Fault Refusal :=
  finish s (mmioWrite s m (sqAddr p q.val 0) 0xF 2)
/-- RESUME (R150). -/
def execResume (m : Master) (p : Port) (q : Fin 64) (s : State) : Host.Outcome State Fault Refusal :=
  finish s (mmioWrite s m (sqAddr p q.val 0) 0xF 5)
/-- DISCARD (R151). -/
def execDiscard (m : Master) (p : Port) (q : Fin 64) (s : State) : Host.Outcome State Fault Refusal :=
  finish s (mmioWrite s m (sqAddr p q.val 0) 0xF 9)
/-- CQ_ENABLE (R95). -/
def execCqEnable (m : Master) (p : Port) (c : Fin 64) (ien : Bool) (s : State) : Host.Outcome State Fault Refusal :=
  finish s (mmioWrite s m (cqAddr p c.val 0) 0xF (if ien then 5 else 1))
/-- CQ_DISABLE (R95). -/
def execCqDisable (m : Master) (p : Port) (c : Fin 64) (ien : Bool) (s : State) : Host.Outcome State Fault Refusal :=
  finish s (mmioWrite s m (cqAddr p c.val 0) 0xF (if ien then 4 else 0))
/-- CQ_HEAD_WRITE (R122). -/
def execCqHeadWrite (m : Master) (p : Port) (c : Fin 64) (v : Word) (s : State) : Host.Outcome State Fault Refusal :=
  finish s (mmioWrite s m (cqAddr p c.val 0x1C) 0xF v)

/-- The oldest waiting entry of a CQ is posted, and what waited for it goes on (R122). -/
def cqPostRow (s : State) (p : Port) (c : Nat) : State :=
  let x := cq s p c
  if x.waiting.isEmpty || !x.enabled || cqFull x || s.fwu.paused || (port s p).d3hot then s else progressAll (cqPostNext s p c)

/-- CQ_POST (R122). -/
def execCqPost (p : Port) (c : Fin 64) (s : State) : Host.Outcome State Fault Refusal := finish s (cqPostRow s p c.val)
/-- COAL_TIME_EXPIRY (R125). -/
def execCoalTimeExpiry (p : Port) (c : Fin 64) (s : State) : Host.Outcome State Fault Refusal := finish s (coalExpire s p c.val)

/-- A read of the error-log window; an uncorrectable word of its SRAM gets a Completer Abort (R149, R167). -/
def errRead (s : State) (m : Master) (p : Port) (i w : Nat) (sram : Option SramFault) : State :=
  let a := errAddr p i w
  let t := spotOf a
  match sram with
  | some f => if !served s m || waits s m || !shown s t || ((mst s m).frozen && !ownGroup m t) then mmioRead s m a
      else sramRead s m f fun s => mmioRead s m a
  | none => mmioRead s m a

/-- ERRLOG_WINDOW_READ (R149). -/
def execErrlogWindowRead (m : Master) (p : Port) (i : Fin 256) (w : Fin 16) (sram : Option SramFault) (s : State) :
    Host.Outcome State Fault Refusal := finish s (errRead s m p i.val w.val sram)

/-- Data of a DMA read arrives (R107, R111, R458). -/
def dmaArrives (s : State) (tgt : DmaTarget) (bs : List Byte) : State :=
  match tgt with
  | .recordList cid => if !waitsDma s cid 1 then s else if s.fwu.paused then keepDma s cid bs else progressOf (cmdDma s cid
        (4 * leAt (cmd s cid).bytes 20 4) bs fun s d => listArrived s cid d) cid
  | .scatter cid => if !waitsDma s cid 2 then s else if s.fwu.paused then keepDma s cid bs
      else progressOf (cmdDma s cid 16 bs fun s d => scatterArrived s cid d) cid
  | .descriptor p => descData s p bs

/-- A DMA read fails (R507, R463). -/
def dmaFails (s : State) (tgt : DmaTarget) : State :=
  match tgt with
  | .recordList cid => if waitsDma s cid 1 then progressOf (cmdDmaFail s cid) cid else s
  | .scatter cid => if waitsDma s cid 2 then progressOf (cmdDmaFail s cid) cid else s
  | .descriptor p => descFail s p

/-- DMA_READ_COMPLETION (R107, R111, R458). -/
def execDmaReadCompletion (tgt : DmaTarget) (bytes : List Byte) (s : State) : Host.Outcome State Fault Refusal :=
  finish s (dmaArrives s tgt bytes)
/-- DMA_READ_FAILURE (R507). -/
def execDmaReadFailure (tgt : DmaTarget) (s : State) : Host.Outcome State Fault Refusal := finish s (dmaFails s tgt)
/-- ACTIVATE_FIRMWARE (R119). -/
def execActivateFirmware (cid : Nat) (s : State) : Host.Outcome State Fault Refusal :=
  finish s (if atStart s cid 0x30 then activateCmd s cid else s)

end Sys2Proof.Machine
end

