-- ==== Sys2Proof/Machine/PoolRows.lean ====
section
/-! DEFINITION. The rows of the shared memory and its pools (R170, R171, R187, R188, R192, R511), of the key store (R244 to R248, R259),
of the servo loops' controls (R384 to R387) and of the transport's mode control (R352, R365, R366). -/

namespace Sys2Proof.Machine

/-! ### Pools -/

/-- A write of `POOL.OP` (R511). -/
def poolWrite (s : State) (m : Master) (v : Nat) : State := regWrite s m .pool 0x108 (w32 v)

/-- The pool of a request. One that names a size gets the pool of the smallest slots that hold it (R183); where no slot does, it is
answered as one of pool 5, which there is none of. -/
def wantedPool : PoolWant → BitVec 3
  | .pool p => p
  | .size n => BitVec.ofNat 3 (([0, 1, 3, 2, 4].find? fun p => n ≤ slotSize p).getD 5)

/-- ALLOC (R511). -/
def execAlloc (m : Master) (want : PoolWant) (s : State) : Host.Outcome State Fault Refusal :=
  finishIf (wantOk m want) s (poolWrite s m (1 + 16 * (wantedPool want).toNat))
/-- ALLOC_WAIT (R511). -/
def execAllocWait (m : Master) (want : PoolWant) (s : State) : Host.Outcome State Fault Refusal :=
  finishIf (wantOk m want) s (poolWrite s m (2 + 16 * (wantedPool want).toNat))
/-- SHARE (R188). -/
def execShare (m : Master) (target : BitVec 6) (s : State) : Host.Outcome State Fault Refusal :=
  finish s (poolWrite s m (3 + 256 * target.toNat))
/-- RELEASE (R187). -/
def execRelease (m : Master) (s : State) : Host.Outcome State Fault Refusal := finish s (poolWrite s m 4)
/-- CANCEL_WAIT (R511). -/
def execCancelWait (m : Master) (pool : BitVec 3) (s : State) : Host.Outcome State Fault Refusal :=
  finish s (poolWrite s m (5 + 16 * pool.toNat))

/-- An access of the slot window by address (R192). -/
def windowRow (s : State) (m : Master) (off : Nat) (be : BitVec 4) (wr : Option Word) : State :=
  match wr with
  | some v => mmioWrite s m (0x8800 + off) be v
  | none => mmioRead s m (0x8800 + off)

/-- SLOT_WINDOW_ACCESS (R192). -/
def execSlotWindowAccess (m : Master) (off : BitVec 11) (be : BitVec 4) (wr : Option Word) (s : State) :
    Host.Outcome State Fault Refusal := finish s (windowRow s m off.toNat be wr)
/-- The end of a slot's zero fill lets what waited for it go on; where none runs it changes nothing (R170). -/
def fillRow (s : State) (addr : Nat) : State := if fillOf s addr then progressAll (fillDone s addr) else s

/-- SLOT_FILL_DONE (R170). -/
def execSlotFillDone (addr : Nat) (s : State) : Host.Outcome State Fault Refusal := finish s (fillRow s addr)
/-- SCRUB_ROW (R171). -/
def execScrubRow (ch : Fin 32) (found : List ScrubFinding) (s : State) : Host.Outcome State Fault Refusal :=
  finishIf (found.all findingOk) s (scrubOp s ch.val found)

/-! ### Keys -/

/-- Address of a byte of a key slot's group (R242). -/
def keyAddr (k off : Nat) : Nat := 0xA0000 + 0x80 * k + off

/-- KEY_WORD_WRITE (R244). -/
def execKeyWordWrite (m : Master) (st : Fin 128) (k : Fin 3) (w : Fin 8) (v : Word) (s : State) : Host.Outcome State Fault Refusal :=
  finish s (mmioWrite s m (keyAddr st.val (0x20 * k.val + 4 * w.val)) 0xF v)

/-- A write of both halves of LABEL, LO first (R45, R244). -/
def labelBoth (s : State) (m : Master) (k : Nat) (v : DWord) : State :=
  mmioWrite (mmioWrite s m (keyAddr k 0x60) 0xF (v.setWidth 32)) m (keyAddr k 0x64) 0xF ((v >>> 32).setWidth 32)

/-- LABEL_WRITE (R244). -/
def execLabelWrite (m : Master) (st : Fin 128) (v : DWord) (s : State) : Host.Outcome State Fault Refusal :=
  finish s (labelBoth s m st.val v)
/-- COMMIT (R248). -/
def execCommit (m : Master) (st : Fin 128) (s : State) : Host.Outcome State Fault Refusal :=
  finish s (regWrite s m .key 0x040 (w32 (0x100 + st.val)))
/-- ERASE (R244). -/
def execErase (m : Master) (st : Fin 128) (s : State) : Host.Outcome State Fault Refusal :=
  finish s (regWrite s m .key 0x040 (w32 (0x200 + st.val)))
/-- KEY_ZEROISE_WRITE (R259). -/
def execKeyZeroiseWrite (m : Master) (s : State) : Host.Outcome State Fault Refusal := finish s (regWrite s m .key 0x044 1)
/-- ALARM_SOURCE_ACTIVE (R259). -/
def execAlarmSourceActive (src : AlarmSrc) (s : State) : Host.Outcome State Fault Refusal := finish s (alarmOn s src)
/-- ALARM_CLEARED (R246): the source goes inactive. -/
def execAlarmCleared (src : AlarmSrc) (s : State) : Host.Outcome State Fault Refusal := finish s (alarmOff s src)

/-! ### Loops -/

/-- Address of `LOOP_CTRL` of loop `i` (R394). -/
def loopCtrlAddr (i : Nat) : Nat := 0x91000 + 0x100 * i + 0x80

/-- A write of an action bit of `LOOP_CTRL` that leaves MANUAL as it reads. -/
def loopAction (s : State) (m : Master) (i b : Nat) : State :=
  mmioWrite s m (loopCtrlAddr i) 0xF (w32 (loopReg s i 0x80 % 2 + b))

/-- MANUAL (R385). -/
def execManual (m : Master) (i : Fin 64) (v : Word) (s : State) : Host.Outcome State Fault Refusal :=
  finish s (mmioWrite s m (loopCtrlAddr i.val) 0xF v)
/-- APPLY (R387). -/
def execApply (m : Master) (i : Fin 64) (s : State) : Host.Outcome State Fault Refusal := finish s (loopAction s m i.val 2)
/-- CLEAR_TABLE (R384). -/
def execClearTable (m : Master) (i : Fin 64) (s : State) : Host.Outcome State Fault Refusal := finish s (loopAction s m i.val 4)

/-! ### Mode control and the bridge's mailbox -/

/-- ENTER_SERVICE (R366). -/
def execEnterService (m : Master) (n : Fin 16) (s : State) : Host.Outcome State Fault Refusal :=
  finish s (regWrite s m (.link n) 0x058 1)
/-- EXIT_SERVICE (R366). -/
def execExitService (m : Master) (n : Fin 16) (s : State) : Host.Outcome State Fault Refusal :=
  finish s (regWrite s m (.link n) 0x058 2)
/-- CLEAR_FAULT (R365). -/
def execClearFault (m : Master) (n : Fin 16) (s : State) : Host.Outcome State Fault Refusal :=
  finish s (regWrite s m (.link n) 0x058 4)
/-- MAILBOX_UP (R352). -/
def execMailboxUp (n : Fin 16) (flit : LinkFlit) (s : State) : Host.Outcome State Fault Refusal :=
  finishIf (flitOk flit) s (mbxRow s n.val 0x83 flit fun s => bridgeAnswer s n.val flit.bytes)

end Sys2Proof.Machine
end

