-- ==== Sys2Proof/Machine/PowerRows.lean ====
section
/-! DEFINITION. The rows of power, resets and sensors (R21, R23, R398 to R419, R496), and of the management core: the mailbox (R423),
the log (R428), SMBus (R494), the service port's link and neighbors (R430, R493) and time (R436, R439). -/

namespace Sys2Proof.Machine

/-! ### Power and start -/

/-- TCXO_LOSS (R23). -/
def execTcxoLoss (s : State) : Host.Outcome State Fault Refusal := finish s (tcxoLossOp s)
/-- TCXO_RESUME (R23). -/
def execTcxoResume (s : State) : Host.Outcome State Fault Refusal := finish s (tcxoResumeOp s)
/-- POWER_GOOD (R398). -/
def execPowerGood (s : State) : Host.Outcome State Fault Refusal := finish s (powerGoodOp s)
/-- READY (R398). -/
def execReady (failed : BitVec 32) (s : State) : Host.Outcome State Fault Refusal := finish s (readyOp s failed)
/-- WATCHDOG_EXPIRY (R416). -/
def execWatchdogExpiry (s : State) : Host.Outcome State Fault Refusal := finish s (watchdogOp s)
/-- PWR_EN_LOW (R401). -/
def execPwrEnLow (s : State) : Host.Outcome State Fault Refusal := finish s (pwrEnLowOp s)
/-- PWR_EN_HIGH (R496). -/
def execPwrEnHigh (s : State) : Host.Outcome State Fault Refusal := finish s (pwrEnHighOp s)
/-- VIN_DIP (R496). -/
def execVinDip (s : State) : Host.Outcome State Fault Refusal := finish s (vinDipOp s)
/-- VIN_RECOVER (R496). -/
def execVinRecover (s : State) : Host.Outcome State Fault Refusal := finish s (vinRecoverOp s)
/-- POWER_FAIL (R411). -/
def execPowerFail (s : State) : Host.Outcome State Fault Refusal := finish s (powerFailOp s)
/-- POWER_RETURN (R412). -/
def execPowerReturn (s : State) : Host.Outcome State Fault Refusal := finish s (powerReturnOp s)
/-- HOLDUP_EXHAUSTED (R411). -/
def execHoldupExhausted (s : State) : Host.Outcome State Fault Refusal := finish s (holdupEmpty s)
/-- HOLDUP_CHARGED (R410). -/
def execHoldupCharged (s : State) : Host.Outcome State Fault Refusal := finish s (holdupCharged s)
/-- HOLDUP_DEGRADED (R410). -/
def execHoldupDegraded (s : State) : Host.Outcome State Fault Refusal := finish s (holdupLate s)
/-- STATE_REQ (R405). -/
def execStateReq (m : Master) (v : Word) (s : State) : Host.Outcome State Fault Refusal := finish s (regWrite s m .pwr 0x040 v)
/-- BIVOUAC_IDLE_EXPIRY (R406). -/
def execBivouacIdleExpiry (s : State) : Host.Outcome State Fault Refusal := finish s (bivouacIdle s)
/-- BIVOUAC_ENTRY (R406). -/
def execBivouacEntry (s : State) : Host.Outcome State Fault Refusal := finish s (bivouacOp s)
/-- DOMAIN_IDLE_EXPIRY (R407). -/
def execDomainIdleExpiry (d : Fin 80) (s : State) : Host.Outcome State Fault Refusal := finish s (domainIdle s d.val)
/-- DOMAIN_GATE (R21). -/
def execDomainGate (d : Fin 80) (s : State) : Host.Outcome State Fault Refusal := finish s (domainGateOp s d.val)
/-- LANTERN_ENTRY (R408). -/
def execLanternEntry (s : State) : Host.Outcome State Fault Refusal := finish s (lanternOp s)
/-- LANTERN_WAKE (R409). -/
def execLanternWake (s : State) : Host.Outcome State Fault Refusal := finish s (lanternTimer s)
/-- LANTERN_EXIT (R409). -/
def execLanternExit (failed : BitVec 32) (s : State) : Host.Outcome State Fault Refusal := finish s (lanternDone s failed)

/-- The management core reads a sensor while it runs (R418, R419). -/
def sensorRow (s : State) (k : Nat) (v : BitVec 16) (valid : Bool) : State := if coreServes s then sensorOp s k v valid else s

/-- SENSOR_SAMPLE (R419). -/
def execSensorSample (k : Fin 64) (v : BitVec 16) (valid : Bool) (s : State) : Host.Outcome State Fault Refusal :=
  finishIf (k.val < 50) s (sensorRow s k.val v valid)

/-! ### Mailbox and log -/

/-- IDENTIFY (R423). -/
def execIdentify (p : Port) (s : State) : Host.Outcome State Fault Refusal := finish s (mailRequest s p 1)
/-- SETTINGS_SAVE (R423). -/
def execSettingsSave (p : Port) (s : State) : Host.Outcome State Fault Refusal := finish s (mailRequest s p 2)
/-- SETTINGS_CLEAR (R423). -/
def execSettingsClear (p : Port) (s : State) : Host.Outcome State Fault Refusal := finish s (mailRequest s p 3)
/-- LOG_MARK (R423). -/
def execLogMark (p : Port) (s : State) : Host.Outcome State Fault Refusal := finish s (mailRequest s p 4)
/-- BRIDGE_MAILBOX (R423). -/
def execBridgeMailbox (p : Port) (s : State) : Host.Outcome State Fault Refusal := finish s (mailRequest s p 5)
/-- MAILBOX_DONE (R423). -/
def execMailboxDone (p : Port) (s : State) : Host.Outcome State Fault Refusal := finish s (mailDone s p)
/-- LOG_SUMMARY (R428). -/
def execLogSummary (s : State) : Host.Outcome State Fault Refusal := finish s (summarise s)

/-! ### SMBus and the service port -/

/-- The data of the SMBus ALARMS word: the low byte of ALARM_LIVE, then that of ALARM_LATCH (R494). -/
def alarmPair (s : State) : List Byte := leBytes 1 (alarmLive s).toNat ++ leBytes 1 (reg s .mgt 0x04C).toNat

/-- SMB_IDENTIFY (R494). -/
def execSmbIdentify (s : State) : Host.Outcome State Fault Refusal := finish s (smbRead s (identifyBytes s))
/-- SMB_SENSORS (R494). -/
def execSmbSensors (s : State) : Host.Outcome State Fault Refusal := finish s (smbRead s (sensorBytes s))
/-- SMB_ALARMS (R494). -/
def execSmbAlarms (s : State) : Host.Outcome State Fault Refusal := finish s (smbRead s (alarmPair s))
/-- SMB_STATE (R494). -/
def execSmbState (s : State) : Host.Outcome State Fault Refusal := finish s (smbRead s (leBytes 1 (smbStateByte s)))
/-- ALERT_RESPONSE (R494). -/
def execAlertResponse (s : State) : Host.Outcome State Fault Refusal := finish s (if smbAlert s then emit s (.smbus [0x5C]) else s)
/-- PHY_LINK_CHANGE (R493). -/
def execPhyLinkChange (up : Bool) (s : State) : Host.Outcome State Fault Refusal := finish s (modFsp s fun f => { f with phyUp := up })
/-- ICMPV6_ECHO (R430). -/
def execIcmpv6Echo (msg : List Byte) (s : State) : Host.Outcome State Fault Refusal := finish s (icmpOp s msg)

/-! ### Time -/

/-- STEP (R436). -/
def execStep (m : Master) (s : State) : Host.Outcome State Fault Refusal := finish s (regWrite s m .tim 0x064 1)
/-- SLEW (R436). -/
def execSlew (m : Master) (s : State) : Host.Outcome State Fault Refusal := finish s (regWrite s m .tim 0x064 2)
/-- PTP_SYNC (R439). -/
def execPtpSync (s : State) : Host.Outcome State Fault Refusal := finish s (ptpSyncOp s)
/-- PTP_ANNOUNCE (R439). -/
def execPtpAnnounce (s : State) : Host.Outcome State Fault Refusal := finish s (ptpAnnounceOp s)
/-- PTP_DELAY_REQ (R439). -/
def execPtpDelayReq (msg : List Byte) (s : State) : Host.Outcome State Fault Refusal := finish s (ptpDelayOp s msg)
/-- FOREIGN_ANNOUNCE (R439). -/
def execForeignAnnounce (msg : List Byte) (s : State) : Host.Outcome State Fault Refusal := finish s (foreignOp s msg)

end Sys2Proof.Machine
end

