-- ==== Sys2Proof/Machine/FspRows.lean ====
section
/-! DEFINITION. The rows of FSP requests (R432, R433) and of the firmware update (R473 to R481), and of the NV array's descriptor queues
(R444, R458, R460). -/

namespace Sys2Proof.Machine

/-! ### Sessions and reports -/

/-- SESSION_OPEN (R432). -/
def execSessionOpen (dg : List Byte) (s : State) : Host.Outcome State Fault Refusal :=
  finish s (fspRow s dg 0x01 (· == 0) false [] openOp)
/-- AUTH (R432): a nonce and a proof. -/
def execAuth (dg : List Byte) (s : State) : Host.Outcome State Fault Refusal :=
  finish s (fspRow s dg 0x02 (· == 80) false [] authOp)
/-- SESSION_CLOSE (R433). -/
def execSessionClose (dg : List Byte) (s : State) : Host.Outcome State Fault Refusal :=
  finish s (fspRow s dg 0x03 (· == 0) false [] closeOp)

/-- A session has heard nothing for 60 s (R432). -/
def sessionEnd (s : State) (id : Nat) : State := if coreServes s then closeSession s id else s

/-- FSP_SESSION_TIMEOUT (R432). -/
def execFspSessionTimeout (id : Nat) (s : State) : Host.Outcome State Fault Refusal := finish s (sessionEnd s id)
/-- LOCKOUT_EXPIRY (R432). -/
def execLockoutExpiry (s : State) : Host.Outcome State Fault Refusal := finish s (lockoutEnd s)
/-- FSP IDENTIFY (R433). -/
def execFspIdentify (dg : List Byte) (s : State) : Host.Outcome State Fault Refusal :=
  finish s (fspRow s dg 0x10 (· == 0) false [] fun s r => reply s r 0 (identifyBytes s))

/-- SENSORS of FSP (R433). -/
def sensorsOp (s : State) (r : FspReq) : State :=
  reply s r 0 (sensorBytes s ++ leBytes 4 (alarmLive s).toNat ++ leBytes 4 (reg s .mgt 0x04C).toNat)

/-- SENSORS (R433). -/
def execSensors (dg : List Byte) (s : State) : Host.Outcome State Fault Refusal :=
  finish s (fspRow s dg 0x11 (· == 0) false [] sensorsOp)

/-- LOG_READ of FSP (R433, R429). -/
def logReadOp (s : State) (r : FspReq) : State := reply s r 0 (eventEntries s (leAt r.body 0 4) 21).flatten

/-- LOG_READ (R433). -/
def execLogRead (dg : List Byte) (s : State) : Host.Outcome State Fault Refusal :=
  finish s (fspRow s dg 0x12 (· == 4) false [] logReadOp)

/-- TIME_STATUS of FSP (R433). -/
def timeStatusOp (s : State) (r : FspReq) : State :=
  reply s r 0 (leBytes 4 (timStat s) ++ leBytes 8 (now s) ++ leBytes 4 (u32 s.tim.ppsErr))

/-- TIME_STATUS (R433). -/
def execTimeStatus (dg : List Byte) (s : State) : Host.Outcome State Fault Refusal :=
  finish s (fspRow s dg 0x13 (· == 0) false [] timeStatusOp)

/-! ### Owner requests -/

/-- THAW (R433). -/
def execThaw (dg : List Byte) (s : State) : Host.Outcome State Fault Refusal := finish s (fspRow s dg 0x20 (· == 1) true [] thawOp)
/-- FSP ZEROISE (R433). -/
def execFspZeroise (dg : List Byte) (s : State) : Host.Outcome State Fault Refusal :=
  finish s (fspRow s dg 0x21 (· == 0) true [] fspZero)
/-- RESET (R433). -/
def execReset (dg : List Byte) (s : State) : Host.Outcome State Fault Refusal := finish s (fspRow s dg 0x22 (· == 0) true [] resetOp)
/-- OWNER_LOCK (R433). -/
def execOwnerLock (dg : List Byte) (s : State) : Host.Outcome State Fault Refusal :=
  finish s (fspRow s dg 0x23 (· == 1) true [] lockOp)
/-- FLEET (R433). -/
def execFleet (dg : List Byte) (s : State) : Host.Outcome State Fault Refusal := finish s (fspRow s dg 0x24 (· == 1) true [] fleetOp)
/-- OWNER_KEY (R433). -/
def execOwnerKey (dg : List Byte) (s : State) : Host.Outcome State Fault Refusal :=
  finish s (fspRow s dg 0x25 (fun _ => true) false [] keyOp)
/-- NET_CONFIG (R433): an address, or none. -/
def execNetConfig (dg : List Byte) (s : State) : Host.Outcome State Fault Refusal :=
  finish s (fspRow s dg 0x26 (fun n => n == 0 || n == 16) true [] netOp)
/-- FSP BRIDGE_MAILBOX (R433). -/
def execFspBridgeMailbox (dg : List Byte) (s : State) : Host.Outcome State Fault Refusal :=
  finish s (fspRow s dg 0x27 (fun _ => true) true [] fspBridge)

/-! ### Firmware update -/

/-- An update request (R473): its answers begin with `FWU.STATE`. -/
def updRow (s : State) (dg : List Byte) (op : Nat) (len : Nat → Bool) (own : Bool) (f : State → FspReq → State) : State :=
  fspRow s dg op len own (leBytes 4 (fwuState s).toNat) f

/-- DL_BEGIN (R473). -/
def execDlBegin (dg : List Byte) (s : State) : Host.Outcome State Fault Refusal := finish s (updRow s dg 0x40 (· == 4) true beginOp)
/-- DL_DATA (R473). -/
def execDlData (dg : List Byte) (s : State) : Host.Outcome State Fault Refusal :=
  finish s (updRow s dg 0x41 (fun n => 4 ≤ n && n ≤ 1028) true dataOp)
/-- DL_CHUNK (R473). -/
def execDlChunk (dg : List Byte) (s : State) : Host.Outcome State Fault Refusal := finish s (updRow s dg 0x42 (· == 8) true chunkOp)

/-- An update step by FSP or by `FWU.STEP` (R473, R481). -/
def stepRow (s : State) (src : StepSource) (op code : Nat) (f : State → FspReq → State) : State :=
  match src with
  | .fsp dg => updRow s dg op (· == 0) true f
  | .register m => regWrite s m .fwu 0x040 (w32 code)

/-- VERIFY (R474). -/
def execVerify (src : StepSource) (s : State) : Host.Outcome State Fault Refusal := finish s (stepRow s src 0x43 1 verifyFsp)
/-- VERIFY_DONE (R474). -/
def execVerifyDone (s : State) : Host.Outcome State Fault Refusal := finish s (verifyEnd s)
/-- ACTIVATE (R476). -/
def execActivate (dg : List Byte) (s : State) : Host.Outcome State Fault Refusal :=
  finish s (updRow s dg 0x44 (· == 16) true activateFsp)
/-- SCHEDULED_ACTIVATION (R477). -/
def execScheduledActivation (s : State) : Host.Outcome State Fault Refusal := finish s (scheduleDue s)
/-- ACTIVATION_PAUSE (R476). -/
def execActivationPause (s : State) : Host.Outcome State Fault Refusal := finish s (pauseOp s)
/-- ACTIVATION_RESUME (R157). -/
def execActivationResume (s : State) : Host.Outcome State Fault Refusal := finish s (resumeOp s)
/-- CONFIRM (R479). -/
def execConfirm (src : StepSource) (s : State) : Host.Outcome State Fault Refusal := finish s (stepRow s src 0x45 2 confirmFsp)
/-- CANCEL (R473). -/
def execCancel (src : StepSource) (s : State) : Host.Outcome State Fault Refusal := finish s (stepRow s src 0x46 3 cancelFsp)
/-- UPDATE_STATUS (R473). -/
def execUpdateStatus (dg : List Byte) (s : State) : Host.Outcome State Fault Refusal :=
  finish s (updRow s dg 0x47 (· == 0) false statusFsp)

/-! ### NV descriptor queues -/

/-- NVA_DOORBELL (R458). -/
def execNvaDoorbell (m : Master) (p : Port) (v : Word) (s : State) : Host.Outcome State Fault Refusal :=
  finish s (regWrite s m .nva (0x060 + 8 * pIdx p) v)
/-- READ (R460). -/
def execNvRead (q : NvQueue) (s : State) : Host.Outcome State Fault Refusal := finish s (startDesc s q 1)
/-- PROGRAM (R460). -/
def execProgram (q : NvQueue) (s : State) : Host.Outcome State Fault Refusal := finish s (startDesc s q 2)
/-- ERASE_SECTOR (R460). -/
def execEraseSector (q : NvQueue) (s : State) : Host.Outcome State Fault Refusal := finish s (startDesc s q 3)
/-- BLANK_CHECK (R460). -/
def execBlankCheck (q : NvQueue) (s : State) : Host.Outcome State Fault Refusal := finish s (startDesc s q 4)
/-- SWAP_BOOT (R460). -/
def execSwapBoot (q : NvQueue) (s : State) : Host.Outcome State Fault Refusal := finish s (startDesc s q 5)
/-- NV_UNIT_DONE (R444). -/
def execNvUnitDone (bank : Fin 2) (ok : Bool) (s : State) : Host.Outcome State Fault Refusal := finish s (nvUnitEnd s bank.val ok)

end Sys2Proof.Machine
end

