-- ==== Sys2Proof/Machine/LaneRows.lean ====
section
/-! DEFINITION. The rows of the codec clusters. -/

namespace Sys2Proof.Machine

/-- LANE_DISPATCH (R232). -/
def execLaneDispatch (cl : Fin 16) (lane : Fin 4) (s : State) : Host.Outcome State Fault Refusal := finish s (dispatch s cl.val lane.val)
/-- BLOCK_COMPRESSED (R205). -/
def execBlockCompressed (cl : Fin 16) (lane : Fin 4) (sram : Option SramFault) (s : State) : Host.Outcome State Fault Refusal :=
  finish s (blockCompressed s cl.val lane.val sram)
/-- BLOCK_DECOMPRESSED (R206). -/
def execBlockDecompressed (cl : Fin 16) (lane : Fin 4) (sram : Option SramFault) (s : State) : Host.Outcome State Fault Refusal :=
  finish s (blockDecompressed s cl.val lane.val sram)
/-- CODEC_JOB (R117). -/
def execCodecJob (cid : Nat) (s : State) : Host.Outcome State Fault Refusal := finish s (runBody s cid 0x10 jobStart)
/-- CODEC_JOB_DONE (R241). -/
def execCodecJobDone (cid : Nat) (s : State) : Host.Outcome State Fault Refusal := finish s (jobDone s cid)

end Sys2Proof.Machine
end

