-- ==== Sys2Proof/Machine/Dispatch.lean ====
section
/-! DEFINITION. What each command does to everything but the queue: one arm per constructor, each one call of the
meaning of that command. -/

namespace Sys2Proof.Machine

/-- The effect of a command. -/
def exec (i : Instr) (s : State) : Host.Outcome State Fault Refusal :=
  match i with
  | .registerWrite m addr be v more => Sys2Proof.Machine.execRegisterWrite m addr be v more s
  | .writeLo m addr v => Sys2Proof.Machine.execWriteLo m addr v s
  | .writeHi m addr v => Sys2Proof.Machine.execWriteHi m addr v s
  | .readLo m src more sram => Sys2Proof.Machine.execReadLo m src more sram s
  | .enable m pg => Sys2Proof.Machine.execEnable m pg s
  | .disable m pg => Sys2Proof.Machine.execDisable m pg s
  | .abort m pg => Sys2Proof.Machine.execAbort m pg s
  | .drainEnd pg => Sys2Proof.Machine.execDrainEnd pg s
  | .clrCounters m pg => Sys2Proof.Machine.execClrCounters m pg s
  | .evtRearm m p => Sys2Proof.Machine.execEvtRearm m p s
  | .transportOwnerWrite m v => Sys2Proof.Machine.execTransportOwnerWrite m v s
  | .portThaw m v => Sys2Proof.Machine.execPortThaw m v s
  | .semLockRead m k => Sys2Proof.Machine.execSemLockRead m k s
  | .semLockWrite m k v => Sys2Proof.Machine.execSemLockWrite m k v s
  | .semLeaseWrite m k v => Sys2Proof.Machine.execSemLeaseWrite m k v s
  | .leaseExpiry k => Sys2Proof.Machine.execLeaseExpiry k s
  | .portReset p kind => Sys2Proof.Machine.execPortReset p kind s
  | .perstNDeassert p => Sys2Proof.Machine.execPerstNDeassert p s
  | .d3hotToD0 p => Sys2Proof.Machine.execD3hotToD0 p s
  | .refclkLoss p => Sys2Proof.Machine.execRefclkLoss p s
  | .tcxoLoss => Sys2Proof.Machine.execTcxoLoss s
  | .tcxoResume => Sys2Proof.Machine.execTcxoResume s
  | .capsuleWrite p off bytes => Sys2Proof.Machine.execCapsuleWrite p off bytes s
  | .commandStart p q sram => Sys2Proof.Machine.execCommandStart p q sram s
  | .write cid => Sys2Proof.Machine.execWrite cid s
  | .read cid => Sys2Proof.Machine.execRead cid s
  | .writeMark cid => Sys2Proof.Machine.execWriteMark cid s
  | .locate cid => Sys2Proof.Machine.execLocate cid s
  | .space cid => Sys2Proof.Machine.execSpace cid s
  | .flush cid => Sys2Proof.Machine.execFlush cid s
  | .readPosition cid => Sys2Proof.Machine.execReadPosition cid s
  | .mount cid => Sys2Proof.Machine.execMount cid s
  | .unmount cid => Sys2Proof.Machine.execUnmount cid s
  | .format cid => Sys2Proof.Machine.execFormat cid s
  | .setEod cid => Sys2Proof.Machine.execSetEod cid s
  | .codecJob cid => Sys2Proof.Machine.execCodecJob cid s
  | .getLog cid sram => Sys2Proof.Machine.execGetLog cid sram s
  | .setVolumeParams cid => Sys2Proof.Machine.execSetVolumeParams cid s
  | .activateFirmware cid => Sys2Proof.Machine.execActivateFirmware cid s
  | .segmentAdmit n => Sys2Proof.Machine.execSegmentAdmit n s
  | .xferRdyPost p q => Sys2Proof.Machine.execXferRdyPost p q s
  | .dataWindowWrite p off bytes => Sys2Proof.Machine.execDataWindowWrite p off bytes s
  | .transferTimeout cid => Sys2Proof.Machine.execTransferTimeout cid s
  | .dmaReadFailure tgt => Sys2Proof.Machine.execDmaReadFailure tgt s
  | .cqPost p c => Sys2Proof.Machine.execCqPost p c s
  | .cqHeadWrite m p c v => Sys2Proof.Machine.execCqHeadWrite m p c v s
  | .coalTimeExpiry p c => Sys2Proof.Machine.execCoalTimeExpiry p c s
  | .sqEnable m p q => Sys2Proof.Machine.execSqEnable m p q s
  | .sqDisable m p q => Sys2Proof.Machine.execSqDisable m p q s
  | .sqAbort m p q => Sys2Proof.Machine.execSqAbort m p q s
  | .cqEnable m p c ien => Sys2Proof.Machine.execCqEnable m p c ien s
  | .cqDisable m p c ien => Sys2Proof.Machine.execCqDisable m p c ien s
  | .resume m p q => Sys2Proof.Machine.execResume m p q s
  | .discard m p q => Sys2Proof.Machine.execDiscard m p q s
  | .errlogWindowRead m p ix w sram => Sys2Proof.Machine.execErrlogWindowRead m p ix w sram s
  | .scrubRow ch found => Sys2Proof.Machine.execScrubRow ch found s
  | .slotFillDone addr => Sys2Proof.Machine.execSlotFillDone addr s
  | .alloc m want => Sys2Proof.Machine.execAlloc m want s
  | .allocWait m want => Sys2Proof.Machine.execAllocWait m want s
  | .share m target => Sys2Proof.Machine.execShare m target s
  | .release m => Sys2Proof.Machine.execRelease m s
  | .cancelWait m pool => Sys2Proof.Machine.execCancelWait m pool s
  | .slotWindowAccess m off be wr => Sys2Proof.Machine.execSlotWindowAccess m off be wr s
  | .laneDispatch cl lane => Sys2Proof.Machine.execLaneDispatch cl lane s
  | .blockCompressed cl lane sram => Sys2Proof.Machine.execBlockCompressed cl lane sram s
  | .blockDecompressed cl lane sram => Sys2Proof.Machine.execBlockDecompressed cl lane sram s
  | .codecJobDone cid => Sys2Proof.Machine.execCodecJobDone cid s
  | .keyWordWrite m st k w v => Sys2Proof.Machine.execKeyWordWrite m st k w v s
  | .labelWrite m st v => Sys2Proof.Machine.execLabelWrite m st v s
  | .commit m st => Sys2Proof.Machine.execCommit m st s
  | .erase m st => Sys2Proof.Machine.execErase m st s
  | .keyZeroiseWrite m => Sys2Proof.Machine.execKeyZeroiseWrite m s
  | .alarmSourceActive src => Sys2Proof.Machine.execAlarmSourceActive src s
  | .alarmCleared src => Sys2Proof.Machine.execAlarmCleared src s
  | .idleCloseExpiry n p => Sys2Proof.Machine.execIdleCloseExpiry n p s
  | .itemBoundary n sram => Sys2Proof.Machine.execItemBoundary n sram s
  | .tapeRestart n => Sys2Proof.Machine.execTapeRestart n s
  | .speedRampStep n => Sys2Proof.Machine.execSpeedRampStep n s
  | .dataSetRead n sram => Sys2Proof.Machine.execDataSetRead n sram s
  | .cartridgeRecordWrite n => Sys2Proof.Machine.execCartridgeRecordWrite n s
  | .idle n flit => Sys2Proof.Machine.execIdle n flit s
  | .chanUp n flit => Sys2Proof.Machine.execChanUp n flit s
  | .servoFrameSample n flit => Sys2Proof.Machine.execServoFrameSample n flit s
  | .servoReelSample n flit => Sys2Proof.Machine.execServoReelSample n flit s
  | .servoKeepalive n => Sys2Proof.Machine.execServoKeepalive n s
  | .sampleTimeout ix => Sys2Proof.Machine.execSampleTimeout ix s
  | .manual m ix v => Sys2Proof.Machine.execManual m ix v s
  | .apply m ix => Sys2Proof.Machine.execApply m ix s
  | .clearTable m ix => Sys2Proof.Machine.execClearTable m ix s
  | .servoDrainTimeout n => Sys2Proof.Machine.execServoDrainTimeout n s
  | .hello n flit => Sys2Proof.Machine.execHello n flit s
  | .ack n flit => Sys2Proof.Machine.execAck n flit s
  | .mode n flit => Sys2Proof.Machine.execMode n flit s
  | .cartridge n flit => Sys2Proof.Machine.execCartridge n flit s
  | .positioned n flit => Sys2Proof.Machine.execPositioned n flit s
  | .burstDone n flit => Sys2Proof.Machine.execBurstDone n flit s
  | .fwResult n flit => Sys2Proof.Machine.execFwResult n flit s
  | .timeUp n flit => Sys2Proof.Machine.execTimeUp n flit s
  | .timeFlitSend n => Sys2Proof.Machine.execTimeFlitSend n s
  | .cmData n flit => Sys2Proof.Machine.execCmData n flit s
  | .cmDone n flit => Sys2Proof.Machine.execCmDone n flit s
  | .mailboxUp n flit => Sys2Proof.Machine.execMailboxUp n flit s
  | .mbxAnswerTimeout n => Sys2Proof.Machine.execMbxAnswerTimeout n s
  | .retransmitTimer n => Sys2Proof.Machine.execRetransmitTimer n s
  | .laneFailed n up lane why => Sys2Proof.Machine.execLaneFailed n up lane why s
  | .laneRetrain n => Sys2Proof.Machine.execLaneRetrain n s
  | .laneRestored n up lane bad marker => Sys2Proof.Machine.execLaneRestored n up lane bad marker s
  | .rxTimeout n => Sys2Proof.Machine.execRxTimeout n s
  | .linkTrained n down up => Sys2Proof.Machine.execLinkTrained n down up s
  | .trainTimeout n => Sys2Proof.Machine.execTrainTimeout n s
  | .linkRetry n => Sys2Proof.Machine.execLinkRetry n s
  | .ctrlTimeout n => Sys2Proof.Machine.execCtrlTimeout n s
  | .modeTimeout n => Sys2Proof.Machine.execModeTimeout n s
  | .enterService m n => Sys2Proof.Machine.execEnterService m n s
  | .exitService m n => Sys2Proof.Machine.execExitService m n s
  | .clearFault m n => Sys2Proof.Machine.execClearFault m n s
  | .powerGood => Sys2Proof.Machine.execPowerGood s
  | .ready failed => Sys2Proof.Machine.execReady failed s
  | .watchdogExpiry => Sys2Proof.Machine.execWatchdogExpiry s
  | .pwrEnLow => Sys2Proof.Machine.execPwrEnLow s
  | .pwrEnHigh => Sys2Proof.Machine.execPwrEnHigh s
  | .vinDip => Sys2Proof.Machine.execVinDip s
  | .vinRecover => Sys2Proof.Machine.execVinRecover s
  | .powerFail => Sys2Proof.Machine.execPowerFail s
  | .powerReturn => Sys2Proof.Machine.execPowerReturn s
  | .stateReq m v => Sys2Proof.Machine.execStateReq m v s
  | .bivouacIdleExpiry => Sys2Proof.Machine.execBivouacIdleExpiry s
  | .bivouacEntry => Sys2Proof.Machine.execBivouacEntry s
  | .domainIdleExpiry d => Sys2Proof.Machine.execDomainIdleExpiry d s
  | .domainGate d => Sys2Proof.Machine.execDomainGate d s
  | .lanternEntry => Sys2Proof.Machine.execLanternEntry s
  | .lanternWake => Sys2Proof.Machine.execLanternWake s
  | .lanternExit failed => Sys2Proof.Machine.execLanternExit failed s
  | .holdupCharged => Sys2Proof.Machine.execHoldupCharged s
  | .holdupDegraded => Sys2Proof.Machine.execHoldupDegraded s
  | .sensorSample k v valid => Sys2Proof.Machine.execSensorSample k v valid s
  | .identify p => Sys2Proof.Machine.execIdentify p s
  | .settingsSave p => Sys2Proof.Machine.execSettingsSave p s
  | .settingsClear p => Sys2Proof.Machine.execSettingsClear p s
  | .logMark p => Sys2Proof.Machine.execLogMark p s
  | .bridgeMailbox p => Sys2Proof.Machine.execBridgeMailbox p s
  | .mailboxDone p => Sys2Proof.Machine.execMailboxDone p s
  | .logSummary => Sys2Proof.Machine.execLogSummary s
  | .sessionOpen dg => Sys2Proof.Machine.execSessionOpen dg s
  | .auth dg => Sys2Proof.Machine.execAuth dg s
  | .sessionClose dg => Sys2Proof.Machine.execSessionClose dg s
  | .fspSessionTimeout id => Sys2Proof.Machine.execFspSessionTimeout id s
  | .lockoutExpiry => Sys2Proof.Machine.execLockoutExpiry s
  | .fspIdentify dg => Sys2Proof.Machine.execFspIdentify dg s
  | .sensors dg => Sys2Proof.Machine.execSensors dg s
  | .logRead dg => Sys2Proof.Machine.execLogRead dg s
  | .timeStatus dg => Sys2Proof.Machine.execTimeStatus dg s
  | .thaw dg => Sys2Proof.Machine.execThaw dg s
  | .fspZeroise dg => Sys2Proof.Machine.execFspZeroise dg s
  | .reset dg => Sys2Proof.Machine.execReset dg s
  | .ownerLock dg => Sys2Proof.Machine.execOwnerLock dg s
  | .fleet dg => Sys2Proof.Machine.execFleet dg s
  | .ownerKey dg => Sys2Proof.Machine.execOwnerKey dg s
  | .netConfig dg => Sys2Proof.Machine.execNetConfig dg s
  | .fspBridgeMailbox dg => Sys2Proof.Machine.execFspBridgeMailbox dg s
  | .icmpv6Echo msg => Sys2Proof.Machine.execIcmpv6Echo msg s
  | .smbIdentify => Sys2Proof.Machine.execSmbIdentify s
  | .smbSensors => Sys2Proof.Machine.execSmbSensors s
  | .smbAlarms => Sys2Proof.Machine.execSmbAlarms s
  | .smbState => Sys2Proof.Machine.execSmbState s
  | .step m => Sys2Proof.Machine.execStep m s
  | .slew m => Sys2Proof.Machine.execSlew m s
  | .slewDone => Sys2Proof.Machine.execSlewDone s
  | .ppsInEdge => Sys2Proof.Machine.execPpsInEdge s
  | .ppsInLost => Sys2Proof.Machine.execPpsInLost s
  | .secondCrossing => Sys2Proof.Machine.execSecondCrossing s
  | .ptpSync => Sys2Proof.Machine.execPtpSync s
  | .ptpAnnounce => Sys2Proof.Machine.execPtpAnnounce s
  | .ptpDelayReq msg => Sys2Proof.Machine.execPtpDelayReq msg s
  | .foreignAnnounce msg => Sys2Proof.Machine.execForeignAnnounce msg s
  | .nvaDoorbell m p v => Sys2Proof.Machine.execNvaDoorbell m p v s
  | .nvRead q => Sys2Proof.Machine.execNvRead q s
  | .program q => Sys2Proof.Machine.execProgram q s
  | .eraseSector q => Sys2Proof.Machine.execEraseSector q s
  | .blankCheck q => Sys2Proof.Machine.execBlankCheck q s
  | .swapBoot q => Sys2Proof.Machine.execSwapBoot q s
  | .nvUnitDone bank ok => Sys2Proof.Machine.execNvUnitDone bank ok s
  | .dlBegin dg => Sys2Proof.Machine.execDlBegin dg s
  | .dlData dg => Sys2Proof.Machine.execDlData dg s
  | .dlChunk dg => Sys2Proof.Machine.execDlChunk dg s
  | .verify src => Sys2Proof.Machine.execVerify src s
  | .verifyDone => Sys2Proof.Machine.execVerifyDone s
  | .activate dg => Sys2Proof.Machine.execActivate dg s
  | .scheduledActivation => Sys2Proof.Machine.execScheduledActivation s
  | .activationPause => Sys2Proof.Machine.execActivationPause s
  | .activationResume => Sys2Proof.Machine.execActivationResume s
  | .confirm src => Sys2Proof.Machine.execConfirm src s
  | .cancel src => Sys2Proof.Machine.execCancel src s
  | .updateStatus dg => Sys2Proof.Machine.execUpdateStatus dg s
  | .refclkRestored p => Sys2Proof.Machine.execRefclkRestored p s
  | .hostLinkUp p rate width => Sys2Proof.Machine.execHostLinkUp p rate width s
  | .d3hotEntry p => Sys2Proof.Machine.execD3hotEntry p s
  | .holdupExhausted => Sys2Proof.Machine.execHoldupExhausted s
  | .dmaReadCompletion tgt bytes => Sys2Proof.Machine.execDmaReadCompletion tgt bytes s
  | .alertResponse => Sys2Proof.Machine.execAlertResponse s
  | .phyLinkChange up => Sys2Proof.Machine.execPhyLinkChange up s

end Sys2Proof.Machine
end

