-- ==== Sys2Proof/Safety.lean ====
section
/-! DEFINITION. What a safe state is, in the terms the statements use: no event interrupt is owed and not sent (R61), and the
buffer is in its canonical form. What every command does after its own effect: it settles the event interrupts. Which accesses reach a
register. -/

namespace Sys2Proof

/-- No event interrupt is due at either port (R61). -/
def Safety.settled (s : Machine.State) : Bool := !Machine.evtDue s .a && !Machine.evtDue s .b

/-- The state is safe. -/
def Safety.safe (s : Machine.State) : Bool := Safety.settled s && Machine.Memory.wf s.mem.ram

/-- A port but for what an event interrupt changes: whether it is armed, and the pending vectors. -/
def Safety.portRest (t : Machine.PortSt) : Machine.PortSt := { t with armed := true, msixPba := [] }

/-- What was sent is an MSI-X message. -/
def Safety.isMsix (e : Machine.Emit) : Bool :=
  match e with
  | .msix _ _ _ => true
  | _ => false

/-- `t` is `u` with the event interrupts that were due sent or made pending (R61), and the queue of `s`: at each port the armed bit
and the pending vectors may differ, MSI-X messages may have been sent, and nothing else differs. -/
def Safety.settles (s u t : Machine.State) : Prop :=
  t = { u with ports := t.ports, out := t.out, pending := s.pending }
    ∧ (∀ p, Safety.portRest (Machine.port t p) = Safety.portRest (Machine.port u p))
    ∧ ∃ l, t.out = l ++ u.out ∧ l.all Safety.isMsix = true

/-- A command answers a next state: its effect is `u`, with the event interrupts settled and the queue of `s`. -/
def Safety.answers (o : Host.Outcome Machine.State Machine.Fault Machine.Refusal) (s u : Machine.State) : Prop :=
  ∃ t, o = .next t ∧ Safety.settles s u t

/-- An access of master `m` reaches the register at a spot: the BAR answers (R398 to R400, R506), `m` is not frozen (R78), and no
earlier access of `m` waits for a zero fill (R32, R192). -/
def Safety.reaches (s : Machine.State) (m : Master) (t : Machine.Spot) : Bool :=
  Machine.served s m && !(Machine.mst s m).frozen && !Machine.waits s m && Machine.shown s t && !Machine.reserved t

/-- Master `m` reaches a spot and has the right to write it (R46). -/
def Safety.canWrite (s : Machine.State) (m : Master) (t : Machine.Spot) : Bool :=
  Safety.reaches s m t && Machine.hasRight s m t

/-- A register of a page that a write changes by its access types alone (R43): it starts nothing. -/
def Safety.plainSpot (pg : PageId) (off : Nat) : Bool :=
  match pg with
  | .mem | .log | .loopG | .ciph _ | .servo _ | .cdc _ => true
  | .pwr => off != 0x040
  | .tim => off != 0x064
  | .hp _ => off != 0x04C
  | .link _ => off != 0x058
  | .pool => off < 0x0A0 || (0x0E0 ≤ off && off < 0x100) || (0x10C ≤ off && off < 0x800)
  | .mgt => off < 0x100 || 0x200 ≤ off
  | _ => false

/-- Bits 31:0 that a write of a HI half applies: the master's pending LO where it names the register at `a`, else what the register
holds (R45). -/
def Safety.appliedLo (s : Machine.State) (m : Master) (a cur : Nat) : Nat :=
  match (Machine.mst s m).pendLo with
  | some (b, x) => if b = a then x.toNat else cur
  | none => cur

/-- The `i`-th acceptance sequence, from 0, that a volume gives after `n`; none from 2^64 - 1 on (R59). -/
def Safety.accAt (n i : Nat) : Option Nat := if n + i + 1 < 2 ^ 64 - 1 then some (n + i + 1) else none

/-- The body of command `cid` may run: it has started and is of opcode `opc`, outside an activation pause (R98, R157). -/
def Safety.begins (s : Machine.State) (cid opc : Nat) : Prop :=
  (Machine.cmd s cid).phase = .started ∧ Machine.leAt (Machine.cmd s cid).bytes 0 1 = opc ∧ s.fwu.paused = false
    ∧ ((Machine.port s (Machine.cmd s cid).port).d3hot = true → opc = 1 ∨ opc = 7 ∨ opc = 0x20 → (Machine.cmd s cid).mute = true)
    ∧ ∃ c ∈ s.cmds, c.1 = cid

/-- The FEC counters of a link after what came with a flit (R368). -/
def Safety.fecCounted (s : Machine.State) (n : Fin 16) (flit : LinkFlit) : Machine.State :=
  let s := if flit.corrected = 0 then s else Machine.count s (.link n) 2 flit.corrected
  if flit.uncorrectable = 0 then s else Machine.count s (.link n) 3 flit.uncorrectable

/-- The flit is counted, its ACK word taken, what its NAK bit asks for sent again and what waits sent (R342, R343); and whether a flit was
at its limit of attempts. -/
def Safety.ackTaken (s : Machine.State) (n : Fin 16) (flit : LinkFlit) (ty : Nat) : Machine.State × Bool :=
  let s1 := Machine.count (Safety.fecCounted s n flit) (.link n) 1
  let w := Machine.leAt flit.bytes 2 2
  let acked := if ty ≠ 1 ∧ w / 2 ^ 15 = 1 then Machine.takeAck s1 n.val (w % 2 ^ 13) else s1
  let sent := if ty ≠ 1 ∧ w / 2 ^ 14 % 2 = 1 then Machine.resendAll acked n.val else (acked, false)
  (if ty = 1 then sent.1 else Machine.pumpAll sent.1 n.val, sent.2)

/-- A flit of TYPE `ty` is heard in order on a live link (R338 to R341): its CRC-16 is right, its reserved fields are 0, its SEQ is the one
expected, and nothing that it asks to send again is at its limit. -/
def Safety.inOrder (s : Machine.State) (n : Fin 16) (flit : LinkFlit) (ty : Nat) : Prop :=
  ((Machine.link s n.val).phase = .loading ∨ (Machine.link s n.val).phase = .up) ∧ flit.lost = false
    ∧ Machine.leAt flit.bytes 62 2 = (Machine.crc16 (Machine.sub flit.bytes 0 62)).toNat
    ∧ Machine.leAt flit.bytes 0 2 / 2 ^ 13 = ty ∧ Machine.reservedOk ty flit.bytes = true
    ∧ (Safety.ackTaken s n flit ty).2 = false
    ∧ Machine.leAt flit.bytes 0 2 % 2 ^ 13 = (Machine.link (Safety.ackTaken s n flit ty).1 n.val).rxSeq

/-- What the receiver leaves of a flit heard in order (R341): a sequenced one moves the expected SEQ on by one modulo 8192 and is answered
by an IDLE flit. -/
def Safety.heard (s : Machine.State) (n : Fin 16) (flit : LinkFlit) (ty : Nat) : Machine.State :=
  let r := (Safety.ackTaken s n flit ty).1
  if ty = 1 ∨ ty = 2 ∨ ty = 3 ∨ ty = 5 then
    Machine.sendUnseq (Machine.modLink r n.val fun l => { l with rxSeq := (l.rxSeq + 1) % 8192, rxAny := true, nakSent := false }) n.val 0 false []
  else r

/-- A row `c` brings a flit of TYPE `ty` over the link of transport `n`; where the receiver delivers it, `go` takes it, and the transport
goes on after it in every case (R338 to R342). -/
def Safety.receives (s : Machine.State) (n : Fin 16) (flit : LinkFlit) (c : Instr) (ty : Nat)
    (go : Machine.State → Machine.State) : Prop :=
  let l := Machine.link s n.val
  let live := l.phase = .loading ∨ l.phase = .up
  let head := Machine.leAt flit.bytes 0 2
  let fty := head / 2 ^ 13
  let seqNo := head % 2 ^ 13
  let w := Machine.leAt flit.bytes 2 2
  let crc := Machine.leAt flit.bytes 62 2 = (Machine.crc16 (Machine.sub flit.bytes 0 62)).toNat
  let s0 := Safety.fecCounted s n flit
  let s1 := Machine.count s0 (.link n) 1
  let nak (t : Machine.State) : Machine.State :=
    Machine.sendUnseq (Machine.modLink t n.val fun l => { l with nakSent := true }) n.val 0 true []
  let ends (t : Machine.State) : Prop := Safety.answers (Machine.exec c s) s (Machine.progress t n.val)
  let heard := live ∧ flit.lost = false
  let good := heard ∧ crc ∧ fty = ty ∧ Machine.reservedOk ty flit.bytes = true
  let acked := if ty ≠ 1 ∧ w / 2 ^ 15 = 1 then Machine.takeAck s1 n.val (w % 2 ^ 13) else s1
  let sent := if ty ≠ 1 ∧ w / 2 ^ 14 % 2 = 1 then Machine.resendAll acked n.val else (acked, false)
  let ready := if ty = 1 then sent.1 else Machine.pumpAll sent.1 n.val
  let ahead := (seqNo + 8192 - (Machine.link ready n.val).rxSeq) % 8192
  let lost := ahead ≠ 0 ∧ ahead < 4096 ∧ (Machine.link ready n.val).nakSent = false
  let numbered := ty = 1 ∨ ty = 2 ∨ ty = 3 ∨ ty = 5
  (¬ live → ends s)
  ∧ (live → flit.lost = true → ends (if l.nakSent then s0 else nak s0))
  ∧ (heard → ¬ crc → l.nakSent = true → ends (Machine.count s1 (.link n) 4))
  ∧ (heard → ¬ crc → l.nakSent = false → ends (nak (Machine.count s1 (.link n) 4)))
  ∧ (heard → crc → fty = 6 ∨ fty = 7 ∨ (fty = ty ∧ Machine.reservedOk ty flit.bytes = false) → ends (Machine.transportFault s1 n.val 6))
  ∧ (heard → crc → fty ≠ 6 → fty ≠ 7 → fty ≠ ty → ends s1)
  ∧ (good → sent.2 = true → ends (Machine.linkDown sent.1 n.val 3))
  ∧ (good → sent.2 = false → ¬ numbered → (lost → ends (go (nak ready))) ∧ (¬ lost → ends (go ready)))
  ∧ (good → sent.2 = false → numbered →
    (ahead = 0 → ends (go (Machine.sendUnseq (Machine.modLink ready n.val fun l =>
      { l with rxSeq := (l.rxSeq + 1) % 8192, rxAny := true, nakSent := false }) n.val 0 false [])))
    ∧ (ahead ≠ 0 → (lost → ends (nak ready)) ∧ (¬ lost → ends ready)))

/-- A row `c` brings a datagram that it expects to carry OPCODE `op`: it is heard while the core serves, outside an activation pause,
with the PHY up, where it is a valid request; `own` asks for an authenticated session, `len` for a payload length, and answers other
than a REFUSED begin with `pre`. `go` takes it (R431 to R433). -/
def Safety.requests (s : Machine.State) (dg : List Byte) (c : Instr) (op : Nat) (len : Nat → Prop) (own : Bool) (pre : List Byte)
    (go : Machine.State → Machine.FspReq → Machine.State) : Prop :=
  let serves := Machine.coreServes s = true ∧ s.fwu.paused = false ∧ s.fsp.phyUp = true
  let row (t : Machine.State) : Prop := Safety.answers (Machine.exec c s) s t
  (¬ serves → row s) ∧ (Machine.readDg s dg = none → row s)
  ∧ (∀ r, serves → Machine.readDg s dg = some r →
    let h := Machine.heard s r
    (r.op ≠ op → r.op ∈ Machine.fspOps → row s)
    ∧ (r.op ≠ op → r.op ∉ Machine.fspOps → row (Machine.reply h r 1 []))
    ∧ (r.op = op → own = true → r.authed = false → row (Machine.reply h r 3 pre))
    ∧ (r.op = op → (own = false ∨ r.authed = true) → ¬ len r.body.length → row (Machine.reply h r 2 pre))
    ∧ (r.op = op → (own = false ∨ r.authed = true) → len r.body.length → row (go h r)))

/-- The master whose register write a command is. -/
def Safety.writer : Instr → Option Master
  | .registerWrite m _ _ _ _ | .writeLo m _ _ | .writeHi m _ _ | .enable m _ | .disable m _ | .abort m _ | .clrCounters m _
  | .evtRearm m _ | .transportOwnerWrite m _ | .portThaw m _ | .semLockWrite m _ _ | .semLeaseWrite m _ _
  | .cqHeadWrite m _ _ _ | .sqEnable m _ _ | .sqDisable m _ _ | .sqAbort m _ _ | .cqEnable m _ _ _ | .cqDisable m _ _ _
  | .resume m _ _ | .discard m _ _ | .alloc m _ | .allocWait m _ | .share m _ | .release m | .cancelWait m _
  | .keyWordWrite m _ _ _ _ | .labelWrite m _ _ | .commit m _ | .erase m _ | .keyZeroiseWrite m | .manual m _ _
  | .apply m _ | .clearTable m _ | .enterService m _ | .exitService m _ | .clearFault m _ | .stateReq m _ | .step m | .slew m
  | .nvaDoorbell m _ _ | .verify (.register m) | .confirm (.register m) | .cancel (.register m) => some m
  | _ => none

end Sys2Proof
end

