-- ==== Sys2Proof/Certificates/Slice0/Obligations.lean ====
section
/-! DEFINITION. The statements for the provers: what the spec's rules say each command, and the machine, do. -/

open Sys2Proof Sys2Proof.Machine

/-- A step takes the command at the front of the queue and runs it on the state with the queue's rest. -/
def Obligations.StepRunsFront : Prop :=
  ∀ (c : Instr) (rest : List Instr) (s : State),
    step { s with pending := c :: rest } = exec c { s with pending := rest }

/-- On an empty queue one TCXO cycle passes (R435; that a step on an empty queue is a cycle is DESIGN CHOICE). -/
def Obligations.IdleIsOneCycle : Prop :=
  ∀ s : State, s.pending = [] →
    let age (k : Nat) : Nat := (40 * k - s.mem.ageFrom) / 1000000
    let past := age s.tick < age (s.tick + 1) ∧ 2 ^ 32 ≤ age (s.tick + 1)
    let after (u : State) : Prop := (¬ past → step s = .next u)
      ∧ (past → step s = .next (settle (setPage u .mem
          { page u .mem with sat := (page u .mem).sat ||| 0x20, evt := (page u .mem).evt ||| 8 })))
    (s.pwr.tcxo = true → s.pwr.supplied = true → s.tim.slewing = false →
      after { s with
        tick := s.tick + 1,
        tim := { s.tim with
          count := (((s.tim.count : Int) + 40 * 2 ^ 32 + (Config.factoryTrim + s.tim.freqAdj).toInt) % 2 ^ 96).toNat } })
    ∧ (s.pwr.tcxo = true → s.pwr.supplied = true → s.tim.slewing = true → ∃ u, after u
        ∧ u.tim.slewLeft = s.tim.slewLeft - slewPart s.tim.slewLeft
        ∧ u = { s with tick := s.tick + 1, tim := { s.tim with count := u.tim.count, slewLeft := u.tim.slewLeft } }
        ∧ u.tim.count = (((s.tim.count : Int) + 40 * 2 ^ 32 + (Config.factoryTrim + s.tim.freqAdj).toInt
            + slewPart s.tim.slewLeft) % 2 ^ 96).toNat)
    ∧ (s.pwr.tcxo = false ∨ s.pwr.supplied = false → step s = .next s)

/-- Every well-formed command answers a next state; every other stops with `malformed`. -/
def Obligations.WellFormedCompletes : Prop :=
  ∀ (i : Instr) (s : State),
    (i.wf = true → ∃ t, exec i s = .next t ∧ t.pending = s.pending)
    ∧ (i.wf = false → exec i s = .fault .malformed)

/-- Every step keeps: no event interrupt is due (R61). -/
def Obligations.StepKeepsSettled : Prop :=
  ∀ s t : State, Safety.settled s = true → step s = .next t → Safety.settled t = true

/-- The reset state is safe. -/
def Obligations.ResetSafe : Prop := Safety.safe State.reset = true

/-- Reset values that the spec gives (R37, R38, R40, R53, R61, R63, R68, R69, R93, R94, R242, R368, R376). -/
def Obligations.ResetValues : Prop :=
  (∀ pg : PageId, (page State.reset pg).enabled = !enableImpl pg ∧ (page State.reset pg).draining = false
      ∧ (page State.reset pg).fault = false ∧ (page State.reset pg).evt = 0 ∧ (page State.reset pg).evtEn = 0
      ∧ (page State.reset pg).sat = 0 ∧ ∀ k, ctrVal State.reset pg k = 0)
  ∧ (∀ k, (sem State.reset k).holder = none ∧ (sem State.reset k).token = BitVec.ofNat 16 (k + 1)
      ∧ (sem State.reset k).lease = 100)
  ∧ (∀ n, owner State.reset n = 0)
  ∧ (∀ m, (mst State.reset m).frozen = false)
  ∧ (∀ p, (port State.reset p).armed = true ∧ (∀ q, (sq State.reset p q).enabled = false)
      ∧ ∀ c, (cq State.reset p c).enabled = false)
  ∧ (∀ k, (keySlot State.reset k).st = .empty)
  ∧ (∀ n, (link State.reset n).phase = .disabled)
  ∧ (∀ i, (loop State.reset i).phase = .off)
  ∧ State.reset.ready = false

/-- A register write of a frozen master, or of one whose accesses are not served, has no effect (R78, R398, R506). -/
def Obligations.FrozenWritesNothing : Prop :=
  ∀ (i : Instr) (m : Master) (s : State), Safety.writer i = some m → i.wf = true →
    ((mst s m).frozen = true ∨ served s m = false) → ∃ t, exec i s = .next t ∧ Safety.settles s s t

/-- A write without the right freezes its master (R47, R78, R79); a partial dword is dropped with BAD_ACCESS (R31). The freeze record
is given for a master whose port has no WRITE waiting for segment data; such a WRITE ends as well (R78). -/
def Obligations.WriteWithoutRight : Prop :=
  ∀ (m : Master) (a : BitVec 22) (v : Word) (s : State), a.toNat % 4 = 0 → Safety.reaches s m (spotOf a.toNat) = true →
    (hasRight s m (spotOf a.toNat) = false → ∃ t, exec (.registerWrite m a 0xF v []) s = .next t
      ∧ Safety.settles s (freezeMaster s m 1 (spotSem (spotOf a.toNat)) a.toNat) t
      ∧ ((∀ p, masterPort m = some p → (liveCmds s fun i c => c.port == p && waitsData s i c) = []) →
          (mst t m).frozen = true ∧ (mst t m).cause = 1 ∧ (mst t m).addr = a.toNat
          ∧ (mst t m).sem = BitVec.ofNat 6 (spotSem (spotOf a.toNat))
          ∧ (∀ k, k < 32 → (sem t k).holder = if (sem s k).holder = some m then none else (sem s k).holder)
          ∧ (∀ m', m' ≠ m → mst t m' = mst s m')))
    ∧ (∀ be, be ≠ 0xF → ∃ t, exec (.registerWrite m a be v []) s = .next t ∧ Safety.settles s (badAccess s m) t)

/-- REGISTER_WRITE: bits change by their access types (R43), and nothing else does. -/
def Obligations.RegisterWriteByType : Prop :=
  ∀ (m : Master) (pg : PageId) (off : Nat) (v : Word) (r : RegRow) (s : State),
    0x40 ≤ off → off < 0x1000 → off % 4 = 0 → Safety.plainSpot pg off = true →
    findRow (pageRows pg) off = some (r, false) → r.wide = false → Safety.canWrite s m (.page pg off) = true →
    ∃ u, Safety.answers (exec (.registerWrite m (BitVec.ofNat 22 (pageBase pg + off)) 0xF v []) s) s u
      ∧ (let lock := (page s pg).enabled || (page s pg).draining
         let set := r.rw ||| (if lock then 0 else r.rwl)
         reg u pg off = ((reg s pg off &&& ~~~set) ||| (v &&& set)) &&& ~~~(v &&& r.w1c)
         ∧ (page u pg).evt = if lock && r.rwl != 0 then (page s pg).evt ||| 0x10 else (page s pg).evt)
      ∧ (∀ pg' off', (pg' ≠ pg ∨ off' ≠ off) → reg u pg' off' = reg s pg' off')
      ∧ (∀ pg', page u pg' = { page s pg' with regs := (page u pg').regs, evt := (page u pg').evt })
      ∧ (∀ pg', pg' ≠ pg → page u pg' = page s pg')
      ∧ u = { s with pages := u.pages }

/-- WRITE_LO, WRITE_HI and READ_LO (R44, R45), 8-byte accesses (R31), reads of BAR 2 and BAR 4 (R87) and of a failed SRAM (R166, R167). -/
def Obligations.PairAccess : Prop :=
  (∀ (m : Master) (a : BitVec 22) (v : Word) (s : State), a.toNat % 4 = 0 → isLo (spotOf a.toNat) = true →
    writablePair (spotOf a.toNat) = true → Safety.canWrite s m (spotOf a.toNat) = true →
    Safety.answers (exec (.writeLo m a v) s) s (setMst s m { mst s m with pendLo := some (a.toNat, v) }))
  ∧ (∀ (m : Master) (v : Word) (s : State), Safety.canWrite s m (.page .tim 0x05C) = true →
    ∃ u, Safety.answers (exec (.writeHi m 0x305C v) s) s u
      ∧ reg64 u .tim 0x058 = Safety.appliedLo s m 0x3058 (reg s .tim 0x058).toNat + 2 ^ 32 * v.toNat
      ∧ (∀ pg off, (pg ≠ .tim ∨ (off ≠ 0x058 ∧ off ≠ 0x05C)) → reg u pg off = reg s pg off)
      ∧ mst u m = { mst s m with pendLo := none } ∧ (∀ m', m' ≠ m → mst u m' = mst s m')
      ∧ u = { s with pages := u.pages, masters := u.masters })
  ∧ (∀ (m : Master) (p : Port) (c : Fin 64) (v : Word) (s : State),
      Safety.canWrite s m (spotOf (cqAddr p c.val 0x0C)) = true → (cq s p c.val).enabled = false →
    let lo := Safety.appliedLo s m (cqAddr p c.val 0x08) ((cq s p c.val).base.toNat % 2 ^ 32)
    Safety.answers (exec (.writeHi m (BitVec.ofNat 22 (cqAddr p c.val 0x0C)) v) s) s
      (setCq (setMst s m { mst s m with pendLo := none }) p c.val
        { cq s p c.val with base := BitVec.ofNat 64 (lo + 2 ^ 32 * v.toNat) }))
  ∧ (∀ (m : Master) (a : BitVec 22) (s : State), a.toNat % 4 = 0 → Safety.reaches s m (spotOf a.toNat) = true →
    let x := spotValue s m (spotOf a.toNat)
    let low (u : State) : State := answer (setMst u m { mst u m with hiShadow := BitVec.ofNat 32 (x / 2 ^ 32) }) m a.toNat (x % 2 ^ 32)
    ((∀ off, spotOf a.toNat = .page .pool off → off < 0x138 ∨ 0x140 ≤ off) →
      (isLo (spotOf a.toNat) = true → Safety.answers (exec (.readLo m (.bar0 a) 0 none) s) s (low s))
      ∧ (isHi (spotOf a.toNat) = true → Safety.answers (exec (.readLo m (.bar0 a) 0 none) s) s (answer s m a.toNat (mst s m).hiShadow.toNat))
      ∧ (isLo (spotOf a.toNat) = true → isHi (spotOf (a.toNat + 4)) = true → Safety.reaches s m (spotOf (a.toNat + 4)) = true →
          (∀ off, spotOf (a.toNat + 4) = .page .pool off → off < 0x138 ∨ 0x140 ≤ off) →
          Safety.answers (exec (.readLo m (.bar0 a) 1 none) s) s (answer (low s) m (a.toNat + 4) (x / 2 ^ 32 % 2 ^ 32))))
    ∧ (∀ off, spotOf a.toNat = .page .pool off → 0x138 ≤ off → off < 0x140 →
        Safety.answers (exec (.readLo m (.bar0 a) 0 none) s) s (metaAnswer s m (.page .pool off) a.toNat)))
  ∧ (∀ (m : Master) (lo hi : Word) (s : State), Safety.canWrite s m (.page .tim 0x058) = true → Safety.canWrite s m (.page .tim 0x05C) = true →
    ∃ u, Safety.answers (exec (.registerWrite m 0x3058 0xF lo [(0xF, hi)]) s) s u
      ∧ reg64 u .tim 0x058 = lo.toNat + 2 ^ 32 * hi.toNat
      ∧ (∀ pg off, (pg ≠ .tim ∨ (off ≠ 0x058 ∧ off ≠ 0x05C)) → reg u pg off = reg s pg off)
      ∧ mst u m = { mst s m with pendLo := none } ∧ (∀ m', m' ≠ m → mst u m' = mst s m')
      ∧ u = { s with pages := u.pages, masters := u.masters })
  ∧ (∀ (m : Master) (src : ReadAt) (more : Fin 1024) (f : SramFault) (s : State), served s m = true → f.kind = .uncorrectable →
    (f.part = .tcm → Safety.answers (exec (.readLo m src more (some f)) s) s (resetAndStart s .tcmUncorrectable))
    ∧ (f.part ≠ .tcm → waits s m = false →
        Safety.answers (exec (.readLo m src more (some f)) s) s (emit (sramMet s f (mIdx m)) (.completerAbort m))))
  ∧ (∀ (p : Port) (s : State), let m := portMaster p
    served s m = true →
    (∀ off, Safety.answers (exec (.readLo m (.bar2 off) 0 none) s) s (emit s (.barData m 2 off.toNat 0)))
    ∧ (∀ off, Safety.answers (exec (.readLo m (.bar4 off) 0 none) s) s
        (emit s (.barData m 4 off.toNat (if (mst s m).frozen then 0 else BitVec.ofNat 32 (bar4Word s p (off.toNat / 4 * 4)))))))

/-- ENABLE (R48, R50). -/
def Obligations.EnableRow : Prop :=
  ∀ (m : Master) (pg : PageId) (s : State), Safety.canWrite s m (.page pg 0x08) = true → enableImpl pg = true →
    let w := if pageGated s pg then wake s 4 else s
    let g := ungatePage w pg
    ((page s pg).draining = true → Safety.answers (exec (.enable m pg) s) s
        (setPage w pg { page w pg with reason := 0x0002, field := 0xFF, evt := (page w pg).evt ||| 1 }))
    ∧ ((page s pg).draining = false → (page s pg).enabled = true → Safety.answers (exec (.enable m pg) s) s w)
    ∧ ((page s pg).draining = false → (page s pg).enabled = false →
        (∀ r f, (s.ready = false → (r, f) = ((0x0001, 0xFF) : Nat × Nat)) →
            (s.ready = true → (dependsOn pg).all (enabledNow g) = false → (r, f) = ((0x0003, 0xFF) : Nat × Nat)) →
            (s.ready = true → (dependsOn pg).all (enabledNow g) = true → (r, f) = ownCheck g pg) →
          (r = 0 → Safety.answers (exec (.enable m pg) s) s
            (onEnabled (setPage g pg { page g pg with enabled := true, reason := 0, field := BitVec.ofNat 8 f }) pg))
          ∧ (r ≠ 0 → Safety.answers (exec (.enable m pg) s) s
            (gatePage (setPage g pg { page g pg with reason := BitVec.ofNat 16 r, field := BitVec.ofNat 8 f,
                                                     evt := (page g pg).evt ||| 1 }) pg))))

/-- DISABLE, ABORT and DRAIN_END (R54, R55, R50). -/
def Obligations.DrainRows : Prop :=
  ∀ (m : Master) (pg : PageId) (s : State),
    let ended (u : State) : State := gatePage (onDrained (setPage u pg { page u pg with
      enabled := false, draining := false, aborting := false, fault := false, evt := (page u pg).evt ||| 2 }) pg) pg
    let refused (u : State) : State :=
      setPage u pg { page u pg with reason := 0x0004, field := 0xFF, evt := (page u pg).evt ||| 1 }
    let check (u : State) : State := if (page u pg).draining && !pageBusy u pg then ended u else u
    Safety.answers (exec (.drainEnd pg) s) s (check s)
    ∧ (Safety.canWrite s m (.page pg 0x08) = true →
        (enableImpl pg = false ∨ enabledNow s pg = false → Safety.answers (exec (.disable m pg) s) s s)
        ∧ (enableImpl pg = true → enabledNow s pg = true → dependentEnabled s pg = true →
            Safety.answers (exec (.disable m pg) s) s (refused s))
        ∧ (enableImpl pg = true → enabledNow s pg = true → dependentEnabled s pg = false →
            Safety.answers (exec (.disable m pg) s) s (check (onDrain (setPage s pg { page s pg with draining := true }) pg))))
    ∧ (Safety.canWrite s m (.page pg 0x08) = true → abortImpl pg = true →
        let w := if enabledNow s pg && pageGated s pg then wake s 4 else s
        ((page s pg).enabled = false → Safety.answers (exec (.abort m pg) s) s w)
        ∧ ((page s pg).enabled = true → dependentEnabled w pg = true → Safety.answers (exec (.abort m pg) s) s (refused w))
        ∧ ((page s pg).enabled = true → dependentEnabled w pg = false → Safety.answers (exec (.abort m pg) s) s
            (check (onAbort (setPage w pg { page w pg with draining := true, aborting := true }) pg))))

/-- CLR_COUNTERS (R58), EVT_REARM (R61), and writes of the event words (R40, R41, R58). -/
def Obligations.CounterAndEventRows : Prop :=
  (∀ (m : Master) (pg : PageId) (s : State), Safety.canWrite s m (.page pg 0x08) = true →
    let w := if enabledNow s pg && pageGated s pg then wake s 4 else s
    let c := setPage w pg { page w pg with ctrs := [], sat := 0 }
    ((pg ≠ .loopG ∧ pg ≠ .mem) → Safety.answers (exec (.clrCounters m pg) s) s c)
    ∧ (pg = .loopG → Safety.answers (exec (.clrCounters m pg) s) s (setReg c .loopG 0x044 0))
    ∧ (pg = .mem → Safety.answers (exec (.clrCounters m pg) s) s { c with mem := { s.mem with ageFrom := clock s } }))
  ∧ (∀ (m : Master) (p : Port) (s : State), Safety.canWrite s m (.page (.hp p) 0x04C) = true →
      Safety.answers (exec (.evtRearm m p) s) s (setPort s p { port s p with armed := true }))
  ∧ (∀ (m : Master) (pg : PageId) (v : Word) (s : State),
      let at_ (off : Nat) : BitVec 22 := BitVec.ofNat 22 (pageBase pg + off)
      (Safety.canWrite s m (.page pg 0x14) = true → Safety.answers (exec (.registerWrite m (at_ 0x14) 0xF v []) s) s
        (setPage s pg { page s pg with evt := (page s pg).evt &&& ~~~v }))
      ∧ (Safety.canWrite s m (.page pg 0x18) = true → Safety.answers (exec (.registerWrite m (at_ 0x18) 0xF v []) s) s
        (setPage s pg { page s pg with evtEn := v &&& 0xFFFFFF1F }))
      ∧ (Safety.canWrite s m (.page pg 0x1C) = true → Safety.answers (exec (.registerWrite m (at_ 0x1C) 0xF v []) s) s
        (setPage s pg { page s pg with sat := (page s pg).sat &&& ~~~v })))

/-- TRANSPORT_OWNER_WRITE (R64): bit 11 of DEV.EVT is OWNER_BUSY, bit 12 is OWNER_CHANGED. -/
def Obligations.TransportOwnerRow : Prop :=
  ∀ (m : Master) (v : Word) (s : State), Safety.canWrite s m (.page .dev 0x048) = true →
    let want (n : Nat) : Nat := v.toNat / 4 ^ n % 4
    let mine (n : Nat) : Bool := (sem s (4 + n)).holder = none || (sem s (4 + n)).holder = some m
    let busy : Bool := (List.range 16).any fun n => want n != 3 && !mine n
    let changed : Bool := (List.range 16).any fun n => want n != 3 && mine n && want n != owner s n
    ∃ u, Safety.answers (exec (.transportOwnerWrite m v) s) s u
      ∧ (∀ n, owner u n = if n < 16 && want n != 3 && mine n then want n else owner s n)
      ∧ (∀ k, (page u .dev).evt.getLsbD k = ((page s .dev).evt.getLsbD k || (k == 11 && busy) || (k == 12 && changed)))
      ∧ (∀ pg, page u pg = { page s pg with evt := (page u pg).evt }) ∧ (∀ pg, pg ≠ .dev → page u pg = page s pg)
      ∧ u = { s with owners := u.owners, pages := u.pages }

/-- SEM_LOCK_READ (R69; the RESULT codes are those of R72). -/
def Obligations.SemLockReadRow : Prop :=
  ∀ (m : Master) (k : Fin 32) (s : State), Safety.reaches s m (.page .sem (0x40 + 4 * k.val)) = true →
    let x := sem s k.val
    let result (t : State) (r : BitVec 4) : State := setMst t m { mst t m with semRes := r, semNo := BitVec.ofNat 6 k.val }
    let gives (t : State) (v : Nat) : State := answer t m (0x1040 + 4 * k.val) v
    let next : BitVec 16 := if x.token.getLsbD 0 then (x.token >>> 1) ^^^ 0xB400 else x.token >>> 1
    let higher : Bool := (List.range 32).any fun j => k.val < j && (sem s j).holder == some m
    (x.holder = none → higher = false → Safety.answers (exec (.semLockRead m k) s) s
      (gives (result (setSem s k.val { holder := some m, token := next, lease := 100, due := leaseClock s + 100000000 }) 0) next.toNat))
    ∧ (x.holder = none → higher = true → Safety.answers (exec (.semLockRead m k) s) s (gives (result s 2) 0))
    ∧ (x.holder = some m → Safety.answers (exec (.semLockRead m k) s) s
        (gives (result (setSem s k.val { x with due := leaseClock s + x.lease * 1000000 }) 3) x.token.toNat))
    ∧ (∀ m', m' ≠ m → x.holder = some m' → Safety.answers (exec (.semLockRead m k) s) s (gives (result s 1) 0))

/-- SEM_LOCK_WRITE (R70) and SEM_LEASE_WRITE (R71); a new hold starts at 100 ms again (see SemLockReadRow). -/
def Obligations.SemWriteRows : Prop :=
  ∀ (m : Master) (k : Fin 32) (v : Word) (s : State),
    let x := sem s k.val
    let result (t : State) (r : BitVec 4) : State := setMst t m { mst t m with semRes := r, semNo := BitVec.ofNat 6 k.val }
    let ms := v.toNat % 2 ^ 14
    (Safety.reaches s m (.page .sem (0x40 + 4 * k.val)) = true →
      (x.holder = some m → v.toNat % 2 ^ 16 = x.token.toNat → Safety.answers (exec (.semLockWrite m k v) s) s
        (result (setSem s k.val { x with holder := none }) 4))
      ∧ (¬ (x.holder = some m ∧ v.toNat % 2 ^ 16 = x.token.toNat) → Safety.answers (exec (.semLockWrite m k v) s) s (result s 5)))
    ∧ (Safety.reaches s m (.page .sem (0x100 + 4 * k.val)) = true →
      (x.holder = some m → 1 ≤ ms → ms ≤ 10000 → Safety.answers (exec (.semLeaseWrite m k v) s) s
        (result (setSem s k.val { x with lease := ms, due := leaseClock s + ms * 1000000 }) 3))
      ∧ (x.holder ≠ some m → Safety.answers (exec (.semLeaseWrite m k v) s) s (result s 6))
      ∧ (x.holder = some m → (ms = 0 ∨ 10000 < ms) → Safety.answers (exec (.semLeaseWrite m k v) s) s (result s 7)))

/-- LEASE_EXPIRY (R74, R75) and PORT_THAW (R79, R81). -/
def Obligations.LeaseExpiryAndThaw : Prop :=
  (∀ (k : Fin 32) (s : State),
    (∀ h, s.fwu.paused = false → (sem s k.val).holder = some h →
      ∃ u, Safety.answers (exec (.leaseExpiry k) s) s u
        ∧ u = logMgmt (setEvt (count (setForced (setSem s k.val { sem s k.val with holder := none })
            (w32 (k.val + 2 ^ 8 * holderCode (some h)))) .sem 0) .sem 8) 0x058B 1 (mIdx h) k.val 0
        ∧ sem u k.val = { sem s k.val with holder := none } ∧ (∀ j, j ≠ k.val → sem u j = sem s j)
        ∧ u.lastForced = w32 (k.val + 2 ^ 8 * holderCode (some h)) ∧ u.masters = s.masters ∧ u.owners = s.owners
        ∧ (page u .sem).evt.getLsbD 8 = true)
    ∧ ((s.fwu.paused = true ∨ (sem s k.val).holder = none) → Safety.answers (exec (.leaseExpiry k) s) s s))
  ∧ (∀ (m : Master) (v : Word) (s : State), Safety.canWrite s m (.page .dev 0x04C) = true →
    ∃ u, Safety.answers (exec (.portThaw m v) s) s u
      ∧ u = [Master.portA, .portB, .mgmt].foldl (fun t x => if v.getLsbD (mIdx x) then thawMaster t x else t) s
      ∧ ∀ x, mst u x = { mst s x with frozen := (mst s x).frozen && !v.getLsbD (mIdx x) })

/-- PERST_N_DEASSERT, REFCLK_RESTORED, HOST_LINK_UP, REFCLK_LOSS, D3HOT_ENTRY, D3HOT_TO_D0 (R399, R23, R90, R506). -/
def Obligations.HostPortRows : Prop :=
  ∀ (p : Port) (s : State),
    let t := port s p
    Safety.answers (exec (.perstNDeassert p) s) s (setPort s p { t with perstHigh := true })
    ∧ Safety.answers (exec (.refclkRestored p) s) s (setPort s p { t with refclk := true })
    ∧ (∀ rate width, (rate = 5 ∨ rate = 6 ∨ rate = 7) → (width = 4 ∨ width = 8 ∨ width = 16) →
        (t.perstHigh = true → t.refclk = true → p ∈ s.pwr.clkreq → t.linkUp = false →
          Safety.answers (exec (.hostLinkUp p rate width) s) s (setPort s p { t with linkUp := true, rate := rate, width := width }))
        ∧ ((t.perstHigh = false ∨ t.refclk = false ∨ p ∉ s.pwr.clkreq ∨ t.linkUp = true) →
          Safety.answers (exec (.hostLinkUp p rate width) s) s s))
    ∧ (t.linkUp = false → Safety.answers (exec (.refclkLoss p) s) s (setPort s p { t with refclk := false }))
    ∧ (t.linkUp = true → Safety.answers (exec (.refclkLoss p) s) s
        (let r := progressAll (portCleared s p)
         setPort r p { port r p with linkUp := false, rate := 0, width := 0, d3hot := false, refclk := false }))
    ∧ Safety.answers (exec (.d3hotEntry p) s) s (setPort s p { t with d3hot := t.d3hot || t.linkUp })
    ∧ (t.d3hot = true → Safety.answers (exec (.d3hotToD0 p) s) s
        (let r := progressAll (portCleared s p)
         setPort r p { port r p with d3hot := false }))
    ∧ (t.d3hot = false → Safety.answers (exec (.d3hotToD0 p) s) s s)

/-- PORT_RESET (R155, R153, R74, R81). -/
def Obligations.PortResetRow : Prop :=
  ∀ (p : Port) (s : State),
    let m := portMaster p
    let w := portCleared s p
    let r := progressAll w
    let down := setPort r p { port r p with linkUp := false, rate := 0, width := 0, d3hot := false }
    (Safety.answers (exec (.portReset p .hot) s) s r ∧ Safety.answers (exec (.portReset p .flr) s) s r
      ∧ Safety.answers (exec (.portReset p .linkDown) s) s down
      ∧ Safety.answers (exec (.portReset p .perst) s) s
          (endLantern (setPort down p { port down p with perstHigh := false }) false))
    ∧ page w (.hp p) = pageInit (.hp p) ∧ reg w (.hp p) 0x054 = 5000
    ∧ ((∀ q, sq w p q = {}) ∧ (∀ c, cq w p c = {}) ∧ (port w p).msixTable = [] ∧ (port w p).msixPba = []
        ∧ (port w p).armed = true ∧ (port w p).mailBusy = false)
    ∧ (mst w m).frozen = false ∧ (mst w m).waitPending = false ∧ (mst w m).opPtr = 0 ∧ (mst w m).winBase = 0 ∧ (mst w m).poolRes = 0
    ∧ (∀ k, k < 32 → (sem w k).holder ≠ some m)

/-- CAPSULE_WRITE (R98, R65, R59). -/
def Obligations.CapsuleWriteRow : Prop :=
  ∀ (p : Port) (off : BitVec 19) (bytes : List Byte) (s : State),
    1 ≤ bytes.length → bytes.length ≤ 4096 → off.toNat < 0x40000 →
    let row (u : State) : Prop := ∃ t, exec (.capsuleWrite p off bytes) s = .next t ∧ Safety.settles s u t
    let m := portMaster p
    let q := off.toNat / 0x1000
    let x := sq s p q
    let next := (vol s (4 * sqTransport x + sqPartition x)).accSeq + 1
    let acc : Option Nat := if sqDevice x = false ∧ next < 2 ^ 64 - 1 then some next else none
    let fits := bytes.length = 64 ∧ off.toNat % 64 = 0 ∧ x.enabled = true ∧ x.inbox.length < 256
    let w := wake s 1
    let taken := count (setSq (acceptSeq w x).1 p q
      { x with inbox := x.inbox ++ [⟨bytes, acc, sqDevice x || owner s (sqTransport x) == 1 + pIdx p⟩] }) (.hp p) 0
    let off' := freezeMaster w m 5 0x3F off.toNat
    ((barOpen s p = false ∨ (mst s m).frozen = true) → row s)
    ∧ (barOpen s p = true → (mst s m).frozen = false →
        (fits → x.draining = false → row taken) ∧ (fits → x.draining = true → row (flushInbox taken p q)) ∧ (¬ fits → row off'))
    ∧ (sq taken p q).inbox = x.inbox ++ [⟨bytes, acc, sqDevice x || owner s (sqTransport x) == 1 + pIdx p⟩]
    ∧ (∀ v, vol taken v = { vol s v with accSeq := if sqVol x = some v ∧ next < 2 ^ 64 - 1 then next else (vol s v).accSeq })
    ∧ taken.cmds = s.cmds ∧ (∀ j, sem taken j = sem s j) ∧ taken.masters = s.masters ∧ taken.pwr.bivouac = false
    ∧ ((mst s m).frozen = false → ∃ f, off' = endWrites (withdrawWait f m) p
        ∧ (mst f m).frozen = true ∧ (mst f m).cause = 5 ∧ (mst f m).addr = off.toNat
        ∧ (∀ k, k < 32 → (sem f k).holder ≠ some m) ∧ ∀ m', m' ≠ m → mst f m' = mst s m')

/-- COMMAND_START (R98, R101, R127, R509). -/
def Obligations.CommandStartRow : Prop :=
  ∀ (p : Port) (q : Fin 64) (s : State) (k : Capsule) (rest : List Capsule),
    let x := sq s p q.val
    let go := x.enabled = true ∧ x.frozen = false ∧ (mst s (portMaster p)).frozen = false ∧ portSends s p = true
    (∀ ram, (x.inbox = [] ∨ ¬ go) → Safety.answers (exec (.commandStart p q ram) s) s s)
    ∧ (x.inbox = k :: rest → go →
        (∀ v ram, sqVol x = some v → turnOf s v k = false → Safety.answers (exec (.commandStart p q ram) s) s s)
        ∧ ((∀ v, sqVol x = some v → turnOf s v k = true) → startStop s p q.val k = none →
            ∃ u, Safety.answers (exec (.commandStart p q none) s) s u
              ∧ sq u p q.val = { x with inbox := rest, sqhd := (x.sqhd + 1) % 65536 }
              ∧ u.nextCid = s.nextCid + 1 ∧ (cmd u s.nextCid).bytes = k.bytes ∧ (cmd u s.nextCid).port = p
              ∧ (cmd u s.nextCid).sq = q.val ∧ (cmd u s.nextCid).accSeq = k.accSeq ∧ (cmd u s.nextCid).vol = sqVol x
              ∧ (cmd u s.nextCid).phase = .started ∧ (∀ c, c ≠ s.nextCid → cmd u c = cmd s c)
              ∧ (∀ v, vol u v = if sqVol x = some v then { vol s v with turn := some s.nextCid } else vol s v)
              ∧ u = { s with ports := u.ports, cmds := u.cmds, nextCid := u.nextCid, vols := u.vols })
        ∧ (sqVol x = none → ∀ t, startStop s p q.val k = some t →
            Safety.answers (exec (.commandStart p q none) s) s
              (completeCapsule (nextFree s) p q.val k t.code t.result { reason := t.reason }))
        ∧ (∀ f : SramFault, ((∀ v, sqVol x = some v → turnOf s v k = true)) →
            (f.kind = .uncorrectable → ∃ u, sq u p q.val = { x with inbox := unreadable k :: rest }
              ∧ Safety.answers (exec (.commandStart p q (some f)) s) s (completeCapsule u p q.val (unreadable k) (4, 1) (2 ^ 64 - 1) {}))
            ∧ (f.kind ≠ .uncorrectable → startStop (sramMet s f (pIdx p)) p q.val k = none →
              Safety.answers (exec (.commandStart p q (some f)) s) s (startCmd (sramMet s f (pIdx p)) p q.val k (sqVol x)))))
    ∧ (k.owned = false → ∃ t, startStop s p q.val k = some t ∧ t.code = (2, 3))
    ∧ (k.owned = true → opcFlags (leAt k.bytes 0 1) = none → ∃ t, startStop s p q.val k = some t ∧ t.code = (2, 1))
    ∧ (k.owned = true → capsuleFault x k.bytes = none → (x.draining = true ∨ pageMissing s k.bytes (sqVol x) = true) →
        ∃ t, startStop s p q.val k = some t ∧ t.code = (2, 4))

/-- SQ_ENABLE, SQ_DISABLE, SQ_ABORT (R95, R97, R93). -/
def Obligations.SqControlRows : Prop :=
  ∀ (m : Master) (p : Port) (q : Fin 64) (s : State), Safety.canWrite s m (.sq p q.val 0) = true →
    let x := sq s p q.val
    let hp := page s (.hp p)
    let check (r f : Nat) : State := if r = 0 then setPage s (.hp p) { hp with reason := 0, field := BitVec.ofNat 8 f }
      else setPage s (.hp p) { hp with reason := BitVec.ofNat 16 r, field := BitVec.ofNat 8 f, evt := hp.evt ||| 1 }
    let why : Nat × Nat :=
      if s.ready = false then (0x0001, 0xFF)
      else if enabledNow s (.hp p) = false then (0x0003, 0xFF)
      else if sqDevice x = false ∧ (15 < sqTransport x ∨ 3 < sqPartition x) then (0x0701, q.val)
      else if sqDevice x = false ∧ owner s (sqTransport x) ≠ 1 + pIdx p then (0x0702, q.val)
      else if (cq s p (sqCq x)).enabled = false then (0x0705, q.val)
      else (0, 0)
    (x.draining = true → Safety.answers (exec (.sqEnable m p q) s) s (check 2 0xFF))
    ∧ (x.draining = false → x.enabled = true → Safety.answers (exec (.sqEnable m p q) s) s s)
    ∧ (x.draining = false → x.enabled = false → why.1 ≠ 0 → Safety.answers (exec (.sqEnable m p q) s) s (check why.1 why.2))
    ∧ (x.draining = false → x.enabled = false → why.1 = 0 → Safety.answers (exec (.sqEnable m p q) s) s
        (setSq (check 0 0) p q.val { x with enabled := true, frozen := false, sqhd := 0, inbox := [], ranges := [],
                                            lastEnd := 0, rangeWait := [], discarding := 0 }))
    ∧ (x.enabled = true → x.draining = false → Safety.answers (exec (.sqDisable m p q) s) s
        (flushInbox (setSq s p q.val { x with draining := true }) p q.val))
    ∧ ((x.enabled = false ∨ x.draining = true) → Safety.answers (exec (.sqDisable m p q) s) s s)
    ∧ (x.enabled = true → ∃ live : List Nat, (∀ c, c ∈ live ↔ (∃ k ∈ s.cmds, k.1 = c ∧ k.2.phase ≠ .ended ∧ k.2.port = p ∧ k.2.sq = q.val))
        ∧ Safety.answers (exec (.sqAbort m p q) s) s (flushInbox
          (live.foldl (fun t c => complete t c (6, 5) (endResult t c 6)) (setSq s p q.val { x with draining := true, aborting := true })) p q.val))
    ∧ (x.enabled = false → Safety.answers (exec (.sqAbort m p q) s) s s)

/-- RESUME (R150) and DISCARD (R151). -/
def Obligations.ResumeDiscardRows : Prop :=
  ∀ (m : Master) (p : Port) (q : Fin 64) (s : State), Safety.canWrite s m (.sq p q.val 0) = true →
    let x := sq s p q.val
    x.enabled = true → x.draining = false →
    (x.frozen = false → Safety.answers (exec (.resume m p q) s) s s ∧ Safety.answers (exec (.discard m p q) s) s s)
    ∧ (x.discarding ≠ 0 → Safety.answers (exec (.resume m p q) s) s s)
    ∧ (x.frozen = true → x.discarding = 0 →
        (sqVol x = none → Safety.answers (exec (.resume m p q) s) s (setSq s p q.val { x with frozen := false }))
        ∧ (∀ v, sqVol x = some v → ∃ u, Safety.answers (exec (.resume m p q) s) s u
            ∧ sq u p q.val = { x with frozen := false, inbox := x.inbox.mapIdx fun i k => { k with accSeq := Safety.accAt (vol s v).accSeq i } }
            ∧ (∀ p' q', ¬ (p' = p ∧ q' = q.val) → sq u p' q' = sq s p' q')
            ∧ (∀ w, vol u w = { vol s w with accSeq := (vol u w).accSeq }) ∧ u = { s with ports := u.ports, vols := u.vols }))
    ∧ (x.frozen = true →
        (x.inbox = [] → Safety.answers (exec (.discard m p q) s) s (setSq s p q.val { x with frozen := x.discarding != 0 }))
        ∧ (x.inbox ≠ [] → Safety.answers (exec (.discard m p q) s) s
            (completeInbox (setSq s p q.val { x with discarding := x.discarding + x.inbox.length }) p q.val x.inbox (6, 3) 2)))

/-- CQ_ENABLE, CQ_DISABLE (R94, R95), CQ_HEAD_WRITE, CQ_POST (R122), COAL_TIME_EXPIRY (R125). -/
def Obligations.CompletionQueueRows : Prop :=
  ∀ (m : Master) (p : Port) (c : Fin 64) (s : State),
    let x := cq s p c.val
    let hp := page s (.hp p)
    let check (t : State) (r f : Nat) : State := if r = 0 then setPage t (.hp p) { hp with reason := 0, field := BitVec.ofNat 8 f }
      else setPage t (.hp p) { hp with reason := BitVec.ofNat 16 r, field := BitVec.ofNat 8 f, evt := hp.evt ||| 1 }
    let n := x.size.toNat
    let why : Nat × Nat :=
      if s.ready = false then (0x0001, 0xFF)
      else if enabledNow s (.hp p) = false then (0x0003, 0xFF)
      else if x.base.toNat % 4096 ≠ 0 then (0x0704, 0x40 + c.val)
      else if n < 2 ∨ 65536 < n then (0x0703, 0x40 + c.val)
      else if 127 < x.irq.toNat % 256 then (0x0706, 0x40 + c.val)
      else (0, 0)
    (Safety.canWrite s m (.cq p c.val 0) = true → ∀ ien,
        let y := { x with ien := ien }
        let t := setCq s p c.val y
        (x.enabled = true → Safety.answers (exec (.cqEnable m p c ien) s) s t)
        ∧ (x.enabled = false → why.1 ≠ 0 → Safety.answers (exec (.cqEnable m p c ien) s) s (check t why.1 why.2))
        ∧ (x.enabled = false → why.1 = 0 → Safety.answers (exec (.cqEnable m p c ien) s) s
            (setCq (check t 0 0) p c.val { y with enabled := true, head := 0, tail := 0, phase := true, waiting := [], coalN := 0 }))
        ∧ (x.enabled = false → Safety.answers (exec (.cqDisable m p c ien) s) s t)
        ∧ (x.enabled = true → (∃ e ∈ (port s p).sqs, e.2.enabled = true ∧ sqCq e.2 = c.val) →
            Safety.answers (exec (.cqDisable m p c ien) s) s (check t 4 0xFF))
        ∧ (x.enabled = true → (¬ ∃ e ∈ (port s p).sqs, e.2.enabled = true ∧ sqCq e.2 = c.val) →
            Safety.answers (exec (.cqDisable m p c ien) s) s (setCq t p c.val { y with enabled := false, waiting := [], coalN := 0 })))
    ∧ (Safety.canWrite s m (.cq p c.val 0x1C) = true → ∀ v : Word,
        let h := v.toNat % 65536
        (h < n → (h + n - x.head) % n ≤ (x.tail + n - x.head) % n →
          Safety.answers (exec (.cqHeadWrite m p c v) s) s (setCq s p c.val { x with head := h }))
        ∧ ((n ≤ h ∨ (x.tail + n - x.head) % n < (h + n - x.head) % n) →
          Safety.answers (exec (.cqHeadWrite m p c v) s) s (setPage s (.hp p) { hp with evt := hp.evt ||| 0x2000 })))
    ∧ (∀ e rest, x.waiting = e :: rest → x.enabled = true → (x.tail + 1) % n ≠ x.head → s.fwu.paused = false → (port s p).d3hot = false →
        Safety.answers (exec (.cqPost p c) s) s (progressAll (endIfFrozen (writeCqe (setCq s p c.val { x with waiting := rest }) p c.val e) p)))
    ∧ ((x.waiting = [] ∨ x.enabled = false ∨ (x.tail + 1) % n = x.head ∨ s.fwu.paused = true ∨ (port s p).d3hot = true) →
        Safety.answers (exec (.cqPost p c) s) s s)
    ∧ (x.ien = true → 0 < x.coalN → s.fwu.paused = false → (port s p).d3hot = false → Safety.answers (exec (.coalTimeExpiry p c) s) s
        (sendMsix (setCq s p c.val { x with coalN := 0 }) p (x.irq.toNat % 128)))
    ∧ ((x.ien = false ∨ x.coalN = 0 ∨ s.fwu.paused = true ∨ (port s p).d3hot = true) → Safety.answers (exec (.coalTimeExpiry p c) s) s s)

/-- The cut of a WRITE into segments (R108). -/
def Obligations.SegmentCut : Prop :=
  ∀ ls : List Nat, (∀ l ∈ ls, 1 ≤ l ∧ l ≤ 16777216) →
    let gs := cutSegs ls 0 []
    gs.flatten = ls ∧ (∀ g ∈ gs, g ≠ [] ∧ g.sum ≤ 16777216)
    ∧ (∀ (i : Nat) (g h : List Nat), gs[i]? = some g → gs[i + 1]? = some h → 16777216 < g.sum + h.headD 0)
    ∧ (ls.sum ≤ 268435456 → gs.length ≤ 33)

/-- WRITE (R105 to R108), WRITE_MARK and SET_EOD (R113, R133, R134). -/
def Obligations.WriteTypeRows : Prop :=
  ∀ (cid : Nat) (s : State),
    let c := cmd s cid
    let v := c.vol.getD 0
    let lbn := if leAt c.bytes 8 8 = 2 ^ 64 - 1 then (vol s v).eod else leAt c.bytes 8 8
    let w := setCmd s cid { c with lbn := lbn, endLbn := lbn }
    let list := emit (setCmd s cid { c with lbn := lbn, endLbn := lbn, phase := .listWait }) (.dmaRead c.port (leAt c.bytes 24 8) (4 * leAt c.bytes 20 4))
    (Safety.begins s cid 1 → leAt c.bytes 36 4 = 0 →
        ((vol s v).eod ≤ lbn → Safety.answers (exec (.write cid) s) s (progressOf list cid))
        ∧ ((vol s v).eod > lbn →
          (∀ t, truncateAt w cid v lbn = .done t → Safety.answers (exec (.write cid) s) s (progressOf list cid))
          ∧ (∀ t, truncateAt w cid v lbn = .wait t → Safety.answers (exec (.write cid) s) s (progressOf t cid))
          ∧ (∀ code ds, truncateAt w cid v lbn = .fail code ds → Safety.answers (exec (.write cid) s) s
              (progressOf (complete w cid code (if code.1 = 3 then lbn else 0) { dataSet := ds }) cid))))
    ∧ (Safety.begins s cid 1 → leAt c.bytes 36 4 ≠ 0 → Safety.answers (exec (.write cid) s) s (progressOf (afterTrunc
        (setCmd s cid { c with lbn := lbn, endLbn := lbn, segs := cutSegs (List.replicate (leAt c.bytes 20 4) (leAt c.bytes 36 4)) 0 [] })
        cid fun t => writeSegs t cid) cid))
    ∧ (Safety.begins s cid 3 → Safety.answers (exec (.writeMark cid) s) s (progressOf (markTurn w cid) cid)
        ∧ ((vol s v).eod ≤ lbn → ∃ t g, markTurn w cid = t ∧ (vol t v).segs = (vol s v).segs ++ [g] ∧ g.seq = (vol s v).segNext
            ∧ g.marks = leAt c.bytes 16 4 ∧ g.firstLbn = lbn ∧ g.endLbn = lbn + g.marks
            ∧ (vol t v).segNext = (vol s v).segNext + 1 ∧ (cmd t cid).phase = .transfer
            ∧ (slice t (v / 4)).toAdmit = (slice s (v / 4)).toAdmit ++ [(cid, 0)]))
    ∧ (Safety.begins s cid 0xB → Safety.answers (exec (.setEod cid) s) s (progressOf (eodTurn w cid) cid)
        ∧ ((vol s v).eod ≤ lbn → ∃ t g, eodTurn w cid = complete (bufferSeg t g) cid (0, 0) 0
            ∧ (vol t v).segs = (vol s v).segs ++ [g] ∧ g.seq = (vol s v).segNext ∧ g.firstLbn = lbn ∧ g.endLbn = lbn ∧ g.marks = 0
            ∧ (vol t v).segNext = (vol s v).segNext + 1))
    ∧ (∀ (t : State) (go : State → State), (cmd t cid).vol = c.vol → (vol t v).eod ≤ (cmd t cid).lbn → afterTrunc t cid go = go t)
    ∧ (∀ t, t = writeSegs s cid →
        (∃ gs, (vol t v).segs = (vol s v).segs ++ gs ∧ gs.map (·.recs) = c.segs ∧ gs.map (·.no) = List.range c.segs.length
          ∧ (∀ g ∈ gs, g.cid = cid ∧ g.len = g.recs.sum ∧ g.endLbn = g.firstLbn + g.recs.length ∧ (g.phase = if g.no = 0 then .waitAdmit else .later)
              ∧ g.par = (vol s v).par)
          ∧ (∀ (i : Nat) (a b : Seg), gs[i]? = some a → gs[i + 1]? = some b → b.firstLbn = a.endLbn)
          ∧ (∀ a, gs[0]? = some a → a.firstLbn = c.lbn))
        ∧ (slice t (v / 4)).toAdmit = (slice s (v / 4)).toAdmit ++ [(cid, 0)] ∧ (cmd t cid).phase = .transfer)
    ∧ ((¬ Safety.begins s cid 1 → Safety.answers (exec (.write cid) s) s s)
      ∧ (¬ Safety.begins s cid 3 → Safety.answers (exec (.writeMark cid) s) s s)
      ∧ (¬ Safety.begins s cid 0xB → Safety.answers (exec (.setEod cid) s) s s))

/-- READ (R111), LOCATE, SPACE (R113), FLUSH (R137), MOUNT, UNMOUNT, FORMAT (R115), READ_POSITION (R114), SET_VOLUME_PARAMS (R116),
GET_LOG (R118). -/
def Obligations.VolumeBodies : Prop :=
  ∀ (cid : Nat) (s : State),
    let c := cmd s cid
    let v := c.vol.getD 0
    let x := vol s v
    let b := c.bytes
    let f (o n : Nat) : Nat := leAt b o n
    let row (i : Instr) (opc : Nat) (t : State) : Prop :=
      (Safety.begins s cid opc → Safety.answers (exec i s) s (progressOf t cid)) ∧ (¬ Safety.begins s cid opc → Safety.answers (exec i s) s s)
    let reading (d : Cmd) : State := itemsRun (setCmd s cid { d with phase := .reading }) cid
    let first := if f 8 8 = 2 ^ 64 - 1 then x.pos else f 8 8
    let whole := setCmd s cid { c with phase := .tape, stage := 0, pos := x.segNext }
    let kept := freeKept s v
    let mounting := setCmd kept cid { cmd kept cid with phase := .tape, stage := 0, pos := (vol kept ((cmd kept cid).vol.getD 0)).segNext }
    let bind : Binding := if f 36 1 < 128 then .slot (f 36 1) else .clear
    let par : CodeParams := ⟨f 37 1, f 38 1, f 39 1 % 2 == 1, f 39 1 / 2 % 2 == 1, BitVec.ofNat 16 (f 40 2), f 42 2⟩
    let ring := b.getD 36 0 == 0
    let es := if ring then errEntries s c.port (f 16 4) (f 20 4) else eventEntries s (f 16 4) (f 20 4)
    let sent := (numbered es).foldl (fun t e => emit t (.dmaWrite c.port (f 24 8 + 64 * e.1) e.2)) s
    row (.read cid) 2 (reading { c with lbn := first, endLbn := first })
    ∧ row (.locate cid) 4 (reading { c with lbn := if f 36 1 = 1 then x.eod else f 8 8 })
    ∧ row (.space cid) 5 (reading { c with pos := x.pos, residual := (BitVec.ofNat 64 (f 16 8)).toInt })
    ∧ row (.flush cid) 6 (setVol whole v { x with turn := none })
    ∧ row (.mount cid) 8 mounting ∧ row (.unmount cid) 9 whole ∧ row (.format cid) 0xA mounting
    ∧ row (.readPosition cid) 7 (complete (emit s (.dmaWrite c.port (f 24 8) (positionBytes s v))) cid (0, 0) 0)
    ∧ row (.setVolumeParams cid) 0x21 (complete (setVol s v { x with bind := bind, chainBreak := true, par := par }) cid (0, 0) 0)
    ∧ row (.getLog cid none) 0x20 (complete (if ring then markErrRead sent c.port (f 16 4) (f 20 4) else sent) cid (0, 0) es.length)
    ∧ (∀ (k : Nat) (h : SramFault), ring = true → k < f 20 4 → h.kind = .uncorrectable →
        let u := sramMet s h (pIdx c.port)
        let before := errEntries u c.port (f 16 4) k
        row (.getLog cid (some (k, h))) 0x20 (complete (markErrRead ((numbered before).foldl (fun t e =>
          emit t (.dmaWrite c.port (f 24 8 + 64 * e.1) e.2)) u) c.port (f 16 4) k) cid (4, 1) before.length))
    ∧ (positionBytes s v).length = 64 ∧ leAt (positionBytes s v) 0 8 = x.pos % 2 ^ 64 ∧ leAt (positionBytes s v) 24 8 = x.comEnd % 2 ^ 64

/-- SEGMENT_ADMIT (R195, R255), XFER_RDY_POST, DATA_WINDOW_WRITE (R109), TRANSFER_TIMEOUT (R110). -/
def Obligations.SegmentRows : Prop :=
  let row (c : Instr) (s u : State) : Prop := ∃ t, exec c s = .next t ∧ Safety.settles s u t
  (∀ (n : Fin 16) (s : State),
    (admitHead s n.val = none → row (.segmentAdmit n) s s)
    ∧ (∀ cid g, admitHead s n.val = some (cid, g) →
      let need := (g.len + 1048575) / 1048576 * 1048576 + g.blocks * 73728
      ((s.fwu.paused = true ∨ usableShare s n.val < chargeOf s n.val + need) → row (.segmentAdmit n) s s)
      ∧ (s.fwu.paused = false → chargeOf s n.val + need ≤ usableShare s n.val →
          (s.pool.dead = true → row (.segmentAdmit n) s (progress (complete s cid (4, 1) (endResult s cid 4)) n.val))
          ∧ (s.pool.dead = false → unitsSpent s g = true → row (.segmentAdmit n) s (progress (haltExhausted s g.vol) n.val))
          ∧ (s.pool.dead = false → unitsSpent s g = false → segSlots s n.val g = none → row (.segmentAdmit n) s (progress s n.val))
          ∧ (s.pool.dead = false → unitsSpent s g = false → ∀ t la lb, segSlots s n.val g = some (t, la, lb) →
              let u := admitSeg t n.val cid g la lb
              (g.marks = 0 → row (.segmentAdmit n) s
                (progress (modSq u (cmd s cid).port (cmd s cid).sq fun x => { x with rangeWait := x.rangeWait ++ [cid] }) n.val))
              ∧ (0 < g.marks → ∀ h, seg? u g.vol cid g.no = some h → row (.segmentAdmit n) s (progress (writeDone (bufferSeg u h) h) n.val))
              ∧ (0 < g.marks → seg? u g.vol cid g.no = none → row (.segmentAdmit n) s (progress u n.val))
              ∧ (slice u n.val).toAdmit = (slice t n.val).toAdmit.tail
              ∧ (∀ h ∈ (vol t g.vol).segs, h.cid = cid → h.no = g.no → ∃ k ∈ (vol u g.vol).segs, k.cid = cid ∧ k.no = g.no
                  ∧ k.staging = la ∧ k.p2 = lb ∧ k.recs = h.recs ∧ (g.marks = 0 → k.phase = .waitRange))))))
  ∧ (∀ (p : Port) (q : Fin 64) (s : State),
    let x := sq s p q.val
    (x.rangeWait = [] → row (.xferRdyPost p q) s s)
    ∧ (∀ cid rest, x.rangeWait = cid :: rest →
        ((cmd s cid).vol.bind fun v => (vol s v).segs.find? fun h => h.cid == cid && h.phase == .waitRange) = none →
        row (.xferRdyPost p q) s (setSq s p q.val { x with rangeWait := rest }))
    ∧ (∀ cid rest v g, x.rangeWait = cid :: rest → (cmd s cid).vol = some v →
        (vol s v).segs.find? (fun h => h.cid == cid && h.phase == .waitRange) = some g →
      ((16 ≤ x.ranges.length ∨ s.fwu.paused = true ∨ placeRange x.ranges x.lastEnd g.len = none) → row (.xferRdyPost p q) s s)
      ∧ (x.ranges.length < 16 → s.fwu.paused = false → ∀ off, placeRange x.ranges x.lastEnd g.len = some off →
          let w := modSeg (setSq s p q.val { x with ranges := x.ranges ++ [(off, g.len)], lastEnd := off + g.len, rangeWait := rest })
            g.vol cid g.no fun h => { h with off := off, phase := .waitPost }
          (off % 4096 = 0 ∧ off + g.len ≤ 67108864 ∧ ∀ r ∈ x.ranges, off + g.len ≤ r.1 ∨ r.1 + r.2 ≤ off)
          ∧ row (.xferRdyPost p q) s (endIfFrozen (postEntry w p
              { kind := .xferRdy, sq := q.val, tag := BitVec.ofNat 16 (leAt (cmd s cid).bytes 2 2), segNo := BitVec.ofNat 16 g.no,
                result := BitVec.ofNat 64 (off + 2 ^ 32 * g.len), counted := false, cid := cid }) p))))
  ∧ (∀ (p : Port) (off : BitVec 32) (b : List Byte) (s : State), 1 ≤ b.length → b.length ≤ 4096 →
    let q := off.toNat / 67108864
    let a := off.toNat % 67108864
    let w := wake s 1
    let lost (u : State) : State := setEvt (count u (.hp p) 2) (.hp p) 9
    let stored := windowStore w p q (b.length + 1) a b
    ((barOpen s p = false ∨ (mst s (portMaster p)).frozen = true) → row (.dataWindowWrite p off b) s s)
    ∧ (barOpen s p = true → (mst s (portMaster p)).frozen = false →
        (∀ g, openSegAt w p q a = some g → a + b.length ≤ g.off + g.len →
          row (.dataWindowWrite p off b) s (progressSq (segArrive w g (a - g.off) b) p q))
        ∧ ((∀ i, i < b.length → openSegAt w p q (a + i) = none) → row (.dataWindowWrite p off b) s (progressSq (lost w) p q))
        ∧ row (.dataWindowWrite p off b) s (progressSq (if stored.2 then lost stored.1 else stored.1) p q)))
  ∧ (∀ (cid : Nat) (s : State),
    (s.fwu.paused = false → (∃ v, (cmd s cid).vol = some v ∧ ∃ g ∈ (vol s v).segs, g.cid = cid ∧ g.phase = .isOpen) →
        row (.transferTimeout cid) s (progressOf (complete s cid (6, 1) (endResult s cid 6)) cid))
    ∧ ((s.fwu.paused = true ∨ ¬ ∃ v, (cmd s cid).vol = some v ∧ ∃ g ∈ (vol s v).segs, g.cid = cid ∧ g.phase = .isOpen) →
        row (.transferTimeout cid) s s))

/-- DMA_READ_COMPLETION, DMA_READ_FAILURE (R107, R111, R458, R463, R507). -/
def Obligations.DmaRows : Prop :=
  ∀ (s : State) (b : List Byte),
    (∀ cid : Nat,
      let c := cmd s cid
      let need := 4 * leAt c.bytes 20 4
      let d := c.dma ++ b
      let ls := (List.range (leAt c.bytes 20 4)).map fun i => leAt (d.take need) (4 * i) 4
      let waits (opc : Nat) : Prop := c.phase = .listWait ∧ leAt c.bytes 0 1 = opc
      let failed := progressOf (complete (emit s (.aer c.port)) cid (2, 2) 24) cid
      (¬ waits 1 → Safety.answers (exec (.dmaReadCompletion (.recordList cid) b) s) s s)
      ∧ (waits 1 → s.fwu.paused = true → Safety.answers (exec (.dmaReadCompletion (.recordList cid) b) s) s (setCmd s cid { c with dma := d }))
      ∧ (waits 1 → s.fwu.paused = false → d.length < need →
          Safety.answers (exec (.dmaReadCompletion (.recordList cid) b) s) s (progressOf (setCmd s cid { c with dma := d }) cid))
      ∧ (waits 1 → s.fwu.paused = false → need ≤ d.length → (∀ l ∈ ls, 1 ≤ l ∧ l ≤ 16777216) → ls.sum = leAt c.bytes 16 4 →
          2 ^ 64 - 1 < (vol s (c.vol.getD 0)).segNext + (cutSegs ls 0 []).length →
          Safety.answers (exec (.dmaReadCompletion (.recordList cid) b) s) s (progressOf (complete s cid (2, 0xA) 0) cid))
      ∧ (waits 1 → s.fwu.paused = false → need ≤ d.length → (∀ l ∈ ls, 1 ≤ l ∧ l ≤ 16777216) → ls.sum = leAt c.bytes 16 4 →
          (vol s (c.vol.getD 0)).segNext + (cutSegs ls 0 []).length ≤ 2 ^ 64 - 1 →
          Safety.answers (exec (.dmaReadCompletion (.recordList cid) b) s) s
            (progressOf (writeTurn (setCmd s cid { c with segs := cutSegs ls 0 [], dma := [] }) cid) cid))
      ∧ (waits 1 → s.fwu.paused = false → need ≤ d.length → (¬ (∀ l ∈ ls, 1 ≤ l ∧ l ≤ 16777216) ∨ ls.sum ≠ leAt c.bytes 16 4) →
          Safety.answers (exec (.dmaReadCompletion (.recordList cid) b) s) s (progressOf (complete s cid (2, 0xF) 0) cid))
      ∧ (¬ waits 2 → Safety.answers (exec (.dmaReadCompletion (.scatter cid) b) s) s s)
      ∧ (waits 2 → s.fwu.paused = true → Safety.answers (exec (.dmaReadCompletion (.scatter cid) b) s) s (setCmd s cid { c with dma := d }))
      ∧ (waits 2 → s.fwu.paused = false → d.length = 16 →
          ((leAt d 8 4 = 0 ∨ leAt d 12 4 ≠ 0 ∨ 0xFFFFFFFF < c.scSum + leAt d 8 4) →
            Safety.answers (exec (.dmaReadCompletion (.scatter cid) b) s) s (progressOf (complete s cid (2, 2) 24) cid))
          ∧ (leAt d 8 4 ≠ 0 → leAt d 12 4 = 0 → c.scSum + leAt d 8 4 ≤ 0xFFFFFFFF →
            Safety.answers (exec (.dmaReadCompletion (.scatter cid) b) s) s (progressOf (itemsRun (setCmd s cid { c with
              phase := .reading, scatter := c.scatter ++ [(leAt d 0 8, leAt d 8 4)], scNext := c.scNext + 1,
              scSum := c.scSum + leAt d 8 4, dma := [] }) cid) cid)))
      ∧ (waits 1 → Safety.answers (exec (.dmaReadFailure (.recordList cid)) s) s failed)
      ∧ (¬ waits 1 → Safety.answers (exec (.dmaReadFailure (.recordList cid)) s) s s)
      ∧ (waits 2 → Safety.answers (exec (.dmaReadFailure (.scatter cid)) s) s failed)
      ∧ (¬ waits 2 → Safety.answers (exec (.dmaReadFailure (.scatter cid)) s) s s))
    ∧ (∀ p : Port,
      let x := nvq s (portNvq p)
      let lost : NvDesc := { op := 0, flags := 0, reserved := false, length := 0, addr := 0, ptr := 0, lost := true }
      (x.reads = [] → Safety.answers (exec (.dmaReadCompletion (.descriptor p) b) s) s s
        ∧ Safety.answers (exec (.dmaReadFailure (.descriptor p)) s) s s)
      ∧ (∀ n rest, x.reads = .descs n :: rest →
        Safety.answers (exec (.dmaReadCompletion (.descriptor p) b) s) s (skim (modNvq s (portNvq p) fun x =>
          { x with reads := rest, fetched := x.fetched ++ (List.range n).map fun i => descOf (sub b (32 * i) 32) }))
        ∧ Safety.answers (exec (.dmaReadFailure (.descriptor p)) s) s (skim (modNvq s (portNvq p) fun x =>
          { x with reads := rest, fetched := x.fetched ++ List.replicate n lost }))))

/-- ERRLOG_WINDOW_READ (R149, R167), CODEC_JOB (R117), ACTIVATE_FIRMWARE (R119). -/
def Obligations.DeviceBodies : Prop :=
  (∀ (m : Master) (p : Port) (i : Fin 256) (w : Fin 16) (s : State), Safety.reaches s m (.err p i.val w.val) = true →
    let v := match tget ((port s p).errs.map fun e => (e.1, some e.2)) i.val none with
      | some e => leAt e.bytes (4 * w.val) 4
      | none => 0
    let a := 0x14000 + 0x10000 * pIdx p + 0x40 * i.val + 4 * w.val
    Safety.answers (exec (.errlogWindowRead m p i w none) s) s (answer (setPort s p { port s p with
      errs := (port s p).errs.map fun e => if e.1 = i.val then (e.1, { e.2 with read := true }) else e }) m a v)
    ∧ ∀ f : SramFault, f.kind = .uncorrectable →
        Safety.answers (exec (.errlogWindowRead m p i w (some f)) s) s (emit (sramMet s f (mIdx m)) (.completerAbort m)))
  ∧ (∀ (cid : Nat) (s : State),
    let c := cmd s cid
    let i := (leAt c.bytes 44 8, leAt c.bytes 16 4)
    let o := (leAt c.bytes 24 8, leAt c.bytes 32 4)
    let lap := i.1 < o.1 + o.2 ∧ o.1 < i.1 + i.2
    (¬ Safety.begins s cid 0x10 → Safety.answers (exec (.codecJob cid) s) s s)
    ∧ (Safety.begins s cid 0x10 →
      ((portHolds s c.port i.1 = false ∨ portHolds s c.port o.1 = false) →
        Safety.answers (exec (.codecJob cid) s) s (progressOf (complete s cid (2, 0xD) 0) cid))
      ∧ (portHolds s c.port i.1 = true → portHolds s c.port o.1 = true →
        (pastSlot s o = true → Safety.answers (exec (.codecJob cid) s) s (progressOf (complete s cid (2, 2) 24) cid))
        ∧ (pastSlot s o = false → ¬ lap → pastSlot s i = true →
            Safety.answers (exec (.codecJob cid) s) s (progressOf (complete s cid (2, 2) 44) cid))
        ∧ (pastSlot s o = false → lap →
            Safety.answers (exec (.codecJob cid) s) s (progressOf (complete s cid (2, 2) 24) cid))
        ∧ (pastSlot s o = false → pastSlot s i = false → ¬ lap →
            Safety.answers (exec (.codecJob cid) s) s (progressOf (strandJobs (setCmd s cid { c with phase := .running, stage := 0 })) cid))))
    ∧ (¬ Safety.begins s cid 0x30 → Safety.answers (exec (.activateFirmware cid) s) s s)
    ∧ (Safety.begins s cid 0x30 →
      let t := leAt c.bytes 36 8
      let quiet := (c.bytes.getD 1 0).getLsbD 2
      let chk := stepCheck s (.activate t quiet (portFleet s c.port))
      ((sem s 2).holder ≠ some (portMaster c.port) → Safety.answers (exec (.activateFirmware cid) s) s (complete s cid (2, 0xC) (endResult s cid 2)))
      ∧ ((sem s 2).holder = some (portMaster c.port) →
        ((s.fwu.phase = .scheduled ∨ s.fwu.phase = .trial) →
          Safety.answers (exec (.activateFirmware cid) s) s (complete s cid (8, 1) (endResult s cid 8)))
        ∧ (s.fwu.phase ≠ .scheduled → s.fwu.phase ≠ .trial →
          (chk.2 ≠ 0 → Safety.answers (exec (.activateFirmware cid) s) s (complete chk.1 cid (2, 0xB) chk.2))
          ∧ (chk.2 = 0 → t = 0 → Safety.answers (exec (.activateFirmware cid) s) s
              (activateOp (modCmd chk.1 cid fun c => { c with phase := .gated }) 0 quiet (some cid)))
          ∧ (chk.2 = 0 → t ≠ 0 → Safety.answers (exec (.activateFirmware cid) s) s
              (complete (activateOp chk.1 t quiet none) cid (0, 0) (endResult chk.1 cid 0)))))))

/-- ALLOC, ALLOC_WAIT, CANCEL_WAIT (R511, R185, R187). -/
def Obligations.PoolRequestRows : Prop :=
  ∀ (m : Master) (want : PoolWant) (s : State), wantOk m want = true → Safety.canWrite s m (.page .pool 0x108) = true →
    let pool := wantedPool want
    let p := pool.toNat
    let w := wake s 3
    let g := setMst w m { mst w m with waitGranted := false }
    let result (t : State) (r op : Nat) : State := setMst t m { mst t m with poolRes := BitVec.ofNat 4 r, poolOp := BitVec.ofNat 3 op }
    let early : Option Nat :=
      if enabledNow w .pool = false then some 0xB else if (page w .pool).fault = true ∨ w.pool.dead = true then some 0xD else if 4 < p then some 0xC else none
    let granted (v : State) (a : Nat) : State :=
      let t := metaAt v a
      let u := count (setMeta t a { st := .allocated, refs := 1, ownerHolds := true, owner := BitVec.ofNat 6 (mIdx m),
                                    gen := (slotMeta t a).gen + 1, filling := true }) .pool 0
      setMst u m { mst u m with myPtr := w64 a }
    (∀ r, early = some r →
      Safety.answers (exec (.alloc m want) s) s (result w r 1) ∧ Safety.answers (exec (.allocWait m want) s) s (result g r 2)
      ∧ Safety.answers (exec (.cancelWait m pool) s) s (result w r 5))
    ∧ (early = none →
      ((mst w m).waitPending = true → Safety.answers (exec (.allocWait m want) s) s (result g 8 2))
      ∧ ((mst w m).waitPending = false → Safety.answers (exec (.cancelWait m pool) s) s (result w 9 5))
      ∧ ((mst w m).waitPending = true → ∃ t, Safety.answers (exec (.cancelWait m pool) s) s (result t 0 5)
          ∧ (let k := (mst w m).waitPool.toNat
             t = setMst (setWaits w k ((waitList w k).filter (· != .master m))) m { mst w m with waitPending := false }))
      ∧ (overQuota w m p = true → Safety.answers (exec (.alloc m want) s) s (result w 5 1))
      ∧ ((mst w m).waitPending = false → overQuota g m p = true → Safety.answers (exec (.allocWait m want) s) s (result g 5 2))
      ∧ (overQuota w m p = false →
          (∀ a, findFree w p = some a → Safety.answers (exec (.alloc m want) s) s (result (granted w a) 0 1))
          ∧ (findFree w p = none → Safety.answers (exec (.alloc m want) s) s (result (count (raise w .pool 11) .pool 1) 1 1)))
      ∧ ((mst w m).waitPending = false → overQuota g m p = false →
          (∀ a, findFree g p = some a → Safety.answers (exec (.allocWait m want) s) s (result (granted g a) 0 2))
          ∧ (findFree g p = none → ∃ t u, t = setWaits (raise g .pool 11) p (waitList (raise g .pool 11) p ++ [.master m])
              ∧ u = setMst t m { mst t m with waitPending := true, waitPool := pool }
              ∧ Safety.answers (exec (.allocWait m want) s) s (result (count u .pool 2) 2 2))))

/-- SHARE, RELEASE (R188, R187, R185). -/
def Obligations.PoolHolderRows : Prop :=
  ∀ (m : Master) (target : BitVec 6) (s : State), Safety.canWrite s m (.page .pool 0x108) = true →
    let w := wake s 3
    let a := (mst w m).opPtr.toNat
    let result (t : State) (r op : Nat) : State := setMst t m { mst t m with poolRes := BitVec.ofNat 4 r, poolOp := BitVec.ofNat 3 op }
    let gone := (page w .pool).fault = true ∨ w.pool.dead = true
    let live := enabledNow w .pool = true ∧ ¬ gone
    let share (t : State) := Safety.answers (exec (.share m target) s) s t
    let release (t : State) := Safety.answers (exec (.release m) s) s t
    let free (x : SlotMeta) (t : State) := if x.st = .retiring then
        raise (count (setMeta t a { slotMeta t a with st := .retired, refs := 0 }) .pool 4) .pool 12 a
      else handOut (setMeta t a { slotMeta t a with st := .free, refs := 0, filling := false }) a
    (enabledNow w .pool = false → share (result w 0xB 3) ∧ release (result w 0xB 4))
    ∧ (enabledNow w .pool = true → gone → share (result w 0xD 3) ∧ release (result w 0xD 4))
    ∧ (live → generalAt w a = none → share (freezeMaster w m 4 0x3F a) ∧ release (freezeMaster w m 4 0x3F a))
    ∧ (∀ p i, live → generalAt w a = some (p, i) →
      let v := metaRead w p i
      let x := slotMeta v a
      (x.st = .free → release (freezeMaster v m 2 0x3F a))
      ∧ (isHolder x (mIdx m) = false → share (freezeMaster v m 3 0x3F a) ∧ (x.st ≠ .free → release (freezeMaster v m 3 0x3F a)))
      ∧ (isHolder x (mIdx m) = true → ∀ u y, u = metaAt v a → y = slotMeta u a → ∃ t, t = setMeta u a (dropHolder y (mIdx m))
          ∧ (1 < y.refs → release (result t 0 4)) ∧ (y.refs ≤ 1 → release (result (free y t) 0 4)))
      ∧ (isHolder x (mIdx m) = true →
        (x.st = .retiring → share (result v 0xA 3))
        ∧ (x.st ≠ .retiring → 2 < target.toNat → share (result v 7 3))
        ∧ (x.st ≠ .retiring → target.toNat ≤ 2 →
          (isHolder x target.toNat = true → share (result v 6 3))
          ∧ (isHolder x target.toNat = false →
            (canShare x = false → share (result (count v .pool 3) 4 3))
            ∧ (canShare x = true →
              (overQuota v (nthMaster target.toNat) p = true → share (result v 5 3))
              ∧ (overQuota v (nthMaster target.toNat) p = false → share (result (setMeta v a (addHolder x target.toNat)) 0 3)))))))

/-- SLOT_WINDOW_ACCESS, SLOT_FILL_DONE (R192, R166, R170). -/
def Obligations.WindowRows : Prop :=
  (∀ (m : Master) (off : BitVec 11) (s : State), served s m = true → (mst s m).frozen = false → shown s (spotOf (0x8800 + off.toNat)) = true →
    (∃ h ∈ s.pool.held, h.m = m) → ∀ be,
      let back (x : Access) := modPool s fun t => { t with held := t.held ++ [{ m := m, acc := x }] }
      Safety.answers (exec (.slotWindowAccess m off be none) s) s (back (.read (0x8800 + off.toNat)))
      ∧ ∀ v, Safety.answers (exec (.slotWindowAccess m off be (some v)) s) s (back (.write (0x8800 + off.toNat) be v)))
  ∧ (∀ (m : Master) (off : BitVec 11) (s : State), off.toNat % 4 = 0 → Safety.reaches s m (.page .pool (0x800 + off.toNat)) = true →
    let w := wake s 3
    let a := (mst w m).winBase.toNat + off.toNat
    let held := (List.range 4).all fun i => byteHeld w m (a + i)
    let stop := setMst w m { mst w m with poolRes := 0xE, poolOp := BitVec.ofNat 3 (mst w m).poolOp.toNat }
    let back (u : State) (x : Access) := modPool u fun t => { t with held := t.held ++ [{ m := m, acc := x }] }
    let put (v : Word) : Access := .write (0x8800 + off.toNat) 0xF v
    let get : Access := .read (0x8800 + off.toNat)
    let read (t : State) := ∀ be, Safety.answers (exec (.slotWindowAccess m off be none) s) s t
    let write (v : Word) (t : State) := Safety.answers (exec (.slotWindowAccess m off 0xF (some v)) s) s t
    (held = true → fillRuns w a = true → read (back w get) ∧ ∀ v, write v (back w (put v)))
    ∧ (held = false → read (answer stop m (0x8800 + off.toNat) 0) ∧ ∀ v, write v stop)
    ∧ (held = true → fillRuns w a = false →
      (anyBad w a 4 = true → read (emit (readBad w a 4 (mIdx m)) (.completerAbort m)))
      ∧ (anyBad w a 4 = false → read (answer w m (0x8800 + off.toNat) (leNat ((List.range 4).map fun i => ramByte w (a + i)))))
      ∧ (∀ v, ∃ u, write v u
          ∧ (∀ x, ramByte u x = if a ≤ x ∧ x < a + 4 then (leBytes 4 v.toNat).getD (x - a) 0
              else if x / 32 ∈ w.mem.bad ∧ a < 32 * (x / 32) + 32 ∧ 32 * (x / 32) < a + 4 then 0 else ramByte w x)
          ∧ (Memory.wf w.mem.ram = true → Memory.wf u.mem.ram = true))))
  ∧ (∀ (a : Nat) (s : State),
    (((slotOf s a).isSome = false ∨ (slotMeta s a).filling = false) → Safety.answers (exec (.slotFillDone a) s) s s)
    ∧ (∀ p i, slotOf s a = some (p, i) → (slotMeta s a).filling = true →
        ∃ t, t = setMeta (bufClear s a (slotSize p) (slotMeta s a).owner.toNat) a { slotMeta s a with filling := false }
          ∧ Safety.answers (exec (.slotFillDone a) s) s (progressAll (serveHeld t))
          ∧ (∀ x, ramByte t x = if a ≤ x ∧ x < a + slotSize p then 0 else ramByte s x)
          ∧ (Memory.wf s.mem.ram = true → Memory.wf t.mem.ram = true)))

/-- SCRUB_ROW (R171 to R173, R164). -/
def Obligations.ScrubRow : Prop :=
  ∀ (ch : Fin 32) (found : List ScrubFinding) (s : State), found.all findingOk = true →
    let row := tget s.mem.scrubRows ch.val 0
    let idle := enabledNow s .mem = false ∨ field s .mem 0x040 0 1 = 0 ∨ (reg s .mem 0x048).getLsbD ch.val = true
      ∨ rowsPerChannel s.code ≤ row ∨ s.pwr.bivouac = true
    (idle → Safety.answers (exec (.scrubRow ch found) s) s s)
    ∧ (¬ idle → ∃ f t : State → State,
      Safety.answers (exec (.scrubRow ch found) s) s (t (modMem (found.foldl (scrubBlock ch.val row) s) fun m =>
        { m with scrubRows := tput m.scrubRows ch.val (row + 1) }))
      ∧ f = (fun u => setReg u .mem 0x04C (w32 (min ((clock u - u.mem.lapStart) / 1000000) 0xFFFFFFFF)))
      ∧ ∀ u : State, t u = if ((List.range 32).all fun c => (reg u .mem 0x048).getLsbD c || decide (rowsPerChannel u.code ≤ tget u.mem.scrubRows c 0)) = true
        then setEvt (count (modMem (f u) fun m => { m with scrubRows := [], lapStart := clock (f u), ageFrom := clock (f u) }) .mem 0) .mem 12 else u)
    ∧ (∀ x ∈ found, ∀ u : State,
      let a := blockAddr ch.val row x.blk
      let b := a / 32
      let reads (d : List Byte) : State := modMem u fun m => { m with ram := Memory.put ramDefault m.ram (32 * b) d, bad := m.bad.filter (· != b) }
      let test (v : State) : State := if x.readBackOk = true then v else hardFault v b 35
      (classify x.data x.check = .clean → scrubBlock ch.val row u x = reads x.data)
      ∧ (∀ i, classify x.data x.check = .dataBit i → scrubBlock ch.val row u x = test (memFault (reads (flipBit x.data i)) 0 a 35))
      ∧ (classify x.data x.check = .checkBit → scrubBlock ch.val row u x = test (memFault (reads x.data) 1 a 35))
      ∧ (classify x.data x.check = .uncorrectable → ∃ v, scrubBlock ch.val row u x = memFault v 2 a 35
          ∧ v = { u with mem := { u.mem with bad := v.mem.bad, testDue := v.mem.testDue } }
          ∧ (∀ k, k ∈ v.mem.bad ↔ k = b ∨ k ∈ u.mem.bad)
          ∧ (∀ k, k ∈ v.mem.testDue ↔ (k = b ∧ x.readBackOk = false) ∨ k ∈ u.mem.testDue)))
    ∧ (Memory.wf s.mem.ram = true → Memory.wf (found.foldl (scrubBlock ch.val row) s).mem.ram = true)

/-- LANE_DISPATCH, BLOCK_COMPRESSED, BLOCK_DECOMPRESSED, CODEC_JOB_DONE (R85, R232, R205, R206, R241). -/
def Obligations.LaneRows : Prop :=
  (∀ (cl : Fin 16) (lane : Fin 4) (s : State),
    let m := cl.val
    let l := lane.val
    let idle := s.fwu.paused = true ∨ laneFree s m l = false ∨ (domGated s (16 + m) = true ∧ openLane s = true)
    let ks := requesters s m l
    let passed (k : Nat) : Nat := tget s.sched.passed k 0
    let free := setLane s m l (if laneServes s m l = true then ((jobOn s m).map LaneWork.job).getD .idle else .idle)
    let done (t : State) : Prop := Safety.answers (exec (.blockCompressed cl lane none) s) s t
    let decoded (t : State) : Prop := Safety.answers (exec (.blockDecompressed cl lane none) s) s t
    let spoilt (f : SramFault) : Prop := f.kind = .uncorrectable ∧ ∀ n i, f.part ≠ .ingest n i
    (∀ k, k ∈ ks ↔ k < 256 ∧ hasWork s m l (k / 64) (k % 64) = true)
    ∧ (idle → Safety.answers (exec (.laneDispatch cl lane) s) s s)
    ∧ (¬ idle → ks = [] → Safety.answers (exec (.laneDispatch cl lane) s) s s)
    ∧ (¬ idle → ks ≠ [] → ∃ k ∈ ks,
        ((∃ j ∈ ks, 16 ≤ passed j) → 16 ≤ passed k)
        ∧ ((∀ j ∈ ks, passed j < 16) → (∃ j ∈ ks, j / 64 = 3) → k / 64 = 3)
        ∧ Safety.answers (exec (.laneDispatch cl lane) s) s
            (giveWork { ungate s (16 + m) with sched := {
              kind := if k / 64 = 3 then s.sched.kind else (k / 64 + 1) % 3,
              next := tput s.sched.next (k / 64) ((k % 64 + 1) % 64),
              passed := (ks.filter (· != k)).map fun j => (j, passed j + 1) } } m l k))
    ∧ (∀ (u : State) (v : Nat), v < 64 →
        (∀ b, readyWrite u v = some b → giveWork u m l v = modBlk (setLane (saveLane u m l) m l (.compress v b.q)) v b.q fun b =>
          { b with phase := .lane, chain := none })
        ∧ (∀ b, chainFor u v m l = some b → giveWork u m l (192 + v) = giveChain (saveOthers u m l (v / 4)) v m l b))
    ∧ (((∀ v q, laneWork s m l ≠ .compress v q) ∧ (∀ v c n a, laneWork s m l ≠ .early v c n a) ∨ s.fwu.paused = true) →
        ∀ ram, Safety.answers (exec (.blockCompressed cl lane ram) s) s s)
    ∧ (∀ v q, laneWork s m l = .compress v q → s.fwu.paused = false →
        (slotReady s v q = false → ∀ ram, Safety.answers (exec (.blockCompressed cl lane ram) s) s s)
        ∧ (slotReady s v q = true →
          (∀ f, spoilt f → Safety.answers (exec (.blockCompressed cl lane (some f)) s) s (sramMet s f (19 + m)))
          ∧ (∀ b, blk? free v q = some b → b.phase = .lane → done (progress (finishBlk free m l v b) (v / 4)))
          ∧ ((∀ b, blk? free v q = some b → b.phase ≠ .lane) →
            (∀ b, (slice free (v / 4)).doomed.find? (fun b => b.vol == v && b.q == q) = some b →
              done (progress (finishDoomed free m l v b) (v / 4)))
            ∧ ((slice free (v / 4)).doomed.find? (fun b => b.vol == v && b.q == q) = none → done (progress free (v / 4))))))
    ∧ (∀ v cid no start, laneWork s m l = .early v cid no start → s.fwu.paused = false →
        (∀ f, spoilt f → Safety.answers (exec (.blockCompressed cl lane (some f)) s) s (sramMet s f (19 + m)))
        ∧ done (progress (finishEarly free m l v cid no start) (v / 4)))
    ∧ (((∀ v i, laneWork s m l ≠ .decompress v i) ∨ s.fwu.paused = true) →
        ∀ ram, Safety.answers (exec (.blockDecompressed cl lane ram) s) s s)
    ∧ (∀ v i, laneWork s m l = .decompress v i → s.fwu.paused = false →
        let unit := (slice free (v / 4)).units.find? fun u => u.id == i && u.st == .lane
        (∀ f, spoilt f → Safety.answers (exec (.blockDecompressed cl lane (some f)) s) s (sramMet s f (19 + m)))
        ∧ (unit = none → decoded (progress free (v / 4)))
        ∧ (∀ u, unit = some u → decoded (progress (finishUnit free m u) (v / 4)))))
  ∧ (∀ (s : State) (m : Nat) (u : ReadUnit),
    let n := u.vol / 4
    let before := (chainUnits s n u).filterMap id
    let t := if ((slice s n).decoded.any fun d => d.vol == u.vol && d.info.num == u.ds && d.info.label != 0) = true then count s (.ciph (tFin n)) 1 else s
    (∀ w, before.find? (fun w => w.st != .ok) = some w → finishUnit s m u = modUnit t n u.id fun u => { u with st := w.st })
    ∧ (before.find? (fun w => w.st != .ok) = none →
      (∀ d, decodeBlock (lastHist (before.flatMap (·.out))) u.bytes = .ok d →
        finishUnit s m u = modUnit (count t (.cdc (tFin m)) 1) n u.id fun u => { u with st := .ok, out := d })
      ∧ ((∀ d, decodeBlock (lastHist (before.flatMap (·.out))) u.bytes ≠ .ok d) →
        finishUnit s m u = modUnit (raise (count t (.cdc (tFin m)) 6) (.cdc (tFin m)) 8 u.firstLbn (3 + n)) n u.id fun u => { u with st := .bad 4 2 u.ds })))
  ∧ (∀ (cid : Nat) (s : State),
    let c := cmd s cid
    let runs := leAt c.bytes 0 1 = 0x10 ∧ c.phase = .running ∧ c.stage = 1 ∧ s.fwu.paused = false
    let e := jobEnd s c.bytes
    let t := readBad (countJob s (c.holder - 19) cid c.bytes e) (leAt c.bytes 44 8) (leAt c.bytes 16 4) c.holder
    (¬ runs → Safety.answers (exec (.codecJobDone cid) s) s s)
    ∧ (runs → c.workWait = true → s.pool.dead = false → Safety.answers (exec (.codecJobDone cid) s) s s)
    ∧ (runs → c.workWait = true → s.pool.dead = true →
        Safety.answers (exec (.codecJobDone cid) s) s (complete s cid (4, 1) (endResult s cid 4)))
    ∧ (∀ code k, runs → c.workWait = false → e = .fail code k → Safety.answers (exec (.codecJobDone cid) s) s
        (complete t cid code (if code = (4, 3) then 0 else endResult t cid code.1)))
    ∧ (∀ out k, runs → c.workWait = false → e = .ok out k → Safety.answers (exec (.codecJobDone cid) s) s
        (complete (modCmd (if c.tainted = true then scramble t c else bufWrite t (leAt c.bytes 24 8) out c.holder) cid fun c => { c with stage := 2 })
          cid (0, 0) (out.length + 2 ^ 32 * k))))

/-- KEY_WORD_WRITE, LABEL_WRITE, ERASE, COMMIT (R244, R245, R248). -/
def Obligations.KeyStoreRows : Prop :=
  ∀ (m : Master) (k : Fin 128) (s : State),
    let x := keySlot s k.val
    let result (t : State) (r : Nat) : State := setMst t m { mst t m with keyRes := BitVec.ofNat 4 r, keySlot := BitVec.ofNat 7 k.val }
    let used (t : State) : State := result (setEvt (count t .key 2) .key 10) 1
    let base : KeySlot := if x.st = .committed then {} else x
    let on := enabledNow s .key = true
    let write (c : Instr) (t : State) (y : KeySlot) : Prop :=
      (enabledNow s .key = false → Safety.answers (exec c s) s (result t 5))
      ∧ (on → alarmActive s = true → Safety.answers (exec c s) s (result t 2))
      ∧ (on → alarmActive s = false → slotBusy s k.val = true → Safety.answers (exec c s) s (used t))
      ∧ (on → alarmActive s = false → slotBusy s k.val = false → Safety.answers (exec c s) s (result (setKey t k.val y) 0))
    let why : Nat :=
      if alarmActive s = true then 0x0206 else if x.st = .committed then 0
      else if writtenMask x ≠ 0xFFFFFF then 0x0203
      else if keyBytes s k.val 0 = zeros 32 ∨ keyBytes s k.val 1 = zeros 32 ∨ keyBytes s k.val 2 = zeros 32 then 0x0202
      else if keyBytes s k.val 0 = keyBytes s k.val 1 then 0x0201
      else if keyBytes s k.val 2 = keyBytes s k.val 0 ∨ keyBytes s k.val 2 = keyBytes s k.val 1 then 0x0204
      else if x.label = 0 ∨ ∃ y ∈ s.keys, y.1 ≠ k.val ∧ y.2.st = .committed ∧ y.2.label = x.label then 0x0205 else 0
    let pg := page s .key
    (∀ (kk : Fin 3) (w : Fin 8) (v : Word), Safety.canWrite s m (.key k.val (0x20 * kk.val + 4 * w.val)) = true →
      write (.keyWordWrite m k kk w v) s { base with st := .loading, words := tput base.words (8 * kk.val + w.val) v })
    ∧ (∀ v : DWord, Safety.canWrite s m (.key k.val 0x60) = true → Safety.canWrite s m (.key k.val 0x64) = true →
      write (.labelWrite m k v) (setMst s m { mst s m with pendLo := none }) { base with st := .loading, label := v })
    ∧ (Safety.canWrite s m (.page .key 0x040) = true →
      (enabledNow s .key = false → Safety.answers (exec (.erase m k) s) s (result s 5) ∧ Safety.answers (exec (.commit m k) s) s (result s 5))
      ∧ (on → slotBusy s k.val = true → Safety.answers (exec (.erase m k) s) s (used s))
      ∧ (on → slotBusy s k.val = false → Safety.answers (exec (.erase m k) s) s (result (setKey s k.val {}) 0))
      ∧ (on → why ≠ 0 → Safety.answers (exec (.commit m k) s) s
          (result (setPage s .key { pg with reason := BitVec.ofNat 16 why, field := BitVec.ofNat 8 k.val, evt := pg.evt ||| 1 }) 3))
      ∧ (on → why = 0 → ∃ t, t = setPage s .key { pg with reason := 0, field := 0 }
          ∧ Safety.answers (exec (.commit m k) s) s
            (result (count (if x.st = .committed then t else setKey t k.val { x with st := .committed, du := 0 }) .key 1) 0)))
    ∧ (∀ (t : State) (y : KeySlot) (j : Nat), keySlot (setKey t k.val y) j = if j = k.val then y else keySlot t j)

/-- KEY_ZEROISE_WRITE, ALARM_SOURCE_ACTIVE, ALARM_CLEARED (R259 to R262, R246). -/
def Obligations.ZeroiseRows : Prop :=
  ∀ (s : State),
    (∀ m, Safety.canWrite s m (.page .key 0x044) = true →
      Safety.answers (exec (.keyZeroiseWrite m) s) s (zeroise s 5 (mIdx m)))
    ∧ (∀ a, s.alarms.contains a = true → Safety.answers (exec (.alarmSourceActive a) s) s s)
    ∧ (∀ a, s.alarms.contains a = false →
      let t := { s with alarms := s.alarms ++ [a] }
      ((srcEnabled s a = false ∨ s.pwr.supplied = false ∨ (a = .rail ∧ s.pwr.phase = .powerFail)) →
        Safety.answers (exec (.alarmSourceActive a) s) s t)
      ∧ (srcEnabled s a = true → s.pwr.supplied = true → ¬ (a = .rail ∧ s.pwr.phase = .powerFail) →
        Safety.answers (exec (.alarmSourceActive a) s) s (endLantern (zeroise t (srcBit a)) true)))
    ∧ (srcEnabled s .overtemp = true ∧ srcEnabled s .rail = true ∧ srcEnabled s .tamper0 = (reg s .key 0x04C).getLsbD 0
      ∧ srcEnabled s .tamper1 = (reg s .key 0x04C).getLsbD 1 ∧ srcEnabled s .cover = (reg s .key 0x04C).getLsbD 2)
    ∧ (∀ a,
      let t := { s with alarms := s.alarms.filter (· != a) }
      (alarmActive s = true → alarmActive t = false → Safety.answers (exec (.alarmCleared a) s) s (raise t .key 9))
      ∧ ((alarmActive s = false ∨ alarmActive t = true) → Safety.answers (exec (.alarmCleared a) s) s t))
    ∧ (∀ (cause req : Nat),
      let c := countStopped s
      let still := (List.range 16).foldl (fun t n => if (slice t n).inBurst && !(slice t n).ending && (slice t n).curVol.any (boundVol t) then chanStop t n else t) c
      let lost := loseBindings (((List.range 64).filter fun v => boundVol c v && holdsWrite c v).foldl haltErased (zeroSlots still))
      zeroise s cause req = (List.range 16).foldl progress
        (raise (count (zeroiseMarks ((List.range 16).foldl stopReads lost) cause) .key 0) .key 8 cause req)
      ∧ (∀ v k, (vol lost v).bind ≠ .slot k))
    ∧ (∀ k, k < 128 → keySlot (zeroSlots s) k = { keySlot s k with st := .zeroised, words := [], du := 0, reserved := 0 })
    ∧ (∀ cause, cause < 32 →
      let t := zeroiseMarks s cause
      reg t .key 0x054 = reg s .key 0x054 ||| w32 (2 ^ cause) ∧ reg t .mgt 0x04C = reg s .mgt 0x04C ||| 0x80
      ∧ reg64 t .key 0x058 = now s % 2 ^ 64 ∧ t = { s with pages := t.pages })

/-- IDLE_CLOSE_EXPIRY, ITEM_BOUNDARY, TAPE_RESTART, SPEED_RAMP_STEP, DATA_SET_READ, CARTRIDGE_RECORD_WRITE (R282, R309, R325, R323,
R327, R273). -/
def Obligations.TapeRows : Prop :=
  ∀ (n : Fin 16) (s : State),
    let x := slice s n.val
    let on (u : State) : State := progress u n.val
    let aimed (u : State) : State := on (if (slice u n.val).target = x.target then u else aimSpeed u n.val)
    let boundary (u : State) := Safety.answers (exec (.itemBoundary n none) s) s (aimed u)
    let restart (u : State) := Safety.answers (exec (.tapeRestart n) s) s (on u)
    let record (u : State) := Safety.answers (exec (.cartridgeRecordWrite n) s) s (on u)
    (s.fwu.paused = true → (∀ p, Safety.answers (exec (.idleCloseExpiry n p) s) s s) ∧ (∀ f, Safety.answers (exec (.itemBoundary n f) s) s s)
      ∧ Safety.answers (exec (.tapeRestart n) s) s s ∧ (∀ f, Safety.answers (exec (.dataSetRead n f) s) s s)
      ∧ Safety.answers (exec (.cartridgeRecordWrite n) s) s s)
    ∧ ((x.stopped = true ∨ x.ramping = false) → Safety.answers (exec (.speedRampStep n) s) s s)
    ∧ (x.stopped = false → x.ramping = true →
        let step (k : Nat) (more : Bool) := Safety.answers (exec (.speedRampStep n) s) s (modSlice s n.val fun x => { x with current := k, ramping := more })
        (x.current < x.target → step (x.current + 1) (x.current + 1 != x.target))
        ∧ (x.target < x.current → step (x.current - 1) (x.current - 1 != x.target))
        ∧ (x.current = x.target → step x.current false))
    ∧ (s.fwu.paused = false →
      (∀ p : Fin 4, Safety.answers (exec (.idleCloseExpiry n p) s) s (on (closeOpen s (4 * n.val + p.val) true false)))
      ∧ (¬ (x.inBurst = true ∧ x.ending = false ∧ (link s n.val).mode = .writing) → boundary s)
      ∧ (x.inBurst = true → x.ending = false → (link s n.val).mode = .writing →
        (x.curVol = none ∨ x.stopNow = true → boundary (endBurst s n.val none))
        ∧ (∀ v, x.curVol = some v → x.stopNow = false →
          let a := boundaryArea s v
          let w := boundaryWhole a v ((slice a n.val).whole.length + 1)
          ((slice a n.val).ending = true → boundary a)
          ∧ ((slice a n.val).ending = false → (slice w n.val).ending = true → boundary w)
          ∧ ((slice a n.val).ending = false → (slice w n.val).ending = false → (slice w n.val).stopNow = true → boundary (endBurst w n.val none))
          ∧ ((slice a n.val).ending = false → (slice w n.val).ending = false → (slice w n.val).stopNow = false → boundary (boundaryNext w v))))
      ∧ (∀ v (f : SramFault), x.inBurst = true → x.curVol = some v → f.kind = .uncorrectable →
          Safety.answers (exec (.itemBoundary n (some f)) s) s (aimed (Machine.boundary (haltBuffer (sramMet s f (3 + n.val)) v) n.val)))
      ∧ ((atRest s n.val = false ∨ restartVol s n.val = none) → restart s)
      ∧ (∀ v, atRest s n.val = true → restartVol s n.val = some v →
        let y := vol s v
        (seedFirst s v = true → ∃ e : MapEntry, (∀ k, y.map[y.group]? = some k → e = k) ∧ (y.map[y.group]? = none → e.startWrap = y.wrap ∧ e.startLpos = y.endLpos)
          ∧ restart (modSlice s n.val fun z => { z with gather := { purpose := .seed v, phase := .seek, vol := v, wrap := e.startWrap, lpos := e.startLpos } }))
        ∧ (seedFirst s v = false → x.headAt = some (y.wrap, y.endLpos, y.endUm) → y.moved = false → restart (startWrite s n.val v))
        ∧ (seedFirst s v = false → (x.headAt ≠ some (y.wrap, y.endLpos, y.endUm) ∨ y.moved = true) →
            restart (startLocate s n.val (.append v) y.wrap y.endLpos 0)))
      ∧ (∀ ram : Option (Fin 256 × SramFault),
        let met := sramHit s (ram.map (·.2)) (3 + n.val)
        let t := met.1
        let read (u : State) := Safety.answers (exec (.dataSetRead n ram) s) s (on u)
        (x.gather.phase ≠ .running → read s)
        ∧ (x.gather.phase = .running →
        (setInTurn x.gather = none → mayTurn t n.val = true → read (nextWrap t n.val))
        ∧ (setInTurn x.gather = none → mayTurn t n.val = false → read (readFailed t n.val none []))
        ∧ (∀ d, setInTurn x.gather = some d →
          let cols := if met.2 = true then (goodCols x.gather d).filter fun c => some (c.1 / 228) != ram.map (·.1.val) else goodCols x.gather d
          (d.kind = .ridge → x.gather.rebuild = none →
            ((∀ v, x.gather.purpose ≠ .seed v) → read (gotSet t n.val d []))
            ∧ (∀ v, x.gather.purpose = .seed v → read (readFailed t n.val none [])))
          ∧ (¬ (d.kind = .ridge ∧ x.gather.rebuild = none) →
            (gatheredArea cols = none →
              (mayCross t n.val d = true → read (crossWrap t n.val d)) ∧ (mayCross t n.val d = false → read (readFailed t n.val (some d) cols)))
            ∧ (∀ a, gatheredArea cols = some a →
              (d.kind = .ridge → read (gotSet (comeHome t n.val) n.val d a))
              ∧ (d.kind ≠ .ridge → dsitCrcOk a = false → read (readFailed t n.val (some d) cols))
              ∧ (d.kind ≠ .ridge → dsitCrcOk a = true → gapped t n.val (dsitInfo a) = true → read (readFailed t n.val none []))
              ∧ (d.kind ≠ .ridge → dsitCrcOk a = true → gapped t n.val (dsitInfo a) = false → ∀ u ok, checkTag t n.val a = (u, ok) →
                (ok = true → read (backToSpeed (gotSet (comeHome u n.val) n.val d a) n.val x.gather.attempt))
                ∧ (ok = false → read (readFailed (modGather u n.val fun g => { g with area := a }) n.val (some d) cols))))))))
      ∧ (mayWriteRecord s n.val = false → record s)
      ∧ (mayWriteRecord s n.val = true → ∃ r : CartRec, r = { x.want with seq := match x.record with
            | some k => (k.seq + 1) % 2 ^ 32
            | none => 0 }
          ∧ record ((copyParts x.recCopy).foldl (fun u a => mbxSend u n.val 2 a.1 (sub (recBytes r) (a.1 % 256) a.2) a.2)
            (modSlice s n.val fun y => { y with recOut := some (r, y.recCopy), recWant := false, recFail := false }))))

/-- The rows that bring a flit (R338 to R342). -/
def Obligations.FlitReception : Prop :=
  ∀ (n : Fin 16) (flit : LinkFlit) (s : State), flitOk flit = true →
    let bytes := flit.bytes
    let row (c : Instr) (ty : Nat) (go : State → State) : Prop :=
      Safety.receives s n flit c ty go
      ∧ (Safety.inOrder s n flit ty → ∃ t, exec c s = .next t ∧ Safety.settles s (progress (go (Safety.heard s n flit ty)) n.val) t)
    let ctrl (code : Nat) (f : State → Nat → List Byte → State) (t : State) : State := if leAt bytes 6 1 = code then f t n.val bytes else t
    let mbx (op : Nat) (f : State → State) (t : State) : State := if leAt bytes 4 1 = op then f t else t
    let sample (kind : Nat) (f : State → Nat → List Byte → State × List LoopFault) (t : State) : State :=
      if leAt bytes 4 1 = kind ∧ enabledNow t (.servo n) = true then loopFaults (f t n.val bytes).1 n.val (f t n.val bytes).2 else t
    row (.idle n flit) 0 id ∧ row (.chanUp n flit) 1 (fun t => chanUp t n.val bytes)
    ∧ row (.servoFrameSample n flit) 2 (sample 1 frameTaken) ∧ row (.servoReelSample n flit) 2 (sample 2 reelSample)
    ∧ row (.hello n flit) 3 (ctrl 0x80 hello) ∧ row (.ack n flit) 3 (ctrl 0x81 ctrlAck)
    ∧ row (.mode n flit) 3 (ctrl 0x82 modeEvent) ∧ row (.cartridge n flit) 3 (ctrl 0x83 cartridgeEvent)
    ∧ row (.positioned n flit) 3 (ctrl 0x84 positioned) ∧ row (.burstDone n flit) 3 (ctrl 0x85 burstDone)
    ∧ row (.fwResult n flit) 3 (ctrl 0x86 fwResult) ∧ row (.timeUp n flit) 4 (fun t => timeUp t n.val bytes)
    ∧ row (.cmData n flit) 5 (mbx 0x81 fun t => cmAnswer t n.val 1 bytes)
    ∧ row (.cmDone n flit) 5 (mbx 0x82 fun t => cmAnswer t n.val 2 bytes)
    ∧ row (.mailboxUp n flit) 5 (mbx 0x83 fun t => bridgeAnswer t n.val bytes)

/-- RETRANSMIT_TIMER, LANE_FAILED, LANE_RETRAIN, LANE_RESTORED, RX_TIMEOUT, LINK_TRAINED, TRAIN_TIMEOUT, LINK_RETRY, CTRL_TIMEOUT,
MODE_TIMEOUT, MBX_ANSWER_TIMEOUT, TIME_FLIT_SEND (R342, R351, R352, R354 to R357, R361, R364). -/
def Obligations.LinkTimerRows : Prop :=
  ∀ (n : Fin 16) (s : State),
    let l := link s n.val
    let live := l.phase = .up ∨ l.phase = .loading
    let mask := field s (.link n) 0x040 0 4
    let on (t : State) : State := progress t n.val
    let row (c : Instr) (t : State) : Prop := ∃ u, exec c s = .next u ∧ Safety.settles s t u
    let dealt := frameLeaves s n.val
    let ld := link dealt n.val
    let again := resendAll s n.val
    (live → l.unacked ≠ [] → (again.2 = true → row (.retransmitTimer n) (on (linkDown again.1 n.val 3)))
        ∧ (again.2 = false → row (.retransmitTimer n) (on again.1)))
    ∧ ((¬ live ∨ l.unacked = []) → row (.retransmitTimer n) (on s))
    ∧ (∀ up lane why, let k := laneBit up lane.val
        let t := raise (count (setLink dealt n.val { ld with lanes := ld.lanes &&& ~~~(BitVec.ofNat 4 (2 ^ k)) }) (.link n) 6) (.link n) 10 k
        let m := (link t n.val).lanes.toNat
        let lost := live ∧ l.lanes.getLsbD k = true ∧ laneLost up lane.val why = true
        (¬ lost → row (.laneFailed n up lane why) (on s))
        ∧ (lost → (m % 4 = 0 ∨ m / 4 = 0) → row (.laneFailed n up lane why) (on (linkDown t n.val 4)))
        ∧ (lost → m % 4 ≠ 0 → m / 4 ≠ 0 → row (.laneFailed n up lane why) (on (soloRead (soloWrite t n.val) n.val))))
    ∧ (∀ up lane bad marker, let k := laneBit up lane.val
        let back := live ∧ l.retrain.getLsbD k = true ∧ laneGood up lane.val bad marker = true
        (back → row (.laneRestored n up lane bad marker) (raise (setLink dealt n.val
          { ld with lanes := ld.lanes ||| BitVec.ofNat 4 (2 ^ k), retrain := ld.retrain &&& ~~~(BitVec.ofNat 4 (2 ^ k)) }) (.link n) 11 k))
        ∧ (¬ back → row (.laneRestored n up lane bad marker) s))
    ∧ (live → row (.laneRetrain n) (setLink s n.val { l with retrain := BitVec.ofNat 4 mask &&& ~~~l.lanes }))
    ∧ (¬ live → row (.laneRetrain n) s)
    ∧ (live → row (.rxTimeout n) (on (linkDown s n.val 2))) ∧ (¬ live → row (.rxTimeout n) (on s))
    ∧ (∀ down up : BitVec 2,
        let d := down.toNat &&& (mask % 4)
        let u := up.toNat &&& (mask / 4)
        let t := nextFree (setLink s n.val
          { l with lanes := BitVec.ofNat 4 (d + 4 * u), phase := .loading, stage := 0, frameFirst := freeVal s % 2 ^ 32,
                   frameAt := clock s, txFrame := 0, txDealt := [] })
        (l.phase ≠ .training → row (.linkTrained n down up) s)
        ∧ (l.phase = .training → (d = 0 ∨ u = 0) → row (.linkTrained n down up) (linkFailed s n.val 1 true))
        ∧ (l.phase = .training → d ≠ 0 → u ≠ 0 → (solo t n.val = true → row (.linkTrained n down up) (raise t (.link n) 10))
            ∧ (solo t n.val = false → row (.linkTrained n down up) t)))
    ∧ (l.phase = .training → row (.trainTimeout n) (on (linkFailed s n.val 1 true)))
    ∧ (l.phase = .loading → l.stage ≠ 1 → row (.trainTimeout n) (on (linkFailed s n.val 7 true)))
    ∧ (l.phase ≠ .training → (l.phase ≠ .loading ∨ l.stage = 1) → row (.trainTimeout n) (on s))
    ∧ (l.phase = .failed → l.noRetry = false → enabledNow s (.link n) = true → row (.linkRetry n) (setLink s n.val
        { clearLink l with phase := .training, stage := 0, retrain := 0, fwTries := 0, noRetry := false }))
    ∧ ((l.phase ≠ .failed ∨ l.noRetry = true ∨ enabledNow s (.link n) = false) → row (.linkRetry n) s)
    ∧ (∀ c rest, l.ctrl = c :: rest → l.phase = .up →
        let t := setLink s n.val { l with ctrl := rest }
        (c.code = 0x1E → row (.ctrlTimeout n) (on (linkDown t n.val 6))) ∧ (c.code ≠ 0x1E → row (.ctrlTimeout n) (on (transportFault t n.val 2))))
    ∧ ((l.ctrl = [] ∨ l.phase ≠ .up) → row (.ctrlTimeout n) (on s))
    ∧ (l.phase = .up → transitBound s n.val = true → row (.modeTimeout n) (on (transportFault s n.val 3)))
    ∧ ((l.phase ≠ .up ∨ transitBound s n.val = false) → row (.modeTimeout n) (on s))
    ∧ (∀ m, l.mbx.find? isCm = some m → l.phase = .up → row (.mbxAnswerTimeout n) (on (cmFailed s n.val m)))
    ∧ ((l.mbx.find? isCm = none ∨ l.phase ≠ .up) → row (.mbxAnswerTimeout n) (on s))
    ∧ (live → let o := openFrame s n.val
        row (.timeFlitSend n) (putFirst o n.val (leBytes 8 (frameTai o n.val / 2 ^ 32) ++ leBytes 4 (frameTai o n.val % 2 ^ 32)
          ++ leBytes 4 (frameNumber (link o n.val).frameFirst (link o n.val).txFrame) ++ leBytes 2 (field o (.link n) 0x06C 0 16)
          ++ leBytes 1 (bit o.tim.taiValid))))
    ∧ (¬ live → row (.timeFlitSend n) s)

/-- HELLO, FW_RESULT, ACK, MODE, CARTRIDGE, POSITIONED, TIME_UP once delivered (R351, R354, R360 to R362). -/
def Obligations.TransportEvents : Prop :=
  ∀ (n : Fin 16) (f : List Byte) (s : State),
    let l := link s n.val
    let x := slice s n.val
    (l.phase = .loading → l.stage = 0 → leAt f 8 1 = 0 → hello s n.val f = loadBridge s n.val)
    ∧ (l.phase = .loading → l.stage = 2 → leAt f 8 1 = 1 → hello s n.val f = linkUp s n.val f)
    ∧ (¬ (l.phase = .loading ∧ l.stage = 0 ∧ leAt f 8 1 = 0) → ¬ (l.phase = .loading ∧ l.stage = 2 ∧ leAt f 8 1 = 1) → hello s n.val f = s)
    ∧ (¬ (l.phase = .loading ∧ l.stage = 1) → fwResult s n.val f = s)
    ∧ (l.phase = .loading → l.stage = 1 →
      (leAt f 7 1 = 0 → fwResult s n.val f = setLink s n.val { l with stage := 2 })
      ∧ (leAt f 7 1 ≠ 0 → l.fwTries = 0 → fwResult s n.val f = loadBridge (setLink s n.val { l with fwTries := 1 }) n.val)
      ∧ (leAt f 7 1 ≠ 0 → l.fwTries ≠ 0 → fwResult s n.val f = raise (linkFailed s n.val 5 false) (.link n) 16))
    ∧ ((∀ c ∈ l.ctrl, c.cmdId ≠ leAt f 8 2) → ctrlAck s n.val f = s)
    ∧ (∀ c, l.ctrl.find? (fun c => c.cmdId == leAt f 8 2) = some c →
      let t := setLink s n.val { l with ctrl := l.ctrl.erase c }
      (leAt f 7 1 = 0 → c.code = 0x1E → ctrlAck s n.val f = linkDown t n.val 6)
      ∧ (leAt f 7 1 = 0 → c.code = 0x1C → ctrlAck s n.val f = unmountAll t n.val)
      ∧ (leAt f 7 1 = 0 → c.code ≠ 0x1E → c.code ≠ 0x1C → ctrlAck s n.val f = t)
      ∧ (leAt f 7 1 = 1 → ctrlAck s n.val f = modeRefused t n.val c) ∧ (leAt f 7 1 = 2 → ctrlAck s n.val f = transportFault t n.val 6)
      ∧ (2 < leAt f 7 1 → ctrlAck s n.val f = t))
    ∧ (11 < leAt f 8 1 → modeEvent s n.val f = s)
    ∧ (leAt f 8 1 = 11 → modeEvent s n.val f =
        enterFaulted (modServo (takeFlags s n.val (f.getD 9 0)) n.val fun v => { v with haltSent := false }) n.val (leAt f 10 1))
    ∧ (let b := f.getD 8 0
       let t := takeFlags (raise s (.link n) 14 b.toNat) n.val b
       (b.getLsbD 0 = false → l.threaded = true → cartridgeEvent s n.val f = enterFaulted t n.val 0x24)
       ∧ (b.getLsbD 0 = true → l.mode = .empty → cartridgeEvent s n.val f = takeMode t n.val .loaded)
       ∧ (b.getLsbD 0 = false → l.threaded = false → l.mode = .loaded → cartridgeEvent s n.val f = takeMode t n.val .empty)
       ∧ (b.getLsbD 0 = true → l.mode ≠ .empty → cartridgeEvent s n.val f = t))
    ∧ (x.locFor = none → positioned s n.val f = s)
    ∧ (∀ p, x.locFor = some p →
      let t := setSlice s n.val { x with locFor := none }
      let lpos := leAt f 9 3
      let hit := leAt f 7 1 = 0 ∧ leAt f 8 1 = x.locTo.1 ∧ lpos ≤ x.locTo.2 + 1000 ∧ x.locTo.2 ≤ lpos + 1000
      let u := modSlice (setEvt (count t (.link n) 9) (.link n) 17) n.val fun x => { x with locTries := x.locTries + 1 }
      (hit → positioned s n.val f = placed t n.val p)
      ∧ (¬ hit → 4 ≤ (slice u n.val).locTries → positioned s n.val f = unplaced u n.val p)
      ∧ (¬ hit → (slice u n.val).locTries < 4 → positioned s n.val f = modSlice u n.val fun x =>
          { x with gather := if x.gather.phase = .locating then { x.gather with phase := .seek } else x.gather }))
    ∧ (∀ back, back < 2 ^ 32 →
      let t := clock s - l.frameAt
      let k := t * 5 / 1024
      let trip := t - frameDeparts (k - back)
      (leAt f 4 4 + back) % 2 ^ 32 = frameNumber l.frameFirst k →
      (back ≤ k → leAt f 8 4 ≤ trip → timeUp s n.val f = storeDelay s n.val ((trip - leAt f 8 4) / 2))
      ∧ (¬ (back ≤ k ∧ leAt f 8 4 ≤ trip) → timeUp s n.val f = nextFree (storeDelay s n.val (freeVal s))))
    ∧ (∀ ns, storeDelay s n.val ns = setReg s (.link n) 0x06C (w32 (ns % 65536)))

/-- MANUAL, APPLY, CLEAR_TABLE, SERVO_KEEPALIVE, SAMPLE_TIMEOUT, SERVO_DRAIN_TIMEOUT (R377, R384 to R389, R396, R397). -/
def Obligations.LoopRows : Prop :=
  (∀ (m : Master) (i : Fin 64) (s : State), Safety.canWrite s m (.loop i.val 0x80) = true →
    let l := loop s i.val
    let n := i.val / 4
    let pg := page s (.servo (tFin n))
    let start (l : LoopSt) (v : Int) : LoopSt := if l.manual then l else { l with s1 := 0, s2 := 0, s3 := 0, fresh := true, startVal := v, feRun := 0 }
    let check := loopCheck l (i.val % 4)
    (∀ v : Word, v.getLsbD 1 = false → v.getLsbD 2 = false →
      (v.getLsbD 0 = l.manual → Safety.answers (exec (.manual m i v) s) s s)
      ∧ (v.getLsbD 0 = true → l.manual = false →
        ((link s n).mode = .service → Safety.answers (exec (.manual m i v) s) s
          (setLoop s i.val { l with manual := true, feRun := 0, regs := tput l.regs 0x84 (w32 (u16 l.lastOut)) }))
        ∧ ((link s n).mode ≠ .service → Safety.answers (exec (.manual m i v) s) s (setEvt s (.servo (tFin n)) 9)))
      ∧ (v.getLsbD 0 = false → l.manual = true → Safety.answers (exec (.manual m i v) s) s
          (setLoops (setLoop s i.val { loopStart l (s16 (setField l.regs 0x84 0 16)) with manual := false }) n)))
    ∧ (check.1 ≠ 0 → Safety.answers (exec (.apply m i) s) s
        (setPage s (.servo (tFin n)) { pg with reason := BitVec.ofNat 16 check.1, field := BitVec.ofNat 8 check.2, evt := pg.evt ||| 1 }))
    ∧ (check.1 = 0 → Safety.answers (exec (.apply m i) s) s
        (setLoop (setPage s (.servo (tFin n)) { pg with reason := 0, field := BitVec.ofNat 8 check.2 }) i.val (start { l with applyPending := true } l.lastOut)))
    ∧ Safety.answers (exec (.clearTable m i) s) s (setLoop s i.val (start { l with bins := [] } l.lastOut)))
  ∧ (∀ (l : LoopSt) (j : Nat),
    let f (off : Nat) : Nat := 0x80 + 0x20 * j + off / 4
    let order := setField l.regs 0x10 0 4
    loopCheck l j = if order ≠ 2 ∧ order ≠ 3 then (0x0501, f 0x10)
      else if 7 < setField l.regs 0x10 4 4 ∨ 7 < setField l.regs 0x10 8 4 then (0x0502, f 0x10)
      else if s16 (setField l.regs 0x14 16 16) ≤ s16 (setField l.regs 0x14 0 16) then (0x0503, f 0x14)
      else if setField l.regs 0x18 0 16 = 0 ∨ setField l.regs 0x18 16 16 = 0 then (0x0504, f 0x18)
      else if setField l.regs 0x1C 0 1 = 1 ∧ (j = 1 ∨ j = 2) then (0x0506, f 0x1C)
      else if 511 < setField l.regs 0x1C 8 10 then (0x0507, f 0x1C) else (0, 0))
  ∧ (∀ (n : Fin 16) (s : State),
    (enabledNow s (.servo n) = true → Safety.answers (exec (.servoKeepalive n) s) s (keepalive s n.val))
    ∧ (enabledNow s (.servo n) = false → Safety.answers (exec (.servoKeepalive n) s) s s)
    ∧ Safety.answers (exec (.servoDrainTimeout n) s) s (modServo s n.val fun v => { v with haltSent := false }))
  ∧ (∀ (i : Fin 64) (s : State),
    let l := loop s i.val
    let n := i.val / 4
    let late := l.phase = .run ∧ l.manual = false ∧ enabledNow s (.servo (tFin n)) = true
    (late → Safety.answers (exec (.sampleTimeout i) s) s (progress (loopFaults s n [(i.val % 4, 1, l.lastErr)]) n))
    ∧ (¬ late → Safety.answers (exec (.sampleTimeout i) s) s s))

/-- ENTER_SERVICE, EXIT_SERVICE, CLEAR_FAULT (R365, R366, R368). -/
def Obligations.ModeControlRows : Prop :=
  (∀ (m : Master) (n : Fin 16) (s : State), Safety.canWrite s m (.page (.link n) 0x058) = true →
    let l := link s n.val
    let w := wake s 4
    let on (t : State) : State := progress t n.val
    let fit := l.phase = .up ∧ (l.mode = .empty ∨ l.mode = .loaded ∨ l.mode = .ready) ∧ anyMounted w n.val = false ∧ cmdsOf w n.val = []
    (fit → Safety.answers (exec (.enterService m n) s) s (on (ctrlSend w n.val 0x1A [])))
    ∧ (¬ fit → Safety.answers (exec (.enterService m n) s) s (on (setEvt w (.link n) 15)))
    ∧ (l.phase = .up → Safety.answers (exec (.exitService m n) s) s (on (ctrlSend w n.val 0x1B [])))
    ∧ (l.phase ≠ .up → Safety.answers (exec (.exitService m n) s) s (on w))
    ∧ (l.phase = .up → Safety.answers (exec (.clearFault m n) s) s (on (ctrlSend w n.val 0x1C [])))
    ∧ (l.phase ≠ .up → Safety.answers (exec (.clearFault m n) s) s (on w)))
  ∧ (∀ (s : State) (n code : Nat) (params : List Byte),
    let l := link s n
    (s.fwu.paused = true → ctrlSend s n code params = setLink s n { l with ctrlHeld := l.ctrlHeld ++ [(code, params, none)] })
    ∧ (s.fwu.paused = false → ctrlSend s n code params = queueFlits (setLink s n { l with cmdNext := (l.cmdNext + 1) % 0xFFFF, ctrl := l.ctrl ++ [{ cmdId := l.cmdNext, code := BitVec.ofNat 8 code, cid := none }] })
        n [(3, leBytes 2 l.cmdNext ++ leBytes 1 code ++ [0] ++ params)]))

/-- What a device reset keeps and clears (R154, R190, R244, R401). That held entries are lost and SEQ resumes, and that an open unit
operation ends first, is the model's reading (assumption log). -/
def Obligations.DeviceReset : Prop :=
  ∀ (s : State) (c : ResetCause),
    let r := deviceReset s c
    let z := State.reset
    let a := settleArray s
    r.ready = false ∧ (∀ m, mst r m = mst z m) ∧ (∀ k, sem r k = sem z k) ∧ (∀ n, owner r n = owner z n) ∧ r.lastForced = 0
    ∧ r.cmds = [] ∧ (∀ v, vol r v = vol z v) ∧ (∀ n, slice r n = slice z n) ∧ (∀ n, link r n = link z n) ∧ (∀ n, servo r n = servo z n)
    ∧ (∀ i, loop r i = loop z i) ∧ r.clusters = [] ∧ r.sched = {} ∧ r.pool = { copyLost := s.pool.copyLost } ∧ (∀ k, sensor r k = sensor z k)
    ∧ (∀ pg off, (pg, off) ≠ (.pwr, 0x054) → (pg, off) ≠ (.key, 0x054) → reg r pg off = regReset s.code pg off)
    ∧ reg r .pwr 0x054 = reg s .pwr 0x054 ∧ reg r .key 0x054 = reg s .key 0x054
    ∧ (∀ pg, (page r pg).enabled = !enableImpl pg ∧ (page r pg).evt = 0 ∧ (page r pg).evtEn = 0 ∧ (page r pg).ctrs = []
        ∧ (page r pg).draining = false ∧ (page r pg).fault = false)
    ∧ (∀ k, keySlot r k = { keySlot s k with reserved := 0 })
    ∧ (∀ p, (port r p).linkUp = false ∧ (port r p).sqs = [] ∧ (port r p).cqs = [] ∧ (port r p).perstHigh = (port s p).perstHigh
        ∧ (port r p).refclk = (port s p).refclk)
    ∧ r.alarms = s.alarms ∧ r.tim.count = s.tim.count ∧ r.tim.taiValid = s.tim.taiValid
    ∧ r.mem.remaps = s.mem.remaps ∧ r.mem.retireList = s.mem.retireList ∧ r.mem.sramRemaps = s.mem.sramRemaps
    ∧ r.mem.frameRetired = s.mem.frameRetired ∧ r.mem.ingestRetired = s.mem.ingestRetired ∧ r.mem.ram = []
    ∧ r.log.entries = a.log.entries.drop a.log.held ∧ r.log.held = 0 ∧ r.log.nextSeq = a.log.nextSeq - a.log.held
    ∧ r.pwr.cause = c ∧ r.pwr.charge = s.pwr.charge ∧ r.pwr.phase = s.pwr.phase ∧ r.pwr.bivouac = false ∧ r.pwr.entering = false
    ∧ r.pwr.request = 0 ∧ r.pwr.gated = [] ∧ r.pwr.pgOut = s.pwr.pgOut ∧ r.pwr.pwrEnHigh = s.pwr.pwrEnHigh ∧ r.pwr.tcxo = s.pwr.tcxo
    ∧ r.nv = a.nv ∧ r.fwu.block = a.fwu.block ∧ r.fwu.select = a.fwu.select ∧ r.fsp.sessions = [] ∧ r.out = s.out ∧ r.pending = s.pending
    ∧ r.code = s.code

/-- TCXO_LOSS, TCXO_RESUME, POWER_GOOD, READY, WATCHDOG_EXPIRY, PWR_EN_LOW, PWR_EN_HIGH (R23, R398, R400, R401, R416, R496). -/
def Obligations.StartRows : Prop :=
  (∀ s : State,
    let p := s.pwr
    let go (c : Instr) (t : State) : Prop := Safety.answers (exec c s) s t
    let seq (t : State) (c : ResetCause) : State := startSeq (deviceReset t c)
    let unlit := p.phase = .off ∨ p.phase = .powerFail
    let stopped := { s with pwr := { p with tcxo := false } }
    let runs := { s with pwr := { p with tcxo := true } }
    let good := setPin { s with pwr := { p with pgOut := true, supplied := true, dipped := false } } "PG_OUT" true
    let lit := if p.supplied then good else (good.alarms.filter (srcEnabled good)).foldl (fun t a => zeroise t (srcBit a)) good
    let pend (t : State) : State := { t with pwr := { t.pwr with pgPending := false } }
    let low := { s with pwr := { p with pwrEnHigh := false } }
    let count := { s with pwr := { p with watchdogs := p.watchdogs + 1 } }
    ((p.supplied = false ∨ p.phase = .inReset) → go .tcxoLoss stopped)
    ∧ (p.supplied = true → unlit → go .tcxoLoss (deviceReset stopped .tcxoLoss))
    ∧ (p.supplied = true → p.phase ≠ .inReset → ¬ unlit → go .tcxoLoss (let t := phyOff (deviceReset stopped .tcxoLoss)
        { t with pwr := { t.pwr with phase := .inReset } }))
    ∧ (p.phase = .inReset → go .tcxoResume (startSeq runs))
    ∧ (p.phase = .off → p.pgOut = true → p.pgPending = true → go .tcxoResume (startSeq (pend runs)))
    ∧ (p.phase ≠ .inReset → (p.phase ≠ .off ∨ p.pgOut = false ∨ p.pgPending = false) → go .tcxoResume runs)
    ∧ ((p.pgOut = true ∨ p.pwrEnHigh = false ∨ p.phase = .powerFail) → go .powerGood s)
    ∧ (p.pgOut = false → p.pwrEnHigh = true → p.phase ≠ .powerFail →
        ((lit.pwr.pgPending = true ∧ lit.pwr.tcxo = true) → go .powerGood (startSeq (pend lit)))
        ∧ (¬ (lit.pwr.pgPending = true ∧ lit.pwr.tcxo = true) → go .powerGood lit))
    ∧ (∀ failed, (p.phase = .starting → go (.ready failed) (if imageOk s then finishStart s failed else imageFailure s)) ∧ (p.phase ≠ .starting → go (.ready failed) s))
    ∧ (p.phase = .starting → p.watchdogs ≠ 2 → go .watchdogExpiry (seq count .watchdog))
    ∧ (p.phase = .starting → p.watchdogs = 2 →
        ((bootBlk s (1 - s.fwu.block)).valid = true → p.pairedFallback = false → go .watchdogExpiry
          (startSeq (fallBack (deviceReset { s with pwr := { p with watchdogs := 0, pairedFallback := true } } .trialFallback))))
        ∧ (((bootBlk s (1 - s.fwu.block)).valid = false ∨ p.pairedFallback = true) → ∃ f, go .watchdogExpiry { s with fsp := f, pwr := { p with phase := .recovery, watchdogs := 0 } }))
    ∧ ((p.phase = .running ∨ p.phase = .recovery ∨ p.phase = .lanternExit) → go .watchdogExpiry (seq s .watchdog))
    ∧ ((p.phase = .off ∨ p.phase = .dead ∨ p.phase = .inReset ∨ p.phase = .lantern ∨ p.phase = .powerFail) → go .watchdogExpiry s)
    ∧ ((p.phase = .powerFail ∨ p.phase = .off) → go .pwrEnLow low)
    ∧ (p.phase ≠ .powerFail → p.phase ≠ .off → go .pwrEnLow (powerOff low .pwrEn .off))
    ∧ go .pwrEnHigh { s with pwr := { p with pwrEnHigh := true } })
  ∧ (∀ (s : State) (failed : Word),
    let t := finishStart s failed
    t.ready = true ∧ t.pwr.phase = .running ∧ t.pwr.gated = [3, 4] ++ (List.range 64).map (· + 16) ∧ t.pwr.wakeN = false ∧ t.pwr.watchdogs = 0 ∧ t.pwr.pairedFallback = false)
  ∧ (∀ (s : State) (c : ResetCause) (ph : RunPhase),
    let r := deviceReset s c
    let t := powerOff s c ph
    t = { r with mem := {}, pool := {}, pwr := { r.pwr with phase := ph, pgOut := false, pgPending := true, dipped := false, wakeN := false, watchdogs := 0, clkreq := [] }, out := .pin "PG_OUT" false :: .pin "CLKREQ_N_B" true :: .pin "CLKREQ_N_A" true :: r.out })

/-- VIN_DIP, VIN_RECOVER, POWER_FAIL, POWER_RETURN, HOLDUP_EXHAUSTED, HOLDUP_CHARGED, HOLDUP_DEGRADED (R244, R410 to R412, R496). -/
def Obligations.SupplyRows : Prop :=
  ∀ s : State,
    let p := s.pwr
    let go (c : Instr) (t : State) : Prop := Safety.answers (exec c s) s t
    let mv (k : Nat) : Nat := (sensor s k).value.toNat
    let failed := logPush (writeHeld s) { seq := 0, tai := now s, code := 0x0581, source := 5, inst := 0, severity := 2, requester := 0x3F, taiValid := s.tim.taiValid, d0 := mv 48, d1 := mv 49, d2 := 0, d3 := 0 }
    (p.pgOut = true → go .vinDip { s with pwr := { p with pgOut := false, dipped := true }, out := .pin "PG_OUT" false :: s.out })
    ∧ (p.pgOut = false → go .vinDip s)
    ∧ (p.dipped = true → p.pwrEnHigh = true →
      go .vinRecover { s with pwr := { p with pgOut := true, dipped := false }, out := .pin "PG_OUT" true :: s.out })
    ∧ ((p.dipped = false ∨ p.pwrEnHigh = false) → go .vinRecover s)
    ∧ (p.phase ≠ .powerFail → go .powerFail (powerOff failed .powerFail .powerFail))
    ∧ (p.phase = .powerFail → go .powerFail s)
    ∧ (p.phase = .powerFail → go .powerReturn { s with keys := [], pwr := { p with phase := .off } })
    ∧ (p.phase ≠ .powerFail → go .powerReturn s)
    ∧ (p.phase = .powerFail → go .holdupExhausted { s with keys := [], tim := {}, pages := [], mem := {}, pwr := { p with phase := .off, cause := .powerOn, supplied := false, charge := 0, degraded := false } })
    ∧ (p.phase ≠ .powerFail → go .holdupExhausted s)
    ∧ (p.charge < 90 → p.phase ≠ .off → p.phase ≠ .powerFail →
      go .holdupCharged (feed (writeHeld (setEvt { s with pwr := { p with charge := 90 } } .pwr 9))))
    ∧ ((90 ≤ p.charge ∨ p.phase = .off ∨ p.phase = .powerFail) → go .holdupCharged s)
    ∧ (p.charge < 90 → p.degraded = false → go .holdupDegraded (raise { s with pwr := { p with degraded := true } } .pwr 10))
    ∧ ((90 ≤ p.charge ∨ p.degraded = true) → go .holdupDegraded s)

/-- STATE_REQ, BIVOUAC_IDLE_EXPIRY, BIVOUAC_ENTRY, DOMAIN_IDLE_EXPIRY, DOMAIN_GATE, LANTERN_ENTRY, LANTERN_WAKE, LANTERN_EXIT
(R21, R404 to R409). -/
def Obligations.PowerStateRows : Prop :=
  (∀ (m : Master) (v : Word) (s : State), Safety.canWrite s m (.page .pwr 0x040) = true →
    let go (t : State) : Prop := Safety.answers (exec (.stateReq m v) s) s t
    let r := v.toNat % 4
    let ask (t : State) : State := { t with pwr := { t.pwr with request := BitVec.ofNat 2 r, reqDone := t.pwr.reqDone && r == 1 && t.pwr.request == 1 } }
    (r = 3 → go s)
    ∧ (r ≠ 3 → s.ready = false → go (setCheck s .pwr 0x0001 0))
    ∧ (r = 1 ∨ r = 2 → s.ready = true → anyMoving s = true → go (setCheck s .pwr 0x0902 0))
    ∧ (r = 1 ∨ r = 2 → s.ready = true → anyMoving s = false → go (ask (setCheck s .pwr 0 0)))
    ∧ (r = 0 → s.ready = true → go (ask (wake (setCheck s .pwr 0 0) 7))))
  ∧ (∀ s : State,
    let p := s.pwr
    let go (c : Instr) (t : State) : Prop := Safety.answers (exec c s) s t
    let begins := enabledNow s .pwr = true ∧ p.request = 0 ∧ field s .pwr 0x048 0 22 ≠ 0 ∧ p.bivouac = false ∧ quiescent s = true
    let enters := p.phase = .running ∧ p.bivouac = false ∧ quiescent s = true ∧ (p.request = 1 ∨ (p.request = 0 ∧ p.entering = true))
    let first := p.request = 1 ∧ p.reqDone = false
    let counted := bivouacGated s
    let lantern := p.phase = .running ∧ p.request = 2 ∧ quiescent s = true
    let stopped := lanternStops s
    let off := deviceReset (logMgmt stopped 0x0582 0 0x3F (reg stopped .pwr 0x054).toNat) .lanternExit
    (begins → go .bivouacIdleExpiry { s with pwr := { p with entering := true } })
    ∧ (¬ begins → go .bivouacIdleExpiry s)
    ∧ (enters → ¬ first → go .bivouacEntry { counted with pwr := { counted.pwr with bivouac := true, entering := false } })
    ∧ (enters → first → go .bivouacEntry (setEvt { counted with pwr := { counted.pwr with bivouac := true, entering := false, reqDone := true } } .pwr 11))
    ∧ (¬ enters → go .bivouacEntry { s with pwr := { p with entering := false } })
    ∧ (lantern → go .lanternEntry { off with mem := {}, pool := {}, pwr := { off.pwr with phase := .lantern } })
    ∧ (¬ lantern → go .lanternEntry s)
    ∧ (reg s .pwr 0x054 ≠ 0 → p.phase = .lantern → go .lanternWake { s with pwr := { p with phase := .lanternExit, clkreq := [.a, .b], wakeN := true }, out := [.pin "WAKE_N_B" false, .pin "WAKE_N_A" false, .pin "CLKREQ_N_B" false, .pin "CLKREQ_N_A" false] ++ s.out })
    ∧ ((reg s .pwr 0x054 = 0 ∨ p.phase ≠ .lantern) → go .lanternWake s)
    ∧ (∀ bad, let t := { s with fwu := { s.fwu with phase := if inTrial s then .trial else .idle } }
        (p.phase = .lanternExit → go (.lanternExit bad) (if imageOk t then finishStart t bad else imageFailure t))
        ∧ (p.phase ≠ .lanternExit → go (.lanternExit bad) s)))
  ∧ (∀ (d : Fin 80) (s : State),
    let p := s.pwr
    let go (c : Instr) (t : State) : Prop := Safety.answers (exec c s) s t
    let cluster := 16 ≤ d.val ∧ d.val < 32
    let us := if cluster then field s .pwr 0x04C 0 20 else if 33 ≤ d.val ∧ d.val % 3 = 0 then field s .pwr 0x050 0 20 else 0
    let timer := enabledNow s .pwr = true ∧ us ≠ 0 ∧ domGated s d.val = false
    (timer → domainBusy s d.val = false → go (.domainIdleExpiry d) (gateIdle s d.val))
    ∧ (timer → domainBusy s d.val = true → go (.domainIdleExpiry d) { s with pwr := { p with gateWait := if p.gateWait.contains d.val then p.gateWait else p.gateWait ++ [d.val] } })
    ∧ (¬ timer → go (.domainIdleExpiry d) s)
    ∧ (p.gateWait.contains d.val = true → domainBusy s d.val = false → go (.domainGate d) (gateIdle s d.val))
    ∧ ((p.gateWait.contains d.val = false ∨ domainBusy s d.val = true) → go (.domainGate d) s))
  ∧ (∀ s : State, bivouacGated s = setEvt (count (gateD04 (((List.range 16).flatMap fun n => [16 + n, 33 + 3 * n]).foldl (fun t d => if domGated t d then t else if domainBusy t d then
      { t with pwr := { t.pwr with gateWait := if t.pwr.gateWait.contains d then t.pwr.gateWait else t.pwr.gateWait ++ [d] } } else gateIdle t d) s)) .pwr 0) .pwr 8
    ∧ lanternStops s = all16.foldl (fun t n => if enabled t (.link n) then ctrlSend t n.val 0x1E [] else t) (portLinkDown (portLinkDown (phyOff (portResetOp (portResetOp s .a) .b)) .a) .b))

/-- SENSOR_SAMPLE (R410, R418 to R420, R499, R500). That 100 ms are 100 or 10 samples is the model's reading of R418 (assumption log). -/
def Obligations.SensorSampleRow : Prop :=
  (∀ (k : Fin 64) (v : BitVec 16) (valid : Bool) (s : State), k.val < 50 →
    let x := sensor s k.val
    let y := if valid then sensed s k.val v else unsensed s k.val
    let hit (t : State) (crit : Nat) : State :=
      logMgmt (raise (count t .mgt 1) .mgt (10 + crit) k.val) 0x0587 (1 + crit) 2 k.val y.value.toNat crit
    let s1 := setSensor s k.val y
    let s2 := if y.warn && !x.warn then hit s1 0 else s1
    let s3 := if y.crit && !x.crit then hit s2 1 else s2
    let s4 := setReg s3 .mgt 0x04C (reg s3 .mgt 0x04C ||| (alarmLive s3 &&& ~~~(alarmLive s)))
    let q := min 100 (100 * v.toNat * v.toNat / (35000 * 35000))
    let charged := { s4 with pwr := { s4.pwr with charge := q } }
    let go (t : State) : Prop := Safety.answers (exec (.sensorSample k v valid) s) s t
    (coreServes s = false → go s)
    ∧ (coreServes s = true → (k.val ≠ 49 ∨ valid = false) → go s4)
    ∧ (coreServes s = true → k.val = 49 → valid = true → 90 ≤ q → s4.pwr.charge < 90 → go (feed (writeHeld (setEvt charged .pwr 9))))
    ∧ (coreServes s = true → k.val = 49 → valid = true → (q < 90 ∨ 90 ≤ s4.pwr.charge) → go charged))
  ∧ (∀ (k : Fin 64) (v : BitVec 16) (valid : Bool) (s : State), 50 ≤ k.val → exec (.sensorSample k v valid) s = .fault .malformed)
  ∧ (∀ (k : Nat) (v : BitVec 16) (s : State), k < 50 →
    let x := sensor s k
    let y := sensed s k v
    let w (lo : Nat) : Int := (BitVec.ofNat 16 (field s .mgt 0x040 lo 16)).toInt
    let win := railWindow k
    y.value = v ∧ y.valid = true ∧ y.failed = false ∧ y.missing = 0
    ∧ (k < 24 → y.warn = (if x.warn then decide (w 0 - 16 < v.toInt) else decide (w 0 ≤ v.toInt))
        ∧ y.crit = (if x.crit then decide (840 < v.toInt) else decide (880 ≤ v.toInt)))
    ∧ (24 ≤ k → k < 30 → y.warn = (if x.warn then decide (w 16 - 16 < v.toInt) else decide (w 16 ≤ v.toInt))
        ∧ y.crit = (if x.crit then decide (640 < v.toInt) else decide (680 ≤ v.toInt)))
    ∧ (30 ≤ k → k < 48 → (v.toNat < win.1 ∨ win.2 < v.toNat) → y.crit = true ∧ y.run = 0 ∧ y.warn = x.warn)
    ∧ (30 ≤ k → k < 48 → win.1 ≤ v.toNat → v.toNat ≤ win.2 → y.run = x.run + 1 ∧ y.crit = (x.crit && decide (x.run + 1 < 10)) ∧ y.warn = x.warn)
    ∧ (k = 48 → y.warn = (if x.warn then decide ((field s .mgt 0x044 0 16 : Int) - 500 < v.toNat) else decide (field s .mgt 0x044 0 16 ≤ v.toNat))
        ∧ y.crit = (if x.crit then decide (24000 < v.toNat) else decide (25000 ≤ v.toNat)))
    ∧ (k = 49 → y.warn = x.warn ∧ y.crit = x.crit))
  ∧ (∀ (k : Nat) (s : State),
    let x := sensor s k
    let y := unsensed s k
    let late := (if k < 24 then 100 else 10) ≤ x.missing + 1
    y.missing = x.missing + 1 ∧ y.value = x.value ∧ y.warn = x.warn ∧ y.crit = x.crit
    ∧ (railOff s k = true → y.valid = false ∧ y.failed = false)
    ∧ (railOff s k = false → late → y.valid = false ∧ y.failed = true)
    ∧ (railOff s k = false → ¬ late → y.valid = x.valid ∧ y.failed = x.failed))

/-- IDENTIFY, SETTINGS_SAVE, SETTINGS_CLEAR, LOG_MARK, BRIDGE_MAILBOX, MAILBOX_DONE, LOG_SUMMARY (R423, R424, R427, R428). -/
def Obligations.MailboxRows : Prop :=
  (∀ (p : Port) (s : State),
    let b := port s p
    let len := b.mailLen
    let row (c : Instr) (t : State) : Prop := Safety.answers (exec c s) s t
    let ans (t : State) (r : Nat) (bs : List Byte) : State := setPort t p { port t p with mailAnswer := some (r, bs) }
    let open' := coreServes s = true ∧ s.fwu.paused = false ∧ b.mailBusy = true ∧ b.mailAnswer = none
    let at' (op : Nat) := open' ∧ b.mailOp = op
    let holdsBoth := holds s (portMaster p) 0 = true ∧ holds s (portMaster p) 2 = true
    let bytes := mailBytes s p
    let n := leAt bytes 0 1
    let marked := logMgmt s 0x0586 0 (pIdx p) (leAt bytes 0 8) (leAt bytes 8 8) (leAt bytes 16 8) (leAt bytes 24 8)
    let mine (m : MbxOut) : Bool := m.op == 3 && m.who == 1 + pIdx p
    let sent := ((link s n).mbx.find? mine).isSome
    let shape := 5 ≤ bytes.length ∧ bytes.length ≤ 52 ∧ n ≤ 15
    let settings (c : Instr) (op : Nat) (empty : Bool) : Prop := (¬ at' op → row c s) ∧ (at' op → len ≠ 0 → row c (ans s 2 []))
      ∧ (at' op → len = 0 → ¬ holdsBoth → row c (ans s 3 [])) ∧ (at' op → len = 0 → holdsBoth → s.pwr.charge < 90 → row c (ans s 4 []))
      ∧ (at' op → len = 0 → holdsBoth → 90 ≤ s.pwr.charge → row c (ans (writeSetRec s (configRecord s empty)) 0 (leBytes 8 s.nv.nextSeq)))
    (¬ at' 1 → row (.identify p) s) ∧ (at' 1 → len = 0 → row (.identify p) (ans s 0 (identifyBytes s))) ∧ (at' 1 → len ≠ 0 → row (.identify p) (ans s 2 []))
    ∧ settings (.settingsSave p) 2 false ∧ settings (.settingsClear p) 3 true
    ∧ (¬ at' 4 → row (.logMark p) s) ∧ (at' 4 → 32 < len → row (.logMark p) (ans s 2 []))
    ∧ (at' 4 → len ≤ 32 → marked.log.nextSeq ≠ s.log.nextSeq → row (.logMark p) (ans marked 0 (leBytes 8 s.log.nextSeq)))
    ∧ (at' 4 → len ≤ 32 → marked.log.nextSeq = s.log.nextSeq → row (.logMark p) (ans (nextFree marked) 0 (leBytes 8 (freeVal marked))))
    ∧ (¬ at' 5 → row (.bridgeMailbox p) s) ∧ (at' 5 → ¬ shape → row (.bridgeMailbox p) (ans s 2 []))
    ∧ (at' 5 → shape → owner s n ≠ 1 + pIdx p → row (.bridgeMailbox p) (ans s 5 []))
    ∧ (at' 5 → shape → owner s n = 1 + pIdx p → holds s (portMaster p) (4 + n) = false → row (.bridgeMailbox p) (ans s 3 []))
    ∧ (at' 5 → shape → owner s n = 1 + pIdx p → holds s (portMaster p) (4 + n) = true → (link s n).phase ≠ .up → row (.bridgeMailbox p) (ans s 6 []))
    ∧ (at' 5 → shape → owner s n = 1 + pIdx p → holds s (portMaster p) (4 + n) = true → (link s n).phase = .up →
        (sent = true → row (.bridgeMailbox p) s)
        ∧ (sent = false → row (.bridgeMailbox p) (mbxSend s n 3 (leAt bytes 2 2) (bytes.drop 4) (bytes.length - 4) (1 + pIdx p))))
    ∧ (open' → (b.mailOp = 0 ∨ 5 < b.mailOp) → mailRequest s p b.mailOp = ans s 1 [])
    ∧ (let late := open' ∧ b.mailOp = 5 ∧ sent = true
      let t := if coreServes s && !s.fwu.paused && b.mailBusy && b.mailAnswer.isNone && b.mailOp == 5 && sent
        then ans (setLink s n { link s n with mbx := (link s n).mbx.filter fun m => !mine m }) 6 [] else mailRequest s p b.mailOp
      (s.fwu.paused = true → row (.mailboxDone p) s)
      ∧ (late → t = ans (setLink s n { link s n with mbx := (link s n).mbx.filter fun m => !mine m }) 6 [])
      ∧ (s.fwu.paused = false → (port t p).mailAnswer = none → t.fwu.paused = false → row (.mailboxDone p) t)
      ∧ (∀ r bs, t.fwu.paused = false → (port t p).mailAnswer = some (r, bs) →
        let op := (port t p).mailOp
        let written := t.nv.records.any fun x => x.seq == leNat bs
        let coming := t.nv.coming.any fun x => x.seq == leNat bs
        let set := r = 0 ∧ (op = 2 ∨ op = 3)
        (¬ set → row (.mailboxDone p) (mailWrite t p r bs))
        ∧ (set → coming = true → row (.mailboxDone p) t)
        ∧ (set → coming = false → written = true → row (.mailboxDone p) (mailWrite (logMgmt t 0x0588 0 (pIdx p) (leNat bs)) p 0 []))
        ∧ (set → coming = false → written = false → row (.mailboxDone p) (mailWrite t p 7 [])))))
  ∧ (∀ (s : State) (p : Port) (r : Nat) (bs : List Byte),
    let u := (List.range 16).foldl (fun t w => setReg t .mgt (0x140 + 0x80 * pIdx p + 4 * w) (w32 (leAt bs (4 * w) 4))) s
    mailWrite s p r bs = setEvt (setPort u p { port u p with mailBusy := false, mailAnswer := none, mailResult := r, mailRespLen := bs.length }) .mgt (8 + pIdx p))
  ∧ (∀ s : State, Safety.answers (exec .logSummary s) s (s.log.folds.foldl logFoldEnd { s with log := { s.log with folds := [] } }))
  ∧ (∀ (s : State) (f : LogFold), (f.count ≤ 16 → logFoldEnd s f = s)
    ∧ (16 < f.count → logFoldEnd s f = logWrite s { f.last with tai := now s, taiValid := s.tim.taiValid, summary := true, d3 := f.count - 16 }))

/-- SESSION_OPEN, AUTH, SESSION_CLOSE, FSP_SESSION_TIMEOUT, LOCKOUT_EXPIRY (R431 to R433). -/
def Obligations.SessionRows : Prop :=
  (∀ (s : State) (dg : List Byte),
    Safety.requests s dg (.sessionOpen dg) 0x01 (· = 0) false [] openOp
    ∧ Safety.requests s dg (.auth dg) 0x02 (· = 80) false [] authOp
    ∧ Safety.requests s dg (.sessionClose dg) 0x03 (· = 0) false [] closeOp)
  ∧ (∀ (s : State) (dg : List Byte),
    let id := leAt dg 4 4
    let seq := leAt dg 8 4
    let op := leAt dg 12 2
    let formed (tag : Nat) := 24 ≤ dg.length ∧ leAt dg 0 2 = 0x5346 ∧ leAt dg 2 1 = 1 ∧ leAt dg 3 1 = 0 ∧ sub dg 18 6 = zeros 6 ∧ leAt dg 16 2 ≤ 1400 ∧ dg.length = 24 + leAt dg 16 2 + tag
    let body := dg.take (dg.length - 48)
    let open' := (s.fsp.sessions.find? fun x => x.id == id).filter (·.authed)
    (open' = none → formed 0 → readDg s dg = some { id := id, seq := seq, op := op, authed := false, body := dg.drop 24 })
    ∧ (open' = none → ¬ formed 0 → readDg s dg = none)
    ∧ (∀ x, open' = some x →
      let good := formed 48 ∧ (∀ l, x.lastSeq = some l → l < seq) ∧ dg.drop (dg.length - 48) = padTo (Config.hmacSha384 x.key body) 48
      (good → readDg s dg = some { id := id, seq := seq, op := op, authed := true, body := body.drop 24 }) ∧ (¬ good → readDg s dg = none)))
  ∧ (∀ (s : State) (r : FspReq),
    heard s r = (let t := wake (count s .mgt 2) 6
      { t with fsp := { t.fsp with sessions := t.fsp.sessions.map fun x => if x.id == r.id then { x with lastSeq := some r.seq } else x } }))
  ∧ (∀ (h : State) (r : FspReq),
    let f := h.fsp
    let nonce := leBytes 32 (Config.randomBits h.free 256)
    let u := nextFree h
    let closed (t : State) : State := { t with fsp := { t.fsp with sessions := t.fsp.sessions.filter (·.id != r.id) } }
    let failed := raise (count h .mgt 3) .mgt 12 r.id
    let times := clock failed :: failed.fsp.failures.filter fun t => clock failed < t + 60000000000
    let locked := if 5 ≤ times.length then some (clock failed + 60000000000) else none
    let fails := reply { failed with fsp := { failed.fsp with failures := times, lockedUntil := locked } } r 4 []
    (4 ≤ f.sessions.length → openOp h r = reply h r 7 [])
    ∧ (f.sessions.length < 4 → openOp h r = reply { u with fsp := { u.fsp with nextId := f.nextId % 0xFFFFFFFF + 1, sessions := u.fsp.sessions ++ [{ id := f.nextId, nonce := nonce }] } } r 0 (leBytes 4 f.nextId ++ nonce))
    ∧ (f.lockedUntil ≠ none → authOp h r = reply h r 5 [])
    ∧ (f.lockedUntil = none → (sessionOf h r.id = none ∨ f.ownerKey = none) → authOp h r = fails)
    ∧ (∀ x key, f.lockedUntil = none → sessionOf h r.id = some x → f.ownerKey = some key →
      let nc := r.body.take 32
      let proof := padTo (Config.hmacSha384 key ([0x46, 0x53, 0x50, 0x31] ++ leBytes 4 r.id ++ x.nonce ++ nc)) 48
      let k := padTo (Config.hmacSha384 key (x.nonce ++ nc)) 48
      (r.body.drop 32 ≠ proof → authOp h r = fails)
      ∧ (r.body.drop 32 = proof → authOp h r = reply { h with fsp := { f with sessions := f.sessions.map fun y => if y.id == r.id then { y with authed := true, key := k } else y } } r 0 []))
    ∧ ((sessionOf h r.id).isSome = true → closeOp h r = closed (reply h r 0 []))
    ∧ (sessionOf h r.id = none → closeOp h r = reply h r 3 []))
  ∧ (∀ (s : State) (id : Nat),
    (coreServes s = true → Safety.answers (exec (.fspSessionTimeout id) s) s { s with fsp := { s.fsp with sessions := s.fsp.sessions.filter (·.id != id) } })
    ∧ (coreServes s = false → Safety.answers (exec (.fspSessionTimeout id) s) s s))
  ∧ (∀ s : State, Safety.answers (exec .lockoutExpiry s) s { s with fsp := { s.fsp with lockedUntil := none, failures := [] } })

/-- FSP IDENTIFY, SENSORS, LOG_READ, TIME_STATUS (R423, R429, R433). The layout of the payloads is presumed (assumption log). -/
def Obligations.ReportRows : Prop :=
  (∀ (s : State) (dg : List Byte),
    Safety.requests s dg (.fspIdentify dg) 0x10 (· = 0) false [] (fun h r => reply h r 0 (identifyBytes h))
    ∧ Safety.requests s dg (.sensors dg) 0x11 (· = 0) false [] (fun h r =>
      reply h r 0 (((List.range 50).flatMap fun k => leBytes 4 (sensorWord h k)) ++ leBytes 4 (alarmLive h).toNat ++ leBytes 4 (reg h .mgt 0x04C).toNat))
    ∧ Safety.requests s dg (.logRead dg) 0x12 (· = 4) false [] (fun h r => reply h r 0 (eventEntries h (leAt r.body 0 4) 21).flatten)
    ∧ Safety.requests s dg (.timeStatus dg) 0x13 (· = 0) false [] (fun h r =>
      reply h r 0 (leBytes 4 (timStat h) ++ leBytes 8 (now h) ++ leBytes 4 (u32 h.tim.ppsErr))))
  ∧ (∀ s : State, identifyBytes s = (List.range 16).map Config.identityByte ++ padTo (codeBytes s.code) 16 ++ (List.range 6).map (fun i => Config.identityByte (32 + i))
      ++ leBytes 2 (runImage s).version ++ leBytes 2 (runImage s).kxh2)
  ∧ (∀ (s : State) (r : FspReq) (status : Nat) (payload : List Byte),
    let key := match s.fsp.sessions.find? fun x => x.id == r.id && x.authed with
      | some x => some x.key
      | none => none
    reply s r status payload = emit s (.fsp (fspDatagram 1 r.id r.seq r.op status payload key)))

/-- THAW, FSP ZEROISE, RESET, OWNER_LOCK, FLEET, OWNER_KEY, NET_CONFIG, FSP BRIDGE_MAILBOX (R81, R410, R432, R433, R455). That the security
changes need the store at 90 %, the reason of the BRIDGE_MAILBOX refusal (free) and the payloads are the model's (assumption log). -/
def Obligations.OwnerRows : Prop :=
  (∀ (s : State) (dg : List Byte),
    Safety.requests s dg (.thaw dg) 0x20 (· = 1) true [] thawOp
    ∧ Safety.requests s dg (.fspZeroise dg) 0x21 (· = 0) true [] (fun h r => reply (zeroise h 6 2) r 0 [])
    ∧ Safety.requests s dg (.reset dg) 0x22 (· = 0) true [] (fun h r => startSeq (deviceReset (reply h r 0 []) .fspRequest))
    ∧ Safety.requests s dg (.ownerLock dg) 0x23 (· = 1) true [] lockOp
    ∧ Safety.requests s dg (.fleet dg) 0x24 (· = 1) true [] (fun h r => secure h r fun f => { f with fleet := leAt r.body 0 1 % 4 })
    ∧ Safety.requests s dg (.ownerKey dg) 0x25 (fun _ => True) false [] keyOp
    ∧ Safety.requests s dg (.netConfig dg) 0x26 (fun n => n = 0 ∨ n = 16) true [] (fun h r => secure h r fun f => { f with staticAddr := r.body })
    ∧ Safety.requests s dg (.fspBridgeMailbox dg) 0x27 (fun _ => True) true [] fspBridge)
  ∧ (∀ (h : State) (r : FspReq) (f : FspSt → FspSt),
    let u := { h with fsp := f h.fsp }
    (h.pwr.charge < 90 → secure h r f = reply h r 6 (leBytes 2 0x0803))
    ∧ (90 ≤ h.pwr.charge → secure h r f = reply (writeSetRec u (securityRecord u)) r 0 []))
  ∧ (∀ (h : State) (r : FspReq),
    let m := leAt r.body 0 1
    let took := semResult (grantSem h .mgmt 0) .mgmt 0 0
    let blocked := (mst h .mgmt).frozen = true ∨ (sem h 0).holder ≠ none ∨ ∃ j, 0 < j ∧ j < 32 ∧ holds h .mgmt j = true
    let on := leAt r.body 0 1 % 2 == 1
    let locked := secure h r fun f => { f with ownerLock := on }
    let freed (t : State) : State := semResult (setSem t 0 { sem t 0 with holder := none }) .mgmt 0 4
    let msgs := (List.range 16).foldl (fun t k => setLink t k { link t k with mbx := (link t k).mbx.filter fun x => !(x.op == 3 && x.who == 3) }) h
    let sent := mbxSend msgs m 3 (leAt r.body 2 2) (r.body.drop 4) (r.body.length - 4) 3
    let shape := 5 ≤ r.body.length ∧ r.body.length ≤ 52 ∧ m ≤ 15
    (1 < m → thawOp h r = reply h r 2 [])
    ∧ (m ≤ 1 → ¬ blocked → thawOp h r = reply (freed (thawMaster took (nthMaster m))) r 0 [])
    ∧ (m ≤ 1 → blocked → ∃ x, thawOp h r = reply { h with masters := x } r 7 [])
    ∧ (locked.fsp.ownerLock = h.fsp.ownerLock → lockOp h r = locked)
    ∧ (locked.fsp.ownerLock ≠ h.fsp.ownerLock → lockOp h r = raise locked .mgt 13 (bit on))
    ∧ (r.authed = false → h.fsp.ownerKey ≠ none → keyOp h r = reply h r 3 [])
    ∧ ((r.authed = true ∨ h.fsp.ownerKey = none) → r.body.length ≠ 48 → keyOp h r = reply h r 2 [])
    ∧ ((r.authed = true ∨ h.fsp.ownerKey = none) → r.body.length = 48 → keyOp h r = secure h r fun f => { f with ownerKey := some r.body })
    ∧ (¬ shape → fspBridge h r = reply h r 2 [])
    ∧ (shape → ((link h m).phase ≠ .up ∨ (link h m).mode ≠ .service) → fspBridge h r = reply (nextFree h) r 6 (leBytes 2 (freeVal h % 65536)))
    ∧ (shape → (link h m).phase = .up → (link h m).mode = .service → fspBridge h r = { sent with fsp := { sent.fsp with mail := some (r.id, r.seq) } }))

/-- SMB_IDENTIFY, SMB_SENSORS, SMB_ALARMS, SMB_STATE, ALERT_RESPONSE, PHY_LINK_CHANGE, ICMPV6_ECHO (R430, R493, R494). The checksum of an
Advertisement is a free value, and an answer is its data bytes (assumption log). -/
def Obligations.BusRows : Prop :=
  (∀ s : State,
    let row (c : Instr) (t : State) : Prop := Safety.answers (exec c s) s t
    let smb (c : Instr) (bs : List Byte) : Prop := (coreServes s = true → row c (emit s (.smbus bs))) ∧ (coreServes s = false → row c s)
    smb .smbIdentify (identifyBytes s)
    ∧ smb .smbSensors ((List.range 50).flatMap fun k => leBytes 4 (sensorWord s k))
    ∧ smb .smbAlarms (leBytes 1 (alarmLive s).toNat ++ leBytes 1 (reg s .mgt 0x04C).toNat)
    ∧ smb .smbState (leBytes 1 (bit s.ready + 2 * bit s.pwr.bivouac + 8 * bit (s.pwr.phase == .recovery)))
    ∧ (coreServes s = true → reg s .mgt 0x04C &&& reg s .mgt 0x048 ≠ 0 → row .alertResponse (emit s (.smbus [0x5C])))
    ∧ ((coreServes s = false ∨ reg s .mgt 0x04C &&& reg s .mgt 0x048 = 0) → row .alertResponse s)
    ∧ (∀ up, row (.phyLinkChange up) { s with fsp := { s.fsp with phyUp := up } }))
  ∧ (∀ (s : State) (msg : List Byte),
    let row (t : State) : Prop := Safety.answers (exec (.icmpv6Echo msg) s) s t
    let serves := coreServes s = true ∧ s.fwu.paused = false ∧ s.fsp.phyUp = true
    let echo := leAt msg 0 1 = 128 ∧ 8 ≤ msg.length
    let target := sub msg 8 16
    let ask := leAt msg 0 1 = 135 ∧ 24 ≤ msg.length ∧ (target = linkLocal ∨ target = s.fsp.staticAddr)
    let old := leNat (sub msg 2 2).reverse
    let sum := ocAdd (ocAdd (65535 - old) (65535 - (0x8000 + leAt msg 1 1))) (0x8100 + leAt msg 1 1)
    (serves → echo → row (emit s (.net ([0x81] ++ sub msg 1 1 ++ beBytes 2 (65535 - sum) ++ msg.drop 4))))
    ∧ (serves → ask → row (emit (nextFree s) (.net ([136, 0] ++ beBytes 2 (freeVal s % 65536) ++ [0x60, 0, 0, 0] ++ target ++ [2, 1] ++ macBytes))))
    ∧ ((¬ serves ∨ (¬ echo ∧ ¬ ask)) → row s))

/-- STEP, SLEW, SLEW_DONE, PPS_IN_EDGE, PPS_IN_LOST, SECOND_CROSSING (R436 to R438). The PI step and the mean of FREQ_ADJ are free values
(assumption log). -/
def Obligations.TimeRows : Prop :=
  (∀ (m : Master) (s : State), Safety.canWrite s m (.page .tim 0x064) = true →
    let set := reg64 s .tim 0x058
    let steered := s.tim.disc = .locking ∨ s.tim.disc = .locked
    let c := if steered then set / 1000000000 * 1000000000 + now s % 1000000000 else set
    let u := timeStep s (c % 2 ^ 64 * 2 ^ 32) 0 (mIdx m)
    let a := (reg s .tim 0x060).toInt
    (s.pwr.tcxo = false → Safety.answers (exec (.step m) s) s s ∧ Safety.answers (exec (.slew m) s) s s)
    ∧ (s.pwr.tcxo = true → Safety.answers (exec (.step m) s) s { u with tim := { u.tim with taiValid := true, slewing := false, slewLeft := 0 } })
    ∧ (s.pwr.tcxo = true → (1000000000 < a.natAbs ∨ steered) → Safety.answers (exec (.slew m) s) s (setEvt s .tim 13))
    ∧ (s.pwr.tcxo = true → a.natAbs ≤ 1000000000 → ¬ steered → Safety.answers (exec (.slew m) s) s { s with tim := { s.tim with slewing := true, slewLeft := a * 2 ^ 32 } }))
  ∧ (∀ (s : State) (n cause req : Nat),
    let u := { s with tim := { s.tim with count := n } }
    timeStep s n cause req = logMgmt (raise (count u .tim 1) .tim 8 0 req) 0x058A 1 req (now s) (n / 2 ^ 32 % 2 ^ 64) cause)
  ∧ (∀ s : State,
    let t := s.tim
    let row (c : Instr) (u : State) : Prop := Safety.answers (exec c s) s u
    let runs := s.pwr.tcxo = true
    let steered := t.disc = .locking ∨ t.disc = .locked
    let seen := count s .tim 0
    let edge := { seen with tim := { seen.tim with lastEdge := some (clock s) } }
    let valid := t.validEdge = none ∨ ∃ v, t.validEdge = some v ∧ v + 999000000 ≤ clock s ∧ clock s ≤ v + 1001000000
    let lost := nextFree { s with tim := { t with disc := .holdover, goodEdges := 0, validEdge := none, freqAdj := Config.holdoverMean s.free - Config.factoryTrim } }
    let on (b : Nat) := (page s .tim).enabled = true ∧ field s .tim 0x040 b 1 = 1
    let pps := if (page s .tim).enabled ∧ field s .tim 0x040 2 1 = 1 then emit s (.pin "PPS_OUT" true) else s
    (¬ runs → row .slewDone s ∧ row .ppsInEdge s ∧ row .ppsInLost s ∧ row .secondCrossing s)
    ∧ (runs → t.slewing = true → row .slewDone { s with tim := { t with count := (((t.count : Int) + t.slewLeft) % 2 ^ 96).toNat, slewing := false, slewLeft := 0 } })
    ∧ (runs → t.slewing = false → row .slewDone s)
    ∧ (runs → (t.disc = .off ∨ ¬ valid) → row .ppsInEdge edge)
    ∧ (runs → t.disc ≠ .off → valid → row .ppsInEdge (discEdge edge))
    ∧ (runs → steered → row .ppsInLost (raise (raise lost .tim 10) .tim 11))
    ∧ (runs → ¬ steered → row .ppsInLost s)
    ∧ (runs → on 3 → row .secondCrossing (emit pps (.pin "REF10M_OUT" true)))
    ∧ (runs → ¬ on 3 → row .secondCrossing pps))
  ∧ (∀ s : State,
    let d := (BitVec.ofNat 16 (field s .tim 0x044 16 16)).toInt
    let e : Int := ((now s : Int) - d + 500000000) % 1000000000 - 500000000
    let back := s.tim.disc = .holdover
    let t1 := { s.tim with ppsErr := e, validEdge := some (clock s) }
    let t2 := if back then { t1 with disc := .locking, stepped := false, goodEdges := 0 } else t1
    let u := { s with tim := t2 }
    let jump := t2.disc = .locking ∧ t2.stepped = false ∧ 1000 < e.natAbs
    let stepped := timeStep u (((t2.count : Int) - e * 2 ^ 32) % 2 ^ 96).toNat 1 0x3F
    let f := Config.disciplineStep (max 1 (field s .tim 0x048 0 8)) e (Config.factoryTrim + t2.freqAdj)
    let good := if e.natAbs < 100 then t2.goodEdges + 1 else 0
    let t3 := { t2 with freqAdj := f - Config.factoryTrim, goodEdges := good }
    (jump → discEdge s = { stepped with tim := { stepped.tim with stepped := true } })
    ∧ (¬ jump → t2.disc = .locking → 8 ≤ good → discEdge s = raise { s with tim := { t3 with disc := .locked } } .tim 9)
    ∧ (¬ jump → (t2.disc ≠ .locking ∨ good < 8) → discEdge s = { s with tim := t3 }))

/-- PTP_SYNC, PTP_ANNOUNCE, PTP_DELAY_REQ, FOREIGN_ANNOUNCE (R439). The layout of the messages is that of IEEE 1588, presumed, and the
variance is a free value (assumption log). -/
def Obligations.PtpRows : Prop :=
  ∀ (s : State) (msg : List Byte),
    let row (c : Instr) (t : State) : Prop := Safety.answers (exec c s) s t
    let on := coreServes s = true ∧ s.fwu.paused = false ∧ s.fsp.phyUp = true ∧ enabled s .tim = true ∧ field s .tim 0x040 1 1 = 1 ∧ s.tim.taiValid = true
    let ours (ty len : Nat) := len ≤ msg.length ∧ leAt msg 0 1 % 16 = ty ∧ leAt msg 1 1 % 16 = 2 ∧ leAt msg 4 1 = field s .tim 0x040 8 8
    let stamp := ptpStamp (now s)
    let n := s.tim.syncSeq
    let sync := emit s (.net (ptpMsg s 0x0 0x0200 n 0 0xFD stamp))
    let both := count (emit sync (.net (ptpMsg sync 0x8 0x0000 n 2 0xFD stamp))) .tim 2
    let a := s.tim.announceSeq
    let clk := clockAttrs s
    let body := stamp ++ beBytes 2 (field s .tim 0x04C 0 16) ++ [0] ++ leBytes 1 (field s .tim 0x040 16 8) ++ leBytes 1 clk.1 ++ leBytes 1 clk.2.1
      ++ beBytes 2 (freeVal s % 65536) ++ leBytes 1 (field s .tim 0x040 24 8) ++ eui64 ++ [0, 0] ++ leBytes 1 clk.2.2
    let told := nextFree (emit s (.net (ptpMsg s 0xB (0x08 + 4 * field s .tim 0x04C 16 1) a 5 0 body)))
    let foreign := ours 0xB 64 ∧ sub msg 20 8 ≠ eui64
    (on → row .ptpSync { both with tim := { both.tim with syncSeq := (n + 1) % 65536 } })
    ∧ (on → row .ptpAnnounce { told with tim := { told.tim with announceSeq := (a + 1) % 65536 } })
    ∧ (on → ours 1 44 → row (.ptpDelayReq msg) (emit s (.net (ptpMsg s 0x9 0x0000 (leNat (sub msg 30 2).reverse) 3 0x7F (stamp ++ sub msg 20 10)))))
    ∧ (on → ¬ ours 1 44 → row (.ptpDelayReq msg) s)
    ∧ (on → foreign → row (.foreignAnnounce msg) (raise (count s .tim 3) .tim 12))
    ∧ (on → ¬ foreign → row (.foreignAnnounce msg) s)
    ∧ (¬ on → row .ptpSync s ∧ row .ptpAnnounce s ∧ row (.ptpDelayReq msg) s ∧ row (.foreignAnnounce msg) s)
    ∧ (∀ ty flags q ctl ival b, ptpMsg s ty flags q ctl ival b = leBytes 1 ty ++ [0x12] ++ beBytes 2 (34 + b.length) ++ leBytes 1 (field s .tim 0x040 8 8) ++ [0]
        ++ beBytes 2 flags ++ zeros 12 ++ eui64 ++ [0, 1] ++ beBytes 2 q ++ leBytes 1 ctl ++ leBytes 1 ival ++ b)

/-- NVA_DOORBELL, READ, PROGRAM, ERASE_SECTOR, BLANK_CHECK, SWAP_BOOT, NV_UNIT_DONE (R443, R444, R452, R458, R460, R463, R464). That
descriptors are fetched at the doorbell and that a READ does not wait for a bank are the model's (assumption log). -/
def Obligations.NvRows : Prop :=
  (∀ (p : Port) (v : Word) (s : State), Safety.canWrite s (portMaster p) (.page .nva (0x060 + 8 * pIdx p)) = true →
    let row (t : State) : Prop := Safety.answers (exec (.nvaDoorbell (portMaster p) p v) s) s t
    let tail := v.toNat % 4096
    let size := field s .nva (0x048 + 0x10 * pIdx p) 0 13
    (enabledNow s .nva = false → row s)
    ∧ (enabledNow s .nva = true → size ≤ tail → row (setEvt s .nva 14))
    ∧ (enabledNow s .nva = true → tail < size → row (askDescs (modNvq s (portNvq p) fun x => { x with tail := tail }) p)))
  ∧ (∀ (q : NvQueue) (s : State),
    let x := nvq s q
    let row (op : Nat) (t : State) : Prop :=
      Safety.answers (exec (if op = 1 then .nvRead q else if op = 2 then .program q else if op = 3 then .eraseSector q else if op = 4 then .blankCheck q else .swapBoot q) s) s t
    let free := s.fwu.paused = false ∧ x.job = none ∧ nvTurn s q = true
    ∀ op, 1 ≤ op → op ≤ 5 →
      (x.fetched = [] → row op s)
      ∧ (∀ d rest, x.fetched = d :: rest →
        let u := modNvq s q fun y => { y with fetched := rest }
        let ends (code result : Nat) : State := skim (descEnd u q d code result)
        let host := q ≠ .mgmt
        let writes := op = 2 ∨ op = 3 ∨ op = 5
        let good := badDesc q d = false ∧ ¬ (op = 5 ∧ host) ∧ (writes → 90 ≤ s.pwr.charge)
        ((d.op ≠ op ∨ d.lost = true ∨ ¬ free) → row op s)
        ∧ (d.op = op → d.lost = false → free →
          (badDesc q d = true → row op (ends 4 0))
          ∧ (badDesc q d = false → op = 5 → host → row op (ends 8 0))
          ∧ (badDesc q d = false → ¬ (op = 5 ∧ host) → writes → s.pwr.charge < 90 → row op (ends 5 0))
          ∧ (good → row op (skim (runDesc u q d (if op = 5 then 0 else reach u q d)))))))
  ∧ (∀ s : State, nvTurn s .mgmt = true
    ∧ (nvTurn s .a = true ↔ (port s .a).d3hot = false ∧ (nvq s .b).job = none
      ∧ (s.nv.turn = .a ∨ (nvq s .b).fetched = [] ∨ (port s .b).d3hot = true))
    ∧ (nvTurn s .b = true ↔ (port s .b).d3hot = false ∧ (nvq s .a).job = none
      ∧ (s.nv.turn = .b ∨ (nvq s .a).fetched = [] ∨ (port s .a).d3hot = true)))
  ∧ (∀ (s : State) (q : NvQueue) (d : NvDesc) (n : Nat),
    let code := if n < d.length then 6 else 0
    let bytes := descBytes s q d n
    let asks (p : Port) := emit (modNvq s q fun x => { x with reads := x.reads ++ [.data], job := some { desc := d, units := [], code := code, waiting := true } }) (.dmaRead p d.ptr n)
    (d.op = 1 → runDesc s q d n = descEnd (match nvqPort q with
      | some p => if 0 < n then emit s (.dmaWrite p d.ptr bytes) else s
      | none => s) q d code n)
    ∧ (d.op = 4 → runDesc s q d n = match notBlank bytes with
      | some o => descEnd s q d 1 o
      | none => descEnd s q d code n)
    ∧ (d.op = 2 → runDesc s q d n = match notBlank bytes, nvqPort q with
      | some o, _ => descEnd s q d 1 o
      | none, none => runJob s q d (programUnits q d (d.data.take n)) code
      | none, some p => if n = 0 then descEnd s q d code 0 else asks p)
    ∧ (d.op = 3 → runDesc s q d n = runJob s q d ((List.range (n / 4096)).map fun i => .erase (descAddr q d (4096 * i))) code)
    ∧ (d.op = 5 →
      let select := if d.flags / 2 % 2 = 1 then some [] else selectUnits s (1 - s.fwu.block)
      let prepare := if d.flags / 4 % 2 = 1 then [] else prepareUnits s (d.addr % 2)
      (select = none → runDesc s q d n = descEnd s q d 6 0)
      ∧ (∀ us, select = some us → (prepare.any fun u => sectorFailed s (unitAddr u)) = true → runDesc s q d n = descEnd s q d 6 0)
      ∧ (∀ us, select = some us → (prepare.any fun u => sectorFailed s (unitAddr u)) = false → runDesc s q d n = runJob s q d (prepare ++ us) 0)))
  ∧ (∀ (s : State) (q : NvQueue) (d : NvDesc) (us : List NvUnit) (code : Nat),
    (us = [] → runJob s q d us code = descEnd s q d code 0)
    ∧ (us ≠ [] → runJob s q d us code = feed (modNvq s q fun x => { x with job := some { desc := d, units := us, code := code } })))
  ∧ (∀ (s : State) (p : Port) (d : NvDesc) (code result : Nat),
    let q := portNvq p
    let t := count (modNvq s q fun x => { x with job := none }) .nva 0
    let h := (nvq t q).head
    let w := if (port t p).d3hot = true then t else emit t (.dmaWrite p (nvBase t p + 32 * h + 24) (leBytes 2 (0x8000 + code) ++ zeros 2 ++ leBytes 4 result))
    let e := modNvq w q fun x => { x with head := if h + 1 < nvSize t p then h + 1 else 0 }
    let f := { e with nv := { e.nv with turn := if p = .a then .b else .a } }
    let g := if code = 0 then f else count f .nva 5
    descEnd s q d code result = if d.flags % 2 = 1 then setEvt g .nva (8 + pIdx p) else g)
  ∧ (∀ (b : Fin 2) (ok : Bool) (s : State),
    (bankUnits s b.val = [] → Safety.answers (exec (.nvUnitDone b ok) s) s s)
    ∧ (∀ o u rest, bankUnits s b.val = (o, u) :: rest →
      (ok = true → Safety.answers (exec (.nvUnitDone b ok) s) s (skim (feed (jobStep (applyUnit (setBankUnits s b.val rest) u) o u))))
      ∧ (ok = false → Safety.answers (exec (.nvUnitDone b ok) s) s (skim (feed (failUnit s b.val o u))))))

/-- DL_BEGIN, DL_DATA, DL_CHUNK, VERIFY, ACTIVATE, CONFIRM, CANCEL, UPDATE_STATUS (R473 to R475, R481). That a VERIFY is answered at its
acceptance, the lengths of DL_BEGIN, and BUSY for DL_CHUNK are the model's (assumption log). -/
def Obligations.UpdateRows : Prop :=
  (∀ (s : State) (dg : List Byte),
    let st := leBytes 4 (fwuState s).toNat
    let fsp (c : Instr) (op : Nat) (len : Nat → Prop) (own : Bool) (go : State → FspReq → State) : Prop := Safety.requests s dg c op len own st go
    fsp (.dlBegin dg) 0x40 (· = 4) true beginOp ∧ fsp (.dlData dg) 0x41 (fun n => 4 ≤ n ∧ n ≤ 1028) true dataOp
    ∧ fsp (.dlChunk dg) 0x42 (· = 8) true chunkOp ∧ fsp (.verify (.fsp dg)) 0x43 (· = 0) true verifyFsp
    ∧ fsp (.activate dg) 0x44 (· = 16) true activateFsp ∧ fsp (.confirm (.fsp dg)) 0x45 (· = 0) true confirmFsp
    ∧ fsp (.cancel (.fsp dg)) 0x46 (· = 0) true cancelFsp ∧ fsp (.updateStatus dg) 0x47 (· = 0) false statusFsp)
  ∧ (∀ (m : Master) (s : State), Safety.canWrite s m (.page .fwu 0x040) = true →
    let row (c : Instr) (u : UpdStep) (f : State → State) : Prop :=
      (stepReason s u = 0 → Safety.answers (exec c s) s (f (setCheck s .fwu 0 0)))
      ∧ (stepReason s u ≠ 0 → Safety.answers (exec c s) s (count (setCheck s .fwu (stepReason s u) 0xFF) .fwu 3))
    row (.verify (.register m)) .verify (fun t => { t with fwu := { t.fwu with phase := .verifying } })
    ∧ row (.confirm (.register m)) .confirm confirmOp ∧ row (.cancel (.register m)) .cancel cancelOp)
  ∧ (∀ s : State,
    let p := s.fwu.phase
    let low (n : Nat) := if s.pwr.charge < 90 then 0x0803 else n
    (s.fsp.ownerLock = true → ∀ u, stepReason s u = 0x0804)
    ∧ (s.fsp.ownerLock = false → stepReason s .begin = low 0 ∧ stepReason s .chunk = low 0 ∧ stepReason s .confirm = low 0 ∧ stepReason s .data = 0 ∧ stepReason s .cancel = 0
      ∧ stepReason s .verify = (if p = .downloaded ∨ p = .verified then 0 else 0x0806)
      ∧ ∀ a q fl, stepReason s (.activate a q fl) = if p ≠ .verified then 0x0806 else if a ≠ 0 ∧ fl = false then 0x0808 else if a ≠ 0 ∧ a ≤ now s then 0x0807
          else low (if a = 0 ∧ q = false ∧ anyMoving s = true then 0x0805 else 0)))
  ∧ (∀ (s : State) (r : FspReq) (u : UpdStep) (f : State → State),
    let busy := (mst s .mgmt).frozen = true ∨ (sem s 2).holder ≠ none ∨ ∃ j, 2 < j ∧ j < 32 ∧ holds s .mgmt j = true
    let t := semResult (grantSem s .mgmt 2) .mgmt 2 0
    let why := stepReason t u
    (busy → ∃ x, updStep s r u f = reply { s with masters := x } r 7 (leBytes 4 (fwuState s).toNat))
    ∧ (¬ busy → why = 0 → updStep s r u f = f (setCheck t .fwu 0 0))
    ∧ (¬ busy → why ≠ 0 → updStep s r u f = reply (coreGives (count (setCheck t .fwu why 0xFF) .fwu 3) 2) r 6 (leBytes 2 why)))
  ∧ (∀ (h : State) (r : FspReq),
    let step := updStep h r
    let n := leAt r.body 0 4
    let c := leAt r.body 0 2
    let o := leAt r.body 2 2
    let bs := r.body.drop 4
    let ends (status : Nat) (t : State) : State := reply (coreGives t 2) r status (leBytes 4 (fwuState t).toNat)
    let held (t : State) := t.fwu.phase = .scheduled ∨ t.fwu.phase = .activating ∨ t.fwu.phase = .trial
    let q := leAt r.body 0 1 % 2 == 1
    let at' := leAt r.body 8 8
    (beginOp h r = step .begin fun t => if n < 4096 || 7864320 < n then ends 2 t else if downloadBusy t then ends 7 t else ends 0 (dlBeginOp t n))
    ∧ (dataOp h r = step .data fun t => if 119 < c || 65536 < o + bs.length then ends 2 t else ends 0 (dlDataOp t c o bs))
    ∧ (chunkOp h r = step .chunk fun t => if 119 < c then ends 2 t else if downloadBusy t then ends 7 t else match chunkData t c with
      | none => ends 2 t
      | some x => if (crc32c x).toNat = leAt r.body 4 4 then skim (feed (dlChunkOp t c x r.id r.seq)) else ends 2 t)
    ∧ (verifyFsp h r = step .verify fun t => let v := { t with fwu := { t.fwu with phase := .verifying, took := true } }; reply v r 0 (leBytes 4 (fwuState v).toNat))
    ∧ (activateFsp h r = step (.activate at' q true) fun t => ends 0 (activateOp t at' q none))
    ∧ (confirmFsp h r = step .confirm fun t => ends 0 (confirmOp t)) ∧ (cancelFsp h r = step .cancel fun t => ends 0 (cancelOp t))
    ∧ (downloadBusy h = true ↔ held h)
    ∧ (let busy := (mst h .mgmt).frozen = true ∨ (sem h 2).holder ≠ none ∨ ∃ j, 2 < j ∧ j < 32 ∧ holds h .mgmt j = true
      let t := coreGives (semResult (grantSem h .mgmt 2) .mgmt 2 0) 2
      let u := semResult (grantSem h .mgmt 2) .mgmt 2 0
      (busy → ∃ x, statusFsp h r = reply { h with masters := x } r 7 (leBytes 4 (fwuState h).toNat))
      ∧ (¬ busy → statusFsp h r = reply t r 0 (leBytes 4 (fwuState u).toNat ++ leBytes 4 (candidateWord u) ++ leBytes 4 (rollbackWord u) ++ leBytes 4 (downloadWord u) ++ leBytes 8 (scheduleTai u)))))

/-- VERIFY_DONE, SCHEDULED_ACTIVATION, ACTIVATION_PAUSE, ACTIVATION_RESUME, and what ACTIVATE, CONFIRM and CANCEL do (R75, R157, R473, R474,
R476, R477, R479). -/
def Obligations.ActivationRows : Prop :=
  ∀ s : State,
    let f := s.fwu
    let row (c : Instr) (t : State) : Prop := Safety.answers (exec c s) s t
    let k := 1 - runSlot s
    let r := checkImage s k
    let checked := { s with fwu := { f with phase := if r = 1 then .verified else .idle, lastResult := r, candidate := if r = 1 then some (readImage s k) else f.candidate, slots := if r = 1 then tput f.slots k (readImage s k) else f.slots } }
    let due := f.phase = .scheduled ∧ f.atTai ≤ now s
    let why := if s.pwr.charge < 90 then 0x0803 else if !f.reqQuiesce && anyMoving s then 0x0805 else 0
    let tested := setCheck (wake s 6) .fwu why (if why = 0 then 0 else 0xFF)
    let pauses := f.phase = .activating ∧ f.prepared = true ∧ f.paused = false ∧ (f.quiesce = true → quiesced s = true)
    let select := selectUnits s (1 - f.block)
    (f.phase ≠ .verifying → row .verifyDone s)
    ∧ (f.phase = .verifying → r = 1 → row .verifyDone (stepGives (setEvt checked .fwu 8)))
    ∧ (f.phase = .verifying → r ≠ 1 → row .verifyDone (stepGives (setEvt (count checked .fwu 2) .fwu 8)))
    ∧ (¬ due → row .scheduledActivation s)
    ∧ (due → why = 0 → row .scheduledActivation (progressAll { tested with fwu := { tested.fwu with phase := .activating, quiesce := tested.fwu.reqQuiesce, atTai := 0 } }))
    ∧ (due → why ≠ 0 → row .scheduledActivation (raise { tested with fwu := { tested.fwu with phase := .verified, lastResult := 9, atTai := 0 } } .fwu 13))
    ∧ (¬ pauses → row .activationPause s)
    ∧ (pauses → select = none → row .activationPause (prepareEnd s false))
    ∧ (∀ us, pauses → select = some us → let t := us.foldl applyUnit (stopCalibration s)
      row .activationPause { t with fwu := { t.fwu with paused := true, pausedAt := clock s, pausedTai := now s } })
    ∧ (f.paused = false → row .activationResume s)
    ∧ (f.paused = true →
      let left := clock s - f.pausedAt
      let run := { s with sems := s.sems.map fun (x : Nat × Sem) => (x.1, if x.2.holder.isSome then { x.2 with due := x.2.due + left } else x.2) }
      let trial := { run with fwu := { f with paused := false, phase := .trial, lastResult := 1, quiesce := false, byCid := none, prepared := false, candidate := none } }
      let held := sendHeldAll (convertRecord (raise (count trial .fwu 0) .fwu 9))
      let posted := flushMsix (flushMsix (postWaiting (postWaiting held .a) .b) .a) .b
      (f.byCid = none → row .activationResume (progressAll (skim (feed posted))))
      ∧ (∀ c, f.byCid = some c → row .activationResume (progressAll (skim (feed (complete posted c (0, 0) posted.fwu.pausedTai))))))
    ∧ (∀ a q cid,
      let d : NvDesc := { op := 5, flags := 2, reserved := false, length := 0, addr := k, ptr := 0 }
      let p := modNvq s .mgmt fun x => { x with fetched := x.fetched ++ [d] }
      (a = 0 → activateOp s a q cid = progressAll { p with fwu := { p.fwu with prepared := false, phase := .activating, quiesce := q, byCid := cid } })
      ∧ (a ≠ 0 → activateOp s a q cid = raise { p with fwu := { p.fwu with prepared := false, phase := .scheduled, reqQuiesce := q, atTai := a } } .fwu 12))
    ∧ (f.phase ≠ .trial → confirmOp s = s)
    ∧ (f.phase = .trial → let t := dropOtherFormats (applyUnit s (.program (bootBase f.block + 57 * 4096) (crcWord (runImage s).svn 0xC0F1)))
      confirmOp s = raise { t with fwu := { t.fwu with phase := .idle, lastResult := 1 } } .fwu 10)
    ∧ (f.phase = .scheduled → cancelOp s = { s with fwu := { f with phase := .verified, atTai := 0 } })
    ∧ (f.phase ≠ .scheduled → cancelOp s = s)

/-- The bytes of the array after a unit operation, its canonical form and its frame (R442, R443). An erased byte is 0xFF. -/
def Obligations.UnitOperationBytes : Prop :=
  ∀ (s : State) (a : Nat) (bs : List Byte),
    let byte (t : State) (x : Nat) := Memory.get erased t.nv.cells x
    let base := a / 4096 * 4096
    let p := applyUnit s (.program a bs)
    let e := applyUnit s (.erase a)
    (∀ x, a ≤ x → x < a + bs.length → byte p x = bs.getD (x - a) 0xFF)
    ∧ (∀ x, x < a ∨ a + bs.length ≤ x → byte p x = byte s x)
    ∧ (∀ x, base ≤ x → x < base + 4096 → byte e x = 0xFF)
    ∧ (∀ x, x < base ∨ base + 4096 ≤ x → byte e x = byte s x)
    ∧ a / 4096 ∉ e.nv.flags ∧ (∀ k, k ≠ a / 4096 → (k ∈ e.nv.flags ↔ k ∈ s.nv.flags)) ∧ p.nv.flags = s.nv.flags
    ∧ (Memory.sorted erased s.nv.cells = true → Memory.sorted erased p.nv.cells = true ∧ Memory.sorted erased e.nv.cells = true)
    ∧ (∀ t, t = p ∨ t = e → t = { s with pages := t.pages, nv := t.nv, fwu := t.fwu }
      ∧ ∀ q, q ≠ .nva → page t q = page s q)

/-- One valid sample of loop `j` of transport `n`: its output phase and its update phase (R378 to R381, R388), with the worked
example (R392). -/
def Obligations.LoopArithmetic : Prop :=
  (∀ (s : State) (n j k ns : Nat) (ref meas d : Int) (cur : Bool),
    let i := loopIdx n j
    let (t, x) := calcOut s n j ref meas k d
    let c := coefs (loop t i).act
    let (u, faults) := calcEnd t n j x cur ns
    let l := loop t i
    let m := loop u i
    let was := takePending (loop s i)
    let lo := c.outMin * 32768
    let hi := c.outMax * 32768
    let q := (x.v + 16384) / 32768
    let sat := q < c.outMin ∨ c.outMax < q ∨ cur = true
    let state (z : Int) : Prop := -2147483648 ≤ z ∧ z ≤ 2147483647
    c.outMin ≤ c.outMax →
      x.e = clampI (-32768) 32767 (ref - meas) ∧ x.y = c.b0 * x.e * 2 ^ c.shiftC + was.s1 ∧ x.v = x.y + l.i + x.r
      ∧ l = { was with i := l.i, fresh := false } ∧ (was.fresh = false → l.i = was.i)
      ∧ (was.fresh = true → lo ≤ l.i ∧ l.i ≤ hi)
      ∧ (was.fresh = true → (let p := was.startVal * 32768 - x.y - x.r
          state p → lo ≤ p → p ≤ hi → q = was.startVal))
      ∧ m.lastOut = clampI c.outMin c.outMax q ∧ c.outMin ≤ m.lastOut ∧ m.lastOut ≤ c.outMax ∧ m.lastErr = x.e
      ∧ state m.s1 ∧ state m.s2 ∧ (if orderThree l.act then state m.s3 else m.s3 = l.s3)
      ∧ (lo ≤ l.i → l.i ≤ hi → lo ≤ m.i ∧ m.i ≤ hi)
      ∧ (sat → m.i = l.i ∧ m.bins = l.bins)
      ∧ (m.saturated = true ↔ sat)
      ∧ (if (c.feLimit : Int) < x.e.natAbs then m.feRun = l.feRun + 1 ∧ faults = (if m.feRun = c.feCount then [(j, 0, x.e)] else [])
          else m.feRun = 0 ∧ faults = []))
  ∧ (let l : LoopSt := { act := [(0x00, 0xA0004000), (0x04, 0x2800), (0x08, 0x0C00D800), (0x0C, 0x00080000), (0x10, 0x22), (0x14, 0x7FFF8001)], s1 := -2 ^ 23, s2 := 2 ^ 21, i := 2 ^ 26 }
    let (a, v, y) := outputPhase l 512 0
    let b := updatePhase a 512 y 0 false
    y = 0x01800000 ∧ roundQ15 v = 0x0B00 ∧ b.s1 = -0x01000000 ∧ b.s2 = 0x00B00000 ∧ b.i = 0x04001000)
end

