-- ==== Sys2Proof/Laws/Table.lean ====
section
/-! SUPPORT. Sparse tables: what is put is got, nothing else changes; the numbers of masters, ports and pages tell them apart. -/

namespace Sys2Proof.Machine

variable {α : Type}

/-- What is put under a key is got. -/
theorem tget_tput_same (t : Tbl α) (k : Nat) (v d : α) : tget (tput t k v) k d = v := by
  induction t with
  | nil => simp [tput, tget]
  | cons e r ih =>
    obtain ⟨j, w⟩ := e
    by_cases h : j = k <;> simp [tput, tget, h, ih]

/-- Every other key keeps its entry. -/
theorem tget_tput_ne (t : Tbl α) (k j : Nat) (v d : α) (h : j ≠ k) : tget (tput t k v) j d = tget t j d := by
  induction t with
  | nil => simp [tput, tget, Ne.symm h]
  | cons e r ih =>
    obtain ⟨i, w⟩ := e
    by_cases hi : i = k
    · subst hi; simp [tput, tget, Ne.symm h]
    · by_cases hj : i = j
      · subst hj; simp [tput, tget, hi]
      · simp [tput, tget, hi, hj, ih]

/-- A later entry of the same key replaces an earlier one. -/
theorem tput_tput (t : Tbl α) (k : Nat) (v w : α) : tput (tput t k v) k w = tput t k w := by
  induction t with
  | nil => simp [tput]
  | cons e r ih =>
    obtain ⟨j, x⟩ := e
    by_cases h : j = k <;> simp [tput, h, ih]

/-- Putting back what is listed changes nothing. -/
theorem tput_tget_self (t : Tbl α) (k : Nat) (d : α) (h : ∃ v, (k, v) ∈ t) : tput t k (tget t k d) = t := by
  induction t with
  | nil => simp at h
  | cons e r ih =>
    obtain ⟨j, x⟩ := e
    by_cases hj : j = k
    · simp [tput, tget, hj]
    · have : ∃ v, (k, v) ∈ r := by
        obtain ⟨v, hv⟩ := h
        refine ⟨v, ?_⟩
        simpa [Ne.symm hj] using hv
      simp [tput, tget, hj, ih this]

/-- Masters have different numbers. -/
theorem mIdx_inj {m m' : Master} (h : mIdx m = mIdx m') : m = m' := by
  cases m <;> cases m' <;> simp_all [mIdx]

/-- Ports have different numbers. -/
theorem pIdx_inj {p q : Port} (h : pIdx p = pIdx q) : p = q := by
  cases p <;> cases q <;> simp_all [pIdx]

/-- The page of a number. -/
def pageOfIdx (n : Nat) : PageId :=
  if n < 11 then [PageId.dev, .sem, .pwr, .tim, .mgt, .fwu, .nva, .log, .pool, .mem, .key].getD n .dev
  else if n = 11 then .hp .a
  else if n = 12 then .hp .b
  else if n = 13 then .loopG
  else if n < 80 then
    if n % 4 = 0 then .link (tFin ((n - 16) / 4))
    else if n % 4 = 1 then .fmt (tFin ((n - 16) / 4))
    else if n % 4 = 2 then .ciph (tFin ((n - 16) / 4))
    else .servo (tFin ((n - 16) / 4))
  else .cdc (tFin (n - 80))

theorem pageOfIdx_pageIdx (p : PageId) : pageOfIdx (pageIdx p) = p := by
  cases p with
  | hp p => cases p <;> rfl
  | link n => revert n; decide
  | fmt n => revert n; decide
  | ciph n => revert n; decide
  | servo n => revert n; decide
  | cdc n => revert n; decide
  | _ => rfl

/-- Pages have different numbers. -/
theorem pageIdx_inj {p q : PageId} (h : pageIdx p = pageIdx q) : p = q := by
  rw [← pageOfIdx_pageIdx p, h, pageOfIdx_pageIdx]

end Sys2Proof.Machine
end

