-- ==== Sys2Proof/Laws/State.lean ====
section
/-! SUPPORT. What each update of the state changes: one lemma per field per update, and what each reader gives after each update.
Every one is true by unfolding; later proofs cite these and unfold no update. -/

namespace Sys2Proof.Machine

variable (s : State)

/-! ### setPage -/

@[simp] theorem setPage_code (pg : PageId) (x : Page) : (setPage s pg x).code = s.code := rfl
@[simp] theorem setPage_tick (pg : PageId) (x : Page) : (setPage s pg x).tick = s.tick := rfl
@[simp] theorem setPage_free (pg : PageId) (x : Page) : (setPage s pg x).free = s.free := rfl
@[simp] theorem setPage_ready (pg : PageId) (x : Page) : (setPage s pg x).ready = s.ready := rfl
@[simp] theorem setPage_masters (pg : PageId) (x : Page) : (setPage s pg x).masters = s.masters := rfl
@[simp] theorem setPage_sems (pg : PageId) (x : Page) : (setPage s pg x).sems = s.sems := rfl
@[simp] theorem setPage_owners (pg : PageId) (x : Page) : (setPage s pg x).owners = s.owners := rfl
@[simp] theorem setPage_lastForced (pg : PageId) (x : Page) : (setPage s pg x).lastForced = s.lastForced := rfl
@[simp] theorem setPage_ports (pg : PageId) (x : Page) : (setPage s pg x).ports = s.ports := rfl
@[simp] theorem setPage_cmds (pg : PageId) (x : Page) : (setPage s pg x).cmds = s.cmds := rfl
@[simp] theorem setPage_nextCid (pg : PageId) (x : Page) : (setPage s pg x).nextCid = s.nextCid := rfl
@[simp] theorem setPage_vols (pg : PageId) (x : Page) : (setPage s pg x).vols = s.vols := rfl
@[simp] theorem setPage_slices (pg : PageId) (x : Page) : (setPage s pg x).slices = s.slices := rfl
@[simp] theorem setPage_links (pg : PageId) (x : Page) : (setPage s pg x).links = s.links := rfl
@[simp] theorem setPage_servos (pg : PageId) (x : Page) : (setPage s pg x).servos = s.servos := rfl
@[simp] theorem setPage_loops (pg : PageId) (x : Page) : (setPage s pg x).loops = s.loops := rfl
@[simp] theorem setPage_clusters (pg : PageId) (x : Page) : (setPage s pg x).clusters = s.clusters := rfl
@[simp] theorem setPage_sched (pg : PageId) (x : Page) : (setPage s pg x).sched = s.sched := rfl
@[simp] theorem setPage_pool (pg : PageId) (x : Page) : (setPage s pg x).pool = s.pool := rfl
@[simp] theorem setPage_mem (pg : PageId) (x : Page) : (setPage s pg x).mem = s.mem := rfl
@[simp] theorem setPage_keys (pg : PageId) (x : Page) : (setPage s pg x).keys = s.keys := rfl
@[simp] theorem setPage_alarms (pg : PageId) (x : Page) : (setPage s pg x).alarms = s.alarms := rfl
@[simp] theorem setPage_pwr (pg : PageId) (x : Page) : (setPage s pg x).pwr = s.pwr := rfl
@[simp] theorem setPage_sensors (pg : PageId) (x : Page) : (setPage s pg x).sensors = s.sensors := rfl
@[simp] theorem setPage_log (pg : PageId) (x : Page) : (setPage s pg x).log = s.log := rfl
@[simp] theorem setPage_fsp (pg : PageId) (x : Page) : (setPage s pg x).fsp = s.fsp := rfl
@[simp] theorem setPage_tim (pg : PageId) (x : Page) : (setPage s pg x).tim = s.tim := rfl
@[simp] theorem setPage_nv (pg : PageId) (x : Page) : (setPage s pg x).nv = s.nv := rfl
@[simp] theorem setPage_fwu (pg : PageId) (x : Page) : (setPage s pg x).fwu = s.fwu := rfl
@[simp] theorem setPage_out (pg : PageId) (x : Page) : (setPage s pg x).out = s.out := rfl
@[simp] theorem setPage_pending (pg : PageId) (x : Page) : (setPage s pg x).pending = s.pending := rfl

/-- What is set is read. -/
@[simp] theorem page_setPage (pg : PageId) (x : Page) : page (setPage s pg x) pg = x := tget_tput_same _ _ _ _
/-- Nothing else changes. -/
theorem page_setPage_ne (pg : PageId) (k' : PageId) (x : Page) (h : k' ≠ pg) : page (setPage s pg x) k' = page s k' :=
  tget_tput_ne _ _ _ _ _ fun e => h (pageIdx_inj e)
@[simp] theorem mst_setPage (pg : PageId) (x : Page) (m' : Master) : mst (setPage s pg x) m' = mst s m' := rfl
@[simp] theorem sem_setPage (pg : PageId) (x : Page) (k' : Nat) : sem (setPage s pg x) k' = sem s k' := rfl
@[simp] theorem owner_setPage (pg : PageId) (x : Page) (n' : Nat) : owner (setPage s pg x) n' = owner s n' := rfl
@[simp] theorem port_setPage (pg : PageId) (x : Page) (p' : Port) : port (setPage s pg x) p' = port s p' := rfl
@[simp] theorem cmd_setPage (pg : PageId) (x : Page) (i' : Nat) : cmd (setPage s pg x) i' = cmd s i' := rfl
@[simp] theorem vol_setPage (pg : PageId) (x : Page) (v' : Nat) : vol (setPage s pg x) v' = vol s v' := rfl
@[simp] theorem slice_setPage (pg : PageId) (x : Page) (n' : Nat) : slice (setPage s pg x) n' = slice s n' := rfl
@[simp] theorem link_setPage (pg : PageId) (x : Page) (n' : Nat) : link (setPage s pg x) n' = link s n' := rfl
@[simp] theorem servo_setPage (pg : PageId) (x : Page) (n' : Nat) : servo (setPage s pg x) n' = servo s n' := rfl
@[simp] theorem loop_setPage (pg : PageId) (x : Page) (i' : Nat) : loop (setPage s pg x) i' = loop s i' := rfl
@[simp] theorem cluster_setPage (pg : PageId) (x : Page) (m' : Nat) : cluster (setPage s pg x) m' = cluster s m' := rfl
@[simp] theorem keySlot_setPage (pg : PageId) (x : Page) (k' : Nat) : keySlot (setPage s pg x) k' = keySlot s k' := rfl
@[simp] theorem sensor_setPage (pg : PageId) (x : Page) (k' : Nat) : sensor (setPage s pg x) k' = sensor s k' := rfl

/-! ### setMst -/

@[simp] theorem setMst_code (m : Master) (x : MasterSt) : (setMst s m x).code = s.code := rfl
@[simp] theorem setMst_tick (m : Master) (x : MasterSt) : (setMst s m x).tick = s.tick := rfl
@[simp] theorem setMst_free (m : Master) (x : MasterSt) : (setMst s m x).free = s.free := rfl
@[simp] theorem setMst_ready (m : Master) (x : MasterSt) : (setMst s m x).ready = s.ready := rfl
@[simp] theorem setMst_pages (m : Master) (x : MasterSt) : (setMst s m x).pages = s.pages := rfl
@[simp] theorem setMst_sems (m : Master) (x : MasterSt) : (setMst s m x).sems = s.sems := rfl
@[simp] theorem setMst_owners (m : Master) (x : MasterSt) : (setMst s m x).owners = s.owners := rfl
@[simp] theorem setMst_lastForced (m : Master) (x : MasterSt) : (setMst s m x).lastForced = s.lastForced := rfl
@[simp] theorem setMst_ports (m : Master) (x : MasterSt) : (setMst s m x).ports = s.ports := rfl
@[simp] theorem setMst_cmds (m : Master) (x : MasterSt) : (setMst s m x).cmds = s.cmds := rfl
@[simp] theorem setMst_nextCid (m : Master) (x : MasterSt) : (setMst s m x).nextCid = s.nextCid := rfl
@[simp] theorem setMst_vols (m : Master) (x : MasterSt) : (setMst s m x).vols = s.vols := rfl
@[simp] theorem setMst_slices (m : Master) (x : MasterSt) : (setMst s m x).slices = s.slices := rfl
@[simp] theorem setMst_links (m : Master) (x : MasterSt) : (setMst s m x).links = s.links := rfl
@[simp] theorem setMst_servos (m : Master) (x : MasterSt) : (setMst s m x).servos = s.servos := rfl
@[simp] theorem setMst_loops (m : Master) (x : MasterSt) : (setMst s m x).loops = s.loops := rfl
@[simp] theorem setMst_clusters (m : Master) (x : MasterSt) : (setMst s m x).clusters = s.clusters := rfl
@[simp] theorem setMst_sched (m : Master) (x : MasterSt) : (setMst s m x).sched = s.sched := rfl
@[simp] theorem setMst_pool (m : Master) (x : MasterSt) : (setMst s m x).pool = s.pool := rfl
@[simp] theorem setMst_mem (m : Master) (x : MasterSt) : (setMst s m x).mem = s.mem := rfl
@[simp] theorem setMst_keys (m : Master) (x : MasterSt) : (setMst s m x).keys = s.keys := rfl
@[simp] theorem setMst_alarms (m : Master) (x : MasterSt) : (setMst s m x).alarms = s.alarms := rfl
@[simp] theorem setMst_pwr (m : Master) (x : MasterSt) : (setMst s m x).pwr = s.pwr := rfl
@[simp] theorem setMst_sensors (m : Master) (x : MasterSt) : (setMst s m x).sensors = s.sensors := rfl
@[simp] theorem setMst_log (m : Master) (x : MasterSt) : (setMst s m x).log = s.log := rfl
@[simp] theorem setMst_fsp (m : Master) (x : MasterSt) : (setMst s m x).fsp = s.fsp := rfl
@[simp] theorem setMst_tim (m : Master) (x : MasterSt) : (setMst s m x).tim = s.tim := rfl
@[simp] theorem setMst_nv (m : Master) (x : MasterSt) : (setMst s m x).nv = s.nv := rfl
@[simp] theorem setMst_fwu (m : Master) (x : MasterSt) : (setMst s m x).fwu = s.fwu := rfl
@[simp] theorem setMst_out (m : Master) (x : MasterSt) : (setMst s m x).out = s.out := rfl
@[simp] theorem setMst_pending (m : Master) (x : MasterSt) : (setMst s m x).pending = s.pending := rfl

/-- What is set is read. -/
@[simp] theorem mst_setMst (m : Master) (x : MasterSt) : mst (setMst s m x) m = x := tget_tput_same _ _ _ _
/-- Nothing else changes. -/
theorem mst_setMst_ne (m : Master) (k' : Master) (x : MasterSt) (h : k' ≠ m) : mst (setMst s m x) k' = mst s k' :=
  tget_tput_ne _ _ _ _ _ fun e => h (mIdx_inj e)
@[simp] theorem page_setMst (m : Master) (x : MasterSt) (pg' : PageId) : page (setMst s m x) pg' = page s pg' := rfl
@[simp] theorem sem_setMst (m : Master) (x : MasterSt) (k' : Nat) : sem (setMst s m x) k' = sem s k' := rfl
@[simp] theorem owner_setMst (m : Master) (x : MasterSt) (n' : Nat) : owner (setMst s m x) n' = owner s n' := rfl
@[simp] theorem port_setMst (m : Master) (x : MasterSt) (p' : Port) : port (setMst s m x) p' = port s p' := rfl
@[simp] theorem cmd_setMst (m : Master) (x : MasterSt) (i' : Nat) : cmd (setMst s m x) i' = cmd s i' := rfl
@[simp] theorem vol_setMst (m : Master) (x : MasterSt) (v' : Nat) : vol (setMst s m x) v' = vol s v' := rfl
@[simp] theorem slice_setMst (m : Master) (x : MasterSt) (n' : Nat) : slice (setMst s m x) n' = slice s n' := rfl
@[simp] theorem link_setMst (m : Master) (x : MasterSt) (n' : Nat) : link (setMst s m x) n' = link s n' := rfl
@[simp] theorem servo_setMst (m : Master) (x : MasterSt) (n' : Nat) : servo (setMst s m x) n' = servo s n' := rfl
@[simp] theorem loop_setMst (m : Master) (x : MasterSt) (i' : Nat) : loop (setMst s m x) i' = loop s i' := rfl
@[simp] theorem cluster_setMst (m : Master) (x : MasterSt) (m' : Nat) : cluster (setMst s m x) m' = cluster s m' := rfl
@[simp] theorem keySlot_setMst (m : Master) (x : MasterSt) (k' : Nat) : keySlot (setMst s m x) k' = keySlot s k' := rfl
@[simp] theorem sensor_setMst (m : Master) (x : MasterSt) (k' : Nat) : sensor (setMst s m x) k' = sensor s k' := rfl

/-! ### setSem -/

@[simp] theorem setSem_code (k : Nat) (x : Sem) : (setSem s k x).code = s.code := rfl
@[simp] theorem setSem_tick (k : Nat) (x : Sem) : (setSem s k x).tick = s.tick := rfl
@[simp] theorem setSem_free (k : Nat) (x : Sem) : (setSem s k x).free = s.free := rfl
@[simp] theorem setSem_ready (k : Nat) (x : Sem) : (setSem s k x).ready = s.ready := rfl
@[simp] theorem setSem_pages (k : Nat) (x : Sem) : (setSem s k x).pages = s.pages := rfl
@[simp] theorem setSem_masters (k : Nat) (x : Sem) : (setSem s k x).masters = s.masters := rfl
@[simp] theorem setSem_owners (k : Nat) (x : Sem) : (setSem s k x).owners = s.owners := rfl
@[simp] theorem setSem_lastForced (k : Nat) (x : Sem) : (setSem s k x).lastForced = s.lastForced := rfl
@[simp] theorem setSem_ports (k : Nat) (x : Sem) : (setSem s k x).ports = s.ports := rfl
@[simp] theorem setSem_cmds (k : Nat) (x : Sem) : (setSem s k x).cmds = s.cmds := rfl
@[simp] theorem setSem_nextCid (k : Nat) (x : Sem) : (setSem s k x).nextCid = s.nextCid := rfl
@[simp] theorem setSem_vols (k : Nat) (x : Sem) : (setSem s k x).vols = s.vols := rfl
@[simp] theorem setSem_slices (k : Nat) (x : Sem) : (setSem s k x).slices = s.slices := rfl
@[simp] theorem setSem_links (k : Nat) (x : Sem) : (setSem s k x).links = s.links := rfl
@[simp] theorem setSem_servos (k : Nat) (x : Sem) : (setSem s k x).servos = s.servos := rfl
@[simp] theorem setSem_loops (k : Nat) (x : Sem) : (setSem s k x).loops = s.loops := rfl
@[simp] theorem setSem_clusters (k : Nat) (x : Sem) : (setSem s k x).clusters = s.clusters := rfl
@[simp] theorem setSem_sched (k : Nat) (x : Sem) : (setSem s k x).sched = s.sched := rfl
@[simp] theorem setSem_pool (k : Nat) (x : Sem) : (setSem s k x).pool = s.pool := rfl
@[simp] theorem setSem_mem (k : Nat) (x : Sem) : (setSem s k x).mem = s.mem := rfl
@[simp] theorem setSem_keys (k : Nat) (x : Sem) : (setSem s k x).keys = s.keys := rfl
@[simp] theorem setSem_alarms (k : Nat) (x : Sem) : (setSem s k x).alarms = s.alarms := rfl
@[simp] theorem setSem_pwr (k : Nat) (x : Sem) : (setSem s k x).pwr = s.pwr := rfl
@[simp] theorem setSem_sensors (k : Nat) (x : Sem) : (setSem s k x).sensors = s.sensors := rfl
@[simp] theorem setSem_log (k : Nat) (x : Sem) : (setSem s k x).log = s.log := rfl
@[simp] theorem setSem_fsp (k : Nat) (x : Sem) : (setSem s k x).fsp = s.fsp := rfl
@[simp] theorem setSem_tim (k : Nat) (x : Sem) : (setSem s k x).tim = s.tim := rfl
@[simp] theorem setSem_nv (k : Nat) (x : Sem) : (setSem s k x).nv = s.nv := rfl
@[simp] theorem setSem_fwu (k : Nat) (x : Sem) : (setSem s k x).fwu = s.fwu := rfl
@[simp] theorem setSem_out (k : Nat) (x : Sem) : (setSem s k x).out = s.out := rfl
@[simp] theorem setSem_pending (k : Nat) (x : Sem) : (setSem s k x).pending = s.pending := rfl

/-- What is set is read. -/
@[simp] theorem sem_setSem (k : Nat) (x : Sem) : sem (setSem s k x) k = x := tget_tput_same _ _ _ _
/-- Nothing else changes. -/
theorem sem_setSem_ne (k : Nat) (k' : Nat) (x : Sem) (h : k' ≠ k) : sem (setSem s k x) k' = sem s k' :=
  tget_tput_ne _ _ _ _ _ h
@[simp] theorem page_setSem (k : Nat) (x : Sem) (pg' : PageId) : page (setSem s k x) pg' = page s pg' := rfl
@[simp] theorem mst_setSem (k : Nat) (x : Sem) (m' : Master) : mst (setSem s k x) m' = mst s m' := rfl
@[simp] theorem owner_setSem (k : Nat) (x : Sem) (n' : Nat) : owner (setSem s k x) n' = owner s n' := rfl
@[simp] theorem port_setSem (k : Nat) (x : Sem) (p' : Port) : port (setSem s k x) p' = port s p' := rfl
@[simp] theorem cmd_setSem (k : Nat) (x : Sem) (i' : Nat) : cmd (setSem s k x) i' = cmd s i' := rfl
@[simp] theorem vol_setSem (k : Nat) (x : Sem) (v' : Nat) : vol (setSem s k x) v' = vol s v' := rfl
@[simp] theorem slice_setSem (k : Nat) (x : Sem) (n' : Nat) : slice (setSem s k x) n' = slice s n' := rfl
@[simp] theorem link_setSem (k : Nat) (x : Sem) (n' : Nat) : link (setSem s k x) n' = link s n' := rfl
@[simp] theorem servo_setSem (k : Nat) (x : Sem) (n' : Nat) : servo (setSem s k x) n' = servo s n' := rfl
@[simp] theorem loop_setSem (k : Nat) (x : Sem) (i' : Nat) : loop (setSem s k x) i' = loop s i' := rfl
@[simp] theorem cluster_setSem (k : Nat) (x : Sem) (m' : Nat) : cluster (setSem s k x) m' = cluster s m' := rfl
@[simp] theorem keySlot_setSem (k : Nat) (x : Sem) (k' : Nat) : keySlot (setSem s k x) k' = keySlot s k' := rfl
@[simp] theorem sensor_setSem (k : Nat) (x : Sem) (k' : Nat) : sensor (setSem s k x) k' = sensor s k' := rfl

/-! ### setOwner -/

@[simp] theorem setOwner_code (n : Nat) (x : Nat) : (setOwner s n x).code = s.code := rfl
@[simp] theorem setOwner_tick (n : Nat) (x : Nat) : (setOwner s n x).tick = s.tick := rfl
@[simp] theorem setOwner_free (n : Nat) (x : Nat) : (setOwner s n x).free = s.free := rfl
@[simp] theorem setOwner_ready (n : Nat) (x : Nat) : (setOwner s n x).ready = s.ready := rfl
@[simp] theorem setOwner_pages (n : Nat) (x : Nat) : (setOwner s n x).pages = s.pages := rfl
@[simp] theorem setOwner_masters (n : Nat) (x : Nat) : (setOwner s n x).masters = s.masters := rfl
@[simp] theorem setOwner_sems (n : Nat) (x : Nat) : (setOwner s n x).sems = s.sems := rfl
@[simp] theorem setOwner_lastForced (n : Nat) (x : Nat) : (setOwner s n x).lastForced = s.lastForced := rfl
@[simp] theorem setOwner_ports (n : Nat) (x : Nat) : (setOwner s n x).ports = s.ports := rfl
@[simp] theorem setOwner_cmds (n : Nat) (x : Nat) : (setOwner s n x).cmds = s.cmds := rfl
@[simp] theorem setOwner_nextCid (n : Nat) (x : Nat) : (setOwner s n x).nextCid = s.nextCid := rfl
@[simp] theorem setOwner_vols (n : Nat) (x : Nat) : (setOwner s n x).vols = s.vols := rfl
@[simp] theorem setOwner_slices (n : Nat) (x : Nat) : (setOwner s n x).slices = s.slices := rfl
@[simp] theorem setOwner_links (n : Nat) (x : Nat) : (setOwner s n x).links = s.links := rfl
@[simp] theorem setOwner_servos (n : Nat) (x : Nat) : (setOwner s n x).servos = s.servos := rfl
@[simp] theorem setOwner_loops (n : Nat) (x : Nat) : (setOwner s n x).loops = s.loops := rfl
@[simp] theorem setOwner_clusters (n : Nat) (x : Nat) : (setOwner s n x).clusters = s.clusters := rfl
@[simp] theorem setOwner_sched (n : Nat) (x : Nat) : (setOwner s n x).sched = s.sched := rfl
@[simp] theorem setOwner_pool (n : Nat) (x : Nat) : (setOwner s n x).pool = s.pool := rfl
@[simp] theorem setOwner_mem (n : Nat) (x : Nat) : (setOwner s n x).mem = s.mem := rfl
@[simp] theorem setOwner_keys (n : Nat) (x : Nat) : (setOwner s n x).keys = s.keys := rfl
@[simp] theorem setOwner_alarms (n : Nat) (x : Nat) : (setOwner s n x).alarms = s.alarms := rfl
@[simp] theorem setOwner_pwr (n : Nat) (x : Nat) : (setOwner s n x).pwr = s.pwr := rfl
@[simp] theorem setOwner_sensors (n : Nat) (x : Nat) : (setOwner s n x).sensors = s.sensors := rfl
@[simp] theorem setOwner_log (n : Nat) (x : Nat) : (setOwner s n x).log = s.log := rfl
@[simp] theorem setOwner_fsp (n : Nat) (x : Nat) : (setOwner s n x).fsp = s.fsp := rfl
@[simp] theorem setOwner_tim (n : Nat) (x : Nat) : (setOwner s n x).tim = s.tim := rfl
@[simp] theorem setOwner_nv (n : Nat) (x : Nat) : (setOwner s n x).nv = s.nv := rfl
@[simp] theorem setOwner_fwu (n : Nat) (x : Nat) : (setOwner s n x).fwu = s.fwu := rfl
@[simp] theorem setOwner_out (n : Nat) (x : Nat) : (setOwner s n x).out = s.out := rfl
@[simp] theorem setOwner_pending (n : Nat) (x : Nat) : (setOwner s n x).pending = s.pending := rfl

/-- What is set is read. -/
@[simp] theorem owner_setOwner (n : Nat) (x : Nat) : owner (setOwner s n x) n = x := tget_tput_same _ _ _ _
/-- Nothing else changes. -/
theorem owner_setOwner_ne (n : Nat) (k' : Nat) (x : Nat) (h : k' ≠ n) : owner (setOwner s n x) k' = owner s k' :=
  tget_tput_ne _ _ _ _ _ h
@[simp] theorem page_setOwner (n : Nat) (x : Nat) (pg' : PageId) : page (setOwner s n x) pg' = page s pg' := rfl
@[simp] theorem mst_setOwner (n : Nat) (x : Nat) (m' : Master) : mst (setOwner s n x) m' = mst s m' := rfl
@[simp] theorem sem_setOwner (n : Nat) (x : Nat) (k' : Nat) : sem (setOwner s n x) k' = sem s k' := rfl
@[simp] theorem port_setOwner (n : Nat) (x : Nat) (p' : Port) : port (setOwner s n x) p' = port s p' := rfl
@[simp] theorem cmd_setOwner (n : Nat) (x : Nat) (i' : Nat) : cmd (setOwner s n x) i' = cmd s i' := rfl
@[simp] theorem vol_setOwner (n : Nat) (x : Nat) (v' : Nat) : vol (setOwner s n x) v' = vol s v' := rfl
@[simp] theorem slice_setOwner (n : Nat) (x : Nat) (n' : Nat) : slice (setOwner s n x) n' = slice s n' := rfl
@[simp] theorem link_setOwner (n : Nat) (x : Nat) (n' : Nat) : link (setOwner s n x) n' = link s n' := rfl
@[simp] theorem servo_setOwner (n : Nat) (x : Nat) (n' : Nat) : servo (setOwner s n x) n' = servo s n' := rfl
@[simp] theorem loop_setOwner (n : Nat) (x : Nat) (i' : Nat) : loop (setOwner s n x) i' = loop s i' := rfl
@[simp] theorem cluster_setOwner (n : Nat) (x : Nat) (m' : Nat) : cluster (setOwner s n x) m' = cluster s m' := rfl
@[simp] theorem keySlot_setOwner (n : Nat) (x : Nat) (k' : Nat) : keySlot (setOwner s n x) k' = keySlot s k' := rfl
@[simp] theorem sensor_setOwner (n : Nat) (x : Nat) (k' : Nat) : sensor (setOwner s n x) k' = sensor s k' := rfl

/-! ### setPort -/

@[simp] theorem setPort_code (p : Port) (x : PortSt) : (setPort s p x).code = s.code := rfl
@[simp] theorem setPort_tick (p : Port) (x : PortSt) : (setPort s p x).tick = s.tick := rfl
@[simp] theorem setPort_free (p : Port) (x : PortSt) : (setPort s p x).free = s.free := rfl
@[simp] theorem setPort_ready (p : Port) (x : PortSt) : (setPort s p x).ready = s.ready := rfl
@[simp] theorem setPort_pages (p : Port) (x : PortSt) : (setPort s p x).pages = s.pages := rfl
@[simp] theorem setPort_masters (p : Port) (x : PortSt) : (setPort s p x).masters = s.masters := rfl
@[simp] theorem setPort_sems (p : Port) (x : PortSt) : (setPort s p x).sems = s.sems := rfl
@[simp] theorem setPort_owners (p : Port) (x : PortSt) : (setPort s p x).owners = s.owners := rfl
@[simp] theorem setPort_lastForced (p : Port) (x : PortSt) : (setPort s p x).lastForced = s.lastForced := rfl
@[simp] theorem setPort_cmds (p : Port) (x : PortSt) : (setPort s p x).cmds = s.cmds := rfl
@[simp] theorem setPort_nextCid (p : Port) (x : PortSt) : (setPort s p x).nextCid = s.nextCid := rfl
@[simp] theorem setPort_vols (p : Port) (x : PortSt) : (setPort s p x).vols = s.vols := rfl
@[simp] theorem setPort_slices (p : Port) (x : PortSt) : (setPort s p x).slices = s.slices := rfl
@[simp] theorem setPort_links (p : Port) (x : PortSt) : (setPort s p x).links = s.links := rfl
@[simp] theorem setPort_servos (p : Port) (x : PortSt) : (setPort s p x).servos = s.servos := rfl
@[simp] theorem setPort_loops (p : Port) (x : PortSt) : (setPort s p x).loops = s.loops := rfl
@[simp] theorem setPort_clusters (p : Port) (x : PortSt) : (setPort s p x).clusters = s.clusters := rfl
@[simp] theorem setPort_sched (p : Port) (x : PortSt) : (setPort s p x).sched = s.sched := rfl
@[simp] theorem setPort_pool (p : Port) (x : PortSt) : (setPort s p x).pool = s.pool := rfl
@[simp] theorem setPort_mem (p : Port) (x : PortSt) : (setPort s p x).mem = s.mem := rfl
@[simp] theorem setPort_keys (p : Port) (x : PortSt) : (setPort s p x).keys = s.keys := rfl
@[simp] theorem setPort_alarms (p : Port) (x : PortSt) : (setPort s p x).alarms = s.alarms := rfl
@[simp] theorem setPort_pwr (p : Port) (x : PortSt) : (setPort s p x).pwr = s.pwr := rfl
@[simp] theorem setPort_sensors (p : Port) (x : PortSt) : (setPort s p x).sensors = s.sensors := rfl
@[simp] theorem setPort_log (p : Port) (x : PortSt) : (setPort s p x).log = s.log := rfl
@[simp] theorem setPort_fsp (p : Port) (x : PortSt) : (setPort s p x).fsp = s.fsp := rfl
@[simp] theorem setPort_tim (p : Port) (x : PortSt) : (setPort s p x).tim = s.tim := rfl
@[simp] theorem setPort_nv (p : Port) (x : PortSt) : (setPort s p x).nv = s.nv := rfl
@[simp] theorem setPort_fwu (p : Port) (x : PortSt) : (setPort s p x).fwu = s.fwu := rfl
@[simp] theorem setPort_out (p : Port) (x : PortSt) : (setPort s p x).out = s.out := rfl
@[simp] theorem setPort_pending (p : Port) (x : PortSt) : (setPort s p x).pending = s.pending := rfl

/-- What is set is read. -/
@[simp] theorem port_setPort (p : Port) (x : PortSt) : port (setPort s p x) p = x := tget_tput_same _ _ _ _
/-- Nothing else changes. -/
theorem port_setPort_ne (p : Port) (k' : Port) (x : PortSt) (h : k' ≠ p) : port (setPort s p x) k' = port s k' :=
  tget_tput_ne _ _ _ _ _ fun e => h (pIdx_inj e)
@[simp] theorem page_setPort (p : Port) (x : PortSt) (pg' : PageId) : page (setPort s p x) pg' = page s pg' := rfl
@[simp] theorem mst_setPort (p : Port) (x : PortSt) (m' : Master) : mst (setPort s p x) m' = mst s m' := rfl
@[simp] theorem sem_setPort (p : Port) (x : PortSt) (k' : Nat) : sem (setPort s p x) k' = sem s k' := rfl
@[simp] theorem owner_setPort (p : Port) (x : PortSt) (n' : Nat) : owner (setPort s p x) n' = owner s n' := rfl
@[simp] theorem cmd_setPort (p : Port) (x : PortSt) (i' : Nat) : cmd (setPort s p x) i' = cmd s i' := rfl
@[simp] theorem vol_setPort (p : Port) (x : PortSt) (v' : Nat) : vol (setPort s p x) v' = vol s v' := rfl
@[simp] theorem slice_setPort (p : Port) (x : PortSt) (n' : Nat) : slice (setPort s p x) n' = slice s n' := rfl
@[simp] theorem link_setPort (p : Port) (x : PortSt) (n' : Nat) : link (setPort s p x) n' = link s n' := rfl
@[simp] theorem servo_setPort (p : Port) (x : PortSt) (n' : Nat) : servo (setPort s p x) n' = servo s n' := rfl
@[simp] theorem loop_setPort (p : Port) (x : PortSt) (i' : Nat) : loop (setPort s p x) i' = loop s i' := rfl
@[simp] theorem cluster_setPort (p : Port) (x : PortSt) (m' : Nat) : cluster (setPort s p x) m' = cluster s m' := rfl
@[simp] theorem keySlot_setPort (p : Port) (x : PortSt) (k' : Nat) : keySlot (setPort s p x) k' = keySlot s k' := rfl
@[simp] theorem sensor_setPort (p : Port) (x : PortSt) (k' : Nat) : sensor (setPort s p x) k' = sensor s k' := rfl

/-! ### setCmd -/

@[simp] theorem setCmd_code (i : Nat) (x : Cmd) : (setCmd s i x).code = s.code := rfl
@[simp] theorem setCmd_tick (i : Nat) (x : Cmd) : (setCmd s i x).tick = s.tick := rfl
@[simp] theorem setCmd_free (i : Nat) (x : Cmd) : (setCmd s i x).free = s.free := rfl
@[simp] theorem setCmd_ready (i : Nat) (x : Cmd) : (setCmd s i x).ready = s.ready := rfl
@[simp] theorem setCmd_pages (i : Nat) (x : Cmd) : (setCmd s i x).pages = s.pages := rfl
@[simp] theorem setCmd_masters (i : Nat) (x : Cmd) : (setCmd s i x).masters = s.masters := rfl
@[simp] theorem setCmd_sems (i : Nat) (x : Cmd) : (setCmd s i x).sems = s.sems := rfl
@[simp] theorem setCmd_owners (i : Nat) (x : Cmd) : (setCmd s i x).owners = s.owners := rfl
@[simp] theorem setCmd_lastForced (i : Nat) (x : Cmd) : (setCmd s i x).lastForced = s.lastForced := rfl
@[simp] theorem setCmd_ports (i : Nat) (x : Cmd) : (setCmd s i x).ports = s.ports := rfl
@[simp] theorem setCmd_nextCid (i : Nat) (x : Cmd) : (setCmd s i x).nextCid = s.nextCid := rfl
@[simp] theorem setCmd_vols (i : Nat) (x : Cmd) : (setCmd s i x).vols = s.vols := rfl
@[simp] theorem setCmd_slices (i : Nat) (x : Cmd) : (setCmd s i x).slices = s.slices := rfl
@[simp] theorem setCmd_links (i : Nat) (x : Cmd) : (setCmd s i x).links = s.links := rfl
@[simp] theorem setCmd_servos (i : Nat) (x : Cmd) : (setCmd s i x).servos = s.servos := rfl
@[simp] theorem setCmd_loops (i : Nat) (x : Cmd) : (setCmd s i x).loops = s.loops := rfl
@[simp] theorem setCmd_clusters (i : Nat) (x : Cmd) : (setCmd s i x).clusters = s.clusters := rfl
@[simp] theorem setCmd_sched (i : Nat) (x : Cmd) : (setCmd s i x).sched = s.sched := rfl
@[simp] theorem setCmd_pool (i : Nat) (x : Cmd) : (setCmd s i x).pool = s.pool := rfl
@[simp] theorem setCmd_mem (i : Nat) (x : Cmd) : (setCmd s i x).mem = s.mem := rfl
@[simp] theorem setCmd_keys (i : Nat) (x : Cmd) : (setCmd s i x).keys = s.keys := rfl
@[simp] theorem setCmd_alarms (i : Nat) (x : Cmd) : (setCmd s i x).alarms = s.alarms := rfl
@[simp] theorem setCmd_pwr (i : Nat) (x : Cmd) : (setCmd s i x).pwr = s.pwr := rfl
@[simp] theorem setCmd_sensors (i : Nat) (x : Cmd) : (setCmd s i x).sensors = s.sensors := rfl
@[simp] theorem setCmd_log (i : Nat) (x : Cmd) : (setCmd s i x).log = s.log := rfl
@[simp] theorem setCmd_fsp (i : Nat) (x : Cmd) : (setCmd s i x).fsp = s.fsp := rfl
@[simp] theorem setCmd_tim (i : Nat) (x : Cmd) : (setCmd s i x).tim = s.tim := rfl
@[simp] theorem setCmd_nv (i : Nat) (x : Cmd) : (setCmd s i x).nv = s.nv := rfl
@[simp] theorem setCmd_fwu (i : Nat) (x : Cmd) : (setCmd s i x).fwu = s.fwu := rfl
@[simp] theorem setCmd_out (i : Nat) (x : Cmd) : (setCmd s i x).out = s.out := rfl
@[simp] theorem setCmd_pending (i : Nat) (x : Cmd) : (setCmd s i x).pending = s.pending := rfl

/-- What is set is read. -/
@[simp] theorem cmd_setCmd (i : Nat) (x : Cmd) : cmd (setCmd s i x) i = x := tget_tput_same _ _ _ _
/-- Nothing else changes. -/
theorem cmd_setCmd_ne (i : Nat) (k' : Nat) (x : Cmd) (h : k' ≠ i) : cmd (setCmd s i x) k' = cmd s k' :=
  tget_tput_ne _ _ _ _ _ h
@[simp] theorem page_setCmd (i : Nat) (x : Cmd) (pg' : PageId) : page (setCmd s i x) pg' = page s pg' := rfl
@[simp] theorem mst_setCmd (i : Nat) (x : Cmd) (m' : Master) : mst (setCmd s i x) m' = mst s m' := rfl
@[simp] theorem sem_setCmd (i : Nat) (x : Cmd) (k' : Nat) : sem (setCmd s i x) k' = sem s k' := rfl
@[simp] theorem owner_setCmd (i : Nat) (x : Cmd) (n' : Nat) : owner (setCmd s i x) n' = owner s n' := rfl
@[simp] theorem port_setCmd (i : Nat) (x : Cmd) (p' : Port) : port (setCmd s i x) p' = port s p' := rfl
@[simp] theorem vol_setCmd (i : Nat) (x : Cmd) (v' : Nat) : vol (setCmd s i x) v' = vol s v' := rfl
@[simp] theorem slice_setCmd (i : Nat) (x : Cmd) (n' : Nat) : slice (setCmd s i x) n' = slice s n' := rfl
@[simp] theorem link_setCmd (i : Nat) (x : Cmd) (n' : Nat) : link (setCmd s i x) n' = link s n' := rfl
@[simp] theorem servo_setCmd (i : Nat) (x : Cmd) (n' : Nat) : servo (setCmd s i x) n' = servo s n' := rfl
@[simp] theorem loop_setCmd (i : Nat) (x : Cmd) (i' : Nat) : loop (setCmd s i x) i' = loop s i' := rfl
@[simp] theorem cluster_setCmd (i : Nat) (x : Cmd) (m' : Nat) : cluster (setCmd s i x) m' = cluster s m' := rfl
@[simp] theorem keySlot_setCmd (i : Nat) (x : Cmd) (k' : Nat) : keySlot (setCmd s i x) k' = keySlot s k' := rfl
@[simp] theorem sensor_setCmd (i : Nat) (x : Cmd) (k' : Nat) : sensor (setCmd s i x) k' = sensor s k' := rfl

/-! ### setVol -/

@[simp] theorem setVol_code (v : Nat) (x : Vol) : (setVol s v x).code = s.code := rfl
@[simp] theorem setVol_tick (v : Nat) (x : Vol) : (setVol s v x).tick = s.tick := rfl
@[simp] theorem setVol_free (v : Nat) (x : Vol) : (setVol s v x).free = s.free := rfl
@[simp] theorem setVol_ready (v : Nat) (x : Vol) : (setVol s v x).ready = s.ready := rfl
@[simp] theorem setVol_pages (v : Nat) (x : Vol) : (setVol s v x).pages = s.pages := rfl
@[simp] theorem setVol_masters (v : Nat) (x : Vol) : (setVol s v x).masters = s.masters := rfl
@[simp] theorem setVol_sems (v : Nat) (x : Vol) : (setVol s v x).sems = s.sems := rfl
@[simp] theorem setVol_owners (v : Nat) (x : Vol) : (setVol s v x).owners = s.owners := rfl
@[simp] theorem setVol_lastForced (v : Nat) (x : Vol) : (setVol s v x).lastForced = s.lastForced := rfl
@[simp] theorem setVol_ports (v : Nat) (x : Vol) : (setVol s v x).ports = s.ports := rfl
@[simp] theorem setVol_cmds (v : Nat) (x : Vol) : (setVol s v x).cmds = s.cmds := rfl
@[simp] theorem setVol_nextCid (v : Nat) (x : Vol) : (setVol s v x).nextCid = s.nextCid := rfl
@[simp] theorem setVol_slices (v : Nat) (x : Vol) : (setVol s v x).slices = s.slices := rfl
@[simp] theorem setVol_links (v : Nat) (x : Vol) : (setVol s v x).links = s.links := rfl
@[simp] theorem setVol_servos (v : Nat) (x : Vol) : (setVol s v x).servos = s.servos := rfl
@[simp] theorem setVol_loops (v : Nat) (x : Vol) : (setVol s v x).loops = s.loops := rfl
@[simp] theorem setVol_clusters (v : Nat) (x : Vol) : (setVol s v x).clusters = s.clusters := rfl
@[simp] theorem setVol_sched (v : Nat) (x : Vol) : (setVol s v x).sched = s.sched := rfl
@[simp] theorem setVol_pool (v : Nat) (x : Vol) : (setVol s v x).pool = s.pool := rfl
@[simp] theorem setVol_mem (v : Nat) (x : Vol) : (setVol s v x).mem = s.mem := rfl
@[simp] theorem setVol_keys (v : Nat) (x : Vol) : (setVol s v x).keys = s.keys := rfl
@[simp] theorem setVol_alarms (v : Nat) (x : Vol) : (setVol s v x).alarms = s.alarms := rfl
@[simp] theorem setVol_pwr (v : Nat) (x : Vol) : (setVol s v x).pwr = s.pwr := rfl
@[simp] theorem setVol_sensors (v : Nat) (x : Vol) : (setVol s v x).sensors = s.sensors := rfl
@[simp] theorem setVol_log (v : Nat) (x : Vol) : (setVol s v x).log = s.log := rfl
@[simp] theorem setVol_fsp (v : Nat) (x : Vol) : (setVol s v x).fsp = s.fsp := rfl
@[simp] theorem setVol_tim (v : Nat) (x : Vol) : (setVol s v x).tim = s.tim := rfl
@[simp] theorem setVol_nv (v : Nat) (x : Vol) : (setVol s v x).nv = s.nv := rfl
@[simp] theorem setVol_fwu (v : Nat) (x : Vol) : (setVol s v x).fwu = s.fwu := rfl
@[simp] theorem setVol_out (v : Nat) (x : Vol) : (setVol s v x).out = s.out := rfl
@[simp] theorem setVol_pending (v : Nat) (x : Vol) : (setVol s v x).pending = s.pending := rfl

/-- What is set is read. -/
@[simp] theorem vol_setVol (v : Nat) (x : Vol) : vol (setVol s v x) v = x := tget_tput_same _ _ _ _
/-- Nothing else changes. -/
theorem vol_setVol_ne (v : Nat) (k' : Nat) (x : Vol) (h : k' ≠ v) : vol (setVol s v x) k' = vol s k' :=
  tget_tput_ne _ _ _ _ _ h
@[simp] theorem page_setVol (v : Nat) (x : Vol) (pg' : PageId) : page (setVol s v x) pg' = page s pg' := rfl
@[simp] theorem mst_setVol (v : Nat) (x : Vol) (m' : Master) : mst (setVol s v x) m' = mst s m' := rfl
@[simp] theorem sem_setVol (v : Nat) (x : Vol) (k' : Nat) : sem (setVol s v x) k' = sem s k' := rfl
@[simp] theorem owner_setVol (v : Nat) (x : Vol) (n' : Nat) : owner (setVol s v x) n' = owner s n' := rfl
@[simp] theorem port_setVol (v : Nat) (x : Vol) (p' : Port) : port (setVol s v x) p' = port s p' := rfl
@[simp] theorem cmd_setVol (v : Nat) (x : Vol) (i' : Nat) : cmd (setVol s v x) i' = cmd s i' := rfl
@[simp] theorem slice_setVol (v : Nat) (x : Vol) (n' : Nat) : slice (setVol s v x) n' = slice s n' := rfl
@[simp] theorem link_setVol (v : Nat) (x : Vol) (n' : Nat) : link (setVol s v x) n' = link s n' := rfl
@[simp] theorem servo_setVol (v : Nat) (x : Vol) (n' : Nat) : servo (setVol s v x) n' = servo s n' := rfl
@[simp] theorem loop_setVol (v : Nat) (x : Vol) (i' : Nat) : loop (setVol s v x) i' = loop s i' := rfl
@[simp] theorem cluster_setVol (v : Nat) (x : Vol) (m' : Nat) : cluster (setVol s v x) m' = cluster s m' := rfl
@[simp] theorem keySlot_setVol (v : Nat) (x : Vol) (k' : Nat) : keySlot (setVol s v x) k' = keySlot s k' := rfl
@[simp] theorem sensor_setVol (v : Nat) (x : Vol) (k' : Nat) : sensor (setVol s v x) k' = sensor s k' := rfl

/-! ### setSlice -/

@[simp] theorem setSlice_code (n : Nat) (x : SliceSt) : (setSlice s n x).code = s.code := rfl
@[simp] theorem setSlice_tick (n : Nat) (x : SliceSt) : (setSlice s n x).tick = s.tick := rfl
@[simp] theorem setSlice_free (n : Nat) (x : SliceSt) : (setSlice s n x).free = s.free := rfl
@[simp] theorem setSlice_ready (n : Nat) (x : SliceSt) : (setSlice s n x).ready = s.ready := rfl
@[simp] theorem setSlice_pages (n : Nat) (x : SliceSt) : (setSlice s n x).pages = s.pages := rfl
@[simp] theorem setSlice_masters (n : Nat) (x : SliceSt) : (setSlice s n x).masters = s.masters := rfl
@[simp] theorem setSlice_sems (n : Nat) (x : SliceSt) : (setSlice s n x).sems = s.sems := rfl
@[simp] theorem setSlice_owners (n : Nat) (x : SliceSt) : (setSlice s n x).owners = s.owners := rfl
@[simp] theorem setSlice_lastForced (n : Nat) (x : SliceSt) : (setSlice s n x).lastForced = s.lastForced := rfl
@[simp] theorem setSlice_ports (n : Nat) (x : SliceSt) : (setSlice s n x).ports = s.ports := rfl
@[simp] theorem setSlice_cmds (n : Nat) (x : SliceSt) : (setSlice s n x).cmds = s.cmds := rfl
@[simp] theorem setSlice_nextCid (n : Nat) (x : SliceSt) : (setSlice s n x).nextCid = s.nextCid := rfl
@[simp] theorem setSlice_vols (n : Nat) (x : SliceSt) : (setSlice s n x).vols = s.vols := rfl
@[simp] theorem setSlice_links (n : Nat) (x : SliceSt) : (setSlice s n x).links = s.links := rfl
@[simp] theorem setSlice_servos (n : Nat) (x : SliceSt) : (setSlice s n x).servos = s.servos := rfl
@[simp] theorem setSlice_loops (n : Nat) (x : SliceSt) : (setSlice s n x).loops = s.loops := rfl
@[simp] theorem setSlice_clusters (n : Nat) (x : SliceSt) : (setSlice s n x).clusters = s.clusters := rfl
@[simp] theorem setSlice_sched (n : Nat) (x : SliceSt) : (setSlice s n x).sched = s.sched := rfl
@[simp] theorem setSlice_pool (n : Nat) (x : SliceSt) : (setSlice s n x).pool = s.pool := rfl
@[simp] theorem setSlice_mem (n : Nat) (x : SliceSt) : (setSlice s n x).mem = s.mem := rfl
@[simp] theorem setSlice_keys (n : Nat) (x : SliceSt) : (setSlice s n x).keys = s.keys := rfl
@[simp] theorem setSlice_alarms (n : Nat) (x : SliceSt) : (setSlice s n x).alarms = s.alarms := rfl
@[simp] theorem setSlice_pwr (n : Nat) (x : SliceSt) : (setSlice s n x).pwr = s.pwr := rfl
@[simp] theorem setSlice_sensors (n : Nat) (x : SliceSt) : (setSlice s n x).sensors = s.sensors := rfl
@[simp] theorem setSlice_log (n : Nat) (x : SliceSt) : (setSlice s n x).log = s.log := rfl
@[simp] theorem setSlice_fsp (n : Nat) (x : SliceSt) : (setSlice s n x).fsp = s.fsp := rfl
@[simp] theorem setSlice_tim (n : Nat) (x : SliceSt) : (setSlice s n x).tim = s.tim := rfl
@[simp] theorem setSlice_nv (n : Nat) (x : SliceSt) : (setSlice s n x).nv = s.nv := rfl
@[simp] theorem setSlice_fwu (n : Nat) (x : SliceSt) : (setSlice s n x).fwu = s.fwu := rfl
@[simp] theorem setSlice_out (n : Nat) (x : SliceSt) : (setSlice s n x).out = s.out := rfl
@[simp] theorem setSlice_pending (n : Nat) (x : SliceSt) : (setSlice s n x).pending = s.pending := rfl

/-- What is set is read. -/
@[simp] theorem slice_setSlice (n : Nat) (x : SliceSt) : slice (setSlice s n x) n = x := tget_tput_same _ _ _ _
/-- Nothing else changes. -/
theorem slice_setSlice_ne (n : Nat) (k' : Nat) (x : SliceSt) (h : k' ≠ n) : slice (setSlice s n x) k' = slice s k' :=
  tget_tput_ne _ _ _ _ _ h
@[simp] theorem page_setSlice (n : Nat) (x : SliceSt) (pg' : PageId) : page (setSlice s n x) pg' = page s pg' := rfl
@[simp] theorem mst_setSlice (n : Nat) (x : SliceSt) (m' : Master) : mst (setSlice s n x) m' = mst s m' := rfl
@[simp] theorem sem_setSlice (n : Nat) (x : SliceSt) (k' : Nat) : sem (setSlice s n x) k' = sem s k' := rfl
@[simp] theorem owner_setSlice (n : Nat) (x : SliceSt) (n' : Nat) : owner (setSlice s n x) n' = owner s n' := rfl
@[simp] theorem port_setSlice (n : Nat) (x : SliceSt) (p' : Port) : port (setSlice s n x) p' = port s p' := rfl
@[simp] theorem cmd_setSlice (n : Nat) (x : SliceSt) (i' : Nat) : cmd (setSlice s n x) i' = cmd s i' := rfl
@[simp] theorem vol_setSlice (n : Nat) (x : SliceSt) (v' : Nat) : vol (setSlice s n x) v' = vol s v' := rfl
@[simp] theorem link_setSlice (n : Nat) (x : SliceSt) (n' : Nat) : link (setSlice s n x) n' = link s n' := rfl
@[simp] theorem servo_setSlice (n : Nat) (x : SliceSt) (n' : Nat) : servo (setSlice s n x) n' = servo s n' := rfl
@[simp] theorem loop_setSlice (n : Nat) (x : SliceSt) (i' : Nat) : loop (setSlice s n x) i' = loop s i' := rfl
@[simp] theorem cluster_setSlice (n : Nat) (x : SliceSt) (m' : Nat) : cluster (setSlice s n x) m' = cluster s m' := rfl
@[simp] theorem keySlot_setSlice (n : Nat) (x : SliceSt) (k' : Nat) : keySlot (setSlice s n x) k' = keySlot s k' := rfl
@[simp] theorem sensor_setSlice (n : Nat) (x : SliceSt) (k' : Nat) : sensor (setSlice s n x) k' = sensor s k' := rfl

/-! ### setLink -/

@[simp] theorem setLink_code (n : Nat) (x : LinkSt) : (setLink s n x).code = s.code := rfl
@[simp] theorem setLink_tick (n : Nat) (x : LinkSt) : (setLink s n x).tick = s.tick := rfl
@[simp] theorem setLink_free (n : Nat) (x : LinkSt) : (setLink s n x).free = s.free := rfl
@[simp] theorem setLink_ready (n : Nat) (x : LinkSt) : (setLink s n x).ready = s.ready := rfl
@[simp] theorem setLink_pages (n : Nat) (x : LinkSt) : (setLink s n x).pages = s.pages := rfl
@[simp] theorem setLink_masters (n : Nat) (x : LinkSt) : (setLink s n x).masters = s.masters := rfl
@[simp] theorem setLink_sems (n : Nat) (x : LinkSt) : (setLink s n x).sems = s.sems := rfl
@[simp] theorem setLink_owners (n : Nat) (x : LinkSt) : (setLink s n x).owners = s.owners := rfl
@[simp] theorem setLink_lastForced (n : Nat) (x : LinkSt) : (setLink s n x).lastForced = s.lastForced := rfl
@[simp] theorem setLink_ports (n : Nat) (x : LinkSt) : (setLink s n x).ports = s.ports := rfl
@[simp] theorem setLink_cmds (n : Nat) (x : LinkSt) : (setLink s n x).cmds = s.cmds := rfl
@[simp] theorem setLink_nextCid (n : Nat) (x : LinkSt) : (setLink s n x).nextCid = s.nextCid := rfl
@[simp] theorem setLink_vols (n : Nat) (x : LinkSt) : (setLink s n x).vols = s.vols := rfl
@[simp] theorem setLink_slices (n : Nat) (x : LinkSt) : (setLink s n x).slices = s.slices := rfl
@[simp] theorem setLink_servos (n : Nat) (x : LinkSt) : (setLink s n x).servos = s.servos := rfl
@[simp] theorem setLink_loops (n : Nat) (x : LinkSt) : (setLink s n x).loops = s.loops := rfl
@[simp] theorem setLink_clusters (n : Nat) (x : LinkSt) : (setLink s n x).clusters = s.clusters := rfl
@[simp] theorem setLink_sched (n : Nat) (x : LinkSt) : (setLink s n x).sched = s.sched := rfl
@[simp] theorem setLink_pool (n : Nat) (x : LinkSt) : (setLink s n x).pool = s.pool := rfl
@[simp] theorem setLink_mem (n : Nat) (x : LinkSt) : (setLink s n x).mem = s.mem := rfl
@[simp] theorem setLink_keys (n : Nat) (x : LinkSt) : (setLink s n x).keys = s.keys := rfl
@[simp] theorem setLink_alarms (n : Nat) (x : LinkSt) : (setLink s n x).alarms = s.alarms := rfl
@[simp] theorem setLink_pwr (n : Nat) (x : LinkSt) : (setLink s n x).pwr = s.pwr := rfl
@[simp] theorem setLink_sensors (n : Nat) (x : LinkSt) : (setLink s n x).sensors = s.sensors := rfl
@[simp] theorem setLink_log (n : Nat) (x : LinkSt) : (setLink s n x).log = s.log := rfl
@[simp] theorem setLink_fsp (n : Nat) (x : LinkSt) : (setLink s n x).fsp = s.fsp := rfl
@[simp] theorem setLink_tim (n : Nat) (x : LinkSt) : (setLink s n x).tim = s.tim := rfl
@[simp] theorem setLink_nv (n : Nat) (x : LinkSt) : (setLink s n x).nv = s.nv := rfl
@[simp] theorem setLink_fwu (n : Nat) (x : LinkSt) : (setLink s n x).fwu = s.fwu := rfl
@[simp] theorem setLink_out (n : Nat) (x : LinkSt) : (setLink s n x).out = s.out := rfl
@[simp] theorem setLink_pending (n : Nat) (x : LinkSt) : (setLink s n x).pending = s.pending := rfl

/-- What is set is read. -/
@[simp] theorem link_setLink (n : Nat) (x : LinkSt) : link (setLink s n x) n = x := tget_tput_same _ _ _ _
/-- Nothing else changes. -/
theorem link_setLink_ne (n : Nat) (k' : Nat) (x : LinkSt) (h : k' ≠ n) : link (setLink s n x) k' = link s k' :=
  tget_tput_ne _ _ _ _ _ h
@[simp] theorem page_setLink (n : Nat) (x : LinkSt) (pg' : PageId) : page (setLink s n x) pg' = page s pg' := rfl
@[simp] theorem mst_setLink (n : Nat) (x : LinkSt) (m' : Master) : mst (setLink s n x) m' = mst s m' := rfl
@[simp] theorem sem_setLink (n : Nat) (x : LinkSt) (k' : Nat) : sem (setLink s n x) k' = sem s k' := rfl
@[simp] theorem owner_setLink (n : Nat) (x : LinkSt) (n' : Nat) : owner (setLink s n x) n' = owner s n' := rfl
@[simp] theorem port_setLink (n : Nat) (x : LinkSt) (p' : Port) : port (setLink s n x) p' = port s p' := rfl
@[simp] theorem cmd_setLink (n : Nat) (x : LinkSt) (i' : Nat) : cmd (setLink s n x) i' = cmd s i' := rfl
@[simp] theorem vol_setLink (n : Nat) (x : LinkSt) (v' : Nat) : vol (setLink s n x) v' = vol s v' := rfl
@[simp] theorem slice_setLink (n : Nat) (x : LinkSt) (n' : Nat) : slice (setLink s n x) n' = slice s n' := rfl
@[simp] theorem servo_setLink (n : Nat) (x : LinkSt) (n' : Nat) : servo (setLink s n x) n' = servo s n' := rfl
@[simp] theorem loop_setLink (n : Nat) (x : LinkSt) (i' : Nat) : loop (setLink s n x) i' = loop s i' := rfl
@[simp] theorem cluster_setLink (n : Nat) (x : LinkSt) (m' : Nat) : cluster (setLink s n x) m' = cluster s m' := rfl
@[simp] theorem keySlot_setLink (n : Nat) (x : LinkSt) (k' : Nat) : keySlot (setLink s n x) k' = keySlot s k' := rfl
@[simp] theorem sensor_setLink (n : Nat) (x : LinkSt) (k' : Nat) : sensor (setLink s n x) k' = sensor s k' := rfl

/-! ### setServo -/

@[simp] theorem setServo_code (n : Nat) (x : ServoSt) : (setServo s n x).code = s.code := rfl
@[simp] theorem setServo_tick (n : Nat) (x : ServoSt) : (setServo s n x).tick = s.tick := rfl
@[simp] theorem setServo_free (n : Nat) (x : ServoSt) : (setServo s n x).free = s.free := rfl
@[simp] theorem setServo_ready (n : Nat) (x : ServoSt) : (setServo s n x).ready = s.ready := rfl
@[simp] theorem setServo_pages (n : Nat) (x : ServoSt) : (setServo s n x).pages = s.pages := rfl
@[simp] theorem setServo_masters (n : Nat) (x : ServoSt) : (setServo s n x).masters = s.masters := rfl
@[simp] theorem setServo_sems (n : Nat) (x : ServoSt) : (setServo s n x).sems = s.sems := rfl
@[simp] theorem setServo_owners (n : Nat) (x : ServoSt) : (setServo s n x).owners = s.owners := rfl
@[simp] theorem setServo_lastForced (n : Nat) (x : ServoSt) : (setServo s n x).lastForced = s.lastForced := rfl
@[simp] theorem setServo_ports (n : Nat) (x : ServoSt) : (setServo s n x).ports = s.ports := rfl
@[simp] theorem setServo_cmds (n : Nat) (x : ServoSt) : (setServo s n x).cmds = s.cmds := rfl
@[simp] theorem setServo_nextCid (n : Nat) (x : ServoSt) : (setServo s n x).nextCid = s.nextCid := rfl
@[simp] theorem setServo_vols (n : Nat) (x : ServoSt) : (setServo s n x).vols = s.vols := rfl
@[simp] theorem setServo_slices (n : Nat) (x : ServoSt) : (setServo s n x).slices = s.slices := rfl
@[simp] theorem setServo_links (n : Nat) (x : ServoSt) : (setServo s n x).links = s.links := rfl
@[simp] theorem setServo_loops (n : Nat) (x : ServoSt) : (setServo s n x).loops = s.loops := rfl
@[simp] theorem setServo_clusters (n : Nat) (x : ServoSt) : (setServo s n x).clusters = s.clusters := rfl
@[simp] theorem setServo_sched (n : Nat) (x : ServoSt) : (setServo s n x).sched = s.sched := rfl
@[simp] theorem setServo_pool (n : Nat) (x : ServoSt) : (setServo s n x).pool = s.pool := rfl
@[simp] theorem setServo_mem (n : Nat) (x : ServoSt) : (setServo s n x).mem = s.mem := rfl
@[simp] theorem setServo_keys (n : Nat) (x : ServoSt) : (setServo s n x).keys = s.keys := rfl
@[simp] theorem setServo_alarms (n : Nat) (x : ServoSt) : (setServo s n x).alarms = s.alarms := rfl
@[simp] theorem setServo_pwr (n : Nat) (x : ServoSt) : (setServo s n x).pwr = s.pwr := rfl
@[simp] theorem setServo_sensors (n : Nat) (x : ServoSt) : (setServo s n x).sensors = s.sensors := rfl
@[simp] theorem setServo_log (n : Nat) (x : ServoSt) : (setServo s n x).log = s.log := rfl
@[simp] theorem setServo_fsp (n : Nat) (x : ServoSt) : (setServo s n x).fsp = s.fsp := rfl
@[simp] theorem setServo_tim (n : Nat) (x : ServoSt) : (setServo s n x).tim = s.tim := rfl
@[simp] theorem setServo_nv (n : Nat) (x : ServoSt) : (setServo s n x).nv = s.nv := rfl
@[simp] theorem setServo_fwu (n : Nat) (x : ServoSt) : (setServo s n x).fwu = s.fwu := rfl
@[simp] theorem setServo_out (n : Nat) (x : ServoSt) : (setServo s n x).out = s.out := rfl
@[simp] theorem setServo_pending (n : Nat) (x : ServoSt) : (setServo s n x).pending = s.pending := rfl

/-- What is set is read. -/
@[simp] theorem servo_setServo (n : Nat) (x : ServoSt) : servo (setServo s n x) n = x := tget_tput_same _ _ _ _
/-- Nothing else changes. -/
theorem servo_setServo_ne (n : Nat) (k' : Nat) (x : ServoSt) (h : k' ≠ n) : servo (setServo s n x) k' = servo s k' :=
  tget_tput_ne _ _ _ _ _ h
@[simp] theorem page_setServo (n : Nat) (x : ServoSt) (pg' : PageId) : page (setServo s n x) pg' = page s pg' := rfl
@[simp] theorem mst_setServo (n : Nat) (x : ServoSt) (m' : Master) : mst (setServo s n x) m' = mst s m' := rfl
@[simp] theorem sem_setServo (n : Nat) (x : ServoSt) (k' : Nat) : sem (setServo s n x) k' = sem s k' := rfl
@[simp] theorem owner_setServo (n : Nat) (x : ServoSt) (n' : Nat) : owner (setServo s n x) n' = owner s n' := rfl
@[simp] theorem port_setServo (n : Nat) (x : ServoSt) (p' : Port) : port (setServo s n x) p' = port s p' := rfl
@[simp] theorem cmd_setServo (n : Nat) (x : ServoSt) (i' : Nat) : cmd (setServo s n x) i' = cmd s i' := rfl
@[simp] theorem vol_setServo (n : Nat) (x : ServoSt) (v' : Nat) : vol (setServo s n x) v' = vol s v' := rfl
@[simp] theorem slice_setServo (n : Nat) (x : ServoSt) (n' : Nat) : slice (setServo s n x) n' = slice s n' := rfl
@[simp] theorem link_setServo (n : Nat) (x : ServoSt) (n' : Nat) : link (setServo s n x) n' = link s n' := rfl
@[simp] theorem loop_setServo (n : Nat) (x : ServoSt) (i' : Nat) : loop (setServo s n x) i' = loop s i' := rfl
@[simp] theorem cluster_setServo (n : Nat) (x : ServoSt) (m' : Nat) : cluster (setServo s n x) m' = cluster s m' := rfl
@[simp] theorem keySlot_setServo (n : Nat) (x : ServoSt) (k' : Nat) : keySlot (setServo s n x) k' = keySlot s k' := rfl
@[simp] theorem sensor_setServo (n : Nat) (x : ServoSt) (k' : Nat) : sensor (setServo s n x) k' = sensor s k' := rfl

/-! ### setLoop -/

@[simp] theorem setLoop_code (i : Nat) (x : LoopSt) : (setLoop s i x).code = s.code := rfl
@[simp] theorem setLoop_tick (i : Nat) (x : LoopSt) : (setLoop s i x).tick = s.tick := rfl
@[simp] theorem setLoop_free (i : Nat) (x : LoopSt) : (setLoop s i x).free = s.free := rfl
@[simp] theorem setLoop_ready (i : Nat) (x : LoopSt) : (setLoop s i x).ready = s.ready := rfl
@[simp] theorem setLoop_pages (i : Nat) (x : LoopSt) : (setLoop s i x).pages = s.pages := rfl
@[simp] theorem setLoop_masters (i : Nat) (x : LoopSt) : (setLoop s i x).masters = s.masters := rfl
@[simp] theorem setLoop_sems (i : Nat) (x : LoopSt) : (setLoop s i x).sems = s.sems := rfl
@[simp] theorem setLoop_owners (i : Nat) (x : LoopSt) : (setLoop s i x).owners = s.owners := rfl
@[simp] theorem setLoop_lastForced (i : Nat) (x : LoopSt) : (setLoop s i x).lastForced = s.lastForced := rfl
@[simp] theorem setLoop_ports (i : Nat) (x : LoopSt) : (setLoop s i x).ports = s.ports := rfl
@[simp] theorem setLoop_cmds (i : Nat) (x : LoopSt) : (setLoop s i x).cmds = s.cmds := rfl
@[simp] theorem setLoop_nextCid (i : Nat) (x : LoopSt) : (setLoop s i x).nextCid = s.nextCid := rfl
@[simp] theorem setLoop_vols (i : Nat) (x : LoopSt) : (setLoop s i x).vols = s.vols := rfl
@[simp] theorem setLoop_slices (i : Nat) (x : LoopSt) : (setLoop s i x).slices = s.slices := rfl
@[simp] theorem setLoop_links (i : Nat) (x : LoopSt) : (setLoop s i x).links = s.links := rfl
@[simp] theorem setLoop_servos (i : Nat) (x : LoopSt) : (setLoop s i x).servos = s.servos := rfl
@[simp] theorem setLoop_clusters (i : Nat) (x : LoopSt) : (setLoop s i x).clusters = s.clusters := rfl
@[simp] theorem setLoop_sched (i : Nat) (x : LoopSt) : (setLoop s i x).sched = s.sched := rfl
@[simp] theorem setLoop_pool (i : Nat) (x : LoopSt) : (setLoop s i x).pool = s.pool := rfl
@[simp] theorem setLoop_mem (i : Nat) (x : LoopSt) : (setLoop s i x).mem = s.mem := rfl
@[simp] theorem setLoop_keys (i : Nat) (x : LoopSt) : (setLoop s i x).keys = s.keys := rfl
@[simp] theorem setLoop_alarms (i : Nat) (x : LoopSt) : (setLoop s i x).alarms = s.alarms := rfl
@[simp] theorem setLoop_pwr (i : Nat) (x : LoopSt) : (setLoop s i x).pwr = s.pwr := rfl
@[simp] theorem setLoop_sensors (i : Nat) (x : LoopSt) : (setLoop s i x).sensors = s.sensors := rfl
@[simp] theorem setLoop_log (i : Nat) (x : LoopSt) : (setLoop s i x).log = s.log := rfl
@[simp] theorem setLoop_fsp (i : Nat) (x : LoopSt) : (setLoop s i x).fsp = s.fsp := rfl
@[simp] theorem setLoop_tim (i : Nat) (x : LoopSt) : (setLoop s i x).tim = s.tim := rfl
@[simp] theorem setLoop_nv (i : Nat) (x : LoopSt) : (setLoop s i x).nv = s.nv := rfl
@[simp] theorem setLoop_fwu (i : Nat) (x : LoopSt) : (setLoop s i x).fwu = s.fwu := rfl
@[simp] theorem setLoop_out (i : Nat) (x : LoopSt) : (setLoop s i x).out = s.out := rfl
@[simp] theorem setLoop_pending (i : Nat) (x : LoopSt) : (setLoop s i x).pending = s.pending := rfl

/-- What is set is read. -/
@[simp] theorem loop_setLoop (i : Nat) (x : LoopSt) : loop (setLoop s i x) i = x := tget_tput_same _ _ _ _
/-- Nothing else changes. -/
theorem loop_setLoop_ne (i : Nat) (k' : Nat) (x : LoopSt) (h : k' ≠ i) : loop (setLoop s i x) k' = loop s k' :=
  tget_tput_ne _ _ _ _ _ h
@[simp] theorem page_setLoop (i : Nat) (x : LoopSt) (pg' : PageId) : page (setLoop s i x) pg' = page s pg' := rfl
@[simp] theorem mst_setLoop (i : Nat) (x : LoopSt) (m' : Master) : mst (setLoop s i x) m' = mst s m' := rfl
@[simp] theorem sem_setLoop (i : Nat) (x : LoopSt) (k' : Nat) : sem (setLoop s i x) k' = sem s k' := rfl
@[simp] theorem owner_setLoop (i : Nat) (x : LoopSt) (n' : Nat) : owner (setLoop s i x) n' = owner s n' := rfl
@[simp] theorem port_setLoop (i : Nat) (x : LoopSt) (p' : Port) : port (setLoop s i x) p' = port s p' := rfl
@[simp] theorem cmd_setLoop (i : Nat) (x : LoopSt) (i' : Nat) : cmd (setLoop s i x) i' = cmd s i' := rfl
@[simp] theorem vol_setLoop (i : Nat) (x : LoopSt) (v' : Nat) : vol (setLoop s i x) v' = vol s v' := rfl
@[simp] theorem slice_setLoop (i : Nat) (x : LoopSt) (n' : Nat) : slice (setLoop s i x) n' = slice s n' := rfl
@[simp] theorem link_setLoop (i : Nat) (x : LoopSt) (n' : Nat) : link (setLoop s i x) n' = link s n' := rfl
@[simp] theorem servo_setLoop (i : Nat) (x : LoopSt) (n' : Nat) : servo (setLoop s i x) n' = servo s n' := rfl
@[simp] theorem cluster_setLoop (i : Nat) (x : LoopSt) (m' : Nat) : cluster (setLoop s i x) m' = cluster s m' := rfl
@[simp] theorem keySlot_setLoop (i : Nat) (x : LoopSt) (k' : Nat) : keySlot (setLoop s i x) k' = keySlot s k' := rfl
@[simp] theorem sensor_setLoop (i : Nat) (x : LoopSt) (k' : Nat) : sensor (setLoop s i x) k' = sensor s k' := rfl

/-! ### setCluster -/

@[simp] theorem setCluster_code (m : Nat) (x : Cluster) : (setCluster s m x).code = s.code := rfl
@[simp] theorem setCluster_tick (m : Nat) (x : Cluster) : (setCluster s m x).tick = s.tick := rfl
@[simp] theorem setCluster_free (m : Nat) (x : Cluster) : (setCluster s m x).free = s.free := rfl
@[simp] theorem setCluster_ready (m : Nat) (x : Cluster) : (setCluster s m x).ready = s.ready := rfl
@[simp] theorem setCluster_pages (m : Nat) (x : Cluster) : (setCluster s m x).pages = s.pages := rfl
@[simp] theorem setCluster_masters (m : Nat) (x : Cluster) : (setCluster s m x).masters = s.masters := rfl
@[simp] theorem setCluster_sems (m : Nat) (x : Cluster) : (setCluster s m x).sems = s.sems := rfl
@[simp] theorem setCluster_owners (m : Nat) (x : Cluster) : (setCluster s m x).owners = s.owners := rfl
@[simp] theorem setCluster_lastForced (m : Nat) (x : Cluster) : (setCluster s m x).lastForced = s.lastForced := rfl
@[simp] theorem setCluster_ports (m : Nat) (x : Cluster) : (setCluster s m x).ports = s.ports := rfl
@[simp] theorem setCluster_cmds (m : Nat) (x : Cluster) : (setCluster s m x).cmds = s.cmds := rfl
@[simp] theorem setCluster_nextCid (m : Nat) (x : Cluster) : (setCluster s m x).nextCid = s.nextCid := rfl
@[simp] theorem setCluster_vols (m : Nat) (x : Cluster) : (setCluster s m x).vols = s.vols := rfl
@[simp] theorem setCluster_slices (m : Nat) (x : Cluster) : (setCluster s m x).slices = s.slices := rfl
@[simp] theorem setCluster_links (m : Nat) (x : Cluster) : (setCluster s m x).links = s.links := rfl
@[simp] theorem setCluster_servos (m : Nat) (x : Cluster) : (setCluster s m x).servos = s.servos := rfl
@[simp] theorem setCluster_loops (m : Nat) (x : Cluster) : (setCluster s m x).loops = s.loops := rfl
@[simp] theorem setCluster_sched (m : Nat) (x : Cluster) : (setCluster s m x).sched = s.sched := rfl
@[simp] theorem setCluster_pool (m : Nat) (x : Cluster) : (setCluster s m x).pool = s.pool := rfl
@[simp] theorem setCluster_mem (m : Nat) (x : Cluster) : (setCluster s m x).mem = s.mem := rfl
@[simp] theorem setCluster_keys (m : Nat) (x : Cluster) : (setCluster s m x).keys = s.keys := rfl
@[simp] theorem setCluster_alarms (m : Nat) (x : Cluster) : (setCluster s m x).alarms = s.alarms := rfl
@[simp] theorem setCluster_pwr (m : Nat) (x : Cluster) : (setCluster s m x).pwr = s.pwr := rfl
@[simp] theorem setCluster_sensors (m : Nat) (x : Cluster) : (setCluster s m x).sensors = s.sensors := rfl
@[simp] theorem setCluster_log (m : Nat) (x : Cluster) : (setCluster s m x).log = s.log := rfl
@[simp] theorem setCluster_fsp (m : Nat) (x : Cluster) : (setCluster s m x).fsp = s.fsp := rfl
@[simp] theorem setCluster_tim (m : Nat) (x : Cluster) : (setCluster s m x).tim = s.tim := rfl
@[simp] theorem setCluster_nv (m : Nat) (x : Cluster) : (setCluster s m x).nv = s.nv := rfl
@[simp] theorem setCluster_fwu (m : Nat) (x : Cluster) : (setCluster s m x).fwu = s.fwu := rfl
@[simp] theorem setCluster_out (m : Nat) (x : Cluster) : (setCluster s m x).out = s.out := rfl
@[simp] theorem setCluster_pending (m : Nat) (x : Cluster) : (setCluster s m x).pending = s.pending := rfl

/-- What is set is read. -/
@[simp] theorem cluster_setCluster (m : Nat) (x : Cluster) : cluster (setCluster s m x) m = x := tget_tput_same _ _ _ _
/-- Nothing else changes. -/
theorem cluster_setCluster_ne (m : Nat) (k' : Nat) (x : Cluster) (h : k' ≠ m) : cluster (setCluster s m x) k' = cluster s k' :=
  tget_tput_ne _ _ _ _ _ h
@[simp] theorem page_setCluster (m : Nat) (x : Cluster) (pg' : PageId) : page (setCluster s m x) pg' = page s pg' := rfl
@[simp] theorem mst_setCluster (m : Nat) (x : Cluster) (m' : Master) : mst (setCluster s m x) m' = mst s m' := rfl
@[simp] theorem sem_setCluster (m : Nat) (x : Cluster) (k' : Nat) : sem (setCluster s m x) k' = sem s k' := rfl
@[simp] theorem owner_setCluster (m : Nat) (x : Cluster) (n' : Nat) : owner (setCluster s m x) n' = owner s n' := rfl
@[simp] theorem port_setCluster (m : Nat) (x : Cluster) (p' : Port) : port (setCluster s m x) p' = port s p' := rfl
@[simp] theorem cmd_setCluster (m : Nat) (x : Cluster) (i' : Nat) : cmd (setCluster s m x) i' = cmd s i' := rfl
@[simp] theorem vol_setCluster (m : Nat) (x : Cluster) (v' : Nat) : vol (setCluster s m x) v' = vol s v' := rfl
@[simp] theorem slice_setCluster (m : Nat) (x : Cluster) (n' : Nat) : slice (setCluster s m x) n' = slice s n' := rfl
@[simp] theorem link_setCluster (m : Nat) (x : Cluster) (n' : Nat) : link (setCluster s m x) n' = link s n' := rfl
@[simp] theorem servo_setCluster (m : Nat) (x : Cluster) (n' : Nat) : servo (setCluster s m x) n' = servo s n' := rfl
@[simp] theorem loop_setCluster (m : Nat) (x : Cluster) (i' : Nat) : loop (setCluster s m x) i' = loop s i' := rfl
@[simp] theorem keySlot_setCluster (m : Nat) (x : Cluster) (k' : Nat) : keySlot (setCluster s m x) k' = keySlot s k' := rfl
@[simp] theorem sensor_setCluster (m : Nat) (x : Cluster) (k' : Nat) : sensor (setCluster s m x) k' = sensor s k' := rfl

/-! ### setKey -/

@[simp] theorem setKey_code (k : Nat) (x : KeySlot) : (setKey s k x).code = s.code := rfl
@[simp] theorem setKey_tick (k : Nat) (x : KeySlot) : (setKey s k x).tick = s.tick := rfl
@[simp] theorem setKey_free (k : Nat) (x : KeySlot) : (setKey s k x).free = s.free := rfl
@[simp] theorem setKey_ready (k : Nat) (x : KeySlot) : (setKey s k x).ready = s.ready := rfl
@[simp] theorem setKey_pages (k : Nat) (x : KeySlot) : (setKey s k x).pages = s.pages := rfl
@[simp] theorem setKey_masters (k : Nat) (x : KeySlot) : (setKey s k x).masters = s.masters := rfl
@[simp] theorem setKey_sems (k : Nat) (x : KeySlot) : (setKey s k x).sems = s.sems := rfl
@[simp] theorem setKey_owners (k : Nat) (x : KeySlot) : (setKey s k x).owners = s.owners := rfl
@[simp] theorem setKey_lastForced (k : Nat) (x : KeySlot) : (setKey s k x).lastForced = s.lastForced := rfl
@[simp] theorem setKey_ports (k : Nat) (x : KeySlot) : (setKey s k x).ports = s.ports := rfl
@[simp] theorem setKey_cmds (k : Nat) (x : KeySlot) : (setKey s k x).cmds = s.cmds := rfl
@[simp] theorem setKey_nextCid (k : Nat) (x : KeySlot) : (setKey s k x).nextCid = s.nextCid := rfl
@[simp] theorem setKey_vols (k : Nat) (x : KeySlot) : (setKey s k x).vols = s.vols := rfl
@[simp] theorem setKey_slices (k : Nat) (x : KeySlot) : (setKey s k x).slices = s.slices := rfl
@[simp] theorem setKey_links (k : Nat) (x : KeySlot) : (setKey s k x).links = s.links := rfl
@[simp] theorem setKey_servos (k : Nat) (x : KeySlot) : (setKey s k x).servos = s.servos := rfl
@[simp] theorem setKey_loops (k : Nat) (x : KeySlot) : (setKey s k x).loops = s.loops := rfl
@[simp] theorem setKey_clusters (k : Nat) (x : KeySlot) : (setKey s k x).clusters = s.clusters := rfl
@[simp] theorem setKey_sched (k : Nat) (x : KeySlot) : (setKey s k x).sched = s.sched := rfl
@[simp] theorem setKey_pool (k : Nat) (x : KeySlot) : (setKey s k x).pool = s.pool := rfl
@[simp] theorem setKey_mem (k : Nat) (x : KeySlot) : (setKey s k x).mem = s.mem := rfl
@[simp] theorem setKey_alarms (k : Nat) (x : KeySlot) : (setKey s k x).alarms = s.alarms := rfl
@[simp] theorem setKey_pwr (k : Nat) (x : KeySlot) : (setKey s k x).pwr = s.pwr := rfl
@[simp] theorem setKey_sensors (k : Nat) (x : KeySlot) : (setKey s k x).sensors = s.sensors := rfl
@[simp] theorem setKey_log (k : Nat) (x : KeySlot) : (setKey s k x).log = s.log := rfl
@[simp] theorem setKey_fsp (k : Nat) (x : KeySlot) : (setKey s k x).fsp = s.fsp := rfl
@[simp] theorem setKey_tim (k : Nat) (x : KeySlot) : (setKey s k x).tim = s.tim := rfl
@[simp] theorem setKey_nv (k : Nat) (x : KeySlot) : (setKey s k x).nv = s.nv := rfl
@[simp] theorem setKey_fwu (k : Nat) (x : KeySlot) : (setKey s k x).fwu = s.fwu := rfl
@[simp] theorem setKey_out (k : Nat) (x : KeySlot) : (setKey s k x).out = s.out := rfl
@[simp] theorem setKey_pending (k : Nat) (x : KeySlot) : (setKey s k x).pending = s.pending := rfl

/-- What is set is read. -/
@[simp] theorem keySlot_setKey (k : Nat) (x : KeySlot) : keySlot (setKey s k x) k = x := tget_tput_same _ _ _ _
/-- Nothing else changes. -/
theorem keySlot_setKey_ne (k : Nat) (k' : Nat) (x : KeySlot) (h : k' ≠ k) : keySlot (setKey s k x) k' = keySlot s k' :=
  tget_tput_ne _ _ _ _ _ h
@[simp] theorem page_setKey (k : Nat) (x : KeySlot) (pg' : PageId) : page (setKey s k x) pg' = page s pg' := rfl
@[simp] theorem mst_setKey (k : Nat) (x : KeySlot) (m' : Master) : mst (setKey s k x) m' = mst s m' := rfl
@[simp] theorem sem_setKey (k : Nat) (x : KeySlot) (k' : Nat) : sem (setKey s k x) k' = sem s k' := rfl
@[simp] theorem owner_setKey (k : Nat) (x : KeySlot) (n' : Nat) : owner (setKey s k x) n' = owner s n' := rfl
@[simp] theorem port_setKey (k : Nat) (x : KeySlot) (p' : Port) : port (setKey s k x) p' = port s p' := rfl
@[simp] theorem cmd_setKey (k : Nat) (x : KeySlot) (i' : Nat) : cmd (setKey s k x) i' = cmd s i' := rfl
@[simp] theorem vol_setKey (k : Nat) (x : KeySlot) (v' : Nat) : vol (setKey s k x) v' = vol s v' := rfl
@[simp] theorem slice_setKey (k : Nat) (x : KeySlot) (n' : Nat) : slice (setKey s k x) n' = slice s n' := rfl
@[simp] theorem link_setKey (k : Nat) (x : KeySlot) (n' : Nat) : link (setKey s k x) n' = link s n' := rfl
@[simp] theorem servo_setKey (k : Nat) (x : KeySlot) (n' : Nat) : servo (setKey s k x) n' = servo s n' := rfl
@[simp] theorem loop_setKey (k : Nat) (x : KeySlot) (i' : Nat) : loop (setKey s k x) i' = loop s i' := rfl
@[simp] theorem cluster_setKey (k : Nat) (x : KeySlot) (m' : Nat) : cluster (setKey s k x) m' = cluster s m' := rfl
@[simp] theorem sensor_setKey (k : Nat) (x : KeySlot) (k' : Nat) : sensor (setKey s k x) k' = sensor s k' := rfl

/-! ### setSensor -/

@[simp] theorem setSensor_code (k : Nat) (x : Sensor) : (setSensor s k x).code = s.code := rfl
@[simp] theorem setSensor_tick (k : Nat) (x : Sensor) : (setSensor s k x).tick = s.tick := rfl
@[simp] theorem setSensor_free (k : Nat) (x : Sensor) : (setSensor s k x).free = s.free := rfl
@[simp] theorem setSensor_ready (k : Nat) (x : Sensor) : (setSensor s k x).ready = s.ready := rfl
@[simp] theorem setSensor_pages (k : Nat) (x : Sensor) : (setSensor s k x).pages = s.pages := rfl
@[simp] theorem setSensor_masters (k : Nat) (x : Sensor) : (setSensor s k x).masters = s.masters := rfl
@[simp] theorem setSensor_sems (k : Nat) (x : Sensor) : (setSensor s k x).sems = s.sems := rfl
@[simp] theorem setSensor_owners (k : Nat) (x : Sensor) : (setSensor s k x).owners = s.owners := rfl
@[simp] theorem setSensor_lastForced (k : Nat) (x : Sensor) : (setSensor s k x).lastForced = s.lastForced := rfl
@[simp] theorem setSensor_ports (k : Nat) (x : Sensor) : (setSensor s k x).ports = s.ports := rfl
@[simp] theorem setSensor_cmds (k : Nat) (x : Sensor) : (setSensor s k x).cmds = s.cmds := rfl
@[simp] theorem setSensor_nextCid (k : Nat) (x : Sensor) : (setSensor s k x).nextCid = s.nextCid := rfl
@[simp] theorem setSensor_vols (k : Nat) (x : Sensor) : (setSensor s k x).vols = s.vols := rfl
@[simp] theorem setSensor_slices (k : Nat) (x : Sensor) : (setSensor s k x).slices = s.slices := rfl
@[simp] theorem setSensor_links (k : Nat) (x : Sensor) : (setSensor s k x).links = s.links := rfl
@[simp] theorem setSensor_servos (k : Nat) (x : Sensor) : (setSensor s k x).servos = s.servos := rfl
@[simp] theorem setSensor_loops (k : Nat) (x : Sensor) : (setSensor s k x).loops = s.loops := rfl
@[simp] theorem setSensor_clusters (k : Nat) (x : Sensor) : (setSensor s k x).clusters = s.clusters := rfl
@[simp] theorem setSensor_sched (k : Nat) (x : Sensor) : (setSensor s k x).sched = s.sched := rfl
@[simp] theorem setSensor_pool (k : Nat) (x : Sensor) : (setSensor s k x).pool = s.pool := rfl
@[simp] theorem setSensor_mem (k : Nat) (x : Sensor) : (setSensor s k x).mem = s.mem := rfl
@[simp] theorem setSensor_keys (k : Nat) (x : Sensor) : (setSensor s k x).keys = s.keys := rfl
@[simp] theorem setSensor_alarms (k : Nat) (x : Sensor) : (setSensor s k x).alarms = s.alarms := rfl
@[simp] theorem setSensor_pwr (k : Nat) (x : Sensor) : (setSensor s k x).pwr = s.pwr := rfl
@[simp] theorem setSensor_log (k : Nat) (x : Sensor) : (setSensor s k x).log = s.log := rfl
@[simp] theorem setSensor_fsp (k : Nat) (x : Sensor) : (setSensor s k x).fsp = s.fsp := rfl
@[simp] theorem setSensor_tim (k : Nat) (x : Sensor) : (setSensor s k x).tim = s.tim := rfl
@[simp] theorem setSensor_nv (k : Nat) (x : Sensor) : (setSensor s k x).nv = s.nv := rfl
@[simp] theorem setSensor_fwu (k : Nat) (x : Sensor) : (setSensor s k x).fwu = s.fwu := rfl
@[simp] theorem setSensor_out (k : Nat) (x : Sensor) : (setSensor s k x).out = s.out := rfl
@[simp] theorem setSensor_pending (k : Nat) (x : Sensor) : (setSensor s k x).pending = s.pending := rfl

/-- What is set is read. -/
@[simp] theorem sensor_setSensor (k : Nat) (x : Sensor) : sensor (setSensor s k x) k = x := tget_tput_same _ _ _ _
/-- Nothing else changes. -/
theorem sensor_setSensor_ne (k : Nat) (k' : Nat) (x : Sensor) (h : k' ≠ k) : sensor (setSensor s k x) k' = sensor s k' :=
  tget_tput_ne _ _ _ _ _ h
@[simp] theorem page_setSensor (k : Nat) (x : Sensor) (pg' : PageId) : page (setSensor s k x) pg' = page s pg' := rfl
@[simp] theorem mst_setSensor (k : Nat) (x : Sensor) (m' : Master) : mst (setSensor s k x) m' = mst s m' := rfl
@[simp] theorem sem_setSensor (k : Nat) (x : Sensor) (k' : Nat) : sem (setSensor s k x) k' = sem s k' := rfl
@[simp] theorem owner_setSensor (k : Nat) (x : Sensor) (n' : Nat) : owner (setSensor s k x) n' = owner s n' := rfl
@[simp] theorem port_setSensor (k : Nat) (x : Sensor) (p' : Port) : port (setSensor s k x) p' = port s p' := rfl
@[simp] theorem cmd_setSensor (k : Nat) (x : Sensor) (i' : Nat) : cmd (setSensor s k x) i' = cmd s i' := rfl
@[simp] theorem vol_setSensor (k : Nat) (x : Sensor) (v' : Nat) : vol (setSensor s k x) v' = vol s v' := rfl
@[simp] theorem slice_setSensor (k : Nat) (x : Sensor) (n' : Nat) : slice (setSensor s k x) n' = slice s n' := rfl
@[simp] theorem link_setSensor (k : Nat) (x : Sensor) (n' : Nat) : link (setSensor s k x) n' = link s n' := rfl
@[simp] theorem servo_setSensor (k : Nat) (x : Sensor) (n' : Nat) : servo (setSensor s k x) n' = servo s n' := rfl
@[simp] theorem loop_setSensor (k : Nat) (x : Sensor) (i' : Nat) : loop (setSensor s k x) i' = loop s i' := rfl
@[simp] theorem cluster_setSensor (k : Nat) (x : Sensor) (m' : Nat) : cluster (setSensor s k x) m' = cluster s m' := rfl
@[simp] theorem keySlot_setSensor (k : Nat) (x : Sensor) (k' : Nat) : keySlot (setSensor s k x) k' = keySlot s k' := rfl

/-! ### A change is a replacement by what the old value gives -/

theorem modPage_eq (pg : PageId) (f : Page → Page) : modPage s pg f = setPage s pg (f (page s pg)) := rfl
theorem modMst_eq (m : Master) (f : MasterSt → MasterSt) : modMst s m f = setMst s m (f (mst s m)) := rfl
theorem modPort_eq (p : Port) (f : PortSt → PortSt) : modPort s p f = setPort s p (f (port s p)) := rfl
theorem modCmd_eq (i : Nat) (f : Cmd → Cmd) : modCmd s i f = setCmd s i (f (cmd s i)) := rfl
theorem modVol_eq (v : Nat) (f : Vol → Vol) : modVol s v f = setVol s v (f (vol s v)) := rfl
theorem modSlice_eq (n : Nat) (f : SliceSt → SliceSt) : modSlice s n f = setSlice s n (f (slice s n)) := rfl
theorem modLink_eq (n : Nat) (f : LinkSt → LinkSt) : modLink s n f = setLink s n (f (link s n)) := rfl
theorem modServo_eq (n : Nat) (f : ServoSt → ServoSt) : modServo s n f = setServo s n (f (servo s n)) := rfl
theorem modLoop_eq (i : Nat) (f : LoopSt → LoopSt) : modLoop s i f = setLoop s i (f (loop s i)) := rfl
theorem modCluster_eq (m : Nat) (f : Cluster → Cluster) : modCluster s m f = setCluster s m (f (cluster s m)) := rfl
theorem modKey_eq (k : Nat) (f : KeySlot → KeySlot) : modKey s k f = setKey s k (f (keySlot s k)) := rfl

/-! ### emit and nextFree -/

@[simp] theorem emit_code (e : Emit) : (emit s e).code = s.code := rfl
@[simp] theorem emit_tick (e : Emit) : (emit s e).tick = s.tick := rfl
@[simp] theorem emit_free (e : Emit) : (emit s e).free = s.free := rfl
@[simp] theorem emit_ready (e : Emit) : (emit s e).ready = s.ready := rfl
@[simp] theorem emit_pages (e : Emit) : (emit s e).pages = s.pages := rfl
@[simp] theorem emit_masters (e : Emit) : (emit s e).masters = s.masters := rfl
@[simp] theorem emit_sems (e : Emit) : (emit s e).sems = s.sems := rfl
@[simp] theorem emit_owners (e : Emit) : (emit s e).owners = s.owners := rfl
@[simp] theorem emit_lastForced (e : Emit) : (emit s e).lastForced = s.lastForced := rfl
@[simp] theorem emit_ports (e : Emit) : (emit s e).ports = s.ports := rfl
@[simp] theorem emit_cmds (e : Emit) : (emit s e).cmds = s.cmds := rfl
@[simp] theorem emit_nextCid (e : Emit) : (emit s e).nextCid = s.nextCid := rfl
@[simp] theorem emit_vols (e : Emit) : (emit s e).vols = s.vols := rfl
@[simp] theorem emit_slices (e : Emit) : (emit s e).slices = s.slices := rfl
@[simp] theorem emit_links (e : Emit) : (emit s e).links = s.links := rfl
@[simp] theorem emit_servos (e : Emit) : (emit s e).servos = s.servos := rfl
@[simp] theorem emit_loops (e : Emit) : (emit s e).loops = s.loops := rfl
@[simp] theorem emit_clusters (e : Emit) : (emit s e).clusters = s.clusters := rfl
@[simp] theorem emit_sched (e : Emit) : (emit s e).sched = s.sched := rfl
@[simp] theorem emit_pool (e : Emit) : (emit s e).pool = s.pool := rfl
@[simp] theorem emit_mem (e : Emit) : (emit s e).mem = s.mem := rfl
@[simp] theorem emit_keys (e : Emit) : (emit s e).keys = s.keys := rfl
@[simp] theorem emit_alarms (e : Emit) : (emit s e).alarms = s.alarms := rfl
@[simp] theorem emit_pwr (e : Emit) : (emit s e).pwr = s.pwr := rfl
@[simp] theorem emit_sensors (e : Emit) : (emit s e).sensors = s.sensors := rfl
@[simp] theorem emit_log (e : Emit) : (emit s e).log = s.log := rfl
@[simp] theorem emit_fsp (e : Emit) : (emit s e).fsp = s.fsp := rfl
@[simp] theorem emit_tim (e : Emit) : (emit s e).tim = s.tim := rfl
@[simp] theorem emit_nv (e : Emit) : (emit s e).nv = s.nv := rfl
@[simp] theorem emit_fwu (e : Emit) : (emit s e).fwu = s.fwu := rfl
@[simp] theorem emit_pending (e : Emit) : (emit s e).pending = s.pending := rfl
@[simp] theorem emit_out (e : Emit) : (emit s e).out = e :: s.out := rfl
@[simp] theorem nextFree_code : (nextFree s).code = s.code := rfl
@[simp] theorem nextFree_tick : (nextFree s).tick = s.tick := rfl
@[simp] theorem nextFree_ready : (nextFree s).ready = s.ready := rfl
@[simp] theorem nextFree_pages : (nextFree s).pages = s.pages := rfl
@[simp] theorem nextFree_masters : (nextFree s).masters = s.masters := rfl
@[simp] theorem nextFree_sems : (nextFree s).sems = s.sems := rfl
@[simp] theorem nextFree_owners : (nextFree s).owners = s.owners := rfl
@[simp] theorem nextFree_lastForced : (nextFree s).lastForced = s.lastForced := rfl
@[simp] theorem nextFree_ports : (nextFree s).ports = s.ports := rfl
@[simp] theorem nextFree_cmds : (nextFree s).cmds = s.cmds := rfl
@[simp] theorem nextFree_nextCid : (nextFree s).nextCid = s.nextCid := rfl
@[simp] theorem nextFree_vols : (nextFree s).vols = s.vols := rfl
@[simp] theorem nextFree_slices : (nextFree s).slices = s.slices := rfl
@[simp] theorem nextFree_links : (nextFree s).links = s.links := rfl
@[simp] theorem nextFree_servos : (nextFree s).servos = s.servos := rfl
@[simp] theorem nextFree_loops : (nextFree s).loops = s.loops := rfl
@[simp] theorem nextFree_clusters : (nextFree s).clusters = s.clusters := rfl
@[simp] theorem nextFree_sched : (nextFree s).sched = s.sched := rfl
@[simp] theorem nextFree_pool : (nextFree s).pool = s.pool := rfl
@[simp] theorem nextFree_mem : (nextFree s).mem = s.mem := rfl
@[simp] theorem nextFree_keys : (nextFree s).keys = s.keys := rfl
@[simp] theorem nextFree_alarms : (nextFree s).alarms = s.alarms := rfl
@[simp] theorem nextFree_pwr : (nextFree s).pwr = s.pwr := rfl
@[simp] theorem nextFree_sensors : (nextFree s).sensors = s.sensors := rfl
@[simp] theorem nextFree_log : (nextFree s).log = s.log := rfl
@[simp] theorem nextFree_fsp : (nextFree s).fsp = s.fsp := rfl
@[simp] theorem nextFree_tim : (nextFree s).tim = s.tim := rfl
@[simp] theorem nextFree_nv : (nextFree s).nv = s.nv := rfl
@[simp] theorem nextFree_fwu : (nextFree s).fwu = s.fwu := rfl
@[simp] theorem nextFree_out : (nextFree s).out = s.out := rfl
@[simp] theorem nextFree_pending : (nextFree s).pending = s.pending := rfl
@[simp] theorem nextFree_free : (nextFree s).free = s.free + 1 := rfl
@[simp] theorem page_emit (e : Emit) (pg : PageId) : page (emit s e) pg = page s pg := rfl
@[simp] theorem page_nextFree (pg : PageId) : page (nextFree s) pg = page s pg := rfl
@[simp] theorem mst_emit (e : Emit) (m : Master) : mst (emit s e) m = mst s m := rfl
@[simp] theorem mst_nextFree (m : Master) : mst (nextFree s) m = mst s m := rfl
@[simp] theorem sem_emit (e : Emit) (k : Nat) : sem (emit s e) k = sem s k := rfl
@[simp] theorem sem_nextFree (k : Nat) : sem (nextFree s) k = sem s k := rfl
@[simp] theorem owner_emit (e : Emit) (n : Nat) : owner (emit s e) n = owner s n := rfl
@[simp] theorem owner_nextFree (n : Nat) : owner (nextFree s) n = owner s n := rfl
@[simp] theorem port_emit (e : Emit) (p : Port) : port (emit s e) p = port s p := rfl
@[simp] theorem port_nextFree (p : Port) : port (nextFree s) p = port s p := rfl
@[simp] theorem cmd_emit (e : Emit) (i : Nat) : cmd (emit s e) i = cmd s i := rfl
@[simp] theorem cmd_nextFree (i : Nat) : cmd (nextFree s) i = cmd s i := rfl
@[simp] theorem vol_emit (e : Emit) (v : Nat) : vol (emit s e) v = vol s v := rfl
@[simp] theorem vol_nextFree (v : Nat) : vol (nextFree s) v = vol s v := rfl
@[simp] theorem slice_emit (e : Emit) (n : Nat) : slice (emit s e) n = slice s n := rfl
@[simp] theorem slice_nextFree (n : Nat) : slice (nextFree s) n = slice s n := rfl
@[simp] theorem link_emit (e : Emit) (n : Nat) : link (emit s e) n = link s n := rfl
@[simp] theorem link_nextFree (n : Nat) : link (nextFree s) n = link s n := rfl
@[simp] theorem servo_emit (e : Emit) (n : Nat) : servo (emit s e) n = servo s n := rfl
@[simp] theorem servo_nextFree (n : Nat) : servo (nextFree s) n = servo s n := rfl
@[simp] theorem loop_emit (e : Emit) (i : Nat) : loop (emit s e) i = loop s i := rfl
@[simp] theorem loop_nextFree (i : Nat) : loop (nextFree s) i = loop s i := rfl
@[simp] theorem cluster_emit (e : Emit) (m : Nat) : cluster (emit s e) m = cluster s m := rfl
@[simp] theorem cluster_nextFree (m : Nat) : cluster (nextFree s) m = cluster s m := rfl
@[simp] theorem keySlot_emit (e : Emit) (k : Nat) : keySlot (emit s e) k = keySlot s k := rfl
@[simp] theorem keySlot_nextFree (k : Nat) : keySlot (nextFree s) k = keySlot s k := rfl
@[simp] theorem sensor_emit (e : Emit) (k : Nat) : sensor (emit s e) k = sensor s k := rfl
@[simp] theorem sensor_nextFree (k : Nat) : sensor (nextFree s) k = sensor s k := rfl

end Sys2Proof.Machine
end

