-- ==== Sys2Proof/Laws/Log.lean ====
section
/-! SUPPORT. What counting, raising an event and writing the event log can change (R40, R58, R62, R425 to R429). -/

namespace Sys2Proof.Machine

/-- `t` differs from `s` in the pages, the event log, the NV array's unit operations, the service port's sessions and what was sent,
at most. -/
def LogFrame (s t : State) : Prop :=
  t = { s with pages := t.pages, log := t.log, nv := t.nv, fsp := t.fsp, out := t.out }

theorem LogFrame.refl (s : State) : LogFrame s s := rfl

theorem LogFrame.trans {s t u : State} (h : LogFrame s t) (k : LogFrame t u) : LogFrame s u := by
  unfold LogFrame at *
  rw [k]
  rw [h]

/-- A fold of steps that keep the frame keeps it. -/
theorem LogFrame.foldl {α : Type} {f : State → α → State} (h : ∀ s a, LogFrame s (f s a)) (l : List α) (s : State) :
    LogFrame s (l.foldl f s) := by
  induction l generalizing s with
  | nil => exact .refl s
  | cons a r ih => exact (h s a).trans (ih _)

/-- No page but those listed in `ps` changes. -/
structure PagesFrame (ps : List PageId) (s t : State) : Prop where
  same : ∀ q, q ∉ ps → page t q = page s q

theorem PagesFrame.refl (ps : List PageId) (s : State) : PagesFrame ps s s := ⟨fun _ _ => rfl⟩

theorem PagesFrame.trans {ps : List PageId} {s t u : State} (h : PagesFrame ps s t) (k : PagesFrame ps t u) :
    PagesFrame ps s u := ⟨fun q hq => (k.same q hq).trans (h.same q hq)⟩

theorem PagesFrame.mono {ps qs : List PageId} {s t : State} (h : PagesFrame ps s t) (hs : ∀ p ∈ ps, p ∈ qs) :
    PagesFrame qs s t := ⟨fun q hq => h.same q fun m => hq (hs q m)⟩

theorem PagesFrame.of_eq (ps : List PageId) {s t : State} (h : t.pages = s.pages) : PagesFrame ps s t :=
  ⟨fun q _ => by simp [page, h]⟩

theorem PagesFrame.foldl {ps : List PageId} {α : Type} {f : State → α → State} (h : ∀ s a, PagesFrame ps s (f s a))
    (l : List α) (s : State) : PagesFrame ps s (l.foldl f s) := by
  induction l generalizing s with
  | nil => exact .refl ps s
  | cons a r ih => exact (h s a).trans (ih _)

variable (s : State)

theorem setPage_logFrame (pg : PageId) (x : Page) : LogFrame s (setPage s pg x) := rfl
theorem setPage_pagesFrame (pg : PageId) (x : Page) : PagesFrame [pg] s (setPage s pg x) :=
  ⟨fun q h => page_setPage_ne s pg q x (by simpa using h)⟩
theorem modPage_logFrame (pg : PageId) (f : Page → Page) : LogFrame s (modPage s pg f) := rfl
theorem modPage_pagesFrame (pg : PageId) (f : Page → Page) : PagesFrame [pg] s (modPage s pg f) :=
  setPage_pagesFrame s pg _

theorem setEvt_logFrame (pg : PageId) (b : Nat) : LogFrame s (setEvt s pg b) := rfl
theorem setEvt_pagesFrame (pg : PageId) (b : Nat) : PagesFrame [pg] s (setEvt s pg b) := modPage_pagesFrame s pg _

theorem count_logFrame (pg : PageId) (k n : Nat) : LogFrame s (count s pg k n) := by
  simp only [count]; split
  · exact modPage_logFrame ..
  · exact (modPage_logFrame ..).trans (setEvt_logFrame ..)
theorem count_pagesFrame (pg : PageId) (k n : Nat) : PagesFrame [pg] s (count s pg k n) := by
  simp only [count]; split
  · exact modPage_pagesFrame ..
  · exact (modPage_pagesFrame ..).trans (setEvt_pagesFrame ..)

theorem nvInternal_logFrame (b : Nat) (us : List NvUnit) : LogFrame s (nvInternal s b us) := rfl
@[simp] theorem nvInternal_pages (b : Nat) (us : List NvUnit) : (nvInternal s b us).pages = s.pages := rfl

theorem emit_logFrame (e : Emit) : LogFrame s (emit s e) := rfl

theorem emitAll_frame {α : Type} (g : α → Emit) (l : List α) :
    LogFrame s (l.foldl (fun s x => emit s (g x)) s) ∧ (l.foldl (fun s x => emit s (g x)) s).pages = s.pages := by
  induction l generalizing s with
  | nil => exact ⟨rfl, rfl⟩
  | cons a r ih => exact ⟨(emit_logFrame s (g a)).trans (ih _).1, (ih _).2⟩

theorem notifyAll_logFrame (p : List Byte) : LogFrame s (notifyAll s p) := by
  have h := (emitAll_frame s (fun x : Session => .fsp (fspDatagram 2 x.id (x.txSeq + 1) 0 0 p (some x.key)))
    (s.fsp.sessions.filter (·.authed))).1
  simp only [notifyAll]
  exact h.trans rfl
@[simp] theorem notifyAll_pages (p : List Byte) : (notifyAll s p).pages = s.pages :=
  (emitAll_frame s (fun x : Session => .fsp (fspDatagram 2 x.id (x.txSeq + 1) 0 0 p (some x.key)))
    (s.fsp.sessions.filter (·.authed))).2

theorem announce_logFrame (e : LogEntry) : LogFrame s (announce s e) := by
  unfold announce; split
  · exact .refl s
  · exact ((setEvt_logFrame ..).trans (emit_logFrame ..)).trans (notifyAll_logFrame ..)
theorem announce_pagesFrame (e : LogEntry) : PagesFrame [.log] s (announce s e) := by
  unfold announce; split
  · exact .refl _ s
  · exact (setEvt_pagesFrame s .log 8).trans (.of_eq _ (by rw [notifyAll_pages]; rfl))

theorem setLog_logFrame (l : LogSt) : LogFrame s (setLog s l) := rfl
@[simp] theorem setLog_pages (l : LogSt) : (setLog s l).pages = s.pages := rfl

theorem logPush_logFrame (e : LogEntry) : LogFrame s (logPush s e) :=
  (setLog_logFrame ..).trans (nvInternal_logFrame ..)
@[simp] theorem logPush_pages (e : LogEntry) : (logPush s e).pages = s.pages := rfl

theorem logWrite_logFrame (e : LogEntry) : LogFrame s (logWrite s e) := by
  unfold logWrite; split
  · exact (logPush_logFrame ..).trans (announce_logFrame ..)
  · split
    · exact setLog_logFrame ..
    · exact (setLog_logFrame ..).trans (count_logFrame ..)
theorem logWrite_pagesFrame (e : LogEntry) : PagesFrame [.log] s (logWrite s e) := by
  unfold logWrite; split
  · exact PagesFrame.trans (t := logPush s e) (.of_eq _ rfl) (announce_pagesFrame ..)
  · split
    · exact .of_eq _ rfl
    · exact PagesFrame.trans (t := setLog s { s.log with heldDropped := s.log.heldDropped + 1 }) (.of_eq _ rfl)
        (count_pagesFrame ..)

theorem logFoldEnd_logFrame (f : LogFold) : LogFrame s (logFoldEnd s f) := by
  unfold logFoldEnd; split
  · exact .refl s
  · exact logWrite_logFrame ..
theorem logFoldEnd_pagesFrame (f : LogFold) : PagesFrame [.log] s (logFoldEnd s f) := by
  unfold logFoldEnd; split
  · exact .refl _ s
  · exact logWrite_pagesFrame ..

/-- An event-log entry changes pages (LOG alone), log, NV units, sessions and what was sent (R425 to R429). -/
theorem logEvent_logFrame (e : LogEntry) : LogFrame s (logEvent s e) := by
  unfold logEvent
  extract_lets same sec put first
  have hf : ∀ t, LogFrame t (first t) := fun t => (setLog_logFrame t _).trans (logWrite_logFrame ..)
  split
  · exact hf s
  · split
    · exact (logFoldEnd_logFrame ..).trans (hf _)
    · rename_i f _ _
      have hp : LogFrame s (put s { f with count := f.count + 1, last := e }) := setLog_logFrame s _
      split
      · exact hp.trans (logWrite_logFrame ..)
      · exact hp.trans (count_logFrame ..)
theorem logEvent_pagesFrame (e : LogEntry) : PagesFrame [.log] s (logEvent s e) := by
  unfold logEvent
  extract_lets same sec put first
  have hf : ∀ t, PagesFrame [.log] t (first t) := fun t =>
    PagesFrame.trans (t := put t { sec := sec, code := e.code, source := e.source, inst := e.inst, count := 1, last := e })
      (.of_eq _ rfl) (logWrite_pagesFrame ..)
  split
  · exact hf s
  · split
    · exact (logFoldEnd_pagesFrame ..).trans (hf _)
    · rename_i f _ _
      have hp : PagesFrame [.log] s (put s { f with count := f.count + 1, last := e }) := .of_eq _ rfl
      split
      · exact hp.trans (logWrite_pagesFrame ..)
      · exact hp.trans (count_pagesFrame ..)

theorem logMgmt_logFrame (code sev req d0 d1 d2 d3 : Nat) : LogFrame s (logMgmt s code sev req d0 d1 d2 d3) :=
  logEvent_logFrame ..
theorem logMgmt_pagesFrame (code sev req d0 d1 d2 d3 : Nat) : PagesFrame [.log] s (logMgmt s code sev req d0 d1 d2 d3) :=
  logEvent_pagesFrame ..

/-- An event changes the page it is raised on and what an entry of the event log changes (R40, R62). -/
theorem raise_logFrame (pg : PageId) (b d0 req : Nat) : LogFrame s (raise s pg b d0 req) := by
  simp only [raise]; split
  · exact (setEvt_logFrame ..).trans (logEvent_logFrame ..)
  · exact setEvt_logFrame ..
theorem raise_pagesFrame (pg : PageId) (b d0 req : Nat) : PagesFrame [pg, .log] s (raise s pg b d0 req) := by
  have h : PagesFrame [pg, .log] s (setEvt s pg b) := (setEvt_pagesFrame s pg b).mono (by simp)
  simp only [raise]; split
  · exact h.trans ((logEvent_pagesFrame ..).mono (by simp))
  · exact h

theorem deviceFault_logFrame (pg : PageId) (a req : Nat) : LogFrame s (deviceFault s pg a req) :=
  ((modPage_logFrame ..).trans (setEvt_logFrame ..)).trans (logMgmt_logFrame ..)
theorem setCheck_logFrame (pg : PageId) (r f : Nat) : LogFrame s (setCheck s pg r f) := by
  simp only [setCheck]; split
  · exact modPage_logFrame ..
  · exact (modPage_logFrame ..).trans (setEvt_logFrame ..)
theorem setCheck_pagesFrame (pg : PageId) (r f : Nat) : PagesFrame [pg] s (setCheck s pg r f) := by
  simp only [setCheck]; split
  · exact modPage_pagesFrame ..
  · exact (modPage_pagesFrame ..).trans (setEvt_pagesFrame ..)

end Sys2Proof.Machine
end

