-- ==== Sys2Proof/Laws/Settle.lean ====
section
/-! SUPPORT. The event interrupts after each command (R61): what settling them changes, that none is due afterwards, and that it does
nothing where none is due. -/

namespace Sys2Proof.Machine

open Safety (portRest isMsix settles)

/-- `t` differs from `s` in the armed bits, pending vectors and messages sent, at most. -/
def SettleFrame (s t : State) : Prop :=
  t = { s with ports := t.ports, out := t.out } ∧ (∀ p, portRest (port t p) = portRest (port s p))
    ∧ ∃ l, t.out = l ++ s.out ∧ l.all isMsix = true

theorem SettleFrame.refl (s : State) : SettleFrame s s := ⟨rfl, fun _ => rfl, [], rfl, rfl⟩

theorem SettleFrame.trans {s t u : State} (h : SettleFrame s t) (k : SettleFrame t u) : SettleFrame s u := by
  obtain ⟨h1, h2, l, h3, h4⟩ := h
  obtain ⟨k1, k2, m, k3, k4⟩ := k
  refine ⟨?_, fun p => (k2 p).trans (h2 p), m ++ l, by rw [k3, h3, List.append_assoc], by rw [List.all_append, h4, k4]; rfl⟩
  rw [k1, h1]

variable (s : State)

theorem modPort_settleFrame (p : Port) (f : PortSt → PortSt) (h : ∀ t, portRest (f t) = portRest t) : SettleFrame s (modPort s p f) := by
  refine ⟨rfl, fun q => ?_, [], rfl, rfl⟩
  by_cases e : q = p
  · subst e; rw [modPort_eq, port_setPort, h]
  · rw [modPort_eq, port_setPort_ne _ _ _ _ e]

theorem sendMsix_settleFrame (p : Port) (v : Nat) : SettleFrame s (sendMsix s p v) := by
  unfold sendMsix; split
  · exact modPort_settleFrame s p _ fun t => rfl
  · exact ⟨rfl, fun _ => rfl, [_], rfl, rfl⟩

theorem settlePort_settleFrame (p : Port) : SettleFrame s (settlePort s p) := by
  unfold settlePort; split
  · exact (sendMsix_settleFrame ..).trans (modPort_settleFrame _ p _ fun t => rfl)
  · exact .refl s

/-- Settling changes armed bits, pending vectors and messages sent (R61). -/
theorem settle_settleFrame : SettleFrame s (settle s) := (settlePort_settleFrame ..).trans (settlePort_settleFrame ..)

/-- Whether an interrupt is due depends on the pages, the pause, and the port. -/
theorem evtDue_congr {s t : State} (p : Port) (hp : t.pages = s.pages) (hc : t.code = s.code) (hf : t.fwu = s.fwu)
    (h : (port t p).armed = (port s p).armed ∧ (port t p).linkUp = (port s p).linkUp ∧ (port t p).d3hot = (port s p).d3hot) :
    evtDue t p = evtDue s p := by
  have hpage : ∀ q, page t q = page s q := fun q => by simp [page, hp]
  have hpe : ∀ q, pendingEvt t q = pendingEvt s q := fun q => by simp [pendingEvt, hpage]
  have hreg : ∀ q o, reg t q o = reg s q o := fun q o => by simp [reg, hpage, hc]
  have h0 : evtSum0 t = evtSum0 s := by simp [evtSum0, funext hpe]
  have ht : ∀ n, tslPending t n = tslPending s n := fun n => by simp [tslPending, hpe]
  have h1 : evtSum1 t = evtSum1 s := by simp [evtSum1, funext ht, hpe]
  simp only [evtDue, portSends, evtSelected, h0, h1, hreg, h.1, h.2.1, h.2.2, hf]

theorem settleFrame_core {s t : State} (h : SettleFrame s t) : t.pages = s.pages ∧ t.code = s.code ∧ t.fwu = s.fwu := by
  rw [h.1]; exact ⟨rfl, rfl, rfl⟩

theorem settleFrame_link {s t : State} (h : SettleFrame s t) (p : Port) :
    (port t p).linkUp = (port s p).linkUp ∧ (port t p).d3hot = (port s p).d3hot := by
  have := h.2.1 p
  constructor
  · simpa [portRest] using congrArg PortSt.linkUp this
  · simpa [portRest] using congrArg PortSt.d3hot this

/-- After it, none is due at that port. -/
theorem settlePort_not_due (p : Port) : evtDue (settlePort s p) p = false := by
  by_cases h : evtDue s p = true
  · have e : (port (settlePort s p) p).armed = false := by rw [settlePort, if_pos h, modPort_eq, port_setPort]
    simp [evtDue, e]
  · rw [settlePort, if_neg h]
    simpa using h

theorem sendMsix_port_ne (p q : Port) (v : Nat) (h : q ≠ p) : port (sendMsix s p v) q = port s q := by
  simp only [sendMsix]; split
  · exact port_setPort_ne _ _ _ _ h
  · rfl

/-- The other port is as it was. -/
theorem settlePort_port_ne (p q : Port) (h : q ≠ p) : port (settlePort s p) q = port s q := by
  simp only [settlePort]; split
  · rw [modPort_eq, port_setPort_ne _ _ _ _ h, sendMsix_port_ne _ _ _ _ h]
  · rfl

theorem settlePort_due_ne (p q : Port) (h : q ≠ p) : evtDue (settlePort s p) q = evtDue s q := by
  have f := settlePort_settleFrame s p
  have c := settleFrame_core f
  exact evtDue_congr q c.1 c.2.1 c.2.2 (by simp [settlePort_port_ne s p q h])

/-- After a command no event interrupt is due at either port (R61). -/
theorem settle_not_due (p : Port) : evtDue (settle s) p = false := by
  cases p
  · rw [settle, settlePort_due_ne _ .b .a (by decide)]
    exact settlePort_not_due ..
  · exact settlePort_not_due ..

/-- Where none is due, settling does nothing. -/
theorem settle_of_not_due (ha : evtDue s .a = false) (hb : evtDue s .b = false) : settle s = s := by
  simp [settle, settlePort, ha, hb]

/-- A command that answers through `finish` completes, and leaves the queue as it was. -/
theorem finish_next (t : State) : ∃ u, finish s t = .next u ∧ u.pending = s.pending := ⟨_, rfl, rfl⟩

/-- The next state is the effect with the event interrupts settled. -/
theorem finish_settles (u : State) : ∃ t, finish s u = .next t ∧ settles s u t := by
  obtain ⟨h1, h2, l, h3, h4⟩ := settle_settleFrame u
  refine ⟨_, rfl, ?_, h2, l, h3, h4⟩
  rw [h1]

/-- A command that answers through `finish` answers its effect. -/
theorem finish_answers (u : State) : Safety.answers (finish s u) s u := finish_settles s u

/-- The same where the operands are checked. -/
theorem finishIf_settles (ok : Bool) (u : State) (h : ok = true) : ∃ t, finishIf ok s u = .next t ∧ settles s u t := by
  subst h; exact finish_settles s u

theorem finishIf_answers (ok : Bool) (u : State) (h : ok = true) : Safety.answers (finishIf ok s u) s u := finishIf_settles s ok u h

/-- One with operands to check completes where they spell a command. -/
theorem finishIf_next (ok : Bool) (t : State) (h : ok = true) : ∃ u, finishIf ok s t = .next u ∧ u.pending = s.pending := by
  subst h; exact ⟨_, rfl, rfl⟩

/-- Where they do not, it stops. -/
theorem finishIf_fault (ok : Bool) (t : State) (h : ok = false) : finishIf ok s t = .fault .malformed := by
  subst h; rfl

end Sys2Proof.Machine
end

