-- ==== Sys2Proof/Laws/Sems.lean ====
section
/-! SUPPORT. Semaphores and freezing: what a forced release and a freeze change (R74, R78, R79). -/

namespace Sys2Proof.Machine

/-- `t` differs from `s` in semaphores, LAST_FORCED and what an event-log entry changes, at most. -/
def SemFrame (s t : State) : Prop :=
  t = { s with sems := t.sems, lastForced := t.lastForced, pages := t.pages, log := t.log, nv := t.nv, fsp := t.fsp, out := t.out }

theorem SemFrame.refl (s : State) : SemFrame s s := rfl
theorem SemFrame.trans {s t u : State} (h : SemFrame s t) (k : SemFrame t u) : SemFrame s u := by
  unfold SemFrame at *; rw [k, h]
theorem SemFrame.of_log {s t : State} (h : LogFrame s t) : SemFrame s t := by
  unfold SemFrame LogFrame at *; rw [h]

variable (s : State)

theorem setSem_semFrame (k : Nat) (x : Sem) : SemFrame s (setSem s k x) := rfl

theorem setForced_semFrame (w : Word) : SemFrame s (setForced s w) := rfl
@[simp] theorem sem_setForced (w : Word) (k : Nat) : sem (setForced s w) k = sem s k := rfl

/-- A forced release changes the semaphore, LAST_FORCED, its counter and event, and writes an entry (R74). -/
theorem forceRelease_semFrame (k cause : Nat) : SemFrame s (forceRelease s k cause) := by
  unfold forceRelease; split
  · exact .refl s
  · exact ((setSem_semFrame ..).trans (setForced_semFrame ..)).trans
      (.of_log (((count_logFrame ..).trans (setEvt_logFrame ..)).trans (logMgmt_logFrame ..)))

/-- It frees that semaphore, and no other changes. -/
theorem forceRelease_sem (k j cause : Nat) :
    sem (forceRelease s k cause) j = if j = k then { sem s k with holder := none } else sem s j := by
  have hlog : ∀ t u : State, LogFrame t u → sem u j = sem t j := fun t u h => by unfold sem; rw [h]
  unfold forceRelease; split
  · rename_i h
    split
    · subst j; rw [← h]
    · rfl
  · refine (hlog _ _ (((count_logFrame ..).trans (setEvt_logFrame ..)).trans (logMgmt_logFrame ..))).trans ?_
    show sem (setSem s k _) j = _
    split
    · subst j; exact sem_setSem ..
    · exact sem_setSem_ne _ _ _ _ ‹_›

theorem forceReleaseAll_semFrame (m : Master) (cause : Nat) : SemFrame s (forceReleaseAll s m cause) := by
  unfold forceReleaseAll
  generalize List.range 32 = l
  induction l generalizing s with
  | nil => exact .refl s
  | cons k r ih =>
    refine SemFrame.trans ?_ (ih _)
    dsimp only
    split
    · exact forceRelease_semFrame ..
    · exact .refl s

/-- After it the master holds none of the 32, and no other master's hold changes. -/
theorem forceReleaseAll_sem (m : Master) (cause j : Nat) (hj : j < 32) :
    sem (forceReleaseAll s m cause) j = if (sem s j).holder = some m then { sem s j with holder := none } else sem s j := by
  have go : ∀ (l : List Nat) (s : State), l.Nodup →
      sem (l.foldl (fun s k => if (sem s k).holder = some m then forceRelease s k cause else s) s) j
        = if j ∈ l ∧ (sem s j).holder = some m then { sem s j with holder := none } else sem s j := by
    intro l
    induction l with
    | nil => intro s _; simp
    | cons k r ih =>
      intro s hn
      rw [List.nodup_cons] at hn
      rw [List.foldl_cons, ih _ hn.2]
      by_cases hk : (sem s k).holder = some m
      · simp only [hk, if_true, forceRelease_sem]
        by_cases e : j = k
        · subst e; simp [hn.1, hk]
        · simp [e]
      · simp only [hk, if_false]
        by_cases e : j = k
        · subst e; simp [hn.1, hk]
        · simp [e]
  rw [forceReleaseAll, go _ _ List.nodup_range]
  simp [hj]

/-- What a master has of its own, once its freeze is recorded (R79). -/
theorem markFrozen_mst (m m' : Master) (cause semNo addr : Nat) :
    mst (markFrozen s m cause semNo addr) m' = if m' = m then { mst s m with
      frozen := true, cause := BitVec.ofNat 8 cause, sem := BitVec.ofNat 6 semNo, addr := addr } else mst s m' := by
  have hf : ∀ t u : State, SemFrame t u → mst u m' = mst t m' := fun t u h => by unfold mst; rw [h]
  unfold markFrozen
  rw [hf _ _ (forceReleaseAll_semFrame ..), hf _ _ (.of_log (logMgmt_logFrame ..)), hf _ _ (.of_log (setEvt_logFrame ..)),
    modMst_eq]
  split
  · subst m'; exact mst_setMst ..
  · exact mst_setMst_ne _ _ _ _ ‹_›

/-- It holds no semaphore any more, and every other hold stands (R78). -/
theorem markFrozen_sem (m : Master) (cause semNo addr j : Nat) (hj : j < 32) :
    sem (markFrozen s m cause semNo addr) j
      = if (sem s j).holder = some m then { sem s j with holder := none } else sem s j := by
  have hf : ∀ t u : State, LogFrame t u → sem u j = sem t j := fun t u h => by unfold sem; rw [h]
  unfold markFrozen
  rw [forceReleaseAll_sem _ _ _ _ hj, hf _ _ (logMgmt_logFrame ..), hf _ _ (setEvt_logFrame ..)]
  rfl

theorem markFrozen_cmds (m : Master) (cause semNo addr : Nat) : (markFrozen s m cause semNo addr).cmds = s.cmds := by
  have hf : ∀ t u : State, SemFrame t u → u.cmds = t.cmds := fun t u h => by rw [h]
  unfold markFrozen
  rw [hf _ _ (forceReleaseAll_semFrame ..), hf _ _ (.of_log (logMgmt_logFrame ..)), hf _ _ (.of_log (setEvt_logFrame ..))]
  rfl

theorem markFrozen_vols (m : Master) (cause semNo addr : Nat) : (markFrozen s m cause semNo addr).vols = s.vols := by
  have hf : ∀ t u : State, SemFrame t u → u.vols = t.vols := fun t u h => by rw [h]
  unfold markFrozen
  rw [hf _ _ (forceReleaseAll_semFrame ..), hf _ _ (.of_log (logMgmt_logFrame ..)), hf _ _ (.of_log (setEvt_logFrame ..))]
  rfl

/-- Withdrawing a wait changes the wait lists and whether the master waits. -/
theorem withdrawWait_mst (m m' : Master) : mst (withdrawWait s m) m'
    = if m' = m then { mst s m with waitPending := false } else mst s m' := by
  unfold withdrawWait; split
  · simp only [modMst_eq]
    split
    · subst m'; exact mst_setMst ..
    · exact mst_setMst_ne _ _ _ _ ‹_›
  · rename_i h
    split
    · subst m'
      have : (mst s m).waitPending = false := by simpa using h
      rw [← this]
    · rfl

theorem withdrawWait_rest (m : Master) : (withdrawWait s m).cmds = s.cmds ∧ (withdrawWait s m).sems = s.sems := by
  unfold withdrawWait; split <;> exact ⟨rfl, rfl⟩

theorem withdrawWait_vols (m : Master) : (withdrawWait s m).vols = s.vols := by
  unfold withdrawWait; split <;> rfl

/-- Which WRITEs wait for segment data rests on the commands and the volumes alone. -/
theorem waiting_congr {s t : State} (hc : t.cmds = s.cmds) (hv : t.vols = s.vols) (p : Port) :
    (liveCmds t fun i c => c.port == p && waitsData t i c) = liveCmds s fun i c => c.port == p && waitsData s i c := by
  simp only [liveCmds, waitsData, vol, hc, hv]

end Sys2Proof.Machine
end

