-- ==== Sys2Proof/Laws/Pool.lean ====
section
/-! SUPPORT. The buffer pool: what releasing slots leaves as it was (R187, R189, R190). -/

namespace Sys2Proof.Machine

variable (s : State)

/-- Semaphores, owners and every master's freeze are as they were. -/
def HoldsFrame (s t : State) : Prop :=
  t.sems = s.sems ∧ t.owners = s.owners ∧ ∀ m, (mst t m).frozen = (mst s m).frozen

theorem HoldsFrame.refl : HoldsFrame s s := ⟨rfl, rfl, fun _ => rfl⟩
theorem HoldsFrame.trans {s t u : State} (h : HoldsFrame s t) (k : HoldsFrame t u) : HoldsFrame s u :=
  ⟨k.1.trans h.1, k.2.1.trans h.2.1, fun m => (k.2.2 m).trans (h.2.2 m)⟩
theorem HoldsFrame.of_log {s t : State} (h : LogFrame s t) : HoldsFrame s t := by
  rw [h]; exact ⟨rfl, rfl, fun _ => rfl⟩

theorem modMst_holdsFrame (m : Master) (f : MasterSt → MasterSt) (h : ∀ x, (f x).frozen = x.frozen) : HoldsFrame s (modMst s m f) := by
  refine ⟨rfl, rfl, fun k => ?_⟩
  by_cases e : k = m
  · subst e; rw [modMst_eq, mst_setMst, h]
  · rw [modMst_eq, mst_setMst_ne _ _ _ _ e]

theorem modPool_holdsFrame (f : PoolSt → PoolSt) : HoldsFrame s (modPool s f) := ⟨rfl, rfl, fun _ => rfl⟩

/-! ### Faults of the buffer memory -/

/-- `t` differs from `s` in the memory, the pool and what logging can change, at most (R173 to R176). -/
def FaultFrame (s t : State) : Prop :=
  t = { s with pages := t.pages, log := t.log, nv := t.nv, fsp := t.fsp, out := t.out, mem := t.mem, pool := t.pool }

theorem FaultFrame.refl : FaultFrame s s := rfl

theorem FaultFrame.trans {s t u : State} (h : FaultFrame s t) (k : FaultFrame t u) : FaultFrame s u := by
  unfold FaultFrame at *
  rw [k]
  rw [h]

theorem FaultFrame.of_log {s t : State} (h : LogFrame s t) : FaultFrame s t := by
  unfold LogFrame at h; unfold FaultFrame
  rw [h]

theorem FaultFrame.foldl {α : Type} {f : State → α → State} (h : ∀ s a, FaultFrame s (f s a)) (l : List α) (s : State) :
    FaultFrame s (l.foldl f s) := by
  induction l generalizing s with
  | nil => exact .refl s
  | cons a r ih => exact (h s a).trans (ih _)

theorem FaultFrame.holds {s t : State} (h : FaultFrame s t) : HoldsFrame s t := by
  unfold FaultFrame at h
  rw [h]; exact ⟨rfl, rfl, fun _ => rfl⟩

theorem modPool_faultFrame (f : PoolSt → PoolSt) : FaultFrame s (modPool s f) := rfl
theorem modMem_faultFrame (f : MemSt → MemSt) : FaultFrame s (modMem s f) := rfl
theorem setMeta_faultFrame (a : Nat) (x : SlotMeta) : FaultFrame s (setMeta s a x) := rfl

theorem memFault_logFrame (k a r : Nat) : LogFrame s (memFault s k a r) := by
  have h : LogFrame s (setReg64 s .mem 0x108 (a + 2 ^ 36 * r + 2 ^ 42 * k)) := rfl
  simp only [memFault]
  generalize setReg64 s .mem 0x108 _ = t at *
  split
  · exact h.trans (count_logFrame ..)
  · exact h.trans (count_logFrame ..)
  · exact (h.trans (count_logFrame ..)).trans (raise_logFrame ..)
  · exact (h.trans (count_logFrame ..)).trans (raise_logFrame ..)

theorem sramHard_faultFrame (f : SramFault) : FaultFrame s (sramHard s f) := by
  have mem : ∀ t f, FaultFrame s t → FaultFrame s (modMem t f) := fun t f h => h.trans (modMem_faultFrame t f)
  have log : ∀ t u, LogFrame t u → FaultFrame s t → FaultFrame s u := fun t u h k => k.trans (.of_log h)
  simp only [sramHard]
  repeat' split
  all_goals
    repeat first
      | exact .refl s
      | refine log _ _ (raise_logFrame ..) ?_
      | refine log _ _ (count_logFrame ..) ?_
      | refine mem _ _ ?_

theorem setReg64_logFrame (p : PageId) (o v : Nat) : LogFrame s (setReg64 s p o v) := rfl

theorem sramFault_faultFrame (k : Nat) (f : SramFault) (r : Nat) : FaultFrame s (sramFault s k f r) := by
  unfold sramFault
  exact .trans (.of_log (memFault_logFrame ..)) (.of_log (setReg64_logFrame ..))

/-- A fault of an on-die SRAM changes the memory's records and what logging can change, at most (R164, R167). -/
theorem sramMet_faultFrame (f : SramFault) (r : Nat) : FaultFrame s (sramMet s f r) := by
  simp only [sramMet]; split
  · exact ((sramFault_faultFrame ..).trans (sramFault_faultFrame ..)).trans (sramHard_faultFrame ..)
  · exact sramFault_faultFrame ..

theorem sramHit_faultFrame (f : Option SramFault) (r : Nat) : FaultFrame s (sramHit s f r).1 := by
  cases f with
  | none => exact .refl s
  | some f => exact sramMet_faultFrame ..

theorem markShort_faultFrame (p n : Nat) : FaultFrame s (markShort s p n) := by
  unfold markShort; split
  · exact modPool_faultFrame ..
  · exact .refl s

theorem poolGone_faultFrame (a : Nat) : FaultFrame s (poolGone s a) :=
  (modPool_faultFrame s _).trans (.of_log (deviceFault_logFrame ..))

theorem loseCopy_faultFrame (p a : Nat) : FaultFrame s (loseCopy s p a) := by
  simp only [loseCopy]
  have h : FaultFrame s (raise (modPool s fun t => { t with copyLost := ((a - poolBase s p) / 32) :: t.copyLost }) .pool 13 a) :=
    (modPool_faultFrame s _).trans (.of_log (raise_logFrame ..))
  split
  · exact h.trans (poolGone_faultFrame ..)
  · exact h

theorem leaveReservation_faultFrame (p a : Nat) (fl : Option (Nat × Bool)) : FaultFrame s (leaveReservation s p a fl) := by
  unfold leaveReservation; split
  · exact (modPool_faultFrame s _).trans (markShort_faultFrame ..)
  · refine .foldl (fun t n => ?_) _ _
    split
    · exact (modPool_faultFrame t _).trans (markShort_faultFrame ..)
    · exact .refl t

theorem chargeRetired_faultFrame (p n : Nat) : FaultFrame s (chargeRetired s p n) := rfl

theorem retireFree_faultFrame (p i a : Nat) : FaultFrame s (retireFree s p i a) := by
  unfold retireFree; split
  · exact (setMeta_faultFrame s _ _).trans (chargeRetired_faultFrame ..)
  · dsimp only
    have h : FaultFrame s (if setAside s p i a then leaveReservation s p a (floorOf s p i) else s) := by
      split
      · exact leaveReservation_faultFrame ..
      · exact .refl s
    generalize (if setAside s p i a then leaveReservation s p a (floorOf s p i) else s) = t at *
    have k := setMeta_faultFrame t a { slotMeta s a with st := .retired }
    generalize setMeta t a _ = u at *
    have c := count_logFrame u .pool 4 1
    generalize count u .pool 4 1 = w at *
    exact (h.trans k).trans (.of_log (c.trans (raise_logFrame ..)))

theorem retireSlotAt_faultFrame (a : Nat) : FaultFrame s (retireSlotAt s a) := by
  unfold retireSlotAt; split
  · exact .refl s
  · rename_i p i _
    split
    · exact loseCopy_faultFrame ..
    · dsimp only; split
      · exact retireFree_faultFrame ..
      · refine (setMeta_faultFrame s _ _).trans (.foldl (f := fun t n => if isHolder (slotMeta s _) (3 + n) then chargeRetired t p n else t)
          (fun t n => ?_) _ _)
        split
        · exact chargeRetired_faultFrame ..
        · exact .refl t
      · exact .refl s

theorem hardFault_faultFrame (b r : Nat) : FaultFrame s (hardFault s b r) := by
  simp only [hardFault]
  have h : FaultFrame s (memFault s 3 (32 * b) r) := .of_log (memFault_logFrame ..)
  generalize memFault s 3 (32 * b) r = t at *
  split
  · split
    · exact (h.trans (modMem_faultFrame t _)).trans (.of_log (raise_logFrame ..))
    · exact h.trans (modMem_faultFrame t _)
  · split
    · split
      · exact (h.trans (modMem_faultFrame t _)).trans (retireSlotAt_faultFrame ..)
      · exact h.trans (modMem_faultFrame t _)
    · exact h.trans (.of_log ((deviceFault_logFrame ..).trans (raise_logFrame ..)))

theorem testsDue_faultFrame (a n r : Nat) : FaultFrame s (testsDue s a n r) :=
  .foldl (fun t _ => (modMem_faultFrame t _).trans (hardFault_faultFrame ..)) _ _

/-- Reading the metadata of a slot changes the memory, the pool and what logging can change, at most (R176). -/
theorem metaRead_faultFrame (p i : Nat) : FaultFrame s (metaRead s p i) := by
  simp only [metaRead]
  generalize metaBlock s p i = b
  split
  · exact .refl s
  · have h : FaultFrame s (if s.mem.bad.contains b then memFault s 2 (32 * b) 35 else s) := by
      split
      · exact .of_log (memFault_logFrame ..)
      · exact .refl s
    generalize (if s.mem.bad.contains b then memFault s 2 (32 * b) 35 else s) = t at *
    split
    · exact h.trans (poolGone_faultFrame ..)
    · split
      · exact h
      · exact (h.trans (modMem_faultFrame t _)).trans (testsDue_faultFrame ..)

theorem metaAt_faultFrame (a : Nat) : FaultFrame s (metaAt s a) := by
  unfold metaAt; split
  · exact metaRead_faultFrame ..
  · exact .refl s

/-! ### Slots -/

theorem setMeta_holdsFrame (a : Nat) (x : SlotMeta) : HoldsFrame s (setMeta s a x) := ⟨rfl, rfl, fun _ => rfl⟩
theorem setWaits_holdsFrame (p : Nat) (l : List Waiter) : HoldsFrame s (setWaits s p l) := ⟨rfl, rfl, fun _ => rfl⟩
theorem modCmd_holdsFrame (c : Nat) (f : Cmd → Cmd) : HoldsFrame s (modCmd s c f) := ⟨rfl, rfl, fun _ => rfl⟩

theorem takeSlot_holdsFrame (a r : Nat) : HoldsFrame s (takeSlot s a r) := by
  simp only [takeSlot]
  have h := (metaAt_faultFrame s a).holds
  generalize metaAt s a = u at *
  generalize SlotMeta.mk _ _ _ _ _ _ _ _ _ _ = x
  have k := setMeta_holdsFrame u a x
  generalize setMeta u a x = t at *
  exact (h.trans k).trans (.of_log (count_logFrame ..))

theorem takeSlot_faultFrame (a r : Nat) : FaultFrame s (takeSlot s a r) := by
  unfold takeSlot
  exact ((metaAt_faultFrame s a).trans (modPool_faultFrame _ _)).trans (.of_log (count_logFrame ..))

theorem takeReserved_faultFrame (p n a : Nat) : FaultFrame s (takeReserved s p n a) :=
  (modPool_faultFrame s _).trans (takeSlot_faultFrame ..)

theorem takeGeneral_faultFrame (p r k : Nat) : FaultFrame s (takeGeneral s p r k).1 := by
  induction k generalizing s with
  | zero => exact .refl s
  | succ k ih =>
    simp only [takeGeneral]; split
    · exact .refl s
    · exact (takeSlot_faultFrame ..).trans (ih _)

/-- Taking slots for a segment changes the pool and its records only (R195). -/
theorem segSlots_faultFrame (n : Nat) (g : Seg) (t : State) (la lb : List Nat) (h : segSlots s n g = some (t, la, lb)) :
    FaultFrame s t := by
  unfold segSlots at h
  generalize segNeeds g = k at h
  obtain ⟨a, b⟩ := k
  dsimp only at h
  split at h
  · generalize (resSlots s 4 n).take a = la' at h
    generalize (resSlots s 2 n).take b = lb' at h
    have h4 := FaultFrame.foldl (fun s x => takeReserved_faultFrame s 4 n x) la' s
    generalize la'.foldl (fun s x => takeReserved s 4 n x) s = u at h h4
    have h2 := FaultFrame.foldl (fun s x => takeReserved_faultFrame s 2 n x) lb' u
    generalize lb'.foldl (fun s x => takeReserved s 2 n x) u = w at h h2
    have e : markShort (markShort w 4 n) 2 n = t := congrArg (·.1) (Option.some.inj h)
    rw [← e]
    exact ((h4.trans h2).trans (markShort_faultFrame ..)).trans (markShort_faultFrame ..)
  · split at h
    · have h4 := takeGeneral_faultFrame s 4 (3 + n) a
      generalize takeGeneral s 4 (3 + n) a = u at h h4
      have h2 := takeGeneral_faultFrame u.1 2 (3 + n) b
      generalize takeGeneral u.1 2 (3 + n) b = w at h h2
      have e : w.1 = t := congrArg (·.1) (Option.some.inj h)
      rw [← e]
      exact h4.trans h2
    · cases h

theorem segSlots_cmd (n : Nat) (g : Seg) (cid : Nat) (t : State) (la lb : List Nat) (h : segSlots s n g = some (t, la, lb)) :
    cmd t cid = cmd s cid := by
  rw [segSlots_faultFrame s n g t la lb h]; rfl

theorem giveFloor_holdsFrame (p i n a : Nat) : HoldsFrame s (giveFloor s p i n a) := modPool_holdsFrame ..
theorem endShort_holdsFrame (p n : Nat) (r : List Nat) : HoldsFrame s (endShort s p n r) := by
  unfold endShort; split
  · exact modPool_holdsFrame ..
  · exact .refl s
theorem poolResult_holdsFrame (m : Master) (r op : Nat) : HoldsFrame s (poolResult s m r op) := modMst_holdsFrame _ _ _ fun _ => rfl
theorem grantWait_holdsFrame (m : Master) (a : Nat) : HoldsFrame s (grantWait s m a) := by
  have h := modMst_holdsFrame s m (fun x => { x with waitPending := false, waitGranted := true, waitPtr := w64 a }) fun _ => rfl
  unfold grantWait
  generalize modMst s m _ = t at *
  have k := poolResult_holdsFrame t m 3 2
  generalize poolResult t m 3 2 = u at *
  exact (h.trans k).trans (.of_log (raise_logFrame ..))

/-- Handing a slot out changes the pool, waits and working slots (R189). -/
theorem handOut_holdsFrame (a : Nat) : HoldsFrame s (handOut s a) := by
  delta handOut
  cases slotOf s a with
  | none => exact .refl s
  | some x =>
    obtain ⟨p, i⟩ := x
    dsimp only
    cases tget s.pool.short p [] with
    | cons n rest => exact (giveFloor_holdsFrame ..).trans (endShort_holdsFrame ..)
    | nil =>
      dsimp only
      cases waitList s p with
      | nil => exact .refl s
      | cons w rest =>
        have h : ∀ r, HoldsFrame s (takeSlot (setWaits s p rest) a r) := fun r =>
          (setWaits_holdsFrame s p rest).trans (takeSlot_holdsFrame _ a r)
        cases w with
        | master m => exact (h _).trans (grantWait_holdsFrame ..)
        | job cid r => exact (h _).trans (modCmd_holdsFrame ..)

theorem emptySlot_holdsFrame (a : Nat) : HoldsFrame s (emptySlot s a) := by
  simp only [emptySlot]; split
  · exact (setMeta_holdsFrame ..).trans (.of_log ((count_logFrame ..).trans (raise_logFrame ..)))
  · exact (setMeta_holdsFrame ..).trans (handOut_holdsFrame ..)

theorem letGo_holdsFrame (a r : Nat) : HoldsFrame s (letGo s a r) := by
  unfold letGo; split
  · simp only [releaseSlot]
    have h := (metaAt_faultFrame s a).holds
    generalize metaAt s a = u at *
    split
    · exact (h.trans (setMeta_holdsFrame ..)).trans (emptySlot_holdsFrame ..)
    · exact h.trans (setMeta_holdsFrame ..)
  · exact .refl s

theorem HoldsFrame.foldl {α : Type} {f : State → α → State} (h : ∀ s a, HoldsFrame s (f s a)) (l : List α) (s : State) :
    HoldsFrame s (l.foldl f s) := by
  induction l generalizing s with
  | nil => exact .refl s
  | cons a r ih => exact (h s a).trans (ih _)

theorem withdrawWait_holdsFrame (m : Master) : HoldsFrame s (withdrawWait s m) := by
  unfold withdrawWait; split
  · exact (setWaits_holdsFrame ..).trans (modMst_holdsFrame _ _ _ fun _ => rfl)
  · exact .refl s

/-- Releasing every slot of a master leaves semaphores, owners and freezes as they were (R190). -/
theorem releaseAll_holdsFrame (m : Master) : HoldsFrame s (releaseAll s m) :=
  (withdrawWait_holdsFrame ..).trans (.foldl (fun _ _ => letGo_holdsFrame ..) _ _)

theorem mem_insertNat (a b : Nat) (l : List Nat) : b ∈ insertNat a l ↔ b = a ∨ b ∈ l := by
  induction l with
  | nil => simp [insertNat]
  | cons c l ih =>
    simp only [insertNat]; split
    · simp
    · rw [List.mem_cons, ih, List.mem_cons]
      constructor
      · rintro (h | h | h) <;> simp [h]
      · rintro (h | h | h) <;> simp [h]

/-- Sorting keeps the members. -/
theorem mem_sortNat (b : Nat) (l : List Nat) : b ∈ sortNat l ↔ b ∈ l := by
  unfold sortNat
  induction l with
  | nil => simp
  | cons c l ih => rw [List.foldr_cons, mem_insertNat, ih, List.mem_cons]

/-- The metadata that is set is read. -/
theorem slotMeta_setMeta (a : Nat) (x : SlotMeta) : slotMeta (setMeta s a x) a = x := tget_tput_same ..

theorem slotMeta_setMeta_ne (a b : Nat) (x : SlotMeta) (h : b ≠ a) : slotMeta (setMeta s a x) b = slotMeta s b := tget_tput_ne _ _ _ _ _ h

end Sys2Proof.Machine
end

