-- ==== Sys2Proof/Laws/Memory.lean ====
section
/-! SUPPORT. The buffer and the cells of the NV array as lists of bytes: every operation keeps the canonical form, what is read after
a write, and what a write into the buffer leaves as it was (R166, R170). -/

namespace Sys2Proof.Machine

variable (d : Byte)

/-- The canonical form, said of all pairs at once. -/
def Memory.Canon (m : List (Nat × Byte)) : Prop := m.Pairwise (fun a b => a.1 < b.1) ∧ ∀ c ∈ m, c.2 ≠ d

theorem Memory.sorted_iff (m : List (Nat × Byte)) : Memory.sorted d m = true ↔ Memory.Canon d m := by
  induction m with
  | nil => simp [Memory.sorted, Memory.Canon]
  | cons c r ih =>
    cases r with
    | nil => simp [Memory.sorted, Memory.Canon]
    | cons e r =>
      simp only [Memory.sorted, Bool.and_eq_true, bne_iff_ne, decide_eq_true_eq, ih, Memory.Canon, List.pairwise_cons, List.mem_cons,
        forall_eq_or_imp]
      constructor
      · rintro ⟨⟨h1, h2⟩, ⟨h3, h4⟩, h5⟩
        exact ⟨⟨⟨h2, fun a h => Nat.lt_trans h2 (h3 a h)⟩, h3, h4⟩, h1, h5⟩
      · rintro ⟨⟨⟨h2, _⟩, h3, h4⟩, h1, h5⟩
        exact ⟨⟨h1, h2⟩, ⟨h3, h4⟩, h5⟩

/-- Addresses and values of the cells that bytes make. -/
theorem Memory.mem_cells (bs : List Byte) (a : Nat) (c : Nat × Byte) (h : c ∈ Memory.cells d a bs) :
    a ≤ c.1 ∧ c.1 < a + bs.length ∧ c.2 ≠ d := by
  induction bs generalizing a with
  | nil => cases h
  | cons b r ih =>
    rw [Memory.cells] at h
    split at h
    · have := ih _ h; rw [List.length_cons]; exact ⟨by omega, by omega, this.2.2⟩
    · rcases List.mem_cons.mp h with h | h
      · subst h; rw [List.length_cons]; exact ⟨Nat.le_refl _, by simp only; omega, ‹_›⟩
      · have := ih _ h; rw [List.length_cons]; exact ⟨by omega, by omega, this.2.2⟩

theorem Memory.cells_canon (bs : List Byte) (a : Nat) : Memory.Canon d (Memory.cells d a bs) := by
  refine ⟨?_, fun c h => (Memory.mem_cells d bs a c h).2.2⟩
  induction bs generalizing a with
  | nil => exact .nil
  | cons b r ih =>
    rw [Memory.cells]
    split
    · exact ih _
    · exact List.pairwise_cons.mpr ⟨fun c h => by have := Memory.mem_cells d r _ c h; simp only; omega, ih _⟩

/-- A filter keeps the canonical form. -/
theorem Memory.filter_canon (m : List (Nat × Byte)) (p : Nat × Byte → Bool) (h : Memory.Canon d m) : Memory.Canon d (m.filter p) :=
  ⟨h.1.filter _, fun c hc => h.2 c (List.mem_filter.mp hc).1⟩

/-- A write keeps the canonical form. -/
theorem Memory.put_canon (m : List (Nat × Byte)) (a : Nat) (bs : List Byte) (h : Memory.Canon d m) :
    Memory.Canon d (Memory.put d m a bs) := by
  have h1 := Memory.filter_canon d m (fun c => c.1 < a) h
  have h2 := Memory.filter_canon d m (fun c => a + bs.length ≤ c.1) h
  have h3 := Memory.cells_canon d bs a
  refine ⟨?_, fun c hc => ?_⟩
  · rw [Memory.put, List.pairwise_append, List.pairwise_append]
    refine ⟨⟨h1.1, h3.1, fun x hx y hy => ?_⟩, h2.1, fun x hx y hy => ?_⟩
    · have e := (List.mem_filter.mp hx).2
      have := Memory.mem_cells d bs a y hy
      simp only [decide_eq_true_eq] at e; omega
    · have e := (List.mem_filter.mp hy).2
      simp only [decide_eq_true_eq] at e
      rcases List.mem_append.mp hx with hx | hx
      · have e' := (List.mem_filter.mp hx).2
        simp only [decide_eq_true_eq] at e'; omega
      · have := Memory.mem_cells d bs a x hx; omega
  · rcases List.mem_append.mp hc with hc | hc
    · rcases List.mem_append.mp hc with hc | hc
      · exact h1.2 c hc
      · exact h3.2 c hc
    · exact h2.2 c hc

/-- Every write of the buffer keeps its canonical form. -/
theorem Memory.put_wf (m : List (Nat × Byte)) (a : Nat) (bs : List Byte) (h : Memory.wf m = true) :
    Memory.wf (Memory.put ramDefault m a bs) = true :=
  (Memory.sorted_iff _ _).mpr (Memory.put_canon _ _ _ _ ((Memory.sorted_iff _ _).mp h))

/-- Filling with the default keeps it. -/
theorem Memory.clear_wf (m : List (Nat × Byte)) (a n : Nat) (h : Memory.wf m = true) : Memory.wf (Memory.clear m a n) = true :=
  (Memory.sorted_iff _ _).mpr (Memory.filter_canon _ _ _ ((Memory.sorted_iff _ _).mp h))

/-- The same of the cells of the NV array. -/
theorem Memory.put_sorted (m : List (Nat × Byte)) (a : Nat) (bs : List Byte) (h : Memory.sorted d m = true) :
    Memory.sorted d (Memory.put d m a bs) = true :=
  (Memory.sorted_iff _ _).mpr (Memory.put_canon _ _ _ _ ((Memory.sorted_iff _ _).mp h))
theorem Memory.clear_sorted (m : List (Nat × Byte)) (a n : Nat) (h : Memory.sorted d m = true) :
    Memory.sorted d (Memory.clear m a n) = true :=
  (Memory.sorted_iff _ _).mpr (Memory.filter_canon _ _ _ ((Memory.sorted_iff _ _).mp h))

/-- No cell at `a`: it reads as the default. -/
theorem Memory.get_none (m : List (Nat × Byte)) (a : Nat) (h : ∀ c ∈ m, c.1 ≠ a) : Memory.get d m a = d := by
  induction m with
  | nil => rfl
  | cons c r ih =>
    rw [Memory.get, if_neg (h c List.mem_cons_self)]; exact ih fun x hx => h x (List.mem_cons_of_mem _ hx)

theorem Memory.get_append_right (l r : List (Nat × Byte)) (a : Nat) (h : ∀ c ∈ l, c.1 ≠ a) :
    Memory.get d (l ++ r) a = Memory.get d r a := by
  induction l with
  | nil => rfl
  | cons c l ih =>
    rw [List.cons_append, Memory.get, if_neg (h c List.mem_cons_self)]; exact ih fun x hx => h x (List.mem_cons_of_mem _ hx)

theorem Memory.get_append_left (l r : List (Nat × Byte)) (a : Nat) (h : ∀ c ∈ r, c.1 ≠ a) :
    Memory.get d (l ++ r) a = Memory.get d l a := by
  induction l with
  | nil => exact Memory.get_none d r a h
  | cons c l ih => rw [List.cons_append, Memory.get, Memory.get, ih]

/-- A filter by address. -/
theorem Memory.get_filter (m : List (Nat × Byte)) (p : Nat → Bool) (a : Nat) :
    Memory.get d (m.filter fun c => p c.1) a = if p a then Memory.get d m a else d := by
  induction m with
  | nil => simp [Memory.get]
  | cons c r ih =>
    by_cases hp : p c.1 = true
    · rw [List.filter_cons_of_pos (by simpa using hp), Memory.get, Memory.get, ih]
      by_cases e : c.1 = a
      · subst e; simp [hp]
      · simp [e]
    · rw [List.filter_cons_of_neg (by simpa using hp), ih, Memory.get]
      by_cases e : c.1 = a
      · subst e; simp [hp]
      · simp [e]

theorem Memory.get_cells (bs : List Byte) (b a : Nat) :
    Memory.get d (Memory.cells d b bs) a = if b ≤ a ∧ a < b + bs.length then bs.getD (a - b) d else d := by
  induction bs generalizing b with
  | nil => rw [if_neg (by simp)]; rfl
  | cons x r ih =>
    simp only [Memory.cells]
    by_cases e : b = a
    · subst e
      have hr : b ≤ b ∧ b < b + (x :: r).length := ⟨Nat.le_refl _, by rw [List.length_cons]; omega⟩
      rw [Nat.sub_self]
      by_cases hx : x = d
      · rw [if_pos hx, ih, if_neg (by omega), if_pos hr]; exact hx.symm
      · rw [if_neg hx, if_pos hr]; simp [Memory.get]
    · have step : Memory.get d (Memory.cells d (b + 1) r) a = if b ≤ a ∧ a < b + (x :: r).length then (x :: r).getD (a - b) d else d := by
        rw [ih, List.length_cons]
        by_cases h : b ≤ a ∧ a < b + (r.length + 1)
        · rw [if_pos h, if_pos (by omega)]
          obtain ⟨k, hk⟩ : ∃ k, a - b = k + 1 := ⟨a - b - 1, by omega⟩
          rw [hk, List.getD_cons_succ]; congr 1; omega
        · rw [if_neg h, if_neg (by omega)]
      split
      · exact step
      · simp only [Memory.get]; rw [if_neg e]; exact step

/-- What is read after a write: the bytes written, and every other byte as before. -/
theorem Memory.get_put (m : List (Nat × Byte)) (b a : Nat) (bs : List Byte) :
    Memory.get d (Memory.put d m b bs) a = if b ≤ a ∧ a < b + bs.length then bs.getD (a - b) d else Memory.get d m a := by
  rw [Memory.put]
  by_cases h1 : a < b
  · rw [Memory.get_append_left, Memory.get_append_left, Memory.get_filter d m (fun x => x < b)]
    · rw [if_pos (by simpa using h1), if_neg (by omega)]
    · intro c hc; have := Memory.mem_cells d bs b c hc; omega
    · intro c hc; have := (List.mem_filter.mp hc).2; simp only [decide_eq_true_eq] at this; omega
  · by_cases h2 : a < b + bs.length
    · rw [Memory.get_append_left, Memory.get_append_right, Memory.get_cells]
      · simp only [show b ≤ a by omega, h2, and_self, if_true]
      · intro c hc; have := (List.mem_filter.mp hc).2; simp only [decide_eq_true_eq] at this; omega
      · intro c hc; have := (List.mem_filter.mp hc).2; simp only [decide_eq_true_eq] at this; omega
    · rw [Memory.get_append_right, Memory.get_filter d m (fun x => b + bs.length ≤ x)]
      · rw [if_pos (by simpa using h2), if_neg (by omega)]
      · intro c hc
        rcases List.mem_append.mp hc with hc | hc
        · have := (List.mem_filter.mp hc).2; simp only [decide_eq_true_eq] at this; omega
        · have := Memory.mem_cells d bs b c hc; omega

/-- What is read after filling with the default. -/
theorem Memory.get_clear (m : List (Nat × Byte)) (b n a : Nat) :
    Memory.get d (Memory.clear m b n) a = if b ≤ a ∧ a < b + n then d else Memory.get d m a := by
  rw [Memory.clear, Memory.get_filter d m (fun x => x < b || b + n ≤ x)]
  by_cases h : b ≤ a ∧ a < b + n
  · rw [if_pos h, if_neg (by simp; omega)]
  · rw [if_neg h, if_pos (by simp; omega)]

/-! ### The buffer in the state -/

variable (s : State)

theorem memFault_ram (k a r : Nat) : (memFault s k a r).mem.ram = s.mem.ram := by
  have h : LogFrame s (memFault s k a r) := by
    unfold memFault
    have h0 : LogFrame s (setReg64 s .mem 0x108 (a + 2 ^ 36 * r + 2 ^ 42 * k)) := rfl
    dsimp only
    split
    · exact h0.trans (count_logFrame ..)
    · exact h0.trans (count_logFrame ..)
    · exact (h0.trans (count_logFrame ..)).trans (raise_logFrame ..)
    · exact (h0.trans (count_logFrame ..)).trans (raise_logFrame ..)
  rw [h]

theorem ram_of_log {s t : State} (h : LogFrame s t) : t.mem.ram = s.mem.ram := by rw [h]

theorem markShort_ram (p n : Nat) : (markShort s p n).mem.ram = s.mem.ram := by unfold markShort; split <;> rfl

theorem ram_foldl {α : Type} {f : State → α → State} (h : ∀ s a, (f s a).mem.ram = s.mem.ram) (l : List α) (s : State) :
    (l.foldl f s).mem.ram = s.mem.ram := by
  induction l generalizing s with
  | nil => rfl
  | cons a r ih => rw [List.foldl_cons, ih, h]

theorem loseCopy_ram (p a : Nat) : (loseCopy s p a).mem.ram = s.mem.ram := by
  simp only [loseCopy]
  split
  · rw [poolGone, ram_of_log (deviceFault_logFrame ..)]
    show (raise _ .pool 13 a).mem.ram = _
    rw [ram_of_log (raise_logFrame ..)]; rfl
  · rw [ram_of_log (raise_logFrame ..)]; rfl

theorem leaveReservation_ram (p a : Nat) (fl : Option (Nat × Bool)) : (leaveReservation s p a fl).mem.ram = s.mem.ram := by
  unfold leaveReservation
  split
  · rw [markShort_ram]; rfl
  · refine ram_foldl (fun t n => ?_) _ _
    split
    · rw [markShort_ram]; rfl
    · rfl

theorem retireFree_ram (p i a : Nat) : (retireFree s p i a).mem.ram = s.mem.ram := by
  delta retireFree
  dsimp only
  split
  · rfl
  · rw [ram_of_log (raise_logFrame ..), ram_of_log (count_logFrame ..)]
    split
    · exact leaveReservation_ram ..
    · rfl

/-- Retiring a slot changes no byte of the buffer (R175). -/
theorem retireSlotAt_ram (a : Nat) : (retireSlotAt s a).mem.ram = s.mem.ram := by
  delta retireSlotAt
  cases slotOf s a with
  | none => rfl
  | some x =>
    dsimp only
    split
    · exact loseCopy_ram ..
    · split
      · exact retireFree_ram ..
      · refine (ram_foldl (fun t n => ?_) _ _).trans rfl
        split <;> rfl
      · rfl

/-- A hard fault changes no byte of the buffer (R173). -/
theorem hardFault_ram (b r : Nat) : (hardFault s b r).mem.ram = s.mem.ram := by
  simp only [hardFault]
  split
  · split
    · rw [ram_of_log (raise_logFrame ..)]; exact memFault_ram ..
    · exact memFault_ram ..
  · split
    · split
      · rw [retireSlotAt_ram]; exact memFault_ram ..
      · exact memFault_ram ..
    · rw [ram_of_log (raise_logFrame ..), ram_of_log (deviceFault_logFrame ..), memFault_ram]

theorem testsDue_ram (a n r : Nat) : (testsDue s a n r).mem.ram = s.mem.ram :=
  ram_foldl (fun t b => by rw [hardFault_ram]; rfl) _ _

/-- Every operation on the buffer that a write goes through keeps its canonical form. -/
theorem wf_of_ram {s t : State} (h : t.mem.ram = s.mem.ram) (w : Memory.wf s.mem.ram = true) : Memory.wf t.mem.ram = true := by rwa [h]

/-- One uncorrectable block that a write touches (R166). -/
def clearBad (a n r : Nat) (s : State) (b : Nat) : State :=
  let t := modMem s fun m => { m with ram := Memory.clear m.ram (32 * b) 32, bad := m.bad.filter (· != b) }
  if a ≤ 32 * b && 32 * b + 32 ≤ a + n then t else memFault t 2 (32 * b) r

theorem clearBad_ram (a n r b : Nat) : (clearBad a n r s b).mem.ram = Memory.clear s.mem.ram (32 * b) 32 := by
  simp only [clearBad]; split
  · rfl
  · rw [memFault_ram]; rfl

theorem clearBad_foldl (a n r : Nat) (l : List Nat) (x : Nat) :
    Memory.get ramDefault (l.foldl (clearBad a n r) s).mem.ram x = (if x / 32 ∈ l then 0 else Memory.get ramDefault s.mem.ram x)
    ∧ (Memory.wf s.mem.ram = true → Memory.wf (l.foldl (clearBad a n r) s).mem.ram = true) := by
  induction l generalizing s with
  | nil => exact ⟨by simp, id⟩
  | cons b l ih =>
    rw [List.foldl_cons]
    obtain ⟨i1, i2⟩ := ih (clearBad a n r s b)
    refine ⟨?_, fun h => i2 (by rw [clearBad_ram]; exact Memory.clear_wf _ _ _ h)⟩
    rw [i1, clearBad_ram, Memory.get_clear]
    by_cases h : x / 32 = b
    · have : 32 * b ≤ x ∧ x < 32 * b + 32 := by omega
      simp only [h, List.mem_cons, true_or, if_true, this, and_self]
      split <;> rfl
    · have : ¬ (32 * b ≤ x ∧ x < 32 * b + 32) := by omega
      simp only [List.mem_cons, h, false_or, if_neg this]

/-- A write into the buffer: the bytes written read as written; the other bytes of an uncorrectable block that it covers in part read 0;
every other byte reads as before; the canonical form is kept (R166). -/
theorem bufWrite_spec (a r : Nat) (bs : List Byte) :
    (∀ x, ramByte (bufWrite s a bs r) x = if a ≤ x ∧ x < a + bs.length then bs.getD (x - a) 0
      else if x / 32 ∈ s.mem.bad ∧ a < 32 * (x / 32) + 32 ∧ 32 * (x / 32) < a + bs.length then 0 else ramByte s x)
    ∧ (Memory.wf s.mem.ram = true → Memory.wf (bufWrite s a bs r).mem.ram = true) := by
  have e : ∃ t, t = modMem ((s.mem.bad.filter fun b => a < 32 * b + 32 && 32 * b < a + bs.length).foldl (clearBad a bs.length r) s)
        (fun m => { m with ram := Memory.put ramDefault m.ram a bs })
      ∧ (bufWrite s a bs r).mem.ram = t.mem.ram := by
    refine ⟨_, rfl, ?_⟩
    unfold bufWrite
    dsimp only
    rw [testsDue_ram]; rfl
  obtain ⟨t, h1, h2⟩ := e
  have f := fun x => clearBad_foldl s a bs.length r (s.mem.bad.filter fun b => a < 32 * b + 32 && 32 * b < a + bs.length) x
  refine ⟨fun x => ?_, fun h => ?_⟩
  · simp only [ramByte, h2, h1]
    show Memory.get ramDefault (Memory.put ramDefault _ a bs) x = _
    rw [Memory.get_put, (f x).1]
    simp only [List.mem_filter, Bool.and_eq_true, decide_eq_true_eq]; rfl
  · rw [h2, h1]; exact Memory.put_wf _ _ _ ((f 0).2 h)

/-- Bytes of the buffer, read one after another. -/
theorem ramRead_eq (a n : Nat) : ramRead s a n = (List.range n).map fun i => ramByte s (a + i) := by
  unfold ramRead ramByte
  refine List.map_congr_left fun i hi => ?_
  rw [Memory.get_filter ramDefault s.mem.ram (fun x => a ≤ x && x < a + n), if_pos]
  have := List.mem_range.mp hi
  simp; omega

/-- The scrubber keeps the canonical form (R171 to R173). -/
theorem scrubBlock_wf (ch row : Nat) (f : ScrubFinding) (h : Memory.wf s.mem.ram = true) :
    Memory.wf (scrubBlock ch row s f).mem.ram = true := by
  have put : ∀ (b : Nat) (d : List Byte), Memory.wf (wordIs s b d).mem.ram = true := fun b d => Memory.put_wf _ _ _ h
  have test : ∀ (u : State) (b : Nat), Memory.wf u.mem.ram = true → Memory.wf (if f.readBackOk then u else hardFault u b 35).mem.ram = true := by
    intro u b hu; split
    · exact hu
    · rw [hardFault_ram]; exact hu
  simp only [scrubBlock]
  split
  · exact put ..
  · exact test _ _ (by rw [memFault_ram]; exact put ..)
  · exact test _ _ (by rw [memFault_ram]; exact put ..)
  · rw [memFault_ram]; exact h

theorem scrub_wf (found : List ScrubFinding) (ch row : Nat) (h : Memory.wf s.mem.ram = true) :
    Memory.wf (found.foldl (scrubBlock ch row) s).mem.ram = true := by
  induction found generalizing s with
  | nil => exact h
  | cons f r ih => exact ih _ (scrubBlock_wf s ch row f h)

end Sys2Proof.Machine
end

