-- ==== Sys2Proof/Laws/Keys.lean ====
section
/-! SUPPORT. The key store: what a zeroise leaves in each slot and in each binding (R244, R262). -/

namespace Sys2Proof.Machine

variable (s : State)

/-- A table built over a range is read by its function. -/
theorem tget_range {α : Type} (n k : Nat) (f : Nat → α) (d : α) (h : k < n) : tget ((List.range n).map fun i => (i, f i)) k d = f k := by
  have main : ∀ l : List Nat, k ∈ l → tget (l.map fun i => (i, f i)) k d = f k := by
    intro l
    induction l with
    | nil => intro h; cases h
    | cons a r ih =>
      intro h
      simp only [List.map_cons, tget]
      by_cases e : a = k
      · rw [if_pos e, e]
      · rw [if_neg e]; exact ih (by rcases List.mem_cons.mp h with h | h; exact absurd h.symm e; exact h)
  exact main _ (List.mem_range.mpr h)

/-- A table mapped value by value is read through the map. -/
theorem tget_map {α : Type} (t : Tbl α) (g : α → α) (k : Nat) (d : α) (h : g d = d) :
    tget (t.map fun x => (x.1, g x.2)) k d = g (tget t k d) := by
  induction t with
  | nil => exact h.symm
  | cons x r ih =>
    simp only [List.map_cons, tget]
    split
    · rfl
    · exact ih

/-- Every slot is ZEROISED, its label kept (R244). -/
theorem keySlot_zeroSlots (k : Nat) (h : k < 128) :
    keySlot (zeroSlots s) k = { keySlot s k with st := .zeroised, words := [], du := 0, reserved := 0 } := by
  rw [keySlot, zeroSlots]
  generalize hn : 128 = n at *
  exact tget_range n k _ _ h

/-- A binding to a slot is LOST; any other is as it was (R262). -/
theorem vol_loseBindings (v : Nat) : vol (loseBindings s) v = loseBind (vol s v) := tget_map s.vols loseBind v {} rfl

theorem bind_loseBind (x : Vol) : isSlot (loseBind x).bind = false := by
  unfold loseBind; split
  · rfl
  · exact Bool.eq_false_iff.mpr ‹¬ _›

end Sys2Proof.Machine
end

