-- ==== Sys2Proof/Laws/Array.lean ====
section
/-! SUPPORT. The NV array: what the end of its unit operations can change (R443 to R445, R465). -/

namespace Sys2Proof.Machine

/-- `t` differs from `s` in the array, the update's boot choice and the counters of the NVA page, at most. -/
structure ArrayFrame (s t : State) : Prop where
  rest : t = { s with pages := t.pages, nv := t.nv, fwu := t.fwu }
  pages : PagesFrame [.nva] s t

theorem ArrayFrame.refl (s : State) : ArrayFrame s s := ⟨rfl, .refl _ _⟩
theorem ArrayFrame.trans {s t u : State} (h : ArrayFrame s t) (k : ArrayFrame t u) : ArrayFrame s u :=
  ⟨by have a := h.rest; have b := k.rest; rw [b]; rw [a], h.pages.trans k.pages⟩
theorem ArrayFrame.foldl {α : Type} {f : State → α → State} (h : ∀ s a, ArrayFrame s (f s a)) (l : List α) (s : State) :
    ArrayFrame s (l.foldl f s) := by
  induction l generalizing s with
  | nil => exact .refl s
  | cons a r ih => exact (h s a).trans (ih _)

variable (s : State)

theorem modNv_arrayFrame (f : NvSt → NvSt) : ArrayFrame s (modNv s f) := ⟨rfl, .of_eq _ rfl⟩
theorem modFwu_arrayFrame (f : FwuSt → FwuSt) : ArrayFrame s (modFwu s f) := ⟨rfl, .of_eq _ rfl⟩
theorem setBoot_arrayFrame (k : Nat) (b : BootBlk) : ArrayFrame s (setBoot s k b) := modFwu_arrayFrame ..

theorem count_nva_arrayFrame (k n : Nat) : ArrayFrame s (count s .nva k n) := by
  refine ⟨?_, count_pagesFrame s .nva k n⟩
  simp only [count]; split <;> rfl

/-- What a programmed range means to the boot choice changes nothing else. -/
theorem programMeans_arrayFrame (a : Nat) (bs : List Byte) : ArrayFrame s (programMeans s a bs) := by
  unfold programMeans
  dsimp only
  repeat' split
  all_goals first | exact setBoot_arrayFrame .. | exact modFwu_arrayFrame .. | exact modNv_arrayFrame .. | exact .refl _

theorem eraseMeans_arrayFrame (a : Nat) : ArrayFrame s (eraseMeans s a) := by
  unfold eraseMeans; split
  · exact setBoot_arrayFrame ..
  · split
    · exact modFwu_arrayFrame ..
    · exact modNv_arrayFrame ..

/-- A unit operation changes the array and what it means to the boot choice. -/
theorem applyUnit_arrayFrame (u : NvUnit) : ArrayFrame s (applyUnit s u) := by
  cases u with
  | program a bs =>
    exact ((modNv_arrayFrame ..).trans (count_nva_arrayFrame ..)).trans (programMeans_arrayFrame ..)
  | erase a => exact ((modNv_arrayFrame ..).trans (count_nva_arrayFrame ..)).trans (eraseMeans_arrayFrame ..)

/-- So does the end of everything that runs to its end. -/
theorem settleArray_arrayFrame : ArrayFrame s (settleArray s) := by
  unfold settleArray
  dsimp only
  refine ArrayFrame.trans ?_ (modNv_arrayFrame ..)
  refine ArrayFrame.foldl (fun s b => ?_) [0, 1] s
  split
  · exact .refl s
  · exact (show ArrayFrame s (setBankUnits s b []) from modNv_arrayFrame ..).trans
      (ArrayFrame.foldl (fun s u => applyUnit_arrayFrame s u) _ _)

end Sys2Proof.Machine
end

