-- ==== Sys2Proof/Laws/Mmio.lean ====
section
/-! SUPPORT. Register accesses: the address of each register (R29), and what an access does that reaches it (R31, R43 to R47, R78). -/

namespace Sys2Proof.Machine

open Safety (reaches canWrite)

theorem tFin_of_lt {n : Nat} (h : n < 16) : tFin n = ⟨n, h⟩ := Fin.ext (Nat.mod_eq_of_lt h)

theorem spotOf_low (a : Nat) (h : a < 0xA000) : spotOf a = .page (lowPages.getD (a / 0x1000) .dev) (a % 0x1000) := by
  rw [spotOf, if_pos h]
theorem spotOf_hpA (a : Nat) (h : 0x10000 ≤ a) (h' : a < 0x20000) : spotOf a = hpSpot .a (a - 0x10000) := by
  rw [spotOf, if_neg (by omega), if_neg (by omega), if_pos h']
theorem spotOf_hpB (a : Nat) (h : 0x20000 ≤ a) (h' : a < 0x30000) : spotOf a = hpSpot .b (a - 0x20000) := by
  rw [spotOf, if_neg (by omega), if_neg (by omega), if_neg (by omega), if_pos h']
theorem spotOf_tsl (a : Nat) (h : 0x40000 ≤ a) (h' : a < 0x80000) : spotOf a = tslSpot a := by
  rw [spotOf]; iterate 5 rw [if_neg (by omega)]
  rw [if_pos h']
theorem spotOf_cdc (a : Nat) (h : 0x80000 ≤ a) (h' : a < 0x90000) :
    spotOf a = .page (.cdc (tFin ((a - 0x80000) / 0x1000))) (a % 0x1000) := by
  rw [spotOf]; iterate 6 rw [if_neg (by omega)]
  rw [if_pos h']
theorem spotOf_loopG (a : Nat) (h : 0x90000 ≤ a) (h' : a < 0x91000) : spotOf a = .page .loopG (a % 0x1000) := by
  rw [spotOf]; iterate 7 rw [if_neg (by omega)]
  rw [if_pos h']
theorem spotOf_loops (a : Nat) (h : 0x91000 ≤ a) (h' : a < 0x95000) : spotOf a = .loop ((a - 0x91000) / 0x100) (a % 0x100) := by
  rw [spotOf]; iterate 8 rw [if_neg (by omega)]
  rw [if_pos h']
theorem spotOf_keys (a : Nat) (h : 0xA0000 ≤ a) (h' : a < 0xA4000) : spotOf a = .key ((a - 0xA0000) / 0x80) (a % 0x80) := by
  rw [spotOf]; iterate 10 rw [if_neg (by omega)]
  rw [if_pos h']
theorem spotOf_keyPage (a : Nat) (h : 0xA4000 ≤ a) (h' : a < 0xA5000) : spotOf a = .page .key (a - 0xA4000) := by
  rw [spotOf]; iterate 11 rw [if_neg (by omega)]
  rw [if_pos h']

/-- The address of a page register names that register (R29). -/
theorem spotOf_page (pg : PageId) (off : Nat) (h : off < 0x1000) : spotOf (pageBase pg + off) = .page pg off := by
  cases pg with
  | hp p =>
    cases p
    · have e : 0x10000 + 0x10000 * pIdx .a + off = 0x10000 + off := by simp [pIdx]
      rw [pageBase, e, spotOf_hpA _ (by omega) (by omega), Nat.add_sub_cancel_left, hpSpot, if_pos h]
    · have e : 0x10000 + 0x10000 * pIdx .b + off = 0x20000 + off := by simp [pIdx]
      rw [pageBase, e, spotOf_hpB _ (by omega) (by omega), Nat.add_sub_cancel_left, hpSpot, if_pos h]
  | dev =>
    have q : (0x0 + off) / 0x1000 = 0 := by omega
    have r : (0x0 + off) % 0x1000 = off := by omega
    rw [pageBase, spotOf_low _ (by omega), q, r]; rfl
  | sem =>
    have q : (0x1000 + off) / 0x1000 = 1 := by omega
    have r : (0x1000 + off) % 0x1000 = off := by omega
    rw [pageBase, spotOf_low _ (by omega), q, r]; rfl
  | pwr =>
    have q : (0x2000 + off) / 0x1000 = 2 := by omega
    have r : (0x2000 + off) % 0x1000 = off := by omega
    rw [pageBase, spotOf_low _ (by omega), q, r]; rfl
  | tim =>
    have q : (0x3000 + off) / 0x1000 = 3 := by omega
    have r : (0x3000 + off) % 0x1000 = off := by omega
    rw [pageBase, spotOf_low _ (by omega), q, r]; rfl
  | mgt =>
    have q : (0x4000 + off) / 0x1000 = 4 := by omega
    have r : (0x4000 + off) % 0x1000 = off := by omega
    rw [pageBase, spotOf_low _ (by omega), q, r]; rfl
  | fwu =>
    have q : (0x5000 + off) / 0x1000 = 5 := by omega
    have r : (0x5000 + off) % 0x1000 = off := by omega
    rw [pageBase, spotOf_low _ (by omega), q, r]; rfl
  | nva =>
    have q : (0x6000 + off) / 0x1000 = 6 := by omega
    have r : (0x6000 + off) % 0x1000 = off := by omega
    rw [pageBase, spotOf_low _ (by omega), q, r]; rfl
  | log =>
    have q : (0x7000 + off) / 0x1000 = 7 := by omega
    have r : (0x7000 + off) % 0x1000 = off := by omega
    rw [pageBase, spotOf_low _ (by omega), q, r]; rfl
  | pool =>
    have q : (0x8000 + off) / 0x1000 = 8 := by omega
    have r : (0x8000 + off) % 0x1000 = off := by omega
    rw [pageBase, spotOf_low _ (by omega), q, r]; rfl
  | mem =>
    have q : (0x9000 + off) / 0x1000 = 9 := by omega
    have r : (0x9000 + off) % 0x1000 = off := by omega
    rw [pageBase, spotOf_low _ (by omega), q, r]; rfl
  | link n =>
    obtain ⟨n, hn⟩ := n
    have a1 : 0x40000 ≤ 0x40000 + n * 0x4000 + off := by omega
    have a2 : 0x40000 + n * 0x4000 + off < 0x80000 := by omega
    have h7 : (0x40000 + n * 0x4000 + off) / 0x1000 % 4 = 0 := by omega
    have h8 : (0x40000 + n * 0x4000 + off - 0x40000) / 0x4000 = n := by omega
    have h9 : (0x40000 + n * 0x4000 + off) % 0x1000 = off := by omega
    rw [pageBase, spotOf_tsl _ a1 a2, tslSpot, h7, h8, h9, tFin_of_lt hn]; rfl
  | fmt n =>
    obtain ⟨n, hn⟩ := n
    have a1 : 0x40000 ≤ 0x41000 + n * 0x4000 + off := by omega
    have a2 : 0x41000 + n * 0x4000 + off < 0x80000 := by omega
    have h7 : (0x41000 + n * 0x4000 + off) / 0x1000 % 4 = 1 := by omega
    have h8 : (0x41000 + n * 0x4000 + off - 0x40000) / 0x4000 = n := by omega
    have h9 : (0x41000 + n * 0x4000 + off) % 0x1000 = off := by omega
    rw [pageBase, spotOf_tsl _ a1 a2, tslSpot, h7, h8, h9, tFin_of_lt hn]; rfl
  | ciph n =>
    obtain ⟨n, hn⟩ := n
    have a1 : 0x40000 ≤ 0x42000 + n * 0x4000 + off := by omega
    have a2 : 0x42000 + n * 0x4000 + off < 0x80000 := by omega
    have h7 : (0x42000 + n * 0x4000 + off) / 0x1000 % 4 = 2 := by omega
    have h8 : (0x42000 + n * 0x4000 + off - 0x40000) / 0x4000 = n := by omega
    have h9 : (0x42000 + n * 0x4000 + off) % 0x1000 = off := by omega
    rw [pageBase, spotOf_tsl _ a1 a2, tslSpot, h7, h8, h9, tFin_of_lt hn]; rfl
  | servo n =>
    obtain ⟨n, hn⟩ := n
    have a1 : 0x40000 ≤ 0x43000 + n * 0x4000 + off := by omega
    have a2 : 0x43000 + n * 0x4000 + off < 0x80000 := by omega
    have h7 : (0x43000 + n * 0x4000 + off) / 0x1000 % 4 = 3 := by omega
    have h8 : (0x43000 + n * 0x4000 + off - 0x40000) / 0x4000 = n := by omega
    have h9 : (0x43000 + n * 0x4000 + off) % 0x1000 = off := by omega
    rw [pageBase, spotOf_tsl _ a1 a2, tslSpot, h7, h8, h9, tFin_of_lt hn]; rfl
  | cdc n =>
    obtain ⟨n, hn⟩ := n
    have h8 : (0x80000 + n * 0x1000 + off - 0x80000) / 0x1000 = n := by omega
    have h9 : (0x80000 + n * 0x1000 + off) % 0x1000 = off := by omega
    rw [pageBase, spotOf_cdc _ (by omega) (by omega), h8, h9, tFin_of_lt hn]
  | loopG =>
    have h9 : (0x90000 + off) % 0x1000 = off := by omega
    rw [pageBase, spotOf_loopG _ (by omega) (by omega), h9]
  | key => rw [pageBase, spotOf_keyPage _ (by omega) (by omega), Nat.add_sub_cancel_left]

/-- Page addresses are whole pages. -/
theorem pageBase_mod (pg : PageId) : pageBase pg % 4 = 0 := by
  cases pg <;> simp only [pageBase] <;> omega

/-- The address of a register of an SQ names it (R89). -/
theorem spotOf_sq (p : Port) (q off : Nat) (hq : q < 64) (h : off < 64) : spotOf (sqAddr p q off) = .sq p q off := by
  have h1 : (0x1000 + 0x40 * q + off - 0x1000) / 64 = q := by omega
  have h2 : (0x1000 + 0x40 * q + off) % 64 = off := by omega
  cases p
  · have e : sqAddr .a q off = 0x10000 + (0x1000 + 0x40 * q + off) := by simp [sqAddr, pIdx]; omega
    rw [e, spotOf_hpA _ (by omega) (by omega), Nat.add_sub_cancel_left, hpSpot, if_neg (by omega), if_pos (by omega), h1, h2]
  · have e : sqAddr .b q off = 0x20000 + (0x1000 + 0x40 * q + off) := by simp [sqAddr, pIdx]; omega
    rw [e, spotOf_hpB _ (by omega) (by omega), Nat.add_sub_cancel_left, hpSpot, if_neg (by omega), if_pos (by omega), h1, h2]

/-- The address of a register of a CQ names it (R89). -/
theorem spotOf_cq (p : Port) (c off : Nat) (hq : c < 64) (h : off < 64) : spotOf (cqAddr p c off) = .cq p c off := by
  have h1 : (0x2000 + 0x40 * c + off - 0x2000) / 64 = c := by omega
  have h2 : (0x2000 + 0x40 * c + off) % 64 = off := by omega
  cases p
  · have e : cqAddr .a c off = 0x10000 + (0x2000 + 0x40 * c + off) := by simp [cqAddr, pIdx]; omega
    rw [e, spotOf_hpA _ (by omega) (by omega), Nat.add_sub_cancel_left, hpSpot, if_neg (by omega), if_neg (by omega),
      if_pos (by omega), h1, h2]
  · have e : cqAddr .b c off = 0x20000 + (0x2000 + 0x40 * c + off) := by simp [cqAddr, pIdx]; omega
    rw [e, spotOf_hpB _ (by omega) (by omega), Nat.add_sub_cancel_left, hpSpot, if_neg (by omega), if_neg (by omega),
      if_pos (by omega), h1, h2]

/-- The address of a word of an error-log entry names it (R149). -/
theorem spotOf_err (p : Port) (i w : Nat) (hi : i < 256) (hw : w < 16) : spotOf (errAddr p i w) = .err p i w := by
  have h1 : (0x4000 + (0x40 * i + 4 * w) - 0x4000) / 64 = i := by omega
  have h2 : (0x4000 + (0x40 * i + 4 * w)) % 64 / 4 = w := by omega
  cases p
  · have e : errAddr .a i w = 0x10000 + (0x4000 + (0x40 * i + 4 * w)) := by simp [errAddr, pIdx]; omega
    rw [e, spotOf_hpA _ (by omega) (by omega), Nat.add_sub_cancel_left, hpSpot, if_neg (by omega), if_neg (by omega),
      if_neg (by omega), if_pos (by simp only [Bool.and_eq_true, decide_eq_true_eq]; omega), h1, h2]
  · have e : errAddr .b i w = 0x20000 + (0x4000 + (0x40 * i + 4 * w)) := by simp [errAddr, pIdx]; omega
    rw [e, spotOf_hpB _ (by omega) (by omega), Nat.add_sub_cancel_left, hpSpot, if_neg (by omega), if_neg (by omega),
      if_neg (by omega), if_pos (by simp only [Bool.and_eq_true, decide_eq_true_eq]; omega), h1, h2]

/-- The address of a register of a key slot names it (R242). -/
theorem spotOf_key (k off : Nat) (hk : k < 128) (h : off < 128) : spotOf (keyAddr k off) = .key k off := by
  have h1 : (0xA0000 + 0x80 * k + off - 0xA0000) / 0x80 = k := by omega
  have h2 : (0xA0000 + 0x80 * k + off) % 0x80 = off := by omega
  rw [keyAddr, spotOf_keys _ (by omega) (by omega), h1, h2]

/-- The address of `LOOP_CTRL` names it (R394). -/
theorem spotOf_loopCtrl (i : Nat) (h : i < 64) : spotOf (loopCtrlAddr i) = .loop i 0x80 := by
  have h1 : (0x91000 + 0x100 * i + 0x80 - 0x91000) / 0x100 = i := by omega
  have h2 : (0x91000 + 0x100 * i + 0x80) % 0x100 = 0x80 := by omega
  rw [loopCtrlAddr, spotOf_loops _ (by omega) (by omega), h1, h2]

variable (s : State)

/-- A whole write that reaches a register with the right takes effect (R43, R45). -/
theorem mmioWrite_of_can (m : Master) (a : Nat) (v : Word) (ha : a % 4 = 0) (h : canWrite s m (spotOf a) = true) :
    mmioWrite s m a 0xF v = applyWrite s m (spotOf a) a v := by
  simp only [canWrite, reaches, Bool.and_eq_true, Bool.not_eq_true'] at h
  obtain ⟨⟨⟨⟨⟨h1, h2⟩, hw⟩, h3⟩, h4⟩, h5⟩ := h
  simp [mmioWrite, h1, h2, hw, h3, h4, h5, ha]

/-- The same for a register of a page. -/
theorem regWrite_of_can (m : Master) (pg : PageId) (off : Nat) (v : Word) (ho : off < 0x1000) (hm : off % 4 = 0)
    (h : canWrite s m (.page pg off) = true) : regWrite s m pg off v = applyWrite s m (.page pg off) (pageBase pg + off) v := by
  have e := spotOf_page pg off ho
  have hb := pageBase_mod pg
  rw [regWrite, mmioWrite_of_can s m _ v (by omega) (by rw [e]; exact h), e]

/-- A write of a frozen master, or one that the BAR does not answer, does nothing (R78, R398). -/
theorem mmioWrite_of_not (m : Master) (a : Nat) (be : BitVec 4) (v : Word) (h : served s m = false ∨ (mst s m).frozen = true) :
    mmioWrite s m a be v = s := by
  rcases h with h | h <;> simp [mmioWrite, h]

/-- A write without the right freezes its master (R47, R79). -/
theorem mmioWrite_of_no_right (m : Master) (a : Nat) (v : Word) (ha : a % 4 = 0) (h : reaches s m (spotOf a) = true)
    (hr : hasRight s m (spotOf a) = false) : mmioWrite s m a 0xF v = freezeMaster s m 1 (spotSem (spotOf a)) a := by
  simp only [reaches, Bool.and_eq_true, Bool.not_eq_true'] at h
  obtain ⟨⟨⟨⟨h1, h2⟩, hw⟩, h3⟩, h4⟩ := h
  simp [mmioWrite, h1, h2, hw, h3, h4, hr, ha]

/-- A write that does not write a whole dword does nothing but set BAD_ACCESS of its port (R31). -/
theorem mmioWrite_of_part (m : Master) (a : Nat) (be : BitVec 4) (v : Word) (h : reaches s m (spotOf a) = true)
    (hb : be ≠ 0xF) : mmioWrite s m a be v = badAccess s m := by
  simp only [reaches, Bool.and_eq_true, Bool.not_eq_true'] at h
  obtain ⟨⟨⟨⟨h1, h2⟩, hw⟩, h3⟩, _⟩ := h
  have e : (be != 0xF) = true := bne_iff_ne.mpr hb
  simp only [mmioWrite, h1, h2, hw, h3, e, Bool.true_or, Bool.not_true, Bool.or_self, Bool.false_eq_true, if_false, if_true]

end Sys2Proof.Machine
end

