-- ==== Sys2Proof/Laws/Regs.lean ====
section
/-! SUPPORT. Stored registers: what a write of one changes, and what a write by access types leaves (R43). -/

namespace Sys2Proof.Machine

variable (s : State)

theorem reg_setPage_ne (pg pg' : PageId) (x : Page) (off : Nat) (h : pg' ≠ pg) : reg (setPage s pg x) pg' off = reg s pg' off := by
  rw [reg, page_setPage_ne _ _ _ _ h]; rfl

/-- A register that is stored reads as it was stored. -/
theorem reg_setReg (pg : PageId) (off : Nat) (v : Word) : reg (setReg s pg off v) pg off = v := by
  rw [reg, setReg, modPage_eq, page_setPage]; exact tget_tput_same ..

/-- Every other register keeps its value. -/
theorem reg_setReg_ne (pg pg' : PageId) (off off' : Nat) (v : Word) (h : pg' ≠ pg ∨ off' ≠ off) :
    reg (setReg s pg off v) pg' off' = reg s pg' off' := by
  by_cases e : pg' = pg
  · subst e
    have h' : off' ≠ off := by simpa using h
    rw [reg, setReg, modPage_eq, page_setPage]
    exact tget_tput_ne _ _ _ _ _ h'
  · exact reg_setPage_ne s pg pg' _ off' e

/-- Storing a register changes the registers of its page. -/
theorem page_setReg (pg pg' : PageId) (off : Nat) (v : Word) :
    page (setReg s pg off v) pg' = if pg' = pg then { page s pg with regs := tput (page s pg).regs off v } else page s pg' := by
  rw [setReg, modPage_eq]; split
  · subst pg'; exact page_setPage ..
  · exact page_setPage_ne _ _ _ _ ‹_›

/-- Setting an event bit changes that event word. -/
theorem page_setEvt (pg pg' : PageId) (b : Nat) :
    page (setEvt s pg b) pg' = if pg' = pg then { page s pg with evt := (page s pg).evt ||| w32 (2 ^ b) } else page s pg' := by
  rw [setEvt, modPage_eq]; split
  · subst pg'; exact page_setPage ..
  · exact page_setPage_ne _ _ _ _ ‹_›

theorem reg_setEvt (pg pg' : PageId) (b off : Nat) : reg (setEvt s pg b) pg' off = reg s pg' off := by
  simp only [reg, page_setEvt]; split
  · subst pg'; rfl
  · rfl

/-- A row that is found is one of the list, wide where it is found by its HI half, and holds the offset. -/
theorem findRow_spec (l : List RegRow) (off : Nat) (r : RegRow) (h : Bool) (e : findRow l off = some (r, h)) :
    r ∈ l ∧ (h = true → r.wide = true) ∧ off ≤ r.off + r.cnt * r.stride + r.stride + 4 := by
  induction l with
  | nil => cases e
  | cons x l ih =>
    rw [findRow] at e
    simp only [Bool.and_eq_true, decide_eq_true_eq, beq_iff_eq] at e
    have bound : ∀ o, o - x.off = 0 ∨ (o - x.off) / x.stride < x.cnt → (o - x.off) % x.stride = 0 → o ≤ x.off + x.cnt * x.stride := by
      intro o h1 h2
      rcases h1 with h1 | h1
      · omega
      · have := Nat.div_add_mod (o - x.off) x.stride
        have := Nat.mul_le_mul_left x.stride (Nat.le_of_lt h1)
        rw [Nat.mul_comm x.cnt]; omega
    split at e
    · rename_i c
      cases e
      have := bound off (.inr c.2) c.1.2
      exact ⟨List.mem_cons_self, by simp, by omega⟩
    · split at e
      · rename_i c
        cases e
        have := bound (off - 4) (.inr c.2.2) c.2.1.2
        exact ⟨List.mem_cons_self, fun _ => c.1.1, by omega⟩
      · exact ⟨List.mem_cons_of_mem _ (ih e).1, (ih e).2⟩

/-- No register lies in the slot window of the POOL page. -/
theorem findRow_pool (off : Nat) (h : 0x800 ≤ off) : findRow (pageRows .pool) off = none := by
  cases e : findRow (pageRows .pool) off with
  | none => rfl
  | some q =>
    have h1 := findRow_spec _ _ _ _ e
    have h2 : ∀ r ∈ pageRows .pool, r.off + r.cnt * r.stride + r.stride + 4 < 0x800 := by decide
    have := h2 _ h1.1
    omega

/-- A LO half is no HI half. -/
theorem isHi_of_isLo (t : Spot) (h : isLo t = true) : isHi t = false := by
  cases t with
  | page pg off =>
    simp only [isLo, isHi, Bool.and_eq_true] at h ⊢
    cases e : findRow (pageRows pg) off with
    | none => simp
    | some q =>
      simp [e] at h
      simp [h.2.2]
  | cq p c off => simp [isLo, isHi] at h ⊢; omega
  | loop i off => simp [isLo, isHi] at h ⊢; omega
  | key k off => simp [isLo, isHi] at h ⊢; omega
  | _ => rfl

/-- The SEM page has no 64-bit register. -/
theorem sem_narrow (off : Nat) : isLo (.page .sem off) = false ∧ isHi (.page .sem off) = false := by
  have h2 : ∀ r ∈ pageRows .sem, r.wide = false := by decide
  simp only [isLo, isHi]
  cases e : findRow (pageRows .sem) off with
  | none => simp
  | some q =>
    obtain ⟨r, h⟩ := q
    have h1 := findRow_spec _ _ _ _ e
    have := h2 _ h1.1
    cases h
    · simp [this]
    · simp [this] at h1

/-- Nothing of what a master may reach rests on its shadow, its pending LO or on what has been sent. -/
theorem reaches_answer_shadow (s : State) (m : Master) (x : Word) (a v : Nat) (t : Spot) (h : Safety.reaches s m t = true) :
    Safety.reaches (answer (setMst s m { mst s m with hiShadow := x }) m a v) m t = true := by
  have hf : (mst (answer (setMst s m { mst s m with hiShadow := x }) m a v) m).frozen = (mst s m).frozen := by
    show (mst (setMst s m _) m).frozen = _
    rw [mst_setMst]
  simp only [Safety.reaches, hf] at h ⊢
  exact h

theorem canWrite_pendLo (s : State) (m : Master) (x : Option (Nat × Word)) (t : Spot) (h : Safety.canWrite s m t = true) :
    Safety.canWrite (setMst s m { mst s m with pendLo := x }) m t = true := by
  have hf : (mst (setMst s m { mst s m with pendLo := x }) m).frozen = (mst s m).frozen := by rw [mst_setMst]
  simp only [Safety.canWrite, Safety.reaches, hf] at h ⊢
  exact h

/-- A read of the metadata pair of POOL (R176, R186). -/
theorem mmioRead_meta (m : Master) (a : Nat) (ha : a % 4 = 0) (hr : Safety.reaches s m (spotOf a) = true)
    (off : Nat) (ho : spotOf a = .page .pool off) (h1 : 0x138 ≤ off) (h2 : off < 0x140) :
    mmioRead s m a = metaAnswer s m (.page .pool off) a := by
  have h4 : a / 4 * 4 = a := by omega
  simp only [Safety.reaches, Bool.and_eq_true, Bool.not_eq_true'] at hr
  obtain ⟨⟨⟨⟨r1, r2⟩, rw'⟩, r3⟩, r4⟩ := hr
  rw [ho] at r3 r4
  simp only [mmioRead, h4, ho, r1, r2, rw', r3, r4, Bool.not_true, Bool.false_and, Bool.or_self, Bool.false_eq_true, if_false]
  rw [if_neg (by omega), if_pos (by simp [h1, h2])]

/-- A read of a half of a 64-bit pair is answered (R44). -/
theorem mmioRead_pair (m : Master) (a : Nat) (ha : a % 4 = 0) (hr : Safety.reaches s m (spotOf a) = true)
    (hk : isLo (spotOf a) = true ∨ isHi (spotOf a) = true) (hp : ∀ off, spotOf a = .page .pool off → off < 0x138 ∨ 0x140 ≤ off) :
    mmioRead s m a = answer (readSpot s m (spotOf a)).1 m a (readSpot s m (spotOf a)).2 := by
  have h4 : a / 4 * 4 = a := by omega
  simp only [Safety.reaches, Bool.and_eq_true, Bool.not_eq_true'] at hr
  obtain ⟨⟨⟨⟨r1, r2⟩, rw'⟩, r3⟩, r4⟩ := hr
  generalize ht : spotOf a = t at *
  simp only [mmioRead, h4, ht, r1, r2, rw', r3, r4, Bool.not_true, Bool.false_and, Bool.or_self, Bool.false_eq_true, if_false]
  split
  · rename_i off
    rw [if_neg]
    · rw [if_neg]
      have := hp off rfl
      simp only [Bool.and_eq_true, decide_eq_true_eq]; omega
    · intro h8
      simp [isLo, isHi, findRow_pool off h8] at hk
  · rfl

/-- A read of a LO half takes the HI half into the master's shadow (R44). -/
theorem readSpot_lo (m : Master) (t : Spot) (h : isLo t = true) :
    readSpot s m t = (modMst s m fun x => { x with hiShadow := w32 (spotValue s m t / 2 ^ 32) }, spotValue s m t % 2 ^ 32) := by
  have hh := isHi_of_isLo t h
  cases t with
  | page pg off =>
    cases pg <;> first | (simp [(sem_narrow off).1] at h; done) | (simp only [readSpot, hh, h, Bool.false_eq_true, if_false, if_true])
  | err p i w => simp [isLo] at h
  | _ => simp only [readSpot, hh, h, Bool.false_eq_true, if_false, if_true]

/-- A read of a HI half gives the master's shadow (R44). -/
theorem readSpot_hi (m : Master) (t : Spot) (hh : isHi t = true) : readSpot s m t = (s, (mst s m).hiShadow.toNat) := by
  cases t with
  | page pg off =>
    cases pg <;> first | (simp [(sem_narrow off).2] at hh; done) | (simp only [readSpot, hh, if_true])
  | err p i w => simp [isHi] at hh
  | _ => simp only [readSpot, hh, if_true]

/-- A write of a header register that has the right takes effect (R37, R40, R41). -/
theorem regWrite_header (m : Master) (pg : PageId) (off : Nat) (v : Word) (ho : off < 0x40) (hm : off % 4 = 0)
    (h : Safety.canWrite s m (.page pg off) = true) : regWrite s m pg off v = headerWrite s pg off v := by
  have hlo : isLo (.page pg off) = false := by simp [isLo]; omega
  have hhi : isHi (.page pg off) = false := by simp [isHi]; omega
  rw [regWrite_of_can s m pg off v (by omega) hm h]
  simp only [applyWrite, hlo, hhi, Bool.false_eq_true, if_false, if_pos ho]

/-- A write of a register of a page from 0x040 on that has the right takes effect by its row (R43). -/
theorem regWrite_block (m : Master) (pg : PageId) (off : Nat) (v : Word) (r : RegRow) (ho : 0x40 ≤ off) (ho' : off < 0x1000)
    (hm : off % 4 = 0) (hr : findRow (pageRows pg) off = some (r, false)) (hw : r.wide = false)
    (h : Safety.canWrite s m (.page pg off) = true) : regWrite s m pg off v = blockWrite s m pg r off v := by
  have hlo : isLo (.page pg off) = false := by simp [isLo, hr, hw]
  have hhi : isHi (.page pg off) = false := by simp [isHi, hr]
  rw [regWrite_of_can s m pg off v ho' hm h]
  simp only [applyWrite, hlo, hhi, Bool.false_eq_true, if_false, if_neg (Nat.not_lt.mpr ho), hr]

/-- A write of the LO half of a pair that can be written goes to the pending LO (R45). -/
theorem mmioWrite_lo (m : Master) (a : Nat) (v : Word) (ha : a % 4 = 0) (h : Safety.canWrite s m (spotOf a) = true)
    (hl : isLo (spotOf a) = true) (hw : writablePair (spotOf a) = true) :
    mmioWrite s m a 0xF v = modMst s m fun x => { x with pendLo := some (a, v) } := by
  rw [mmioWrite_of_can s m a v ha h]
  simp only [applyWrite, hl, hw, if_true]

/-- A write of the HI half of a pair that can be written takes effect (R45). -/
theorem mmioWrite_hi (m : Master) (a : Nat) (v : Word) (ha : a % 4 = 0) (h : Safety.canWrite s m (spotOf a) = true)
    (hl : isLo (spotOf a) = false) (hh : isHi (spotOf a) = true) (hw : writablePair (spotOf a) = true) :
    mmioWrite s m a 0xF v = hiWrite s m (spotOf a) a v := by
  rw [mmioWrite_of_can s m a v ha h]
  simp only [applyWrite, hl, hh, hw, Bool.false_eq_true, if_false, if_true]

/-- A write of a HI half applies 64 bits and discards the pending LO (R45). -/
theorem hiWrite_eq (m : Master) (t : Spot) (a : Nat) (v : Word) :
    hiWrite s m t (a + 4) v = pairWrite (setMst s m { mst s m with pendLo := none }) m t
      (Safety.appliedLo s m a (spotValue s m (loSpot t) % 2 ^ 32) + 2 ^ 32 * v.toNat) := by
  unfold hiWrite Safety.appliedLo
  cases (mst s m).pendLo with
  | none => rfl
  | some q =>
    simp only [Nat.add_right_cancel_iff]
    rfl

/-- The value that a write by access types leaves (R43). -/
def plainNew (pg : PageId) (r : RegRow) (off : Nat) (v : Word) : Word :=
  ((reg s pg off &&& ~~~(r.rw ||| (if locked s pg && r.rwl != 0 then 0 else r.rwl)))
    ||| (v &&& (r.rw ||| (if locked s pg && r.rwl != 0 then 0 else r.rwl)))) &&& ~~~(v &&& r.w1c)

/-- A write by access types changes that register and, where it was locked, EVT.LOCKED_WRITE; nothing else (R43). -/
theorem plainWrite_spec (pg : PageId) (r : RegRow) (off : Nat) (v : Word) :
    reg (plainWrite s pg r off v) pg off = plainNew s pg r off v
    ∧ (page (plainWrite s pg r off v) pg).evt
        = (if locked s pg && r.rwl != 0 then (page s pg).evt ||| w32 (2 ^ 4) else (page s pg).evt)
    ∧ (∀ pg' off', (pg' ≠ pg ∨ off' ≠ off) → reg (plainWrite s pg r off v) pg' off' = reg s pg' off')
    ∧ (∀ pg', page (plainWrite s pg r off v) pg'
        = { page s pg' with regs := (page (plainWrite s pg r off v) pg').regs, evt := (page (plainWrite s pg r off v) pg').evt })
    ∧ (∀ pg', pg' ≠ pg → page (plainWrite s pg r off v) pg' = page s pg')
    ∧ plainWrite s pg r off v = { s with pages := (plainWrite s pg r off v).pages } := by
  have hn : plainWrite s pg r off v = if locked s pg && r.rwl != 0 then
        setEvt (if plainNew s pg r off v = reg s pg off then s else setReg s pg off (plainNew s pg r off v)) pg 4
      else if plainNew s pg r off v = reg s pg off then s else setReg s pg off (plainNew s pg r off v) := rfl
  rw [hn]
  generalize plainNew s pg r off v = w
  have key : ∀ t : State, t = (if w = reg s pg off then s else setReg s pg off w) →
      reg t pg off = w ∧ (page t pg).evt = (page s pg).evt
      ∧ (∀ pg' off', (pg' ≠ pg ∨ off' ≠ off) → reg t pg' off' = reg s pg' off')
      ∧ (∀ pg', page t pg' = { page s pg' with regs := (page t pg').regs })
      ∧ (∀ pg', pg' ≠ pg → page t pg' = page s pg') ∧ t = { s with pages := t.pages } := by
    intro t ht
    by_cases e : w = reg s pg off
    · rw [if_pos e] at ht; subst ht
      exact ⟨e.symm, rfl, fun _ _ _ => rfl, fun _ => rfl, fun _ _ => rfl, rfl⟩
    · rw [if_neg e] at ht; subst ht
      refine ⟨reg_setReg .., by rw [page_setReg, if_pos rfl], fun pg' off' h => reg_setReg_ne _ _ _ _ _ _ h, fun pg' => ?_,
        fun pg' h => by rw [page_setReg, if_neg h], rfl⟩
      rw [page_setReg]; split
      · subst pg'; rfl
      · rfl
  generalize ht : (if w = reg s pg off then s else setReg s pg off w) = t
  obtain ⟨k1, k2, k3, k4, k5, k6⟩ := key t ht.symm
  split
  · refine ⟨by rw [reg_setEvt]; exact k1, by rw [page_setEvt, if_pos rfl, k2], fun pg' off' h => by rw [reg_setEvt]; exact k3 _ _ h,
      fun pg' => ?_, fun pg' h => by rw [page_setEvt, if_neg h]; exact k5 _ h, ?_⟩
    · rw [page_setEvt]; split
      · subst pg'; rw [k4 pg]
      · rw [k4 pg']
    · rw [k6]; rfl
  · exact ⟨k1, k2, k3, fun pg' => by rw [k4 pg'], k5, k6⟩

end Sys2Proof.Machine
end

