-- ==== Sys2Proof/Laws/Controls.lean ====
section
/-! SUPPORT. The common controls of a page (R37): what a wake, an ungating and a check leave as it was. -/

namespace Sys2Proof.Machine

/-- A page but for its event words, counters and stored registers. -/
def pageFlags (x : Page) : Bool × Bool × Bool × Bool := (x.enabled, x.draining, x.aborting, x.fault)

variable (s : State)

theorem setPage_setPage (pg : PageId) (x y : Page) : setPage (setPage s pg x) pg y = setPage s pg y := by
  simp only [setPage, tput_tput]

/-- A change of a page that keeps its flags keeps every page's. -/
theorem flags_modPage (pg q : PageId) (f : Page → Page) (h : ∀ x, pageFlags (f x) = pageFlags x) :
    pageFlags (page (modPage s pg f) q) = pageFlags (page s q) := by
  rw [modPage_eq]
  by_cases e : q = pg
  · subst e; rw [page_setPage, h]
  · rw [page_setPage_ne _ _ _ _ e]

theorem flags_setEvt (pg q : PageId) (b : Nat) : pageFlags (page (setEvt s pg b) q) = pageFlags (page s q) :=
  flags_modPage s pg q _ fun _ => rfl

theorem flags_count (pg q : PageId) (k n : Nat) : pageFlags (page (count s pg k n) q) = pageFlags (page s q) := by
  simp only [count]; split
  · exact flags_modPage s pg q _ fun _ => rfl
  · rw [flags_setEvt]; exact flags_modPage s pg q _ fun _ => rfl

/-- One bit of a word. -/
theorem bit_getLsbD (b k : Nat) (hb : b < 32) : (w32 (2 ^ b)).getLsbD k = (k == b) := by
  simp only [w32, BitVec.getLsbD_ofNat, Nat.testBit_two_pow]
  rw [Bool.eq_iff_iff]; simp; omega

/-- An event bit that is set reads 1, and no other changes. -/
theorem evt_setEvt (pg : PageId) (b k : Nat) (hb : b < 32) :
    (page (setEvt s pg b) pg).evt.getLsbD k = ((page s pg).evt.getLsbD k || k == b) := by
  rw [page_setEvt, if_pos rfl, BitVec.getLsbD_or, bit_getLsbD b k hb]

/-- A wake changes the power part, its counter and its event (R406). -/
theorem wake_flags (c : Nat) (q : PageId) : pageFlags (page (wake s c) q) = pageFlags (page s q) := by
  simp only [wake]; split
  · rw [flags_setEvt, flags_count]; rfl
  · rfl

/-- A frame over a state with another power part, said with the power part that is left. -/
theorem LogFrame.of_pwr {s t : State} {p : PwrSt} (h : LogFrame { s with pwr := p } t) : LogFrame { s with pwr := t.pwr } t := by
  have e : t.pwr = p := by rw [h]
  rw [e]; exact h

/-- Everything but pages, log, NV array, sessions, messages and the power part is as it was. -/
theorem wake_frame (c : Nat) : LogFrame { s with pwr := (wake s c).pwr } (wake s c) := by
  simp only [wake]; split
  · exact .of_pwr (s := s) ((count_logFrame _ .pwr 1 1).trans (setEvt_logFrame _ .pwr 8))
  · exact .refl _

theorem wake_ready (c : Nat) : (wake s c).ready = s.ready := by rw [wake_frame]
theorem wake_mem (c : Nat) : (wake s c).mem = s.mem := by rw [wake_frame]
theorem wake_clock (c : Nat) : clock (wake s c) = clock s := by simp only [clock]; rw [wake_frame]

/-- An ungating changes the power part and its counter (R407). -/
theorem ungate_frame (d : Nat) : LogFrame { s with pwr := (ungate s d).pwr } (ungate s d) := by
  simp only [ungate]; split
  · exact .of_pwr (s := s) (count_logFrame _ .pwr 2 1)
  · exact .refl _

theorem ungate_ready (d : Nat) : (ungate s d).ready = s.ready := by rw [ungate_frame]

theorem ungatePage_ready (pg : PageId) : (ungatePage s pg).ready = s.ready := by
  unfold ungatePage; split
  · rw [ungate_ready, ungate_ready]
  · split
    · rw [ungate_ready]
    · rfl

/-- Clearing the counters keeps the flags (R58). -/
theorem clearCounters_flags (pg : PageId) : pageFlags (page (clearCounters s pg) pg) = pageFlags (page s pg) := by
  have h := flags_modPage s pg pg (fun x => { x with ctrs := [], sat := 0 }) fun _ => rfl
  cases pg <;> first | exact h | skip
  · rw [← h]
    show pageFlags (page (setReg (modPage s .loopG _) .loopG 0x044 0) .loopG) = _
    rw [page_setReg, if_pos rfl]; rfl

/-- The result of a check is in CHECK, and a failed one in EVT.CHECK_FAILED (R39). -/
theorem setCheck_eq (pg : PageId) (r f : Nat) : setCheck s pg r f =
    if r = 0 then setPage s pg { page s pg with reason := BitVec.ofNat 16 r, field := BitVec.ofNat 8 f }
    else setPage s pg { page s pg with reason := BitVec.ofNat 16 r, field := BitVec.ofNat 8 f, evt := (page s pg).evt ||| 1 } := by
  rw [setCheck]; split
  · rfl
  · rw [setEvt, modPage_eq, modPage_eq, page_setPage, setPage_setPage]; rfl

/-- The end of a drain (R54). -/
theorem endDrain_eq (pg : PageId) : endDrain s pg = gatePage (onDrained (setPage s pg { page s pg with
    enabled := false, draining := false, aborting := false, fault := false, evt := (page s pg).evt ||| 2 }) pg) pg := by
  simp only [endDrain]; rw [setEvt, modPage_eq, modPage_eq, page_setPage, setPage_setPage]; rfl

end Sys2Proof.Machine
end

