-- ==== Sys2Proof/Laws/Queues.lean ====
section
/-! SUPPORT. Submission and completion queues: what reading one gives after each update, and what counting, logging and waking leave as
it was (R93, R94). -/

namespace Sys2Proof.Machine

variable (s : State)

theorem modSq_eq (p : Port) (q : Nat) (f : Sq → Sq) : modSq s p q f = setSq s p q (f (sq s p q)) := rfl
theorem modCq_eq (p : Port) (c : Nat) (f : Cq → Cq) : modCq s p c f = setCq s p c (f (cq s p c)) := rfl

@[simp] theorem sq_setSq (p : Port) (q : Nat) (x : Sq) : sq (setSq s p q x) p q = x := by
  unfold sq setSq; rw [modPort_eq, port_setPort]; exact tget_tput_same ..
@[simp] theorem cq_setCq (p : Port) (c : Nat) (x : Cq) : cq (setCq s p c x) p c = x := by
  unfold cq setCq; rw [modPort_eq, port_setPort]; exact tget_tput_same ..
theorem sq_setSq_ne (p p' : Port) (q q' : Nat) (x : Sq) (h : ¬ (p' = p ∧ q' = q)) : sq (setSq s p q x) p' q' = sq s p' q' := by
  unfold sq setSq; rw [modPort_eq]
  by_cases e : p' = p
  · subst e; rw [port_setPort]; exact tget_tput_ne _ _ _ _ _ fun e => h ⟨rfl, e⟩
  · rw [port_setPort_ne _ _ _ _ e]
theorem cq_setCq_ne (p p' : Port) (c c' : Nat) (x : Cq) (h : ¬ (p' = p ∧ c' = c)) : cq (setCq s p c x) p' c' = cq s p' c' := by
  unfold cq setCq; rw [modPort_eq]
  by_cases e : p' = p
  · subst e; rw [port_setPort]; exact tget_tput_ne _ _ _ _ _ fun e => h ⟨rfl, e⟩
  · rw [port_setPort_ne _ _ _ _ e]
@[simp] theorem cq_setSq (p p' : Port) (q c : Nat) (x : Sq) : cq (setSq s p q x) p' c = cq s p' c := by
  unfold cq setSq; rw [modPort_eq]
  by_cases e : p' = p
  · subst e; rw [port_setPort]
  · rw [port_setPort_ne _ _ _ _ e]
@[simp] theorem sq_setCq (p p' : Port) (q c : Nat) (x : Cq) : sq (setCq s p c x) p' q = sq s p' q := by
  unfold sq setCq; rw [modPort_eq]
  by_cases e : p' = p
  · subst e; rw [port_setPort]
  · rw [port_setPort_ne _ _ _ _ e]

/-- What a change of a command, a volume, a slice or a link leaves. -/
theorem cmd_modCmd (i j : Nat) (f : Cmd → Cmd) : cmd (modCmd s i f) j = if j = i then f (cmd s i) else cmd s j := by
  rw [modCmd_eq]; split
  · subst j; exact cmd_setCmd ..
  · exact cmd_setCmd_ne _ _ _ _ ‹_›
theorem vol_modVol (i j : Nat) (f : Vol → Vol) : vol (modVol s i f) j = if j = i then f (vol s i) else vol s j := by
  rw [modVol_eq]; split
  · subst j; exact vol_setVol ..
  · exact vol_setVol_ne _ _ _ _ ‹_›
theorem slice_modSlice (i j : Nat) (f : SliceSt → SliceSt) : slice (modSlice s i f) j = if j = i then f (slice s i) else slice s j := by
  rw [modSlice_eq]; split
  · subst j; exact slice_setSlice ..
  · exact slice_setSlice_ne _ _ _ _ ‹_›
theorem link_modLink (i j : Nat) (f : LinkSt → LinkSt) : link (modLink s i f) j = if j = i then f (link s i) else link s j := by
  rw [modLink_eq]; split
  · subst j; exact link_setLink ..
  · exact link_setLink_ne _ _ _ _ ‹_›

theorem sq_modSq (p : Port) (q : Nat) (f : Sq → Sq) : sq (modSq s p q f) p q = f (sq s p q) := sq_setSq ..
theorem cq_modCq (p : Port) (c : Nat) (f : Cq → Cq) : cq (modCq s p c f) p c = f (cq s p c) := cq_setCq ..

theorem modSq_ports (p : Port) (q : Nat) (f : Sq → Sq) : modSq s p q f = { s with ports := (modSq s p q f).ports } := rfl

/-- What an event-log entry cannot change. -/
theorem LogFrame.keeps {s t : State} (h : LogFrame s t) :
    (∀ p q, sq t p q = sq s p q) ∧ (∀ p c, cq t p c = cq s p c) ∧ (∀ v, vol t v = vol s v) ∧ (∀ n, slice t n = slice s n)
      ∧ (∀ n, link t n = link s n) ∧ (∀ c, cmd t c = cmd s c) ∧ (∀ k, sem t k = sem s k) ∧ (∀ m, mst t m = mst s m)
      ∧ (∀ p, port t p = port s p) := by
  rw [h]; exact ⟨fun _ _ => rfl, fun _ _ => rfl, fun _ => rfl, fun _ => rfl, fun _ => rfl, fun _ => rfl, fun _ => rfl, fun _ => rfl, fun _ => rfl⟩

/-- What a wake cannot change. -/
theorem wake_keeps (c : Nat) :
    (∀ p q, sq (wake s c) p q = sq s p q) ∧ (∀ p q, cq (wake s c) p q = cq s p q) ∧ (∀ v, vol (wake s c) v = vol s v)
      ∧ (∀ n, owner (wake s c) n = owner s n) ∧ (∀ k, sem (wake s c) k = sem s k) ∧ (∀ m, mst (wake s c) m = mst s m)
      ∧ (∀ p, port (wake s c) p = port s p) ∧ (wake s c).cmds = s.cmds ∧ (wake s c).masters = s.masters := by
  rw [wake_frame]; exact ⟨fun _ _ => rfl, fun _ _ => rfl, fun _ => rfl, fun _ => rfl, fun _ => rfl, fun _ => rfl, fun _ => rfl, rfl, rfl⟩

/-- After a wake the device is not in BIVOUAC. -/
theorem wake_bivouac (c : Nat) : (wake s c).pwr.bivouac = false := by
  simp only [wake]; split
  · have : ∀ t u : State, LogFrame t u → u.pwr = t.pwr := fun t u h => by rw [h]
    rw [this _ _ (setEvt_logFrame ..), this _ _ (count_logFrame ..)]
  · rename_i h; simpa using h

/-- A volume's next acceptance sequence is given from 1 up to 2^64 - 2 (R59). -/
theorem nextAcc_spec (v : Nat) :
    (nextAcc s v).2 = (if (vol s v).accSeq + 1 < allOnes then some ((vol s v).accSeq + 1) else none)
      ∧ (∀ w, vol (nextAcc s v).1 w = { vol s w with accSeq := (vol (nextAcc s v).1 w).accSeq })
      ∧ (nextAcc s v).1 = { s with vols := (nextAcc s v).1.vols } := by
  simp only [nextAcc]; split
  · refine ⟨rfl, fun w => ?_, rfl⟩
    rw [modVol_eq]
    by_cases h : w = v
    · subst h; rw [vol_setVol]
    · rw [vol_setVol_ne _ _ _ _ h]
  · exact ⟨rfl, fun _ => rfl, rfl⟩

/-- The acceptance sequence that a capsule of SQ `x` takes. -/
theorem acceptSeq_spec (x : Sq) :
    (acceptSeq s x).2 = (if sqDevice x = false ∧ (vol s (4 * sqTransport x + sqPartition x)).accSeq + 1 < allOnes
        then some ((vol s (4 * sqTransport x + sqPartition x)).accSeq + 1) else none)
      ∧ (∀ w, vol (acceptSeq s x).1 w = { vol s w with accSeq := (vol (acceptSeq s x).1 w).accSeq })
      ∧ (acceptSeq s x).1 = { s with vols := (acceptSeq s x).1.vols } := by
  unfold acceptSeq sqVol
  cases sqDevice x with
  | true => exact ⟨rfl, fun _ => rfl, rfl⟩
  | false => simp only [Bool.false_eq_true, if_false, true_and]; exact nextAcc_spec ..

theorem acceptSeq_vol (x : Sq) (w : Nat) :
    let n := (vol s (4 * sqTransport x + sqPartition x)).accSeq + 1
    vol (acceptSeq s x).1 w = { vol s w with accSeq := if sqVol x = some w ∧ n < allOnes then n else (vol s w).accSeq } := by
  dsimp only
  unfold acceptSeq sqVol
  cases sqDevice x with
  | true => simp
  | false =>
    simp only [Bool.false_eq_true, if_false, Option.some.injEq]
    unfold nextAcc
    dsimp only
    split
    · rename_i h
      rw [vol_modVol]
      by_cases e : w = 4 * sqTransport x + sqPartition x
      · subst e; simp [h]
      · rw [if_neg e, if_neg (fun k => e k.1.symm)]
    · rename_i h
      rw [if_neg (fun k => h k.2)]

/-- What taking a capsule comes to (R98). -/
theorem acceptCapsule_taken (p : Port) (q : Nat) (bytes : List Byte) :
    acceptCapsule s p q bytes =
      (let x := sq s p q
       let r := acceptSeq s x
       let u := count (setSq r.1 p q { x with inbox := x.inbox ++ [⟨bytes, r.2, sqDevice x || owner s (sqTransport x) == 1 + pIdx p⟩] }) (.hp p) 0
       if x.draining then flushInbox u p q else u) := by
  have hs : sq (acceptSeq s (sq s p q)).1 p q = sq s p q := by rw [(acceptSeq_spec s (sq s p q)).2.2]; rfl
  simp only [acceptCapsule, modSq_eq, hs]

/-- A burst inside one open range arrives whole (R109). -/
theorem windowStore_whole (p : Port) (q a : Nat) (b : List Byte) (g : Seg) (hb : 0 < b.length) (h : openSegAt s p q a = some g)
    (hf : a + b.length ≤ g.off + g.len) : windowStore s p q (b.length + 1) a b = (segArrive s g (a - g.off) b, false) := by
  have he : b.isEmpty = false := by cases b <;> simp_all
  have hk : min b.length (g.off + g.len - a) = b.length := by omega
  rw [windowStore, he]
  simp only [Bool.false_eq_true, if_false, h, hk, List.take_length, List.drop_length]
  cases hl : b.length with
  | zero => omega
  | succ n => simp [windowStore]

/-- A burst that meets no open range is dropped whole (R109). -/
theorem windowStore_none (p : Port) (q : Nat) : ∀ (n a : Nat) (b : List Byte), b.length < n → 0 < b.length →
    (∀ i, i < b.length → openSegAt s p q (a + i) = none) → windowStore s p q n a b = (s, true)
  | 0, _, _, h, _, _ => by omega
  | n + 1, a, b, h, h0, hn => by
    have he : b.isEmpty = false := by cases b <;> simp_all
    have h1 : openSegAt s p q a = none := by simpa using hn 0 h0
    rw [windowStore, he]
    simp only [Bool.false_eq_true, if_false, h1]
    cases b with
    | nil => simp at h0
    | cons x r =>
      cases hr : r with
      | nil => cases n <;> simp_all [windowStore]
      | cons y z =>
        have hl : r.length + 1 < n + 1 := by simpa using h
        have := windowStore_none p q n (a + 1) r (by omega) (by rw [hr]; simp) (fun i hi => by
          have := hn (i + 1) (by simpa using hi)
          rwa [show a + (i + 1) = a + 1 + i by omega] at this)
        rw [hr] at this
        simp [this]

/-- A capsule enters the inbox at its end (R98). -/
theorem acceptCapsule_spec (p : Port) (q : Nat) (bytes : List Byte) :
    let x := sq s p q
    let acc : Option Nat := if sqDevice x = false ∧ (vol s (4 * sqTransport x + sqPartition x)).accSeq + 1 < allOnes
      then some ((vol s (4 * sqTransport x + sqPartition x)).accSeq + 1) else none
    ∃ u, acceptCapsule s p q bytes = (if x.draining then flushInbox u p q else u)
      ∧ sq u p q = { x with inbox := x.inbox ++ [⟨bytes, acc, sqDevice x || owner s (sqTransport x) == 1 + pIdx p⟩] }
      ∧ (∀ v, vol u v = { vol s v with accSeq := (vol u v).accSeq })
      ∧ u.cmds = s.cmds ∧ u.sems = s.sems ∧ u.masters = s.masters ∧ u.pwr = s.pwr := by
  dsimp only
  obtain ⟨h1, h2, h3⟩ := acceptSeq_spec s (sq s p q)
  rw [← h1]
  simp only [acceptCapsule]
  generalize acceptSeq s (sq s p q) = r at *
  obtain ⟨t, a⟩ := r
  dsimp only at *
  have hs : sq t p q = sq s p q := by rw [h3]; rfl
  generalize Capsule.mk bytes a _ = k
  refine ⟨_, rfl, ?_, ?_, ?_⟩
  · rw [(count_logFrame ..).keeps.1, sq_modSq, hs]
  · intro v; rw [(count_logFrame ..).keeps.2.2.1]; exact h2 v
  · rw [count_logFrame, h3]; exact ⟨rfl, rfl, rfl, rfl⟩

/-- A command starts: its capsule leaves the inbox, it takes the next number and its volume's turn (R98, R127). -/
theorem startCmd_spec (p : Port) (q : Nat) (k : Capsule) (v : Option Nat) :
    let u := startCmd s p q k v
    sq u p q = { sq s p q with inbox := (sq s p q).inbox.erase k, sqhd := ((sq s p q).sqhd + 1) % 65536 }
      ∧ u.nextCid = s.nextCid + 1 ∧ (cmd u s.nextCid).bytes = k.bytes ∧ (cmd u s.nextCid).port = p
      ∧ (cmd u s.nextCid).sq = q ∧ (cmd u s.nextCid).accSeq = k.accSeq ∧ (cmd u s.nextCid).vol = v
      ∧ (cmd u s.nextCid).phase = .started ∧ (∀ c, c ≠ s.nextCid → cmd u c = cmd s c)
      ∧ (∀ w, vol u w = if v = some w then { vol s w with turn := some s.nextCid } else vol s w)
      ∧ u = { s with ports := u.ports, cmds := u.cmds, nextCid := u.nextCid, vols := u.vols } := by
  simp only [startCmd]
  have s1 := sq_modSq s p q fun x => { x with inbox := x.inbox.erase k, sqhd := (x.sqhd + 1) % 65536 }
  have e1 := modSq_ports s p q fun x => { x with inbox := x.inbox.erase k, sqhd := (x.sqhd + 1) % 65536 }
  generalize modSq s p q (fun x => { x with inbox := x.inbox.erase k, sqhd := (x.sqhd + 1) % 65536 }) = t at *
  have c1 : ∀ c : Nat, cmd (addCmd t (newCmd s p q k v)) c = if c = s.nextCid then newCmd s p q k v else cmd s c := by
    intro c
    have hn : t.nextCid = s.nextCid := by rw [e1]
    have hc : t.cmds = s.cmds := by rw [e1]
    unfold addCmd cmd
    rw [hn, hc]
    split
    · subst c; exact tget_tput_same ..
    · exact tget_tput_ne _ _ _ _ _ ‹_›
  have v1 : ∀ w, vol (addCmd t (newCmd s p q k v)) w = vol s w := fun w => by unfold addCmd vol; rw [e1]
  have q1 : sq (addCmd t (newCmd s p q k v)) p q = sq t p q := rfl
  have n1 : (addCmd t (newCmd s p q k v)).nextCid = s.nextCid + 1 := by unfold addCmd; rw [e1]
  have r1 : addCmd t (newCmd s p q k v) = { s with ports := (addCmd t (newCmd s p q k v)).ports, cmds := (addCmd t (newCmd s p q k v)).cmds, nextCid := (addCmd t (newCmd s p q k v)).nextCid } := by
    unfold addCmd; rw [e1]
  have hd : (newCmd s p q k v).bytes = k.bytes ∧ (newCmd s p q k v).port = p ∧ (newCmd s p q k v).sq = q ∧ (newCmd s p q k v).accSeq = k.accSeq
    ∧ (newCmd s p q k v).vol = v ∧ (newCmd s p q k v).phase = .started := ⟨rfl, rfl, rfl, rfl, rfl, rfl⟩
  generalize newCmd s p q k v = c0 at *
  generalize addCmd t c0 = r at *
  have tc : (∀ c, cmd (takeTurn r v s.nextCid) c = cmd r c) ∧ sq (takeTurn r v s.nextCid) p q = sq r p q
      ∧ (takeTurn r v s.nextCid).nextCid = r.nextCid ∧ takeTurn r v s.nextCid = { r with vols := (takeTurn r v s.nextCid).vols }
      ∧ ∀ w, vol (takeTurn r v s.nextCid) w = if v = some w then { vol r w with turn := some s.nextCid } else vol r w := by
    unfold takeTurn
    cases v with
    | none => exact ⟨fun _ => rfl, rfl, rfl, rfl, fun w => by simp⟩
    | some v =>
      refine ⟨fun _ => rfl, rfl, rfl, rfl, fun w => ?_⟩
      dsimp only; rw [modVol_eq]
      by_cases h : w = v
      · subst h; rw [vol_setVol, if_pos rfl]
      · rw [vol_setVol_ne _ _ _ _ h, if_neg (by simpa using fun e => h e.symm)]
  obtain ⟨t1, t2, t3, t4, t5⟩ := tc
  refine ⟨by rw [t2, q1, s1], by rw [t3, n1], ?_, ?_, ?_, ?_, ?_, ?_, fun c hc => ?_, fun w => ?_, ?_⟩
  · rw [t1, c1, if_pos rfl]; exact hd.1
  · rw [t1, c1, if_pos rfl]; exact hd.2.1
  · rw [t1, c1, if_pos rfl]; exact hd.2.2.1
  · rw [t1, c1, if_pos rfl]; exact hd.2.2.2.1
  · rw [t1, c1, if_pos rfl]; exact hd.2.2.2.2.1
  · rw [t1, c1, if_pos rfl]; exact hd.2.2.2.2.2
  · rw [t1, c1, if_neg hc]
  · rw [t5, v1]
  · rw [t4, r1]

/-- A write of a register of an SQ that has the right takes effect (R93). -/
theorem mmioWrite_sq (m : Master) (p : Port) (q off : Nat) (v : Word) (hq : q < 64) (ho : off < 64) (hm : off % 4 = 0)
    (h : Safety.canWrite s m (.sq p q off) = true) : mmioWrite s m (sqAddr p q off) 0xF v = sqWrite s p q off v := by
  have e := spotOf_sq p q off hq ho
  rw [mmioWrite_of_can s m _ v (by simp only [sqAddr]; omega) (by rw [e]; exact h), e]
  simp only [applyWrite, isLo, isHi, Bool.false_eq_true, if_false]

/-- A write of a narrow register of a CQ that has the right takes effect (R94). -/
theorem mmioWrite_cq (m : Master) (p : Port) (c off : Nat) (v : Word) (hq : c < 64) (ho : off < 64) (hm : off % 4 = 0)
    (h1 : off ≠ 8) (h2 : off ≠ 12)
    (h : Safety.canWrite s m (.cq p c off) = true) : mmioWrite s m (cqAddr p c off) 0xF v = cqWrite s p c off v := by
  have e := spotOf_cq p c off hq ho
  rw [mmioWrite_of_can s m _ v (by simp only [cqAddr]; omega) (by rw [e]; exact h), e]
  have i1 : isLo (.cq p c off) = false := by simpa [isLo] using h1
  have i2 : isHi (.cq p c off) = false := by simpa [isHi] using h2
  simp only [applyWrite, i1, i2, Bool.false_eq_true, if_false]

/-- The capsules of an inbox take consecutive acceptance sequences of their volume, in inbox order (R150, R81). -/
theorem resequence_spec (p : Port) (q v : Nat) (hv : sqVol (sq s p q) = some v) :
    let n := (vol s v).accSeq
    let u := resequence s p q
    sq u p q = { sq s p q with inbox := (sq s p q).inbox.mapIdx fun i k => { k with accSeq := Safety.accAt n i } }
      ∧ (∀ p' q', ¬ (p' = p ∧ q' = q) → sq u p' q' = sq s p' q')
      ∧ (∀ w, vol u w = { vol s w with accSeq := (vol u w).accSeq }) ∧ u = { s with ports := u.ports, vols := u.vols } := by
  dsimp only
  unfold resequence
  rw [hv]
  have go : ∀ (l : List Capsule) (t : State) (l0 : List Capsule),
      let r := l.foldl (fun (r : State × List Capsule) k =>
        ((nextAcc r.1 v).1, r.2 ++ [{ k with accSeq := (nextAcc r.1 v).2 }])) (t, l0)
      r.2 = l0 ++ l.mapIdx (fun i k => { k with accSeq := Safety.accAt (vol t v).accSeq i })
        ∧ (∀ w, vol r.1 w = { vol t w with accSeq := (vol r.1 w).accSeq }) ∧ r.1 = { t with vols := r.1.vols } := by
    intro l
    induction l with
    | nil => intro t l0; exact ⟨by simp, fun _ => rfl, rfl⟩
    | cons k l ih =>
      intro t l0
      obtain ⟨a1, a2, a3⟩ := nextAcc_spec t v
      have a4 : (vol (nextAcc t v).1 v).accSeq = if (vol t v).accSeq + 1 < allOnes then (vol t v).accSeq + 1 else (vol t v).accSeq := by
        simp only [nextAcc]; split
        · rw [modVol_eq, vol_setVol]
        · rfl
      dsimp only [List.foldl_cons]
      obtain ⟨b1, b2, b3⟩ := ih (nextAcc t v).1 (l0 ++ [{ k with accSeq := (nextAcc t v).2 }])
      generalize List.foldl _ _ l = r at *
      refine ⟨?_, fun w => by rw [b2, a2], by rw [b3, a3]⟩
      rw [b1, a1, a4, List.mapIdx_cons, List.append_assoc, List.singleton_append]
      have e : ∀ i, Safety.accAt (if (vol t v).accSeq + 1 < allOnes then (vol t v).accSeq + 1 else (vol t v).accSeq) i
          = Safety.accAt (vol t v).accSeq (i + 1) := by
        intro i
        by_cases h : (vol t v).accSeq + 1 < allOnes
        · rw [if_pos h]; unfold Safety.accAt
          rw [show (vol t v).accSeq + 1 + i + 1 = (vol t v).accSeq + (i + 1) + 1 by omega]
        · rw [if_neg h]; unfold Safety.accAt allOnes at *
          rw [if_neg (by omega), if_neg (by omega)]
      simp only [e]
      rfl
  obtain ⟨g1, g2, g3⟩ := go (sq s p q).inbox s []
  dsimp only at g1 g2 g3 ⊢
  generalize List.foldl _ _ (sq s p q).inbox = r at *
  obtain ⟨u, l⟩ := r
  dsimp only at *
  subst g1
  have hs : sq u p q = sq s p q := by rw [g3]; rfl
  refine ⟨?_, fun p' q' h => ?_, fun w => g2 w, ?_⟩
  · rw [sq_modSq, hs]; simp
  · rw [modSq_eq, sq_setSq_ne _ _ _ _ _ _ h]; rw [g3]; rfl
  · have e := modSq_ports u p q fun x => { x with inbox := [] ++ (sq s p q).inbox.mapIdx fun i k =>
          { k with accSeq := Safety.accAt (vol s v).accSeq i } }
    generalize modSq u p q _ = w at *
    rw [e, g3]

end Sys2Proof.Machine
end

