-- ==== Sys2Proof/Laws/Bodies.lean ====
section
/-! SUPPORT. The bodies of started commands: when one runs, and the cut of a WRITE into segments (R108). -/

namespace Sys2Proof.Machine

variable (s : State)

/-- What D3hot holds back. -/
theorem dmaHeld_iff (cid opc : Nat) : dmaHeld s cid opc = false ↔
    ((port s (cmd s cid).port).d3hot = true → opc = 1 ∨ opc = 7 ∨ opc = 0x20 → (cmd s cid).mute = true) := by
  simp only [dmaHeld, Bool.and_eq_false_iff, Bool.or_eq_false_iff, Bool.not_eq_false', beq_eq_false_iff_ne]
  cases (port s (cmd s cid).port).d3hot <;> cases (cmd s cid).mute <;> simp
  omega

/-- The body of a command that may begin runs. -/
theorem atStart_of_begins (cid opc : Nat) (h : Safety.begins s cid opc) : atStart s cid opc = true := by
  obtain ⟨h1, h2, h3, h6, c, h4, h5⟩ := h
  have h7 := (dmaHeld_iff s cid opc).mpr h6
  simp only [atStart, cOpc, h1, h2, h3, h7, Bool.and_eq_true, List.any_eq_true]
  exact ⟨⟨⟨⟨rfl, by simp⟩, rfl⟩, rfl⟩, c, h4, by simp [h5]⟩

theorem runBody_of_begins (cid opc : Nat) (body : State → Nat → State) (h : Safety.begins s cid opc) :
    runBody s cid opc body = progressOf (body s cid) cid := by
  rw [runBody, if_pos (atStart_of_begins s cid opc h)]

theorem atStart_iff (cid opc : Nat) : atStart s cid opc = true ↔ Safety.begins s cid opc := by
  refine ⟨fun h => ?_, atStart_of_begins s cid opc⟩
  simp only [atStart, cOpc, Bool.and_eq_true, List.any_eq_true, beq_iff_eq, Bool.not_eq_true'] at h
  exact ⟨h.1.1.1.1, h.1.1.1.2, h.1.1.2, (dmaHeld_iff s cid opc).mp h.1.2, h.2⟩

/-- Otherwise nothing happens. -/
theorem runBody_of_not (cid opc : Nat) (body : State → Nat → State) (h : ¬ Safety.begins s cid opc) : runBody s cid opc body = s := by
  rw [runBody, if_neg (by rwa [atStart_iff])]

theorem foldl_add (l : List Nat) (a : Nat) : l.foldl (· + ·) a = a + l.sum := by
  induction l generalizing a with
  | nil => rfl
  | cons x l ih => rw [List.foldl_cons, ih, List.sum_cons]; omega

/-- Cutting into segments loses no record and changes no order (R108). -/
theorem cutSegs_flatten (ls : List Nat) (t : Nat) (acc : List Nat) : (cutSegs ls t acc).flatten = acc.reverse ++ ls := by
  induction ls generalizing t acc with
  | nil => simp only [cutSegs]; split <;> simp_all
  | cons r rest ih =>
    simp only [cutSegs]; split
    · rw [ih]; simp
    · rw [List.flatten_cons, ih]; simp

/-- The segments of a WRITE: their records, numbers and LBNs (R108). -/
theorem mkSegs_spec (cid v : Nat) (ls : List (List Nat)) (no lbn : Nat) :
    let gs := mkSegs cid v ls no lbn
    gs.map (·.recs) = ls ∧ gs.map (·.no) = (List.range ls.length).map (no + ·)
      ∧ (∀ g ∈ gs, g.cid = cid ∧ g.vol = v ∧ g.len = g.recs.sum ∧ g.endLbn = g.firstLbn + g.recs.length ∧ g.phase = .later)
      ∧ (∀ (i : Nat) (a b : Seg), gs[i]? = some a → gs[i + 1]? = some b → b.firstLbn = a.endLbn)
      ∧ (∀ a, gs[0]? = some a → a.firstLbn = lbn) := by
  induction ls generalizing no lbn with
  | nil => exact ⟨rfl, rfl, by simp [mkSegs], by simp [mkSegs], by simp [mkSegs]⟩
  | cons l ls ih =>
    obtain ⟨i1, i2, i3, i4, i5⟩ := ih (no + 1) (lbn + l.length)
    dsimp only at *
    refine ⟨?_, ?_, ?_, ?_, ?_⟩
    · simp only [mkSegs, List.map_cons, i1]
    · simp only [mkSegs, List.map_cons, i2, List.length_cons, List.range_succ_eq_map, List.map_map]
      congr 1
      apply List.map_congr_left
      intro a _; simp only [Function.comp_apply]; omega
    · intro g hg
      simp only [mkSegs, List.mem_cons] at hg
      rcases hg with hg | hg
      · subst hg; exact ⟨rfl, rfl, by simp only [sumLens, foldl_add, Nat.zero_add], rfl, rfl⟩
      · exact i3 g hg
    · intro i a b h1 h2
      cases i with
      | zero =>
        simp only [mkSegs, List.getElem?_cons_zero, Option.some.injEq, List.getElem?_cons_succ] at h1 h2
        have := i5 b h2
        subst h1; exact this
      | succ i => exact i4 i a b (by simpa [mkSegs] using h1) (by simpa [mkSegs] using h2)
    · intro a h
      simp only [mkSegs, List.getElem?_cons_zero, Option.some.injEq] at h
      subst h; rfl

theorem modCmd_modCmd (i : Nat) (f g : Cmd → Cmd) : modCmd (modCmd s i f) i g = modCmd s i fun c => g (f c) := by
  simp only [modCmd_eq, setCmd, cmd, tget_tput_same, tput_tput]

/-- A command that has been changed, and no other. -/
theorem modCmd_at (i : Nat) (f : Cmd → Cmd) : cmd (modCmd s i f) i = f (cmd s i) ∧ (∀ j, j ≠ i → cmd (modCmd s i f) j = cmd s j)
    ∧ modCmd s i f = { s with cmds := (modCmd s i f).cmds } :=
  ⟨by rw [cmd_modCmd, if_pos rfl], fun j h => by rw [cmd_modCmd, if_neg h], rfl⟩

/-- Nothing is truncated at or beyond end of data (R134). -/
theorem afterTrunc_beyond (cid : Nat) (go : State → State) (h : (vol s (cmdVol s cid)).eod ≤ (cmd s cid).lbn) :
    afterTrunc s cid go = go s := by
  simp only [afterTrunc]; rw [if_pos h]

/-- The segments of a WRITE join its volume, the first one waiting for admission (R108). -/
theorem writeSegs_spec (cid : Nat) :
    let c := cmd s cid
    let v := cmdVol s cid
    let t := writeSegs s cid
    (∃ gs, (vol t v).segs = (vol s v).segs ++ gs ∧ gs.map (·.recs) = c.segs ∧ gs.map (·.no) = List.range c.segs.length
        ∧ (∀ g ∈ gs, g.cid = cid ∧ g.len = g.recs.sum ∧ g.endLbn = g.firstLbn + g.recs.length ∧ (g.phase = if g.no = 0 then .waitAdmit else .later)
          ∧ g.par = (vol s v).par)
        ∧ (∀ (i : Nat) (a b : Seg), gs[i]? = some a → gs[i + 1]? = some b → b.firstLbn = a.endLbn)
        ∧ (∀ a, gs[0]? = some a → a.firstLbn = c.lbn))
      ∧ (slice t (v / 4)).toAdmit = (slice s (v / 4)).toAdmit ++ [(cid, 0)] ∧ (cmd t cid).phase = .transfer := by
  dsimp only
  obtain ⟨i1, i2, i3, i4, i5⟩ := mkSegs_spec cid (cmdVol s cid) (cmd s cid).segs 0 (cmd s cid).lbn
  try dsimp only at *
  generalize hgs : mkSegs cid (cmdVol s cid) (cmd s cid).segs 0 (cmd s cid).lbn = gs at *
  have hm : ∀ f : Seg → Seg, (∀ g, (f g).recs = g.recs ∧ (f g).no = g.no) → (gs.map f).map (·.recs) = gs.map (·.recs) ∧ (gs.map f).map (·.no) = gs.map (·.no) := by
    intro f hf
    simp only [List.map_map]
    exact ⟨List.map_congr_left fun g _ => (hf g).1, List.map_congr_left fun g _ => (hf g).2⟩
  refine ⟨⟨gs.map fun g => { g with phase := if g.no = 0 then .waitAdmit else g.phase, par := (vol s (cmdVol s cid)).par },
    ?_, ?_, ?_, ?_, ?_, ?_⟩, ?_, ?_⟩
  · simp only [writeSegs, hgs]
    rw [modCmd_eq, vol_setCmd, modSlice_eq, vol_setSlice, vol_modVol, if_pos rfl]
  · exact (hm (fun g => { g with phase := if g.no = 0 then .waitAdmit else g.phase, par := _ }) fun _ => ⟨rfl, rfl⟩).1.trans i1
  · exact (hm (fun g => { g with phase := if g.no = 0 then .waitAdmit else g.phase, par := _ }) fun _ => ⟨rfl, rfl⟩).2.trans
      (by rw [i2]; simp)
  · intro g hg
    obtain ⟨h, hh, e⟩ := List.mem_map.mp hg
    obtain ⟨a1, _, a3, a4, a5⟩ := i3 h hh
    subst e
    exact ⟨a1, a3, a4, by simp [a5], rfl⟩
  · intro i a b h1 h2
    simp only [List.getElem?_map, Option.map_eq_some_iff] at h1 h2
    obtain ⟨a', ha, ea⟩ := h1
    obtain ⟨b', hb, eb⟩ := h2
    have := i4 i a' b' ha hb
    subst ea eb
    exact this
  · intro a h
    simp only [List.getElem?_map, Option.map_eq_some_iff] at h
    obtain ⟨a', ha, ea⟩ := h
    have := i5 a' ha
    subst ea
    exact this
  · simp only [writeSegs]
    rw [modCmd_eq, slice_setCmd, slice_modSlice, if_pos rfl]; rfl
  · simp only [writeSegs]
    rw [cmd_modCmd, if_pos rfl]

end Sys2Proof.Machine
end

