-- ==== Sys2Proof/Laws/Bytes.lean ====
section
/-! SUPPORT. Numbers as bytes, least significant first (R9). -/

namespace Sys2Proof.Machine

theorem leBytes_length (n v : Nat) : (leBytes n v).length = n := by
  induction n generalizing v with
  | zero => rfl
  | succ n ih => simp only [leBytes, List.length_cons, ih]

/-- The bytes of a number spell it, up to their count. -/
theorem leNat_leBytes (n v : Nat) : leNat (leBytes n v) = v % 256 ^ n := by
  induction n generalizing v with
  | zero => simp [leBytes, leNat, Nat.mod_one]
  | succ n ih =>
    simp only [leBytes, leNat, ih, BitVec.toNat_ofNat]
    rw [show 256 ^ (n + 1) = 256 * 256 ^ n by rw [Nat.pow_succ, Nat.mul_comm], Nat.mod_mul]

/-- A part that lies whole in a list. -/
theorem sub_mid (a b c : List Byte) : sub (a ++ (b ++ c)) a.length b.length = b := by
  apply List.ext_getElem
  · simp [sub]
  · intro i h1 h2
    simp only [sub, List.getElem_map, List.getElem_range]
    rw [List.getD_eq_getElem?_getD, List.getElem?_append_right (by omega), Nat.add_sub_cancel_left,
      List.getElem?_append_left h2, List.getElem?_eq_getElem h2]
    rfl

/-- A number among bytes: `n` bytes at the place where they stand. -/
theorem leAt_mid (a : List Byte) (n v : Nat) (c : List Byte) : leAt (a ++ (leBytes n v ++ c)) a.length n = v % 256 ^ n := by
  have := sub_mid a (leBytes n v) c
  rw [leBytes_length] at this
  rw [leAt, this, leNat_leBytes]

end Sys2Proof.Machine
end

