-- ==== Sys2Proof/Laws/Flits.lean ====
section
/-! SUPPORT. What the receiver of a transport link does with a flit, case by case (R338 to R342). -/

namespace Sys2Proof.Machine

variable (s : State)

/-- Counting what FEC told of leaves every link as it was. -/
theorem link_fecCounted (n k : Fin 16) (flit : LinkFlit) : link (Safety.fecCounted s n flit) k.val = link s k.val := by
  have h : LogFrame s (Safety.fecCounted s n flit) := by
    simp only [Safety.fecCounted]
    have a : LogFrame s (if flit.corrected = 0 then s else count s (.link n) 2 flit.corrected) := by
      split
      · exact .refl s
      · exact count_logFrame ..
    generalize (if flit.corrected = 0 then s else count s (.link n) 2 flit.corrected) = t at *
    split
    · exact a
    · exact a.trans (count_logFrame ..)
  rw [h]; rfl

/-- The ACK word of a flit: what it acknowledges goes, a NAK resends, and then what waits is sent (R340, R342). -/
theorem rxAck_eq (n : Fin 16) (ty w : Nat) :
    rxAck s n.val ty w =
      (let acked := if ty ≠ 1 ∧ w / 2 ^ 15 = 1 then takeAck s n.val (w % 2 ^ 13) else s
       let sent := if ty ≠ 1 ∧ w / 2 ^ 14 % 2 = 1 then resendAll acked n.val else (acked, false)
       (if sent.2 then sent.1 else if ty = 1 then sent.1 else pumpAll sent.1 n.val, sent.2)) := by
  by_cases h : ty = 1
  · subst h; simp [rxAck, tyChan]
  · simp [rxAck, tyChan, h]

/-- What the receiver does with a flit whose codeword was good, case by case, whatever `K` is made of the verdict. -/
theorem flit_cases (n : Fin 16) (flit : List Byte) (ty : Nat) (K : State → RxVerdict → Prop)
    (ht : ty = 0 ∨ ty = 1 ∨ ty = 2 ∨ ty = 3 ∨ ty = 4 ∨ ty = 5)
    (row : ∀ t v, rxFlit s n.val ty flit = (t, v) → K t v)
    (live : (link s n.val).phase = .loading ∨ (link s n.val).phase = .up) :
    let head := leAt flit 0 2
    let w := leAt flit 2 2
    let crc := leAt flit 62 2 = (crc16 (sub flit 0 62)).toNat
    let s1 := count s (.link n) 1
    let good := crc ∧ head / 2 ^ 13 = ty ∧ reservedOk ty flit = true
    let acked := if ty ≠ 1 ∧ w / 2 ^ 15 = 1 then takeAck s1 n.val (w % 2 ^ 13) else s1
    let sent := if ty ≠ 1 ∧ w / 2 ^ 14 % 2 = 1 then resendAll acked n.val else (acked, false)
    let ready := if ty = 1 then sent.1 else pumpAll sent.1 n.val
    let ahead := (head % 2 ^ 13 + 8192 - (link ready n.val).rxSeq) % 8192
    let lost := ahead ≠ 0 ∧ ahead < 4096 ∧ (link ready n.val).nakSent = false
    let numbered := ty = 1 ∨ ty = 2 ∨ ty = 3 ∨ ty = 5
    (¬ crc → (link s n.val).nakSent = true → K (count s1 (.link n) 4) .discard)
    ∧ (¬ crc → (link s n.val).nakSent = false → K (sendNak (count s1 (.link n) 4) n.val) .discard)
    ∧ (crc → head / 2 ^ 13 = 6 ∨ head / 2 ^ 13 = 7 ∨ (head / 2 ^ 13 = ty ∧ reservedOk ty flit = false) → K s1 .protocol)
    ∧ (crc → head / 2 ^ 13 ≠ 6 → head / 2 ^ 13 ≠ 7 → head / 2 ^ 13 ≠ ty → K s1 .discard)
    ∧ (good → sent.2 = true → K sent.1 .overLimit)
    ∧ (good → sent.2 = false → ¬ numbered → (lost → K (sendNak ready n.val) .deliver) ∧ (¬ lost → K ready .deliver))
    ∧ (good → sent.2 = false → numbered →
      (ahead = 0 → K (sendUnseq (modLink ready n.val fun l =>
        { l with rxSeq := (l.rxSeq + 1) % 8192, rxAny := true, nakSent := false }) n.val 0 false []) .deliver)
      ∧ (ahead ≠ 0 → (lost → K (sendNak ready n.val) .discard) ∧ (¬ lost → K ready .discard))) := by
  intro head w crc s1 good acked sent ready ahead lost numbered
  have hn : tFin n.val = n := tFin_of_lt n.isLt
  generalize hl : link s n.val = l at *
  have live' : (l.phase != .loading && l.phase != .up) = false := by rcases live with h | h <;> simp [h]
  have hr : rxAck (count s (.link n) 1) n.val ty (leAt flit 2 2) = (if sent.2 then sent.1 else ready, sent.2) := rxAck_eq ..
  have place : good → rxFlit s n.val ty flit =
      if sent.2 then (sent.1, .overLimit) else rxPlace ready n.val ty (head % 2 ^ 13) := by
    rintro ⟨h2, h3, h4⟩
    simp only [rxFlit, hn, hl]
    rw [if_neg (by simp [live']), if_neg (by simpa [crc] using h2), if_neg (by simp [head] at h3 ⊢; omega),
      if_neg (by simpa [head] using h3), if_neg (by simp [h4]), hr]
    cases sent.2 <;> rfl
  have num : sequenced ty = decide numbered := by
    rcases ht with h | h | h | h | h | h <;> subst h <;> rfl
  have miss : (seqAhead (link ready n.val) (head % 2 ^ 13) != 0 && decide (seqAhead (link ready n.val) (head % 2 ^ 13) < 4096)
      && !(link ready n.val).nakSent) = decide lost := by
    rw [Bool.eq_iff_iff]; simp only [seqAhead, bne_iff_ne, Bool.and_eq_true, Bool.not_eq_true', and_assoc, ne_eq, decide_eq_true_eq]
    exact ⟨fun h => ⟨h.1, of_decide_eq_true h.2.1, h.2.2⟩, fun h => ⟨h.1, decide_eq_true h.2.1, h.2.2⟩⟩
  have placed : good → sent.2 = false → rxFlit s n.val ty flit =
      if decide numbered = false then (if decide lost then sendNak ready n.val else ready, .deliver)
      else rxPlace ready n.val ty (head % 2 ^ 13) := by
    intro h1 h2
    rw [place h1, if_neg (by simp [h2])]
    by_cases h : numbered
    · rw [if_neg (by simp [h])]
    · rw [if_pos (by simp [h])]; simp only [rxPlace, num, miss, h, decide_false, Bool.not_false, if_true]
  have numb : good → sent.2 = false → numbered → rxFlit s n.val ty flit = rxPlace ready n.val ty (head % 2 ^ 13) :=
    fun h1 h2 h3 => (placed h1 h2).trans (if_neg (by simp [h3]))
  refine ⟨?_, ?_, ?_, ?_, fun h1 h2 => row _ _ ((place h1).trans (if_pos h2)), ?_, ?_⟩
  · intro h2 h3; apply row
    simp only [rxFlit, hn, hl]; rw [if_neg (by simp [live']), if_pos (by simpa [crc] using h2), if_pos h3]
  · intro h2 h3; apply row
    simp only [rxFlit, hn, hl]; rw [if_neg (by simp [live']), if_pos (by simpa [crc] using h2), if_neg (by simp [h3])]
  · intro h2 h3; apply row
    simp only [rxFlit, hn, hl]; rw [if_neg (by simp [live']), if_neg (by simpa [crc] using h2)]
    rcases h3 with h3 | h3 | h3
    · rw [if_pos (by simp only [head] at h3; rw [h3]; rfl)]
    · rw [if_pos (by simp only [head] at h3; rw [h3]; rfl)]
    · rw [if_neg (by have := h3.1; simp only [head] at this; simp; omega), if_neg (by simpa [head] using h3.1), if_pos (by simp [h3.2])]
  · intro h3 h4 h5 h6; apply row
    simp only [rxFlit, hn, hl]
    rw [if_neg (by simp [live']), if_neg (by simpa [crc] using h3), if_neg (by rw [decide_eq_false h4, decide_eq_false h5]; decide),
      if_pos (bne_iff_ne.mpr h6)]
  · intro h1 h2 h3
    have e := (placed h1 h2).trans (if_pos (decide_eq_false h3))
    refine ⟨fun h4 => ?_, fun h4 => ?_⟩
    · exact row _ _ (e.trans (by rw [if_pos (decide_eq_true h4)]))
    · exact row _ _ (e.trans (by rw [if_neg (by simpa using h4)]))
  · intro h1 h2 h3
    have e := numb h1 h2 h3
    simp only [rxPlace, num, miss] at e
    rw [if_neg (by rw [decide_eq_true h3]; decide)] at e
    constructor
    · intro h4; rw [if_pos (by exact h4)] at e; exact row _ _ e
    · intro h4; rw [if_neg (by exact h4)] at e
      constructor <;> intro h5 <;> apply row
      · rw [e, if_pos (decide_eq_true h5)]
      · rw [e, if_neg (by simpa using h5)]

/-- Four bytes make a number below 2^32. -/
theorem leAt_lt4 (f : List Byte) (off : Nat) : leAt f off 4 < 2 ^ 32 := by
  have go : ∀ l : List Byte, leNat l < 256 ^ l.length := by
    intro l
    induction l with
    | nil => simp [leNat]
    | cons b r ih =>
      have := b.isLt
      simp only [leNat, List.length_cons, Nat.pow_succ]
      omega
  have h := go (sub f off 4)
  have hl : (sub f off 4).length = 4 := by simp [sub]
  rw [hl] at h
  exact h

/-- The round trip that a TIME flit shows (R351): from the departure of the frame that it names, `back` frames before the one that leaves
now, less the time that the bridge held it. -/
theorem roundTrip_of (n d h back : Nat) (hb : back < 2 ^ 32) (hd : d < 2 ^ 32) :
    let t := clock s - (Machine.link s n).frameAt
    let k := t * 5 / 1024
    (d + back) % 2 ^ 32 = frameNumber (Machine.link s n).frameFirst k →
    roundTrip s n d h = if back ≤ k ∧ h ≤ t - frameDeparts (k - back) then some (t - frameDeparts (k - back) - h) else none := by
  intro t k hk
  have e : (frameNumber (Machine.link s n).frameFirst k + 2 ^ 32 - d) % 2 ^ 32 = back := by rw [← hk]; omega
  have r : roundTrip s n d h = (fun b => if decide (b ≤ k) && decide (h ≤ t - frameDeparts (k - b)) then some (t - frameDeparts (k - b) - h) else none)
      ((frameNumber (Machine.link s n).frameFirst k + 2 ^ 32 - d) % 2 ^ 32) := rfl
  rw [r, e]
  simp only [Bool.and_eq_true, decide_eq_true_eq]

theorem timeUp_some (n r : Nat) (f : List Byte) (h : roundTrip s n (leAt f 4 4) (leAt f 8 4) = some r) :
    timeUp s n f = storeDelay s n (r / 2) := by
  exact congrArg (takeTrip s n) h

theorem timeUp_none (n : Nat) (f : List Byte) (h : roundTrip s n (leAt f 4 4) (leAt f 8 4) = none) :
    timeUp s n f = nextFree (storeDelay s n (freeVal s)) := by
  exact congrArg (takeTrip s n) h

/-- Whatever a row does with the receiver's verdict, the cases of the receiver give it. -/
theorem flit_reception (n : Fin 16) (flit : LinkFlit) (c : Instr) (ty : Nat) (go : State → State)
    (ht : ty = 0 ∨ ty = 1 ∨ ty = 2 ∨ ty = 3 ∨ ty = 4 ∨ ty = 5)
    (row : ∀ t v, rxLink s n.val ty flit = (t, v) → Safety.answers (exec c s) s (progress (afterRx t n.val v go) n.val)) :
    Safety.receives s n flit c ty go := by
  unfold Safety.receives
  dsimp only
  have hn : tFin n.val = n := tFin_of_lt n.isLt
  have hk := link_fecCounted s n n flit
  have link : ∀ t v, rxLink s n.val ty flit = (t, v) → Safety.answers (exec c s) s (progress (afterRx t n.val v go) n.val) := row
  generalize hl : Machine.link s n.val = l at *
  have live' : (l.phase = .loading ∨ l.phase = .up) → (l.phase != .loading && l.phase != .up) = false := by
    rintro (h | h) <;> simp [h]
  have open' : (l.phase = .loading ∨ l.phase = .up) → rxLink s n.val ty flit =
      if flit.lost then (if l.nakSent then Safety.fecCounted s n flit else sendNak (Safety.fecCounted s n flit) n.val, .discard)
      else rxFlit (Safety.fecCounted s n flit) n.val ty flit.bytes := by
    intro h
    simp only [rxLink, hn, hl]
    rw [if_neg (by simp [live' h])]
    rfl
  refine ⟨fun h => link _ .discard ?_, fun h1 h2 => link _ .discard ?_, ?_⟩
  · simp only [rxLink, hl]; rw [if_pos (by simpa using h)]
  · rw [open' h1, if_pos h2]; rfl
  · by_cases hlive : (l.phase = .loading ∨ l.phase = .up) ∧ flit.lost = false
    · obtain ⟨h1, h2⟩ := hlive
      have k := flit_cases (Safety.fecCounted s n flit) n flit.bytes ty
        (fun t v => Safety.answers (exec c s) s (progress (afterRx t n.val v go) n.val)) ht
        (fun t v e => link t v (by rw [open' h1, if_neg (by simp [h2]), e])) (by rw [hk]; exact h1)
      dsimp only at k
      rw [hk] at k
      simp only [h1, h2, and_self, true_and, forall_const]
      exact k
    · simp only [hlive, false_and, false_implies, and_self]

/-- A flit heard in order is counted, answered and taken. -/
theorem flit_inOrder (n : Fin 16) (flit : LinkFlit) (c : Instr) (ty : Nat) (go : State → State)
    (h : Safety.receives s n flit c ty go) (ho : Safety.inOrder s n flit ty) :
    Safety.answers (exec c s) s (progress (go (Safety.heard s n flit ty)) n.val) := by
  obtain ⟨h1, h2, h3, h4, h5, h6, h7⟩ := ho
  unfold Safety.receives at h
  dsimp only at h
  obtain ⟨_, _, _, _, _, _, _, hu, hs⟩ := h
  have hg := And.intro (And.intro h1 h2) (And.intro h3 (And.intro h4 h5))
  have ha : (leAt flit.bytes 0 2 % 2 ^ 13 + 8192 - (Machine.link (Safety.ackTaken s n flit ty).1 n.val).rxSeq) % 8192 = 0 := by
    rw [h7]; omega
  by_cases hn : ty = 1 ∨ ty = 2 ∨ ty = 3 ∨ ty = 5
  · have e := (hs hg h6 hn).1 ha
    unfold Safety.heard
    rw [if_pos hn]; exact e
  · have e := (hu hg h6 hn).2 (fun k => k.1 ha)
    unfold Safety.heard
    rw [if_neg hn]; exact e

end Sys2Proof.Machine
end

