-- ==== Sys2Proof/Laws/Power.lean ====
section
/-! SUPPORT. The start sequence: what its steps leave of READY and of the power part (R398). -/

namespace Sys2Proof.Machine

variable (s : State)

/-- An idle bank that starts its next unit operation changes the array. -/
theorem feed_frame : feed s = { s with nv := (feed s).nv } := by
  have b : ∀ s b, ∃ x, feedBank s b = { s with nv := x } := by
    intro s b; unfold feedBank; dsimp only
    repeat' split
    all_goals exact ⟨_, rfl⟩
  obtain ⟨x, hx⟩ := b s 0
  obtain ⟨y, hy⟩ := b { s with nv := x } 1
  unfold feed; rw [hx, hy]

/-- The console's start steps change what was sent and the count of free values. -/
theorem printSteps_frame (n : Nat) : printSteps s n = { s with out := (printSteps s n).out, free := (printSteps s n).free } := by
  unfold printSteps
  generalize List.range n = l
  induction l generalizing s with
  | nil => rfl
  | cons a r ih => simp only [List.foldl_cons]; rw [ih]; rfl

theorem logMgmt_keeps (code sev req d0 d1 d2 d3 : Nat) :
    (logMgmt s code sev req d0 d1 d2 d3).ready = s.ready ∧ (logMgmt s code sev req d0 d1 d2 d3).pwr = s.pwr := by
  rw [logMgmt_logFrame s code sev req d0 d1 d2 d3]; exact ⟨rfl, rfl⟩

theorem setCheck_ready (pg : PageId) (r f : Nat) : (setCheck s pg r f).ready = s.ready := by
  rw [setCheck_eq]; split <;> rfl

/-- The enable of a page that R53 enables at a start keeps READY. -/
theorem enablePage_ready (pg : PageId) (h : pg = .mem ∨ pg = .tim ∨ pg = .log ∨ pg = .key) : (enablePage s pg).ready = s.ready := by
  have g : ∀ t, gatePage t pg = t := by intro t; rcases h with rfl | rfl | rfl | rfl <;> rfl
  have o : ∀ t, (onEnabled t pg).ready = t.ready := by
    intro t
    rcases h with rfl | rfl | rfl | rfl
    · show (if t.mem.scrubRows.isEmpty then lapBegins t else t).ready = _
      split <;> rfl
    · show (discSet t).ready = _
      unfold discSet; repeat' split
      all_goals rfl
    · rfl
    · rfl
  simp only [enablePage]
  split
  · rfl
  · split
    · exact setCheck_ready ..
    · split
      · rfl
      · split
        · rw [o]
          exact (setCheck_ready ..).trans (ungatePage_ready s pg)
        · rw [g]
          exact (setCheck_ready ..).trans (ungatePage_ready s pg)

theorem startPages_ready (failed : Word) : (startPages s failed).ready = true := by
  unfold startPages
  simp only [List.foldl_cons, List.foldl_nil]
  rw [enablePage_ready _ _ (by decide), enablePage_ready _ _ (by decide), enablePage_ready _ _ (by decide), enablePage_ready _ _ (by decide)]

theorem startRuns_ready : (startRuns s).ready = s.ready := by
  unfold startRuns; dsimp only; split <;> rfl

/-- READY is 1 and the device runs after the sequence (R398). -/
theorem finishStart_spec (failed : Word) :
    (finishStart s failed).ready = true ∧ (finishStart s failed).pwr = (startRuns (startPages s failed)).pwr := by
  have hr : (startRuns (startPages s failed)).ready = true := by rw [startRuns_ready, startPages_ready]
  unfold finishStart
  generalize startRuns (startPages s failed) = u at hr ⊢
  have hp := printSteps_frame u 6
  generalize printSteps u 6 = v at hp ⊢
  have hf := feed_frame v
  generalize feed v = w at hf ⊢
  have e : w.ready = u.ready ∧ w.pwr = u.pwr := by rw [hf, hp]; exact ⟨rfl, rfl⟩
  obtain ⟨k1, k2⟩ := logMgmt_keeps (nextFree w) 0x0580 0 0x3F (causeCode w.pwr.cause) (mgtImage w).toNat (runImage w).kxh2 (freeVal w)
  exact ⟨k1.trans (e.1.trans hr), k2.trans e.2⟩

/-- What it leaves of the power part. -/
theorem startRuns_pwr : (startRuns s).pwr
    = { s.pwr with phase := .running, gated := disabledDomains, wakeN := false, watchdogs := 0, pairedFallback := false } := by
  unfold startRuns; dsimp only; split <;> rfl

/-- Writing the entries held in TCM changes what an event-log entry changes (R410). -/
theorem writeHeld_logFrame : LogFrame s (writeHeld s) := by
  have a : ∀ (s : State) (e : LogEntry), LogFrame s (announce s e) := fun s e => announce_logFrame s e
  have q : ∀ (s : State) (e : LogEntry), LogFrame s (logPush s e) := fun s e => logPush_logFrame s e
  unfold writeHeld
  dsimp only
  have h : LogFrame s ((s.log.entries.take s.log.held).reverse.foldl (fun s e => announce (logPush s e) { e with seq := s.log.nextSeq })
      { s with log := { logReset s.log with folds := s.log.folds } }) :=
    LogFrame.trans (show LogFrame s { s with log := { logReset s.log with folds := s.log.folds } } from rfl)
      (LogFrame.foldl (fun s e => (q s e).trans (a _ _)) _ _)
  split
  · exact h
  · exact h.trans ((q _ _).trans (a _ _))

end Sys2Proof.Machine
end

