-- ==== Sys2Proof/Laws/Fsp.lean ====
section
/-! SUPPORT. FSP requests: what a row that expects an opcode does with a datagram (R431 to R433). -/

namespace Sys2Proof.Machine

/-- The answer of a row that takes a datagram. -/
theorem fspRow_requests (s : State) (dg : List Byte) (c : Instr) (op : Nat) (b : Nat → Bool) (len : Nat → Prop) (own : Bool)
    (pre : List Byte) (go : State → FspReq → State) (hb : ∀ n, b n = true ↔ len n)
    (hc : exec c s = finish s (fspRow s dg op b own pre go)) : Safety.requests s dg c op len own pre go := by
  have row : ∀ t, fspRow s dg op b own pre go = t → Safety.answers (exec c s) s t := by
    intro t h; rw [hc, h]; exact finish_answers s t
  have g : (coreServes s = true ∧ s.fwu.paused = false ∧ s.fsp.phyUp = true) ↔ ¬ ((!coreServes s || s.fwu.paused || !s.fsp.phyUp) = true) := by
    cases coreServes s <;> cases s.fwu.paused <;> cases s.fsp.phyUp <;> simp
  refine ⟨fun h => row _ ?_, fun h => row _ ?_, fun r h hr => ?_⟩
  · rw [g, Decidable.not_not] at h; exact if_pos h
  · unfold fspRow; split
    · rfl
    · rw [h]
  · dsimp only
    rw [g] at h
    refine ⟨fun h1 h2 => row _ ?_, fun h1 h2 => row _ ?_, fun h1 h2 h3 => row _ ?_, fun h1 h2 h3 => row _ ?_, fun h1 h2 h3 => row _ ?_⟩
    all_goals unfold fspRow; rw [if_neg h, hr]; dsimp only
    · rw [if_neg h1, if_pos (List.contains_iff_mem.mpr h2)]
    · rw [if_neg h1, if_neg fun k => h2 (List.contains_iff_mem.mp k)]
    · rw [if_pos h1, if_pos (by simp [h2, h3])]
    · rw [if_pos h1, if_neg (by rcases h2 with h2 | h2 <;> simp [h2]), if_pos]
      rw [Bool.not_eq_true', Bool.eq_false_iff]; exact fun k => h3 ((hb _).mp k)
    · rw [if_pos h1, if_neg (by rcases h2 with h2 | h2 <;> simp [h2]), if_neg]
      rw [(hb _).mpr h3]; decide

end Sys2Proof.Machine
end

