-- ==== Sys2Proof/Laws/Lanes.lean ====
section
/-! SUPPORT. The choice of a codec lane among the requesters that have work (R85, R232). -/

namespace Sys2Proof.Machine

theorem orElse_some {α : Type} {a b : Option α} {x : α} (h : (a.orElse fun _ => b) = some x) : a = some x ∨ (a = none ∧ b = some x) := by
  cases a with
  | none => exact .inr ⟨rfl, h⟩
  | some y => exact .inl h

/-- The requester whose turn it is, of those of one kind, is one of them; there is one where there are any. -/
theorem nextOf_spec (s : State) (ks : List Nat) (kind : Nat) :
    (∀ k, nextOf s ks kind = some k → k ∈ ks ∧ k / 64 = kind) ∧ ((∃ k ∈ ks, k / 64 = kind) → (nextOf s ks kind).isSome = true) := by
  simp only [nextOf]
  generalize hl : ks.filter (fun k => k / 64 == kind) = l
  have mem : ∀ k, k ∈ l ↔ k ∈ ks ∧ k / 64 = kind := by intro k; rw [← hl]; simp
  refine ⟨fun k h => ?_, fun ⟨k, hk, e⟩ => ?_⟩
  · rcases orElse_some h with h | ⟨_, h⟩
    · exact (mem k).mp (List.mem_of_find?_eq_some h)
    · exact (mem k).mp (List.mem_of_mem_head? (by rw [h]; rfl))
  · have : k ∈ l := (mem k).mpr ⟨hk, e⟩
    cases l with
    | nil => simp at this
    | cons a r =>
      cases List.find? (fun k => decide (tget s.sched.next kind 0 ≤ k % 64)) (a :: r) with
      | none => rfl
      | some _ => rfl

/-- A lane with work ready serves one requester: one passed over 16 times where there is any, else a chain where there is any. -/
theorem chooseWork_spec (s : State) (m l : Nat) (ks : List Nat) (hne : ks ≠ []) (hlt : ∀ k ∈ ks, k < 256) :
    ∃ k ∈ ks, chooseWork s m l ks = some k
      ∧ ((∃ j ∈ ks, 16 ≤ tget s.sched.passed j 0) → 16 ≤ tget s.sched.passed k 0)
      ∧ ((∀ j ∈ ks, tget s.sched.passed j 0 < 16) → (∃ j ∈ ks, j / 64 = 3) → k / 64 = 3) := by
  have kept : ∀ k, keptChain s m l ks = some k → k ∈ ks ∧ k / 64 = 3 := by
    intro k h
    refine ⟨List.mem_of_find?_eq_some h, ?_⟩
    have := List.find?_some h
    simp only [Bool.and_eq_true, beq_iff_eq] at this
    exact this.1
  have rot : (List.range 3).findSome? (fun i => nextOf s ks ((s.sched.kind + i) % 3)) = none → ∀ k ∈ ks, k / 64 = 3 := by
    intro h k hk
    have h4 := hlt k hk
    by_cases h3 : k / 64 = 3
    · exact h3
    · exfalso
      have hi : ∃ i, i < 3 ∧ (s.sched.kind + i) % 3 = k / 64 := ⟨(k / 64 + 3 - s.sched.kind % 3) % 3, by omega, by omega⟩
      obtain ⟨i, hi, e⟩ := hi
      have := List.findSome?_eq_none_iff.mp h i (List.mem_range.mpr hi)
      have n := (nextOf_spec s ks ((s.sched.kind + i) % 3)).2 ⟨k, hk, e.symm⟩
      rw [this] at n; cases n
  have all : ∃ k, chooseWork s m l ks = some k := by
    cases h : chooseWork s m l ks with
    | some k => exact ⟨k, rfl⟩
    | none =>
      exfalso
      simp only [chooseWork] at h
      obtain ⟨k, hk⟩ := List.exists_mem_of_ne_nil ks hne
      cases h1 : ks.find? (fun k => 16 ≤ tget s.sched.passed k 0) with
      | some _ => rw [h1] at h; cases h
      | none =>
        rw [h1] at h
        cases h2 : keptChain s m l ks with
        | some _ => rw [h2] at h; cases h
        | none =>
          rw [h2] at h
          cases h3 : nextOf s ks 3 with
          | some _ => rw [h3] at h; cases h
          | none =>
            rw [h3] at h
            have r := rot (by simpa using h) k hk
            have n := (nextOf_spec s ks 3).2 ⟨k, hk, r⟩
            rw [h3] at n; cases n
  obtain ⟨k, h⟩ := all
  have h' := h
  simp only [chooseWork] at h
  have memAll : k ∈ ks := by
    rcases orElse_some h with h | ⟨_, h⟩
    · rcases orElse_some h with h | ⟨_, h⟩
      · rcases orElse_some h with h | ⟨_, h⟩
        · exact List.mem_of_find?_eq_some h
        · exact (kept k h).1
      · exact ((nextOf_spec s ks 3).1 k h).1
    · obtain ⟨i, _, e⟩ := List.exists_of_findSome?_eq_some h
      exact ((nextOf_spec s ks _).1 k e).1
  refine ⟨k, memAll, h', fun ⟨j, hj, hp⟩ => ?_, fun hn ⟨j, hj, e⟩ => ?_⟩
  · cases h1 : ks.find? (fun k => 16 ≤ tget s.sched.passed k 0) with
    | none =>
      have := List.find?_eq_none.mp h1 j hj
      simp [hp] at this
    | some i =>
      rw [h1] at h
      have : i = k := by simpa using h
      subst this
      simpa using List.find?_some h1
  · have h1 : ks.find? (fun k => 16 ≤ tget s.sched.passed k 0) = none := by
      rw [List.find?_eq_none]; intro x hx; have := hn x hx; simp; omega
    rw [h1] at h
    rcases orElse_some h with h | ⟨h0, _⟩
    · rcases orElse_some h with h | ⟨_, h⟩
      · exact (kept k (by simpa using h)).2
      · exact ((nextOf_spec s ks 3).1 k h).2
    · exfalso
      have n := (nextOf_spec s ks 3).2 ⟨j, hj, e⟩
      cases h2 : keptChain s m l ks with
      | some _ => rw [h2] at h0; cases h0
      | none =>
        rw [h2] at h0
        cases h3 : nextOf s ks 3 with
        | some _ => rw [h3] at h0; cases h0
        | none => rw [h3] at n; cases n

end Sys2Proof.Machine
end

