-- ==== Sys2Proof/Tests/Slice0.lean ====
section
/-! SUPPORT. Tests of the model: ill-formed commands are refused, the spec's worked examples and check values, and for each statement
states and operands that meet its hypotheses. -/

namespace Sys2Proof.Tests

open Sys2Proof.Machine

set_option Elab.async false

/-! ### States -/

/-- Both ports up at READY, the store charged, port A owns every transport and holds no semaphore. -/
def rig : State := { State.reset with
  ready := true, pwr := { phase := .running, pgOut := true, pgPending := false, charge := 100 },
  ports := [(0, { linkUp := true, perstHigh := true }), (1, { linkUp := true, perstHigh := true })],
  owners := (List.range 16).map fun n => (n, 1) }

/-- `rig` with semaphore `k` held by `m`. -/
def held (m : Master) (k : Nat) : State := { rig with sems := [(k, { holder := some m, token := 0xB400, due := 5 })] }

/-- `s` with page `pg` enabled. -/
def on (s : State) (pg : PageId) : State := setPage s pg { page s pg with enabled := true }

/-- `s` with page `pg` draining. -/
def draining (s : State) (pg : PageId) : State := setPage s pg { page s pg with enabled := true, draining := true }

/-- `s` in the activation pause. -/
def paused (s : State) : State := { s with fwu := { s.fwu with paused := true } }

/-- `s` with command `0` as given. -/
def running (s : State) (bytes : List Byte) (ph : CmdPhase := .started) (vol : Option Nat := some 0) : State :=
  { s with cmds := [(0, { port := .a, sq := 0, bytes := bytes, vol := vol, phase := ph })], nextCid := 1 }

/-- A capsule of 64 bytes with OPC `o`. -/
def capsule (o : Byte) : List Byte := o :: zeros 63

/-- SQ 0 of port A as given. -/
def withSq (s : State) (x : Sq) : State := setSq s .a 0 x

/-- CQ 0 of port A as given. -/
def withCq (s : State) (x : Cq) : State := setCq s .a 0 x

/-- A flit of the given TYPE, SEQ 0, whose CRC-16 is right, its payload zeros but for `p` at its start. -/
def flit (ty : Nat) (p : List Byte := []) : List Byte :=
  let b := leBytes 2 (8192 * ty) ++ leBytes 2 0 ++ p ++ zeros (58 - p.length)
  b ++ leBytes 2 (crc16 b).toNat

/-- Bytes that arrive with no codeword lost, corrected or uncorrectable. -/
def onLink (b : List Byte) : LinkFlit := ⟨b, false, 0, 0⟩

/-- Link 0 in a phase. -/
def linked (s : State) (ph : LinkPhase) : State := setLink s 0 { link s 0 with phase := ph, lanes := 0xF }

/-- A service-port request without a session. -/
def request (op : Nat) (payload : List Byte := []) : List Byte :=
  leBytes 2 0x5346 ++ [1, 0] ++ zeros 8 ++ leBytes 2 op ++ zeros 2 ++ leBytes 2 payload.length ++ zeros 6 ++ payload

/-! ### Ill-formed commands -/

theorem test_wf_flit : (Instr.idle 0 (onLink (zeros 63))).wf = false ∧ (Instr.chanUp 0 (onLink (zeros 65))).wf = false ∧ (Instr.servoFrameSample 0 (onLink [])).wf = false
    ∧ (Instr.servoReelSample 0 (onLink [])).wf = false ∧ (Instr.hello 0 (onLink [])).wf = false ∧ (Instr.ack 0 (onLink [])).wf = false ∧ (Instr.mode 0 (onLink [])).wf = false
    ∧ (Instr.cartridge 0 (onLink [])).wf = false ∧ (Instr.positioned 0 (onLink [])).wf = false ∧ (Instr.burstDone 0 (onLink [])).wf = false
    ∧ (Instr.fwResult 0 (onLink [])).wf = false ∧ (Instr.timeUp 0 (onLink [])).wf = false ∧ (Instr.cmData 0 (onLink [])).wf = false ∧ (Instr.cmDone 0 (onLink [])).wf = false
    ∧ (Instr.mailboxUp 0 (onLink [])).wf = false ∧ (Instr.idle 0 (onLink (zeros 64))).wf = true := by decide

theorem test_wf_rate : (Instr.hostLinkUp .a 4 16).wf = false ∧ (Instr.hostLinkUp .a 7 16).wf = true := by decide
theorem test_wf_width : (Instr.hostLinkUp .a 7 2).wf = false ∧ (Instr.hostLinkUp .a 5 4).wf = true := by decide
theorem test_wf_finding : (Instr.scrubRow 0 [{ blk := 56, data := zeros 32, check := 0, readBackOk := true }]).wf = false
    ∧ (Instr.scrubRow 0 [{ blk := 55, data := zeros 31, check := 0, readBackOk := true }]).wf = false
    ∧ (Instr.scrubRow 0 [{ blk := 55, data := zeros 32, check := 0, readBackOk := true }]).wf = true := by decide
theorem test_wf_burst : (Instr.capsuleWrite .a 0 []).wf = false ∧ (Instr.dataWindowWrite .a 0 []).wf = false
    ∧ (Instr.capsuleWrite .a 0 [0]).wf = true := by decide
theorem test_wf_sensor : (Instr.sensorSample 50 0 true).wf = false ∧ (Instr.sensorSample 49 0 true).wf = true := by decide
/-- An ill-formed command stops. -/
theorem test_malformed : exec (.sensorSample 50 0 true) State.reset = .fault .malformed := rfl

/-- The state that a command answers; `s` where it answers none. -/
def after (c : Instr) (s : State) : State :=
  match exec c s with
  | .next t => t
  | _ => s

/-! ### Check values and worked examples of the spec -/

/-- The nine ASCII digits "123456789". -/
def digits : List Byte := [0x31, 0x32, 0x33, 0x34, 0x35, 0x36, 0x37, 0x38, 0x39]

/-- Check value of the CRC-32C (ch. 7). -/
theorem test_crc32c : crc32c digits = 0xE3069283 := by decide +kernel
/-- Check value of the CRC-16 (ch. 9). -/
theorem test_crc16 : crc16 digits = 0x29B1 := by decide +kernel
/-- Check value of the CRC-64 (ch. 9). -/
theorem test_crc64 : crc64 digits = 0x995DC9BBDF1939FA := by decide +kernel
/-- Header of codeword (7, 0) of data set 0x0004_1C2B on wrap 3 (ch. 9). -/
theorem test_codeword_header : cwHeader 7 0 0x41C2B 3 .data false 0 0 = [0x07, 0x00, 0x2B, 0x1C, 0x01, 0x00, 0x33, 0xEA] := by decide +kernel
/-- Its channel, and the channel of row 88 of SDS 6 (ch. 9). -/
theorem test_codeword_channel : cwChannel 7 0 0 = 21 ∧ cwChannel 6 88 0 = 106 ∧ cwChannel 7 128 0 = 21 := by decide
/-- Bit 3 of byte 5 of a block flips: SR reads 0x0004 and SC 0x0800 (ch. 6). -/
theorem test_parity_syndrome : classify (flipBit (zeros 32) 43) (checkWord (zeros 32)) = .dataBit 43
    ∧ (checkWord (zeros 32) ^^^ checkWord (flipBit (zeros 32) 43)) = 0x08000004 := by decide +kernel
/-- The sixteen bytes of the worked example of ch. 7. -/
def korr : List Byte := (List.replicate 4 [0x4B, 0x4F, 0x52, 0x52]).flatten

/-- The 36 bytes of "A small block" (ch. 7). -/
def smallBlock : List Byte := [0x10, 0, 1, 2, 0x10, 0, 0, 0x10, 0, 0, 0, 0] ++ leBytes 4 (crc32c ([8, 0, 0, 1] ++ korr)).toNat ++ [8, 0, 0, 1] ++ korr

theorem test_small_block : assemble 0 1 0 [(8, 1)] false true none korr korr = smallBlock ∧ decodeBlock [] smallBlock = .ok korr := by decide +kernel
/-- The same data coded with method 1: the payload that R216 rejects decodes to the data (ch. 7). -/
theorem test_small_payload : lzDecode 16 [] ([0x10, 0, 0, 1, 0, 0, 1, 0, 0, 1, 0, 0, 0x9E, 0x23, 0x1D, 0xD2, 0x10, 0xBE, 0xD9, 0x12, 0xAE, 0xD0, 0x14, 0x7E, 0xD0,
    0x11, 0xAE, 0x00, 0x0D, 0, 0, 0]) = some korr := by decide +kernel

/-- u = 6, the residue 3, with k = 1 is coded 1 1 1 0 0 (ch. 7). -/
theorem test_rice : riceBits 16 1 3 = [true, true, true, false, false] := by decide
/-- The tweak of the worked example of ch. 8. -/
theorem test_tweak : tweakBytes 0x3A5C91E207B1 0x12A40 = [0, 0, 0x40, 0x2A, 1, 0, 0, 0, 0, 0, 0xB1, 0x07, 0xE2, 0x91, 0x5C, 0x3A] := by decide
/-- SubBytes: 0x53 becomes 0xED (FIPS 197, 5.1.1), and back. -/
theorem test_aes_sub : aesSub 0x53 = 0xED ∧ aesUnsub 0xED = 0x53 := by decide +kernel
/-- The first token of SEM0 is 0xB400 (ch. 3). -/
theorem test_first_token : (sem (after (.semLockRead .portA 0) rig) 0).token = 0xB400 := by decide +kernel
/-- Level 10 of CDC[2] fails its check with CHECK 0x0002_0601; level 6 passes (ch. 2). -/
theorem test_check_cdc : let s := after (.registerWrite .portB (BitVec.ofNat 22 (pageBase (.cdc 2) + 0x48)) 0xF 10 []) (on (on (held .portB 0) .pool) .mem)
    let t := after (.enable .portB (.cdc 2)) s
    let u := after (.enable .portB (.cdc 2)) (after (.registerWrite .portB (BitVec.ofNat 22 (pageBase (.cdc 2) + 0x48)) 0xF 6 []) t)
    (page t (.cdc 2)).reason = 0x0601 ∧ (page t (.cdc 2)).field = 2 ∧ (page t (.cdc 2)).evt = 1 ∧ (page t (.cdc 2)).enabled = false
    ∧ (page u (.cdc 2)).reason = 0 ∧ (page u (.cdc 2)).enabled = true := by decide +kernel
/-- The XFER_RDY entry of the worked WRITE (ch. 4): TAG 0x0107, SQ 5, PHASE 1, SQHD 1, OFFSET 0, LENGTH 0x0100_0000. -/
theorem test_xfer_rdy : cqeBytes (setSq rig .a 5 { sqhd := 1 }) .a {} { kind := .xferRdy, sq := 5, tag := 0x0107, result := 0x0100000000000000 } =
    [0x07, 0x01, 0x05, 0x03, 0x01, 0, 0, 0, 0, 0, 0, 0, 0, 0, 0, 0x01] := by decide +kernel
/-- Records of 8 MiB: two make segment 0, the third segment 1 (ch. 4). -/
theorem test_segments : cutSegs (List.replicate 3 8388608) 0 [] = [[8388608, 8388608], [8388608]] := by decide +kernel
/-- Twenty records of 2 MiB make segments of 16, 16 and 8 MiB (ch. 1). -/
theorem test_segments_40MiB : (cutSegs (List.replicate 20 2097152) 0 []).map List.sum = [16777216, 16777216, 8388608] := by decide +kernel
/-- The first edge at 41,612,300,500 ns: the error is -387,699,500 and the counter is stepped to 42,000,000,000 (ch. 14). -/
theorem test_first_edge : let s := { rig with pwr := { rig.pwr with charge := 0 }, tim := { rig.tim with count := 41612300500 * 2 ^ 32, disc := .locking } }
    ppsError s = -387699500 ∧ now (discEdge s) = 42000000000 ∧ (discEdge s).tim.disc = .locking := by decide +kernel

/-! ### States that meet the hypotheses of the statements -/

/-- IdleIsOneCycle: each of its clauses. -/
theorem witness_idle : State.reset.pending = [] ∧ rig.pwr.tcxo = true ∧ rig.pwr.supplied = true ∧ rig.tim.slewing = false
    ∧ { rig.tim with slewing := true }.slewing = true ∧ { rig.pwr with supplied := false }.supplied = false := by decide
/-- StepKeepsSettled: a settled state whose step answers a state. -/
theorem witness_settled : Safety.settled rig = true ∧ step { rig with pending := [.smbState] } = .next (after .smbState rig) := ⟨by decide +kernel, rfl⟩
/-- FrozenWritesNothing: a frozen master, and one whose port is down. -/
theorem witness_frozen : Safety.writer (.alloc .portA (.pool 1)) = some .portA ∧ (mst (setMst rig .portA { frozen := true }) .portA).frozen = true
    ∧ served State.reset .portA = false := by decide
/-- WriteWithoutRight: KEY without SEM1, no WRITE in progress. -/
theorem witness_no_right : (0xA4044 : BitVec 22).toNat % 4 = 0 ∧ Safety.reaches rig .portA (spotOf (0xA4044 : BitVec 22).toNat) = true
    ∧ hasRight rig .portA (spotOf (0xA4044 : BitVec 22).toNat) = false
    ∧ (liveCmds rig fun _ c => c.port == .a && cOpc c.bytes == 1) = [] := by decide +kernel
/-- RegisterWriteByType: MEM.SCRUB, of type RW. -/
theorem witness_by_type : Safety.plainSpot .mem 0x040 = true ∧ (∃ r, findRow (pageRows .mem) 0x040 = some (r, false) ∧ r.wide = false)
    ∧ Safety.canWrite (held .portA 0) .portA (.page .mem 0x040) = true := ⟨by decide, ⟨_, rfl, rfl⟩, by decide +kernel⟩
/-- PairAccess: TIM.SET, a CQ base of a disabled CQ, reads of both halves. -/
theorem witness_pair : isLo (spotOf 0x3058) = true ∧ writablePair (spotOf 0x3058) = true ∧ isHi (spotOf 0x305C) = true
    ∧ Safety.canWrite (held .portA 0) .portA (.page .tim 0x058) = true ∧ Safety.canWrite (held .portA 0) .portA (.page .tim 0x05C) = true
    ∧ Safety.canWrite rig .portA (spotOf (cqAddr .a 63 0x0C)) = true ∧ (cq rig .a 63).enabled = false
    ∧ Safety.reaches rig .portA (spotOf 0x3058) = true ∧ Safety.reaches rig .portA (spotOf 0x305C) = true := by decide +kernel
/-- EnableRow: draining; enabled; not READY; a dependency missing; a check that fails and one that passes. -/
theorem witness_enable : (∀ s ∈ [held .portA 0, draining (held .portA 0) .mem, on (held .portA 0) .mem, { held .portA 0 with ready := false }],
      Safety.canWrite s .portA (.page .mem 0x08) = true) ∧ enableImpl .mem = true
    ∧ (page (draining (held .portA 0) .mem) .mem).draining = true ∧ (page (on (held .portA 0) .mem) .mem).enabled = true
    ∧ (dependsOn .pool).all (enabledNow (held .portA 0)) = false ∧ (dependsOn .mem).all (enabledNow (held .portA 0)) = true
    ∧ (ownCheck (setReg (held .portA 0) (.cdc 0) 0x048 10) (.cdc 0)).1 ≠ 0 ∧ (ownCheck (held .portA 0) .tim).1 = 0 := by decide +kernel
/-- DrainRows: DISABLE and ABORT of a page that is not enabled, of one that another depends on, of one that nothing needs. -/
theorem witness_drain : let s := on (on (held .portA 0) .mem) .pool
    Safety.canWrite s .portA (.page .mem 0x08) = true ∧ Safety.canWrite s .portA (.page .pool 0x08) = true ∧ enabledNow s .key = false
    ∧ enabledNow s .mem = true ∧ enabledNow s .pool = true ∧ dependentEnabled s .mem = true ∧ dependentEnabled s .pool = false
    ∧ Safety.canWrite rig .portA (.page (.hp .a) 0x08) = true ∧ abortImpl (.hp .a) = true ∧ (page rig (.hp .a)).enabled = false
    ∧ dependentEnabled (on rig (.hp .a)) (.hp .a) = false
    ∧ dependentEnabled (setSq (on rig (.hp .a)) .a 0 { enabled := true }) (.hp .a) = true := by decide +kernel
/-- CounterAndEventRows: CTRL of the two pages with more to clear and of one without, EVT_REARM, the three words. -/
theorem witness_counters : (∀ pg ∈ [PageId.loopG, .mem, .pool], Safety.canWrite (held .portA 0) .portA (.page pg 0x08) = true)
    ∧ (∀ off ∈ [0x14, 0x18, 0x1C], Safety.canWrite (held .portA 0) .portA (.page .pool off) = true)
    ∧ Safety.canWrite rig .portA (.page (.hp .a) 0x04C) = true := by decide +kernel
/-- TransportOwnerRow. -/
theorem witness_owner : Safety.canWrite (held .portA 0) .portA (.page .dev 0x048) = true := by decide +kernel
/-- SemLockReadRow: SEM31 and SEM0, free, with a higher one held, its own, another's. -/
theorem witness_lock : Safety.reaches rig .portA (.page .sem (0x40 + 4 * 31)) = true ∧ Safety.reaches rig .portA (.page .sem 0x40) = true
    ∧ (sem rig 31).holder = none ∧ ((List.range 32).any fun j => 31 < j && (sem rig j).holder == some .portA) = false
    ∧ (sem (held .portA 31) 0).holder = none ∧ ((List.range 32).any fun j => 0 < j && (sem (held .portA 31) j).holder == some .portA) = true
    ∧ (sem (held .portA 0) 0).holder = some .portA ∧ (sem (held .mgmt 0) 0).holder = some .mgmt := by decide +kernel
/-- SemWriteRows: the token and another one; leases of 1 and 10,000 ms, of 0 and 10,001. -/
theorem witness_release : Safety.reaches (held .portA 31) .portA (.page .sem (0x100 + 4 * 31)) = true
    ∧ Safety.reaches (held .portA 31) .portA (.page .sem (0x40 + 4 * 31)) = true
    ∧ (sem (held .portA 31) 31).holder = some .portA ∧ (0xB400 : Word).toNat % 2 ^ 16 = (sem (held .portA 31) 31).token.toNat
    ∧ (0xB401 : Word).toNat % 2 ^ 16 ≠ (sem (held .portA 31) 31).token.toNat ∧ (sem (held .portB 31) 31).holder ≠ some .portA
    ∧ (1 : Word).toNat % 2 ^ 14 = 1 ∧ (10000 : Word).toNat % 2 ^ 14 = 10000 ∧ (0 : Word).toNat % 2 ^ 14 = 0 ∧ 10000 < (10001 : Word).toNat % 2 ^ 14 := by decide +kernel
/-- LeaseExpiryAndThaw. -/
theorem witness_expiry : (held .portB 31).fwu.paused = false ∧ (sem (held .portB 31) 31).holder = some .portB ∧ (paused rig).fwu.paused = true
    ∧ (sem rig 31).holder = none ∧ Safety.canWrite (held .portB 0) .portB (.page .dev 0x04C) = true := by decide +kernel
/-- HostPortRows: a port down that may come up, up, in D3hot. -/
theorem witness_port : let s := setPort { rig with pwr := { rig.pwr with clkreq := [.a] } } .a { perstHigh := true }
    (port s .a).perstHigh = true ∧ (port s .a).refclk = true ∧ Port.a ∈ s.pwr.clkreq ∧ (port s .a).linkUp = false
    ∧ (port rig .a).linkUp = true ∧ (port rig .a).d3hot = false ∧ (port (setPort rig .a { d3hot := true }) .a).d3hot = true := by decide
/-- CapsuleWriteRow: the last byte of the windows; BAR closed; a full inbox; a write that fits, also while the SQ drains. -/
theorem witness_capsule : (capsule 1).length = 64 ∧ (0x3FFC0 : BitVec 19).toNat < 0x40000 ∧ (0x3FFC0 : BitVec 19).toNat / 0x1000 = 63 ∧ barOpen rig .a = true
    ∧ barOpen State.reset .a = false ∧ (mst rig .portA).frozen = false ∧ (mst (setMst rig .portA { frozen := true }) .portA).frozen = true
    ∧ (0x3FFC0 : BitVec 19).toNat % 64 = 0 ∧ (sq (setSq rig .a 63 { enabled := true }) .a 63).enabled = true
    ∧ (sq (setSq rig .a 63 { enabled := true }) .a 63).draining = false ∧ (sq (setSq rig .a 63 { enabled := true, draining := true }) .a 63).draining = true
    ∧ (sq rig .a 63).enabled = false := by decide +kernel
/-- READ_POSITION of volume 0, acceptance sequence 1. -/
def where' : Capsule := { bytes := [7, 0, 1, 0] ++ zeros 28 ++ leBytes 4 64 ++ zeros 28, accSeq := some 1, owned := true }

/-- Every page it needs enabled, volume 0 mounted, SQ 0 as given. -/
def queued (x : Sq) : State := setVol (on (on (on (on (withSq rig x) (.hp .a)) .mem) .pool) (.fmt 0)) 0 { accSeq := 1, mounted := true }

/-- CommandStartRow: a command that may start, at its turn and not; a wrong queue kind and a drain; nothing to take. -/
theorem witness_start :
    let x : Sq := { enabled := true, inbox := [where'] }
    let d : Sq := { x with bind := 0x10000 }
    ((sq (queued x) .a 0).enabled = true ∧ (sq (queued x) .a 0).frozen = false ∧ (mst (queued x) .portA).frozen = false ∧ portSends (queued x) .a = true)
    ∧ (sq (queued x) .a 0).inbox = [where'] ∧ sqVol x = some 0 ∧ turnOf (queued x) 0 where' = true ∧ startStop (queued x) .a 0 where' = none
    ∧ turnOf (setVol (queued x) 0 { turn := some 3 }) 0 where' = false ∧ sqVol d = none
    ∧ (startStop (queued d) .a 0 where').map (·.code) = some (2, 6) ∧ (sq rig .a 0).inbox = []
    ∧ { where' with owned := false }.owned = false ∧ opcFlags (leAt (capsule 0xFF) 0 1) = none ∧ capsuleFault x where'.bytes = none
    ∧ { x with draining := true }.draining = true ∧ pageMissing rig where'.bytes (some 0) = true := by decide +kernel

/-- SqControlRows: SQ 63, in each state and with each reason. -/
theorem witness_sq : let s := on rig (.hp .a)
    let c := setCq s .a 0 { enabled := true }
    let x := { enabled := true : Sq }
    Safety.canWrite rig .portA (.sq .a 63 0) = true ∧ s.ready = true ∧ enabledNow rig (.hp .a) = false ∧ enabledNow s (.hp .a) = true
    ∧ (sqDevice { bind := 0x0010 } = false ∧ 15 < sqTransport { bind := 0x0010 }) ∧ 3 < sqPartition { bind := 0x0400 }
    ∧ sqTransport { bind := 0x030F } = 15 ∧ sqPartition { bind := 0x030F } = 3 ∧ owner rig 15 = 1 ∧ owner (setOwner rig 15 2) 15 ≠ 1
    ∧ (cq c .a (sqCq { bind := 0x030F })).enabled = true ∧ (cq s .a (sqCq { bind := 0x030F })).enabled = false
    ∧ (sq (setSq s .a 63 x) .a 63).enabled = true ∧ (sq (setSq s .a 63 { x with draining := true }) .a 63).draining = true
    ∧ (sq s .a 63).enabled = false ∧ (sq s .a 63).draining = false := by decide +kernel
/-- ResumeDiscardRows: frozen with and without capsules, not frozen, discarding, of a volume and of the device. -/
theorem witness_resume : Safety.canWrite rig .portA (.sq .a 0 0) = true ∧ (sq (withSq rig { enabled := true, frozen := true }) .a 0).frozen = true
    ∧ (sq (withSq rig { enabled := true, frozen := true, discarding := 1, inbox := [where'] }) .a 0).discarding ≠ 0
    ∧ sqVol { bind := 0x10000 } = none ∧ sqVol { bind := 0 } = some 0 := by decide +kernel
/-- CompletionQueueRows: each reason at its bound, a full queue, heads at the ends of their range, an entry that waits. -/
theorem witness_cq : let x : Cq := { enabled := true, size := 2, ien := true, coalN := 1, waiting := [{ kind := .completion, sq := 0, tag := 0 }] }
    Safety.canWrite rig .portA (.cq .a 63 0) = true ∧ Safety.canWrite rig .portA (.cq .a 63 0x1C) = true ∧ enabledNow (on rig (.hp .a)) (.hp .a) = true
    ∧ (4095 : DWord).toNat % 4096 ≠ 0 ∧ (1 : BitVec 17).toNat < 2 ∧ 65536 < (65537 : BitVec 17).toNat ∧ 127 < (128 : Word).toNat % 256
    ∧ (4096 : DWord).toNat % 4096 = 0 ∧ ¬ ((2 : BitVec 17).toNat < 2 ∨ 65536 < (2 : BitVec 17).toNat) ∧ ¬ 127 < (127 : Word).toNat % 256
    ∧ (cq (withCq rig x) .a 0).enabled = true ∧ (cq rig .a 0).enabled = false
    ∧ (∃ e ∈ (port (withSq rig { enabled := true }) .a).sqs, e.2.enabled = true ∧ sqCq e.2 = 0) ∧ (port rig .a).sqs = []
    ∧ ((0 : Word).toNat % 65536 < x.size.toNat ∧ (0 + 2 - x.head) % 2 ≤ (x.tail + 2 - x.head) % 2) ∧ (x.tail + 2 - x.head) % 2 < (1 + 2 - x.head) % 2
    ∧ (x.tail + 1) % x.size.toNat ≠ x.head ∧ ({ x with tail := 1 }.tail + 1) % x.size.toNat = x.head ∧ rig.fwu.paused = false := by decide +kernel
/-- SegmentCut: the largest and the smallest record. -/
theorem witness_cut : (∀ l ∈ [1, 16777216], 1 ≤ l ∧ l ≤ 16777216) ∧ (List.replicate 16 16777216).sum ≤ 268435456 := by decide +kernel
/-- A command begins; and one that has not started. -/
theorem witness_begins : (∀ o ∈ ([1, 2, 3, 4, 5, 6, 7, 8, 9, 0xA, 0xB, 0x10, 0x20, 0x21, 0x30] : List Byte), Safety.begins (running rig (capsule o)) 0 o.toNat)
    ∧ ¬ Safety.begins rig 0 1 ∧ ¬ Safety.begins (paused (running rig (capsule 1))) 0 1 := by
  simp only [Safety.begins]; decide +kernel
/-- WriteTypeRows: a record list, records of one length, end of data at or before the LBN. -/
theorem witness_write : leAt (capsule 1) 36 4 = 0 ∧ leAt (capsule 1 ++ []) 8 8 = 0 ∧ leAt ([1] ++ zeros 35 ++ [1] ++ zeros 27) 36 4 ≠ 0
    ∧ (vol rig 0).eod ≤ 0 ∧ (cmd (running rig (capsule 1)) 0).vol = some 0 := by decide
/-- SEGMENT_ADMIT: a segment of one record that fits. -/
def segment : Seg := { seq := 0, cid := 0, no := 0, vol := 0, len := 65536, recs := [65536], firstLbn := 0, endLbn := 1, eodAfter := 1, blocks := 1, phase := .waitAdmit }
/-- The state in which it waits. -/
def waiting (g : Seg) : State := setSlice (setVol (running rig (capsule 1) .transfer) 0 { mounted := true, segs := [g], segNext := 1 }) 0 { toAdmit := [(0, 0)] }
/-- SegmentRows, admission: nothing waits; room; no room; units spent; slots to be had and not; a WRITE_MARK segment. -/
theorem witness_admit : admitHead rig 0 = none ∧ admitHead (waiting segment) 0 = some (0, segment)
    ∧ chargeOf (waiting segment) 0 + ((segment.len + 1048575) / 1048576 * 1048576 + segment.blocks * 73728) ≤ usableShare (waiting segment) 0
    ∧ usableShare (setReg (waiting segment) .pool 0x0A0 0) 0 < chargeOf (waiting segment) 0
    ∧ unitsSpent (waiting segment) segment = false ∧ unitsSpent (setVol (waiting segment) 0 { blkNext := 2 ^ 64 - 1 }) segment = true
    ∧ (segSlots (waiting segment) 0 segment).isSome = true := by decide +kernel
/-- SegmentRows, XFER_RDY: nothing waits; a range is placed; the sixteen ranges of a window; a window that is full; a record arrives and a timeout is due. -/
theorem witness_xfer : let g := { segment with phase := .waitRange }
    let s := withSq (waiting g) { enabled := true, rangeWait := [0] }
    (sq rig .a 0).rangeWait = [] ∧ (sq s .a 0).rangeWait = [0] ∧ (cmd s 0).vol = some 0
    ∧ (vol s 0).segs.find? (fun h => h.cid == 0 && h.phase == .waitRange) = some g ∧ placeRange [] 0 65536 = some 0
    ∧ placeRange [(0, 67108864)] 67108864 65536 = none ∧ 16 ≤ (List.replicate 16 ((0, 1) : Nat × Nat)).length
    ∧ barOpen rig .a = true ∧ barOpen State.reset .a = false
    ∧ (windowStore rig .a 0 2 0 [0]).2 = true ∧ (windowStore (withSq (waiting { segment with phase := .isOpen }) { ranges := [(0, 65536)] }) .a 0 2 0 [0]).2 = false
    ∧ (∃ h ∈ (vol (waiting { segment with phase := .isOpen }) 0).segs, h.cid = 0 ∧ h.phase = .isOpen) := by decide +kernel
/-- DmaRows: a list short and whole, good and bad; a scatter entry good and bad, at the largest sum; descriptors. -/
theorem witness_dma : let w : List Byte := [1] ++ zeros 15 ++ leBytes 4 5 ++ leBytes 4 1 ++ zeros 40
    let s := running rig w .listWait
    ((cmd s 0).phase = .listWait ∧ leAt (cmd s 0).bytes 0 1 = 1) ∧ ([] : List Byte).length < 4 * leAt w 20 4 ∧ 4 * leAt w 20 4 ≤ (leBytes 4 5).length
    ∧ ((List.range 1).map fun i => leAt (leBytes 4 5) (4 * i) 4) = [5] ∧ [5].sum = leAt w 16 4 ∧ [6].sum ≠ leAt w 16 4
    ∧ (let r := running rig (capsule 2) .listWait; (cmd r 0).phase = .listWait ∧ leAt (cmd r 0).bytes 0 1 = 2)
    ∧ leAt (zeros 16) 8 4 = 0 ∧ leAt (zeros 8 ++ leBytes 4 1 ++ zeros 4) 8 4 = 1 ∧ 0xFFFFFFFE + 1 ≤ 0xFFFFFFFF
    ∧ leAt (zeros 12 ++ leBytes 4 1) 12 4 ≠ 0 ∧ (nvq rig .a).reads = []
    ∧ (nvq (modNvq rig .a fun x => { x with reads := [.descs 1] }) .a).reads = [.descs 1] := by decide +kernel
/-- DeviceBodies: the error-log window at its last word; a codec job whose areas are held or not, past their slots, overlapping, apart;
ACTIVATE_FIRMWARE with SEM2 or not, in each phase. -/
theorem witness_device :
    let job (o i : Nat) : List Byte := [0x10] ++ zeros 15 ++ leBytes 4 64 ++ zeros 4 ++ leBytes 8 o ++ leBytes 4 64 ++ zeros 8 ++ leBytes 8 i ++ zeros 12
    let p4 := 0x8E0000000
    let own (s : State) : State := setMeta s p4 { st := .allocated, refs := 1, owner := 0, ownerHolds := true }
    Safety.reaches rig .portA (.err .a 255 15) = true ∧ leAt (job p4 p4) 24 8 = p4 ∧ leAt (job p4 (p4 + 64)) 44 8 = p4 + 64
    ∧ portHolds (own rig) .a p4 = true ∧ portHolds rig .a p4 = false ∧ pastSlot (own rig) (p4, 64) = false ∧ pastSlot (own rig) (p4, 2 ^ 21) = true
    ∧ (p4 < p4 + 64 ∧ p4 < p4 + 64) ∧ ¬ (p4 + 64 < p4 + 64 ∧ p4 < p4 + 64 + 64)
    ∧ (sem (held .portA 2) 2).holder = some .portA ∧ (sem rig 2).holder ≠ some .portA
    ∧ (stepCheck { held .portA 2 with fwu := { rig.fwu with phase := .verified } } (.activate 0 true false)).2 = 0
    ∧ (stepCheck (held .portA 2) (.activate 0 true false)).2 ≠ 0 := by decide +kernel

/-- The lowest general slot of pool 0. -/
def slot0 : Nat := 51459584
/-- POOL enabled, a quota of 16 slots for port A. -/
def pooled : State := setReg (on rig .pool) .pool 0x060 16
/-- `slot0` with the given metadata. -/
def slotIs (x : SlotMeta) : State := setMst (setMeta pooled slot0 x) .portA { opPtr := BitVec.ofNat 64 slot0, winBase := BitVec.ofNat 64 slot0 }
/-- Allocated to port A. -/
def mine : SlotMeta := { st := .allocated, refs := 1, ownerHolds := true, owner := 0 }
/-- PoolRequestRows: each early result, pools 4 and 5, a wait outstanding, over the quota, a free slot and none; a size above each slot
(R178, R183). -/
theorem witness_pool : Safety.canWrite pooled .portA (.page .pool 0x108) = true ∧ enabledNow rig .pool = false ∧ enabledNow pooled .pool = true
    ∧ (page (setPage pooled .pool { page pooled .pool with fault := true }) .pool).fault = true ∧ 4 < (5 : BitVec 3).toNat ∧ ¬ 4 < (4 : BitVec 3).toNat
    ∧ (mst (setMst pooled .portA { waitPending := true }) .portA).waitPending = true ∧ (mst pooled .portA).waitPending = false
    ∧ overQuota pooled .portA 0 = false ∧ overQuota (on rig .pool) .portA 0 = true ∧ findFree pooled 0 = some slot0
    ∧ findFree (setReg pooled .pool 0x040 0) 0 = none
    ∧ wantOk .portA (.pool 5) = true ∧ wantOk .mgmt (.size 1) = true ∧ wantOk .portA (.size 1) = false
    ∧ [256, 257, 4097, 49153, 73729, 1048577].map (fun n => wantedPool (.size n)) = [0, 1, 3, 2, 4, 5] := by decide +kernel
/-- PoolHolderRows: not a slot; a slot free, of another, of its own; shared with the last master, with a fourth; with no free field. -/
theorem witness_holder : generalAt (slotIs mine) slot0 = some (0, 201014) ∧ generalAt pooled 0 = none ∧ (slotMeta pooled slot0).st = .free
    ∧ isHolder { mine with owner := 1 } 0 = false ∧ isHolder mine 0 = true ∧ 1 < { mine with refs := 2 }.refs ∧ mine.refs ≤ 1
    ∧ isHolder { mine with st := .retiring } 0 = true ∧ 2 < (3 : BitVec 6).toNat ∧ ¬ 2 < (2 : BitVec 6).toNat ∧ isHolder { mine with h1 := 2 } 2 = true
    ∧ isHolder mine 2 = false ∧ canShare { mine with h1 := 4, h2 := 5, h3 := 6, h4 := 7, refs := 5 } = false ∧ canShare mine = true
    ∧ overQuota (slotIs mine) .mgmt 0 = false ∧ overQuota (slotIs mine) .portB 0 = true := by decide +kernel
/-- WindowRows: the last dword; held, filling, not held, uncorrectable; a fill that ends. -/
theorem witness_window : Safety.reaches pooled .portA (.page .pool (0x800 + (252 : BitVec 11).toNat)) = true ∧ (252 : BitVec 11).toNat % 4 = 0
    ∧ ((List.range 4).all fun i => byteHeld (slotIs mine) .portA (slot0 + 252 + i)) = true
    ∧ ((List.range 4).all fun i => byteHeld pooled .portA (slot0 + i)) = false
    ∧ fillRuns (slotIs { mine with filling := true }) (slot0 + 252) = true ∧ fillRuns (slotIs mine) (slot0 + 252) = false
    ∧ anyBad { slotIs mine with mem := { bad := [slot0 / 32] } } slot0 4 = true ∧ anyBad (slotIs mine) slot0 4 = false
    ∧ slotOf (slotIs { mine with filling := true }) slot0 = some (0, 201014) ∧ (slotMeta (slotIs { mine with filling := true }) slot0).filling = true
    ∧ (slotOf rig (2 ^ 40)).isSome = false := by decide +kernel
/-- ScrubRow: a row at both ends, an idle scrubber, a block of each class. -/
theorem witness_scrub : let s := on rig .mem
    let d := zeros 32
    let c := checkWord d
    findingOk { blk := 55, data := d, check := c, readBackOk := true } = true ∧ enabledNow rig .mem = false ∧ enabledNow s .mem = true
    ∧ field s .mem 0x040 0 1 = 1 ∧ (reg s .mem 0x048).getLsbD 31 = false ∧ 0 < rowsPerChannel s.code ∧ rowsPerChannel s.code ≤ 1048576
    ∧ classify d c = .clean ∧ classify (flipBit d 255) c = .dataBit 255 ∧ classify d (c ^^^ 0x80000000) = .checkBit
    ∧ classify (flipBit (flipBit d 0) 255) c = .uncorrectable ∧ Memory.wf s.mem.ram = true := by decide +kernel
/-- A block of volume 0 that a lane compresses. -/
def block : Blk := { q := 0, vol := 0, seg := 0, start := 0, dlen := 16, entries := [], cont := false, ends := true, firstLbn := 0, nextLbn := 1 }
/-- Cluster 0 enabled, volume 0 with a block. -/
def lanes (b : Blk) : State := setVol (on rig (.cdc 0)) 0 { mounted := true, blks := [b] }
/-- A unit on its way to a READ. -/
def unit : ReadUnit := { cid := 0, vol := 0, id := 0, q := 0, bytes := smallBlock, firstLbn := 0 }
/-- LaneRows: a lane that is not free, one that is, with and without work of a chain; a compression and a decompression to end; units that decode
and that do not; a job at work. -/
theorem witness_lanes : let m := setLane (lanes { block with phase := .lane }) 0 3 (.compress 0 0)
    let r := setLane (setSlice (on rig (.cdc 0)) 0 { units := [{ unit with st := .lane }] }) 0 3 (.decompress 0 0)
    laneFree rig 0 3 = false ∧ laneFree (lanes block) 0 3 = true ∧ openLane (lanes block) = true ∧ (domGated (lanes block) 16) = false
    ∧ requesters (lanes block) 0 3 = [0] ∧ requesters (lanes { block with par := { linked := true } }) 0 3 = [192] ∧ requesters (on rig (.cdc 0)) 0 3 = []
    ∧ (readyWrite (lanes block) 0).isSome = true ∧ (chainFor (lanes { block with par := { linked := true } }) 0 0 3).isSome = true
    ∧ 16 ≤ tget { rig.sched with passed := [(0, 16)] }.passed 0 0 ∧ slotReady m 0 0 = true
    ∧ laneWork m 0 3 = .compress 0 0 ∧ (blk? (setLane m 0 3 .idle) 0 0).map (·.phase) = some .lane ∧ blk? (setLane (lanes block) 0 3 .idle) 0 1 = none
    ∧ laneWork r 0 3 = .decompress 0 0 ∧ ((slice (setLane r 0 3 .idle) 0).units.find? fun u => u.id == 0 && u.st == .lane).isSome = true
    ∧ decodeBlock [] unit.bytes = .ok korr ∧ decodeBlock [] [] ≠ .ok [] ∧ (chainUnits rig 0 unit).filterMap id = [] := by decide +kernel
/-- LaneRows, a job: one that ends with a code and one that gives bytes. -/
theorem witness_job : let s := { rig with cmds := [(0, { port := .a, sq := 0, bytes := capsule 0x10, phase := .running, stage := 1 })] }
    (leAt (cmd s 0).bytes 0 1 = 0x10 ∧ (cmd s 0).phase = .running ∧ (cmd s 0).stage = 1 ∧ (cmd s 0).workWait = false ∧ s.fwu.paused = false)
    ∧ jobEnd s (cmd s 0).bytes = .ok [] 0
    ∧ jobEnd { s with mem := { bad := [0] } } ([0x10] ++ zeros 15 ++ leBytes 4 64 ++ zeros 44) = .fail (4, 1) 0 := by decide +kernel
/-- A slot with all its words written. -/
def full (x : Nat) : KeySlot := { st := .loading, label := 7, words := (List.range 24).map fun i => (i, BitVec.ofNat 32 (x + i / 8)) }
/-- KeyStoreRows: the last slot; KEY disabled, an alarm, a slot in use, none of these; each reason of COMMIT and none. -/
theorem witness_keys : let s := on (held .portA 1) .key
    let k (x : KeySlot) : State := setKey s 127 x
    Safety.canWrite s .portA (.key 127 0x5C) = true ∧ Safety.canWrite s .portA (.key 127 0x60) = true ∧ Safety.canWrite s .portA (.key 127 0x64) = true
    ∧ Safety.canWrite s .portA (.page .key 0x040) = true ∧ enabledNow rig .key = false ∧ enabledNow s .key = true
    ∧ alarmActive { s with alarms := [.rail] } = true ∧ alarmActive s = false ∧ slotBusy (setVol s 0 { mounted := true, bind := .slot 127 }) 127 = true
    ∧ slotBusy s 127 = false ∧ writtenMask {} ≠ 0xFFFFFF ∧ writtenMask (full 1) = 0xFFFFFF
    ∧ keyBytes (k (full 0)) 127 0 = zeros 32 ∧ keyBytes (k (full 1)) 127 0 ≠ keyBytes (k (full 1)) 127 1
    ∧ keyBytes (k { full 1 with words := (List.range 24).map fun i => (i, 5) }) 127 0 = keyBytes (k { full 1 with words := (List.range 24).map fun i => (i, 5) }) 127 1
    ∧ (∃ y ∈ (setKey (k (full 1)) 0 { full 1 with st := .committed }).keys, y.1 ≠ 127 ∧ y.2.st = .committed ∧ y.2.label = 7) := by decide +kernel
/-- ZeroiseRows: the right to write; a source active and not, enabled and not, without supply; the last alarm goes. -/
theorem witness_zeroise : Safety.canWrite (held .portA 1) .portA (.page .key 0x044) = true ∧ (([.rail] : List AlarmSrc).contains .rail) = true
    ∧ rig.alarms.contains .rail = false ∧ srcEnabled (setReg rig .key 0x04C 0) .cover = false ∧ srcEnabled rig .cover = true ∧ rig.pwr.supplied = true
    ∧ ¬ (AlarmSrc.rail = .rail ∧ rig.pwr.phase = .powerFail) ∧ alarmActive { rig with alarms := [.rail] } = true
    ∧ alarmActive { rig with alarms := ([.rail] : List AlarmSrc).filter (· != .rail) } = false := by decide +kernel
/-- TapeRows: the pause; speeds at rest, rising, falling; a burst of a volume, none, one that stops; a transport that may restart and one that may
not; reading; the cartridge record. -/
theorem witness_tape : let b := setLink (setSlice rig 0 { inBurst := true, curVol := some 0, stopped := false, target := 2, current := 1 }) 0 { phase := .up, mode := .writing, threaded := true }
    (paused rig).fwu.paused = true ∧ (slice rig 0).stopped = true ∧ (slice b 0).current < (slice b 0).target ∧ (2 : Nat) < 3
    ∧ ((slice b 0).inBurst = true ∧ (slice b 0).ending = false ∧ (link b 0).mode = .writing ∧ (slice b 0).curVol = some 0 ∧ (slice b 0).stopNow = false)
    ∧ (slice rig 0).inBurst = false ∧ (slice (setSlice rig 0 { stopNow := true }) 0).stopNow = true ∧ restartVol rig 0 = none
    ∧ (slice rig 0).gather.phase ≠ .running ∧ setInTurn { phase := .running } = none
    ∧ setInTurn { phase := .running, seen := [{ low := 0, kind := .data, first := true }] } = some { low := 0, kind := .data, first := true }
    ∧ mayTurn rig 0 = false ∧ mayWriteRecord rig 0 = false
    ∧ mayWriteRecord (setLink (setSlice rig 0 { recWant := true }) 0 { phase := .up }) 0 = true := by decide +kernel

/-- FlitReception: a good flit of each TYPE that a row brings; a link down; a CRC that is wrong; TYPE 6; a reserved field set; a flit lost
with its codeword. -/
theorem witness_flit : (∀ t ∈ [0, 1, 3, 4], flitOk (onLink (flit t)) = true ∧ reservedOk t (flit t) = true ∧ leAt (flit t) 0 2 / 2 ^ 13 = t
      ∧ leAt (flit t) 62 2 = (crc16 (sub (flit t) 0 62)).toNat)
    ∧ reservedOk 2 (flit 2 [1]) = true ∧ reservedOk 2 (flit 2 [2]) = true ∧ reservedOk 5 (flit 5 [0x81]) = true
    ∧ (link (linked rig .up) 0).phase = .up ∧ (link rig 0).phase = .disabled ∧ leAt (zeros 64) 62 2 ≠ (crc16 (zeros 62)).toNat
    ∧ leAt (flit 6) 0 2 / 2 ^ 13 = 6 ∧ reservedOk 0 (flit 0 [1]) = false ∧ (resendAll (linked rig .up) 0).2 = false
    ∧ { onLink (flit 0) with lost := true }.lost = true := by decide +kernel
/-- FlitReception: a sequence number that is expected, one ahead at both ends of its range, one that is old. -/
theorem witness_sequence : (0 + 8192 - 0) % 8192 = 0 ∧ ((1 + 8192 - 0) % 8192 ≠ 0 ∧ (1 + 8192 - 0) % 8192 < 4096) ∧ (4095 + 8192 - 0) % 8192 < 4096
    ∧ ¬ (4096 + 8192 - 0) % 8192 < 4096 ∧ (link (linked rig .up) 0).nakSent = false := by decide +kernel
/-- LinkTimerRows: each phase of a link, flits that wait for an acknowledgement and too many repeats, lanes, a drain of LOAD. -/
theorem witness_timers : let u := linked rig .up
    let q := setLink u 0 { link u 0 with unacked := [(0, flit 3, 0)], ctrl := [{ cmdId := 0, code := 0x1E, cid := none }], mbx := [{ op := 1, tag := 0, addr := 0, data := [], len := 4, tries := 0 }], mode := .threading }
    (link u 0).phase = .up ∧ (link q 0).unacked ≠ [] ∧ (link u 0).unacked = [] ∧ (resendAll q 0).2 = false
    ∧ (resendAll (setLink u 0 { link u 0 with unacked := [(0, flit 3, 100)] }) 0).2 = true
    ∧ (link u 0).lanes.getLsbD (laneBit true 1) = true ∧ ((0b0111 : BitVec 4).toNat % 4 ≠ 0 ∧ (0b0111 : BitVec 4).toNat / 4 ≠ 0) ∧ (0b0011 : BitVec 4).toNat / 4 = 0
    ∧ (link (setLink u 0 { link u 0 with retrain := 8 }) 0).retrain.getLsbD 3 = true ∧ (link (linked rig .training) 0).phase = .training
    ∧ field rig (.link 0) 0x040 0 4 = 15 ∧ (link (linked rig .loading) 0).stage ≠ 1
    ∧ (let f := on (linked rig .failed) (.link 0); (link f 0).phase = .failed ∧ (link f 0).noRetry = false ∧ enabledNow f (.link 0) = true)
    ∧ (link q 0).ctrl = [{ cmdId := 0, code := 0x1E, cid := none }] ∧ transitBound q 0 = true ∧ transitBound u 0 = false
    ∧ ((link q 0).mbx.find? isCm).isSome = true ∧ (link u 0).mbx.find? isCm = none := by decide +kernel
/-- TransportEvents: HELLO at both stages, FW_RESULT good and bad, ACK of each RESULT up to 3 and of an unknown command, MODE 11 and 12, CARTRIDGE in
and out, POSITIONED that is hit at both bounds and missed. -/
theorem witness_events : let l := linked rig .loading
    ((link l 0).phase = .loading ∧ (link l 0).stage = 0 ∧ leAt (zeros 64) 8 1 = 0) ∧ leAt (zeros 8 ++ [1]) 8 1 = 1 ∧ leAt (zeros 7 ++ [3]) 7 1 = 3
    ∧ (link (setLink l 0 { link l 0 with stage := 2 }) 0).stage = 2 ∧ (link (setLink l 0 { link l 0 with stage := 1, fwTries := 1 }) 0).fwTries ≠ 0
    ∧ ([{ cmdId := 0, code := 0x1E, cid := none }] : List CtrlOut).find? (fun c => c.cmdId == leAt (zeros 64) 8 2) = some { cmdId := 0, code := 0x1E, cid := none }
    ∧ leAt (zeros 8 ++ [11]) 8 1 = 11 ∧ 11 < leAt (zeros 8 ++ [12]) 8 1 ∧ ((zeros 8 ++ [1]).getD 8 0).getLsbD 0 = true ∧ ((zeros 9).getD 8 0).getLsbD 0 = false
    ∧ (link rig 0).mode = .empty ∧ (slice rig 0).locFor = none ∧ (slice (setSlice rig 0 { locFor := some .gather }) 0).locFor = some .gather
    ∧ (1000 ≤ 0 + 1000 ∧ 0 ≤ 1000 + 1000) ∧ ¬ 1001 ≤ 0 + 1000 := by decide
/-- LoopRows: the last loop; MANUAL set and cleared in SERVICE and out of it; a set that fails and one that passes; SERVO enabled and not; a loop
whose samples stop. -/
theorem witness_loops : let s := { rig with sems := [(19, { holder := some .portA })] }
    let l : LoopSt := { regs := [(0x10, 0x22), (0x14, 0x7FFF8001), (0x18, 0x00010001)], phase := .run }
    Safety.canWrite s .portA (.loop 63 0x80) = true ∧ ((1 : Word).getLsbD 1 = false ∧ (1 : Word).getLsbD 2 = false ∧ (1 : Word).getLsbD 0 = true)
    ∧ (loop s 63).manual = false ∧ (loop (setLoop s 63 { manual := true }) 63).manual = true ∧ (link (setLink s 15 { mode := .service }) 15).mode = .service
    ∧ (loopCheck {} 3).1 ≠ 0 ∧ (loopCheck l 3).1 = 0 ∧ enabledNow rig (.servo 15) = false ∧ enabledNow (on rig (.servo 15)) (.servo 15) = true
    ∧ (loop (setLoop s 63 l) 63).phase = .run := by decide +kernel
/-- ModeControlRows: a transport that may enter SERVICE and one whose link is down. -/
theorem witness_mode : let s := linked { rig with sems := [(19, { holder := some .portA }), (4, { holder := some .portA })] } .up
    Safety.canWrite s .portA (.page (.link 0) 0x058) = true ∧ (link s 0).mode = .empty ∧ anyMounted (wake s 4) 0 = false ∧ cmdsOf (wake s 4) 0 = []
    ∧ (link rig 0).phase ≠ .up := by decide +kernel
/-- StartRows: each phase; PG_OUT low with the input pending; the last watchdog before a fallback, with a good boot block and without. -/
theorem witness_phases : State.reset.pwr.phase = .off ∧ State.reset.pwr.pgOut = false ∧ State.reset.pwr.pgPending = true ∧ State.reset.pwr.pwrEnHigh = true
    ∧ rig.pwr.phase = .running ∧ { rig.pwr with phase := .starting, watchdogs := 2 }.watchdogs = 2 ∧ rig.pwr.pairedFallback = false
    ∧ (bootBlk rig 1).valid = false ∧ (bootBlk { rig with fwu := { blocks := [(1, { valid := true })] } } 1).valid = true
    ∧ { rig.pwr with phase := .inReset }.phase = .inReset := by decide
/-- SupplyRows: a dip and its end; power fail and what follows; the store below and at 90 %. -/
theorem witness_supply : rig.pwr.pgOut = true ∧ State.reset.pwr.pgOut = false ∧ { rig.pwr with dipped := true }.dipped = true ∧ rig.pwr.pwrEnHigh = true
    ∧ rig.pwr.phase ≠ .powerFail ∧ { rig.pwr with phase := .powerFail }.phase = .powerFail ∧ { rig.pwr with charge := 89 }.charge < 90 ∧ 90 ≤ { rig.pwr with charge := 90 }.charge
    ∧ rig.pwr.degraded = false := by decide
/-- PowerStateRows: the right to ask; each request; BIVOUAC that begins, is entered for a request and for the timer; a timer of a domain; LANTERN. -/
theorem witness_states : let s := on (held .portA 3) .pwr
    let t := setReg s .pwr 0x048 1
    Safety.canWrite s .portA (.page .pwr 0x040) = true ∧ (3 : Word).toNat % 4 = 3 ∧ s.ready = true ∧ State.reset.ready = false ∧ anyMoving s = false
    ∧ anyMoving (setLink s 0 { phase := .up, mode := .writing, threaded := true }) = true
    ∧ (enabledNow t .pwr = true ∧ t.pwr.request = 0 ∧ field t .pwr 0x048 0 22 ≠ 0 ∧ t.pwr.bivouac = false ∧ quiescent t = true)
    ∧ (t.pwr.phase = .running ∧ { t.pwr with request := 1 }.request = 1 ∧ { t.pwr with request := 1 }.reqDone = false)
    ∧ field (setReg s .pwr 0x04C 1) .pwr 0x04C 0 20 ≠ 0 ∧ domGated s 16 = false ∧ domainBusy s 16 = false
    ∧ domainBusy (setCluster s 0 { lanes := [(0, .job 0)] }) 16 = true ∧ ([16] : List Nat).contains 16 = true
    ∧ reg s .pwr 0x054 = 0 ∧ reg (setReg s .pwr 0x054 1) .pwr 0x054 ≠ 0 := by decide +kernel
/-- SensorSampleRow: sensors at the ends of each range, the windows' limits, the store's charge at 90 %. -/
theorem witness_sensor : coreServes rig = true ∧ coreServes State.reset = false ∧ railWindow 30 = (11400, 12600) ∧ railWindow 47 = (776, 824)
    ∧ 11399 < (railWindow 30).1 ∧ (railWindow 30).2 < 12601 ∧ min 100 (100 * 33204 * 33204 / (35000 * 35000)) = 90 ∧ min 100 (100 * 33203 * 33203 / (35000 * 35000)) = 89
    ∧ railOff { rig with pwr := { rig.pwr with gated := (List.range 16).map (16 + ·) } } 32 = true ∧ railOff rig 32 = false := by decide +kernel
/-- MailboxRows: a request at hand, with its answer and without; the lengths at their bounds; the semaphores held; a transport owned and up. -/
theorem witness_mailbox : let b : PortSt := { linkUp := true, mailBusy := true, mailOp := 5, mailLen := 32 }
    let s := setPort { held .portA 2 with sems := [(0, { holder := some .portA }), (2, { holder := some .portA }), (4, { holder := some .portA })] } .a b
    (coreServes s = true ∧ s.fwu.paused = false ∧ (port s .a).mailBusy = true ∧ (port s .a).mailAnswer = none ∧ (port s .a).mailOp = 5)
    ∧ (holds s (portMaster .a) 0 = true ∧ holds s (portMaster .a) 2 = true ∧ holds s (portMaster .a) 4 = true) ∧ owner s 0 = 1 + pIdx .a
    ∧ (link (linked s .up) 0).phase = .up ∧ (5 ≤ (zeros 5).length ∧ (zeros 52).length ≤ 52) ∧ ¬ (zeros 53).length ≤ 52 ∧ leAt [15] 0 1 ≤ 15 ∧ ¬ leAt [16] 0 1 ≤ 15
    ∧ 32 < { b with mailLen := 33 }.mailLen ∧ { b with mailAnswer := some (0, []) }.mailAnswer = some (0, [])
    ∧ ((link (setLink s 0 { mbx := [{ op := 3, tag := 0, addr := 0, data := [], len := 0, tries := 0, who := 1 }] }) 0).mbx.find? fun m => m.op == 3 && m.who == 1).isSome = true := by decide +kernel
/-- LOG_SUMMARY: a fold of 16 and one of 17. -/
theorem witness_folds : ¬ 16 < ({ sec := 0, code := 0, source := 0, inst := 0, count := 16, last := ⟨0, 0, 0, 0, 0, 0, 0, false, false, false, 0, 0, 0, 0⟩ } : LogFold).count
    ∧ 16 < ({ sec := 0, code := 0, source := 0, inst := 0, count := 17, last := ⟨0, 0, 0, 0, 0, 0, 0, false, false, false, 0, 0, 0, 0⟩ } : LogFold).count := by decide
/-- Requests of the service port: each OPCODE of a row is read without a session, an unknown OPCODE too, one that is cut short is not; the port is heard. -/
theorem witness_request : (∀ o ∈ [0x01, 0x02, 0x03, 0x10, 0x11, 0x12, 0x13, 0x20, 0x21, 0x22, 0x23, 0x24, 0x25, 0x26, 0x27, 0x40, 0x41, 0x42, 0x43, 0x44, 0x45, 0x46, 0x47, 0x99],
      readDg rig (request o (zeros 4)) = some { id := 0, seq := 0, op := o, authed := false, body := zeros 4 })
    ∧ readDg rig ((request 1).take 23) = none ∧ 0x99 ∉ fspOps ∧ 0x47 ∈ fspOps ∧ coreServes rig = true ∧ rig.fwu.paused = false ∧ rig.fsp.phyUp = true := by decide +kernel
/-- SessionRows: no session, four of them, one that is authenticated; the lockout; an owner key. -/
theorem witness_session : let x : Session := { id := 1, nonce := zeros 32, authed := true, key := zeros 48, lastSeq := some 4 }
    4 ≤ ([x, x, x, x] : List Session).length ∧ ([x, x, x] : List Session).length < 4 ∧ (([x].find? fun y => y.id == 1).filter (·.authed)) = some x
    ∧ sessionOf { rig with fsp := { sessions := [x] } } 1 = some x ∧ sessionOf rig 1 = none ∧ rig.fsp.lockedUntil = none ∧ rig.fsp.ownerKey = none
    ∧ { rig.fsp with lockedUntil := some 1 }.lockedUntil ≠ none ∧ (∀ l, x.lastSeq = some l → l < 5) := by
  refine ⟨by decide, by decide, by decide, by decide, by decide, rfl, rfl, by decide, fun l h => ?_⟩
  cases h; decide
/-- OwnerRows: SEM0 free and not, the store at 89 % and 90 %, THAW of the last master and of none, lengths at their bounds. -/
theorem witness_owner_rows : ¬ ((mst rig .mgmt).frozen = true ∨ (sem rig 0).holder ≠ none) ∧ (sem (held .portA 0) 0).holder ≠ none
    ∧ holds (held .mgmt 31) .mgmt 31 = true ∧ leAt [1] 0 1 ≤ 1 ∧ 1 < leAt [2] 0 1 ∧ { rig.pwr with charge := 89 }.charge < 90 ∧ 90 ≤ rig.pwr.charge
    ∧ (zeros 48).length = 48 ∧ (zeros 47).length ≠ 48 ∧ rig.fsp.ownerKey = none ∧ (5 ≤ (zeros 52).length ∧ (zeros 52).length ≤ 52)
    ∧ (link (setLink rig 15 { phase := .up, mode := .service }) 15).mode = .service ∧ (link rig 15).phase ≠ .up := by decide +kernel
/-- BusRows: an alarm that is latched and enabled, and none; an echo of 8 bytes, a solicitation of 24. -/
theorem witness_bus : reg rig .mgt 0x04C &&& reg rig .mgt 0x048 = 0
    ∧ (let s := setReg (setReg rig .mgt 0x04C 1) .mgt 0x048 1; reg s .mgt 0x04C &&& reg s .mgt 0x048 ≠ 0)
    ∧ (leAt (128 :: zeros 7) 0 1 = 128 ∧ 8 ≤ (128 :: zeros 7 : List Byte).length) ∧ ¬ 8 ≤ (128 :: zeros 6 : List Byte).length
    ∧ (let m : List Byte := 135 :: zeros 7 ++ zeros 16; 24 ≤ m.length ∧ sub m 8 16 = { rig.fsp with staticAddr := zeros 16 }.staticAddr) := by decide +kernel
/-- TimeRows: the right to step; a slew of a second and of more; each DISC_STATE; a first edge, edges at both ends of their window; TIM enabled with its outputs. -/
theorem witness_time : let s := setReg (on (held .portA 0) .tim) .tim 0x040 0xC
    Safety.canWrite s .portA (.page .tim 0x064) = true ∧ s.pwr.tcxo = true ∧ { s.pwr with tcxo := false }.tcxo = false
    ∧ ((1000000000 : Word).toInt.natAbs ≤ 1000000000) ∧ 1000000000 < (1000000001 : Word).toInt.natAbs ∧ { s.tim with disc := .locked }.disc = .locked
    ∧ s.tim.validEdge = none ∧ (5 + 999000000 ≤ 999000005 ∧ 999000005 ≤ 5 + 1001000000) ∧ 1001000005 ≤ 5 + 1001000000
    ∧ (page s .tim).enabled = true ∧ field s .tim 0x040 3 1 = 1 ∧ field s .tim 0x040 2 1 = 1 ∧ field (setReg rig .tim 0x040 0) .tim 0x040 3 1 = 0
    ∧ (1000 : Int).natAbs ≤ 1000 ∧ 1000 < (-1001 : Int).natAbs ∧ { s.tim with disc := .locking, goodEdges := 7 }.goodEdges + 1 = 8 := by decide +kernel
/-- PtpRows: a clock that speaks; a Delay_Req and an Announce of the shortest length, and too short. -/
theorem witness_ptp : let s := setReg (on { rig with tim := { taiValid := true } } .tim) .tim 0x040 2
    (coreServes s = true ∧ s.fwu.paused = false ∧ s.fsp.phyUp = true ∧ enabled s .tim = true ∧ field s .tim 0x040 1 1 = 1 ∧ s.tim.taiValid = true)
    ∧ (let m : List Byte := [1, 2] ++ zeros 42; 44 ≤ m.length ∧ leAt m 0 1 % 16 = 1 ∧ leAt m 1 1 % 16 = 2 ∧ leAt m 4 1 = field s .tim 0x040 8 8)
    ∧ (let m : List Byte := [0xB, 2] ++ zeros 62; 64 ≤ m.length ∧ leAt m 0 1 % 16 = 0xB) ∧ ¬ 44 ≤ ([1, 2] ++ zeros 41 : List Byte).length := by decide +kernel
/-- NvRows: the doorbell's last tail and the first that is too large; a descriptor of each OP, good; one that is bad, lost, of another OP; a bank with work. -/
theorem witness_nv : let s := setReg (on rig .nva) .nva 0x048 4096
    let d (op len : Nat) : NvDesc := { op := op, flags := 0, reserved := false, length := len, addr := 0, ptr := 0 }
    Safety.canWrite rig .portA (.page .nva 0x060) = true ∧ enabledNow rig .nva = false ∧ enabledNow s .nva = true ∧ (4095 : Word).toNat % 4096 < field s .nva 0x048 0 13
    ∧ field rig .nva 0x048 0 13 ≤ (0 : Word).toNat % 4096 ∧ (nvq rig .a).job = none ∧ nvTurn rig .a = true ∧ nvTurn rig .mgmt = true ∧ (nvq rig .a).fetched = []
    ∧ badDesc .a (d 1 65536) = false ∧ badDesc .a (d 1 65537) = true ∧ badDesc .a (d 2 8) = false ∧ badDesc .a (d 3 4096) = false ∧ badDesc .a (d 4 8) = false
    ∧ badDesc .mgmt (d 5 0) = false ∧ { d 1 1 with lost := true }.lost = true ∧ (d 1 1).op ≠ 2 ∧ notBlank (List.replicate 8 erased) = none
    ∧ (notBlank (zeros 8)).isSome = true ∧ (selectUnits rig 1).isSome = true
    ∧ bankUnits rig 1 = [] ∧ bankUnits { rig with nv := { units := [(1, [(.mgmt, .erase 0x1000000)])] } } 1 = [(.mgmt, .erase 0x1000000)] := by decide +kernel
/-- UpdateRows: the right to step; the owner's lock; each phase; the store; SEM2 free and held; the bounds of a download. -/
theorem witness_update : Safety.canWrite (held .portA 2) .portA (.page .fwu 0x040) = true ∧ { rig.fsp with ownerLock := true }.ownerLock = true ∧ rig.fsp.ownerLock = false
    ∧ stepReason { rig with fwu := { phase := .downloaded } } .verify = 0 ∧ stepReason rig .verify ≠ 0 ∧ stepReason rig .confirm = 0 ∧ stepReason rig .cancel = 0
    ∧ stepReason { rig with pwr := { rig.pwr with charge := 89 } } .confirm = 0x0803 ∧ (sem rig 2).holder = none ∧ (sem (held .portB 2) 2).holder ≠ none
    ∧ stepReason { rig with fwu := { phase := .verified } } (.activate 1 false true) = 0 ∧ stepReason { rig with fwu := { phase := .verified } } (.activate 1 false false) = 0x0808
    ∧ ¬ (4096 < 4096) ∧ ¬ 7864320 < 7864320 ∧ (4 ≤ (zeros 1028).length ∧ (zeros 1028).length ≤ 1028) := by decide +kernel
/-- ActivationRows: each phase; an activation that is due; a pause that may begin, with a sector for the select word and without; one that ends. That an
image is valid is not shown: the check of a signature is a free value of the configuration. -/
theorem witness_activation : let a : FwuSt := { phase := .activating, prepared := true }
    let s := { rig with fwu := a }
    ({ rig.fwu with phase := .verifying }.phase = .verifying ∧ checkImage rig 1 ≠ 1) ∧ ({ rig.fwu with phase := .scheduled }.phase = .scheduled ∧ rig.fwu.atTai ≤ now rig)
    ∧ (s.fwu.phase = .activating ∧ s.fwu.prepared = true ∧ s.fwu.paused = false ∧ s.fwu.quiesce = false) ∧ (selectUnits s 1).isSome = true
    ∧ quiesced { s with fwu := { a with quiesce := true } } = true
    ∧ selectUnits { s with nv := { remaps := [(selectBase 0 / 4096, none), (selectBase 1 / 4096, none)] } } 1 = none
    ∧ (paused s).fwu.paused = true ∧ (paused s).fwu.byCid = none ∧ { a with byCid := some 0 }.byCid = some 0 ∧ { a with phase := .trial }.phase = .trial
    ∧ anyMoving rig = false := by decide +kernel
/-- UnitOperationBytes: the ends of a sector and of a program. -/
theorem witness_unit : (0x1000 ≤ 0x1000 ∧ 0x1FFF < 0x1000 + 4096) ∧ (0xFFF < 0x1000 ∨ 0x1000 + 4096 ≤ 0xFFF) ∧ 0x1000 + 4096 ≤ 0x2000 ∧ Memory.sorted erased rig.nv.cells = true := by decide
/-- LoopArithmetic: a loop after a start, within its limits, beyond them, an error at and beyond FE_LIMIT. -/
theorem witness_loop : let l : LoopSt := { act := [(0x10, 0x22), (0x14, 0x7FFF8001), (0x18, 0x00010001)], fresh := true }
    (coefs l.act).outMin ≤ (coefs l.act).outMax ∧ l.fresh = true ∧ ((coefs l.act).outMin * 32768 ≤ 0 ∧ 0 ≤ (coefs l.act).outMax * 32768)
    ∧ (coefs l.act).outMax < 32768 ∧ (coefs l.act).feLimit = 1 ∧ (coefs l.act).feCount = 1 := by decide +kernel

/-- A fault of an on-die SRAM. -/
def sram (k : SramKind) (p : SramUnit := .other) : SramFault := { chip := 0, word := 0, kind := k, hard := false, part := p }
/-- PairAccess: the two words of META, the last word of the SEM page beside it that is none; both words of a pair at once; a word of the TCM and of
another SRAM that cannot be read; the windows of an open port. -/
theorem witness_reads : spotOf (0x8000 + 0x138) = .page .pool 0x138 ∧ spotOf (0x8000 + 0x13C) = .page .pool 0x13C
    ∧ Safety.reaches pooled .portA (.page .pool 0x138) = true ∧ Safety.reaches pooled .portA (.page .pool 0x13C) = true
    ∧ (isLo (spotOf 0x3058) = true ∧ isHi (spotOf (0x3058 + 4)) = true) ∧ served rig .portA = true ∧ waits rig .portA = false
    ∧ (sram .uncorrectable .tcm).kind = .uncorrectable ∧ (sram .uncorrectable).part ≠ .tcm := by decide +kernel
/-- CommandStartRow: an SQ of the device with a capsule that stops; a word of the inbox that cannot be read and one that was corrected. -/
theorem witness_inbox : let x : Sq := { enabled := true, inbox := [where'] }
    let d : Sq := { x with bind := 0x10000 }
    sqVol d = none ∧ (startStop (queued d) .a 0 where').isSome = true ∧ (sram .uncorrectable).kind = .uncorrectable
    ∧ (sram .corrected).kind ≠ .uncorrectable ∧ startStop (sramMet (queued x) (sram .corrected) (pIdx .a)) .a 0 where' = none := by decide +kernel
/-- SegmentRows: the pool lost; the segment of an address of the data window at both of its ends, and none past them. -/
theorem witness_segment : let g := { segment with phase := .isOpen }
    let s := waiting g
    { s.pool with dead := true }.dead = true ∧ s.pool.dead = false ∧ seg? (waiting segment) 0 0 0 = some segment
    ∧ openSegAt s .a 0 0 = some g ∧ openSegAt s .a 0 65535 = some g ∧ openSegAt s .a 0 65536 = none ∧ 0 + 65536 ≤ g.off + g.len := by decide +kernel
/-- FlitReception: a flit of each TYPE heard in order on a link that is up. -/
theorem witness_order : ∀ t ∈ [0, 1, 3, 4], Safety.inOrder (linked rig .up) 0 (onLink (flit t)) t := by
  simp only [Safety.inOrder]; decide +kernel
/-- LinkTimerRows: a lane that fails by the FEC at and beyond its limit, by the PMA and by RX_GOOD; one that is good again. -/
theorem witness_lane : laneLost true 0 (.fec 17) = true ∧ laneLost true 0 (.fec 16) = false ∧ laneLost true 1 .pma = true
    ∧ laneLost false 0 (.rxGood [] []) = false ∧ laneLost true 0 (.markers [[], [], [], []]) = true ∧ laneGood true 0 0 [] = true ∧ laneGood true 0 1 [] = false := by decide +kernel
/-- TransportEvents: the departure that a TIME flit names, none back and one back, and a bridge that held it too long. -/
theorem witness_trip : let s := linked { rig with tick := 100 } .up
    let t := clock s - (link s 0).frameAt
    let k := t * 5 / 1024
    (t = 4000 ∧ k = 19) ∧ ((19 + 0) % 2 ^ 32 = frameNumber (link s 0).frameFirst k ∧ (18 + 1) % 2 ^ 32 = frameNumber (link s 0).frameFirst k)
    ∧ (1 ≤ k ∧ 313 ≤ t - frameDeparts (k - 1)) ∧ ¬ (1 ≤ k ∧ 315 ≤ t - frameDeparts (k - 1)) ∧ ¬ 20 ≤ k := by decide +kernel
/-- LaneRows: a requester passed 16 times; an ingest region, which spoils no block, and another part; early blocks; a job after the pool was lost. -/
theorem witness_requests : let e := setLane (lanes block) 0 3 (.early 0 0 0 0)
    16 ≤ tget { rig.sched with passed := [(5, 16)] }.passed 5 0 ∧ ¬ 16 ≤ tget { rig.sched with passed := [(5, 15)] }.passed 5 0
    ∧ (sram .uncorrectable (.ingest 0 0)).part = .ingest 0 0 ∧ (∀ n i, (sram .uncorrectable).part ≠ .ingest n i)
    ∧ laneWork e 0 3 = .early 0 0 0 0 ∧ e.fwu.paused = false ∧ 192 / 64 = 3
    ∧ (slice (setSlice (lanes block) 0 { doomed := [block] }) 0).doomed.find? (fun b => b.vol == 0 && b.q == 0) = some block
    ∧ { rig with pool := { rig.pool with dead := true } }.pool.dead = true := by
  refine ⟨by decide, by decide, rfl, fun n i h => (by cases h), by decide, rfl, rfl, by decide, rfl⟩
/-- TapeRows: a ramp that goes on and one at its target; the next wrap at the eighth first pass and past it; a set rebuilt; frames that an SRAM lost. -/
theorem witness_ramp : { slice rig 0 with ramping := true, stopped := false }.ramping = true ∧ (slice rig 0).ramping = false
    ∧ mayCross (setSlice (on rig (.fmt 0)) 0 { gather := { phase := .running } }) 0 { low := 0, kind := .data, first := true, after := 8 } = false
    ∧ (sram .uncorrectable (.frame 0)).kind = .uncorrectable := by decide +kernel
/-- StartRows: a loss of the TCXO with D00 supplied and not, in each phase that its clauses name. -/
theorem witness_tcxo : rig.pwr.supplied = true ∧ { rig.pwr with supplied := false }.supplied = false ∧ ¬ (rig.pwr.phase = .off ∨ rig.pwr.phase = .powerFail)
    ∧ rig.pwr.phase ≠ .inReset ∧ { rig.pwr with phase := .off }.phase = .off := by decide
/-- PowerStateRows: a LANTERN exit in progress. -/
theorem witness_exit : { rig.pwr with phase := .lanternExit }.phase = .lanternExit ∧ rig.pwr.phase ≠ .lanternExit
    ∧ { rig.pwr with gateWait := [16] }.gateWait.contains 16 = true := by decide

end Sys2Proof.Tests
end

section
/-! PROOF. Clocks and power-on (R23, R398, R400, R401, R416, R496): what each event of the TCXO, the input, the start sequence and the
watchdog does, one lemma for each branch of its operation, and the obligation on them. -/

namespace Sys2Proof.Machine

/-- An answer may name its effect by any equal state. -/
theorem answers_of_eq {o : Host.Outcome State Fault Refusal} {s t u : State} (h : Safety.answers o s t) (e : t = u) :
    Safety.answers o s u := e ▸ h

section Operations

variable (s : State)

/-! ### The meanings of the rows -/

theorem tcxoLoss_answers : Safety.answers (exec .tcxoLoss s) s (tcxoLossOp s) := finish_answers s _
theorem tcxoResume_answers : Safety.answers (exec .tcxoResume s) s (tcxoResumeOp s) := finish_answers s _
theorem powerGood_answers : Safety.answers (exec .powerGood s) s (powerGoodOp s) := finish_answers s _
theorem ready_answers (failed : Word) : Safety.answers (exec (.ready failed) s) s (readyOp s failed) := finish_answers s _
theorem watchdogExpiry_answers : Safety.answers (exec .watchdogExpiry s) s (watchdogOp s) := finish_answers s _
theorem pwrEnLow_answers : Safety.answers (exec .pwrEnLow s) s (pwrEnLowOp s) := finish_answers s _
theorem pwrEnHigh_answers : Safety.answers (exec .pwrEnHigh s) s (pwrEnHighOp s) := finish_answers s _

/-! ### The TCXO (R23) -/

/-- The oscillator stands still, or runs. -/
def setTcxo (s : State) (on : Bool) : State := modPwr s fun p => { p with tcxo := on }

/-- A sequence that was pending is so no more. -/
def clearPending (s : State) : State := modPwr s fun p => { p with pgPending := false }

theorem tcxoLossOp_no_reset (h : s.pwr.supplied = false ∨ s.pwr.phase = .inReset) : tcxoLossOp s = setTcxo s false := by
  rcases h with h | h <;> simp [tcxoLossOp, modPwr, setTcxo, h]

theorem tcxoLossOp_unlit (hs : s.pwr.supplied = true) (h : s.pwr.phase = .off ∨ s.pwr.phase = .powerFail) :
    tcxoLossOp s = deviceReset (setTcxo s false) .tcxoLoss := by
  rcases h with h | h <;> simp [tcxoLossOp, modPwr, setTcxo, hs, h]

theorem tcxoLossOp_lit (hs : s.pwr.supplied = true) (hr : s.pwr.phase ≠ .inReset)
    (h : ¬ (s.pwr.phase = .off ∨ s.pwr.phase = .powerFail)) :
    tcxoLossOp s = modPwr (phyOff (deviceReset (setTcxo s false) .tcxoLoss)) fun p => { p with phase := .inReset } := by
  obtain ⟨ho, hf⟩ := not_or.mp h
  simp [tcxoLossOp, modPwr, setTcxo, hs, hr, ho, hf]

theorem tcxoResumeOp_inReset (h : s.pwr.phase = .inReset) : tcxoResumeOp s = startSeq (setTcxo s true) := by
  simp [tcxoResumeOp, setTcxo, h]

theorem tcxoResumeOp_pending (h : s.pwr.phase = .off) (hg : s.pwr.pgOut = true) (hp : s.pwr.pgPending = true) :
    tcxoResumeOp s = startSeq (clearPending (setTcxo s true)) := by
  simp [tcxoResumeOp, modPwr, setTcxo, clearPending, h, hg, hp]

theorem tcxoResumeOp_idle (hr : s.pwr.phase ≠ .inReset)
    (h : s.pwr.phase ≠ .off ∨ s.pwr.pgOut = false ∨ s.pwr.pgPending = false) : tcxoResumeOp s = setTcxo s true := by
  rcases h with h | h | h <;> simp [tcxoResumeOp, modPwr, setTcxo, hr, h]

/-! ### POWER_GOOD and PWR_EN (R398, R401, R496) -/

/-- PG_OUT is high and D00 has power. -/
def raisePgOut (s : State) : State :=
  setPin (modPwr s fun p => { p with pgOut := true, supplied := true, dipped := false }) "PG_OUT" true

/-- Where D00 had lost power, the active alarm sources that are enabled zeroise the slots as PG_OUT rises (R244). -/
def powerUp (s : State) : State :=
  if s.pwr.supplied then raisePgOut s
  else ((raisePgOut s).alarms.filter (srcEnabled (raisePgOut s))).foldl (fun t a => zeroise t (srcBit a)) (raisePgOut s)

theorem powerGoodOp_unchanged (h : s.pwr.pgOut = true ∨ s.pwr.pwrEnHigh = false ∨ s.pwr.phase = .powerFail) : powerGoodOp s = s := by
  rcases h with h | h | h <;> simp [powerGoodOp, h]

/-- PG_OUT rises, and a pending sequence starts where the TCXO runs. -/
theorem powerGoodOp_rises (hg : s.pwr.pgOut = false) (he : s.pwr.pwrEnHigh = true) (hf : s.pwr.phase ≠ .powerFail) :
    powerGoodOp s = if (powerUp s).pwr.pgPending && (powerUp s).pwr.tcxo then startSeq (clearPending (powerUp s)) else powerUp s := by
  cases hs : s.pwr.supplied <;> simp [powerGoodOp, powerUp, raisePgOut, clearPending, hg, he, hf, hs]

theorem powerGoodOp_starts (hg : s.pwr.pgOut = false) (he : s.pwr.pwrEnHigh = true) (hf : s.pwr.phase ≠ .powerFail)
    (h : (powerUp s).pwr.pgPending = true ∧ (powerUp s).pwr.tcxo = true) : powerGoodOp s = startSeq (clearPending (powerUp s)) := by
  rw [powerGoodOp_rises s hg he hf, if_pos (by simpa using h)]

theorem powerGoodOp_waits (hg : s.pwr.pgOut = false) (he : s.pwr.pwrEnHigh = true) (hf : s.pwr.phase ≠ .powerFail)
    (h : ¬ ((powerUp s).pwr.pgPending = true ∧ (powerUp s).pwr.tcxo = true)) : powerGoodOp s = powerUp s := by
  rw [powerGoodOp_rises s hg he hf, if_neg (by simpa using h)]

theorem pwrEnLowOp_unlit (h : s.pwr.phase = .powerFail ∨ s.pwr.phase = .off) :
    pwrEnLowOp s = modPwr s fun p => { p with pwrEnHigh := false } := by
  rcases h with h | h <;> simp [pwrEnLowOp, modPwr, h]

theorem pwrEnLowOp_lit (hf : s.pwr.phase ≠ .powerFail) (ho : s.pwr.phase ≠ .off) :
    pwrEnLowOp s = powerOff (modPwr s fun p => { p with pwrEnHigh := false }) .pwrEn .off := by
  simp [pwrEnLowOp, modPwr, hf, ho]

/-! ### READY and the watchdog (R398, R400, R416) -/

theorem readyOp_starting (failed : Word) (h : s.pwr.phase = .starting) :
    readyOp s failed = if imageOk s then finishStart s failed else imageFailure s := by
  simp [readyOp, bootImage, h]

theorem readyOp_unchanged (failed : Word) (h : s.pwr.phase ≠ .starting) : readyOp s failed = s := by
  simp [readyOp, h]

/-- A failed image falls back once, where the other boot block is valid. -/
theorem imageFailure_fallBack (hv : (bootBlk s (1 - s.fwu.block)).valid = true) (hp : s.pwr.pairedFallback = false) :
    imageFailure s = startSeq (fallBack (deviceReset (modPwr s fun p => { p with watchdogs := 0, pairedFallback := true }) .trialFallback)) := by
  simp [imageFailure, hv, hp]

/-- Otherwise recovery is entered with the security fields loaded, which stand in the service port's part. -/
theorem imageFailure_recovery (h : (bootBlk s (1 - s.fwu.block)).valid = false ∨ s.pwr.pairedFallback = true) :
    ∃ f, imageFailure s = { s with fsp := f, pwr := { s.pwr with phase := .recovery, watchdogs := 0 } } := by
  have none_left : ((bootBlk s (1 - s.fwu.block)).valid && !s.pwr.pairedFallback) = false := by
    rcases h with h | h <;> simp [h]
  unfold imageFailure
  rw [if_neg (by simp [none_left])]
  cases newest (s.nv.records.filter (·.security)) with
  | none => exact ⟨s.fsp, rfl⟩
  | some r => exact ⟨(applySecurity s r).fsp, rfl⟩

theorem watchdogOp_counted (h : s.pwr.phase = .starting) (hw : s.pwr.watchdogs ≠ 2) :
    watchdogOp s = resetAndStart (modPwr s fun p => { p with watchdogs := p.watchdogs + 1 }) .watchdog := by
  simp [watchdogOp, h, hw]

theorem watchdogOp_third (h : s.pwr.phase = .starting) (hw : s.pwr.watchdogs = 2) : watchdogOp s = imageFailure s := by
  simp [watchdogOp, h, hw]

theorem watchdogOp_resets (h : s.pwr.phase = .running ∨ s.pwr.phase = .recovery ∨ s.pwr.phase = .lanternExit) :
    watchdogOp s = resetAndStart s .watchdog := by
  rcases h with h | h | h <;> simp [watchdogOp, h]

theorem watchdogOp_unchanged (h : s.pwr.phase = .off ∨ s.pwr.phase = .dead ∨ s.pwr.phase = .inReset ∨ s.pwr.phase = .lantern
    ∨ s.pwr.phase = .powerFail) : watchdogOp s = s := by
  rcases h with h | h | h | h | h <;> simp [watchdogOp, h]

/-- The power part at the end of a sequence (R398, R407). -/
theorem finishStart_pwr (failed : Word) : (finishStart s failed).pwr = { (startPages s failed).pwr with
    phase := .running, gated := disabledDomains, wakeN := false, watchdogs := 0, pairedFallback := false } := by
  rw [(finishStart_spec s failed).2, startRuns_pwr]

/-- What a power-off leaves over a device reset (R401, R174). -/
theorem powerOff_eq (c : ResetCause) (ph : RunPhase) :
    let r := deviceReset s c
    powerOff s c ph = { r with
      mem := {}, pool := {}
      pwr := { r.pwr with phase := ph, pgOut := false, pgPending := true, dipped := false, wakeN := false, watchdogs := 0, clkreq := [] }
      out := .pin "PG_OUT" false :: .pin "CLKREQ_N_B" true :: .pin "CLKREQ_N_A" true :: r.out } := by
  unfold powerOff
  generalize deviceReset s c = r
  rfl

end Operations

/-- Settles O45: each clause is the branch of its event's operation that the clause's hypotheses select. That active sources zeroise
the slots as D00 gets power again, and that the image is checked at READY, are the model's choices (log entries 36 and 39). -/
theorem startRows : Obligations.StartRows := by
  unfold Obligations.StartRows
  refine ⟨fun s => ?_, fun s failed => ?_, fun s c ph => powerOff_eq s c ph⟩
  · refine ⟨?lossKept, ?lossUnlit, ?lossLit, ?resumeReset, ?resumePending, ?resumeIdle, ?goodNone, ?goodRises, ?ready, ?wdCounted,
      ?wdThird, ?wdResets, ?wdNone, ?enLowUnlit, ?enLowLit, ?enHigh⟩
    case lossKept => exact fun h => answers_of_eq (tcxoLoss_answers s) (tcxoLossOp_no_reset s h)
    case lossUnlit => exact fun hs h => answers_of_eq (tcxoLoss_answers s) (tcxoLossOp_unlit s hs h)
    case lossLit => exact fun hs hr h => answers_of_eq (tcxoLoss_answers s) (tcxoLossOp_lit s hs hr h)
    case resumeReset => exact fun h => answers_of_eq (tcxoResume_answers s) (tcxoResumeOp_inReset s h)
    case resumePending => exact fun h hg hp => answers_of_eq (tcxoResume_answers s) (tcxoResumeOp_pending s h hg hp)
    case resumeIdle => exact fun hr h => answers_of_eq (tcxoResume_answers s) (tcxoResumeOp_idle s hr h)
    case goodNone => exact fun h => answers_of_eq (powerGood_answers s) (powerGoodOp_unchanged s h)
    case goodRises =>
      exact fun hg he hf => ⟨fun h => answers_of_eq (powerGood_answers s) (powerGoodOp_starts s hg he hf h),
        fun h => answers_of_eq (powerGood_answers s) (powerGoodOp_waits s hg he hf h)⟩
    case ready =>
      exact fun failed => ⟨fun h => answers_of_eq (ready_answers s failed) (readyOp_starting s failed h),
        fun h => answers_of_eq (ready_answers s failed) (readyOp_unchanged s failed h)⟩
    case wdCounted => exact fun h hw => answers_of_eq (watchdogExpiry_answers s) (watchdogOp_counted s h hw)
    case wdThird =>
      intro h hw
      have failed_image := answers_of_eq (watchdogExpiry_answers s) (watchdogOp_third s h hw)
      refine ⟨fun hv hp => answers_of_eq failed_image (imageFailure_fallBack s hv hp), fun hn => ?_⟩
      obtain ⟨f, hf⟩ := imageFailure_recovery s hn
      exact ⟨f, answers_of_eq failed_image hf⟩
    case wdResets => exact fun h => answers_of_eq (watchdogExpiry_answers s) (watchdogOp_resets s h)
    case wdNone => exact fun h => answers_of_eq (watchdogExpiry_answers s) (watchdogOp_unchanged s h)
    case enLowUnlit => exact fun h => answers_of_eq (pwrEnLow_answers s) (pwrEnLowOp_unlit s h)
    case enLowLit => exact fun hf ho => answers_of_eq (pwrEnLow_answers s) (pwrEnLowOp_lit s hf ho)
    case enHigh => exact pwrEnHigh_answers s
  · have pwr := finishStart_pwr s failed
    refine ⟨(finishStart_spec s failed).1, ?_⟩
    simp [pwr, disabledDomains]

end Sys2Proof.Machine
end

section
/-! PROOF. Steps and reset: a step runs the front of the queue, no step leaves an event interrupt owed (R61), and what reset leaves in the
registers (R37 to R242). -/

namespace Sys2Proof.Machine

section Steps

variable (s : State)

/-- Whether interrupts are due does not rest on the queue. -/
theorem settled_withQueue (q : List Instr) : Safety.settled { s with pending := q } = Safety.settled s := rfl

/-- Settling leaves no interrupt due at either port. -/
theorem settled_settle : Safety.settled (settle s) = true := by
  simp only [Safety.settled, settle_not_due, Bool.not_false, Bool.and_self]

/-- A state that a row answers is settled. -/
theorem settled_of_finishIf {ok : Bool} {u t : State} (h : finishIf ok s u = .next t) : Safety.settled t = true := by
  cases ok with
  | false => rw [finishIf_fault s false u rfl] at h; cases h
  | true =>
    injection h with e
    rw [← e, settled_withQueue, settled_settle]

/-- Every row ends in one way: its effect is settled, or its operands are refused (R61). -/
theorem exec_eq_finishIf (i : Instr) : ∃ ok u, exec i s = finishIf ok s u := by
  cases i with
  | registerWrite | capsuleWrite | dataWindowWrite | scrubRow | alloc | allocWait | idle | chanUp | servoFrameSample | servoReelSample
  | hello | ack | mode | cartridge | positioned | burstDone | fwResult | timeUp | cmData | cmDone | mailboxUp | sensorSample
  | hostLinkUp => exact ⟨_, _, rfl⟩
  | _ => exact ⟨true, _, rfl⟩

/-- A cycle of which nothing but the clocks is left leaves a settled state settled. -/
theorem settled_ageSat {u : State} (h : Safety.settled u = true) : Safety.settled (ageSat s u) = true := by
  unfold ageSat
  split
  · exact settled_settle _
  · exact h

/-- Whether interrupts are due does not rest on the clocks. -/
theorem settled_withClocks (n : Nat) (x : TimSt) : Safety.settled { s with tick := n, tim := x } = Safety.settled s := rfl

/-- A TCXO cycle changes no event word but where the age of a scrubber lap saturates, and then it settles (R177, R435). -/
theorem settled_tcxoTick (h : Safety.settled s = true) : Safety.settled (tcxoTick s) = true := by
  unfold tcxoTick
  split
  · exact h
  · exact settled_ageSat s ((settled_withClocks s _ _).trans h)

end Steps

/-- Settles O4: a row's answer is settled whatever its effect, and an idle cycle keeps a settled state settled. -/
theorem stepKeepsSettled : Obligations.StepKeepsSettled := by
  unfold Obligations.StepKeepsSettled
  intro s t hs ht
  unfold step at ht
  split at ht
  · injection ht with e
    exact e ▸ settled_tcxoTick s hs
  · next c rest _ =>
    obtain ⟨ok, u, e⟩ := exec_eq_finishIf { s with pending := rest } c
    exact settled_of_finishIf _ (e ▸ ht)

/-- Settles O1: by the definition of a step. -/
theorem stepRunsFront : Obligations.StepRunsFront := fun _ _ _ => rfl

/-- Settles O5: after reset both links are down, and the buffer holds no byte. -/
theorem resetSafe : Obligations.ResetSafe := by
  unfold Obligations.ResetSafe
  decide

/-- Settles O6: the tables of the reset state are empty, so each reader gives its default. -/
theorem resetValues : Obligations.ResetValues := by
  unfold Obligations.ResetValues
  exact ⟨fun pg => ⟨rfl, rfl, rfl, rfl, rfl, rfl, fun k => rfl⟩, fun k => ⟨rfl, rfl, rfl⟩, fun n => rfl, fun m => rfl,
    fun p => ⟨rfl, fun q => rfl, fun c => rfl⟩, fun k => rfl, fun n => rfl, fun i => rfl, rfl⟩

end Sys2Proof.Machine
end

section
/-! PROOF. Register writes: a write of one dword and what its row answers (R31), the write by access types (R43), a write without the right
(R47, R78, R79), and the event words of a page (R40, R41, R58). -/

namespace Sys2Proof.Machine

section Writes

variable (s : State)

/-- The last page ends below 4 MiB (R29). -/
theorem pageBase_lt (pg : PageId) : pageBase pg < 0x100000 := by
  cases pg with
  | hp p => cases p <;> decide
  | link n | fmt n | ciph n | servo n | cdc n => simp only [pageBase]; omega
  | _ => decide

/-- The address of a page register is an address of BAR 0. -/
theorem toNat_pageAddr (pg : PageId) (off : Nat) (h : off < 0x1000) : (BitVec.ofNat 22 (pageBase pg + off)).toNat = pageBase pg + off := by
  have := pageBase_lt pg
  rw [BitVec.toNat_ofNat, Nat.mod_eq_of_lt (by omega)]

/-- REGISTER_WRITE of one dword answers that write (R31). -/
theorem registerWrite_answers (m : Master) (a : BitVec 22) (be : BitVec 4) (v : Word) :
    Safety.answers (exec (.registerWrite m a be v []) s) s (mmioWrite s m a.toNat be v) :=
  finishIf_answers s _ _ rfl

/-- REGISTER_WRITE of a whole register of a page answers the write of that register. -/
theorem registerWrite_page_answers (m : Master) (pg : PageId) (off : Nat) (v : Word) (h : off < 0x1000) :
    Safety.answers (exec (.registerWrite m (BitVec.ofNat 22 (pageBase pg + off)) 0xF v []) s) s (regWrite s m pg off v) := by
  have w := registerWrite_answers s m (BitVec.ofNat 22 (pageBase pg + off)) 0xF v
  rwa [toNat_pageAddr pg off h] at w

/-! ### A write by access types (R43) -/

/-- A register that starts nothing by being written is written by its access types alone. -/
theorem blockWrite_plain (m : Master) (pg : PageId) (r : RegRow) (off : Nat) (v : Word) (h : Safety.plainSpot pg off = true) :
    blockWrite s m pg r off v = plainWrite s pg r off v := by
  cases pg with
  | mem | log | loopG | ciph | servo | cdc => rfl
  | dev | sem | fwu | nva | key | fmt => cases h
  | pwr | tim | hp | link =>
    simp only [Safety.plainSpot, bne_iff_ne] at h
    exact if_neg h
  | pool =>
    simp only [Safety.plainSpot, Bool.or_eq_true, Bool.and_eq_true, decide_eq_true_eq] at h
    simp only [blockWrite, Bool.and_eq_true, decide_eq_true_eq]
    rw [if_neg (by omega), if_neg (by omega)]
  | mgt =>
    simp only [Safety.plainSpot, Bool.or_eq_true, decide_eq_true_eq] at h
    simp only [blockWrite, Bool.and_eq_true, decide_eq_true_eq]
    rw [if_neg (by omega), if_neg (by omega)]

/-- The bits that a write of a row changes: those of type RW, and those of type RWL of a page that is not locked. -/
theorem plainNew_eq (pg : PageId) (r : RegRow) (off : Nat) (v : Word) :
    let set := r.rw ||| (if (page s pg).enabled || (page s pg).draining then 0 else r.rwl)
    plainNew s pg r off v = ((reg s pg off &&& ~~~set) ||| (v &&& set)) &&& ~~~(v &&& r.w1c) := by
  have e : (if locked s pg && r.rwl != 0 then 0 else r.rwl) = if (page s pg).enabled || (page s pg).draining then 0 else r.rwl := by
    by_cases h0 : r.rwl = 0
    · simp [h0]
    · have hn : (r.rwl != 0) = true := bne_iff_ne.mpr h0
      simp only [locked, hn, Bool.and_true]
  simp only [plainNew, e]

/-! ### A write without the right (R47, R78, R79) -/

/-- A freeze of a master whose port has no WRITE waiting for data is its record and the end of its wait. -/
theorem freezeMaster_quiet (m : Master) (cause k a : Nat) (hf : (mst s m).frozen = false)
    (hw : ∀ p, masterPort m = some p → (liveCmds s fun i c => c.port == p && waitsData s i c) = []) :
    freezeMaster s m cause k a = match masterPort m with
      | none => markFrozen s m cause k a
      | some _ => withdrawWait (markFrozen s m cause k a) m := by
  unfold freezeMaster
  rw [if_neg (by simp [hf])]
  cases hp : masterPort m with
  | none => rfl
  | some p =>
    have hc : (withdrawWait (markFrozen s m cause k a) m).cmds = s.cmds := (withdrawWait_rest _ m).1.trans (markFrozen_cmds ..)
    have hv : (withdrawWait (markFrozen s m cause k a) m).vols = s.vols := (withdrawWait_vols _ m).trans (markFrozen_vols ..)
    simp only [endWrites, waiting_congr hc hv p, hw p hp, List.foldl_nil]

/-- What such a freeze leaves of a master: the record of its own (R79), and nothing of any other. -/
theorem freezeMaster_quiet_mst (m m' : Master) (cause k a : Nat) (hf : (mst s m).frozen = false)
    (hw : ∀ p, masterPort m = some p → (liveCmds s fun i c => c.port == p && waitsData s i c) = []) :
    mst (freezeMaster s m cause k a) m' = if m' = m then { mst s m with
      frozen := true, cause := BitVec.ofNat 8 cause, sem := BitVec.ofNat 6 k, addr := a,
      waitPending := (masterPort m).isNone && (mst s m).waitPending } else mst s m' := by
  rw [freezeMaster_quiet s m cause k a hf hw]
  cases masterPort m with
  | none => simp only [markFrozen_mst]; rfl
  | some p =>
    simp only [withdrawWait_mst, markFrozen_mst, if_true]
    split
    · rfl
    · rfl

/-- It releases by force what the master held, and no other semaphore changes (R78). -/
theorem freezeMaster_quiet_sem (m : Master) (cause k a j : Nat) (hf : (mst s m).frozen = false)
    (hw : ∀ p, masterPort m = some p → (liveCmds s fun i c => c.port == p && waitsData s i c) = []) (hj : j < 32) :
    (sem (freezeMaster s m cause k a) j).holder = if (sem s j).holder = some m then none else (sem s j).holder := by
  have e : (freezeMaster s m cause k a).sems = (markFrozen s m cause k a).sems := by
    rw [freezeMaster_quiet s m cause k a hf hw]
    cases masterPort m with
    | none => rfl
    | some p => exact (withdrawWait_rest _ m).2
  rw [sem, e, ← sem, markFrozen_sem s m cause k a j hj]
  split <;> rfl

/-- A master that reaches a register is not frozen. -/
theorem not_frozen_of_reaches (m : Master) (t : Spot) (h : Safety.reaches s m t = true) : (mst s m).frozen = false := by
  simp only [Safety.reaches, Bool.and_eq_true, Bool.not_eq_true'] at h
  obtain ⟨⟨⟨⟨_, hf⟩, _⟩, _⟩, _⟩ := h
  exact hf

/-- Settling changes nothing that a master has of its own. -/
theorem mst_of_settles {u t : State} (h : Safety.settles s u t) (m : Master) : mst t m = mst u m := by
  rw [h.1]; rfl

/-- Settling changes no semaphore. -/
theorem sem_of_settles {u t : State} (h : Safety.settles s u t) (k : Nat) : sem t k = sem u k := by
  rw [h.1]; rfl

/-! ### The event words of a page -/

/-- REGISTER_WRITE of a header register answers what the header does with it (R37, R40, R41). -/
theorem registerWrite_header_answers (m : Master) (pg : PageId) (off : Nat) (v : Word) (ho : off < 0x40) (hm : off % 4 = 0)
    (h : Safety.canWrite s m (.page pg off) = true) :
    Safety.answers (exec (.registerWrite m (BitVec.ofNat 22 (pageBase pg + off)) 0xF v []) s) s (headerWrite s pg off v) :=
  answers_of_eq (registerWrite_page_answers s m pg off v (by omega)) (regWrite_header s m pg off v ho hm h)

/-- EVT is cleared by the bits written 1 (R40). -/
theorem headerWrite_evt (pg : PageId) (v : Word) :
    headerWrite s pg 0x14 v = setPage s pg { page s pg with evt := (page s pg).evt &&& ~~~v } := rfl

/-- EVT_EN has the common bits 4 to 0 and the page's own from bit 8 on (R41). -/
theorem headerWrite_evtEn (pg : PageId) (v : Word) :
    headerWrite s pg 0x18 v = setPage s pg { page s pg with evtEn := v &&& 0xFFFFFF1F } := rfl

/-- COUNTER_SAT is cleared by the bits written 1 (R58). -/
theorem headerWrite_sat (pg : PageId) (v : Word) :
    headerWrite s pg 0x1C v = setPage s pg { page s pg with sat := (page s pg).sat &&& ~~~v } := rfl

end Writes

/-- Settles O9: the row is written by its access types, and `plainWrite_spec` says what that changes. -/
theorem registerWriteByType : Obligations.RegisterWriteByType := by
  unfold Obligations.RegisterWriteByType
  intro m pg off v r s ho ho' hm hp hr hw h
  obtain ⟨hreg, hevt, hregs, hpages, hothers, hrest⟩ := plainWrite_spec s pg r off v
  have e : regWrite s m pg off v = plainWrite s pg r off v :=
    (regWrite_block s m pg off v r ho ho' hm hr hw h).trans (blockWrite_plain s m pg r off v hp)
  exact ⟨plainWrite s pg r off v, answers_of_eq (registerWrite_page_answers s m pg off v ho') e,
    ⟨hreg.trans (plainNew_eq s pg r off v), hevt⟩, hregs, hpages, hothers, hrest⟩

/-- Settles O8: the write is a freeze (`mmioWrite_of_no_right`) or BAD_ACCESS (`mmioWrite_of_part`); the record is that of a quiet freeze. -/
theorem writeWithoutRight : Obligations.WriteWithoutRight := by
  unfold Obligations.WriteWithoutRight
  intro m a v s ha hr
  refine ⟨fun hn => ?_, fun be hb => answers_of_eq (registerWrite_answers s m a be v) (mmioWrite_of_part s m _ be v hr hb)⟩
  obtain ⟨t, ht, hs⟩ := answers_of_eq (registerWrite_answers s m a 0xF v) (mmioWrite_of_no_right s m _ v ha hr hn)
  refine ⟨t, ht, hs, fun hw => ?_⟩
  have hf := not_frozen_of_reaches s m _ hr
  have own : mst t m = _ := (mst_of_settles s hs m).trans (freezeMaster_quiet_mst s m m 1 _ _ hf hw)
  rw [if_pos rfl] at own
  refine ⟨by rw [own], by rw [own]; rfl, by rw [own], by rw [own], fun k hk => ?_, fun m' hm => ?_⟩
  · rw [sem_of_settles s hs k, freezeMaster_quiet_sem s m 1 _ _ k hf hw hk]
  · rw [mst_of_settles s hs m', freezeMaster_quiet_mst s m m' 1 _ _ hf hw, if_neg hm]

end Sys2Proof.Machine
end

section
/-! PROOF. The controls of a page (R37): what a write of CTRL does by its bits, the enable check (R48, R50), the drain and the abort
(R54, R55), and the counters (R58). -/

namespace Sys2Proof.Machine

section Controls

variable (s : State)

/-! ### The wake of a write of ENABLE -/

/-- A write with ENABLE 1 to a page whose domain is gated ends BIVOUAC or its entry, with cause 4 (R406, R407). -/
def wokenIf (s : State) (b : Bool) : State := if b then wake s 4 else s

theorem wokenIf_pageFlags (b : Bool) (q : PageId) : pageFlags (page (wokenIf s b) q) = pageFlags (page s q) := by
  cases b with
  | false => rfl
  | true => exact wake_flags s 4 q

theorem wokenIf_enabled (b : Bool) (q : PageId) : (page (wokenIf s b) q).enabled = (page s q).enabled :=
  congrArg (·.1) (wokenIf_pageFlags s b q)

theorem wokenIf_draining (b : Bool) (q : PageId) : (page (wokenIf s b) q).draining = (page s q).draining :=
  congrArg (·.2.1) (wokenIf_pageFlags s b q)

/-- Enabled and not draining is one of the flags. -/
theorem enabledNow_congr {s t : State} {q : PageId} (h : pageFlags (page t q) = pageFlags (page s q)) : enabledNow t q = enabledNow s q :=
  congrArg (fun x : Bool × Bool × Bool × Bool => x.1 && !x.2.1) h

theorem wokenIf_enabledNow (b : Bool) (q : PageId) : enabledNow (wokenIf s b) q = enabledNow s q :=
  enabledNow_congr (wokenIf_pageFlags s b q)

theorem wokenIf_ready (b : Bool) : (wokenIf s b).ready = s.ready := by
  cases b with
  | false => rfl
  | true => exact wake_ready s 4

theorem wokenIf_mem (b : Bool) : (wokenIf s b).mem = s.mem := by
  cases b with
  | false => rfl
  | true => exact wake_mem s 4

theorem wokenIf_clock (b : Bool) : clock (wokenIf s b) = clock s := by
  cases b with
  | false => rfl
  | true => exact wake_clock s 4

/-! ### CTRL by its bits (R37) -/

/-- CTRL reads ENABLE alone. -/
theorem ctrlReg_getLsbD (pg : PageId) (k : Nat) : (ctrlReg s pg).getLsbD k = (k == 0 && enabledNow s pg) := by
  cases h : enabledNow s pg with
  | false => simp [ctrlReg, h, bit, w32]
  | true => simpa [ctrlReg, h, bit] using bit_getLsbD 0 k (by decide)

/-- A write of CTRL by a master with the right (R37). -/
theorem regWrite_ctrl (m : Master) (pg : PageId) (v : Word) (h : Safety.canWrite s m (.page pg 0x08) = true) :
    regWrite s m pg 0x08 v = ctrlWrite (wokenIf s (v.getLsbD 0 && pageGated s pg)) pg v :=
  regWrite_header s m pg 0x08 v (by decide) (by decide) h

/-- An action bit beside ENABLE as it reads: ENABLE is the requested state. -/
theorem ctrlAction_eq (m : Master) (pg : PageId) (b : Word) (hb : b.getLsbD 0 = false) (h : Safety.canWrite s m (.page pg 0x08) = true) :
    ctrlAction s m pg b = ctrlWrite (wokenIf s (enabledNow s pg && pageGated s pg)) pg (ctrlReg s pg ||| b) := by
  have e : (ctrlReg s pg ||| b).getLsbD 0 = enabledNow s pg := by
    rw [BitVec.getLsbD_or, ctrlReg_getLsbD, hb, Bool.or_false]; rfl
  rw [ctrlAction, regWrite_ctrl s m pg _ h, e]

/-- ENABLE with no other bit. -/
theorem ctrlWrite_enable (pg : PageId) : ctrlWrite s pg 1 = enablePage s pg := by
  simp [ctrlWrite]

/-- No bit at all. -/
theorem ctrlWrite_disable (pg : PageId) : ctrlWrite s pg 0 = disablePage s pg := by
  simp [ctrlWrite]

/-- An ENABLE that is as it reads changes nothing: 1 on an enabled page, 0 on one that is not (R48, R54). -/
theorem enableAsRead (pg : PageId) : (if enabledNow s pg then enablePage s pg else disablePage s pg) = s := by
  cases h : enabledNow s pg with
  | false => simp [disablePage, h]
  | true =>
    obtain ⟨he, hd⟩ : (page s pg).enabled = true ∧ (page s pg).draining = false := by simpa [enabledNow] using h
    simp [enablePage, he, hd]

/-- ABORT beside ENABLE as it reads, on a page that implements it. -/
theorem ctrlWrite_abort (pg : PageId) (c : Word) (hc : ∀ k, c.getLsbD k = (k == 0 && enabledNow s pg)) (ha : abortImpl pg = true) :
    ctrlWrite s pg (c ||| 2) = abortPage s pg := by
  have h0 : (c ||| 2).getLsbD 0 = enabledNow s pg := by simp only [BitVec.getLsbD_or, hc]; simp
  have h1 : (c ||| 2).getLsbD 1 = true := by simp only [BitVec.getLsbD_or, hc]; simp
  have h2 : (c ||| 2).getLsbD 2 = false := by simp only [BitVec.getLsbD_or, hc]; simp
  have hen : (enabledNow s pg && ((page s pg).draining || !(page s pg).enabled)) = false := by
    cases he : (page s pg).enabled <;> cases hd : (page s pg).draining <;> simp [enabledNow, he, hd]
  simp only [ctrlWrite, abortWrite, h0, h1, h2, ha, hen, Bool.false_eq_true, if_false, Bool.and_self, if_true]

/-- CLR_COUNTERS beside ENABLE as it reads. -/
theorem ctrlWrite_clear (pg : PageId) (c : Word) (hc : ∀ k, c.getLsbD k = (k == 0 && enabledNow s pg)) :
    ctrlWrite s pg (c ||| 4) = clearCounters s pg := by
  have h0 : (c ||| 4).getLsbD 0 = enabledNow s pg := by simp only [BitVec.getLsbD_or, hc]; simp
  have h1 : (c ||| 4).getLsbD 1 = false := by simp only [BitVec.getLsbD_or, hc]; simp
  have h2 : (c ||| 4).getLsbD 2 = true := by simp only [BitVec.getLsbD_or, hc]; simp
  have hn := enabledNow_congr (clearCounters_flags s pg)
  simp only [ctrlWrite, h0, h1, h2, Bool.false_and, Bool.false_eq_true, if_false, if_true, ← hn, enableAsRead]

/-! ### The rows -/

theorem enable_answers (m : Master) (pg : PageId) (h : Safety.canWrite s m (.page pg 0x08) = true) :
    Safety.answers (exec (.enable m pg) s) s (enablePage (wokenIf s (pageGated s pg)) pg) :=
  answers_of_eq (finish_answers s _) ((regWrite_ctrl s m pg 1 h).trans (ctrlWrite_enable _ pg))

theorem disable_answers (m : Master) (pg : PageId) (h : Safety.canWrite s m (.page pg 0x08) = true) :
    Safety.answers (exec (.disable m pg) s) s (disablePage s pg) :=
  answers_of_eq (finish_answers s _) ((regWrite_ctrl s m pg 0 h).trans (ctrlWrite_disable _ pg))

theorem abort_answers (m : Master) (pg : PageId) (h : Safety.canWrite s m (.page pg 0x08) = true) (ha : abortImpl pg = true) :
    Safety.answers (exec (.abort m pg) s) s (abortPage (wokenIf s (enabledNow s pg && pageGated s pg)) pg) :=
  answers_of_eq (finish_answers s _) ((ctrlAction_eq s m pg 2 (by decide) h).trans
    (ctrlWrite_abort _ pg _ (fun k => by rw [wokenIf_enabledNow, ctrlReg_getLsbD]) ha))

theorem clrCounters_answers (m : Master) (pg : PageId) (h : Safety.canWrite s m (.page pg 0x08) = true) :
    Safety.answers (exec (.clrCounters m pg) s) s (clearCounters (wokenIf s (enabledNow s pg && pageGated s pg)) pg) :=
  answers_of_eq (finish_answers s _) ((ctrlAction_eq s m pg 4 (by decide) h).trans
    (ctrlWrite_clear _ pg _ (fun k => by rw [wokenIf_enabledNow, ctrlReg_getLsbD])))

theorem evtRearm_answers (m : Master) (p : Port) (h : Safety.canWrite s m (.page (.hp p) 0x04C) = true) :
    Safety.answers (exec (.evtRearm m p) s) s (setPort s p { port s p with armed := true }) :=
  answers_of_eq (finish_answers s _)
    (regWrite_block s m (.hp p) 0x04C 1 (roR 0x04C) (by decide) (by decide) (by decide) rfl rfl h)

/-! ### The enable check (R48, R50) -/

theorem enablePage_draining (pg : PageId) (hi : enableImpl pg = true) (hd : (page s pg).draining = true) :
    enablePage s pg = setPage s pg { page s pg with reason := 0x0002, field := 0xFF, evt := (page s pg).evt ||| 1 } := by
  have e : enablePage s pg = setCheck s pg 0x0002 0xFF := by simp [enablePage, hi, hd]
  rw [e, setCheck_eq, if_neg (by decide)]
  rfl

theorem enablePage_enabled (pg : PageId) (hd : (page s pg).draining = false) (he : (page s pg).enabled = true) : enablePage s pg = s := by
  simp [enablePage, hd, he]

/-- On a disabled page the check runs with the domains of the page ungated. -/
theorem enablePage_disabled (pg : PageId) (hi : enableImpl pg = true) (hd : (page s pg).draining = false) (he : (page s pg).enabled = false) :
    enablePage s pg =
      let g := ungatePage s pg
      let r := enableCheck g pg
      if r.1 = 0 then onEnabled (modPage (setCheck g pg r.1 r.2) pg fun x => { x with enabled := true }) pg
      else gatePage (setCheck g pg r.1 r.2) pg := by
  simp [enablePage, hi, hd, he]

theorem enablePage_passed (pg : PageId) (f : Nat) (hi : enableImpl pg = true) (hd : (page s pg).draining = false)
    (he : (page s pg).enabled = false) (hr : enableCheck (ungatePage s pg) pg = (0, f)) :
    enablePage s pg = onEnabled (setPage (ungatePage s pg) pg { page (ungatePage s pg) pg with
      enabled := true, reason := 0, field := BitVec.ofNat 8 f }) pg := by
  simp only [enablePage_disabled s pg hi hd he, hr, if_true, setCheck_eq, modPage_eq, page_setPage, setPage_setPage]
  rfl

theorem enablePage_failed (pg : PageId) (r f : Nat) (hi : enableImpl pg = true) (hd : (page s pg).draining = false)
    (he : (page s pg).enabled = false) (hr : enableCheck (ungatePage s pg) pg = (r, f)) (h0 : r ≠ 0) :
    enablePage s pg = gatePage (setPage (ungatePage s pg) pg { page (ungatePage s pg) pg with
      reason := BitVec.ofNat 16 r, field := BitVec.ofNat 8 f, evt := (page (ungatePage s pg) pg).evt ||| 1 }) pg := by
  simp only [enablePage_disabled s pg hi hd he, hr, if_neg h0, setCheck_eq]

/-- The conditions of a check in their order: READY, the pages it depends on, the block's own (R50). -/
theorem enableCheck_eq_of (pg : PageId) (x : Nat × Nat) (h1 : s.ready = false → x = (0x0001, 0xFF))
    (h2 : s.ready = true → (dependsOn pg).all (enabledNow s) = false → x = (0x0003, 0xFF))
    (h3 : s.ready = true → (dependsOn pg).all (enabledNow s) = true → x = ownCheck s pg) : enableCheck s pg = x := by
  cases hr : s.ready with
  | false => simp only [enableCheck, hr, h1 hr, Bool.not_false, if_true]
  | true =>
    cases hd : (dependsOn pg).all (enabledNow s) with
    | false => simp only [enableCheck, hr, hd, h2 hr hd, Bool.not_true, Bool.not_false, Bool.false_eq_true, if_false, if_true]
    | true => simp only [enableCheck, hr, hd, h3 hr hd, Bool.not_true, Bool.false_eq_true, if_false]

/-! ### Drain and abort (R54, R55) -/

/-- A page that another enabled one depends on answers DEPENDENT_ENABLED (R50). -/
theorem setCheck_dependent (pg : PageId) :
    setCheck s pg 0x0004 0xFF = setPage s pg { page s pg with reason := 0x0004, field := 0xFF, evt := (page s pg).evt ||| 1 } := by
  rw [setCheck_eq, if_neg (by decide)]
  rfl

theorem disablePage_unchanged (pg : PageId) (h : enableImpl pg = false ∨ enabledNow s pg = false) : disablePage s pg = s := by
  rcases h with h | h <;> simp [disablePage, h]

theorem disablePage_refused (pg : PageId) (hi : enableImpl pg = true) (he : enabledNow s pg = true) (hd : dependentEnabled s pg = true) :
    disablePage s pg = setCheck s pg 0x0004 0xFF := by
  simp [disablePage, hi, he, hd]

theorem disablePage_drains (pg : PageId) (hi : enableImpl pg = true) (he : enabledNow s pg = true) (hd : dependentEnabled s pg = false) :
    disablePage s pg = drainCheck (onDrain (setPage s pg { page s pg with draining := true }) pg) pg := by
  simp [disablePage, hi, he, hd, modPage_eq]

theorem abortPage_unchanged (pg : PageId) (h : (page s pg).enabled = false) : abortPage s pg = s := by
  simp [abortPage, enabled, h]

theorem abortPage_refused (pg : PageId) (he : (page s pg).enabled = true) (hd : dependentEnabled s pg = true) :
    abortPage s pg = setCheck s pg 0x0004 0xFF := by
  simp [abortPage, enabled, he, hd]

theorem abortPage_aborts (pg : PageId) (he : (page s pg).enabled = true) (hd : dependentEnabled s pg = false) :
    abortPage s pg = drainCheck (onAbort (setPage s pg { page s pg with draining := true, aborting := true }) pg) pg := by
  simp [abortPage, enabled, he, hd, modPage_eq]

/-! ### The counters (R58) -/

theorem clearCounters_others (pg : PageId) (hl : pg ≠ .loopG) (hm : pg ≠ .mem) :
    clearCounters s pg = setPage s pg { page s pg with ctrs := [], sat := 0 } := by
  unfold clearCounters
  split
  · exact absurd rfl hl
  · exact absurd rfl hm
  · rfl

theorem clearCounters_loopG :
    clearCounters s .loopG = setReg (setPage s .loopG { page s .loopG with ctrs := [], sat := 0 }) .loopG 0x044 0 := rfl

theorem clearCounters_mem : clearCounters s .mem =
    { setPage s .mem { page s .mem with ctrs := [], sat := 0 } with mem := { s.mem with ageFrom := clock s } } := rfl

end Controls

/-- Settles O11: one lemma of `enablePage` for each state of the page. That the write wakes the device with cause 4 also where it starts no
work, on an enabled or draining page, is the model's reading of R406 and R407 (log entry 59). -/
theorem enableRow : Obligations.EnableRow := by
  unfold Obligations.EnableRow
  intro m pg s hc hi
  have row := enable_answers s m pg hc
  have hd := wokenIf_draining s (pageGated s pg) pg
  have he := wokenIf_enabled s (pageGated s pg) pg
  have hready : (ungatePage (wokenIf s (pageGated s pg)) pg).ready = s.ready := (ungatePage_ready _ pg).trans (wokenIf_ready s _)
  refine ⟨fun d => ?draining, fun d e => ?enabled, fun d e r f h1 h2 h3 => ?disabled⟩
  case draining => exact answers_of_eq row (enablePage_draining _ pg hi (hd.trans d))
  case enabled => exact answers_of_eq row (enablePage_enabled _ pg (hd.trans d) (he.trans e))
  case disabled =>
    have check := enableCheck_eq_of _ pg (r, f) (fun h => h1 (hready ▸ h)) (fun h => h2 (hready ▸ h)) (fun h => h3 (hready ▸ h))
    refine ⟨fun h0 => ?_, fun h0 => answers_of_eq row (enablePage_failed _ pg r f hi (hd.trans d) (he.trans e) check h0)⟩
    subst h0
    exact answers_of_eq row (enablePage_passed _ pg f hi (hd.trans d) (he.trans e) check)

/-- Settles O12: one lemma of `disablePage` and `abortPage` for each state of the page; `endDrain_eq` is the end of a drain. That an ABORT on
an enabled page whose domain is gated wakes the device follows from R406: ENABLE is written beside it. -/
theorem drainRows : Obligations.DrainRows := by
  unfold Obligations.DrainRows
  intro m pg s ended refused check
  have hcheck : ∀ u, drainCheck u pg = check u := fun u => by simp only [drainCheck, endDrain_eq]; rfl
  refine ⟨answers_of_eq (finish_answers s _) (hcheck s), fun hc => ?disable, fun hc ha => ?abort⟩
  case disable =>
    have row := disable_answers s m pg hc
    exact ⟨fun h => answers_of_eq row (disablePage_unchanged s pg h),
      fun hi he hd => answers_of_eq row ((disablePage_refused s pg hi he hd).trans (setCheck_dependent s pg)),
      fun hi he hd => answers_of_eq row ((disablePage_drains s pg hi he hd).trans (hcheck _))⟩
  case abort =>
    have row := abort_answers s m pg hc ha
    have en := wokenIf_enabled s (enabledNow s pg && pageGated s pg) pg
    exact ⟨fun h => answers_of_eq row (abortPage_unchanged _ pg (en.trans h)),
      fun h hd => answers_of_eq row ((abortPage_refused _ pg (en.trans h) hd).trans (setCheck_dependent _ pg)),
      fun h hd => answers_of_eq row ((abortPage_aborts _ pg (en.trans h) hd).trans (hcheck _))⟩

/-- Settles O13: CLR_COUNTERS is `clearCounters` beside ENABLE as it reads, and wakes as a write of ENABLE does (R406); the event words are
writes of the header. -/
theorem counterAndEventRows : Obligations.CounterAndEventRows := by
  unfold Obligations.CounterAndEventRows
  refine ⟨fun m pg s hc => ?counters, fun m p s hc => evtRearm_answers s m p hc, fun m pg v s => ?words⟩
  case counters =>
    have row := clrCounters_answers s m pg hc
    refine ⟨fun h => ?others, fun h => ?loopG, fun h => ?mem⟩
    case others => exact answers_of_eq row (clearCounters_others _ pg h.1 h.2)
    case loopG => subst h; exact answers_of_eq row (clearCounters_loopG _)
    case mem =>
      subst h
      refine answers_of_eq row ((clearCounters_mem _).trans ?_)
      rw [wokenIf_mem, wokenIf_clock]
      rfl
  case words =>
    exact ⟨fun h => answers_of_eq (registerWrite_header_answers s m pg 0x14 v (by decide) (by decide) h) (headerWrite_evt s pg v),
      fun h => answers_of_eq (registerWrite_header_answers s m pg 0x18 v (by decide) (by decide) h) (headerWrite_evtEn s pg v),
      fun h => answers_of_eq (registerWrite_header_answers s m pg 0x1C v (by decide) (by decide) h) (headerWrite_sat s pg v)⟩

end Sys2Proof.Machine
end

section
/-! PROOF. 64-bit registers (R44, R45): the pending LO, the HI shadow and the pairs that a write of a HI half sets; reads of BAR 2 and
BAR 4 (R87), and reads that meet a failed SRAM word (R166, R167). -/

namespace Sys2Proof.Machine

section Pairs

variable (s : State)

/-! ### A stored 64-bit register -/

/-- Both halves of a 64-bit register take the value, modulo 2^64. -/
theorem reg64_setReg64 (pg : PageId) (off v : Nat) (h : v < 2 ^ 64) : reg64 (setReg64 s pg off v) pg off = v := by
  have lo : reg (setReg64 s pg off v) pg off = BitVec.ofNat 32 v := by
    rw [setReg64, reg_setReg_ne _ _ _ _ _ _ (.inr (by omega)), reg_setReg]
  have hi : reg (setReg64 s pg off v) pg (off + 4) = BitVec.ofNat 32 (v / 2 ^ 32) := reg_setReg ..
  rw [reg64, lo, hi, BitVec.toNat_ofNat, BitVec.toNat_ofNat]
  omega

/-- No other register changes. -/
theorem reg_setReg64_ne (pg pg' : PageId) (off off' v : Nat) (h : pg' ≠ pg ∨ (off' ≠ off ∧ off' ≠ off + 4)) :
    reg (setReg64 s pg off v) pg' off' = reg s pg' off' := by
  rw [setReg64, reg_setReg_ne _ _ _ _ _ _ (h.imp_right (·.2)), reg_setReg_ne _ _ _ _ _ _ (h.imp_right (·.1))]

/-! ### The pending LO of a master (R45) -/

/-- A later replacement of what a master has of its own stands. -/
theorem setMst_setMst (m : Master) (x y : MasterSt) : setMst (setMst s m x) m y = setMst s m y := by
  simp only [setMst, tput_tput]

/-- The pending LO of a master is set, or discarded. -/
def setPendLo (s : State) (m : Master) (x : Option (Nat × Word)) : State := setMst s m { mst s m with pendLo := x }

/-- A later pending LO replaces an earlier one. -/
theorem setPendLo_setPendLo (m : Master) (x y : Option (Nat × Word)) : setPendLo (setPendLo s m x) m y = setPendLo s m y := by
  simp only [setPendLo, mst_setMst, setMst_setMst]

/-- The pending LO names the register. -/
theorem appliedLo_pending (m : Master) (a cur : Nat) (v : Word) : Safety.appliedLo (setPendLo s m (some (a, v))) m a cur = v.toNat := by
  simp only [Safety.appliedLo, setPendLo, mst_setMst, if_true]

/-- The applied LO half has 32 bits where the register's has. -/
theorem appliedLo_lt (m : Master) (a cur : Nat) (h : cur < 2 ^ 32) : Safety.appliedLo s m a cur < 2 ^ 32 := by
  unfold Safety.appliedLo
  split
  · split
    · exact BitVec.isLt _
    · exact h
  · exact h

/-- WRITE_LO and WRITE_HI are writes of a whole dword. -/
theorem writeLo_answers (m : Master) (a : BitVec 22) (v : Word) :
    Safety.answers (exec (.writeLo m a v) s) s (mmioWrite s m a.toNat 0xF v) := finish_answers s _

theorem writeHi_answers (m : Master) (a : BitVec 22) (v : Word) :
    Safety.answers (exec (.writeHi m a v) s) s (mmioWrite s m a.toNat 0xF v) := finish_answers s _

/-! ### TIM.SET -/

/-- `TIM.SET` takes 64 bits, and the pending LO is discarded. -/
def timSetTo (s : State) (m : Master) (v : Nat) : State := setReg64 (setPendLo s m none) .tim 0x058 v

theorem spotOf_timSet : spotOf 0x3058 = .page .tim 0x058 := spotOf_page .tim 0x058 (by decide)
theorem spotOf_timSetHi : spotOf 0x305C = .page .tim 0x05C := spotOf_page .tim 0x05C (by decide)

/-- A write of its HI half applies the pending LO where that names it (R45). -/
theorem mmioWrite_timSetHi (m : Master) (v : Word) (h : Safety.canWrite s m (.page .tim 0x05C) = true) :
    mmioWrite s m 0x305C 0xF v
      = timSetTo s m (Safety.appliedLo s m 0x3058 (reg s .tim 0x058).toNat + 2 ^ 32 * v.toNat) := by
  have hv : spotValue s m (loSpot (.page .tim 0x05C)) = reg64 s .tim 0x058 := rfl
  have hlo : reg64 s .tim 0x058 % 2 ^ 32 = (reg s .tim 0x058).toNat := by
    have := (reg s .tim 0x058).isLt
    rw [reg64]; omega
  have e := mmioWrite_hi s m 0x305C v (by decide) (spotOf_timSetHi ▸ h) (by rw [spotOf_timSetHi]; decide)
    (by rw [spotOf_timSetHi]; decide) (by rw [spotOf_timSetHi]; decide)
  rw [e, spotOf_timSetHi, hiWrite_eq, hv, hlo]
  rfl

/-- What that leaves, and that nothing else changes. -/
theorem timSetTo_spec (m : Master) (v : Nat) (hv : v < 2 ^ 64) :
    reg64 (timSetTo s m v) .tim 0x058 = v
      ∧ (∀ pg off, (pg ≠ .tim ∨ (off ≠ 0x058 ∧ off ≠ 0x05C)) → reg (timSetTo s m v) pg off = reg s pg off)
      ∧ mst (timSetTo s m v) m = { mst s m with pendLo := none } ∧ (∀ m', m' ≠ m → mst (timSetTo s m v) m' = mst s m')
      ∧ timSetTo s m v = { s with pages := (timSetTo s m v).pages, masters := (timSetTo s m v).masters } :=
  ⟨reg64_setReg64 _ _ _ _ hv, fun _ _ h => reg_setReg64_ne (setPendLo s m none) _ _ _ _ _ h, mst_setMst s m _,
    fun m' h => mst_setMst_ne s m m' _ h, rfl⟩

/-- Both halves written by one TLP take effect as one (R31, R45). -/
theorem tlpWrite_timSet (m : Master) (lo hi : Word) (h : Safety.canWrite s m (.page .tim 0x058) = true)
    (h' : Safety.canWrite s m (.page .tim 0x05C) = true) :
    tlpWrite s m 0x3058 [(0xF, lo), (0xF, hi)] = timSetTo s m (lo.toNat + 2 ^ 32 * hi.toNat) := by
  have first : mmioWrite s m 0x3058 0xF lo = setPendLo s m (some (0x3058, lo)) :=
    mmioWrite_lo s m 0x3058 lo (by decide) (spotOf_timSet ▸ h) (by rw [spotOf_timSet]; decide) (by rw [spotOf_timSet]; decide)
  have second := mmioWrite_timSetHi (setPendLo s m (some (0x3058, lo))) m hi (canWrite_pendLo s m _ _ h')
  rw [appliedLo_pending, timSetTo, setPendLo_setPendLo] at second
  simp only [tlpWrite, first, second]
  rfl

/-! ### The base of a CQ -/

/-- A write of the HI half of a disabled CQ's BASE (R45, R94). -/
theorem mmioWrite_cqBaseHi (m : Master) (p : Port) (c : Nat) (v : Word) (hc : c < 64)
    (h : Safety.canWrite s m (spotOf (cqAddr p c 0x0C)) = true) (hd : (cq s p c).enabled = false) :
    mmioWrite s m (cqAddr p c 0x0C) 0xF v = setCq (setPendLo s m none) p c { cq s p c with
      base := BitVec.ofNat 64 (Safety.appliedLo s m (cqAddr p c 0x08) ((cq s p c).base.toNat % 2 ^ 32) + 2 ^ 32 * v.toNat) } := by
  have hs := spotOf_cq p c 0x0C hc (by decide)
  have hm : cqAddr p c 0x0C % 4 = 0 := by unfold cqAddr; omega
  have e := mmioWrite_hi s m _ v hm h (by rw [hs]; rfl) (by rw [hs]; rfl) (by rw [hs]; rfl)
  have hd' : (cq (setMst s m { mst s m with pendLo := none }) p c).enabled = false := hd
  rw [e, hs, show cqAddr p c 0x0C = cqAddr p c 0x08 + 4 from rfl, hiWrite_eq]
  simp only [pairWrite, hd', Bool.false_eq_true, if_false]
  rfl

/-! ### Reads (R44, R87, R166, R167) -/

/-- READ_LO answers the read of its dwords. -/
theorem readLo_answers (m : Master) (src : ReadAt) (more : Fin 1024) (sram : Option SramFault) :
    Safety.answers (exec (.readLo m src more sram) s) s (readRow s m src (more.val + 1) sram) := finish_answers s _

/-- A LO half is answered, and its HI half goes to the master's shadow. -/
def readLoHalf (s : State) (m : Master) (a x : Nat) : State :=
  answer (setMst s m { mst s m with hiShadow := BitVec.ofNat 32 (x / 2 ^ 32) }) m a (x % 2 ^ 32)

theorem mmioRead_lo (m : Master) (a : Nat) (ha : a % 4 = 0) (hr : Safety.reaches s m (spotOf a) = true) (hl : isLo (spotOf a) = true)
    (hp : ∀ off, spotOf a = .page .pool off → off < 0x138 ∨ 0x140 ≤ off) :
    mmioRead s m a = readLoHalf s m a (spotValue s m (spotOf a)) := by
  rw [mmioRead_pair s m a ha hr (.inl hl) hp, readSpot_lo s m _ hl]
  rfl

theorem mmioRead_hi (m : Master) (a : Nat) (ha : a % 4 = 0) (hr : Safety.reaches s m (spotOf a) = true) (hh : isHi (spotOf a) = true)
    (hp : ∀ off, spotOf a = .page .pool off → off < 0x138 ∨ 0x140 ≤ off) :
    mmioRead s m a = answer s m a (mst s m).hiShadow.toNat := by
  rw [mmioRead_pair s m a ha hr (.inr hh) hp, readSpot_hi s m _ hh]

/-- The HI half read behind its LO half is that of the same value. -/
theorem mmioRead_hi_after_lo (m : Master) (a b x : Nat) (hb : b % 4 = 0) (hr : Safety.reaches s m (spotOf b) = true)
    (hh : isHi (spotOf b) = true) (hp : ∀ off, spotOf b = .page .pool off → off < 0x138 ∨ 0x140 ≤ off) :
    mmioRead (readLoHalf s m a x) m b = answer (readLoHalf s m a x) m b (x / 2 ^ 32 % 2 ^ 32) := by
  have shadow : (mst (readLoHalf s m a x) m).hiShadow = BitVec.ofNat 32 (x / 2 ^ 32) := by
    rw [readLoHalf, answer, mst_emit, mst_setMst]
  have reach : Safety.reaches (readLoHalf s m a x) m (spotOf b) = true := reaches_answer_shadow s m _ a _ _ hr
  rw [mmioRead_hi _ m b hb reach hh hp, shadow, BitVec.toNat_ofNat]

/-- An uncorrectable word of the management TCM resets the formatter (R167). -/
theorem readRow_tcm (m : Master) (src : ReadAt) (n : Nat) (f : SramFault) (hs : served s m = true) (hk : f.kind = .uncorrectable)
    (hp : f.part = .tcm) : readRow s m src n (some f) = resetAndStart s .tcmUncorrectable := by
  simp [readRow, hs, hk, hp]

/-- One of another SRAM is answered with a Completer Abort (R166). -/
theorem readRow_abort (m : Master) (src : ReadAt) (n : Nat) (f : SramFault) (hs : served s m = true) (hk : f.kind = .uncorrectable)
    (hp : f.part ≠ .tcm) (hw : waits s m = false) :
    readRow s m src n (some f) = emit (sramMet s f (mIdx m)) (.completerAbort m) := by
  simp [readRow, sramRead, hs, hk, hp, hw]

theorem masterPort_portMaster (p : Port) : masterPort (portMaster p) = some p := by
  cases p <;> rfl

/-- One dword of BAR 2 reads 0 (R87). -/
theorem readFrom_bar2 (p : Port) (off : BitVec 32) (hs : served s (portMaster p) = true) :
    readFrom s (portMaster p) (.bar2 off) 1 = emit s (.barData (portMaster p) 2 off.toNat 0) := by
  simp [readFrom, barRead, masterPort_portMaster, hs, w32]

/-- One dword of BAR 4 reads its word, 0 to a frozen master (R78, R87). -/
theorem readFrom_bar4 (p : Port) (off : BitVec 19) (hs : served s (portMaster p) = true) :
    readFrom s (portMaster p) (.bar4 off) 1 = emit s (.barData (portMaster p) 4 off.toNat
      (if (mst s (portMaster p)).frozen then 0 else BitVec.ofNat 32 (bar4Word s p (off.toNat / 4 * 4)))) := by
  cases hf : (mst s (portMaster p)).frozen <;> simp [readFrom, barRead, masterPort_portMaster, hs, hf, w32]

end Pairs

/-- Settles O10: each clause is one access to a pair, or one read, by the lemma of its case. -/
theorem pairAccess : Obligations.PairAccess := by
  unfold Obligations.PairAccess
  refine ⟨?writeLo, ?writeHiTim, ?writeHiCq, ?reads, ?wholeTim, ?sram, ?bars⟩
  case writeLo => exact fun m a v s ha hl hw hc => answers_of_eq (writeLo_answers s m a v) (mmioWrite_lo s m a.toNat v ha hc hl hw)
  case writeHiTim =>
    intro m v s hc
    have hlo := appliedLo_lt s m 0x3058 _ (reg s .tim 0x058).isLt
    have hv := v.isLt
    exact ⟨_, answers_of_eq (writeHi_answers s m 0x305C v) (mmioWrite_timSetHi s m v hc), timSetTo_spec s m _ (by omega)⟩
  case writeHiCq =>
    intro m p c v s hc hd
    have ha : (BitVec.ofNat 22 (cqAddr p c.val 0x0C)).toNat = cqAddr p c.val 0x0C := by
      rw [BitVec.toNat_ofNat, Nat.mod_eq_of_lt]
      cases p <;> simp only [cqAddr, pIdx] <;> omega
    exact answers_of_eq (writeHi_answers s m _ v) ((congrArg (mmioWrite s m · 0xF v) ha).trans (mmioWrite_cqBaseHi s m p c.val v c.isLt hc hd))
  case reads =>
    intro m a s ha hr
    refine ⟨fun hp => ⟨fun hl => ?_, fun hh => ?_, fun hl hh hr' hp' => ?_⟩, fun off ho h1 h2 => ?_⟩
    · exact answers_of_eq (readLo_answers s m _ 0 none) (mmioRead_lo s m _ ha hr hl hp)
    · exact answers_of_eq (readLo_answers s m _ 0 none) (mmioRead_hi s m _ ha hr hh hp)
    · refine answers_of_eq (readLo_answers s m _ 1 none) ?_
      show mmioRead (mmioRead s m a.toNat) m (a.toNat + 4) = _
      rw [mmioRead_lo s m _ ha hr hl hp, mmioRead_hi_after_lo s m _ _ _ (by omega) hr' hh hp']
      rfl
    · exact answers_of_eq (readLo_answers s m _ 0 none) (mmioRead_meta s m _ ha hr off ho h1 h2)
  case wholeTim =>
    intro m lo hi s hc hc'
    have hl := lo.isLt
    have hh := hi.isLt
    exact ⟨_, answers_of_eq (finishIf_answers s _ _ rfl) (tlpWrite_timSet s m lo hi hc hc'), timSetTo_spec s m _ (by omega)⟩
  case sram =>
    exact fun m src more f s hs hk => ⟨fun hp => answers_of_eq (readLo_answers s m src more _) (readRow_tcm s m src _ f hs hk hp),
      fun hp hw => answers_of_eq (readLo_answers s m src more _) (readRow_abort s m src _ f hs hk hp hw)⟩
  case bars =>
    exact fun p s hs => ⟨fun off => answers_of_eq (readLo_answers s _ _ 0 none) (readFrom_bar2 s p off hs),
      fun off => answers_of_eq (readLo_answers s _ _ 0 none) (readFrom_bar4 s p off hs)⟩

end Sys2Proof.Machine
end

section
/-! PROOF. A master that is frozen, or whose accesses are not served, writes nothing (R78, R398, R400, R506). -/

namespace Sys2Proof.Machine

section Silent

variable (s : State)

/-- No dword of its TLPs has an effect (R31, R78). -/
theorem tlpWrite_of_not (m : Master) (a : Nat) (ds : List (BitVec 4 × Word)) (h : served s m = false ∨ (mst s m).frozen = true) :
    tlpWrite s m a ds = s := by
  induction ds generalizing a with
  | nil => rfl
  | cons d r ih => rw [tlpWrite, mmioWrite_of_not s m a d.1 d.2 h, ih]

/-- Every command that is a register write answers the effect of its dwords, which is none. -/
theorem exec_of_not (i : Instr) (m : Master) (hw : Safety.writer i = some m) (hok : i.wf = true)
    (h : served s m = false ∨ (mst s m).frozen = true) : exec i s = finish s s := by
  have none_written := fun a be v => mmioWrite_of_not s m a be v h
  cases i with
  | registerWrite m' a be v more =>
    cases hw
    exact (if_pos hok).trans (congrArg (finish s) (tlpWrite_of_not s m _ _ h))
  | alloc m' want | allocWait m' want =>
    cases hw
    exact (if_pos hok).trans (congrArg (finish s) (none_written _ _ _))
  | labelWrite m' st v =>
    cases hw
    have both : labelBoth s m st.val v = s := by rw [labelBoth, none_written, none_written]
    exact congrArg (finish s) both
  | verify src | confirm src | cancel src =>
    cases src with
    | fsp dg => cases hw
    | register m' =>
      cases hw
      exact congrArg (finish s) (none_written _ _ _)
  | writeLo | writeHi | enable | disable | abort | clrCounters | evtRearm | transportOwnerWrite | portThaw | semLockWrite | semLeaseWrite
  | cqHeadWrite | sqEnable | sqDisable | sqAbort | cqEnable | cqDisable | resume | discard | share | release | cancelWait | keyWordWrite
  | commit | erase | keyZeroiseWrite | manual | apply | clearTable | enterService | exitService | clearFault | stateReq | step | slew
  | nvaDoorbell =>
    cases hw
    exact congrArg (finish s) (none_written _ _ _)
  | _ => cases hw

end Silent

/-- Settles O7: a register write answers the effect of its dwords, and none of them has one. -/
theorem frozenWritesNothing : Obligations.FrozenWritesNothing := by
  unfold Obligations.FrozenWritesNothing
  intro i m s hw hok h
  rw [exec_of_not s i m hw hok h.symm]
  exact finish_answers s s

end Sys2Proof.Machine
end

section
/-! PROOF. Lease semaphores (R69 to R75): what a read and a write of LOCK and a write of LEASE do, and the end of a lease. -/

namespace Sys2Proof.Machine

section Semaphores

variable (s : State)

/-! ### The registers of the SEM page -/

/-- LOCK of each of the 32 semaphores, by its row. -/
theorem findRow_semLock (k : Fin 32) :
    findRow (pageRows .sem) (0x40 + 4 * k.val) = some ((rwR 0x040 0xFFFF).times 32, false) := by
  revert k; decide

/-- LEASE of each of the 32 semaphores, by its row. -/
theorem findRow_semLease (k : Fin 32) :
    findRow (pageRows .sem) (0x100 + 4 * k.val) = some ((rwR 0x100 0x3FFF 100).times 32, false) := by
  revert k; decide

/-- Every master may write the SEM page (R46). -/
theorem canWrite_sem (m : Master) (off : Nat) (h : Safety.reaches s m (.page .sem off) = true) :
    Safety.canWrite s m (.page .sem off) = true := by
  have right : hasRight s m (.page .sem off) = true := Bool.or_true _
  rw [Safety.canWrite, h, right]; rfl

/-- A read of LOCK[k] that reaches it is answered by `lockRead` (R69). -/
theorem semLockRead_answers (m : Master) (k : Fin 32) (h : Safety.reaches s m (.page .sem (0x40 + 4 * k.val)) = true) :
    Safety.answers (exec (.semLockRead m k) s) s
      (answer (lockRead s m k.val).1 m (0x1040 + 4 * k.val) (lockRead s m k.val).2) := by
  have dword : (0x1040 + 4 * k.val) / 4 * 4 = 0x1040 + 4 * k.val := by omega
  have spot : spotOf (0x1040 + 4 * k.val) = .page .sem (0x40 + 4 * k.val) := by
    have e := spotOf_page .sem (0x40 + 4 * k.val) (by omega)
    rwa [pageBase, ← Nat.add_assoc] at e
  have number : (0x40 + 4 * k.val - 0x40) / 4 = k.val := by omega
  have row : readSpot s m (.page .sem (0x40 + 4 * k.val)) = lockRead s m k.val := by
    rw [readSpot, if_pos (by simp only [Bool.and_eq_true, decide_eq_true_eq]; omega), number]
  simp only [Safety.reaches, Bool.and_eq_true, Bool.not_eq_true'] at h
  obtain ⟨⟨⟨⟨h1, h2⟩, hw⟩, h3⟩, h4⟩ := h
  refine answers_of_eq (finish_answers s _) ?_
  simp only [mmioRead, dword, spot, h1, h2, hw, h3, h4, row, Bool.not_true, Bool.false_and, Bool.or_self, Bool.false_eq_true, if_false]

/-- A write of LOCK[k] that reaches it (R70). -/
theorem semLockWrite_answers (m : Master) (k : Fin 32) (v : Word) (h : Safety.reaches s m (.page .sem (0x40 + 4 * k.val)) = true) :
    Safety.answers (exec (.semLockWrite m k v) s) s (lockWrite s m k.val v) := by
  have e := regWrite_block s m .sem (0x40 + 4 * k.val) v _ (by omega) (by omega) (by omega) (findRow_semLock k) rfl (canWrite_sem s m _ h)
  have number : (0x40 + 4 * k.val - 0x40) / 4 = k.val := by omega
  rw [blockWrite, if_pos (by omega), number] at e
  exact answers_of_eq (finish_answers s _) e

/-- A write of LEASE[k] that reaches it (R71). -/
theorem semLeaseWrite_answers (m : Master) (k : Fin 32) (v : Word) (h : Safety.reaches s m (.page .sem (0x100 + 4 * k.val)) = true) :
    Safety.answers (exec (.semLeaseWrite m k v) s) s (leaseWrite s m k.val v) := by
  have e := regWrite_block s m .sem (0x100 + 4 * k.val) v _ (by omega) (by omega) (by omega) (findRow_semLease k) rfl (canWrite_sem s m _ h)
  have number : (0x100 + 4 * k.val - 0x100) / 4 = k.val := by omega
  rw [blockWrite, if_neg (by omega), if_pos (by simp only [Bool.and_eq_true, decide_eq_true_eq]; omega), number] at e
  exact answers_of_eq (finish_answers s _) e

/-! ### A read of LOCK (R69) -/

theorem lockRead_mine (m : Master) (k : Nat) (h : (sem s k).holder = some m) :
    lockRead s m k = (semResult (setSem s k { sem s k with due := leaseClock s + (sem s k).lease * 1000000 }) m k 3,
      (sem s k).token.toNat) := by
  simp [lockRead, h]

theorem lockRead_elsewhere (m m' : Master) (k : Nat) (hm : m' ≠ m) (h : (sem s k).holder = some m') :
    lockRead s m k = (semResult s m k 1, 0) := by
  simp [lockRead, h, hm]

theorem lockRead_order (m : Master) (k : Nat) (h : (sem s k).holder = none)
    (ho : ((List.range 32).any fun j => k < j && holds s m j) = true) : lockRead s m k = (semResult s m k 2, 0) := by
  simp only [lockRead, h, ho]; rfl

theorem lockRead_free (m : Master) (k : Nat) (h : (sem s k).holder = none)
    (ho : ((List.range 32).any fun j => k < j && holds s m j) = false) :
    lockRead s m k = (semResult (grantSem s m k) m k 0, (sem (grantSem s m k) k).token.toNat) := by
  simp only [lockRead, h, ho]; rfl

/-- A master holds a semaphore if it is its holder. -/
theorem holds_eq_beq (m : Master) (j : Nat) : holds s m j = ((sem s j).holder == some m) := by
  rw [Bool.eq_iff_iff, beq_iff_eq]; exact decide_eq_true_iff

/-! ### Writes of LOCK and LEASE (R70, R71) -/

theorem lockWrite_released (m : Master) (k : Nat) (v : Word) (h : (sem s k).holder = some m)
    (ht : v.toNat % 2 ^ 16 = (sem s k).token.toNat) :
    lockWrite s m k v = semResult (setSem s k { sem s k with holder := none }) m k 4 :=
  if_pos (by simpa [h] using ht)

theorem lockWrite_badToken (m : Master) (k : Nat) (v : Word)
    (h : ¬ ((sem s k).holder = some m ∧ v.toNat % 2 ^ 16 = (sem s k).token.toNat)) : lockWrite s m k v = semResult s m k 5 :=
  if_neg (by simpa using h)

theorem leaseWrite_notHolder (m : Master) (k : Nat) (v : Word) (h : (sem s k).holder ≠ some m) :
    leaseWrite s m k v = semResult s m k 6 := if_pos (bne_iff_ne.mpr h)

theorem leaseWrite_range (m : Master) (k : Nat) (v : Word) (h : (sem s k).holder = some m)
    (hr : v.toNat % 2 ^ 14 = 0 ∨ 10000 < v.toNat % 2 ^ 14) : leaseWrite s m k v = semResult s m k 7 :=
  (if_neg (by simp [h])).trans (if_pos (by simpa using hr))

theorem leaseWrite_set (m : Master) (k : Nat) (v : Word) (h : (sem s k).holder = some m)
    (h1 : 1 ≤ v.toNat % 2 ^ 14) (h2 : v.toNat % 2 ^ 14 ≤ 10000) :
    leaseWrite s m k v = semResult (setSem s k { sem s k with
      lease := v.toNat % 2 ^ 14, due := leaseClock s + v.toNat % 2 ^ 14 * 1000000 }) m k 3 :=
  (if_neg (by simp [h])).trans (if_neg (by simp only [Bool.or_eq_true, decide_eq_true_eq]; omega))

/-! ### The end of a lease (R74, R75) -/

/-- A forced release at the end of a lease: LAST_FORCED, FORCED_COUNT, the event and the entry (R74). -/
theorem leaseEnd_held (k : Nat) (h : Master) (hp : s.fwu.paused = false) (hh : (sem s k).holder = some h) :
    leaseEnd s k = logMgmt (setEvt (count (setForced (setSem s k { sem s k with holder := none })
      (w32 (k + 2 ^ 8 * holderCode (some h)))) .sem 0) .sem 8) 0x058B 1 (mIdx h) k 0 := by
  simp [leaseEnd, forceRelease, hp, hh]

theorem leaseEnd_unchanged (k : Nat) (h : s.fwu.paused = true ∨ (sem s k).holder = none) : leaseEnd s k = s := by
  rcases h with h | h
  · exact if_pos h
  · simp [leaseEnd, forceRelease, h]

/-- An event-log entry changes no semaphore, no owner, no LAST_FORCED and nothing that a master has of its own. -/
theorem LogFrame.sems_kept {t u : State} (h : LogFrame t u) :
    (∀ j, sem u j = sem t j) ∧ u.lastForced = t.lastForced ∧ u.masters = t.masters ∧ u.owners = t.owners := by
  rw [h]; exact ⟨fun _ => rfl, rfl, rfl, rfl⟩

/-! ### PORT_THAW (R79, R81) -/

/-- New acceptance sequences change volumes and a port's inboxes. -/
theorem nextAcc_masters (v : Nat) : (nextAcc s v).1.masters = s.masters := by
  unfold nextAcc; dsimp only; split <;> rfl

/-- New acceptance sequences change nothing that a master has of its own. -/
theorem resequence_masters (p : Port) (q : Nat) : (resequence s p q).masters = s.masters := by
  have go : ∀ (v : Nat) (l : List Capsule) (r : State × List Capsule), (l.foldl (fun (r : State × List Capsule) k =>
      ((nextAcc r.1 v).1, r.2 ++ [{ k with accSeq := (nextAcc r.1 v).2 }])) r).1.masters = r.1.masters := by
    intro v l
    induction l with
    | nil => exact fun r => rfl
    | cons k l ih => exact fun r => (ih _).trans (nextAcc_masters r.1 v)
  unfold resequence
  split
  · rfl
  · exact go _ _ (s, [])

theorem resequenceAll_masters (p : Port) (l : List Nat) : (l.foldl (fun t q => resequence t p q) s).masters = s.masters := by
  induction l generalizing s with
  | nil => rfl
  | cons q l ih => exact (ih _).trans (resequence_masters s p q)

/-- A thaw lets that master go on, and no other freeze changes (R81). -/
theorem thawMaster_mst (m x : Master) : mst (thawMaster s m) x = if x = m then { mst s m with frozen := false } else mst s x := by
  have released : mst (modMst s m fun y => { y with frozen := false }) x = if x = m then { mst s m with frozen := false } else mst s x := by
    rw [modMst_eq]; split
    · subst x; exact mst_setMst ..
    · exact mst_setMst_ne _ _ _ _ ‹_›
  unfold thawMaster
  split
  · rw [← released]
    cases masterPort m with
    | none => rfl
    | some p => exact congrArg (tget · (mIdx x) _) (resequenceAll_masters _ p _)
  · next h =>
    split
    · subst x
      rw [Bool.not_eq_true] at h
      rw [← h]
    · rfl

/-- The master is thawed where its bit is written 1. -/
def thawIf (s : State) (m : Master) (b : Bool) : State := if b then thawMaster s m else s

theorem thawIf_mst (m x : Master) (b : Bool) :
    mst (thawIf s m b) x = { mst s x with frozen := (mst s x).frozen && !(b && decide (x = m)) } := by
  cases b with
  | false => simp [thawIf]
  | true =>
    rw [thawIf, if_pos rfl, thawMaster_mst]
    split
    · subst x; simp
    · simp [*]

/-- PORT_THAW takes the masters in the order of their bits. -/
theorem thawWrite_eq (v : Word) : thawWrite s v
    = thawIf (thawIf (thawIf s .portA (v.getLsbD 0)) .portB (v.getLsbD 1)) .mgmt (v.getLsbD 2) := rfl

/-- Each master whose bit is written 1 is thawed, and no other's freeze changes. -/
theorem thawWrite_mst (v : Word) (x : Master) :
    mst (thawWrite s v) x = { mst s x with frozen := (mst s x).frozen && !v.getLsbD (mIdx x) } := by
  rw [thawWrite_eq, thawIf_mst, thawIf_mst, thawIf_mst]
  cases x <;> simp [mIdx]

/-- A write of PORT_THAW with the right. -/
theorem portThaw_answers (m : Master) (v : Word) (h : Safety.canWrite s m (.page .dev 0x04C) = true) :
    Safety.answers (exec (.portThaw m v) s) s (thawWrite s v) := by
  exact answers_of_eq (finish_answers s _) (regWrite_block s m .dev 0x04C v (roR 0x04C) (by decide) (by decide) (by decide) rfl rfl h)

end Semaphores

/-- Settles O15: a read of LOCK is `lockRead`, and each clause is the lemma of its case. -/
theorem semLockReadRow : Obligations.SemLockReadRow := by
  unfold Obligations.SemLockReadRow
  intro m k s hr
  have row := semLockRead_answers s m k hr
  simp only [← holds_eq_beq]
  refine ⟨fun hf ho => ?granted, fun hf ho => ?order, fun hm => ?renewed, fun m' hne hh => ?elsewhere⟩
  case granted =>
    rw [lockRead_free s m k.val hf ho, grantSem, sem_setSem] at row
    exact row
  case order => rwa [lockRead_order s m k.val hf ho] at row
  case renewed => rwa [lockRead_mine s m k.val hm] at row
  case elsewhere => rwa [lockRead_elsewhere s m m' k.val hne hh] at row

/-- Settles O16: the writes are `lockWrite` and `leaseWrite`. That NOT_HOLDER comes before LEASE_RANGE, and that the lease keeps its value
over a release, are the model's choices (log entry 15). -/
theorem semWriteRows : Obligations.SemWriteRows := by
  unfold Obligations.SemWriteRows
  intro m k v s
  refine ⟨fun hr => ?lock, fun hr => ?lease⟩
  case lock =>
    have row := semLockWrite_answers s m k v hr
    exact ⟨fun hm ht => answers_of_eq row (lockWrite_released s m k.val v hm ht),
      fun hn => answers_of_eq row (lockWrite_badToken s m k.val v hn)⟩
  case lease =>
    have row := semLeaseWrite_answers s m k v hr
    exact ⟨fun hm h1 h2 => answers_of_eq row (leaseWrite_set s m k.val v hm h1 h2),
      fun hn => answers_of_eq row (leaseWrite_notHolder s m k.val v hn),
      fun hm hs => answers_of_eq row (leaseWrite_range s m k.val v hm hs)⟩

/-- Settles O17: a lease ends by `forceRelease`, whose entry changes none of what the clauses name; PORT_THAW thaws bit by bit. -/
theorem leaseExpiryAndThaw : Obligations.LeaseExpiryAndThaw := by
  unfold Obligations.LeaseExpiryAndThaw
  refine ⟨fun k s => ⟨fun h hp hh => ?held, fun hn => ?unchanged⟩, fun m v s hc => ?thaw⟩
  case held =>
    refine ⟨_, answers_of_eq (finish_answers s _) (leaseEnd_held s k.val h hp hh), rfl, ?_⟩
    generalize hforced : setForced (setSem s k.val { sem s k.val with holder := none }) (w32 (k.val + 2 ^ 8 * holderCode (some h))) = f
    generalize hraised : setEvt (count f .sem 0) .sem 8 = e
    have frame : LogFrame f (logMgmt e 0x058B 1 (mIdx h) k.val 0) :=
      hraised ▸ ((count_logFrame f .sem 0 1).trans (setEvt_logFrame _ .sem 8)).trans (logMgmt_logFrame ..)
    obtain ⟨sems, forced, masters, owners⟩ := frame.sems_kept
    have event : (page e .sem).evt.getLsbD 8 = true := by
      rw [← hraised, evt_setEvt _ _ _ _ (by decide)]; exact Bool.or_true _
    refine ⟨(sems _).trans ?_, fun j hj => (sems j).trans ?_, forced.trans ?_, masters.trans ?_, owners.trans ?_, ?_⟩
    · rw [← hforced, sem_setForced, sem_setSem]
    · rw [← hforced, sem_setForced, sem_setSem_ne _ _ _ _ hj]
    · rw [← hforced]; rfl
    · rw [← hforced]; rfl
    · rw [← hforced]; rfl
    · rw [(logMgmt_pagesFrame e _ _ _ _ _ _ _).same .sem (by decide)]
      exact event
  case unchanged => exact answers_of_eq (finish_answers s _) (leaseEnd_unchanged s k.val hn)
  case thaw => exact ⟨_, portThaw_answers s m v hc, rfl, thawWrite_mst s v⟩

end Sys2Proof.Machine
end

section
/-! PROOF. DEV.TRANSPORT_OWNER (R64): what one field of a write does, and the sixteen fields in turn. -/

namespace Sys2Proof.Machine

section Owners

variable (s : State)

/-- Field `n` of a written word asks for this owner; 3 asks for nothing. -/
def wantOwner (v : Word) (n : Nat) : Nat := v.toNat / 4 ^ n % 4

/-- SEM(4+n) is free, or the writing master holds it. -/
def mayAssign (s : State) (m : Master) (n : Nat) : Bool := (sem s (4 + n)).holder = none || (sem s (4 + n)).holder = some m

/-- What field `n` of a write does. -/
def ownerField (m : Master) (v : Word) (s : State) (n : Nat) : State :=
  if wantOwner v n = 3 then s
  else if mayAssign s m n = false then setEvt s .dev 11
  else if wantOwner v n = owner s n then s
  else setEvt (setOwner s n (wantOwner v n)) .dev 12

/-- A write of TRANSPORT_OWNER takes its fields in order. -/
theorem ownerWrite_eq_foldl (m : Master) (v : Word) : ownerWrite s m v = (List.range 16).foldl (ownerField m v) s := by
  unfold ownerWrite
  congr 1
  funext t n
  by_cases h3 : wantOwner v n = 3
  · rw [ownerField, if_pos h3]; exact if_pos h3
  rw [ownerField, if_neg h3]
  refine (if_neg h3).trans ?_
  cases hh : (sem t (4 + n)).holder with
  | none => simp only [mayAssign, hh]; rfl
  | some h =>
    by_cases hm : h = m
    · simp only [mayAssign, hh, hm, bne_self_eq_false]; rfl
    · simp [mayAssign, hh, hm]

/-- Only owners and the event word of DEV differ. -/
structure OwnerFrame (s u : State) : Prop where
  others : u = { s with owners := u.owners, pages := u.pages }
  events : ∀ pg, page u pg = { page s pg with evt := (page u pg).evt }
  pages : ∀ pg, pg ≠ .dev → page u pg = page s pg

theorem OwnerFrame.refl : OwnerFrame s s := ⟨rfl, fun _ => rfl, fun _ _ => rfl⟩

theorem OwnerFrame.trans {s t u : State} (h : OwnerFrame s t) (k : OwnerFrame t u) : OwnerFrame s u where
  others := by rw [k.others, h.others]
  events pg := by rw [k.events pg, h.events pg]
  pages pg hp := (k.pages pg hp).trans (h.pages pg hp)

/-- An event of DEV keeps the frame. -/
theorem ownerFrame_setEvt_dev (b : Nat) : OwnerFrame s (setEvt s .dev b) where
  others := rfl
  events pg := by
    rw [page_setEvt]; split
    · subst pg; rfl
    · rfl
  pages pg hp := by rw [page_setEvt, if_neg hp]

/-- Setting an owner keeps the frame. -/
theorem ownerFrame_setOwner (n x : Nat) : OwnerFrame s (setOwner s n x) := ⟨rfl, fun _ => rfl, fun _ _ => rfl⟩

/-- Where the frame is kept, every semaphore is as it was. -/
theorem mayAssign_of_ownerFrame {s u : State} (h : OwnerFrame s u) (m : Master) (n : Nat) : mayAssign u m n = mayAssign s m n := by
  rw [h.others]; rfl

/-- `u` is `s` after the fields of `l`. -/
structure FieldsWritten (m : Master) (v : Word) (l : List Nat) (s u : State) : Prop where
  frame : OwnerFrame s u
  owners : ∀ n, owner u n = if n ∈ l ∧ wantOwner v n ≠ 3 ∧ mayAssign s m n = true then wantOwner v n else owner s n
  evt : ∀ k, (page u .dev).evt.getLsbD k = ((page s .dev).evt.getLsbD k
    || (k == 11 && l.any fun n => wantOwner v n != 3 && !mayAssign s m n)
    || (k == 12 && l.any fun n => wantOwner v n != 3 && mayAssign s m n && wantOwner v n != owner s n))

theorem fieldsWritten_nil (m : Master) (v : Word) : FieldsWritten m v [] s s :=
  ⟨.refl s, fun n => by simp, fun k => by simp⟩

/-- One field: R64 case by case. -/
theorem ownerField_spec (m : Master) (v : Word) (n : Nat) : FieldsWritten m v [n] s (ownerField m v s n) := by
  unfold ownerField
  split
  · next h3 => exact ⟨.refl s, fun j => by by_cases e : j = n <;> simp [e, h3], fun k => by simp [h3]⟩
  split
  · next h3 hm =>
    refine ⟨ownerFrame_setEvt_dev s 11, fun j => ?_, fun k => ?_⟩
    · rw [if_neg]
      · rfl
      · rintro ⟨hj, -, h⟩
        rw [List.mem_singleton] at hj
        simp [hj, hm] at h
    · rw [evt_setEvt _ _ _ _ (by decide)]; simp [bne_iff_ne.mpr h3, hm]
  split
  · next h3 hm ho =>
    refine ⟨.refl s, fun j => ?_, fun k => by simp [(Bool.not_eq_false _).mp hm, bne_eq_false_iff_eq.mpr ho]⟩
    split
    · next h => rw [List.mem_singleton.mp h.1, ho]
    · rfl
  · next h3 hm ho =>
    rw [Bool.not_eq_false] at hm
    refine ⟨(ownerFrame_setOwner s n _).trans (ownerFrame_setEvt_dev _ 12), fun j => ?_, fun k => ?_⟩
    · show owner (setOwner s n _) j = _
      by_cases e : j = n
      · subst e; simp [h3, hm]
      · rw [owner_setOwner_ne _ _ _ _ e]; simp [e]
    · rw [evt_setEvt _ _ _ _ (by decide)]; simp [bne_iff_ne.mpr h3, bne_iff_ne.mpr ho, hm]

/-- A field behind others that are not its own. -/
theorem FieldsWritten.snoc {m : Master} {v : Word} {l : List Nat} {n : Nat} {s t u : State} (hn : n ∉ l)
    (h : FieldsWritten m v l s t) (k : FieldsWritten m v [n] t u) : FieldsWritten m v (l ++ [n]) s u := by
  have own : owner t n = owner s n := by rw [h.owners, if_neg fun c => hn c.1]
  refine ⟨h.frame.trans k.frame, fun j => ?_, fun b => ?_⟩
  · rw [k.owners, h.owners, mayAssign_of_ownerFrame h.frame]
    by_cases e : j = n
    · subst e; simp [hn]
    · simp [e]
  · rw [k.evt, h.evt]
    simp only [List.any_append, List.any_cons, List.any_nil, Bool.or_false, mayAssign_of_ownerFrame h.frame, own,
      Bool.and_or_distrib_left]
    ac_rfl

/-- All the fields of a list, each of them once. -/
theorem fieldsWritten_range (m : Master) (v : Word) (N : Nat) :
    FieldsWritten m v (List.range N) s ((List.range N).foldl (ownerField m v) s) := by
  induction N with
  | zero => exact fieldsWritten_nil s m v
  | succ N ih =>
    rw [List.range_succ, List.foldl_append]
    exact ih.snoc List.not_mem_range_self (ownerField_spec _ m v N)

/-- A write of TRANSPORT_OWNER with the right. -/
theorem transportOwnerWrite_answers (m : Master) (v : Word) (h : Safety.canWrite s m (.page .dev 0x048) = true) :
    Safety.answers (exec (.transportOwnerWrite m v) s) s (ownerWrite s m v) :=
  answers_of_eq (finish_answers s _)
    (regWrite_block s m .dev 0x048 v (rwR 0x048 0xFFFFFFFF) (by decide) (by decide) (by decide) rfl rfl h)

end Owners

/-- Settles O14: the sixteen fields are applied in turn, each as `ownerField_spec` says; no field rests on another. -/
theorem transportOwnerRow : Obligations.TransportOwnerRow := by
  unfold Obligations.TransportOwnerRow
  intro m v s hc
  have written := ownerWrite_eq_foldl s m v ▸ fieldsWritten_range s m v 16
  refine ⟨_, transportOwnerWrite_answers s m v hc, fun n => ?_, written.evt, written.frame.events, written.frame.pages,
    written.frame.others⟩
  rw [written.owners]
  simp [wantOwner, mayAssign, and_assoc]

end Sys2Proof.Machine
end

section
/-! PROOF. Owner requests of the service port (R69, R81, R366, R410, R432, R433, R455). -/

namespace Sys2Proof.Machine

section CoreSemaphore

variable (s : State)

/-- The core cannot take semaphore `k`: it is frozen, the semaphore is held, or the core holds a higher one (R69, R78). -/
def coreBlocked (s : State) (k : Nat) : Prop :=
  (mst s .mgmt).frozen = true ∨ (sem s k).holder ≠ none ∨ ∃ j, k < j ∧ j < 32 ∧ holds s .mgmt j = true

/-- The core takes semaphore `k` by its read of LOCK. -/
def coreTook (s : State) (k : Nat) : State := semResult (grantSem s .mgmt k) .mgmt k 0

/-- The core holds a semaphore above `k`. -/
theorem holdsHigher_iff (m : Master) (k : Nat) :
    ((List.range 32).any fun j => k < j && holds s m j) = true ↔ ∃ j, k < j ∧ j < 32 ∧ holds s m j = true := by
  simp only [List.any_eq_true, List.mem_range, Bool.and_eq_true, decide_eq_true_eq]
  exact ⟨fun ⟨j, h, hk, hj⟩ => ⟨j, hk, h, hj⟩, fun ⟨j, hk, h, hj⟩ => ⟨j, h, hk, hj⟩⟩

/-- Where it can, it does. -/
theorem coreTakes_of_not_blocked (k : Nat) (h : ¬ coreBlocked s k) : coreTakes s k = (coreTook s k, true) := by
  simp only [coreBlocked, not_or, ne_eq, Decidable.not_not] at h
  obtain ⟨hf, hh, ho⟩ := h
  rw [← holdsHigher_iff] at ho
  unfold coreTakes
  rw [if_neg hf, if_neg (by simp [hh]), if_neg ho]
  rfl

/-- Where it cannot, its RESULT alone may differ. -/
theorem coreTakes_of_blocked (k : Nat) (h : coreBlocked s k) : ∃ x, coreTakes s k = ({ s with masters := x }, false) := by
  unfold coreTakes
  split
  · exact ⟨s.masters, rfl⟩
  split
  · exact ⟨_, rfl⟩
  split
  · exact ⟨_, rfl⟩
  · next hf hh ho =>
    rw [holdsHigher_iff] at ho
    exact absurd h (not_or.mpr ⟨hf, not_or.mpr ⟨by simpa using hh, ho⟩⟩)

end CoreSemaphore

section OwnerRequests

variable (s : State) (r : FspReq)

/-- A row whose requests carry `n` bytes of payload. -/
theorem fixedLength_requests {c : Instr} {op n : Nat} {own : Bool} {pre : List Byte} {go : State → FspReq → State} (dg : List Byte)
    (hc : exec c s = finish s (fspRow s dg op (· == n) own pre go)) : Safety.requests s dg c op (· = n) own pre go :=
  fspRow_requests s dg c op _ _ own pre go (fun _ => beq_iff_eq) hc

/-! ### THAW (R81) -/

theorem thawOp_length (h : 1 < leAt r.body 0 1) : thawOp s r = reply s r 2 [] := if_pos h

theorem thawOp_thaws (h : leAt r.body 0 1 ≤ 1) (hb : ¬ coreBlocked s 0) :
    thawOp s r = reply (coreGives (thawMaster (coreTook s 0) (nthMaster (leAt r.body 0 1))) 0) r 0 [] := by
  unfold thawOp
  rw [if_neg (by omega), coreTakes_of_not_blocked s 0 hb]

theorem thawOp_busy (h : leAt r.body 0 1 ≤ 1) (hb : coreBlocked s 0) : ∃ x, thawOp s r = reply { s with masters := x } r 7 [] := by
  obtain ⟨x, e⟩ := coreTakes_of_blocked s 0 hb
  refine ⟨x, ?_⟩
  unfold thawOp
  rw [if_neg (by omega), e]

/-! ### Security settings (R410, R455) -/

theorem secure_uncharged (f : FspSt → FspSt) (h : s.pwr.charge < 90) : secure s r f = reply s r 6 (leBytes 2 0x0803) := if_pos h

theorem secure_written (f : FspSt → FspSt) (h : 90 ≤ s.pwr.charge) :
    secure s r f = reply (writeSetRec { s with fsp := f s.fsp } (securityRecord { s with fsp := f s.fsp })) r 0 [] :=
  if_neg (by omega)

/-- What a write of OWNER_LOCK leaves before it is raised. -/
def lockWritten (s : State) (r : FspReq) : State := secure s r fun f => { f with ownerLock := leAt r.body 0 1 % 2 == 1 }

theorem lockOp_same (h : (lockWritten s r).fsp.ownerLock = s.fsp.ownerLock) : lockOp s r = lockWritten s r :=
  if_neg (by simpa [lockWritten] using h)

theorem lockOp_changed (h : (lockWritten s r).fsp.ownerLock ≠ s.fsp.ownerLock) :
    lockOp s r = raise (lockWritten s r) .mgt 13 (bit (leAt r.body 0 1 % 2 == 1)) :=
  if_pos (bne_iff_ne.mpr h)

/-! ### OWNER_KEY (R432) -/

theorem keyOp_unauthenticated (ha : r.authed = false) (hk : s.fsp.ownerKey ≠ none) : keyOp s r = reply s r 3 [] :=
  if_pos (by simpa [ha, Option.isSome_iff_ne_none] using hk)

/-- Who may install a key: an authenticated session, or anyone while there is none. -/
theorem keyOp_allowed (h : r.authed = true ∨ s.fsp.ownerKey = none) :
    keyOp s r = if r.body.length != 48 then reply s r 2 [] else secure s r fun f => { f with ownerKey := some r.body } := by
  refine if_neg ?_
  rcases h with h | h <;> simp [h]

/-! ### BRIDGE_MAILBOX (R366, R433) -/

/-- A bridge message has a transport, an address and 1 to 48 bytes. -/
theorem bridgeShape_iff (bs : List Byte) : bridgeShape bs = true ↔ 5 ≤ bs.length ∧ bs.length ≤ 52 ∧ leAt bs 0 1 ≤ 15 := by
  simp only [bridgeShape, Bool.and_eq_true, decide_eq_true_eq, and_assoc]

theorem fspBridge_length (h : ¬ bridgeShape r.body = true) : fspBridge s r = reply s r 2 [] :=
  if_pos (by simpa using h)

theorem fspBridge_refused (h : bridgeShape r.body = true)
    (hn : (link s (leAt r.body 0 1)).phase ≠ .up ∨ (link s (leAt r.body 0 1)).mode ≠ .service) :
    fspBridge s r = reply (nextFree s) r 6 (leBytes 2 (freeVal s % 65536)) := by
  unfold fspBridge
  rw [if_neg (by simp [h]), if_pos (by simpa using hn)]
  rfl

/-- The one message of the service port to a bridge; an earlier one that was not answered is forgotten. -/
def bridgeMessage (s : State) (r : FspReq) : State :=
  mbxSend ((List.range 16).foldl (fun t k =>
      setLink t k { link t k with mbx := (link t k).mbx.filter fun x => !(x.op == 3 && x.who == 3) }) s)
    (leAt r.body 0 1) 3 (leAt r.body 2 2) (r.body.drop 4) (r.body.length - 4) 3

theorem fspBridge_sent (h : bridgeShape r.body = true) (hu : (link s (leAt r.body 0 1)).phase = .up)
    (hm : (link s (leAt r.body 0 1)).mode = .service) :
    fspBridge s r = { bridgeMessage s r with fsp := { (bridgeMessage s r).fsp with mail := some (r.id, r.seq) } } := by
  have sent : fspBridge s r = modFsp (bridgeMessage s r) fun f => { f with mail := some (r.id, r.seq) } := by
    unfold fspBridge
    rw [if_neg (by simp [h]), if_neg (by simp [hu, hm])]
    rfl
  rw [sent]
  generalize bridgeMessage s r = u
  rfl

end OwnerRequests

/-- Settles O52: every row is an FSP request (`fspRow_requests`), and each clause the lemma of its case. The charge that the security
settings need, the reason of the BRIDGE_MAILBOX refusal and the payloads are the model's. -/
theorem ownerRows : Obligations.OwnerRows := by
  unfold Obligations.OwnerRows
  refine ⟨fun s dg => ?requests, fun h r f => ⟨secure_uncharged h r f, secure_written h r f⟩, fun h r => ?operations⟩
  case requests =>
    refine ⟨?thaw, ?zeroise, ?reset, ?lock, ?fleet, ?key, ?net, ?bridge⟩
    case thaw => exact fixedLength_requests s dg rfl
    case zeroise => exact fixedLength_requests s dg rfl
    case reset => exact fixedLength_requests s dg rfl
    case lock => exact fixedLength_requests s dg rfl
    case fleet => exact fixedLength_requests s dg rfl
    case key => exact fspRow_requests s dg _ _ _ _ _ _ _ (fun _ => iff_of_true rfl trivial) rfl
    case net =>
      exact fspRow_requests s dg _ _ (fun n => n == 0 || n == 16) _ _ _ _ (fun n => by rw [Bool.or_eq_true, beq_iff_eq, beq_iff_eq]) rfl
    case bridge => exact fspRow_requests s dg _ _ _ _ _ _ _ (fun _ => iff_of_true rfl trivial) rfl
  case operations =>
    refine ⟨thawOp_length h r, thawOp_thaws h r, thawOp_busy h r, lockOp_same h r, lockOp_changed h r, keyOp_unauthenticated h r,
      fun ha hl => (keyOp_allowed h r ha).trans (if_pos (bne_iff_ne.mpr hl)),
      fun ha hl => (keyOp_allowed h r ha).trans (if_neg (by simp [hl])), ?_, ?_, ?_⟩
    · exact fun hs => fspBridge_length h r (mt (bridgeShape_iff _).mp hs)
    · exact fun hs => fspBridge_refused h r ((bridgeShape_iff _).mpr hs)
    · intro hs hu hm
      have sent := fspBridge_sent h r ((bridgeShape_iff _).mpr hs) hu hm
      rwa [bridgeMessage] at sent

end Sys2Proof.Machine
end

section
/-! PROOF. Update requests (R69, R473 to R475, R481): the checks of a step, the semaphore that a step holds, and FWU.STEP. -/

namespace Sys2Proof.Machine

section UpdateSteps

variable (s : State)

/-! ### The conditions of a step (R475) -/

theorem stepReason_locked (u : UpdStep) (h : s.fsp.ownerLock = true) : stepReason s u = 0x0804 := if_pos h

/-- The hold-up store is the last condition but one. -/
def lowOr (s : State) (n : Nat) : Nat := if s.pwr.charge < 90 then 0x0803 else n

theorem stepReason_store (h : s.fsp.ownerLock = false) :
    stepReason s .begin = lowOr s 0 ∧ stepReason s .chunk = lowOr s 0 ∧ stepReason s .confirm = lowOr s 0 := by
  simp [stepReason, lowOr, h]

theorem stepReason_free (h : s.fsp.ownerLock = false) : stepReason s .data = 0 ∧ stepReason s .cancel = 0 := by
  simp [stepReason, h]

theorem stepReason_verify (h : s.fsp.ownerLock = false) :
    stepReason s .verify = if s.fwu.phase = .downloaded ∨ s.fwu.phase = .verified then 0 else 0x0806 := by
  by_cases hd : s.fwu.phase = .downloaded
  · simp [stepReason, h, hd]
  · by_cases hv : s.fwu.phase = .verified <;> simp [stepReason, h, hd, hv]

theorem stepReason_activate (a : Nat) (q fl : Bool) (h : s.fsp.ownerLock = false) :
    stepReason s (.activate a q fl) = if s.fwu.phase ≠ .verified then 0x0806 else if a ≠ 0 ∧ fl = false then 0x0808
      else if a ≠ 0 ∧ a ≤ now s then 0x0807 else lowOr s (if a = 0 ∧ q = false ∧ anyMoving s = true then 0x0805 else 0) := by
  simp [stepReason, lowOr, h, and_assoc]

/-- A step that passes leaves a clear check. -/
theorem stepCheck_passed (u : UpdStep) (h : stepReason s u = 0) : stepCheck s u = (setCheck s .fwu 0 0, 0) := by
  simp [stepCheck, h]

/-- One that does not leaves its reason, and is counted. -/
theorem stepCheck_refused (u : UpdStep) (h : stepReason s u ≠ 0) :
    stepCheck s u = (count (setCheck s .fwu (stepReason s u) 0xFF) .fwu 3, stepReason s u) := by
  simp [stepCheck, h]

/-! ### A step by FSP holds SEM2 (R69, R473) -/

theorem updStep_busy (r : FspReq) (u : UpdStep) (f : State → State) (h : coreBlocked s 2) :
    ∃ x, updStep s r u f = reply { s with masters := x } r 7 (leBytes 4 (fwuState s).toNat) := by
  obtain ⟨x, e⟩ := coreTakes_of_blocked s 2 h
  refine ⟨x, ?_⟩
  unfold updStep
  rw [e]
  rfl

theorem updStep_passed (r : FspReq) (u : UpdStep) (f : State → State) (h : ¬ coreBlocked s 2) (hr : stepReason (coreTook s 2) u = 0) :
    updStep s r u f = f (setCheck (coreTook s 2) .fwu 0 0) := by
  unfold updStep
  rw [coreTakes_of_not_blocked s 2 h]
  dsimp only
  rw [stepCheck_passed _ u hr]
  rfl

theorem updStep_refused (r : FspReq) (u : UpdStep) (f : State → State) (h : ¬ coreBlocked s 2) (hr : stepReason (coreTook s 2) u ≠ 0) :
    updStep s r u f = reply (coreGives (count (setCheck (coreTook s 2) .fwu (stepReason (coreTook s 2) u) 0xFF) .fwu 3) 2) r 6
      (leBytes 2 (stepReason (coreTook s 2) u)) := by
  unfold updStep
  rw [coreTakes_of_not_blocked s 2 h]
  dsimp only
  rw [stepCheck_refused _ u hr]
  exact if_pos (bne_iff_ne.mpr hr)

theorem statusFsp_busy (r : FspReq) (h : coreBlocked s 2) :
    ∃ x, statusFsp s r = reply { s with masters := x } r 7 (leBytes 4 (fwuState s).toNat) := by
  obtain ⟨x, e⟩ := coreTakes_of_blocked s 2 h
  refine ⟨x, ?_⟩
  unfold statusFsp
  rw [e]
  rfl

theorem statusFsp_answered (r : FspReq) (h : ¬ coreBlocked s 2) :
    statusFsp s r = reply (coreGives (coreTook s 2) 2) r 0 (leBytes 4 (fwuState (coreTook s 2)).toNat
      ++ leBytes 4 (candidateWord (coreTook s 2)) ++ leBytes 4 (rollbackWord (coreTook s 2)) ++ leBytes 4 (downloadWord (coreTook s 2))
      ++ leBytes 8 (scheduleTai (coreTook s 2))) := by
  unfold statusFsp
  rw [coreTakes_of_not_blocked s 2 h]

/-- The states in which a download may touch nothing. -/
theorem downloadBusy_iff :
    downloadBusy s = true ↔ s.fwu.phase = .scheduled ∨ s.fwu.phase = .activating ∨ s.fwu.phase = .trial := by
  simp only [downloadBusy, Bool.or_eq_true, beq_iff_eq, or_assoc]

/-! ### A step by FWU.STEP (R481) -/

/-- A write of FWU.STEP with the right. -/
theorem fwuStep_answers (m : Master) (v : Word) (h : Safety.canWrite s m (.page .fwu 0x040) = true) :
    Safety.answers (finish s (regWrite s m .fwu 0x040 v)) s (fwuStepWrite s v) :=
  answers_of_eq (finish_answers s _)
    (regWrite_block s m .fwu 0x040 v (roR 0x040) (by decide) (by decide) (by decide) rfl rfl h)

/-- A step that the check lets pass. -/
def checkedStep (s : State) (u : UpdStep) (f : State → State) : State :=
  if (stepCheck s u).2 = 0 then f (stepCheck s u).1 else (stepCheck s u).1

theorem checkedStep_passed (u : UpdStep) (f : State → State) (h : stepReason s u = 0) : checkedStep s u f = f (setCheck s .fwu 0 0) := by
  rw [checkedStep, stepCheck_passed s u h, if_pos rfl]

theorem checkedStep_refused (u : UpdStep) (f : State → State) (h : stepReason s u ≠ 0) :
    checkedStep s u f = count (setCheck s .fwu (stepReason s u) 0xFF) .fwu 3 := by
  rw [checkedStep, stepCheck_refused s u h, if_neg h]

/-- FWU.STEP starts VERIFY, CONFIRM or CANCEL by its code. -/
theorem fwuStepWrite_eq : fwuStepWrite s 1 = checkedStep s .verify verifyOp ∧ fwuStepWrite s 2 = checkedStep s .confirm confirmOp
    ∧ fwuStepWrite s 3 = checkedStep s .cancel cancelOp := ⟨rfl, rfl, rfl⟩

/-- A row that answers a checked step. -/
theorem checkedStep_answers {c : Instr} {u : UpdStep} {f : State → State} (h : Safety.answers (exec c s) s (checkedStep s u f)) :
    (stepReason s u = 0 → Safety.answers (exec c s) s (f (setCheck s .fwu 0 0)))
      ∧ (stepReason s u ≠ 0 → Safety.answers (exec c s) s (count (setCheck s .fwu (stepReason s u) 0xFF) .fwu 3)) :=
  ⟨fun hr => answers_of_eq h (checkedStep_passed s u f hr), fun hr => answers_of_eq h (checkedStep_refused s u f hr)⟩

end UpdateSteps

/-- Settles O57: the requests by `fspRow_requests`, a step by what `coreTakes` and the check leave. That VERIFY is answered at its
acceptance, the lengths of DL_BEGIN, and BUSY for DL_CHUNK are the model's (log entry 42). -/
theorem updateRows : Obligations.UpdateRows := by
  unfold Obligations.UpdateRows
  refine ⟨fun s dg => ?requests, fun m s hc => ?register, fun s => ?reasons, fun s r u f => ?step, fun h r => ?operations⟩
  case requests =>
    refine ⟨?dlBegin, ?dlData, ?dlChunk, ?verify, ?activate, ?confirm, ?cancel, ?status⟩
    case dlBegin => exact fixedLength_requests s dg rfl
    case dlData =>
      exact fspRow_requests s dg _ _ (fun n => 4 ≤ n && n ≤ 1028) _ _ _ _
        (fun n => by rw [Bool.and_eq_true, decide_eq_true_eq, decide_eq_true_eq]) rfl
    case dlChunk => exact fixedLength_requests s dg rfl
    case verify => exact fixedLength_requests s dg rfl
    case activate => exact fixedLength_requests s dg rfl
    case confirm => exact fixedLength_requests s dg rfl
    case cancel => exact fixedLength_requests s dg rfl
    case status => exact fixedLength_requests s dg rfl
  case register =>
    obtain ⟨verify, confirm, cancel⟩ := fwuStepWrite_eq s
    exact ⟨checkedStep_answers s (c := .verify (.register m)) (answers_of_eq (fwuStep_answers s m 1 hc) verify),
      checkedStep_answers s (c := .confirm (.register m)) (answers_of_eq (fwuStep_answers s m 2 hc) confirm),
      checkedStep_answers s (c := .cancel (.register m)) (answers_of_eq (fwuStep_answers s m 3 hc) cancel)⟩
  case reasons =>
    refine ⟨fun hl u => stepReason_locked s u hl, fun hl => ?_⟩
    obtain ⟨hb, hk, hc⟩ := stepReason_store s hl
    obtain ⟨hd, hn⟩ := stepReason_free s hl
    exact ⟨hb, hk, hc, hd, hn, stepReason_verify s hl, fun a q fl => stepReason_activate s a q fl hl⟩
  case step => exact ⟨updStep_busy s r u f, updStep_passed s r u f, updStep_refused s r u f⟩
  case operations =>
    exact ⟨rfl, rfl, rfl, rfl, rfl, rfl, rfl, downloadBusy_iff h, statusFsp_busy h r, statusFsp_answered h r⟩

end Sys2Proof.Machine
end

section
/-! PROOF. The activation of an image (R75, R157, R473, R474, R476, R477, R479): the end of its verification, its time, its pause, and
what CONFIRM and CANCEL do, one lemma for each branch of its operation. -/

namespace Sys2Proof.Machine

section Activation

variable (s : State)

/-! ### The end of a verification (R474) -/

/-- The result of the check of the slot that does not run. -/
def candidateCheck (s : State) : Nat := checkImage s (1 - runSlot s)

/-- STATE, LAST_RESULT and the candidate once the check has ended. -/
def verifyRecorded (s : State) : State :=
  { s with fwu := { s.fwu with
    phase := if candidateCheck s = 1 then .verified else .idle
    lastResult := candidateCheck s
    candidate := if candidateCheck s = 1 then some (readImage s (1 - runSlot s)) else s.fwu.candidate
    slots := if candidateCheck s = 1 then tput s.fwu.slots (1 - runSlot s) (readImage s (1 - runSlot s)) else s.fwu.slots } }

theorem verifyEnd_idle (h : s.fwu.phase ≠ .verifying) : verifyEnd s = s := if_pos (bne_iff_ne.mpr h)

theorem verifyEnd_checked (h : s.fwu.phase = .verifying) : verifyEnd s
    = stepGives (setEvt (if candidateCheck s = 1 then verifyRecorded s else count (verifyRecorded s) .fwu 2) .fwu 8) :=
  if_neg (by simp [h])

theorem verifyEnd_valid (h : s.fwu.phase = .verifying) (hr : candidateCheck s = 1) :
    verifyEnd s = stepGives (setEvt (verifyRecorded s) .fwu 8) := by
  rw [verifyEnd_checked s h, if_pos hr]

theorem verifyEnd_failed (h : s.fwu.phase = .verifying) (hr : candidateCheck s ≠ 1) :
    verifyEnd s = stepGives (setEvt (count (verifyRecorded s) .fwu 2) .fwu 8) := by
  rw [verifyEnd_checked s h, if_neg hr]

/-! ### The time of a scheduled activation (R477) -/

/-- A scheduled activation whose time has come. -/
def activationDue (s : State) : Prop := s.fwu.phase = .scheduled ∧ s.fwu.atTai ≤ now s

/-- What the conditions that are tested again then answer. -/
def dueReason (s : State) : Nat := if s.pwr.charge < 90 then 0x0803 else if !s.fwu.reqQuiesce && anyMoving s then 0x0805 else 0

/-- The result of that test in CHECK. -/
def dueTested (s : State) : State := setCheck (wake s 6) .fwu (dueReason s) (if dueReason s = 0 then 0 else 0xFF)

theorem scheduleDue_early (h : ¬ activationDue s) : scheduleDue s = s := by
  have early : s.fwu.phase ≠ .scheduled ∨ now s < s.fwu.atTai := (Decidable.not_and_iff_not_or_not.mp h).imp_right Nat.not_le.mp
  refine if_pos ?_
  rwa [Bool.or_eq_true, bne_iff_ne, decide_eq_true_eq]

theorem scheduleDue_due (h : activationDue s) : scheduleDue s = if dueReason s = 0
    then progressAll (modFwu (dueTested s) fun f => { f with phase := .activating, quiesce := f.reqQuiesce, atTai := 0 })
    else raise (modFwu (dueTested s) fun f => { f with phase := .verified, lastResult := 9, atTai := 0 }) .fwu 13 :=
  if_neg (by simp [h.1, h.2])

/-! ### The pause (R157, R476) -/

/-- A prepared activation may pause: every transport is at rest where that was asked. -/
def mayPause (s : State) : Prop :=
  s.fwu.phase = .activating ∧ s.fwu.prepared = true ∧ s.fwu.paused = false ∧ (s.fwu.quiesce = true → quiesced s = true)

/-- The test of `pauseOp` is that one. -/
theorem pauseTest_iff : (s.fwu.phase != .activating || !s.fwu.prepared || s.fwu.paused || (s.fwu.quiesce && !quiesced s)) = true
    ↔ ¬ mayPause s := by
  simp only [mayPause, Bool.or_eq_true, bne_iff_ne, Bool.not_eq_true', Bool.and_eq_true]
  cases s.fwu.prepared <;> cases s.fwu.paused <;> cases s.fwu.quiesce <;> cases quiesced s <;> simp

theorem pauseOp_waits (h : ¬ mayPause s) : pauseOp s = s := if_pos ((pauseTest_iff s).mpr h)

theorem pauseOp_noSector (h : mayPause s) (hs : selectUnits s (1 - s.fwu.block) = none) : pauseOp s = prepareEnd s false := by
  unfold pauseOp
  rw [if_neg fun c => (pauseTest_iff s).mp c h, hs]

theorem pauseOp_pauses (us : List NvUnit) (h : mayPause s) (hs : selectUnits s (1 - s.fwu.block) = some us) :
    pauseOp s = modFwu (us.foldl applyUnit (stopCalibration s)) fun f =>
      { f with paused := true, pausedAt := clock s, pausedTai := now s } := by
  unfold pauseOp
  rw [if_neg fun c => (pauseTest_iff s).mp c h, hs]

/-! ### The end of the pause (R75, R157) -/

/-- The new image runs in trial, and the leases run on. -/
def inTrialNow (s : State) : State :=
  modFwu (leasesRunOn s) fun f =>
    { f with paused := false, phase := .trial, lastResult := 1, quiesce := false, byCid := none, prepared := false, candidate := none }

/-- What waited for the end of the pause is posted. -/
def pausePosted (s : State) : State :=
  let t := sendHeldAll (convertRecord (raise (count (inTrialNow s) .fwu 0) .fwu 9))
  flushMsix (flushMsix (postWaiting (postWaiting t .a) .b) .a) .b

theorem resumeOp_unpaused (h : s.fwu.paused = false) : resumeOp s = s := if_pos (by simp [h])

theorem resumeOp_alone (h : s.fwu.paused = true) (hc : s.fwu.byCid = none) :
    resumeOp s = progressAll (skim (feed (pausePosted s))) := by
  unfold resumeOp
  rw [if_neg (by simp [h]), hc]
  rfl

/-- The capsule that asked completes then, with the TAI of the pause's start (log entry 42). -/
theorem resumeOp_completes (c : Nat) (t : State) (h : s.fwu.paused = true) (hc : s.fwu.byCid = some c) (ht : t = pausePosted s) :
    resumeOp s = progressAll (skim (feed (complete t c (0, 0) t.fwu.pausedTai))) := by
  rw [ht]
  unfold resumeOp
  rw [if_neg (by simp [h]), hc]
  dsimp only [pausePosted, inTrialNow]

/-! ### ACTIVATE, CONFIRM, CANCEL (R473, R476, R479) -/

/-- The prepare part stands in the management queue (R460). -/
def prepareQueued (s : State) : State :=
  modNvq s .mgmt fun x => { x with fetched := x.fetched
    ++ [{ op := 5, flags := 2, reserved := false, length := 0, addr := 1 - runSlot s, ptr := 0 }] }

/-- What an accepted activation leaves of the update part, over the prepare part that it queues. -/
theorem modFwu_prepareOp (f : FwuSt → FwuSt) : modFwu (prepareOp s) f
    = { prepareQueued s with fwu := f { (prepareQueued s).fwu with prepared := false } } := by
  have queued : prepareOp s = modFwu (prepareQueued s) fun f => { f with prepared := false } := rfl
  rw [queued]
  generalize prepareQueued s = p
  rfl

theorem activateOp_now (a : Nat) (q : Bool) (cid : Option Nat) (h : a = 0) :
    activateOp s a q cid = progressAll { prepareQueued s with fwu := { (prepareQueued s).fwu with
      prepared := false, phase := .activating, quiesce := q, byCid := cid } } :=
  (if_pos h).trans (congrArg progressAll (modFwu_prepareOp s _))

theorem activateOp_later (a : Nat) (q : Bool) (cid : Option Nat) (h : a ≠ 0) :
    activateOp s a q cid = raise { prepareQueued s with fwu := { (prepareQueued s).fwu with
      prepared := false, phase := .scheduled, reqQuiesce := q, atTai := a } } .fwu 12 :=
  (if_neg h).trans (congrArg (raise · .fwu 12) (modFwu_prepareOp s _))

theorem confirmOp_unchanged (h : s.fwu.phase ≠ .trial) : confirmOp s = s := if_pos (bne_iff_ne.mpr h)

theorem confirmOp_trial (h : s.fwu.phase = .trial) :
    confirmOp s = raise (modFwu (dropOtherFormats (applyUnit s (.program (bootBase s.fwu.block + 57 * 4096)
      (crcWord (runImage s).svn 0xC0F1)))) fun f => { f with phase := .idle, lastResult := 1 }) .fwu 10 :=
  if_neg (by simp [h])

end Activation

/-- Settles O58: each clause is the branch of its row's operation that the clause's hypotheses select. That a pause stops calibrations,
and that the capsule that asked completes at its end with the TAI of its start, are the model's reading (log entry 42). -/
theorem activationRows : Obligations.ActivationRows := by
  unfold Obligations.ActivationRows
  intro s
  refine ⟨?notVerifying, ?valid, ?invalid, ?early, ?activates, ?fails, ?waits, ?noSector, ?pauses, ?unpaused, ?resumes, ?activate,
    ?confirmNone, ?confirm, ?cancel, ?cancelNone⟩
  case notVerifying => exact fun h => answers_of_eq (finish_answers s _) (verifyEnd_idle s h)
  case valid => exact fun h hr => answers_of_eq (finish_answers s _) (verifyEnd_valid s h hr)
  case invalid => exact fun h hr => answers_of_eq (finish_answers s _) (verifyEnd_failed s h hr)
  case early => exact fun h => answers_of_eq (finish_answers s _) (scheduleDue_early s h)
  case activates => exact fun h hr => answers_of_eq (finish_answers s _) ((scheduleDue_due s h).trans (if_pos hr))
  case fails => exact fun h hr => answers_of_eq (finish_answers s _) ((scheduleDue_due s h).trans (if_neg hr))
  case waits => exact fun h => answers_of_eq (finish_answers s _) (pauseOp_waits s h)
  case noSector => exact fun h hs => answers_of_eq (finish_answers s _) (pauseOp_noSector s h hs)
  case pauses => exact fun us h hs => answers_of_eq (finish_answers s _) (pauseOp_pauses s us h hs)
  case unpaused => exact fun h => answers_of_eq (finish_answers s _) (resumeOp_unpaused s h)
  case resumes =>
    exact fun h => ⟨fun hc => answers_of_eq (finish_answers s _) (resumeOp_alone s h hc),
      fun c hc => answers_of_eq (finish_answers s _) (resumeOp_completes s c _ h hc rfl)⟩
  case activate =>
    intro a q cid
    have now := activateOp_now s a q cid
    have later := activateOp_later s a q cid
    rw [prepareQueued] at now later
    exact ⟨now, later⟩
  case confirmNone => exact confirmOp_unchanged s
  case confirm => exact confirmOp_trial s
  case cancel => exact fun h => if_pos h
  case cancelNone => exact fun h => if_neg h

end Sys2Proof.Machine
end

section
/-! PROOF. The cut of a WRITE into segments (R108): what the segments hold, how large they are, and how many there can be. -/

namespace Sys2Proof.Machine

section Cut

/-- The second of two segments opens with a record that the first had no room for (R108). -/
def noRoom (g h : List Nat) : Prop := 16777216 < g.sum + h.headD 0

/-- Of every two neighbours the first had no room for the record that opens the second. -/
def packed : List (List Nat) → Prop
  | g :: h :: gs => noRoom g h ∧ packed (h :: gs)
  | _ => True

theorem packed_cons_cons (g h : List Nat) (gs : List (List Nat)) : packed (g :: h :: gs) ↔ noRoom g h ∧ packed (h :: gs) := Iff.rfl

theorem packed_tail {g : List Nat} {gs : List (List Nat)} (hp : packed (g :: gs)) : packed gs := by
  cases gs with
  | nil => trivial
  | cons h gs => exact hp.2

/-- What being packed says of the segments by their numbers. -/
theorem noRoom_of_packed (gs : List (List Nat)) (hp : packed gs) (i : Nat) (g h : List Nat) (hg : gs[i]? = some g)
    (hh : gs[i + 1]? = some h) : noRoom g h := by
  induction gs generalizing i with
  | nil => simp at hg
  | cons a gs ih =>
    cases i with
    | succ i => exact ih (packed_tail hp) i hg hh
    | zero =>
      cases gs with
      | nil => simp at hh
      | cons b gs =>
        obtain rfl : a = g := by simpa using hg
        obtain rfl : b = h := by simpa using hh
        exact hp.1

theorem cutSegs_joins {r t : Nat} {acc : List Nat} (rest : List Nat) (h : acc = [] ∨ t + r ≤ 16777216) :
    cutSegs (r :: rest) t acc = cutSegs rest (t + r) (r :: acc) := if_pos (by simpa using h)

theorem cutSegs_cuts {r t : Nat} {acc : List Nat} (rest : List Nat) (ha : acc ≠ []) (h : 16777216 < t + r) :
    cutSegs (r :: rest) t acc = acc.reverse :: cutSegs rest r [r] := if_neg (by simp [ha]; omega)

theorem cutSegs_end {t : Nat} {acc : List Nat} (ha : acc ≠ []) : cutSegs [] t acc = [acc.reverse] := if_neg (by simpa using ha)

/-- No segment is empty or larger than 16 MiB. -/
theorem cutSegs_sizes (ls acc : List Nat) (hl : ∀ l ∈ ls, l ≤ 16777216) (hs : acc.sum ≤ 16777216) :
    ∀ g ∈ cutSegs ls acc.sum acc, g ≠ [] ∧ g.sum ≤ 16777216 := by
  induction ls generalizing acc with
  | nil =>
    by_cases ha : acc = []
    · simp [ha, cutSegs]
    · simp [cutSegs_end ha, ha, hs]
  | cons r rest ih =>
    obtain ⟨hr, hrest⟩ := List.forall_mem_cons.mp hl
    by_cases h : acc = [] ∨ acc.sum + r ≤ 16777216
    · have sum : (r :: acc).sum = acc.sum + r := by rw [List.sum_cons, Nat.add_comm]
      have room : (r :: acc).sum ≤ 16777216 := by
        rcases h with rfl | h
        · simpa using hr
        · omega
      rw [cutSegs_joins rest h, ← sum]
      exact ih (r :: acc) hrest room
    · obtain ⟨ha, hc⟩ := not_or.mp h
      rw [cutSegs_cuts rest ha (by omega)]
      refine List.forall_mem_cons.mpr ⟨by simp [ha, hs], ?_⟩
      simpa using ih [r] hrest (by simpa using hr)

/-- The segment that is open goes on as the first one of the cut. -/
theorem cutSegs_head (ls acc : List Nat) (t : Nat) (ha : acc ≠ []) :
    ∃ g gs, cutSegs ls t acc = g :: gs ∧ g.headD 0 = acc.reverse.headD 0 := by
  induction ls generalizing t acc with
  | nil => exact ⟨_, _, cutSegs_end ha, rfl⟩
  | cons r rest ih =>
    by_cases h : t + r ≤ 16777216
    · obtain ⟨g, gs, e, hd⟩ := ih (r :: acc) (t + r) (by simp)
      refine ⟨g, gs, (cutSegs_joins rest (.inr h)).trans e, ?_⟩
      obtain ⟨a, l, hal⟩ := List.exists_cons_of_ne_nil (mt List.reverse_eq_nil_iff.mp ha)
      rw [hd, List.reverse_cons, hal]; rfl
    · exact ⟨_, _, cutSegs_cuts rest ha (by omega), rfl⟩

/-- No segment could have taken the first record of the next. -/
theorem cutSegs_packed (ls acc : List Nat) : packed (cutSegs ls acc.sum acc) := by
  induction ls generalizing acc with
  | nil =>
    by_cases ha : acc = []
    · subst ha; trivial
    · rw [cutSegs_end ha]; trivial
  | cons r rest ih =>
    by_cases h : acc = [] ∨ acc.sum + r ≤ 16777216
    · rw [cutSegs_joins rest h, show acc.sum + r = (r :: acc).sum by rw [List.sum_cons, Nat.add_comm]]
      exact ih (r :: acc)
    · obtain ⟨ha, hc⟩ := not_or.mp h
      have next := ih [r]
      obtain ⟨g, gs, e, hd⟩ := cutSegs_head rest [r] r (by simp)
      rw [List.sum_singleton, e] at next
      rw [cutSegs_cuts rest ha (by omega), e, packed_cons_cons]
      refine ⟨?_, next⟩
      rw [noRoom, hd, List.sum_reverse]
      exact Nat.not_le.mp hc

theorem headD_le_sum (h : List Nat) : h.headD 0 ≤ h.sum := by
  cases h with
  | nil => exact Nat.le_refl _
  | cons a l => exact Nat.le_add_right ..

/-- Two neighbours hold more than 16 MiB together, so the segments hold at least 16 MiB a pair. -/
theorem pairs_le_sum : ∀ gs : List (List Nat), packed gs → 16777216 * (gs.length / 2) ≤ gs.flatten.sum
  | [], _ => by simp
  | [_], _ => by simp
  | g :: h :: gs, hp => by
    obtain ⟨pair, rest⟩ := hp
    have ih := pairs_le_sum gs (packed_tail rest)
    have first := headD_le_sum h
    unfold noRoom at pair
    simp only [List.flatten_cons, List.sum_append, List.length_cons]
    omega

end Cut

/-- Settles O25: the bound on the number follows, because two neighbouring segments hold more than 16 MiB together. -/
theorem segmentCut : Obligations.SegmentCut := by
  unfold Obligations.SegmentCut
  intro ls hl gs
  have whole : gs.flatten = ls := cutSegs_flatten ls 0 []
  have full : packed gs := cutSegs_packed ls []
  refine ⟨whole, cutSegs_sizes ls [] (fun l h => (hl l h).2) (by simp), noRoom_of_packed gs full, fun hs => ?_⟩
  have pairs := pairs_le_sum gs full
  rw [whole] at pairs
  omega

end Sys2Proof.Machine
end

section
/-! PROOF. COMMAND_START: the oldest capsule of an SQ at its turn (R98, R101, R127, R168, R509). -/

namespace Sys2Proof.Machine

section Start

variable (s : State) (p : Port) (q : Nat)

/-- The head of an inbox may be looked at: the SQ is enabled and not frozen, and its port is not frozen and sends (R98). -/
def sqRuns (s : State) (p : Port) (q : Nat) : Prop :=
  (sq s p q).enabled = true ∧ (sq s p q).frozen = false ∧ (mst s (portMaster p)).frozen = false ∧ portSends s p = true

/-- It is the turn of a capsule of SQ `x`, on a device SQ always (R127). -/
def atTurn (s : State) (x : Sq) (k : Capsule) : Prop := ∀ v, sqVol x = some v → turnOf s v k = true

theorem commandStart_answers (p : Port) (q : Fin 64) (ram : Option SramFault) :
    Safety.answers (exec (.commandStart p q ram) s) s (commandStart s p q.val ram) := finish_answers s _

variable {s p q}
variable {k : Capsule} {rest : List Capsule}

theorem getD_turn (x : Sq) (h : atTurn s x k) : ((sqVol x).map fun w => turnOf s w k).getD true = true := by
  cases e : sqVol x with
  | none => rfl
  | some v => exact h v e

theorem sqRuns_iff : sqRuns s p q
    ↔ (!(sq s p q).enabled || (sq s p q).frozen || (mst s (portMaster p)).frozen || !portSends s p) = false := by
  simp only [sqRuns, Bool.or_eq_false_iff, Bool.not_eq_false', and_assoc]

theorem commandStart_idle (ram : Option SramFault) (h : (sq s p q).inbox = [] ∨ ¬ sqRuns s p q) : commandStart s p q ram = s := by
  unfold commandStart
  dsimp only
  split
  · rfl
  · next e =>
    have stopped : ¬ sqRuns s p q := h.resolve_left (by simp only [e, reduceCtorEq, not_false_eq_true])
    exact if_pos (eq_true_of_ne_false (mt sqRuns_iff.mpr stopped))

section Head

variable (hi : (sq s p q).inbox = k :: rest) (hg : sqRuns s p q)
include hi hg

theorem commandStart_waits (ram : Option SramFault) (v : Nat) (hv : sqVol (sq s p q) = some v) (ht : turnOf s v k = false) :
    commandStart s p q ram = s := by
  obtain ⟨he, hf, hm, hs⟩ := hg
  simp [commandStart, hi, he, hf, hm, hs, hv, ht]

theorem commandStart_starts (ht : atTurn s (sq s p q) k) (hn : startStop s p q k = none) :
    commandStart s p q none = startCmd s p q k (sqVol (sq s p q)) := by
  obtain ⟨he, hf, hm, hs⟩ := hg
  simp [commandStart, hi, he, hf, hm, hs, getD_turn _ ht, sramHit, hn]

theorem commandStart_device (t : StartStop) (hv : sqVol (sq s p q) = none) (hn : startStop s p q k = some t) :
    commandStart s p q none = completeCapsule (nextFree s) p q k t.code t.result { reason := t.reason } := by
  obtain ⟨he, hf, hm, hs⟩ := hg
  simp [commandStart, hi, he, hf, hm, hs, hv, sramHit, hn]

theorem commandStart_lost (f : SramFault) (ht : atTurn s (sq s p q) k) (hk : f.kind = .uncorrectable) :
    commandStart s p q (some f) = completeCapsule (modSq (sramMet s f (pIdx p)) p q fun x =>
      { x with inbox := unreadable k :: x.inbox.tail }) p q (unreadable k) (4, 1) allOnes {} := by
  obtain ⟨he, hf, hm, hs⟩ := hg
  simp [commandStart, hi, he, hf, hm, hs, getD_turn _ ht, sramHit, hk]

theorem commandStart_corrected (f : SramFault) (ht : atTurn s (sq s p q) k) (hk : f.kind ≠ .uncorrectable)
    (hn : startStop (sramMet s f (pIdx p)) p q k = none) :
    commandStart s p q (some f) = startCmd (sramMet s f (pIdx p)) p q k (sqVol (sq s p q)) := by
  obtain ⟨he, hf, hm, hs⟩ := hg
  simp [commandStart, hi, he, hf, hm, hs, getD_turn _ ht, sramHit, hk, hn]

end Head

/-- A fault of an on-die SRAM leaves the queues as they are (R164). -/
theorem sq_sramMet (f : SramFault) (r : Nat) : sq (sramMet s f r) p q = sq s p q := by
  rw [sramMet_faultFrame s f r]; rfl

/-! ### The order of the conditions (R101, R509) -/

theorem startStop_notOwner (h : k.owned = false) : ∃ t, startStop s p q k = some t ∧ t.code = (2, 3) := by
  simp [startStop, h]

theorem startStop_opcode (h : k.owned = true) (ho : opcFlags (cOpc k.bytes) = none) :
    ∃ t, startStop s p q k = some t ∧ t.code = (2, 1) := by
  simp [startStop, capsuleFault, h, ho]

theorem startStop_disabled (h : k.owned = true) (hf : capsuleFault (sq s p q) k.bytes = none)
    (hd : (sq s p q).draining = true ∨ pageMissing s k.bytes (sqVol (sq s p q)) = true) :
    ∃ t, startStop s p q k = some t ∧ t.code = (2, 4) := by
  simp [startStop, h, hf, hd]

end Start

/-- Settles O21: each clause is the branch of COMMAND_START that its hypotheses select, or the first condition of R509 that holds. -/
theorem commandStartRow : Obligations.CommandStartRow := by
  unfold Obligations.CommandStartRow
  intro p q s k rest x go
  refine ⟨fun ram h => answers_of_eq (commandStart_answers s p q ram) (commandStart_idle ram h), fun hi hg => ?_,
    startStop_notOwner, startStop_opcode, startStop_disabled⟩
  refine ⟨?waits, ?starts, ?device, fun f ht => ⟨?lost, ?corrected⟩⟩
  case waits => exact fun v ram hv ht => answers_of_eq (commandStart_answers s p q ram) (commandStart_waits hi hg ram v hv ht)
  case starts =>
    intro ht hn
    obtain ⟨hq, frame⟩ := startCmd_spec s p q.val k (sqVol x)
    have hq' : sq (startCmd s p q.val k (sqVol x)) p q.val = { x with inbox := rest, sqhd := (x.sqhd + 1) % 65536 } := by
      rw [hq, hi, List.erase_cons_head]
    exact ⟨_, answers_of_eq (commandStart_answers s p q none) (commandStart_starts hi hg ht hn), hq', frame⟩
  case device =>
    exact fun hv t hn => answers_of_eq (commandStart_answers s p q none) (commandStart_device hi hg t hv hn)
  case lost =>
    intro hk
    refine ⟨_, ?_, answers_of_eq (commandStart_answers s p q (some f)) (commandStart_lost hi hg f ht hk)⟩
    rw [sq_modSq, sq_sramMet, hi, List.tail_cons]
  case corrected =>
    exact fun hk hn => answers_of_eq (commandStart_answers s p q (some f)) (commandStart_corrected hi hg f ht hk hn)

end Sys2Proof.Machine
end

section
/-! PROOF. Controls of submission queues: enable, disable and abort (R55, R93, R95, R97). -/

namespace Sys2Proof.Machine

/-- The result of a check (R39): one that passes has reason 0. -/
theorem setCheck_result (s : State) (pg : PageId) (r f : Nat) : setCheck s pg r f =
    if r = 0 then setPage s pg { page s pg with reason := 0, field := BitVec.ofNat 8 f }
    else setPage s pg { page s pg with reason := BitVec.ofNat 16 r, field := BitVec.ofNat 8 f, evt := (page s pg).evt ||| 1 } := by
  rw [setCheck_eq]
  split
  · next h => rw [h]; rfl
  · rfl

/-- A list of conditions, each with its reason, of which none holds gives no reason and no field (R95). -/
theorem passed_of_reasons {c : Prop} [Decidable c] {r f : Nat} {x : Nat × Nat} (hr : r ≠ 0) (h : x.1 = 0 → x = (0, 0)) :
    (if c then (r, f) else x).1 = 0 → (if c then (r, f) else x) = (0, 0) := by
  split
  · exact fun e => absurd e hr
  · exact h

section SqControls

variable (s : State) (p : Port) (q : Nat)

/-- A control of an SQ without RESTART acts by its lowest two bits, the abort first (R37, R93). -/
theorem sqCtrl_plain (v : Word) (h : v.toNat / 4 % 4 = 0) :
    sqCtrl s p q v = if v.getLsbD 1 then sqAbortOp s p q else if v.getLsbD 0 then sqEnableOp s p q else sqDisableOp s p q := by
  simp [sqCtrl, h]

section Rows

variable (m : Master) (q : Fin 64) (h : Safety.canWrite s m (.sq p q.val 0) = true)
include h

/-- A write of SQ[q].CTRL by a master with the right (R93). -/
theorem sqCtrlWrite_eq (v : Word) : mmioWrite s m (sqAddr p q.val 0) 0xF v = sqCtrl s p q.val v :=
  mmioWrite_sq s m p q.val 0 v q.isLt (by decide) rfl h

theorem sqEnable_answers : Safety.answers (exec (.sqEnable m p q) s) s (sqEnableOp s p q.val) :=
  answers_of_eq (finish_answers s _) ((sqCtrlWrite_eq s p m q h 1).trans (sqCtrl_plain s p q.val 1 rfl))

theorem sqDisable_answers : Safety.answers (exec (.sqDisable m p q) s) s (sqDisableOp s p q.val) :=
  answers_of_eq (finish_answers s _) ((sqCtrlWrite_eq s p m q h 0).trans (sqCtrl_plain s p q.val 0 rfl))

theorem sqAbort_answers : Safety.answers (exec (.sqAbort m p q) s) s (sqAbortOp s p q.val) :=
  answers_of_eq (finish_answers s _) ((sqCtrlWrite_eq s p m q h 2).trans (sqCtrl_plain s p q.val 2 rfl))

end Rows

variable {s p q}

/-! ### SQ_ENABLE (R95) -/

theorem sqEnableOp_draining (hd : (sq s p q).draining = true) : sqEnableOp s p q = setCheck s (.hp p) 2 0xFF := if_pos hd

theorem sqEnableOp_enabled (hd : (sq s p q).draining = false) (he : (sq s p q).enabled = true) : sqEnableOp s p q = s := by
  simp [sqEnableOp, hd, he]

theorem sqEnableOp_failed (hd : (sq s p q).draining = false) (he : (sq s p q).enabled = false) (hw : (sqCheck s p q).1 ≠ 0) :
    sqEnableOp s p q = setCheck s (.hp p) (sqCheck s p q).1 (sqCheck s p q).2 := by
  simp [sqEnableOp, hd, he, hw]

/-- A check that passes has no field to name. -/
theorem sqCheck_passed : (sqCheck s p q).1 = 0 → sqCheck s p q = (0, 0) :=
  passed_of_reasons (by decide) <| passed_of_reasons (by decide) <| passed_of_reasons (by decide) <|
    passed_of_reasons (by decide) <| passed_of_reasons (by decide) fun _ => rfl

theorem sqEnableOp_passed (hd : (sq s p q).draining = false) (he : (sq s p q).enabled = false) (hw : (sqCheck s p q).1 = 0) :
    sqEnableOp s p q = setSq (setCheck s (.hp p) 0 0) p q { sq s p q with
      enabled := true, frozen := false, sqhd := 0, inbox := [], ranges := [], lastEnd := 0, rangeWait := [], discarding := 0 } := by
  have kept : sq (setCheck s (.hp p) 0 0) p q = sq s p q := (setCheck_logFrame s (.hp p) 0 0).keeps.1 p q
  simp [sqEnableOp, hd, he, sqCheck_passed hw, modSq_eq, kept]

/-! ### SQ_DISABLE and SQ_ABORT (R55, R97) -/

theorem sqDisableOp_drains (he : (sq s p q).enabled = true) (hd : (sq s p q).draining = false) :
    sqDisableOp s p q = flushInbox (setSq s p q { sq s p q with draining := true }) p q := by
  simp [sqDisableOp, modSq_eq, he, hd]

theorem sqDisableOp_unchanged (h : (sq s p q).enabled = false ∨ (sq s p q).draining = true) : sqDisableOp s p q = s := by
  rcases h with h | h <;> simp [sqDisableOp, h]

/-- The started commands of an SQ that have not completed. -/
def liveOf (s : State) (p : Port) (q : Nat) : List Nat := liveCmds s fun _ c => c.port == p && c.sq == q

theorem mem_liveOf (c : Nat) : c ∈ liveOf s p q ↔ ∃ k ∈ s.cmds, k.1 = c ∧ k.2.phase ≠ .ended ∧ k.2.port = p ∧ k.2.sq = q := by
  simp only [liveOf, liveCmds, List.mem_map, List.mem_filter, Bool.and_eq_true, bne_iff_ne, beq_iff_eq, ne_eq]
  grind

theorem sqAbortOp_aborts (he : (sq s p q).enabled = true) : sqAbortOp s p q = flushInbox
    ((liveOf s p q).foldl (fun t c => complete t c (6, 5) (endResult t c 6))
      (setSq s p q { sq s p q with draining := true, aborting := true })) p q := if_pos he

theorem sqAbortOp_unchanged (he : (sq s p q).enabled = false) : sqAbortOp s p q = s := by
  simp [sqAbortOp, he]

end SqControls

/-- Settles O22: the check of an enable takes its conditions in the order stated, and a write of CTRL takes the branch that its bits
and the queue's state select. -/
theorem sqControlRows : Obligations.SqControlRows := by
  unfold Obligations.SqControlRows
  intro m p q s hc x hp check why
  have hcheck : ∀ r f, setCheck s (.hp p) r f = check r f := setCheck_result s (.hp p)
  have hwhy : sqCheck s p q.val = why := by
    simp [sqCheck, why, x]
  have enable := sqEnable_answers s p m q hc
  have disable := sqDisable_answers s p m q hc
  have abort := sqAbort_answers s p m q hc
  refine ⟨?draining, ?enabled, ?failed, ?passed, ?drains, ?notDrained, ?aborts, ?notAborted⟩
  case draining => exact fun hd => answers_of_eq enable ((sqEnableOp_draining hd).trans (hcheck ..))
  case enabled => exact fun hd he => answers_of_eq enable (sqEnableOp_enabled hd he)
  case failed =>
    rw [← hwhy]
    exact fun hd he hw => answers_of_eq enable ((sqEnableOp_failed hd he hw).trans (hcheck ..))
  case passed =>
    rw [← hwhy, ← hcheck]
    exact fun hd he hw => answers_of_eq enable (sqEnableOp_passed hd he hw)
  case drains => exact fun he hd => answers_of_eq disable (sqDisableOp_drains he hd)
  case notDrained => exact fun h => answers_of_eq disable (sqDisableOp_unchanged h)
  case aborts => exact fun he => ⟨liveOf s p q.val, mem_liveOf, answers_of_eq abort (sqAbortOp_aborts he)⟩
  case notAborted => exact fun he => answers_of_eq abort (sqAbortOp_unchanged he)

end Sys2Proof.Machine
end

section
/-! PROOF. Completion queues: enable and disable (R94, R95), the head and the posting of a waiting entry (R122), and the coalescing
time (R125). -/

namespace Sys2Proof.Machine

section Cqs

variable (s : State) (p : Port)

section Rows

variable (m : Master) (c : Fin 64)

/-- A write of CQ[c].CTRL by a master with the right (R94): ENABLE and IEN are its bits 0 and 2. -/
theorem cqCtrlWrite_eq (h : Safety.canWrite s m (.cq p c.val 0) = true) (v : Word) :
    mmioWrite s m (cqAddr p c.val 0) 0xF v = cqCtrl s p c.val v :=
  mmioWrite_cq s m p c.val 0 v c.isLt (by decide) rfl (by decide) (by decide) h

theorem cqHeadWrite_answers (v : Word) (h : Safety.canWrite s m (.cq p c.val 0x1C) = true) :
    Safety.answers (exec (.cqHeadWrite m p c v) s) s (cqHead s p c.val v) :=
  answers_of_eq (finish_answers s _) (mmioWrite_cq s m p c.val 0x1C v c.isLt (by decide) rfl (by decide) (by decide) h)

theorem cqPost_answers : Safety.answers (exec (.cqPost p c) s) s (cqPostRow s p c.val) := finish_answers s _
theorem coalTimeExpiry_answers : Safety.answers (exec (.coalTimeExpiry p c) s) s (coalExpire s p c.val) := finish_answers s _

end Rows

variable (c : Nat) (ien : Bool)

/-! ### CQ_ENABLE and CQ_DISABLE (R94, R95) -/

/-- IEN of a CQ as a write of its CTRL leaves it. -/
def withIen (s : State) (p : Port) (c : Nat) (ien : Bool) : State := setCq s p c { cq s p c with ien := ien }

/-- What an enable makes of CQ `x`: nothing posted, nothing consumed and nothing waiting (R95). -/
def startedCq (x : Cq) : Cq := { x with enabled := true, head := 0, tail := 0, phase := true, waiting := [], coalN := 0 }

@[simp] theorem cq_withIen : cq (withIen s p c ien) p c = { cq s p c with ien := ien } := cq_setCq ..

theorem port_withIen_sqs : (port (withIen s p c ien) p).sqs = (port s p).sqs := by
  rw [withIen, setCq, modPort_eq, port_setPort]

/-- The check of an enable does not look at IEN. -/
theorem cqCheck_withIen : cqCheck (withIen s p c ien) p c = cqCheck s p c := by
  simp only [cqCheck, cq_withIen]; rfl

theorem cqNamed_withIen : cqNamed (withIen s p c ien) p c = cqNamed s p c := by
  rw [cqNamed, port_withIen_sqs]; rfl

/-- A check that passes has no field to name. -/
theorem cqCheck_passed : (cqCheck s p c).1 = 0 → cqCheck s p c = (0, 0) :=
  passed_of_reasons (by decide) <| passed_of_reasons (by decide) <| passed_of_reasons (by decide) <|
    passed_of_reasons (by decide) <| passed_of_reasons (by decide) fun _ => rfl

/-- What ENABLE 1 does (R95). -/
def cqEnableOp (s : State) (p : Port) (c : Nat) (ien : Bool) : State :=
  if (cq s p c).enabled then withIen s p c ien
  else if (cqCheck s p c).1 = 0 then setCq (setCheck (withIen s p c ien) (.hp p) 0 0) p c (startedCq { cq s p c with ien := ien })
  else setCheck (withIen s p c ien) (.hp p) (cqCheck s p c).1 (cqCheck s p c).2

/-- What ENABLE 0 does (R95). -/
def cqDisableOp (s : State) (p : Port) (c : Nat) (ien : Bool) : State :=
  if (cq s p c).enabled = false then withIen s p c ien
  else if cqNamed s p c then setCheck (withIen s p c ien) (.hp p) 4 0xFF
  else setCq (withIen s p c ien) p c { cq s p c with ien := ien, enabled := false, waiting := [], coalN := 0 }

theorem cqCtrl_of_enable (v : Word) (h : v.getLsbD 0 = true) (hi : v.getLsbD 2 = ien) : cqCtrl s p c v = cqEnableOp s p c ien := by
  have written : modCq s p c (fun x => { x with ien := ien }) = withIen s p c ien := rfl
  have kept := (setCheck_logFrame (withIen s p c ien) (.hp p) 0 0).keeps.2.1 p c
  simp only [cqCtrl, cqEnableOp, h, hi, written, cq_withIen, cqCheck_withIen, if_true]
  by_cases hw : (cqCheck s p c).1 = 0
  · simp [cqCheck_passed s p c hw, modCq_eq, kept, startedCq]
  · simp [hw]

theorem cqCtrl_of_disable (v : Word) (h : v.getLsbD 0 = false) (hi : v.getLsbD 2 = ien) : cqCtrl s p c v = cqDisableOp s p c ien := by
  have written : modCq s p c (fun x => { x with ien := ien }) = withIen s p c ien := rfl
  simp only [cqCtrl, cqDisableOp, h, hi, written, cqNamed_withIen, modCq_eq, cq_withIen]
  simp

theorem cqEnable_answers (m : Master) (c : Fin 64) (h : Safety.canWrite s m (.cq p c.val 0) = true) :
    Safety.answers (exec (.cqEnable m p c ien) s) s (cqEnableOp s p c.val ien) := by
  refine answers_of_eq (finish_answers s _) ((cqCtrlWrite_eq s p m c h _).trans ?_)
  cases ien
  · exact cqCtrl_of_enable s p c.val _ 1 rfl rfl
  · exact cqCtrl_of_enable s p c.val _ 5 rfl rfl

theorem cqDisable_answers (m : Master) (c : Fin 64) (h : Safety.canWrite s m (.cq p c.val 0) = true) :
    Safety.answers (exec (.cqDisable m p c ien) s) s (cqDisableOp s p c.val ien) := by
  refine answers_of_eq (finish_answers s _) ((cqCtrlWrite_eq s p m c h _).trans ?_)
  cases ien
  · exact cqCtrl_of_disable s p c.val _ 0 rfl rfl
  · exact cqCtrl_of_disable s p c.val _ 4 rfl rfl

variable {s p c}

theorem cqEnableOp_enabled (he : (cq s p c).enabled = true) : cqEnableOp s p c ien = withIen s p c ien := if_pos he

theorem cqEnableOp_failed (he : (cq s p c).enabled = false) (hw : (cqCheck s p c).1 ≠ 0) :
    cqEnableOp s p c ien = setCheck (withIen s p c ien) (.hp p) (cqCheck s p c).1 (cqCheck s p c).2 := by
  simp [cqEnableOp, he, hw]

theorem cqEnableOp_passed (he : (cq s p c).enabled = false) (hw : (cqCheck s p c).1 = 0) : cqEnableOp s p c ien
    = setCq (setCheck (withIen s p c ien) (.hp p) 0 0) p c (startedCq { cq s p c with ien := ien }) := by
  simp [cqEnableOp, he, hw]

theorem cqDisableOp_disabled (he : (cq s p c).enabled = false) : cqDisableOp s p c ien = withIen s p c ien := if_pos he

/-- Some enabled SQ of a port names CQ `c`. -/
def namedBySq (s : State) (p : Port) (c : Nat) : Prop := ∃ e ∈ (port s p).sqs, e.2.enabled = true ∧ sqCq e.2 = c

theorem cqNamed_iff : cqNamed s p c = true ↔ namedBySq s p c := by
  simp [cqNamed, namedBySq]

theorem cqDisableOp_named (he : (cq s p c).enabled = true) (hn : namedBySq s p c) :
    cqDisableOp s p c ien = setCheck (withIen s p c ien) (.hp p) 4 0xFF := by
  simp [cqDisableOp, he, cqNamed_iff.mpr hn]

theorem cqDisableOp_free (he : (cq s p c).enabled = true) (hn : ¬ namedBySq s p c) : cqDisableOp s p c ien
    = setCq (withIen s p c ien) p c { cq s p c with ien := ien, enabled := false, waiting := [], coalN := 0 } := by
  simp [cqDisableOp, he, mt cqNamed_iff.mp hn]

/-! ### CQ_HEAD_WRITE and CQ_POST (R122) -/

/-- A written HEAD is no entry of the queue, or lies beyond TAIL. -/
def headBad (x : Cq) (h : Nat) : Prop :=
  x.size.toNat ≤ h ∨ (x.tail + x.size.toNat - x.head) % x.size.toNat < (h + x.size.toNat - x.head) % x.size.toNat

theorem cqHead_bad (v : Word) (h : headBad (cq s p c) (v.toNat % 65536)) :
    cqHead s p c v = setPage s (.hp p) { page s (.hp p) with evt := (page s (.hp p)).evt ||| 0x2000 } := by
  rw [cqHead, if_pos (by simpa [headBad] using h)]
  rfl

theorem cqHead_set (v : Word) (h : ¬ headBad (cq s p c) (v.toNat % 65536)) :
    cqHead s p c v = setCq s p c { cq s p c with head := v.toNat % 65536 } := by
  rw [cqHead, if_neg (by simpa [headBad] using h)]
  rfl

theorem cqPostRow_unchanged (h : (cq s p c).waiting = [] ∨ (cq s p c).enabled = false
    ∨ ((cq s p c).tail + 1) % (cq s p c).size.toNat = (cq s p c).head ∨ s.fwu.paused = true ∨ (port s p).d3hot = true) :
    cqPostRow s p c = s :=
  if_pos (by simpa [cqFull, or_assoc] using h)

theorem cqPostRow_posts {e : CqEntry} {rest : List CqEntry} (hw : (cq s p c).waiting = e :: rest) (he : (cq s p c).enabled = true)
    (hf : ((cq s p c).tail + 1) % (cq s p c).size.toNat ≠ (cq s p c).head) (hp : s.fwu.paused = false) (hd : (port s p).d3hot = false) :
    cqPostRow s p c = progressAll (endIfFrozen (writeCqe (setCq s p c { cq s p c with waiting := rest }) p c e) p) := by
  simp [cqPostRow, cqPostNext, modCq_eq, cqFull, hw, he, hf, hp, hd]

/-! ### COAL_TIME_EXPIRY (R125) -/

theorem coalExpire_sends (hi : (cq s p c).ien = true) (hn : 0 < (cq s p c).coalN) (hp : s.fwu.paused = false)
    (hd : (port s p).d3hot = false) :
    coalExpire s p c = sendMsix (setCq s p c { cq s p c with coalN := 0 }) p ((cq s p c).irq.toNat % 128) := by
  simp [coalExpire, cqMessage, modCq_eq, hi, hn, hp, hd]

theorem coalExpire_unchanged (h : (cq s p c).ien = false ∨ (cq s p c).coalN = 0 ∨ s.fwu.paused = true ∨ (port s p).d3hot = true) :
    coalExpire s p c = s := by
  rcases h with h | h | h | h <;> simp [coalExpire, h]

end Cqs

/-- Settles O24: each clause is the branch of its operation that its hypotheses select. That entries count while IEN is 0 and that an
expiry in a pause is lost are the model's choices (log entry 19); that D3hot holds posts back rests on R506 (log entry 43). -/
theorem completionQueueRows : Obligations.CompletionQueueRows := by
  unfold Obligations.CompletionQueueRows
  intro m p c s x hp check n why
  have hcheck : ∀ ien r f, setCheck (withIen s p c.val ien) (.hp p) r f = check (withIen s p c.val ien) r f :=
    fun ien => setCheck_result (withIen s p c.val ien) (.hp p)
  have hwhy : cqCheck s p c.val = why := by
    simp [cqCheck, why, x, n]
  refine ⟨fun hc ien => ?ctrl, fun hc v => ?head, ?post, ?noPost, ?coal, ?noCoal⟩
  case ctrl =>
    have enable := cqEnable_answers s p ien m c hc
    have disable := cqDisable_answers s p ien m c hc
    refine ⟨?enabled, ?failed, ?passed, ?disabled, ?named, ?free⟩
    case enabled => exact fun he => answers_of_eq enable (cqEnableOp_enabled ien he)
    case failed =>
      rw [← hwhy]
      exact fun he hw => answers_of_eq enable ((cqEnableOp_failed ien he hw).trans (hcheck ..))
    case passed =>
      rw [← hwhy]
      exact fun he hw => answers_of_eq enable ((cqEnableOp_passed ien he hw).trans (by rw [hcheck]; rfl))
    case disabled => exact fun he => answers_of_eq disable (cqDisableOp_disabled ien he)
    case named => exact fun he hn => answers_of_eq disable ((cqDisableOp_named ien he hn).trans (hcheck ..))
    case free => exact fun he hn => answers_of_eq disable (cqDisableOp_free ien he hn)
  case head =>
    have answers := cqHeadWrite_answers s p m c v hc
    refine ⟨fun h1 h2 => answers_of_eq answers (cqHead_set v (not_or.mpr ⟨Nat.not_le.mpr h1, Nat.not_lt.mpr h2⟩)),
      fun h => answers_of_eq answers (cqHead_bad v h)⟩
  case post => exact fun e rest hw he hf hq hd => answers_of_eq (cqPost_answers s p c) (cqPostRow_posts hw he hf hq hd)
  case noPost => exact fun h => answers_of_eq (cqPost_answers s p c) (cqPostRow_unchanged h)
  case coal => exact fun hi hn hq hd => answers_of_eq (coalTimeExpiry_answers s p c) (coalExpire_sends hi hn hq hd)
  case noCoal => exact fun h => answers_of_eq (coalTimeExpiry_answers s p c) (coalExpire_unchanged h)

end Sys2Proof.Machine
end

section
/-! PROOF. The bodies of the write-type commands: WRITE, WRITE_MARK and SET_EOD (R105 to R108, R113, R133, R134). -/

namespace Sys2Proof.Machine

section WriteType

variable (s : State) (cid : Nat)

theorem setCmd_setCmd (i : Nat) (x y : Cmd) : setCmd (setCmd s i x) i y = setCmd s i y := by
  simp only [setCmd, tput_tput]

theorem modVol_modVol (v : Nat) (f g : Vol → Vol) : modVol (modVol s v f) v g = modVol s v fun x => g (f x) := by
  simp only [modVol_eq, vol_setVol]
  simp only [setVol, tput_tput]

/-! ### The rows -/

theorem write_answers : Safety.answers (exec (.write cid) s) s (runBody s cid 1 writeStart) := finish_answers s _
theorem writeMark_answers : Safety.answers (exec (.writeMark cid) s) s (runBody s cid 3 markStart) := finish_answers s _
theorem setEod_answers : Safety.answers (exec (.setEod cid) s) s (runBody s cid 0xB eodStart) := finish_answers s _

/-- A row that runs the body of a command, whose body comes to `t`. -/
theorem body_answers {s : State} {cid opc : Nat} {o : Host.Outcome State Fault Refusal} {body : State → Nat → State} {t : State}
    (h : Safety.answers o s (runBody s cid opc body)) (hb : Safety.begins s cid opc) (e : body s cid = t) :
    Safety.answers o s (progressOf t cid) :=
  answers_of_eq h ((runBody_of_begins s cid opc body hb).trans (by rw [e]))

/-- The same for a command whose body may not run. -/
theorem noBody_answers {s : State} {cid opc : Nat} {o : Host.Outcome State Fault Refusal} {body : State → Nat → State}
    (h : Safety.answers o s (runBody s cid opc body)) (hb : ¬ Safety.begins s cid opc) : Safety.answers o s s :=
  answers_of_eq h (runBody_of_not s cid opc body hb)

/-! ### The first LBN (R105) -/

/-- The first LBN of a write-type command: its LBN field, or end of data for all ones (R105). -/
def writeLbn (s : State) (cid : Nat) : Nat :=
  if cLbn (cmd s cid).bytes = allOnes then (vol s (cmdVol s cid)).eod else cLbn (cmd s cid).bytes

/-- A write-type command at its turn, with its first LBN resolved. -/
def resolved (s : State) (cid : Nat) : State := setCmd s cid { cmd s cid with lbn := writeLbn s cid, endLbn := writeLbn s cid }

theorem resolveLbn_eod : resolveLbn s cid (vol s (cmdVol s cid)).eod = resolved s cid := rfl

theorem cmd_resolved : cmd (resolved s cid) cid = { cmd s cid with lbn := writeLbn s cid, endLbn := writeLbn s cid } := cmd_setCmd ..

@[simp] theorem cmdVol_resolved : cmdVol (resolved s cid) cid = cmdVol s cid := by
  rw [cmdVol, cmd_resolved, cmdVol]

@[simp] theorem lbn_resolved : (cmd (resolved s cid) cid).lbn = writeLbn s cid := by rw [cmd_resolved]
@[simp] theorem bytes_resolved : (cmd (resolved s cid) cid).bytes = (cmd s cid).bytes := by rw [cmd_resolved]

theorem modCmd_resolved (f : Cmd → Cmd) : modCmd (resolved s cid) cid f
    = setCmd s cid (f { cmd s cid with lbn := writeLbn s cid, endLbn := writeLbn s cid }) := by
  rw [modCmd_eq, cmd_resolved, resolved, setCmd_setCmd]

/-! ### WRITE (R106, R107) -/

/-- The record-length list of a WRITE is asked for (R107). -/
def listAsked (s : State) (cid : Nat) : State :=
  emit (modCmd s cid fun c => { c with phase := .listWait })
    (.dmaRead (cmd s cid).port (leAt (cmd s cid).bytes 24 8) (4 * leAt (cmd s cid).bytes 20 4))

theorem listAsked_resolved : listAsked (resolved s cid) cid
    = emit (setCmd s cid { cmd s cid with lbn := writeLbn s cid, endLbn := writeLbn s cid, phase := .listWait })
        (.dmaRead (cmd s cid).port (leAt (cmd s cid).bytes 24 8) (4 * leAt (cmd s cid).bytes 20 4)) := by
  simp only [listAsked, modCmd_resolved, cmd_resolved]

/-- WRITE with RECORD_LENGTH 0 (R107). -/
theorem writeStart_list (h : leAt (cmd s cid).bytes 36 4 = 0) : writeStart s cid = writeList (resolved s cid) cid := by
  simp only [writeStart, resolveLbn_eod, bytes_resolved, h, if_true]

/-- WRITE with a record length (R106). -/
theorem writeStart_lengths (h : leAt (cmd s cid).bytes 36 4 ≠ 0) : writeStart s cid
    = writeTurn (setCmd s cid { cmd s cid with
        lbn := writeLbn s cid
        endLbn := writeLbn s cid
        segs := cutSegs (List.replicate (leAt (cmd s cid).bytes 20 4) (leAt (cmd s cid).bytes 36 4)) 0 [] }) cid := by
  simp only [writeStart, resolveLbn_eod, bytes_resolved, h, if_false, modCmd_resolved]

section RecordList

variable {s cid}

theorem writeList_beyond (h : (vol s (cmdVol s cid)).eod ≤ (cmd s cid).lbn) : writeList s cid = listAsked s cid := if_pos h

variable (h : (cmd s cid).lbn < (vol s (cmdVol s cid)).eod)
include h

theorem writeList_done {t : State} (ht : truncateAt s cid (cmdVol s cid) (cmd s cid).lbn = .done t) :
    writeList s cid = listAsked s cid := by
  simp only [writeList, if_neg (Nat.not_le.mpr h), ht]
  rfl

theorem writeList_wait {t : State} (ht : truncateAt s cid (cmdVol s cid) (cmd s cid).lbn = .wait t) : writeList s cid = t := by
  simp only [writeList, if_neg (Nat.not_le.mpr h), ht]

theorem writeList_fail {code : Code} {ds : Nat} (ht : truncateAt s cid (cmdVol s cid) (cmd s cid).lbn = .fail code ds) :
    writeList s cid = complete s cid code (if code.1 = 3 then (cmd s cid).lbn else 0) { dataSet := ds } := by
  simp only [writeList, if_neg (Nat.not_le.mpr h), ht]

end RecordList

/-! ### WRITE_MARK and SET_EOD (R113, R133) -/

/-- The segment without host data that a command makes: it has the volume's next segment sequence (R133). -/
def ownSeg (s : State) (cid marks : Nat) : Seg := bareSeg s cid (vol s (cmdVol s cid)).segNext marks

/-- That segment joins the volume. -/
def segJoined (s : State) (cid marks : Nat) : State :=
  modVol s (cmdVol s cid) fun x => { x with segNext := x.segNext + 1, segs := x.segs ++ [ownSeg s cid marks] }

theorem vol_segJoined (marks : Nat) : vol (segJoined s cid marks) (cmdVol s cid) = { vol s (cmdVol s cid) with
    segNext := (vol s (cmdVol s cid)).segNext + 1, segs := (vol s (cmdVol s cid)).segs ++ [ownSeg s cid marks] } := by
  rw [segJoined, vol_modVol, if_pos rfl]

/-- What WRITE_MARK leaves at its turn: its segment waits for admission behind the others of its transport (R133, R195). -/
def marksJoined (s : State) (cid : Nat) : State :=
  modCmd (modSlice (segJoined s cid (leAt (cmd s cid).bytes 16 4)) (cmdVol s cid / 4) fun x =>
    { x with toAdmit := x.toAdmit ++ [(cid, 0)] }) cid fun c => { c with phase := .transfer, endLbn := c.lbn }

theorem markTurn_beyond (h : (vol s (cmdVol s cid)).eod ≤ (cmd s cid).lbn) : markTurn s cid = marksJoined s cid := by
  rw [markTurn, afterTrunc_beyond s cid _ h]
  simp only [takeSeq, modVol_modVol]
  rfl

theorem vol_marksJoined (v : Nat) : vol (marksJoined s cid) v = vol (segJoined s cid (leAt (cmd s cid).bytes 16 4)) v := rfl

theorem marksJoined_transfer : (cmd (marksJoined s cid) cid).phase = .transfer := by
  rw [marksJoined, cmd_modCmd, if_pos rfl]

theorem marksJoined_toAdmit :
    (slice (marksJoined s cid) (cmdVol s cid / 4)).toAdmit = (slice s (cmdVol s cid / 4)).toAdmit ++ [(cid, 0)] := by
  rw [marksJoined, modCmd_eq, slice_setCmd, slice_modSlice, if_pos rfl]
  rfl

theorem eodTurn_beyond (h : (vol s (cmdVol s cid)).eod ≤ (cmd s cid).lbn) :
    eodTurn s cid = complete (bufferSeg (segJoined s cid 0) (ownSeg s cid 0)) cid (0, 0) 0 := by
  rw [eodTurn, afterTrunc_beyond s cid _ h]
  simp only [takeSeq, modVol_modVol]
  rfl

end WriteType

/-- Settles O26: a body that may run is its start, whose branches are the clauses; at or beyond end of data nothing is truncated. -/
theorem writeTypeRows : Obligations.WriteTypeRows := by
  unfold Obligations.WriteTypeRows
  intro cid s c v lbn w list
  have hw : resolved s cid = w := rfl
  have hv : cmdVol w cid = v := cmdVol_resolved s cid
  have hl : (cmd w cid).lbn = lbn := lbn_resolved s cid
  have hs : (vol w (cmdVol w cid)).segNext = (vol s v).segNext := congrArg (fun k => (vol s k).segNext) hv
  refine ⟨fun hb h0 => ?list, fun hb h0 => ?lengths, fun hb => ⟨?mark, fun he => ?markSeg⟩, fun hb => ⟨?eod, fun he => ?eodSeg⟩,
    ?beyond, ?segs, ?none⟩
  case list =>
    have start := writeStart_list s cid h0
    have asked : listAsked w cid = list := listAsked_resolved s cid
    rw [hw] at start
    refine ⟨fun he => ?_, fun he => ⟨fun t ht => ?_, fun t ht => ?_, fun code ds ht => ?_⟩⟩
    · exact body_answers (write_answers s cid) hb (start.trans ((writeList_beyond (by rw [hv, hl]; exact he)).trans asked))
    all_goals
      have inside : (cmd w cid).lbn < (vol w (cmdVol w cid)).eod := by rw [hv, hl]; exact he
      rw [← hv, ← hl] at ht
    · exact body_answers (write_answers s cid) hb (start.trans ((writeList_done inside ht).trans asked))
    · exact body_answers (write_answers s cid) hb (start.trans (writeList_wait inside ht))
    · exact body_answers (write_answers s cid) hb (start.trans (hl ▸ writeList_fail inside ht))
  case lengths => exact body_answers (write_answers s cid) hb (writeStart_lengths s cid h0)
  case mark => exact body_answers (writeMark_answers s cid) hb rfl
  case markSeg =>
    have turn : markTurn w cid = marksJoined w cid := markTurn_beyond w cid (by rw [hv, hl]; exact he)
    have joined := vol_segJoined w cid (leAt (cmd w cid).bytes 16 4)
    have queued := marksJoined_toAdmit w cid
    rw [hv] at joined queued
    have bytes : (cmd w cid).bytes = c.bytes := bytes_resolved s cid
    refine ⟨_, ownSeg w cid (leAt (cmd w cid).bytes 16 4), turn, ?_, hs, by rw [bytes]; rfl, hl, by rw [← hl]; rfl, ?_,
      marksJoined_transfer w cid, queued⟩
    · rw [vol_marksJoined, joined]; rfl
    · rw [vol_marksJoined, joined]; rfl
  case eod => exact body_answers (setEod_answers s cid) hb rfl
  case eodSeg =>
    have turn := eodTurn_beyond w cid (by rw [hv, hl]; exact he)
    have joined := vol_segJoined w cid 0
    rw [hv] at joined
    refine ⟨_, _, turn, ?_, hs, hl, hl, rfl, ?_⟩
    · rw [joined]; rfl
    · rw [joined]; rfl
  case beyond => exact fun t go hv he => afterTrunc_beyond t cid go (by rw [cmdVol, hv]; exact he)
  case segs =>
    rintro t rfl
    exact writeSegs_spec s cid
  case none =>
    exact ⟨noBody_answers (write_answers s cid), noBody_answers (writeMark_answers s cid), noBody_answers (setEod_answers s cid)⟩

end Sys2Proof.Machine
end

section
/-! PROOF. The data that the formatter's DMA reads bring, or fail to bring: a record-length list (R107), a scatter-list entry (R111) and
descriptors of an NVA queue (R458, R463, R507). -/

namespace Sys2Proof.Machine

section Dma

variable (s : State) (cid : Nat) (b : List Byte)

theorem dmaReadCompletion_answers (tgt : DmaTarget) :
    Safety.answers (exec (.dmaReadCompletion tgt b) s) s (dmaArrives s tgt b) := finish_answers s _

theorem dmaReadFailure_answers (tgt : DmaTarget) : Safety.answers (exec (.dmaReadFailure tgt) s) s (dmaFails s tgt) := finish_answers s _

/-- A command of opcode `opc` waits for data (R107, R111). -/
theorem waitsDma_iff (opc : Nat) : waitsDma s cid opc = true ↔ (cmd s cid).phase = .listWait ∧ leAt (cmd s cid).bytes 0 1 = opc := by
  simp [waitsDma, cOpc]

variable {s cid b}

/-! ### The target does not wait, or the data comes in a pause (R157) -/

theorem dmaArrives_list_idle (h : waitsDma s cid 1 = false) : dmaArrives s (.recordList cid) b = s := by
  simp [dmaArrives, h]

theorem dmaArrives_scatter_idle (h : waitsDma s cid 2 = false) : dmaArrives s (.scatter cid) b = s := by
  simp [dmaArrives, h]

theorem dmaArrives_list_paused (h : waitsDma s cid 1 = true) (hp : s.fwu.paused = true) :
    dmaArrives s (.recordList cid) b = keepDma s cid b := by
  simp [dmaArrives, h, hp]

theorem dmaArrives_scatter_paused (h : waitsDma s cid 2 = true) (hp : s.fwu.paused = true) :
    dmaArrives s (.scatter cid) b = keepDma s cid b := by
  simp [dmaArrives, h, hp]

/-! ### A record-length list (R107) -/

theorem dmaArrives_list_short (h : waitsDma s cid 1 = true) (hp : s.fwu.paused = false)
    (hd : ((cmd s cid).dma ++ b).length < 4 * leAt (cmd s cid).bytes 20 4) :
    dmaArrives s (.recordList cid) b = progressOf (setCmd s cid { cmd s cid with dma := (cmd s cid).dma ++ b }) cid := by
  simp only [dmaArrives, h, hp, cmdDma, if_pos hd]
  rfl

theorem dmaArrives_list_whole (h : waitsDma s cid 1 = true) (hp : s.fwu.paused = false)
    (hd : 4 * leAt (cmd s cid).bytes 20 4 ≤ ((cmd s cid).dma ++ b).length) : dmaArrives s (.recordList cid) b
      = progressOf (listArrived s cid (((cmd s cid).dma ++ b).take (4 * leAt (cmd s cid).bytes 20 4))) cid := by
  simp only [dmaArrives, h, hp, cmdDma, if_neg (Nat.not_lt.mpr hd)]
  rfl

/-- The record lengths that the bytes of a command's list spell. -/
def listed (s : State) (cid : Nat) (d : List Byte) : List Nat := (List.range (leAt (cmd s cid).bytes 20 4)).map fun i => leAt d (4 * i) 4

/-- A list is allowed: lengths of 1 to 16 MiB that make COUNT together (R107). -/
def listOk (s : State) (cid : Nat) (ls : List Nat) : Prop := (∀ l ∈ ls, 1 ≤ l ∧ l ≤ 16777216) ∧ ls.sum = leAt (cmd s cid).bytes 16 4

theorem listTest_iff (ls : List Nat) :
    (ls.all (within 1 16777216) && sumLens ls == leAt (cmd s cid).bytes 16 4) = true ↔ listOk s cid ls := by
  simp [listOk, within, sumLens, foldl_add]

variable {d : List Byte}

theorem listArrived_mismatch (h : ¬ listOk s cid (listed s cid d)) : listArrived s cid d = complete s cid (2, 0xF) 0 :=
  if_neg (mt (listTest_iff _).mp h)

theorem listArrived_spent (h : listOk s cid (listed s cid d))
    (hs : allOnes < (vol s (cmdVol s cid)).segNext + (cutSegs (listed s cid d) 0 []).length) :
    listArrived s cid d = complete s cid (2, 0xA) 0 :=
  (if_pos ((listTest_iff _).mpr h)).trans (if_pos hs)

theorem listArrived_cut (h : listOk s cid (listed s cid d))
    (hs : (vol s (cmdVol s cid)).segNext + (cutSegs (listed s cid d) 0 []).length ≤ allOnes) : listArrived s cid d
      = writeTurn (setCmd s cid { cmd s cid with segs := cutSegs (listed s cid d) 0 [], dma := [] }) cid :=
  (if_pos ((listTest_iff _).mpr h)).trans (if_neg (Nat.not_lt.mpr hs))

/-! ### A scatter-list entry (R111) -/

theorem dmaArrives_scatter_whole (h : waitsDma s cid 2 = true) (hp : s.fwu.paused = false) (hd : ((cmd s cid).dma ++ b).length = 16) :
    dmaArrives s (.scatter cid) b = progressOf (scatterArrived s cid ((cmd s cid).dma ++ b)) cid := by
  have whole : ((cmd s cid).dma ++ b).take 16 = (cmd s cid).dma ++ b := List.take_of_length_le (Nat.le_of_eq hd)
  simp only [dmaArrives, h, hp, cmdDma, if_neg (Nat.not_lt.mpr (Nat.le_of_eq hd.symm)), whole]
  rfl

theorem scatterArrived_bad (h : leAt d 8 4 = 0 ∨ leAt d 12 4 ≠ 0 ∨ 0xFFFFFFFF < (cmd s cid).scSum + leAt d 8 4) :
    scatterArrived s cid d = complete s cid (2, 2) 24 :=
  if_pos (by simpa [or_assoc] using h)

theorem scatterArrived_kept (h : ¬ (leAt d 8 4 = 0 ∨ leAt d 12 4 ≠ 0 ∨ 0xFFFFFFFF < (cmd s cid).scSum + leAt d 8 4)) :
    scatterArrived s cid d = itemsRun (setCmd s cid { cmd s cid with
      phase := .reading, scatter := (cmd s cid).scatter ++ [(leAt d 0 8, leAt d 8 4)], scNext := (cmd s cid).scNext + 1,
      scSum := (cmd s cid).scSum + leAt d 8 4, dma := [] }) cid :=
  if_neg (by simpa [or_assoc] using h)

/-! ### A failed read (R507) -/

theorem dmaFails_list (h : waitsDma s cid 1 = true) : dmaFails s (.recordList cid) = progressOf (cmdDmaFail s cid) cid := by
  simp [dmaFails, h]

theorem dmaFails_list_idle (h : waitsDma s cid 1 = false) : dmaFails s (.recordList cid) = s := by
  simp [dmaFails, h]

theorem dmaFails_scatter (h : waitsDma s cid 2 = true) : dmaFails s (.scatter cid) = progressOf (cmdDmaFail s cid) cid := by
  simp [dmaFails, h]

theorem dmaFails_scatter_idle (h : waitsDma s cid 2 = false) : dmaFails s (.scatter cid) = s := by
  simp [dmaFails, h]

/-! ### Descriptors of an NVA queue (R458, R463) -/

/-- A descriptor whose read failed (R463). -/
def lostDesc : NvDesc := { op := 0, flags := 0, reserved := false, length := 0, addr := 0, ptr := 0, lost := true }

variable {p : Port}

theorem descData_idle (h : (nvq s (portNvq p)).reads = []) : descData s p b = s := by
  simp [descData, h]

theorem descFail_idle (h : (nvq s (portNvq p)).reads = []) : descFail s p = s := by
  simp [descFail, h]

theorem descData_descs {n : Nat} {rest : List NvFetch} (h : (nvq s (portNvq p)).reads = .descs n :: rest) :
    descData s p b = skim (modNvq s (portNvq p) fun x =>
      { x with reads := rest, fetched := x.fetched ++ (List.range n).map fun i => descOf (sub b (32 * i) 32) }) := by
  simp [descData, h]

theorem descFail_descs {n : Nat} {rest : List NvFetch} (h : (nvq s (portNvq p)).reads = .descs n :: rest) :
    descFail s p = skim (modNvq s (portNvq p) fun x => { x with reads := rest, fetched := x.fetched ++ List.replicate n lostDesc }) := by
  simp [descFail, h, lostDesc]

end Dma

/-- Settles O29: each clause is the branch of the row that its hypotheses select. That data which comes in an activation pause is kept is
the model's reading (log entry 42). -/
theorem dmaRows : Obligations.DmaRows := by
  unfold Obligations.DmaRows
  intro s b
  refine ⟨fun cid => ?commands, fun p => ?descriptors⟩
  case commands =>
    intro c need d ls waits failed
    have list := dmaReadCompletion_answers s b (.recordList cid)
    have scatter := dmaReadCompletion_answers s b (.scatter cid)
    have yes {opc : Nat} : waits opc → waitsDma s cid opc = true := (waitsDma_iff s cid opc).mpr
    have no {opc : Nat} (h : ¬ waits opc) : waitsDma s cid opc = false := by
      rw [← Bool.not_eq_true]; exact mt (waitsDma_iff s cid opc).mp h
    have whole (h : waits 1) (hp : s.fwu.paused = false) (hd : need ≤ d.length) :=
      answers_of_eq list (dmaArrives_list_whole (yes h) hp hd)
    have entry (h : waits 2) (hp : s.fwu.paused = false) (hd : d.length = 16) :=
      answers_of_eq scatter (dmaArrives_scatter_whole (yes h) hp hd)
    refine ⟨?idle, ?paused, ?short, ?spent, ?cut, ?mismatch, ?scIdle, ?scPaused, fun h hp hd => ⟨?scBad, ?scKept⟩, ?failed, ?failIdle,
      ?scFailed, ?scFailIdle⟩
    case idle => exact fun h => answers_of_eq list (dmaArrives_list_idle (no h))
    case paused => exact fun h hp => answers_of_eq list (dmaArrives_list_paused (yes h) hp)
    case short => exact fun h hp hd => answers_of_eq list (dmaArrives_list_short (yes h) hp hd)
    case spent =>
      exact fun h hp hd hl hc hs => answers_of_eq (whole h hp hd) (congrArg (progressOf · cid) (listArrived_spent ⟨hl, hc⟩ hs))
    case cut =>
      exact fun h hp hd hl hc hs => answers_of_eq (whole h hp hd) (congrArg (progressOf · cid) (listArrived_cut ⟨hl, hc⟩ hs))
    case mismatch =>
      exact fun h hp hd hn => answers_of_eq (whole h hp hd) (congrArg (progressOf · cid) (listArrived_mismatch (not_and_of_not_or_not hn)))
    case scIdle => exact fun h => answers_of_eq scatter (dmaArrives_scatter_idle (no h))
    case scPaused => exact fun h hp => answers_of_eq scatter (dmaArrives_scatter_paused (yes h) hp)
    case scBad => exact fun hb => answers_of_eq (entry h hp hd) (congrArg (progressOf · cid) (scatterArrived_bad hb))
    case scKept =>
      intro hn hr hs
      have sound : ¬ (leAt d 8 4 = 0 ∨ leAt d 12 4 ≠ 0 ∨ 0xFFFFFFFF < c.scSum + leAt d 8 4) := by omega
      exact answers_of_eq (entry h hp hd) (congrArg (progressOf · cid) (scatterArrived_kept sound))
    case failed => exact fun h => answers_of_eq (dmaReadFailure_answers s (.recordList cid)) (dmaFails_list (yes h))
    case failIdle => exact fun h => answers_of_eq (dmaReadFailure_answers s (.recordList cid)) (dmaFails_list_idle (no h))
    case scFailed => exact fun h => answers_of_eq (dmaReadFailure_answers s (.scatter cid)) (dmaFails_scatter (yes h))
    case scFailIdle => exact fun h => answers_of_eq (dmaReadFailure_answers s (.scatter cid)) (dmaFails_scatter_idle (no h))
  case descriptors =>
    have data := dmaReadCompletion_answers s b (.descriptor p)
    have failure := dmaReadFailure_answers s (.descriptor p)
    exact ⟨fun h => ⟨answers_of_eq data (descData_idle h), answers_of_eq failure (descFail_idle h)⟩,
      fun n rest h => ⟨answers_of_eq data (descData_descs h), answers_of_eq failure (descFail_descs h)⟩⟩

end Sys2Proof.Machine
end

section
/-! PROOF. The bodies of the other volume commands (R105, R111, R113 to R118, R137). -/

namespace Sys2Proof.Machine

section Bodies

variable (s : State) (cid : Nat)

/-! ### Serving items: READ, LOCATE, SPACE (R111, R113) -/

/-- The first LBN of a READ: its LBN field, or the position for all ones (R105). -/
def readLbn (s : State) (cid : Nat) : Nat :=
  if cLbn (cmd s cid).bytes = allOnes then (vol s (cmdVol s cid)).pos else cLbn (cmd s cid).bytes

theorem readStart_eq : readStart s cid
    = itemsRun (setCmd s cid { cmd s cid with lbn := readLbn s cid, endLbn := readLbn s cid, phase := .reading }) cid := by
  simp only [readStart, resolveLbn, modCmd_modCmd]
  rfl

theorem locateStart_eq : locateStart s cid = itemsRun (setCmd s cid { cmd s cid with
    lbn := if leAt (cmd s cid).bytes 36 1 = 1 then (vol s (cmdVol s cid)).eod else cLbn (cmd s cid).bytes
    phase := .reading }) cid := rfl

theorem spaceStart_eq : spaceStart s cid = itemsRun (setCmd s cid { cmd s cid with
    pos := (vol s (cmdVol s cid)).pos
    residual := (BitVec.ofNat 64 (leAt (cmd s cid).bytes 16 8)).toInt
    phase := .reading }) cid := rfl

/-! ### Working with a volume as a whole: FLUSH, MOUNT, UNMOUNT, FORMAT (R115, R137) -/

theorem wholeStart_eq : wholeStart s cid
    = setCmd s cid { cmd s cid with phase := .tape, stage := 0, pos := (vol s ((cmd s cid).vol.getD 0)).segNext } := rfl

theorem flushStart_eq : flushStart s cid
    = setVol (wholeStart s cid) ((cmd s cid).vol.getD 0) { vol s ((cmd s cid).vol.getD 0) with turn := none } := rfl

/-! ### READ_POSITION (R114) -/

theorem positionBytes_length (v : Nat) : (positionBytes s v).length = 64 := by
  simp [positionBytes, leBytes_length]

/-- The position stands at byte 0 and the committed LBN at byte 24. -/
theorem positionBytes_split (v : Nat) : ∃ mid rest, mid.length = 16
    ∧ positionBytes s v = leBytes 8 (vol s v).pos ++ (mid ++ (leBytes 8 (vol s v).comEnd ++ rest)) :=
  ⟨leBytes 8 (vol s v).bufEnd ++ leBytes 8 (vol s v).tapeEnd, _, by simp [leBytes_length],
    by simp only [positionBytes, List.append_assoc]; rfl⟩

theorem positionBytes_pos (v : Nat) : leAt (positionBytes s v) 0 8 = (vol s v).pos % 2 ^ 64 := by
  obtain ⟨mid, rest, -, split⟩ := positionBytes_split s v
  rw [split]
  exact leAt_mid [] 8 (vol s v).pos _

theorem positionBytes_comEnd (v : Nat) : leAt (positionBytes s v) 24 8 = (vol s v).comEnd % 2 ^ 64 := by
  obtain ⟨mid, rest, hlen, split⟩ := positionBytes_split s v
  have fourth := leAt_mid (leBytes 8 (vol s v).pos ++ mid) 8 (vol s v).comEnd rest
  rw [List.length_append, leBytes_length, hlen, List.append_assoc, ← split] at fourth
  exact fourth

/-! ### GET_LOG (R118) -/

/-- What GET_LOG leaves of `n` entries of the log that it names: they are sent, and marked as read in the error log. -/
def logCopied (s : State) (c : Cmd) (n : Nat) : State × Nat :=
  let ring := c.bytes.getD 36 0 == 0
  let first := leAt c.bytes 16 4
  let es := if ring then errEntries s c.port first n else eventEntries s first n
  let sent := (numbered es).foldl (fun t e => emit t (.dmaWrite c.port (leAt c.bytes 24 8 + 64 * e.1) e.2)) s
  (if ring then markErrRead sent c.port first n else sent, es.length)

theorem getLog_sound : getLog s cid none
    = complete (logCopied s (cmd s cid) (leAt (cmd s cid).bytes 20 4)).1 cid (0, 0)
        (logCopied s (cmd s cid) (leAt (cmd s cid).bytes 20 4)).2 := rfl

/-- At an entry of the error log that cannot be read GET_LOG stops (R167). -/
theorem getLog_lost (k : Nat) (f : SramFault) (hr : ((cmd s cid).bytes.getD 36 0 == 0) = true) (hk : k < leAt (cmd s cid).bytes 20 4)
    (hf : f.kind = .uncorrectable) : getLog s cid (some (k, f))
      = complete (logCopied (sramMet s f (pIdx (cmd s cid).port)) (cmd s cid) k).1 cid (4, 1)
          (logCopied (sramMet s f (pIdx (cmd s cid).port)) (cmd s cid) k).2 := by
  simp only [getLog, logCopied, Option.filter, hr, hk, hf, sramHit, decide_true, Bool.and_self, if_true, Option.map_some, Option.getD_some]

/-- A row that runs a body: what it answers where the body may run, and where it may not. -/
theorem body_row {s : State} {cid opc : Nat} {o : Host.Outcome State Fault Refusal} {body : State → Nat → State} {t : State}
    (h : o = finish s (runBody s cid opc body)) (e : body s cid = t) :
    (Safety.begins s cid opc → Safety.answers o s (progressOf t cid)) ∧ (¬ Safety.begins s cid opc → Safety.answers o s s) :=
  have answers : Safety.answers o s (runBody s cid opc body) := h ▸ finish_answers s _
  ⟨fun hb => body_answers answers hb e, noBody_answers answers⟩

end Bodies

/-- Settles O27: the start of each body is the state named; GET_LOG reads the entries that a faulty word of the error log leaves. -/
theorem volumeBodies : Obligations.VolumeBodies := by
  unfold Obligations.VolumeBodies
  intro cid s
  dsimp only
  refine ⟨body_row (body := readStart) rfl ?read, body_row (body := locateStart) rfl ?locate, body_row (body := spaceStart) rfl ?space,
    body_row (body := flushStart) rfl ?flush, body_row (body := mountStart) rfl ?mount, body_row (body := wholeStart) rfl ?unmount,
    body_row (body := mountStart) rfl ?format, body_row (body := readPosition) rfl ?position, body_row (body := setParams) rfl ?params,
    body_row (body := fun s cid => getLog s cid none) rfl ?log,
    fun k h hr hk hu => body_row (body := fun s cid => getLog s cid (some (k, h))) rfl ?fault,
    positionBytes_length s _, positionBytes_pos s _, positionBytes_comEnd s _⟩
  case read => exact readStart_eq s cid
  case locate => exact locateStart_eq s cid
  case space => exact spaceStart_eq s cid
  case flush => exact flushStart_eq s cid
  case mount => exact wholeStart_eq (freeKept s (cmdVol s cid)) cid
  case unmount => exact wholeStart_eq s cid
  case format => exact wholeStart_eq (freeKept s (cmdVol s cid)) cid
  case position => rfl
  case params => rfl
  case log => exact getLog_sound s cid
  case fault =>
    refine (getLog_lost s cid k h hr hk hu).trans ?_
    simp only [logCopied, hr, if_true]

end Sys2Proof.Machine
end

section
/-! PROOF. Segments of a WRITE: admission (R195, R255, R256), their place in the data window and its XFER_RDY (R109), the data that
arrives (R78, R109) and the transfer timeout (R110). -/

namespace Sys2Proof.Machine

section Admission

variable {s : State} {n cid : Nat} {g : Seg}

theorem segmentAdmit_answers (s : State) (n : Fin 16) : Safety.answers (exec (.segmentAdmit n) s) s (admitRow s n.val) :=
  finish_answers s _

/-- What the charge of a transport grows by with a segment (R195). -/
def segCharge (g : Seg) : Nat := (g.len + 1048575) / 1048576 * 1048576 + g.blocks * 73728

theorem ceilDiv_eq (a b : Nat) : ceilDiv a (b + 1) = (a + b) / (b + 1) := rfl

theorem shareRoom_iff : shareRoom s n g = true ↔ chargeOf s n + segCharge g ≤ usableShare s n := by
  have p4 : slotSize 4 = 1048576 := rfl
  have p2 : slotSize 2 = 73728 := rfl
  have slots : ceilDiv g.len 1048576 = (g.len + 1048575) / 1048576 := ceilDiv_eq g.len 1048575
  unfold shareRoom segNeeds
  rw [decide_eq_true_iff, p4, p2, slots, Nat.add_assoc, segCharge]

/-- Admission is tried: no pause, and room in the share (R157, R195). -/
def admits (s : State) (n : Nat) (g : Seg) : Prop := s.fwu.paused = false ∧ chargeOf s n + segCharge g ≤ usableShare s n

theorem admitTest (h : admits s n g) : (s.fwu.paused || !shareRoom s n g) = false := by
  simp [shareRoom_iff.mpr h.2, h.1]

theorem admitRow_none (h : admitHead s n = none) : admitRow s n = s := by
  simp [admitRow, h]

theorem admitRow_waits (h : admitHead s n = some (cid, g)) (hw : s.fwu.paused = true ∨ usableShare s n < chargeOf s n + segCharge g) :
    admitRow s n = s := by
  rcases hw with hw | hw
  · simp [admitRow, h, hw]
  · have full : shareRoom s n g = false := by
      rw [← Bool.not_eq_true, shareRoom_iff]
      omega
    simp [admitRow, h, full]

section Tried

variable (h : admitHead s n = some (cid, g)) (ha : admits s n g)
include h ha

theorem admitRow_tried : admitRow s n = progress (segmentAdmit s n) n := by
  simp [admitRow, h, admitTest ha]

theorem segmentAdmit_dead (hd : s.pool.dead = true) : segmentAdmit s n = complete s cid (4, 1) (endResult s cid 4) := by
  simp [segmentAdmit, h, admitTest ha, hd]

variable (hd : s.pool.dead = false)
include hd

theorem segmentAdmit_spent (hu : unitsSpent s g = true) : segmentAdmit s n = haltExhausted s g.vol := by
  simp [segmentAdmit, h, admitTest ha, hd, hu]

variable (hu : unitsSpent s g = false)
include hu

theorem segmentAdmit_noSlots (hs : segSlots s n g = none) : segmentAdmit s n = s := by
  simp [segmentAdmit, h, admitTest ha, hd, hu, hs]

variable {t : State} {la lb : List Nat} (hs : segSlots s n g = some (t, la, lb))
include hs

theorem segmentAdmit_write (hm : g.marks = 0) : segmentAdmit s n
    = modSq (admitSeg t n cid g la lb) (cmd s cid).port (cmd s cid).sq fun x => { x with rangeWait := x.rangeWait ++ [cid] } := by
  simp [segmentAdmit, h, admitTest ha, hd, hu, hs, hm, segSlots_cmd s n g cid t la lb hs]

theorem segmentAdmit_marks (hm : 0 < g.marks) {k : Seg} (hk : seg? (admitSeg t n cid g la lb) g.vol cid g.no = some k) :
    segmentAdmit s n = writeDone (bufferSeg (admitSeg t n cid g la lb) k) k := by
  simp [segmentAdmit, h, admitTest ha, hd, hu, hs, hm, hk]

theorem segmentAdmit_gone (hm : 0 < g.marks) (hk : seg? (admitSeg t n cid g la lb) g.vol cid g.no = none) :
    segmentAdmit s n = admitSeg t n cid g la lb := by
  simp [segmentAdmit, h, admitTest ha, hd, hu, hs, hm, hk]

end Tried

/-- A segment as its admission leaves it (R195, R256). -/
def admitted (k : Option Nat) (g : Seg) (la lb : List Nat) (h : Seg) : Seg :=
  { h with staging := la, p2 := lb, keySlot := k, duReserved := if k.isSome then g.blocks else 0,
           phase := if 0 < g.marks then h.phase else .waitRange }

theorem vols_reserveUnits (t : State) (k : Option Nat) (u : Nat) : (reserveUnits t k u).vols = t.vols := by
  cases k <;> rfl

theorem slices_reserveUnits (t : State) (k : Option Nat) (u : Nat) : (reserveUnits t k u).slices = t.slices := by
  cases k <;> rfl

theorem admitSeg_toAdmit (t : State) (la lb : List Nat) : (slice (admitSeg t n cid g la lb) n).toAdmit = (slice t n).toAdmit.tail := by
  have same : slice (reserveUnits t (admitKey t g) g.blocks) n = slice t n := by rw [slice, slices_reserveUnits]; rfl
  simp only [admitSeg, modSeg, modVol_eq, slice_setVol, slice_modSlice, if_true, same]

theorem admitSeg_segs (t : State) (la lb : List Nat) {h : Seg} (hh : h ∈ (vol t g.vol).segs) (hc : h.cid = cid) (hn : h.no = g.no) :
    ∃ k ∈ (vol (admitSeg t n cid g la lb) g.vol).segs, k.cid = cid ∧ k.no = g.no
      ∧ k.staging = la ∧ k.p2 = lb ∧ k.recs = h.recs ∧ (g.marks = 0 → k.phase = .waitRange) := by
  have same : vol (reserveUnits t (admitKey t g) g.blocks) g.vol = vol t g.vol := by rw [vol, vols_reserveUnits]; rfl
  refine ⟨admitted (admitKey t g) g la lb h, ?_, hc, hn, rfl, rfl, rfl, fun hm => if_neg (by omega)⟩
  simp only [admitSeg, modSeg, vol_modVol, if_true, modSlice_eq, vol_setSlice, same]
  exact List.mem_map.mpr ⟨h, hh, if_pos (by simp [hc, hn])⟩

end Admission

section Ranges

variable {s : State} {p : Port} {q : Nat}

theorem xferRdyPost_answers (s : State) (p : Port) (q : Fin 64) : Safety.answers (exec (.xferRdyPost p q) s) s (xferRdyPost s p q.val) :=
  finish_answers s _

theorem mod_roundUp4k (a : Nat) : roundUp4k a % 4096 = 0 := Nat.mul_mod_left ..

/-- A range is placed at a multiple of 4 KiB, inside the window and clear of every open range (R109). -/
theorem placeRange_sound {rs : List (Nat × Nat)} {lastEnd len off : Nat} (h : placeRange rs lastEnd len = some off) :
    off % 4096 = 0 ∧ off + len ≤ 67108864 ∧ ∀ r ∈ rs, off + len ≤ r.1 ∨ r.1 + r.2 ≤ off := by
  have fits := List.find?_some h
  have place := List.mem_of_find?_eq_some h
  have aligned : ∀ a ∈ sortNat (rs.map fun r => roundUp4k (r.1 + r.2)), a % 4096 = 0 := by
    intro a ha
    obtain ⟨r, -, rfl⟩ := List.mem_map.mp ((mem_sortNat ..).mp ha)
    exact mod_roundUp4k _
  simp only [rangeFits, Bool.and_eq_true, decide_eq_true_eq, List.all_eq_true, Bool.or_eq_true] at fits
  refine ⟨?_, fits⟩
  simp only [List.cons_append, List.mem_cons, List.mem_append, List.mem_filter] at place
  rcases place with rfl | ⟨ha, -⟩ | rfl | ⟨ha, -⟩
  · exact mod_roundUp4k _
  · exact aligned _ ha
  · rfl
  · exact aligned _ ha

theorem xferRdyPost_empty (h : (sq s p q).rangeWait = []) : xferRdyPost s p q = s := by
  simp [xferRdyPost, h]

/-- The segment of a command that waits for a range of its window (R109). -/
def rangeSeg (s : State) (cid : Nat) : Option Seg :=
  (cmd s cid).vol.bind fun v => (vol s v).segs.find? fun h => h.cid == cid && h.phase == .waitRange

variable {cid : Nat} {rest : List Nat} (hw : (sq s p q).rangeWait = cid :: rest)
include hw

theorem xferRdyPost_gone (hg : rangeSeg s cid = none) : xferRdyPost s p q = setSq s p q { sq s p q with rangeWait := rest } := by
  rw [rangeSeg] at hg
  simp only [xferRdyPost, hw, hg]
  rfl

variable {g : Seg} (hg : rangeSeg s cid = some g)
include hg

theorem xferRdyPost_waits (h : 16 ≤ (sq s p q).ranges.length ∨ s.fwu.paused = true
    ∨ placeRange (sq s p q).ranges (sq s p q).lastEnd g.len = none) : xferRdyPost s p q = s := by
  rw [rangeSeg] at hg
  simp only [xferRdyPost, hw, hg]
  rcases h with h | h | h <;> simp [h]

/-- A range is open in the window for segment `g`, which waits for the posting of its entry (R109). -/
def rangePlaced (s : State) (p : Port) (q cid : Nat) (g : Seg) (rest : List Nat) (off : Nat) : State :=
  modSeg (setSq s p q { sq s p q with ranges := (sq s p q).ranges ++ [(off, g.len)], lastEnd := off + g.len, rangeWait := rest })
    g.vol cid g.no fun h => { h with off := off, phase := .waitPost }

theorem xferRdyPost_posts (hr : (sq s p q).ranges.length < 16) (hp : s.fwu.paused = false) {off : Nat}
    (ho : placeRange (sq s p q).ranges (sq s p q).lastEnd g.len = some off) :
    xferRdyPost s p q = endIfFrozen (postEntry (rangePlaced s p q cid g rest off) p
      { kind := .xferRdy, sq := q, tag := BitVec.ofNat 16 (leAt (cmd s cid).bytes 2 2), segNo := BitVec.ofNat 16 g.no,
        result := w64 (off + 2 ^ 32 * g.len), counted := false, cid := cid }) p := by
  rw [rangeSeg] at hg
  simp only [xferRdyPost, hw, hg, hp, ho, Nat.not_le.mpr hr]
  rfl

end Ranges

section Arrival

variable {s : State} {p : Port} {b : List Byte}

theorem dataWindowWrite_answers (s : State) (p : Port) (off : BitVec 32) (h1 : 1 ≤ b.length) (h2 : b.length ≤ 4096) :
    Safety.answers (exec (.dataWindowWrite p off b) s) s (dataRow s p off.toNat b) :=
  finishIf_answers s _ _ (by simp [burstOk, h2, Nat.lt_of_succ_le h1])

theorem dataRow_closed (off : Nat) (h : barOpen s p = false ∨ (mst s (portMaster p)).frozen = true) : dataRow s p off b = s := by
  rcases h with h | h <;> simp [dataRow, h]

/-- What a burst leaves: `stored`, and its loss reported where a byte of it was dropped (R109). -/
def burstLeaves (p : Port) (stored : State × Bool) : State :=
  if stored.2 then setEvt (count stored.1 (.hp p) 2) (.hp p) 9 else stored.1

/-- A burst wakes the device, and what lies in open ranges is stored (R109, R406). -/
theorem dataRow_stores (off : Nat) (ho : barOpen s p = true) (hf : (mst s (portMaster p)).frozen = false) : dataRow s p off b
    = progressSq (burstLeaves p (windowStore (wake s 1) p (off / windowBytes) (b.length + 1) (off % windowBytes) b)) p
        (off / windowBytes) := by
  simp [dataRow, dataWindowWrite, burstLeaves, ho, hf]

end Arrival

section Timeout

variable (s : State) (cid : Nat)

theorem transferTimeout_answers : Safety.answers (exec (.transferTimeout cid) s) s
    (if timeoutRuns s cid then progressOf (complete s cid (6, 1) (endResult s cid 6)) cid else s) := finish_answers s _

/-- The timeout of a command runs while it has a segment open, outside an activation pause (R110, R157). -/
theorem timeoutRuns_iff : timeoutRuns s cid = true
    ↔ s.fwu.paused = false ∧ ∃ v, (cmd s cid).vol = some v ∧ ∃ g ∈ (vol s v).segs, g.cid = cid ∧ g.phase = .isOpen := by
  simp [timeoutRuns, Option.any_eq_true]

end Timeout

/-- Settles O28: each clause is the branch of its row that its hypotheses select. A command whose segment meets a pool without metadata ends
by R176. -/
theorem segmentRows : Obligations.SegmentRows := by
  unfold Obligations.SegmentRows
  intro row
  refine ⟨fun n s => ?admission, fun p q s => ?ranges, fun p off b s h1 h2 => ?arrival, fun cid s => ?timeout⟩
  case admission =>
    have answers := segmentAdmit_answers s n
    refine ⟨fun h => answers_of_eq answers (admitRow_none h), ?_⟩
    intro cid g h need
    refine ⟨fun hw => answers_of_eq answers (admitRow_waits h hw), fun hp hroom => ?_⟩
    have ha : admits s n.val g := ⟨hp, hroom⟩
    have tried {u : State} (e : segmentAdmit s n.val = u) : row (.segmentAdmit n) s (progress u n.val) :=
      answers_of_eq answers ((admitRow_tried h ha).trans (congrArg (progress · n.val) e))
    refine ⟨fun hd => tried (segmentAdmit_dead h ha hd), fun hd hu => tried (segmentAdmit_spent h ha hd hu),
      fun hd hu hs => tried (segmentAdmit_noSlots h ha hd hu hs), fun hd hu t la lb hs => ⟨?write, ?marks, ?gone, ?list, ?segs⟩⟩
    case write => exact fun hm => tried (segmentAdmit_write h ha hd hu hs hm)
    case marks => exact fun hm k hk => tried (segmentAdmit_marks h ha hd hu hs hm hk)
    case gone => exact fun hm hk => tried (segmentAdmit_gone h ha hd hu hs hm hk)
    case list => exact admitSeg_toAdmit t la lb
    case segs => exact fun h hh hc hn => admitSeg_segs t la lb hh hc hn
  case ranges =>
    have answers := xferRdyPost_answers s p q
    refine ⟨fun h => answers_of_eq answers (xferRdyPost_empty h), fun cid rest hw hg => answers_of_eq answers (xferRdyPost_gone hw hg),
      fun cid rest v g hw hv hg => ?_⟩
    have found : rangeSeg s cid = some g := by rw [rangeSeg, hv]; exact hg
    exact ⟨fun h => answers_of_eq answers (xferRdyPost_waits hw found h),
      fun hr hp off ho => ⟨placeRange_sound ho, answers_of_eq answers (xferRdyPost_posts hw found hr hp ho)⟩⟩
  case arrival =>
    intro q a w lost stored
    have answers := dataWindowWrite_answers s p off h1 h2
    refine ⟨fun h => answers_of_eq answers (dataRow_closed off.toNat h), fun ho hf => ?_⟩
    have taken : row (.dataWindowWrite p off b) s (progressSq (burstLeaves p stored) p q) :=
      answers_of_eq answers (dataRow_stores off.toNat ho hf)
    refine ⟨fun g hg hfit => ?_, fun hn => ?_, taken⟩
    · rwa [show stored = _ from windowStore_whole w p q a b g h1 hg hfit] at taken
    · rwa [show stored = _ from windowStore_none w p q (b.length + 1) a b (Nat.lt_succ_self _) h1 hn] at taken
  case timeout =>
    have answers := transferTimeout_answers s cid
    refine ⟨fun hp ho => answers_of_eq answers (if_pos ((timeoutRuns_iff s cid).mpr ⟨hp, ho⟩)), fun h => answers_of_eq answers (if_neg ?_)⟩
    rintro runs
    obtain ⟨hp, ho⟩ := (timeoutRuns_iff s cid).mp runs
    rcases h with h | h
    · simp [hp] at h
    · exact h ho

end Sys2Proof.Machine
end

section
/-! PROOF. RESTART of a frozen submission queue: RESUME (R150) and DISCARD (R151). -/

namespace Sys2Proof.Machine

section Restart

variable {s : State} {p : Port} {q : Nat}

/-! ### CTRL with ENABLE and RESTART (R93) -/

/-- On a queue that stays enabled, a write of CTRL does what its RESTART field asks, where the queue is frozen. -/
theorem sqCtrl_restart (v : Word) (ha : v.getLsbD 1 = false) (hv : v.getLsbD 0 = true) (he : (sq s p q).enabled = true)
    (hd : (sq s p q).draining = false) : sqCtrl s p q v =
      if (sq s p q).frozen then
        if v.toNat / 4 % 4 = 1 ∧ (sq s p q).discarding = 0 then sqResume s p q
        else if v.toNat / 4 % 4 = 2 then sqDiscard s p q else s
      else s := by
  have stays : (if v.getLsbD 1 then sqAbortOp s p q else if v.getLsbD 0 then sqEnableOp s p q else sqDisableOp s p q) = s := by
    rw [ha, if_neg Bool.false_ne_true, if_pos hv, sqEnableOp_enabled hd he]
  simp only [sqCtrl, stays]
  simp [hd]

theorem sqCtrl_resume (he : (sq s p q).enabled = true) (hd : (sq s p q).draining = false) : sqCtrl s p q 5 =
    if (sq s p q).frozen = true ∧ (sq s p q).discarding = 0 then sqResume s p q else s := by
  rw [sqCtrl_restart 5 (by decide) (by decide) he hd]
  cases (sq s p q).frozen <;> simp

theorem sqCtrl_discard (he : (sq s p q).enabled = true) (hd : (sq s p q).draining = false) :
    sqCtrl s p q 9 = if (sq s p q).frozen then sqDiscard s p q else s := by
  rw [sqCtrl_restart 9 (by decide) (by decide) he hd]
  simp

/-! ### RESUME (R150) -/

/-- The queue is thawed; its capsules are as they were. -/
def sqThawed (s : State) (p : Port) (q : Nat) : State := setSq s p q { sq s p q with frozen := false }

theorem sq_sqThawed : sq (sqThawed s p q) p q = { sq s p q with frozen := false } := sq_setSq ..

/-- A device queue has no volume whose sequence its capsules would take. -/
theorem sqResume_device (hv : sqVol (sq s p q) = none) : sqResume s p q = sqThawed s p q := by
  have device : sqVol (sq (sqThawed s p q) p q) = none := by rw [sq_sqThawed]; exact hv
  show resequence (sqThawed s p q) p q = _
  rw [resequence, device]

/-- On a volume queue the capsules take the volume's next acceptance sequences in inbox order, and nothing else changes. -/
theorem sqResume_volume {v : Nat} (hv : sqVol (sq s p q) = some v) :
    let u := sqResume s p q
    sq u p q = { sq s p q with
        frozen := false
        inbox := (sq s p q).inbox.mapIdx fun i k => { k with accSeq := Safety.accAt (vol s v).accSeq i } }
      ∧ (∀ p' q', ¬ (p' = p ∧ q' = q) → sq u p' q' = sq s p' q')
      ∧ (∀ w, vol u w = { vol s w with accSeq := (vol u w).accSeq }) ∧ u = { s with ports := u.ports, vols := u.vols } := by
  intro u
  have volume : sqVol (sq (sqThawed s p q) p q) = some v := by rw [sq_sqThawed]; exact hv
  obtain ⟨own, others, vols, frame⟩ := resequence_spec (sqThawed s p q) p q v volume
  rw [sq_sqThawed] at own
  exact ⟨own, fun p' q' h => (others p' q' h).trans (sq_setSq_ne s p p' q q' _ h), vols, frame⟩

/-! ### DISCARD (R151) -/

theorem sqDiscard_empty (h : (sq s p q).inbox = []) :
    sqDiscard s p q = setSq s p q { sq s p q with frozen := (sq s p q).discarding != 0 } := by
  simp [sqDiscard, h, modSq_eq]

theorem sqDiscard_completes (h : (sq s p q).inbox ≠ []) : sqDiscard s p q =
    completeInbox (setSq s p q { sq s p q with discarding := (sq s p q).discarding + (sq s p q).inbox.length }) p q
      (sq s p q).inbox (6, 3) 2 := by
  simp [sqDiscard, h, modSq_eq]

/-! ### The rows -/

section Rows

variable (m : Master) (q : Fin 64) (h : Safety.canWrite s m (.sq p q.val 0) = true) (he : (sq s p q.val).enabled = true)
  (hd : (sq s p q.val).draining = false)
include h he hd

theorem resume_answers : Safety.answers (exec (.resume m p q) s) s
    (if (sq s p q.val).frozen = true ∧ (sq s p q.val).discarding = 0 then sqResume s p q.val else s) :=
  answers_of_eq (finish_answers s _) ((sqCtrlWrite_eq s p m q h 5).trans (sqCtrl_resume he hd))

theorem discard_answers : Safety.answers (exec (.discard m p q) s) s
    (if (sq s p q.val).frozen then sqDiscard s p q.val else s) :=
  answers_of_eq (finish_answers s _) ((sqCtrlWrite_eq s p m q h 9).trans (sqCtrl_discard he hd))

end Rows

end Restart

/-- Settles O23: a write of RESTART takes the branch that the queue's state selects; `resequence_spec` says what a thaw leaves of the
capsules. That a RESUME is ignored while entries of a discard wait is the model's choice (log entry 28). -/
theorem resumeDiscardRows : Obligations.ResumeDiscardRows := by
  unfold Obligations.ResumeDiscardRows
  intro m p q s hc x he hd
  have resume := resume_answers m q hc he hd
  have discard := discard_answers m q hc he hd
  refine ⟨fun hf => ⟨?resumeRunning, ?discardRunning⟩, ?resumeDiscarding, fun hf hn => ?resumes, fun hf => ?discards⟩
  case resumeRunning => exact answers_of_eq resume (if_neg fun c => by simp [x, c.1] at hf)
  case discardRunning => exact answers_of_eq discard (if_neg (Bool.eq_false_iff.mp hf))
  case resumeDiscarding => exact fun hn => answers_of_eq resume (if_neg fun c => hn c.2)
  case resumes =>
    have resumed := answers_of_eq resume (if_pos ⟨hf, hn⟩)
    exact ⟨fun hv => answers_of_eq resumed (sqResume_device hv), fun v hv => ⟨_, resumed, sqResume_volume hv⟩⟩
  case discards =>
    have discarded := answers_of_eq discard (if_pos hf)
    exact ⟨fun hi => answers_of_eq discarded (sqDiscard_empty hi), fun hi => answers_of_eq discarded (sqDiscard_completes hi)⟩

end Sys2Proof.Machine
end

section
/-! PROOF. Port resets (R74, R81, R153 to R155): what is cleared of the port's page group, queues, holds and freeze. -/

namespace Sys2Proof.Machine

section PortReset

variable (s : State) (p : Port)

/-! ### The parts of what a port reset clears -/

/-- The port's commands are mute, its semaphores, slots, held accesses and NV queue are let go (R74, R153, R154, R190, R465). -/
def portLetGo (s : State) (p : Port) : State :=
  let muted := (liveCmds s fun _ c => c.port == p).foldl muteCmd s
  let freed := releaseAll (forceReleaseAll muted (portMaster p) 2) (portMaster p)
  nvPortReset (modPool freed fun t => { t with held := t.held.filter fun h => h.m != portMaster p }) p

/-- What the port's master keeps: the record of a freeze, its shadow and pending LO, the results of its semaphore and key operations. -/
def masterReset (x : MasterSt) : MasterSt :=
  { cause := x.cause, sem := x.sem, addr := x.addr, hiShadow := x.hiShadow, pendLo := x.pendLo, semRes := x.semRes,
    semNo := x.semNo, keyRes := x.keyRes, keySlot := x.keySlot }

/-- The queues, the MSI-X table and the mailbox of a port at reset; its link and its error log stay. -/
def queuesReset (t : PortSt) : PortSt :=
  { t with armed := true, sqs := [], cqs := [], msixTable := [], msixPba := [], msixMasked := false, maxPayload := 128, maxReadReq := 512,
           mailBusy := false, mailAnswer := none, mailResult := 0, mailRespLen := 0 }

/-- The port's mailbox registers in page MGT are at reset. -/
def mailboxReset (p : Port) (x : Page) : Page :=
  { x with regs := x.regs.filter fun r => !(0x140 + 0x80 * pIdx p ≤ r.1 && r.1 < 0x180 + 0x80 * pIdx p) }

/-- A port reset lets go, and then sets the port's master, page, queues and mailbox to reset. -/
theorem portCleared_eq : portCleared s p =
    modPage (modPort (setPage (modMst (portLetGo s p) (portMaster p) masterReset) (.hp p) (pageInit (.hp p))) p queuesReset)
      .mgt (mailboxReset p) := rfl

/-! ### What reads after it -/

theorem page_portCleared : page (portCleared s p) (.hp p) = pageInit (.hp p) := by
  rw [portCleared_eq, modPage_eq, page_setPage_ne _ _ _ _ (by simp), modPort_eq, page_setPort, page_setPage]

/-- A page at reset stores no register, so each reads its reset value (R38). -/
theorem reg_of_pageInit {pg : PageId} (off : Nat) (h : page s pg = pageInit pg) : reg s pg off = regReset s.code pg off := by
  rw [reg, h]; rfl

/-- TRANSFER_TIMEOUT after reset (R110). -/
theorem regReset_transferTimeout (c : OrderCode) : regReset c (.hp p) 0x054 = 5000 := rfl

theorem port_portCleared : port (portCleared s p) p = queuesReset (port (portLetGo s p) p) := by
  rw [portCleared_eq, modPage_eq, port_setPage, modPort_eq, port_setPort, port_setPage, modMst_eq, port_setMst]

theorem sq_portCleared (q : Nat) : sq (portCleared s p) p q = {} := by rw [sq, port_portCleared]; rfl

theorem cq_portCleared (c : Nat) : cq (portCleared s p) p c = {} := by rw [cq, port_portCleared]; rfl

theorem mst_portCleared : mst (portCleared s p) (portMaster p) = masterReset (mst (portLetGo s p) (portMaster p)) := by
  rw [portCleared_eq, modPage_eq, mst_setPage, modPort_eq, mst_setPort, mst_setPage, modMst_eq, mst_setMst]

/-- A forced release of all leaves a master no semaphore (R74). -/
theorem holder_forceReleaseAll (m : Master) (cause k : Nat) (hk : k < 32) : (sem (forceReleaseAll s m cause) k).holder ≠ some m := by
  rw [forceReleaseAll_sem s m cause k hk]
  split
  · simp
  · assumption

/-- Releasing the slots of a master changes no semaphore (R190). -/
theorem sem_releaseAll (m : Master) (k : Nat) : sem (releaseAll s m) k = sem s k := by
  rw [sem, (releaseAll_holdsFrame s m).1, ← sem]

/-- Letting held accesses and the NV queue go changes no semaphore (R190, R465). -/
theorem sem_nvPortReset (f : PoolSt → PoolSt) (k : Nat) : sem (nvPortReset (modPool s f) p) k = sem s k := rfl

/-- The port's master holds no semaphore from the forced release on (R74). -/
theorem holder_portCleared (k : Nat) (hk : k < 32) : (sem (portCleared s p) k).holder ≠ some (portMaster p) := by
  rw [portCleared_eq, modPage_eq, sem_setPage, modPort_eq, sem_setPort, sem_setPage, modMst_eq, sem_setMst, portLetGo,
    sem_nvPortReset, sem_releaseAll]
  exact holder_forceReleaseAll _ _ 2 k hk

/-! ### The rows -/

theorem portReset_answers (kind : ResetKind) : Safety.answers (exec (.portReset p kind) s) s (portResetRow s p kind) :=
  finish_answers s _

end PortReset

/-- Settles O19: the row by the kind of reset; each part of the state by the step of `portCleared_eq` that writes it last. That the MSI-X
table falls back to its default is presumed (log entry 7). -/
theorem portResetRows : Obligations.PortResetRow := by
  unfold Obligations.PortResetRow
  intro p s m w r down
  refine ⟨⟨?hot, ?flr, ?linkDown, ?perst⟩, page_portCleared s p, ?timeout, ?queues, ?master⟩
  case hot => exact portReset_answers s p .hot
  case flr => exact portReset_answers s p .flr
  case linkDown => exact portReset_answers s p .linkDown
  case perst => exact portReset_answers s p .perst
  case timeout => exact (reg_of_pageInit w 0x054 (page_portCleared s p)).trans (regReset_transferTimeout p w.code)
  case queues =>
    have after : port w p = queuesReset (port (portLetGo s p) p) := port_portCleared s p
    exact ⟨sq_portCleared s p, cq_portCleared s p, by rw [after]; rfl, by rw [after]; rfl, by rw [after]; rfl, by rw [after]; rfl⟩
  case master =>
    have after : mst w m = masterReset (mst (portLetGo s p) m) := mst_portCleared s p
    refine ⟨by rw [after]; rfl, by rw [after]; rfl, by rw [after]; rfl, by rw [after]; rfl, by rw [after]; rfl, holder_portCleared s p⟩

end Sys2Proof.Machine
end

section
/-! PROOF. Rows of the device's own commands: the error-log window (R149, R167), CODEC_JOB (R117) and ACTIVATE_FIRMWARE (R119). -/

namespace Sys2Proof.Machine

/-! ### ERRLOG_WINDOW_READ (R149, R167) -/

section ErrorLog

variable (s : State) (m : Master) (p : Port) (i : Fin 256) (w : Fin 16)

theorem errlogWindowRead_answers (sram : Option SramFault) :
    Safety.answers (exec (.errlogWindowRead m p i w sram) s) s (errRead s m p i.val w.val sram) := finish_answers s _

theorem errAddr_eq (i w : Nat) : errAddr p i w = 0x14000 + 0x10000 * pIdx p + 0x40 * i + 4 * w := by
  rw [errAddr]; omega

variable (h : Safety.reaches s m (.err p i.val w.val) = true)
include h

/-- A read that reaches the window marks the entry read and gives its word (R149). -/
theorem errRead_sound : errRead s m p i.val w.val none =
    answer (markErr s p i.val) m (errAddr p i.val w.val) (spotValue s m (.err p i.val w.val)) := by
  have spot := spotOf_err p i.val w.val i.isLt w.isLt
  have dword : errAddr p i.val w.val / 4 * 4 = errAddr p i.val w.val := by rw [errAddr]; omega
  simp only [Safety.reaches, Bool.and_eq_true, Bool.not_eq_true'] at h
  obtain ⟨⟨⟨⟨answered, thawed⟩, alone⟩, visible⟩, defined⟩ := h
  simp [errRead, mmioRead, spot, dword, answered, thawed, alone, visible, defined, readSpot]

/-- An uncorrectable word of the window's SRAM gets a Completer Abort (R167). -/
theorem errRead_lost (f : SramFault) (hf : f.kind = .uncorrectable) :
    errRead s m p i.val w.val (some f) = emit (sramMet s f (mIdx m)) (.completerAbort m) := by
  have spot := spotOf_err p i.val w.val i.isLt w.isLt
  simp only [Safety.reaches, Bool.and_eq_true, Bool.not_eq_true'] at h
  obtain ⟨⟨⟨⟨answered, thawed⟩, alone⟩, visible⟩, -⟩ := h
  simp [errRead, sramRead, spot, answered, thawed, alone, visible, hf]

end ErrorLog

/-! ### CODEC_JOB (R117) -/

section CodecJob

variable {s : State} {cid : Nat}

theorem jobStart_refused {code : Code} {r : Nat} (h : jobRefused s (cmd s cid).port (cmd s cid).bytes = some (code, r)) :
    jobStart s cid = complete s cid code r := by
  simp only [jobStart, h]

/-- A job that is not refused waits for a cluster, where one is enabled (R238). -/
theorem jobStart_waits (h : jobRefused s (cmd s cid).port (cmd s cid).bytes = none) :
    jobStart s cid = strandJobs (setCmd s cid { cmd s cid with phase := .running, stage := 0 }) := by
  simp only [jobStart, h, modCmd_eq]

theorem overlaps_iff (a b : Nat × Nat) : overlaps a b = true ↔ a.1 < b.1 + b.2 ∧ b.1 < a.1 + a.2 := by
  simp [overlaps]

variable {p : Port} {b : List Byte}

theorem jobRefused_notHeld (h : portHolds s p (jobIn b).1 = false ∨ portHolds s p (jobOut b).1 = false) :
    jobRefused s p b = some ((2, 0xD), 0) := by
  rcases h with h | h <;> simp [jobRefused, h]

variable (hi : portHolds s p (jobIn b).1 = true) (ho : portHolds s p (jobOut b).1 = true)
include hi ho

/-- With both areas in slots of the port, the output is tested first, then the overlap, then the input. -/
theorem jobRefused_held : jobRefused s p b =
    if pastSlot s (jobOut b) = true ∨ overlaps (jobIn b) (jobOut b) = true then some ((2, 2), 24)
    else if pastSlot s (jobIn b) then some ((2, 2), 44) else none := by
  cases hp : pastSlot s (jobOut b) <;> simp [jobRefused, hi, ho, hp]

end CodecJob

/-! ### ACTIVATE_FIRMWARE (R119, R475) -/

section Activate

variable {s : State} {cid : Nat}

theorem activateFirmware_answers (s : State) (cid : Nat) :
    Safety.answers (exec (.activateFirmware cid) s) s (if atStart s cid 0x30 then activateCmd s cid else s) := finish_answers s _

/-- The time that the capsule asks for; 0 is at once. -/
def activateTai (s : State) (cid : Nat) : Nat := leAt (cmd s cid).bytes 36 8

/-- QUIESCE of the capsule. -/
def activateQuiesce (s : State) (cid : Nat) : Bool := ((cmd s cid).bytes.getD 1 0).getLsbD 2

/-- The check of the activation that the capsule asks for. -/
def activateCheck (s : State) (cid : Nat) : State × Nat :=
  stepCheck s (.activate (activateTai s cid) (activateQuiesce s cid) (portFleet s (cmd s cid).port))

theorem activateCmd_notHeld (h : (sem s 2).holder ≠ some (portMaster (cmd s cid).port)) :
    activateCmd s cid = complete s cid (2, 0xC) (endResult s cid 2) := by
  simp [activateCmd, holds, h]

variable (h : (sem s 2).holder = some (portMaster (cmd s cid).port))
include h

theorem activateCmd_busy (hp : s.fwu.phase = .scheduled ∨ s.fwu.phase = .trial) :
    activateCmd s cid = complete s cid (8, 1) (endResult s cid 8) := by
  simp [activateCmd, holds, h, hp]

/-- With SEM2 held and no activation under way, the check decides. -/
theorem activateCmd_checked (hs : s.fwu.phase ≠ .scheduled) (ht : s.fwu.phase ≠ .trial) : activateCmd s cid =
    if (activateCheck s cid).2 ≠ 0 then complete (activateCheck s cid).1 cid (2, 0xB) (activateCheck s cid).2
    else if activateTai s cid = 0 then
      activateOp (modCmd (activateCheck s cid).1 cid fun c => { c with phase := .gated }) 0 (activateQuiesce s cid) (some cid)
    else complete (activateOp (activateCheck s cid).1 (activateTai s cid) (activateQuiesce s cid) none) cid (0, 0)
      (endResult (activateCheck s cid).1 cid 0) := by
  simp [activateCmd, holds, h, hs, ht, activateCheck, activateTai, activateQuiesce]

end Activate

/-- Settles O30: each clause is the branch of its row that the clause's hypotheses select. That an entry never written reads 0, that a job
waits for a cluster before its holds are shared, and the end of ACTIVATE_FIRMWARE are the model's choices (log entries 32, 33 and 42). -/
theorem deviceBodies : Obligations.DeviceBodies := by
  unfold Obligations.DeviceBodies
  refine ⟨fun m p i w s h => ?errorLog, fun cid s => ?commands⟩
  case errorLog =>
    intro v a
    have read := errlogWindowRead_answers s m p i w
    refine ⟨answers_of_eq (read none) ?_, fun f hf => answers_of_eq (read (some f)) (errRead_lost s m p i w h f hf)⟩
    rw [errRead_sound s m p i w h, errAddr_eq]
    rfl
  case commands =>
    intro c i o lap
    have overlap : overlaps i o = true ↔ lap := overlaps_iff i o
    obtain ⟨runs, idle⟩ := body_row (s := s) (cid := cid) (opc := 0x10) (o := exec (.codecJob cid) s) (body := jobStart) rfl rfl
    have activate := activateFirmware_answers s cid
    refine ⟨idle, fun hb => ⟨?notHeld, fun hi ho => ?held⟩, fun hb => ?noActivation, fun hb => ?activation⟩
    case notHeld =>
      exact fun hn => answers_of_eq (runs hb) (congrArg (progressOf · cid) (jobStart_refused (jobRefused_notHeld hn)))
    case held =>
      have refusal := jobRefused_held (s := s) (p := c.port) (b := c.bytes) hi ho
      have refused {code r} (e : jobRefused s c.port c.bytes = some (code, r)) :=
        answers_of_eq (runs hb) (congrArg (progressOf · cid) (jobStart_refused e))
      have apart (hp : pastSlot s o = false) (hl : ¬ lap) : ¬ (pastSlot s o = true ∨ overlaps i o = true) := by
        simp [hp, overlap, hl]
      refine ⟨fun hp => refused ?_, fun hp hl hq => refused ?_, fun _ hl => refused ?_, fun hp hq hl => ?_⟩
      · exact refusal.trans (if_pos (.inl hp))
      · exact refusal.trans ((if_neg (apart hp hl)).trans (if_pos hq))
      · exact refusal.trans (if_pos (.inr (overlap.mpr hl)))
      · have accepted := refusal.trans ((if_neg (apart hp hl)).trans (if_neg (Bool.eq_false_iff.mp hq)))
        exact answers_of_eq (runs hb) (congrArg (progressOf · cid) (jobStart_waits accepted))
    case noActivation => exact answers_of_eq activate (if_neg fun c => hb ((atStart_iff s cid 0x30).mp c))
    case activation =>
      intro t quiet chk
      have started := answers_of_eq activate (if_pos (atStart_of_begins s cid 0x30 hb))
      refine ⟨fun hn => answers_of_eq started (activateCmd_notHeld hn), fun hh => ⟨fun hp => ?busy, fun hs ht => ?checked⟩⟩
      case busy => exact answers_of_eq started (activateCmd_busy hh hp)
      case checked =>
        have checked := answers_of_eq started (activateCmd_checked hh hs ht)
        exact ⟨fun hr => answers_of_eq checked (if_pos hr),
          fun hr h0 => answers_of_eq checked ((if_neg fun c => c hr).trans (if_pos h0)),
          fun hr h0 => answers_of_eq checked ((if_neg fun c => c hr).trans (if_neg h0))⟩

end Sys2Proof.Machine
end

section
/-! PROOF. Pool requests (R183, R185, R187, R189, R511): what a write of `POOL.OP` that allocates, waits or withdraws a wait answers, one
lemma for each of its conditions. -/

namespace Sys2Proof.Machine

section PoolRequests

variable (s : State) (m : Master)

/-! ### A write of POOL.OP (R185) -/

/-- An operation of the pool ends; one that is a violation freezes its master, and the freeze names the pointer (R76). -/
def poolEnds (m : Master) (o : PoolOut) : State :=
  match o with
  | (s, none) => s
  | (s, some (cause, a)) => freezeMaster s m cause 0x3F a

/-- A write that reaches `POOL.OP` wakes the formatter and performs the operation (R185). -/
theorem poolWrite_eq (v : Nat) (h : Safety.canWrite s m (.page .pool 0x108) = true) :
    poolWrite s m v = poolEnds m (poolOperation (wake s 3) m (w32 v)) := by
  rw [poolWrite, regWrite_block s m .pool 0x108 (w32 v) (roR 0x108) (by decide) (by decide) (by decide) rfl rfl h, blockWrite, if_pos rfl]
  rfl

/-- The fields OP and POOL of a request (R185). -/
theorem requestWord_fields (op p : Nat) (ho : op < 8) (hp : p < 8) :
    (w32 (op + 16 * p)).toNat % 8 = op ∧ (w32 (op + 16 * p)).toNat / 16 % 8 = p := by
  rw [w32, BitVec.toNat_ofNat]
  omega

/-! ### The conditions of R511 in their order -/

/-- The result that ends a request on pool `p` before its own conditions are tested (R511). -/
def requestStop (s : State) (p : Nat) : Option Nat :=
  if enabledNow s .pool = false then some 0xB
  else if (page s .pool).fault = true ∨ s.pool.dead = true then some 0xD
  else if 4 < p then some 0xC
  else none

/-- ALLOC_WAIT takes the mark of an earlier grant away (R189). -/
def waitAsked (s : State) (m : Master) : State := setMst s m { mst s m with waitGranted := false }

/-- The state that a request is tested in. -/
def requestFrom (s : State) (m : Master) (op : Nat) : State := if op = 2 then waitAsked s m else s

/-- The conditions of each request past those that all share (R511). -/
def requestTurn (s : State) (m : Master) (op p : Nat) : State :=
  if op = 5 then
    if (mst s m).waitPending then poolResult (withdrawWait s m) m 0 op else poolResult s m 9 op
  else if op = 2 && (mst s m).waitPending then poolResult s m 8 op
  else allocFrom s m op p

theorem waitPending_waitAsked : (mst (waitAsked s m) m).waitPending = (mst s m).waitPending := by rw [waitAsked, mst_setMst]

/-- None of those results rests on the mark of a grant. -/
theorem requestStop_requestFrom (op p : Nat) : requestStop (requestFrom s m op) p = requestStop s p := by
  unfold requestFrom
  split
  · rfl
  · rfl

/-- ALLOC, ALLOC_WAIT and CANCEL_WAIT: the conditions that all share come first (R511). -/
theorem poolOperation_request {op p : Nat} (ho : op = 1 ∨ op = 2 ∨ op = 5) (hp : p < 8) :
    poolOperation s m (w32 (op + 16 * p)) =
      (match requestStop s p with
        | some r => poolResult (requestFrom s m op) m r op
        | none => requestTurn (requestFrom s m op) m op p, none) := by
  obtain ⟨hop, hpool⟩ := requestWord_fields op p (by omega) hp
  have from_eq : (if op = 2 then modMst s m fun x => { x with waitGranted := false } else s) = requestFrom s m op := rfl
  have known : (op = 0 || decide (5 < op)) = false := by simp; omega
  have holds_none : (op = 3 || op = 4) = false := by simp; omega
  simp only [poolOperation, hop, hpool, from_eq, ← requestStop_requestFrom s m op p]
  generalize requestFrom s m op = t
  cases he : enabledNow t .pool with
  | false => simp [requestStop, known, he]
  | true =>
    by_cases hf : (page t .pool).fault = true ∨ t.pool.dead = true
    · simp [requestStop, known, he, hf]
    · by_cases h4 : 4 < p
      · simp [requestStop, known, he, hf, holds_none, h4]
      · have passed : requestStop t p = none := by simp [requestStop, he, hf, h4]
        have sound : ((page t .pool).fault || t.pool.dead) = false := by simpa using hf
        simp only [passed, requestTurn, known, sound, holds_none, if_neg h4, Bool.not_true, Bool.false_eq_true, if_false]
        by_cases h5 : op = 5
        · simp only [if_pos h5]
          split <;> rfl
        · simp only [if_neg h5]
          split <;> rfl

section Answers

variable {op p : Nat} (ho : op = 1 ∨ op = 2 ∨ op = 5) (hp : p < 8)
include ho hp

/-- A request that a condition of all requests ends. -/
theorem request_stopped {r : Nat} (h : requestStop s p = some r) :
    poolEnds m (poolOperation s m (w32 (op + 16 * p))) = poolResult (requestFrom s m op) m r op := by
  rw [poolOperation_request s m ho hp, h]
  rfl

/-- A request that passes them comes to its own conditions. -/
theorem request_passed (h : requestStop s p = none) :
    poolEnds m (poolOperation s m (w32 (op + 16 * p))) = requestTurn (requestFrom s m op) m op p := by
  rw [poolOperation_request s m ho hp, h]
  rfl

end Answers

/-! ### The conditions of each request -/

theorem requestTurn_outstanding (p : Nat) (h : (mst s m).waitPending = true) : requestTurn s m 2 p = poolResult s m 8 2 := by
  simp [requestTurn, h]

theorem requestTurn_wait (p : Nat) (h : (mst s m).waitPending = false) : requestTurn s m 2 p = allocFrom s m 2 p := by
  simp [requestTurn, h]

theorem requestTurn_noWait (p : Nat) (h : (mst s m).waitPending = false) : requestTurn s m 5 p = poolResult s m 9 5 := by
  simp [requestTurn, h]

/-- A wait that is withdrawn leaves the wait list of its pool (R511). -/
theorem requestTurn_withdraws (p : Nat) (h : (mst s m).waitPending = true) : requestTurn s m 5 p =
    poolResult (setMst (setWaits s (mst s m).waitPool.toNat ((waitList s (mst s m).waitPool.toNat).filter (· != .master m))) m
      { mst s m with waitPending := false }) m 0 5 := by
  rw [requestTurn, if_pos rfl, if_pos h, withdrawWait, if_pos h]
  rfl

theorem allocFrom_overQuota (op p : Nat) (h : overQuota s m p = true) : allocFrom s m op p = poolResult s m 5 op := if_pos h

section WithinQuota

variable {p : Nat} (hq : overQuota s m p = false)
include hq

/-- A free general slot is taken, and its address read in `MY_PTR` (R187). -/
theorem allocFrom_free (op : Nat) {a : Nat} (h : findFree s p = some a) :
    allocFrom s m op p = poolResult (modMst (takeSlot s a (mIdx m)) m fun x => { x with myPtr := w64 a }) m 0 op := by
  simp only [allocFrom, hq, h, Bool.false_eq_true, if_false]

theorem allocFrom_empty (h : findFree s p = none) : allocFrom s m 1 p = poolResult (count (raise s .pool 11) .pool 1) m 1 1 := by
  simp only [allocFrom, hq, h, Bool.false_eq_true, if_false, if_true]

/-- With no free slot an ALLOC_WAIT joins the end of the pool's wait list (R189). -/
theorem allocFrom_waits (h : findFree s p = none) : allocFrom s m 2 p =
    poolResult (count (modMst (setWaits (raise s .pool 11) p (waitList (raise s .pool 11) p ++ [.master m])) m fun x =>
      { x with waitPending := true, waitPool := BitVec.ofNat 3 p }) .pool 2) m 2 2 := by
  simp only [allocFrom, hq, h, Bool.false_eq_true, if_false]
  rfl

end WithinQuota

/-- A slot that a master takes has one holder, the master, and its zero fill runs (R170, R187). -/
theorem takeSlot_master (a : Nat) : takeSlot s a (mIdx m) =
    count (setMeta (metaAt s a) a { st := .allocated, refs := 1, ownerHolds := true, owner := BitVec.ofNat 6 (mIdx m),
                                    gen := (slotMeta (metaAt s a) a).gen + 1, filling := true }) .pool 0 := by
  cases m <;> rfl

/-! ### The rows -/

variable {m} {want : PoolWant} (h : Safety.canWrite s m (.page .pool 0x108) = true)
include h

theorem alloc_answers (hk : wantOk m want = true) : Safety.answers (exec (.alloc m want) s) s
    (poolEnds m (poolOperation (wake s 3) m (w32 (1 + 16 * (wantedPool want).toNat)))) :=
  answers_of_eq (finishIf_answers s _ _ hk) (poolWrite_eq s m _ h)

theorem allocWait_answers (hk : wantOk m want = true) : Safety.answers (exec (.allocWait m want) s) s
    (poolEnds m (poolOperation (wake s 3) m (w32 (2 + 16 * (wantedPool want).toNat)))) :=
  answers_of_eq (finishIf_answers s _ _ hk) (poolWrite_eq s m _ h)

theorem cancelWait_answers (pool : BitVec 3) : Safety.answers (exec (.cancelWait m pool) s) s
    (poolEnds m (poolOperation (wake s 3) m (w32 (5 + 16 * pool.toNat)))) :=
  answers_of_eq (finish_answers s _) (poolWrite_eq s m _ h)

end PoolRequests

/-- Settles O31: the conditions that all requests share by `request_stopped`, then one lemma for each condition of a request. That a size
above the largest slot is answered BAD_OPERATION is the model's choice (log entry 60). -/
theorem poolRequestRows : Obligations.PoolRequestRows := by
  unfold Obligations.PoolRequestRows
  intro m want s hk h pool p w g result early granted
  have bound : p < 8 := pool.isLt
  have alloc := alloc_answers s h hk
  have wait := allocWait_answers s h hk
  have cancel := cancelWait_answers s h pool
  refine ⟨fun r (hr : requestStop w p = some r) => ?stopped, fun (hn : requestStop w p = none) => ?passed⟩
  case stopped =>
    exact ⟨answers_of_eq alloc (request_stopped w m (by decide) bound hr), answers_of_eq wait (request_stopped w m (by decide) bound hr),
      answers_of_eq cancel (request_stopped w m (by decide) bound hr)⟩
  case passed =>
    have alloc := answers_of_eq alloc (request_passed w m (by decide) bound hn)
    have wait := answers_of_eq wait (request_passed w m (by decide) bound hn)
    have cancel := answers_of_eq cancel (request_passed w m (by decide) bound hn)
    have pending : (mst g m).waitPending = (mst w m).waitPending  := waitPending_waitAsked w m
    refine ⟨fun hw => ?outstanding, fun hw => ?noWait, fun hw => ?withdraws, fun hq => ?overQuota, fun hw hq => ?waitOver,
      fun hq => ⟨fun a ha => ?granted, fun ha => ?empty⟩, fun hw hq => ?waiting⟩
    case outstanding => exact answers_of_eq wait (requestTurn_outstanding g m p (pending.trans hw))
    case noWait => exact answers_of_eq cancel (requestTurn_noWait w m p hw)
    case withdraws => exact ⟨_, answers_of_eq cancel (requestTurn_withdraws w m p hw), rfl⟩
    case overQuota => exact answers_of_eq alloc (allocFrom_overQuota w m 1 p hq)
    case waitOver => exact answers_of_eq wait ((requestTurn_wait g m p (pending.trans hw)).trans (allocFrom_overQuota g m 2 p hq))
    case granted =>
      refine answers_of_eq alloc ((allocFrom_free w m hq 1 ha).trans ?_)
      rw [takeSlot_master]
      rfl
    case empty => exact answers_of_eq alloc (allocFrom_empty w m hq ha)
    case waiting =>
      have turn := answers_of_eq wait (requestTurn_wait g m p (pending.trans hw))
      refine ⟨fun a ha => ?_, fun ha => ⟨_, _, rfl, rfl, ?_⟩⟩
      · refine answers_of_eq turn ((allocFrom_free g m hq 2 ha).trans ?_)
        rw [takeSlot_master]
        rfl
      · refine answers_of_eq turn ((allocFrom_waits g m hq ha).trans ?_)
        rw [BitVec.ofNat_toNat, BitVec.setWidth_eq]
        rfl

end Sys2Proof.Machine
end

section
/-! PROOF. SHARE and RELEASE (R185, R187, R188, R76): the conditions in their order, one lemma for each, and what a release leaves of the
slot. -/

namespace Sys2Proof.Machine

section PoolHolders

variable (s : State) (m : Master)

/-! ### Slots and their holders -/

/-- A FREE slot has no holders (R187). -/
theorem not_free_of_isHolder {x : SlotMeta} {r : Nat} (h : isHolder x r = true) : x.st ≠ .free := by
  rintro e
  simp [isHolder, e] at h

/-- A requester that leaves a slot takes one reference with it; the slot's state stays (R187). -/
theorem dropHolder_refs_st (x : SlotMeta) (r : Nat) : (dropHolder x r).refs = x.refs - 1 ∧ (dropHolder x r).st = x.st := by
  simp only [dropHolder]
  repeat' split
  all_goals exact ⟨rfl, rfl⟩

/-- A slot that others hold loses the holder (R187). -/
theorem releaseSlot_held (a r : Nat) (h : 1 < (slotMeta (metaAt s a) a).refs) :
    releaseSlot s a r = setMeta (metaAt s a) a (dropHolder (slotMeta (metaAt s a) a) r) := by
  have left := (dropHolder_refs_st (slotMeta (metaAt s a) a) r).1
  exact if_neg (by omega)

/-- The last holder's release empties the slot (R187). -/
theorem releaseSlot_last (a r : Nat) (h : (slotMeta (metaAt s a) a).refs ≤ 1) :
    releaseSlot s a r = emptySlot (setMeta (metaAt s a) a (dropHolder (slotMeta (metaAt s a) a) r)) a := by
  have left := (dropHolder_refs_st (slotMeta (metaAt s a) a) r).1
  exact if_pos (by omega)

/-- A slot that its last holder leaves is RETIRED where it was RETIRING, else FREE and handed out (R175, R187). -/
theorem emptySlot_dropped (a r : Nat) (y : SlotMeta) : emptySlot (setMeta s a (dropHolder y r)) a =
    if y.st = .retiring then
      raise (count (setMeta (setMeta s a (dropHolder y r)) a
        { slotMeta (setMeta s a (dropHolder y r)) a with st := .retired, refs := 0 }) .pool 4) .pool 12 a
    else handOut (setMeta (setMeta s a (dropHolder y r)) a
      { slotMeta (setMeta s a (dropHolder y r)) a with st := .free, refs := 0, filling := false }) a := by
  have kept : (slotMeta (setMeta s a (dropHolder y r)) a).st = y.st := by rw [slotMeta_setMeta, (dropHolder_refs_st y r).2]
  exact ite_congr (congrArg (· = SlotState.retiring) kept) (fun _ => rfl) (fun _ => rfl)

/-! ### The conditions that both share (R185) -/

/-- The fields OP and MASTER of a SHARE or a RELEASE (R185). -/
theorem holderWord_fields (op target : Nat) (ho : op < 8) (ht : target < 64) :
    (w32 (op + 256 * target)).toNat % 8 = op ∧ (w32 (op + 256 * target)).toNat / 2 ^ 8 % 64 = target := by
  rw [w32, BitVec.toNat_ofNat]
  omega

section Shared

variable {op target : Nat} (ho : op = 3 ∨ op = 4) (ht : target < 64)
include ho ht

theorem poolOperation_holder : poolOperation s m (w32 (op + 256 * target)) =
    if enabledNow s .pool = false then (poolResult s m 0xB op, none)
    else if (page s .pool).fault = true ∨ s.pool.dead = true then (poolResult s m 0xD op, none)
    else shareRelease s m op target := by
  obtain ⟨hop, htarget⟩ := holderWord_fields op target (by omega) ht
  have marked : (if op = 2 then modMst s m fun x => { x with waitGranted := false } else s) = s := if_neg (by omega)
  have known : (op = 0 || decide (5 < op)) = false := by simp; omega
  have of_holder : (op = 3 || op = 4) = true := by simpa using ho
  simp only [poolOperation, hop, htarget, marked, known, of_holder, Bool.not_eq_true', Bool.or_eq_true, Bool.false_eq_true, if_false, if_true]

theorem holder_disabled (h : enabledNow s .pool = false) :
    poolEnds m (poolOperation s m (w32 (op + 256 * target))) = poolResult s m 0xB op := by
  rw [poolOperation_holder s m ho ht, if_pos h]
  rfl

theorem holder_faulty (h : enabledNow s .pool = true) (hf : (page s .pool).fault = true ∨ s.pool.dead = true) :
    poolEnds m (poolOperation s m (w32 (op + 256 * target))) = poolResult s m 0xD op := by
  rw [poolOperation_holder s m ho ht, if_neg (by simp [h]), if_pos hf]
  rfl

theorem holder_live (h : enabledNow s .pool = true ∧ ¬ ((page s .pool).fault = true ∨ s.pool.dead = true)) :
    poolEnds m (poolOperation s m (w32 (op + 256 * target))) = poolEnds m (shareRelease s m op target) := by
  rw [poolOperation_holder s m ho ht, if_neg (by simp [h.1]), if_neg h.2]

end Shared

/-! ### The order of R188 -/

theorem shareRelease_noSlot (op target : Nat) (h : generalAt s (mst s m).opPtr.toNat = none) :
    shareRelease s m op target = (s, some (4, (mst s m).opPtr.toNat)) := by
  simp only [shareRelease, h]

section Slot

variable {s m} {a p i : Nat} {v : State} {x : SlotMeta} (ha : a = (mst s m).opPtr.toNat) (hg : generalAt s a = some (p, i))
  (hv : v = metaRead s p i) (hx : x = slotMeta v a)
include ha hg hv hx

/-- Once the slot's metadata is read, its state and its holders decide (R188). -/
theorem shareRelease_slot (op target : Nat) : shareRelease s m op target =
    if op = 4 && x.st == .free then (v, some (2, a))
    else if !isHolder x (mIdx m) then (v, some (3, a))
    else if op = 4 then (poolResult (releaseSlot v a (mIdx m)) m 0 op, none)
    else if x.st = .retiring then (poolResult v m 0xA op, none)
    else if 2 < target then (poolResult v m 7 op, none)
    else if isHolder x target then (poolResult v m 6 op, none)
    else if !canShare x then (poolResult (count v .pool 3) m 4 op, none)
    else if overQuota v (nthMaster target) p then (poolResult v m 5 op, none)
    else (poolResult (setMeta v a (addHolder x target)) m 0 op, none) := by
  subst ha hv hx
  simp only [shareRelease, hg]
  rfl

theorem release_doubleFree (target : Nat) (h : x.st = .free) : shareRelease s m 4 target = (v, some (2, a)) := by
  simp [shareRelease_slot ha hg hv hx, h]

theorem shareRelease_notHolder {op : Nat} (target : Nat) (hh : isHolder x (mIdx m) = false) (h : op ≠ 4 ∨ x.st ≠ .free) :
    shareRelease s m op target = (v, some (3, a)) := by
  have used : ¬ (op = 4 ∧ x.st = .free) := fun c => h.elim (· c.1) (· c.2)
  simp [shareRelease_slot ha hg hv hx, hh, used]

variable (hh : isHolder x (mIdx m) = true)
include hh

theorem release_holder (target : Nat) : shareRelease s m 4 target = (poolResult (releaseSlot v a (mIdx m)) m 0 4, none) := by
  simp [shareRelease_slot ha hg hv hx, hh, not_free_of_isHolder hh]

/-- A SHARE by a holder: the slot, the target and the room of both decide (R188). -/
theorem share_holder (target : Nat) : poolEnds m (shareRelease s m 3 target) =
    if x.st = .retiring then poolResult v m 0xA 3
    else if 2 < target then poolResult v m 7 3
    else if isHolder x target then poolResult v m 6 3
    else if canShare x = false then poolResult (count v .pool 3) m 4 3
    else if overQuota v (nthMaster target) p then poolResult v m 5 3
    else poolResult (setMeta v a (addHolder x target)) m 0 3 := by
  have op : ¬ (3 : Nat) = 4 := by decide
  simp only [shareRelease_slot ha hg hv hx, hh, op, decide_false, Bool.false_and, Bool.not_true, Bool.not_eq_true', Bool.false_eq_true, if_false]
  repeat' split
  all_goals rfl

end Slot

/-! ### The rows -/

variable {m} (h : Safety.canWrite s m (.page .pool 0x108) = true)
include h

theorem share_answers (target : BitVec 6) : Safety.answers (exec (.share m target) s) s
    (poolEnds m (poolOperation (wake s 3) m (w32 (3 + 256 * target.toNat)))) :=
  answers_of_eq (finish_answers s _) (poolWrite_eq s m _ h)

/-- A RELEASE names no target. -/
theorem release_answers : Safety.answers (exec (.release m) s) s (poolEnds m (poolOperation (wake s 3) m (w32 (4 + 256 * 0)))) :=
  answers_of_eq (finish_answers s _) (poolWrite_eq s m _ h)

end PoolHolders

/-- Settles O32: the conditions that both share, then those of R188 in their order, one lemma for each. -/
theorem poolHolderRows : Obligations.PoolHolderRows := by
  unfold Obligations.PoolHolderRows
  intro m target s h w a result gone live share release free
  have bound : target.toNat < 64 := target.isLt
  have shares := share_answers s h target
  have releases := release_answers s h
  refine ⟨fun he => ?disabled, fun he hf => ?faulty, fun hl hg => ?noSlot, fun p i hl hg => ?slot⟩
  case disabled =>
    exact ⟨answers_of_eq shares (holder_disabled w m (.inl rfl) bound he), answers_of_eq releases (holder_disabled w m (.inr rfl) (by decide) he)⟩
  case faulty =>
    exact ⟨answers_of_eq shares (holder_faulty w m (.inl rfl) bound he hf),
      answers_of_eq releases (holder_faulty w m (.inr rfl) (by decide) he hf)⟩
  case noSlot =>
    have share := answers_of_eq shares (holder_live w m (.inl rfl) bound hl)
    have release := answers_of_eq releases (holder_live w m (.inr rfl) (by decide) hl)
    exact ⟨answers_of_eq share (congrArg (poolEnds m) (shareRelease_noSlot w m 3 _ hg)),
      answers_of_eq release (congrArg (poolEnds m) (shareRelease_noSlot w m 4 _ hg))⟩
  case slot =>
    intro v x
    have share_ends {o : PoolOut} (e : shareRelease w m 3 target.toNat = o) : share (poolEnds m o) :=
      answers_of_eq (answers_of_eq shares (holder_live w m (.inl rfl) bound hl)) (congrArg (poolEnds m) e)
    have release_ends {o : PoolOut} (e : shareRelease w m 4 0 = o) : release (poolEnds m o) :=
      answers_of_eq (answers_of_eq releases (holder_live w m (.inr rfl) (by decide) hl)) (congrArg (poolEnds m) e)
    refine ⟨fun hx => ?doubleFree, fun hh => ⟨?shareOfOther, fun hx => ?releaseOfOther⟩, fun hh u y hu hy => ?released, fun hh => ?shared⟩
    case doubleFree => exact release_ends (release_doubleFree rfl hg rfl rfl 0 hx)
    case shareOfOther => exact share_ends (shareRelease_notHolder rfl hg rfl rfl _ hh (.inl (by decide)))
    case releaseOfOther => exact release_ends (shareRelease_notHolder rfl hg rfl rfl 0 hh (.inr hx))
    case released =>
      subst hu hy
      have ends := release_ends (release_holder rfl hg rfl rfl hh 0)
      refine ⟨_, rfl, fun hn => ?_, fun hn => ?_⟩
      · exact answers_of_eq ends (congrArg (poolResult · m 0 4) (releaseSlot_held v a _ hn))
      · refine answers_of_eq ends (congrArg (poolResult · m 0 4) ((releaseSlot_last v a _ hn).trans ?_))
        exact emptySlot_dropped ..
    case shared =>
      have ends := answers_of_eq (answers_of_eq shares (holder_live w m (.inl rfl) bound hl)) (share_holder rfl hg rfl rfl hh target.toNat)
      have used (hr : x.st ≠ .retiring) := answers_of_eq ends (if_neg hr)
      refine ⟨fun hr => answers_of_eq ends (if_pos hr), fun hr ht => answers_of_eq (used hr) (if_pos ht), fun hr ht => ?_⟩
      have named := answers_of_eq (used hr) (if_neg (Nat.not_lt.mpr ht))
      refine ⟨fun hm => answers_of_eq named (if_pos hm), fun hm => ?_⟩
      have joins := answers_of_eq named (if_neg (Bool.eq_false_iff.mp hm))
      refine ⟨fun hc => answers_of_eq joins (if_pos hc), fun hc => ?_⟩
      have room := answers_of_eq joins (if_neg (Bool.ne_false_iff.mpr hc))
      exact ⟨fun hq => answers_of_eq room (if_pos hq), fun hq => answers_of_eq room (if_neg (Bool.eq_false_iff.mp hq))⟩

end Sys2Proof.Machine
end

section
/-! PROOF. The slot window (R32, R166, R192) and the end of a slot's zero fill (R170): when an access waits, what one that is served does,
and the bytes of the buffer after a write and after a fill. -/

namespace Sys2Proof.Machine

/-! ### Accesses of the window (R192) -/

section SlotWindow

variable (s : State) (m : Master)

theorem slotWindowAccess_answers (off : BitVec 11) (be : BitVec 4) (wr : Option Word) :
    Safety.answers (exec (.slotWindowAccess m off be wr) s) s (windowRow s m off.toNat be wr) := finish_answers s _

/-- The address of a byte of the window names it (R29, R192). -/
theorem spotOf_window (off : BitVec 11) : spotOf (0x8800 + off.toNat) = .page .pool (0x800 + off.toNat) := by
  have e := spotOf_page .pool (0x800 + off.toNat) (by omega)
  rwa [pageBase, ← Nat.add_assoc] at e

section Behind

variable (hs : served s m = true) (hw : ∃ h ∈ s.pool.held, h.m = m)
include hw

theorem waits_of_held : waits s m = true := by
  obtain ⟨x, hx, e⟩ := hw
  exact List.any_eq_true.mpr ⟨x, hx, beq_iff_eq.mpr e⟩

include hs

/-- A read behind an access of its master that is held back waits behind it (R32). -/
theorem mmioRead_behind (a : Nat) : mmioRead s m a = hold s m (.read a) := by
  simp [mmioRead, hs, waits_of_held s m hw]

/-- So does a write. -/
theorem mmioWrite_behind (a : Nat) (be : BitVec 4) (v : Word) (hf : (mst s m).frozen = false) (hv : shown s (spotOf a) = true) :
    mmioWrite s m a be v = hold s m (.write a be v) := by
  simp [mmioWrite, hs, waits_of_held s m hw, hf, hv]

end Behind

section Reaching

variable {off : BitVec 11} (h4 : off.toNat % 4 = 0) (h : Safety.reaches s m (.page .pool (0x800 + off.toNat)) = true)
include h4 h

/-- A read that reaches the window is a window access. -/
theorem mmioRead_window : mmioRead s m (0x8800 + off.toNat) = windowAccess s m off.toNat none := by
  have dword : (0x8800 + off.toNat) / 4 * 4 = 0x8800 + off.toNat := by omega
  simp only [Safety.reaches, Bool.and_eq_true, Bool.not_eq_true'] at h
  obtain ⟨⟨⟨⟨answered, thawed⟩, alone⟩, visible⟩, defined⟩ := h
  simp [mmioRead, dword, spotOf_window, answered, thawed, alone, visible, defined]

/-- So is a write: no semaphore guards the window (R46). -/
theorem mmioWrite_window (v : Word) : mmioWrite s m (0x8800 + off.toNat) 0xF v = windowAccess s m off.toNat (some v) := by
  have right : hasRight s m (.page .pool (0x800 + off.toNat)) = true := by simp [hasRight, unguarded]
  have row := findRow_pool (0x800 + off.toNat) (by omega)
  have lo : isLo (.page .pool (0x800 + off.toNat)) = false := by simp [isLo, row]
  have hi : isHi (.page .pool (0x800 + off.toNat)) = false := by simp [isHi, row]
  have can : Safety.canWrite s m (spotOf (0x8800 + off.toNat)) = true := by rw [spotOf_window, Safety.canWrite, h, right]; rfl
  have past : ¬ 0x800 + off.toNat < 0x40 := by omega
  rw [mmioWrite_of_can s m _ v (by omega) can, spotOf_window]
  simp [applyWrite, lo, hi, row, past]

end Reaching

/-! ### When an access waits, and what one that is served does (R166, R170, R192) -/

/-- Master `m` holds the slots of the four bytes at `a`. -/
def dwordHeld (s : State) (m : Master) (a : Nat) : Bool := (List.range 4).all fun i => byteHeld s m (a + i)

/-- The byte of the buffer at which the window access with offset `off` starts. -/
def windowByte (s : State) (m : Master) (off : Nat) : Nat := (mst s m).winBase.toNat + off

section Held

variable {s m} {w : State} (hw : w = wake s 3) {off a : Nat} (ha : a = windowByte w m off)
include hw ha

theorem windowAccess_read_waits (hh : dwordHeld w m a = true) (hf : fillRuns w a = true) :
    windowAccess s m off none = hold w m (.read (0x8800 + off)) := by
  subst hw ha
  exact if_pos (Bool.and_eq_true_iff.mpr ⟨hf, hh⟩)

theorem windowAccess_write_waits (hh : dwordHeld w m a = true) (hf : fillRuns w a = true) (v : Word) :
    windowAccess s m off (some v) = hold w m (.write (0x8800 + off) 0xF v) := by
  subst hw ha
  exact if_pos (Bool.and_eq_true_iff.mpr ⟨hf, hh⟩)

theorem windowAccess_served (h : dwordHeld w m a = false ∨ fillRuns w a = false) (wr : Option Word) :
    windowAccess s m off wr = windowServe w m off wr := by
  subst hw ha
  refine if_neg fun both => ?_
  obtain ⟨fills, inside⟩ := Bool.and_eq_true_iff.mp both
  rcases h with h | h
  · exact Bool.eq_false_iff.mp h inside
  · exact Bool.eq_false_iff.mp h fills

end Held

/-- The test of R192: some byte lies outside the master's slots. -/
theorem any_outside (a : Nat) {b : Bool} (h : dwordHeld s m a = b) : ((List.range 4).any fun i => !byteHeld s m (a + i)) = !b :=
  (List.not_all_eq_any_not ..).symm.trans (congrArg not h)

section Served

variable {off a : Nat} (ha : a = windowByte s m off)
include ha

section Outside

variable (hh : dwordHeld s m a = false)
include hh

theorem windowServe_outside_read :
    windowServe s m off none = answer (poolResult s m 0xE (mst s m).poolOp.toNat) m (0x8800 + off) 0 := by
  subst ha
  exact if_pos (any_outside s m _ hh)

theorem windowServe_outside_write (v : Word) : windowServe s m off (some v) = poolResult s m 0xE (mst s m).poolOp.toNat := by
  subst ha
  exact if_pos (any_outside s m _ hh)

end Outside

variable (hh : dwordHeld s m a = true)
include hh

theorem windowServe_read : windowServe s m off none =
    if anyBad s a 4 then emit (readBad s a 4 (mIdx m)) (.completerAbort m)
    else answer s m (0x8800 + off) (leNat (ramRead s a 4)) := by
  subst ha
  exact if_neg (Bool.eq_false_iff.mp (any_outside s m _ hh))

theorem windowServe_write (v : Word) : windowServe s m off (some v) = taintJobs (bufWrite s a (leBytes 4 v.toNat) (mIdx m)) a := by
  subst ha
  exact if_neg (Bool.eq_false_iff.mp (any_outside s m _ hh))

end Served

end SlotWindow

/-! ### The end of a zero fill (R170) -/

section Fill

variable (s : State) (a : Nat)

theorem slotFillDone_answers : Safety.answers (exec (.slotFillDone a) s) s (fillRow s a) := finish_answers s _

theorem fillRow_idle (h : (slotOf s a).isSome = false ∨ (slotMeta s a).filling = false) : fillRow s a = s := by
  rcases h with h | h <;> simp [fillRow, fillOf, h]

/-- The slot's bytes are cleared and its fill has ended. -/
def filled (s : State) (a p : Nat) : State :=
  setMeta (bufClear s a (slotSize p) (slotMeta s a).owner.toNat) a { slotMeta s a with filling := false }

/-- The end of a fill serves what waited for it, then the volumes and jobs go on. -/
theorem fillRow_ends {p i : Nat} (hp : slotOf s a = some (p, i)) (hf : (slotMeta s a).filling = true) :
    fillRow s a = progressAll (serveHeld (filled s a p)) := by
  have runs : fillOf s a = true := by simp [fillOf, hp, hf]
  rw [fillRow, if_pos runs, fillDone, hp]
  rfl

theorem filled_ram (p : Nat) : (filled s a p).mem.ram = Memory.clear s.mem.ram a (slotSize p) :=
  testsDue_ram ..

end Fill

/-- Settles O33: an access behind another waits by `mmioRead_behind` and `mmioWrite_behind`; one that reaches the window by the lemma of its
case; the bytes after a write by `bufWrite_spec`, after a fill by `Memory.get_clear`. -/
theorem windowRows : Obligations.WindowRows := by
  unfold Obligations.WindowRows
  refine ⟨fun m off s hs hf hv hw be => ?behind, fun m off s h4 h => ?window, fun a s => ?fill⟩
  case behind =>
    intro back
    exact ⟨answers_of_eq (slotWindowAccess_answers s m off be none) (mmioRead_behind s m hs hw _),
      fun v => answers_of_eq (slotWindowAccess_answers s m off be (some v)) (mmioWrite_behind s m hs hw _ be v hf hv)⟩
  case window =>
    intro w a held stop back put get read write
    have reads (be : BitVec 4) := answers_of_eq (slotWindowAccess_answers s m off be none) (mmioRead_window s m h4 h)
    have writes (v : Word) := answers_of_eq (slotWindowAccess_answers s m off 0xF (some v)) (mmioWrite_window s m h4 h v)
    have served_read (hn : dwordHeld w m a = false ∨ fillRuns w a = false) : read (windowServe w m off.toNat none) :=
      fun be => answers_of_eq (reads be) (windowAccess_served rfl rfl hn none)
    have served_write (hn : dwordHeld w m a = false ∨ fillRuns w a = false) (v : Word) : write v (windowServe w m off.toNat (some v)) :=
      answers_of_eq (writes v) (windowAccess_served rfl rfl hn (some v))
    refine ⟨fun hh hf => ?waits, fun hh => ?outside, fun hh hf => ⟨fun hb => ?abort, fun hb => ?value, fun v => ?stored⟩⟩
    case waits =>
      exact ⟨fun be => answers_of_eq (reads be) (windowAccess_read_waits rfl rfl hh hf),
        fun v => answers_of_eq (writes v) (windowAccess_write_waits rfl rfl hh hf v)⟩
    case outside =>
      exact ⟨fun be => answers_of_eq (served_read (.inl hh) be) (windowServe_outside_read w m rfl hh),
        fun v => answers_of_eq (served_write (.inl hh) v) (windowServe_outside_write w m rfl hh v)⟩
    case abort => exact fun be => answers_of_eq (served_read (.inr hf) be) ((windowServe_read w m rfl hh).trans (if_pos hb))
    case value =>
      intro be
      refine answers_of_eq (served_read (.inr hf) be) ((windowServe_read w m rfl hh).trans ((if_neg (Bool.eq_false_iff.mp hb)).trans ?_))
      rw [ramRead_eq]
      rfl
    case stored =>
      have bytes := bufWrite_spec w a (mIdx m) (leBytes 4 v.toNat)
      rw [leBytes_length] at bytes
      exact ⟨_, answers_of_eq (served_write (.inr hf) v) (windowServe_write w m rfl hh v), bytes⟩
  case fill =>
    have row := slotFillDone_answers s a
    refine ⟨fun h => answers_of_eq row (fillRow_idle s a h), fun p i hp hf => ⟨_, rfl, answers_of_eq row (fillRow_ends s a hp hf), ?_, ?_⟩⟩
    · intro x
      exact (congrArg (Memory.get ramDefault · x) (filled_ram s a p)).trans (Memory.get_clear ..)
    · intro h
      exact (congrArg Memory.wf (filled_ram s a p)).trans (Memory.clear_wf _ _ _ h)

end Sys2Proof.Machine
end

section
/-! PROOF. The scrubber (R164, R171 to R173, R177): when a row is read, what is done with each block found in it, and the end of a lap. -/

namespace Sys2Proof.Machine

section Scrub

variable (s : State)

/-! ### A row (R171) -/

theorem scrubRow_answers (ch : Fin 32) {found : List ScrubFinding} (h : found.all findingOk = true) :
    Safety.answers (exec (.scrubRow ch found) s) s (scrubOp s ch.val found) := finishIf_answers s _ _ h

/-- The scrubber reads no row of channel `ch` (R171, R402). -/
def scrubRests (s : State) (ch : Nat) : Prop :=
  enabledNow s .mem = false ∨ field s .mem 0x040 0 1 = 0 ∨ chFailed s ch = true
    ∨ rowsPerChannel s.code ≤ tget s.mem.scrubRows ch 0 ∨ s.pwr.bivouac = true

/-- The row's blocks are dealt with, and the channel's row is counted. -/
def rowScrubbed (s : State) (ch : Nat) (found : List ScrubFinding) : State :=
  modMem (found.foldl (scrubBlock ch (tget s.mem.scrubRows ch 0)) s) fun m =>
    { m with scrubRows := tput m.scrubRows ch (tget s.mem.scrubRows ch 0 + 1) }

theorem scrubRests_iff (ch : Nat) : (!enabledNow s .mem || field s .mem 0x040 0 1 = 0 || chFailed s ch
    || rowsPerChannel s.code ≤ tget s.mem.scrubRows ch 0 || s.pwr.bivouac) = true ↔ scrubRests s ch := by
  simp only [scrubRests, Bool.or_eq_true, Bool.not_eq_true', decide_eq_true_eq, or_assoc]

theorem scrubOp_rests (ch : Nat) (found : List ScrubFinding) (h : scrubRests s ch) : scrubOp s ch found = s :=
  if_pos ((scrubRests_iff s ch).mpr h)

theorem scrubOp_reads (ch : Nat) (found : List ScrubFinding) (h : ¬ scrubRests s ch) :
    scrubOp s ch found = lapEnd (rowScrubbed s ch found) :=
  if_neg fun c => h ((scrubRests_iff s ch).mp c)

/-! ### A block (R164, R172, R173) -/

section Block

variable {s} {ch row : Nat} {x : ScrubFinding}

/-- A read-back that fails is a hard fault of the block (R173). -/
def readBack (x : ScrubFinding) (b : Nat) (s : State) : State := if x.readBackOk = true then s else hardFault s b 35

theorem scrubBlock_clean (h : classify x.data x.check = .clean) :
    scrubBlock ch row s x = wordIs s (blockAddr ch row x.blk / 32) x.data := by
  simp only [scrubBlock, h]

theorem scrubBlock_dataBit {i : Nat} (h : classify x.data x.check = .dataBit i) : scrubBlock ch row s x =
    readBack x (blockAddr ch row x.blk / 32)
      (memFault (wordIs s (blockAddr ch row x.blk / 32) (flipBit x.data i)) 0 (blockAddr ch row x.blk) 35) := by
  simp only [scrubBlock, h, readBack]

theorem scrubBlock_checkBit (h : classify x.data x.check = .checkBit) : scrubBlock ch row s x =
    readBack x (blockAddr ch row x.blk / 32)
      (memFault (wordIs s (blockAddr ch row x.blk / 32) x.data) 1 (blockAddr ch row x.blk) 35) := by
  simp only [scrubBlock, h, readBack]

/-- Block `b` is uncorrectable, and where its read-back failed its next write is to test it (R172, R173). -/
def spoilt (s : State) (b : Nat) (readBackOk : Bool) : State :=
  modMem s fun m => { m with bad := if m.bad.contains b then m.bad else b :: m.bad,
                             testDue := if readBackOk || m.testDue.contains b then m.testDue else b :: m.testDue }

theorem scrubBlock_uncorrectable (h : classify x.data x.check = .uncorrectable) : scrubBlock ch row s x =
    memFault (spoilt s (blockAddr ch row x.blk / 32) x.readBackOk) 2 (blockAddr ch row x.blk) 35 := by
  simp only [scrubBlock, h, spoilt]

/-- A number that is added to a list unless it is there: the list's numbers and that one. -/
theorem mem_addNew (l : List Nat) (b k : Nat) : (k ∈ if l.contains b then l else b :: l) ↔ k = b ∨ k ∈ l := by
  split
  · rename_i h
    exact ⟨.inr, fun e => e.elim (fun e => e ▸ List.contains_iff_mem.mp h) id⟩
  · exact List.mem_cons

theorem mem_bad_spoilt (b : Nat) (ok : Bool) (k : Nat) : k ∈ (spoilt s b ok).mem.bad ↔ k = b ∨ k ∈ s.mem.bad :=
  mem_addNew s.mem.bad b k

theorem mem_testDue_spoilt (b : Nat) (ok : Bool) (k : Nat) :
    k ∈ (spoilt s b ok).mem.testDue ↔ (k = b ∧ ok = false) ∨ k ∈ s.mem.testDue := by
  cases ok with
  | true => simp [spoilt, modMem]
  | false => simpa [spoilt, modMem] using mem_addNew s.mem.testDue b k

end Block

/-! ### A lap (R171, R177) -/

/-- Every trained channel has done every row of the lap. -/
def lapDone (s : State) : Bool :=
  (List.range 32).all fun c => (reg s .mem 0x048).getLsbD c || decide (rowsPerChannel s.code ≤ tget s.mem.scrubRows c 0)

/-- The lap's time in milliseconds is stored. -/
def lapTimed (s : State) : State := setReg s .mem 0x04C (w32 (min ((clock s - s.mem.lapStart) / 1000000) 0xFFFFFFFF))

theorem lapEnd_eq : lapEnd s = if lapDone s = true then setEvt (count (lapBegins (lapTimed s)) .mem 0) .mem 12 else s := rfl

end Scrub

/-- Settles O34: a row is read by `scrubOp_reads`, a block is dealt with by the lemma of its class, and no block spoils the canonical form
(`scrub_wf`). -/
theorem scrubRow : Obligations.ScrubRow := by
  unfold Obligations.ScrubRow
  intro ch found s hk row idle
  have answers := scrubRow_answers s ch hk
  refine ⟨fun h => ?rests, fun h => ?reads, fun x _ u => ?block, scrub_wf s found ch.val row⟩
  case rests => exact answers_of_eq answers (scrubOp_rests s ch.val found h)
  case reads => exact ⟨lapTimed, lapEnd, answers_of_eq answers (scrubOp_reads s ch.val found h), rfl, lapEnd_eq⟩
  case block =>
    intro a b reads test
    refine ⟨scrubBlock_clean, fun i => scrubBlock_dataBit, scrubBlock_checkBit, fun h => ?_⟩
    exact ⟨spoilt u b x.readBackOk, scrubBlock_uncorrectable h, rfl, mem_bad_spoilt b x.readBackOk, mem_testDue_spoilt b x.readBackOk⟩

end Sys2Proof.Machine
end

section
/-! PROOF. The codec lanes (R85, R205, R206, R231 to R234, R241): which requester a lane serves, how a lane ends its block or unit, and how
a codec job ends. -/

namespace Sys2Proof.Machine

section Lanes

variable {s : State} {m l : Nat}

/-! ### LANE_DISPATCH (R85, R232) -/

theorem laneDispatch_answers (cl : Fin 16) (lane : Fin 4) (s : State) :
    Safety.answers (exec (.laneDispatch cl lane) s) s (dispatch s cl.val lane.val) := finish_answers s _

/-- The lane takes no work now: a pause, a lane that is not free, or a gated cluster while another has a free lane. -/
def laneRests (s : State) (m l : Nat) : Prop :=
  s.fwu.paused = true ∨ laneFree s m l = false ∨ (domGated s (16 + m) = true ∧ openLane s = true)

theorem laneRests_iff : (s.fwu.paused || !laneFree s m l || (domGated s (16 + m) && openLane s)) = true ↔ laneRests s m l := by
  simp only [laneRests, Bool.or_eq_true, Bool.and_eq_true, Bool.not_eq_true', or_assoc]

theorem mem_requesters (k : Nat) : k ∈ requesters s m l ↔ k < 256 ∧ hasWork s m l (k / 64) (k % 64) = true := by
  simp only [requesters, List.mem_filter, List.mem_range]

theorem chooseWork_nil : chooseWork s m l [] = none := by
  simp [chooseWork, keptChain, nextOf]

theorem dispatch_rests (h : laneRests s m l) : dispatch s m l = s := if_pos (laneRests_iff.mpr h)

theorem dispatch_noWork (h : requesters s m l = []) : dispatch s m l = s := by
  simp only [dispatch, h, chooseWork_nil, ite_self]

/-- The requester that is chosen is served, after its cluster is ungated. -/
theorem dispatch_gives {k : Nat} (h : ¬ laneRests s m l) (hk : chooseWork s m l (requesters s m l) = some k) :
    dispatch s m l = giveWork { ungate s (16 + m) with sched := servedWork s.sched (requesters s m l) k } m l k := by
  have awake := mt laneRests_iff.mp h
  simp only [dispatch, if_neg awake, hk]

theorem giveWork_write {v : Nat} {b : Blk} (hv : v < 64) (h : readyWrite s v = some b) :
    giveWork s m l v = giveBlk (saveLane s m l) v m l b none := by
  simp only [giveWork, Nat.div_eq_of_lt hv, Nat.mod_eq_of_lt hv, h]

theorem giveWork_chain {v : Nat} {b : Blk} (hv : v < 64) (h : chainFor s v m l = some b) :
    giveWork s m l (192 + v) = giveChain (saveOthers s m l (v / 4)) v m l b := by
  have kind : (192 + v) / 64 = 3 := by omega
  have volume : (192 + v) % 64 = v := by omega
  simp only [giveWork, kind, volume, h]

/-! ### A fault in a lane's SRAM (R167, R233) -/

/-- The word is uncorrectable, and not one of an ingest buffer: the lane does its block again. -/
def spoilsBlock (f : SramFault) : Prop := f.kind = .uncorrectable ∧ ∀ n i, f.part ≠ .ingest n i

theorem laneAgain_none : laneAgain s m none = (s, false) := rfl

theorem laneAgain_spoilt {f : SramFault} (h : spoilsBlock f) : laneAgain s m (some f) = (sramMet s f (cdcReq m), true) := by
  obtain ⟨lost, notIngest⟩ := h
  simp (disch := exact notIngest) only [laneAgain, sramHit, lost, decide_true, Bool.true_and, Option.all_some]

/-! ### BLOCK_COMPRESSED (R205, R234) -/

theorem blockCompressed_answers (cl : Fin 16) (lane : Fin 4) (ram : Option SramFault) (s : State) :
    Safety.answers (exec (.blockCompressed cl lane ram) s) s (blockCompressed s cl.val lane.val ram) := finish_answers s _

theorem blockCompressed_paused (ram : Option SramFault) (hp : s.fwu.paused = true) : blockCompressed s m l ram = s := by
  unfold blockCompressed
  split
  · simp only [hp, Bool.true_or, if_true]
  · exact if_pos hp
  · rfl

theorem blockCompressed_otherWork (ram : Option SramFault) (hc : ∀ v q, laneWork s m l ≠ .compress v q)
    (he : ∀ v c n a, laneWork s m l ≠ .early v c n a) : blockCompressed s m l ram = s := by
  unfold blockCompressed
  split
  · next v q e => exact absurd e (hc v q)
  · next v c n a e => exact absurd e (he v c n a)
  · rfl

/-- The lane's block is no longer in its volume. -/
def laneBlkGone (s : State) (v q : Nat) : Prop := ∀ b, blk? s v q = some b → b.phase ≠ .lane

/-- The block that a truncation took away from the lane, where there is one (R129). -/
def doomedBlk (s : State) (v q : Nat) : Option Blk := (slice s (v / 4)).doomed.find? fun b => b.vol == v && b.q == q

theorem laneBlk_none {v q : Nat} (h : laneBlkGone s v q) : (blk? s v q).filter (fun b => b.phase == .lane) = none :=
  Option.filter_eq_none_iff.mpr fun b e => by simpa using h b e

section Compress

variable {v q : Nat} (hw : laneWork s m l = .compress v q)
include hw

theorem blockCompressed_noSlot (ram : Option SramFault) (hs : slotReady s v q = false) : blockCompressed s m l ram = s := by
  simp only [blockCompressed, hw, hs, Bool.not_false, Bool.or_true, if_true]

variable (hp : s.fwu.paused = false) (hs : slotReady s v q = true)
include hp hs

theorem blockCompressed_spoilt {f : SramFault} (hf : spoilsBlock f) :
    blockCompressed s m l (some f) = sramMet s f (cdcReq m) := by
  simp [blockCompressed, hw, hp, hs, laneAgain_spoilt hf]

/-- The block that the lane has stands in its volume. -/
theorem blockCompressed_live {b : Blk} (hb : blk? (laneDone s m l) v q = some b) (hl : b.phase = .lane) :
    blockCompressed s m l none = progress (finishBlk (laneDone s m l) m l v b) (v / 4) := by
  simp [blockCompressed, hw, hp, hs, laneAgain_none, hb, hl, Option.filter]

theorem blockCompressed_doomed (hb : laneBlkGone (laneDone s m l) v q) {b : Blk} (hd : doomedBlk (laneDone s m l) v q = some b) :
    blockCompressed s m l none = progress (finishDoomed (laneDone s m l) m l v b) (v / 4) := by
  rw [doomedBlk] at hd
  simp [blockCompressed, hw, hp, hs, laneAgain_none, laneBlk_none hb, hd]

theorem blockCompressed_gone (hb : laneBlkGone (laneDone s m l) v q) (hd : doomedBlk (laneDone s m l) v q = none) :
    blockCompressed s m l none = progress (laneDone s m l) (v / 4) := by
  rw [doomedBlk] at hd
  simp [blockCompressed, hw, hp, hs, laneAgain_none, laneBlk_none hb, hd]

end Compress

section Early

variable {v cid no start : Nat} (hw : laneWork s m l = .early v cid no start) (hp : s.fwu.paused = false)
include hw hp

theorem blockCompressed_early_spoilt {f : SramFault} (hf : spoilsBlock f) :
    blockCompressed s m l (some f) = sramMet s f (cdcReq m) := by
  simp [blockCompressed, hw, hp, laneAgain_spoilt hf]

theorem blockCompressed_early :
    blockCompressed s m l none = progress (finishEarly (laneDone s m l) m l v cid no start) (v / 4) := by
  simp [blockCompressed, hw, hp, laneAgain_none]

end Early

/-! ### BLOCK_DECOMPRESSED (R206, R231, R233) -/

theorem blockDecompressed_answers (cl : Fin 16) (lane : Fin 4) (ram : Option SramFault) (s : State) :
    Safety.answers (exec (.blockDecompressed cl lane ram) s) s (blockDecompressed s cl.val lane.val ram) := finish_answers s _

theorem blockDecompressed_idle (ram : Option SramFault)
    (h : (∀ v i, laneWork s m l ≠ .decompress v i) ∨ s.fwu.paused = true) : blockDecompressed s m l ram = s := by
  unfold blockDecompressed
  split
  · next v i e => exact if_pos (h.resolve_left fun none_such => none_such v i e)
  · rfl

/-- The unit that the lane decodes, where it still has it. -/
def laneUnit (s : State) (v i : Nat) : Option ReadUnit := (slice s (v / 4)).units.find? fun u => u.id == i && u.st == .lane

section Decompress

variable {v i : Nat} (hw : laneWork s m l = .decompress v i) (hp : s.fwu.paused = false)
include hw hp

theorem blockDecompressed_spoilt {f : SramFault} (hf : spoilsBlock f) :
    blockDecompressed s m l (some f) = sramMet s f (cdcReq m) := by
  simp [blockDecompressed, hw, hp, laneAgain_spoilt hf]

theorem blockDecompressed_gone (hu : laneUnit (laneDone s m l) v i = none) :
    blockDecompressed s m l none = progress (laneDone s m l) (v / 4) := by
  rw [laneUnit] at hu
  simp [blockDecompressed, hw, hp, laneAgain_none, hu]

theorem blockDecompressed_live {u : ReadUnit} (hu : laneUnit (laneDone s m l) v i = some u) :
    blockDecompressed s m l none = progress (finishUnit (laneDone s m l) m u) (v / 4) := by
  rw [laneUnit] at hu
  simp [blockDecompressed, hw, hp, laneAgain_none, hu]

end Decompress

/-! ### A unit is decoded (R206, R231) -/

section Unit

variable {u : ReadUnit}

/-- The decided units of the chain before a unit. -/
def unitsBefore (s : State) (u : ReadUnit) : List ReadUnit := (chainUnits s (u.vol / 4) u).filterMap id

/-- What the chain before a unit makes of its bytes. -/
def unitDecode (s : State) (u : ReadUnit) : Decode := decodeBlock (lastHist ((unitsBefore s u).flatMap (·.out))) u.bytes

/-- A unit of a data set that was encrypted is counted at the cipher of its transport. -/
def unitCounted (s : State) (u : ReadUnit) : State :=
  if ((slice s (u.vol / 4)).decoded.any fun d => d.vol == u.vol && d.info.num == u.ds && d.info.label != 0) = true then
    count s (pCiph (u.vol / 4)) 1
  else s

/-- A failure of its chain is the unit's own (R231). -/
theorem finishUnit_chainFailed {w : ReadUnit} (h : (unitsBefore s u).find? (fun w => w.st != .ok) = some w) :
    finishUnit s m u = modUnit (unitCounted s u) (u.vol / 4) u.id fun u => { u with st := w.st } := by
  rw [unitsBefore] at h
  simp only [finishUnit, h, unitCounted]

variable (h : (unitsBefore s u).find? (fun w => w.st != .ok) = none)
include h

theorem finishUnit_decoded {d : List Byte} (hd : unitDecode s u = .ok d) :
    finishUnit s m u = modUnit (count (unitCounted s u) (pCdc m) 1) (u.vol / 4) u.id fun u => { u with st := .ok, out := d } := by
  rw [unitsBefore] at h
  rw [unitDecode, unitsBefore] at hd
  simp only [finishUnit, h, hd, unitCounted]

/-- A unit that does not decode is counted, raised, and read error (4,2) (R206). -/
theorem finishUnit_failed (hd : ∀ d, unitDecode s u ≠ .ok d) :
    finishUnit s m u = modUnit (raise (count (unitCounted s u) (pCdc m) 6) (pCdc m) 8 u.firstLbn (3 + u.vol / 4)) (u.vol / 4) u.id
      fun u => { u with st := .bad 4 2 u.ds } := by
  rw [unitsBefore] at h
  cases e : unitDecode s u with
  | ok d => exact absurd e (hd d)
  | malformed | crc =>
    rw [unitDecode, unitsBefore] at e
    simp only [finishUnit, h, e, unitCounted]

end Unit

/-! ### CODEC_JOB_DONE (R241) -/

section Job

variable {cid : Nat}

theorem codecJobDone_answers (cid : Nat) (s : State) :
    Safety.answers (exec (.codecJobDone cid) s) s (jobDone s cid) := finish_answers s _

/-- The command is a codec job that a cluster runs, outside an activation pause. -/
def jobRuns (s : State) (cid : Nat) : Prop :=
  cOpc (cmd s cid).bytes = 0x10 ∧ (cmd s cid).phase = .running ∧ (cmd s cid).stage = 1 ∧ s.fwu.paused = false

theorem jobRuns_iff : (cOpc (cmd s cid).bytes != 0x10 || (cmd s cid).phase != .running || (cmd s cid).stage != 1 || s.fwu.paused) = false
    ↔ jobRuns s cid := by
  simp only [jobRuns, Bool.or_eq_false_iff, bne_eq_false_iff_eq, and_assoc]

/-- The blocks of a job are counted, and the uncorrectable blocks of its input that it read. -/
def jobRead (s : State) (cid : Nat) : State :=
  let c := cmd s cid
  readBad (countJob s (c.holder - 19) cid c.bytes (jobEnd s c.bytes)) (jobIn c.bytes).1 (jobIn c.bytes).2 c.holder

/-- The output of a job is in its output area, or free bytes where an area was written meanwhile. -/
def jobStored (s : State) (c : Cmd) (out : List Byte) : State :=
  if c.tainted = true then scramble s c else bufWrite s (jobOut c.bytes).1 out c.holder

theorem jobDone_idle (h : ¬ jobRuns s cid) : jobDone s cid = s := if_pos (eq_true_of_ne_false (mt jobRuns_iff.mp h))

variable (h : jobRuns s cid)
include h

/-- A job that has no working slot yet ends only where the metadata of the pool are lost. -/
theorem jobDone_waits (hw : (cmd s cid).workWait = true) :
    jobDone s cid = if s.pool.dead = true then complete s cid (4, 1) (endResult s cid 4) else s := by
  have runs := Bool.eq_false_iff.mp (jobRuns_iff.mpr h)
  simp only [jobDone, if_neg runs, hw, if_true]

variable (hw : (cmd s cid).workWait = false)
include hw

theorem jobDone_failed {code : Code} {k : Nat} (he : jobEnd s (cmd s cid).bytes = .fail code k) :
    jobDone s cid = complete (jobRead s cid) cid code (if code = (4, 3) then 0 else endResult (jobRead s cid) cid code.1) := by
  have runs := Bool.eq_false_iff.mp (jobRuns_iff.mpr h)
  simp only [jobDone, if_neg runs, hw, Bool.false_eq_true, if_false, he, jobRead]

theorem jobDone_ok {out : List Byte} {k : Nat} (he : jobEnd s (cmd s cid).bytes = .ok out k) :
    jobDone s cid = complete (modCmd (jobStored (jobRead s cid) (cmd s cid) out) cid fun c => { c with stage := 2 })
      cid (0, 0) (out.length + 2 ^ 32 * k) := by
  have runs := Bool.eq_false_iff.mp (jobRuns_iff.mpr h)
  simp only [jobDone, if_neg runs, hw, Bool.false_eq_true, if_false, he, jobRead, jobStored]

end Job

end Lanes

/-- Settles O35: a dispatch serves what `chooseWork_spec` chooses; the other clauses are the branches of their operations that the clauses'
hypotheses select. The requesters, their rotation and the counts of passes are the model's choice (log entry 33), and so is the end of a
job whose pool has lost its metadata (log entry 21). -/
theorem laneRows : Obligations.LaneRows := by
  unfold Obligations.LaneRows
  refine ⟨fun cl lane s => ?lanes, fun s m u => ?unit, fun cid s => ?job⟩
  case lanes =>
    intro m l idle ks passed free done decoded spoilt
    have dispatched := laneDispatch_answers cl lane s
    have compressed (ram : Option SramFault) := blockCompressed_answers cl lane ram s
    have decompressed (ram : Option SramFault) := blockDecompressed_answers cl lane ram s
    refine ⟨mem_requesters, fun h => answers_of_eq dispatched (dispatch_rests h), fun _ h => answers_of_eq dispatched (dispatch_noWork h),
      fun h hne => ?serves, fun u v hv => ⟨fun b => giveWork_write hv, fun b => giveWork_chain hv⟩, fun h ram => ?notCompressing,
      fun v q hw hp => ⟨fun hs ram => ?noSlot, fun hs => ⟨fun f hf => ?spoilt, fun b hb hl => ?live, fun hb => ⟨fun b hd => ?doomed, fun hd => ?gone⟩⟩⟩,
      fun v cid no start hw hp => ⟨fun f hf => ?earlySpoilt, ?early⟩, fun h ram => ?notDecoding,
      fun v i hw hp => ⟨fun f hf => ?unitSpoilt, fun hu => ?unitGone, fun u hu => ?unitLive⟩⟩
    case serves =>
      obtain ⟨k, hk, chosen, waited, chain⟩ := chooseWork_spec s m l ks hne fun k hk => ((mem_requesters k).mp hk).1
      exact ⟨k, hk, waited, chain, answers_of_eq dispatched (dispatch_gives h chosen)⟩
    case notCompressing =>
      rcases h with ⟨hc, he⟩ | hp
      · exact answers_of_eq (compressed ram) (blockCompressed_otherWork ram hc he)
      · exact answers_of_eq (compressed ram) (blockCompressed_paused ram hp)
    case noSlot => exact answers_of_eq (compressed ram) (blockCompressed_noSlot hw ram hs)
    case spoilt => exact answers_of_eq (compressed (some f)) (blockCompressed_spoilt hw hp hs hf)
    case live => exact answers_of_eq (compressed none) (blockCompressed_live hw hp hs hb hl)
    case doomed => exact answers_of_eq (compressed none) (blockCompressed_doomed hw hp hs hb hd)
    case gone => exact answers_of_eq (compressed none) (blockCompressed_gone hw hp hs hb hd)
    case earlySpoilt => exact answers_of_eq (compressed (some f)) (blockCompressed_early_spoilt hw hp hf)
    case early => exact answers_of_eq (compressed none) (blockCompressed_early hw hp)
    case notDecoding => exact answers_of_eq (decompressed ram) (blockDecompressed_idle ram h)
    case unitSpoilt => exact answers_of_eq (decompressed (some f)) (blockDecompressed_spoilt hw hp hf)
    case unitGone => exact answers_of_eq (decompressed none) (blockDecompressed_gone hw hp hu)
    case unitLive => exact answers_of_eq (decompressed none) (blockDecompressed_live hw hp hu)
  case unit =>
    exact ⟨fun w => finishUnit_chainFailed, fun h => ⟨fun d => finishUnit_decoded h, finishUnit_failed h⟩⟩
  case job =>
    intro c runs e t
    have answered := codecJobDone_answers cid s
    refine ⟨fun h => answers_of_eq answered (jobDone_idle h), fun h hw hd => ?waits, fun h hw hd => ?poolLost,
      fun code k h hw he => answers_of_eq answered (jobDone_failed h hw he), fun out k h hw he => answers_of_eq answered (jobDone_ok h hw he)⟩
    case waits => exact answers_of_eq answered ((jobDone_waits h hw).trans (if_neg (Bool.eq_false_iff.mp hd)))
    case poolLost => exact answers_of_eq answered ((jobDone_waits h hw).trans (if_pos hd))

end Sys2Proof.Machine
end

section
/-! PROOF. Writes of the key store (R243 to R248): a key word or a LABEL, ERASE, and COMMIT with its check. -/

namespace Sys2Proof.Machine

section KeyStore

variable (s : State) (m : Master)

/-! ### A write to a slot (R244, R245) -/

/-- What a write to a slot starts from: a COMMITTED slot is cleared first (R244). -/
def clearedIfCommitted (x : KeySlot) : KeySlot := if x.st = .committed then {} else x

variable (k : Nat) (f : KeySlot → KeySlot)

theorem slotWrite_disabled (h : enabledNow s .key = false) : slotWrite s m k f = keyResult s m k 5 := by
  simp [slotWrite, h]

variable (he : enabledNow s .key = true)
include he

theorem slotWrite_alarm (ha : alarmActive s = true) : slotWrite s m k f = keyResult s m k 2 := by
  simp [slotWrite, he, ha]

theorem slotWrite_busy (ha : alarmActive s = false) (hb : slotBusy s k = true) : slotWrite s m k f = keyInUse s m k := by
  simp [slotWrite, he, ha, hb]

theorem slotWrite_applied (ha : alarmActive s = false) (hb : slotBusy s k = false) :
    slotWrite s m k f = keyResult (setKey s k (f { clearedIfCommitted (keySlot s k) with st := .loading })) m k 0 := by
  simp [slotWrite, he, ha, hb, modKey_eq, clearedIfCommitted]

omit he

/-- A command that answers a write to a slot answers as the first refusal that applies says, or else with the write (R245). -/
theorem answers_slotWrite {o : Host.Outcome State Fault Refusal} {t : State} (h : Safety.answers o s (slotWrite t m k f)) :
    (enabledNow t .key = false → Safety.answers o s (keyResult t m k 5))
    ∧ (enabledNow t .key = true → alarmActive t = true → Safety.answers o s (keyResult t m k 2))
    ∧ (enabledNow t .key = true → alarmActive t = false → slotBusy t k = true → Safety.answers o s (keyInUse t m k))
    ∧ (enabledNow t .key = true → alarmActive t = false → slotBusy t k = false →
        Safety.answers o s (keyResult (setKey t k (f { clearedIfCommitted (keySlot t k) with st := .loading })) m k 0)) :=
  ⟨fun hd => answers_of_eq h (slotWrite_disabled t m k f hd), fun he ha => answers_of_eq h (slotWrite_alarm t m k f he ha),
    fun he ha hb => answers_of_eq h (slotWrite_busy t m k f he ha hb), fun he ha hb => answers_of_eq h (slotWrite_applied t m k f he ha hb)⟩

/-! ### Key words and labels -/

/-- KEY_WORD_WRITE by a master with the right writes word `w` of key `kk` (R243). -/
theorem keyWordWrite_answers (k : Fin 128) (kk : Fin 3) (w : Fin 8) (v : Word)
    (h : Safety.canWrite s m (.key k.val (0x20 * kk.val + 4 * w.val)) = true) :
    Safety.answers (exec (.keyWordWrite m k kk w v) s) s (keyWord s m k.val (8 * kk.val + w.val) v) := by
  have off_lt : 0x20 * kk.val + 4 * w.val < 0x60 := by omega
  have spot := spotOf_key k.val (0x20 * kk.val + 4 * w.val) k.isLt (by omega)
  have aligned : keyAddr k.val (0x20 * kk.val + 4 * w.val) % 4 = 0 := by unfold keyAddr; omega
  have number : (0x20 * kk.val + 4 * w.val) / 4 = 8 * kk.val + w.val := by omega
  have narrow : isLo (.key k.val (0x20 * kk.val + 4 * w.val)) = false ∧ isHi (.key k.val (0x20 * kk.val + 4 * w.val)) = false := by
    simp only [isLo, isHi, Bool.or_eq_false_iff, beq_eq_false_iff_ne]; omega
  refine answers_of_eq (finish_answers s _) ?_
  rw [mmioWrite_of_can s m _ v aligned (spot ▸ h), spot]
  simp only [applyWrite, narrow.1, narrow.2, Bool.false_eq_true, if_false, if_pos off_lt, number]

/-- Two halves make the 64-bit value. -/
theorem w64_halves (v : DWord) : w64 ((v.setWidth 32).toNat + 2 ^ 32 * ((v >>> 32).setWidth 32).toNat) = v := by
  apply BitVec.eq_of_toNat_eq
  have := v.isLt
  simp only [w64, BitVec.toNat_ofNat, BitVec.toNat_setWidth, BitVec.toNat_ushiftRight, Nat.shiftRight_eq_div_pow]
  omega

/-- LABEL_WRITE by a master with the right writes the label, and uses up the pending LO (R45, R244). -/
theorem labelWrite_answers (k : Fin 128) (v : DWord) (hlo : Safety.canWrite s m (.key k.val 0x60) = true)
    (hhi : Safety.canWrite s m (.key k.val 0x64) = true) :
    Safety.answers (exec (.labelWrite m k v) s) s (keyLabel (setPendLo s m none) m k.val v) := by
  have lo := spotOf_key k.val 0x60 k.isLt (by decide)
  have hi := spotOf_key k.val 0x64 k.isLt (by decide)
  have first : mmioWrite s m (keyAddr k.val 0x60) 0xF (v.setWidth 32) = setPendLo s m (some (keyAddr k.val 0x60, v.setWidth 32)) :=
    mmioWrite_lo s m _ _ (by unfold keyAddr; omega) (lo ▸ hlo) (by rw [lo]; rfl) (by rw [lo]; rfl)
  have second (t : State) (ht : Safety.canWrite t m (.key k.val 0x64) = true) (x : Word) :
      mmioWrite t m (keyAddr k.val 0x64) 0xF x = hiWrite t m (.key k.val 0x64) (keyAddr k.val 0x60 + 4) x :=
    hi ▸ mmioWrite_hi t m (keyAddr k.val 0x64) x (by unfold keyAddr; omega) (hi ▸ ht) (by rw [hi]; rfl) (by rw [hi]; rfl) (by rw [hi]; rfl)
  refine answers_of_eq (finish_answers s _) ?_
  rw [labelBoth, first, second (setPendLo s m _) (canWrite_pendLo s m _ _ hhi), hiWrite_eq, appliedLo_pending, pairWrite, w64_halves]
  exact congrArg (fun t => keyLabel t m k.val v) (setPendLo_setPendLo s m _ none)

/-! ### SLOT_OP (R245, R246) -/

/-- A master with the right writes `KEY.SLOT_OP`. -/
theorem regWrite_slotOp (v : Word) (h : Safety.canWrite s m (.page .key 0x040) = true) : regWrite s m .key 0x040 v = slotOp s m v :=
  regWrite_block s m .key 0x040 v (roR 0x040) (by decide) (by decide) (by decide) rfl rfl h

/-- The fields of a word of `KEY.SLOT_OP`. -/
theorem slotOpWord_fields (op : Nat) (ho : op < 4) (hk : k < 128) :
    (w32 (0x100 * op + k)).toNat % 128 = k ∧ (w32 (0x100 * op + k)).toNat / 256 % 4 = op := by
  simp only [w32, BitVec.toNat_ofNat]
  omega

/-- What a word of `KEY.SLOT_OP` starts, by its fields. -/
theorem slotOp_fields {v : Word} {slot op : Nat} (hs : v.toNat % 128 = slot) (ho : v.toNat / 256 % 4 = op) : slotOp s m v =
    if (!enabledNow s .key) = true then keyResult s m slot 5 else if op = 1 then commitOp s m slot
    else if op = 2 then eraseOp s m slot else keyResult s m slot 4 := by
  subst hs ho
  rfl

theorem slotOp_word (op : Nat) (ho : op < 4) (hk : k < 128) : slotOp s m (w32 (0x100 * op + k)) =
    if (!enabledNow s .key) = true then keyResult s m k 5 else if op = 1 then commitOp s m k else if op = 2 then eraseOp s m k
    else keyResult s m k 4 :=
  slotOp_fields s m (slotOpWord_fields k op ho hk).1 (slotOpWord_fields k op ho hk).2

theorem slotOp_disabled (op : Nat) (ho : op < 4) (hk : k < 128) (h : enabledNow s .key = false) :
    slotOp s m (w32 (0x100 * op + k)) = keyResult s m k 5 :=
  (slotOp_word s m k op ho hk).trans (if_pos (by rw [h]; rfl))

/-- The KEY page is enabled. -/
theorem not_keyDisabled (h : enabledNow s .key = true) : ¬ (!enabledNow s .key) = true := by rw [h]; decide

theorem slotOp_commit (hk : k < 128) (h : enabledNow s .key = true) : slotOp s m (w32 (0x100 * 1 + k)) = commitOp s m k := by
  rw [slotOp_word s m k 1 (by decide) hk, if_neg (not_keyDisabled s h), if_pos rfl]

theorem slotOp_erase (hk : k < 128) (h : enabledNow s .key = true) : slotOp s m (w32 (0x100 * 2 + k)) = eraseOp s m k := by
  rw [slotOp_word s m k 2 (by decide) hk, if_neg (not_keyDisabled s h), if_neg (by decide), if_pos rfl]

/-- COMMIT and ERASE are writes of the operations 1 and 2. -/
theorem commit_answers (k : Fin 128) (h : Safety.canWrite s m (.page .key 0x040) = true) :
    Safety.answers (exec (.commit m k) s) s (slotOp s m (w32 (0x100 * 1 + k.val))) :=
  answers_of_eq (finish_answers s _) (regWrite_slotOp s m _ h)

theorem erase_answers (k : Fin 128) (h : Safety.canWrite s m (.page .key 0x040) = true) :
    Safety.answers (exec (.erase m k) s) s (slotOp s m (w32 (0x100 * 2 + k.val))) :=
  answers_of_eq (finish_answers s _) (regWrite_slotOp s m _ h)

theorem eraseOp_busy (h : slotBusy s k = true) : eraseOp s m k = keyInUse s m k := if_pos h

theorem eraseOp_empties (h : slotBusy s k = false) : eraseOp s m k = keyResult (setKey s k {}) m k 0 :=
  if_neg (Bool.eq_false_iff.mp h)

/-! ### COMMIT (R248) -/

/-- One of the three keys is all zero bits. -/
theorem anyKeyZero_iff : ((List.range 3).any fun i => keyBytes s k i == zeros 32) = true
    ↔ keyBytes s k 0 = zeros 32 ∨ keyBytes s k 1 = zeros 32 ∨ keyBytes s k 2 = zeros 32 := by
  rw [show List.range 3 = [0, 1, 2] from rfl]
  simp only [List.any_cons, List.any_nil, Bool.or_false, Bool.or_eq_true, beq_iff_eq]

/-- Another COMMITTED slot has the label `l`. -/
theorem labelTaken_iff (l : DWord) : (s.keys.any fun y => y.1 != k && y.2.st == .committed && y.2.label == l) = true
    ↔ ∃ y ∈ s.keys, y.1 ≠ k ∧ y.2.st = .committed ∧ y.2.label = l := by
  simp only [List.any_eq_true, Bool.and_eq_true, bne_iff_ne, beq_iff_eq, and_assoc]

/-- The check is in CHECK with the slot as FIELD, and CHECK_FAILED is raised. -/
theorem commitOp_failed (h : commitCheck s k ≠ 0) : commitOp s m k = keyResult (setPage s .key { page s .key with
    reason := BitVec.ofNat 16 (commitCheck s k), field := BitVec.ofNat 8 k, evt := (page s .key).evt ||| 1 }) m k 3 := by
  simp only [commitOp, setCheck_eq, bne_iff_ne, ne_eq, h, not_false_eq_true, if_true, if_false]

/-- The slot is COMMITTED with no data unit counted; one that was so already stays as it is. -/
theorem commitOp_passed (h : commitCheck s k = 0) :
    let t := setPage s .key { page s .key with reason := 0, field := 0 }
    commitOp s m k = keyResult (count (if (keySlot s k).st = .committed then t
      else setKey t k { keySlot s k with st := .committed, du := 0 }) .key 1) m k 0 := by
  simp only [commitOp, setCheck_eq, h, if_true, bne_self_eq_false, Bool.false_eq_true, if_false]
  rfl

/-- A slot that is set reads so, and every other is as it was. -/
theorem keySlot_setKey_ite (y : KeySlot) (j : Nat) : keySlot (setKey s k y) j = if j = k then y else keySlot s j := by
  split
  · subst j; exact keySlot_setKey s k y
  · exact keySlot_setKey_ne s k j y ‹_›

end KeyStore

/-- Settles O36: the writes by `answers_slotWrite`, of the state in which the pending LO is used up where LABEL is written; ERASE and COMMIT
by the branches of their operations. -/
theorem keyStoreRows : Obligations.KeyStoreRows := by
  unfold Obligations.KeyStoreRows
  intro m k s x result used base on write why pg
  refine ⟨fun kk w v h => answers_slotWrite s m k.val _ (keyWordWrite_answers s m k kk w v h),
    fun v hlo hhi => answers_slotWrite s m k.val _ (labelWrite_answers s m k v hlo hhi), fun h => ?ops,
    fun t => keySlot_setKey_ite t k.val⟩
  case ops =>
    have erased := erase_answers s m k h
    have committed := commit_answers s m k h
    have check : commitCheck s k.val = why := by
      simp only [commitCheck, anyKeyZero_iff, labelTaken_iff, bne_iff_ne, Bool.or_eq_true, decide_eq_true_eq, why, x]
    have erases (he : enabledNow s .key = true) := answers_of_eq erased (slotOp_erase s m k.val k.isLt he)
    have commits (he : enabledNow s .key = true) := answers_of_eq committed (slotOp_commit s m k.val k.isLt he)
    refine ⟨fun hd => ?disabled, fun he hb => ?inUse, fun he hb => ?empties, fun he hw => ?fails, fun he hw => ⟨_, rfl, ?passes⟩⟩
    case disabled =>
      exact ⟨answers_of_eq erased (slotOp_disabled s m k.val 2 (by decide) k.isLt hd),
        answers_of_eq committed (slotOp_disabled s m k.val 1 (by decide) k.isLt hd)⟩
    case inUse => exact answers_of_eq (erases he) (eraseOp_busy s m k.val hb)
    case empties => exact answers_of_eq (erases he) (eraseOp_empties s m k.val hb)
    case fails => exact check ▸ answers_of_eq (commits he) (commitOp_failed s m k.val (check ▸ hw))
    case passes => exact answers_of_eq (commits he) (commitOp_passed s m k.val (check.trans hw))

end Sys2Proof.Machine
end

section
/-! PROOF. Zeroise (R259 to R262, R420): the write that asks for one, the alarm sources that cause one, and what it does. -/

namespace Sys2Proof.Machine

section Zeroise

variable (s : State)

/-! ### The rows -/

/-- KEY_ZEROISE_WRITE by a master with the right zeroises as a HOST alarm (R246, R259). -/
theorem keyZeroiseWrite_answers (m : Master) (h : Safety.canWrite s m (.page .key 0x044) = true) :
    Safety.answers (exec (.keyZeroiseWrite m) s) s (zeroise s 5 (mIdx m)) :=
  answers_of_eq (finish_answers s _) (regWrite_block s m .key 0x044 1 (roR 0x044) (by decide) (by decide) (by decide) rfl rfl h)

theorem alarmSourceActive_answers (a : AlarmSrc) : Safety.answers (exec (.alarmSourceActive a) s) s (alarmOn s a) := finish_answers s _

theorem alarmCleared_answers (a : AlarmSrc) : Safety.answers (exec (.alarmCleared a) s) s (alarmOff s a) := finish_answers s _

/-! ### Alarm sources (R246, R259, R498) -/

/-- The sources that are active, with the source `a` among them. -/
def alarmJoins (s : State) (a : AlarmSrc) : State := { s with alarms := s.alarms ++ [a] }

/-- The sources that are active, without the source `a`. -/
def alarmLeaves (s : State) (a : AlarmSrc) : State := { s with alarms := s.alarms.filter (· != a) }

variable (a : AlarmSrc)

theorem alarmOn_active (h : s.alarms.contains a = true) : alarmOn s a = s := if_pos h

theorem alarmOn_joins (h : s.alarms.contains a = false) : alarmOn s a = alarmActs (alarmJoins s a) a :=
  if_neg (Bool.eq_false_iff.mp h)

theorem alarmActs_silent (h : srcEnabled s a = false ∨ s.pwr.supplied = false ∨ (a = .rail ∧ s.pwr.phase = .powerFail)) :
    alarmActs s a = s := by
  rcases h with h | h | ⟨h, hp⟩
  · simp [alarmActs, h]
  · simp [alarmActs, h]
  · simp [alarmActs, h, hp]

theorem alarmActs_zeroises (he : srcEnabled s a = true) (hs : s.pwr.supplied = true) (hr : ¬ (a = .rail ∧ s.pwr.phase = .powerFail)) :
    alarmActs s a = endLantern (zeroise s (srcBit a)) true := by
  have rail : (a == .rail && s.pwr.phase == .powerFail) = false := by simpa using hr
  simp only [alarmActs, he, hs, rail, Bool.not_true, Bool.or_self, Bool.false_eq_true, if_false]

theorem alarmOff_last (h : alarmActive s = true) (hn : alarmActive (alarmLeaves s a) = false) :
    alarmOff s a = raise (alarmLeaves s a) .key 9 :=
  if_pos (by rw [h, Bool.true_and, Bool.not_eq_true']; exact hn)

theorem alarmOff_silent (h : alarmActive s = false ∨ alarmActive (alarmLeaves s a) = true) : alarmOff s a = alarmLeaves s a :=
  if_neg (by
    rw [Bool.and_eq_true, Bool.not_eq_true']
    rintro ⟨was, gone⟩
    rcases h with h | h
    · exact absurd (was.symm.trans h) (by decide)
    · exact absurd (h.symm.trans gone) (by decide))

/-! ### What a zeroise does -/

/-- No binding to a slot is left (R262). -/
theorem bind_loseBindings (v k : Nat) : (vol (loseBindings s) v).bind ≠ .slot k := by
  have lost := bind_loseBind (vol s v)
  rw [vol_loseBindings]
  intro bound
  rw [bound] at lost
  exact Bool.noConfusion (lost : true = false)

/-- A 64-bit register takes a value modulo 2^64. -/
theorem reg64_setReg64_mod (pg : PageId) (off v : Nat) : reg64 (setReg64 s pg off v) pg off = v % 2 ^ 64 := by
  have lo : BitVec.ofNat 32 (v % 2 ^ 64) = BitVec.ofNat 32 v := BitVec.eq_of_toNat_eq (by simp only [BitVec.toNat_ofNat]; omega)
  have hi : BitVec.ofNat 32 (v % 2 ^ 64 / 2 ^ 32) = BitVec.ofNat 32 (v / 2 ^ 32) :=
    BitVec.eq_of_toNat_eq (by simp only [BitVec.toNat_ofNat]; omega)
  have wraps : setReg64 s pg off v = setReg64 s pg off (v % 2 ^ 64) := by simp only [setReg64, lo, hi]
  rw [wraps, reg64_setReg64 s pg off _ (Nat.mod_lt _ (by decide))]

/-- The latches of a zeroise: its cause, the management alarm, the time; nothing but registers changes (R246, R420). -/
theorem zeroiseMarks_spec (cause : Nat) :
    reg (zeroiseMarks s cause) .key 0x054 = reg s .key 0x054 ||| w32 (2 ^ cause)
      ∧ reg (zeroiseMarks s cause) .mgt 0x04C = reg s .mgt 0x04C ||| 0x80
      ∧ reg64 (zeroiseMarks s cause) .key 0x058 = now s % 2 ^ 64
      ∧ zeroiseMarks s cause = { s with pages := (zeroiseMarks s cause).pages } := by
  refine ⟨?_, ?_, reg64_setReg64_mod _ .key 0x058 _, rfl⟩
  · rw [zeroiseMarks, reg_setReg64_ne _ _ _ _ _ _ (.inr (by decide)), reg_setReg_ne _ _ _ _ _ _ (.inl (by decide)), reg_setReg]
  · rw [zeroiseMarks, reg_setReg64_ne _ _ _ _ _ _ (.inl (by decide)), reg_setReg, reg_setReg_ne _ _ _ _ _ _ (.inl (by decide))]

end Zeroise

/-- Settles O37: the sources by the branches of their operations, the steps of a zeroise by its definition. That the channel data of a burst
ends at its round and that the commands at work go on are deduced (log entry 36). -/
theorem zeroiseRows : Obligations.ZeroiseRows := by
  unfold Obligations.ZeroiseRows
  intro s
  refine ⟨keyZeroiseWrite_answers s, fun a h => answers_of_eq (alarmSourceActive_answers s a) (alarmOn_active s a h), fun a h => ?becomes,
    ⟨rfl, rfl, rfl, rfl, rfl⟩, fun a => ?ends, fun cause req => ⟨rfl, bind_loseBindings _⟩, keySlot_zeroSlots s,
    fun cause _ => zeroiseMarks_spec s cause⟩
  case becomes =>
    have joined := answers_of_eq (alarmSourceActive_answers s a) (alarmOn_joins s a h)
    exact ⟨fun hn => answers_of_eq joined (alarmActs_silent (alarmJoins s a) a hn),
      fun he hs hr => answers_of_eq joined (alarmActs_zeroises (alarmJoins s a) a he hs hr)⟩
  case ends =>
    exact ⟨fun hw hn => answers_of_eq (alarmCleared_answers s a) (alarmOff_last s a hw hn),
      fun h => answers_of_eq (alarmCleared_answers s a) (alarmOff_silent s a h)⟩

end Sys2Proof.Machine
end

section
/-! PROOF. The 12 V input and the hold-up store (R244, R410 to R412, R496): what each of their events does, one lemma for each branch of its
operation. -/

namespace Sys2Proof.Machine

section Supply

variable (s : State)

/-! ### The rows -/

theorem vinDip_answers : Safety.answers (exec .vinDip s) s (vinDipOp s) := finish_answers s _
theorem vinRecover_answers : Safety.answers (exec .vinRecover s) s (vinRecoverOp s) := finish_answers s _
theorem powerFail_answers : Safety.answers (exec .powerFail s) s (powerFailOp s) := finish_answers s _
theorem powerReturn_answers : Safety.answers (exec .powerReturn s) s (powerReturnOp s) := finish_answers s _
theorem holdupExhausted_answers : Safety.answers (exec .holdupExhausted s) s (holdupEmpty s) := finish_answers s _
theorem holdupCharged_answers : Safety.answers (exec .holdupCharged s) s (holdupCharged s) := finish_answers s _
theorem holdupDegraded_answers : Safety.answers (exec .holdupDegraded s) s (holdupLate s) := finish_answers s _

/-! ### A dip of the input (R496) -/

theorem vinDipOp_drops (h : s.pwr.pgOut = true) :
    vinDipOp s = setPin (modPwr s fun p => { p with pgOut := false, dipped := true }) "PG_OUT" false := if_pos h

theorem vinDipOp_unchanged (h : s.pwr.pgOut = false) : vinDipOp s = s := if_neg (Bool.eq_false_iff.mp h)

theorem vinRecoverOp_rises (hd : s.pwr.dipped = true) (he : s.pwr.pwrEnHigh = true) :
    vinRecoverOp s = setPin (modPwr s fun p => { p with pgOut := true, dipped := false }) "PG_OUT" true :=
  if_pos (by rw [hd, he]; rfl)

theorem vinRecoverOp_unchanged (h : s.pwr.dipped = false ∨ s.pwr.pwrEnHigh = false) : vinRecoverOp s = s := by
  rcases h with h | h <;> simp [vinRecoverOp, h]

/-! ### A power fail (R411, R412) -/

/-- The entry of a power fail: the voltages of the input and of the store. -/
def powerFailEntry (s : State) : LogEntry := mgmtEntry s 0x0581 2 0x3F (sensor s 48).value.toNat (sensor s 49).value.toNat 0 0

/-- The held entries leave the time and the sensors as they are, so the entry is that of the state before they were written. -/
theorem powerFailEntry_writeHeld : powerFailEntry (writeHeld s) = powerFailEntry s := by
  rw [writeHeld_logFrame s]; rfl

theorem powerFailOp_fails (h : s.pwr.phase ≠ .powerFail) :
    powerFailOp s = powerOff (logPush (writeHeld s) (powerFailEntry s)) .powerFail .powerFail := by
  rw [← powerFailEntry_writeHeld]
  exact if_neg h

theorem powerFailOp_unchanged (h : s.pwr.phase = .powerFail) : powerFailOp s = s := if_pos h

theorem powerReturnOp_returns (h : s.pwr.phase = .powerFail) : powerReturnOp s = modPwr (emptyKeys s) fun p => { p with phase := .off } :=
  if_pos h

theorem powerReturnOp_unchanged (h : s.pwr.phase ≠ .powerFail) : powerReturnOp s = s := if_neg h

theorem holdupEmpty_loses (h : s.pwr.phase = .powerFail) : holdupEmpty s = { s with
    keys := [], tim := {}, pages := [], mem := {}
    pwr := { s.pwr with phase := .off, cause := .powerOn, supplied := false, charge := 0, degraded := false } } :=
  if_neg (by rw [h]; decide)

theorem holdupEmpty_unchanged (h : s.pwr.phase ≠ .powerFail) : holdupEmpty s = s := if_pos (bne_iff_ne.mpr h)

/-! ### The charge of the store (R410) -/

theorem holdupCharged_charges (hq : s.pwr.charge < 90) (ho : s.pwr.phase ≠ .off) (hf : s.pwr.phase ≠ .powerFail) :
    holdupCharged s = chargedOp s 90 := by
  simp [holdupCharged, hq, ho, hf]

theorem holdupCharged_unchanged (h : 90 ≤ s.pwr.charge ∨ s.pwr.phase = .off ∨ s.pwr.phase = .powerFail) : holdupCharged s = s := by
  rcases h with h | h | h
  · simp [holdupCharged, Nat.not_lt.mpr h]
  · simp [holdupCharged, h]
  · simp [holdupCharged, h]

theorem holdupLate_raises (hq : s.pwr.charge < 90) (hd : s.pwr.degraded = false) :
    holdupLate s = raise (modPwr s fun p => { p with degraded := true }) .pwr 10 := by
  simp [holdupLate, hq, hd]

theorem holdupLate_unchanged (h : 90 ≤ s.pwr.charge ∨ s.pwr.degraded = true) : holdupLate s = s := by
  rcases h with h | h
  · simp [holdupLate, Nat.not_lt.mpr h]
  · simp [holdupLate, h]

end Supply

/-- Settles O46: each clause is the branch of its event's operation that the clause's hypotheses select. That POWER_RETURN keeps the TAI
count and its validity, and that both POWER_RETURN and HOLDUP_EXHAUSTED empty the keys, is the model's reading (log entries 37 and 64). -/
theorem supplyRows : Obligations.SupplyRows := by
  unfold Obligations.SupplyRows
  intro s p go mv failed
  refine ⟨?dips, ?dipNone, ?recovers, ?recoverNone, ?fails, ?failNone, ?returns, ?returnNone, ?exhausted, ?exhaustedNone, ?charged,
    ?chargedNone, ?degraded, ?degradedNone⟩
  case dips => exact fun h => answers_of_eq (vinDip_answers s) (vinDipOp_drops s h)
  case dipNone => exact fun h => answers_of_eq (vinDip_answers s) (vinDipOp_unchanged s h)
  case recovers => exact fun hd he => answers_of_eq (vinRecover_answers s) (vinRecoverOp_rises s hd he)
  case recoverNone => exact fun h => answers_of_eq (vinRecover_answers s) (vinRecoverOp_unchanged s h)
  case fails => exact fun h => answers_of_eq (powerFail_answers s) (powerFailOp_fails s h)
  case failNone => exact fun h => answers_of_eq (powerFail_answers s) (powerFailOp_unchanged s h)
  case returns => exact fun h => answers_of_eq (powerReturn_answers s) (powerReturnOp_returns s h)
  case returnNone => exact fun h => answers_of_eq (powerReturn_answers s) (powerReturnOp_unchanged s h)
  case exhausted => exact fun h => answers_of_eq (holdupExhausted_answers s) (holdupEmpty_loses s h)
  case exhaustedNone => exact fun h => answers_of_eq (holdupExhausted_answers s) (holdupEmpty_unchanged s h)
  case charged => exact fun hq ho hf => answers_of_eq (holdupCharged_answers s) (holdupCharged_charges s hq ho hf)
  case chargedNone => exact fun h => answers_of_eq (holdupCharged_answers s) (holdupCharged_unchanged s h)
  case degraded => exact fun hq hd => answers_of_eq (holdupDegraded_answers s) (holdupLate_raises s hq hd)
  case degradedNone => exact fun h => answers_of_eq (holdupDegraded_answers s) (holdupLate_unchanged s h)

end Sys2Proof.Machine
end

section
/-! PROOF. The rows of a tape (R273, R282, R309, R323, R325, R327): one lemma for each branch of the row's operation, and the obligation on
them. -/

namespace Sys2Proof.Machine

section Tape

variable {s : State} {n : Nat}

/-! ### The rows -/

/-- A row of a slice does nothing in an activation pause (R157). -/
theorem sliceRow_paused (f : State → Nat → State) (hp : s.fwu.paused = true) : sliceRow s n f = s := if_pos hp

/-- Outside a pause, what the row does is followed by what the transport then does. -/
theorem sliceRow_runs (f : State → Nat → State) (hp : s.fwu.paused = false) : sliceRow s n f = progress (f s n) n :=
  if_neg (Bool.eq_false_iff.mp hp)

section Rows

variable (n : Fin 16) (s : State)

theorem idleCloseExpiry_answers (p : Fin 4) : Safety.answers (exec (.idleCloseExpiry n p) s) s
    (sliceRow s n.val fun s n => closeOpen s (4 * n + p.val) true false) := finish_answers s _

theorem itemBoundary_answers (f : Option SramFault) : Safety.answers (exec (.itemBoundary n f) s) s
    (sliceRow s n.val fun s n => boundaryRow s n f) := finish_answers s _

theorem tapeRestart_answers : Safety.answers (exec (.tapeRestart n) s) s (sliceRow s n.val restart) := finish_answers s _

theorem speedRampStep_answers : Safety.answers (exec (.speedRampStep n) s) s (rampStep s n.val) := finish_answers s _

theorem dataSetRead_answers (ram : Option (Fin 256 × SramFault)) : Safety.answers (exec (.dataSetRead n ram) s) s
    (sliceRow s n.val fun s n => readAttempt s n ram) := finish_answers s _

theorem cartridgeRecordWrite_answers : Safety.answers (exec (.cartridgeRecordWrite n) s) s (sliceRow s n.val writeRecord) :=
  finish_answers s _

end Rows

/-! ### SPEED_RAMP_STEP (R323) -/

theorem rampStep_rests (h : (slice s n).stopped = true ∨ (slice s n).ramping = false) : rampStep s n = s := by
  rcases h with h | h <;> simp [rampStep, h]

section Ramp

variable (hs : (slice s n).stopped = false) (hr : (slice s n).ramping = true)
include hs hr

theorem rampStep_rises (h : (slice s n).current < (slice s n).target) : rampStep s n = modSlice s n fun x =>
    { x with current := (slice s n).current + 1, ramping := (slice s n).current + 1 != (slice s n).target } := by
  simp [rampStep, modSlice_eq, hs, hr, h]

theorem rampStep_falls (h : (slice s n).target < (slice s n).current) : rampStep s n = modSlice s n fun x =>
    { x with current := (slice s n).current - 1, ramping := (slice s n).current - 1 != (slice s n).target } := by
  simp [rampStep, modSlice_eq, hs, hr, h, Nat.lt_asymm h]

/-- A ramp that was redirected reaches the step it came from. -/
theorem rampStep_arrives (h : (slice s n).current = (slice s n).target) : rampStep s n = modSlice s n fun x =>
    { x with current := (slice s n).current, ramping := false } := by
  simp [rampStep, modSlice_eq, hs, hr, h]

end Ramp

/-! ### ITEM_BOUNDARY (R143, R167, R309, R322) -/

/-- A new speed target goes to the loops (R374). -/
def speedAimed (s t : State) (n : Nat) : State := if (slice t n).target = (slice s n).target then t else aimSpeed t n

theorem frameHit_none : frameHit s n none = s := by
  unfold frameHit
  split
  · rfl
  · rfl

/-- An uncorrectable word of the frame SRAM halts the volume that is being written. -/
theorem frameHit_lost {v : Nat} {f : SramFault} (hb : (slice s n).inBurst = true) (hv : (slice s n).curVol = some v)
    (hf : f.kind = .uncorrectable) : frameHit s n (some f) = haltBuffer (sramMet s f (3 + n)) v := by
  simp [frameHit, sramHit, hb, hv, hf]

theorem boundaryRow_none {t : State} (h : boundary s n = t) : boundaryRow s n none = speedAimed s t n := by
  rw [boundaryRow, frameHit_none, h, speedAimed]

theorem boundaryRow_lost {v : Nat} {f : SramFault} (hb : (slice s n).inBurst = true) (hv : (slice s n).curVol = some v)
    (hf : f.kind = .uncorrectable) :
    boundaryRow s n (some f) = speedAimed s (boundary (haltBuffer (sramMet s f (3 + n)) v) n) n := by
  rw [boundaryRow, frameHit_lost hb hv hf, speedAimed]

/-- A burst that is not ending writes. -/
def burstWrites (s : State) (n : Nat) : Prop :=
  (slice s n).inBurst = true ∧ (slice s n).ending = false ∧ (link s n).mode = .writing

theorem burstWrites_iff : ((slice s n).inBurst && !(slice s n).ending && decide ((link s n).mode = .writing)) = true ↔ burstWrites s n := by
  simp only [burstWrites, Bool.and_eq_true, Bool.not_eq_true', decide_eq_true_eq, and_assoc]

theorem boundary_idle (h : ¬ burstWrites s n) : boundary s n = s := by
  simp only [boundary, eq_false_of_ne_true (mt burstWrites_iff.mp h), Bool.not_false, if_true]

/-- The state after the pending whole rewrites of a boundary whose rewrite area left the state `a`. -/
def wholesDone (a : State) (n v : Nat) : State := boundaryWhole a v ((slice a n).whole.length + 1)

section Writing

variable (h : burstWrites s n)
include h

theorem boundary_stops (hv : (slice s n).curVol = none ∨ (slice s n).stopNow = true) : boundary s n = endBurst s n none := by
  simp only [boundary, burstWrites_iff.mpr h, Bool.not_true, Bool.false_eq_true, if_false]
  split
  · rfl
  · next e => exact if_pos (hv.resolve_left (by simp [e]))

variable {v : Nat} (hv : (slice s n).curVol = some v) (hn : (slice s n).stopNow = false)
include hv hn

/-- The steps of R309, each as far as none before it ends the burst. -/
theorem boundary_steps : boundary s n =
    let a := boundaryArea s v
    let w := wholesDone a n v
    if (slice a n).ending then a else if (slice w n).ending then w else if (slice w n).stopNow then endBurst w n none
    else boundaryNext w v := by
  unfold wholesDone
  simp only [boundary, burstWrites_iff.mpr h, hv, hn, Bool.not_true, Bool.false_eq_true, if_false]

theorem boundary_areaEnds (ha : (slice (boundaryArea s v) n).ending = true) : boundary s n = boundaryArea s v :=
  (boundary_steps h hv hn).trans (if_pos ha)

variable (ha : (slice (boundaryArea s v) n).ending = false)
include ha

theorem boundary_wholeEnds (hw : (slice (wholesDone (boundaryArea s v) n v) n).ending = true) :
    boundary s n = wholesDone (boundaryArea s v) n v := by
  simp [boundary_steps h hv hn, ha, hw]

variable (hw : (slice (wholesDone (boundaryArea s v) n v) n).ending = false)
include hw

theorem boundary_stopAsked (hs : (slice (wholesDone (boundaryArea s v) n v) n).stopNow = true) :
    boundary s n = endBurst (wholesDone (boundaryArea s v) n v) n none := by
  simp [boundary_steps h hv hn, ha, hw, hs]

theorem boundary_nextSet (hs : (slice (wholesDone (boundaryArea s v) n v) n).stopNow = false) :
    boundary s n = boundaryNext (wholesDone (boundaryArea s v) n v) v := by
  simp [boundary_steps h hv hn, ha, hw, hs]

end Writing

/-! ### TAPE_RESTART (R291, R325) -/

theorem restart_rests (h : atRest s n = false ∨ restartVol s n = none) : restart s n = s := by
  rcases h with h | h <;> simp [restart, h]

/-- The entry of the map that the reading of a seed begins at: that of the group, or the append point. -/
def seedEntry (y : Vol) : MapEntry :=
  y.map.getD y.group { firstLbn := 0, firstDs := 0, marksBefore := 0, startWrap := y.wrap, startLpos := y.endLpos, endWrap := y.wrap,
                       members := 0, endLpos := y.endLpos }

theorem seedEntry_mapped {y : Vol} (e : MapEntry) (h : y.map[y.group]? = some e) : seedEntry y = e := by
  simp only [seedEntry, List.getD_eq_getElem?_getD, h, Option.getD_some]

theorem seedEntry_unmapped {y : Vol} (h : y.map[y.group]? = none) :
    (seedEntry y).startWrap = y.wrap ∧ (seedEntry y).startLpos = y.endLpos := by
  simp only [seedEntry, List.getD_eq_getElem?_getD, h, Option.getD_none, and_self]

section Restarting

variable (hp : s.fwu.paused = false) (hr : atRest s n = true) {v : Nat} (hv : restartVol s n = some v)
include hp hr hv

theorem restart_seeds (hs : seedFirst s v = true) : restart s n = modSlice s n fun z => { z with gather := {
    purpose := .seed v, phase := .seek, vol := v, wrap := (seedEntry (vol s v)).startWrap, lpos := (seedEntry (vol s v)).startLpos } } := by
  simp only [restart, hp, hr, hv, hs, seedEntry, Bool.not_true, Bool.or_self, Bool.false_eq_true, if_true, if_false]

variable (hs : seedFirst s v = false)
include hs

theorem restart_writes (hh : (slice s n).headAt = some ((vol s v).wrap, (vol s v).endLpos, (vol s v).endUm)) (hm : (vol s v).moved = false) :
    restart s n = startWrite s n v := by
  simp [restart, hp, hr, hv, hs, hh, hm]

/-- The head is not at the append point, or the append point has moved. -/
theorem restart_locates
    (hh : (slice s n).headAt ≠ some ((vol s v).wrap, (vol s v).endLpos, (vol s v).endUm) ∨ (vol s v).moved = true) :
    restart s n = startLocate s n (.append v) (vol s v).wrap (vol s v).endLpos 0 := by
  rcases hh with hh | hm
  · simp [restart, hp, hr, hv, hs, hh]
  · simp [restart, hp, hr, hv, hs, hm]

end Restarting

/-! ### DATA_SET_READ (R141, R167, R258, R292, R314, R327, R328) -/

/-- The state of an attempt once its fault of the frame SRAM is counted. -/
def attemptMet (s : State) (n : Nat) (ram : Option (Fin 256 × SramFault)) : State := (sramHit s (ram.map (·.2)) (3 + n)).1

/-- The columns of a set that an attempt corrected, without those of an SDS in an uncorrectable frame. -/
def attemptCols (s : State) (n : Nat) (ram : Option (Fin 256 × SramFault)) (d : GSet) : Tbl (List Byte) :=
  if (sramHit s (ram.map (·.2)) (3 + n)).2 = true then withoutSds (goodCols (slice s n).gather d) (ram.map (·.1.val))
  else goodCols (slice s n).gather d

theorem readAttempt_idle (ram : Option (Fin 256 × SramFault)) (h : (slice s n).gather.phase ≠ .running) : readAttempt s n ram = s :=
  if_pos (bne_iff_ne.mpr h)

section Attempt

variable {ram : Option (Fin 256 × SramFault)} (hg : (slice s n).gather.phase = .running)
include hg

theorem readAttempt_noSet (hd : setInTurn (slice s n).gather = none) : readAttempt s n ram =
    if mayTurn (attemptMet s n ram) n then nextWrap (attemptMet s n ram) n else readFailed (attemptMet s n ram) n none [] := by
  unfold attemptMet
  simp only [readAttempt, hg, hd, bne_self_eq_false, Bool.false_eq_true, if_false]

variable {d : GSet} (hd : setInTurn (slice s n).gather = some d)
include hd

section Skipped

variable (hk : d.kind = .ridge) (hr : (slice s n).gather.rebuild = none)
include hk hr

/-- Of a parity that is not needed, the branch of a seed is ruled out by `hp`. -/
theorem readAttempt_skips (hp : ∀ v, (slice s n).gather.purpose ≠ .seed v) :
    readAttempt s n ram = gotSet (attemptMet s n ram) n d [] := by
  simp [readAttempt, hg, hd, hk, hr, ridgeSkipped, attemptMet]

theorem readAttempt_seedFails {v : Nat} (hp : (slice s n).gather.purpose = .seed v) :
    readAttempt s n ram = readFailed (attemptMet s n ram) n none [] := by
  simp [readAttempt, hg, hd, hk, hr, ridgeSkipped, attemptMet, hp]

end Skipped

/-- A set that is not stepped over, some of whose columns are not corrected: copies may lie on the next wrap, or the attempt has failed. -/
theorem readAttempt_uncorrected (hk : ¬ (d.kind = .ridge ∧ (slice s n).gather.rebuild = none))
    (ha : gatheredArea (attemptCols s n ram d) = none) : readAttempt s n ram =
    if mayCross (attemptMet s n ram) n d then crossWrap (attemptMet s n ram) n d
    else readFailed (attemptMet s n ram) n (some d) (attemptCols s n ram d) := by
  have kept : (decide (d.kind = .ridge) && ridgeSkipped (slice s n).gather) = false := by
    refine Bool.eq_false_iff.mpr fun skipped => hk ?_
    obtain ⟨ridge, noRebuild⟩ := Bool.and_eq_true_iff.mp skipped
    exact ⟨of_decide_eq_true ridge, Option.isNone_iff_eq_none.mp noRebuild⟩
  unfold attemptCols at ha
  unfold attemptMet attemptCols
  simp only [readAttempt, hg, hd, kept, ha, bne_self_eq_false, Bool.false_eq_true, if_false]

variable {a : List Byte} (ha : gatheredArea (attemptCols s n ram d) = some a)
include ha

/-- A parity that a rebuild needs has no DSIT to be checked. -/
theorem readAttempt_parity (hr : d.kind = .ridge) (hb : (slice s n).gather.rebuild ≠ none) :
    readAttempt s n ram = gotSet (comeHome (attemptMet s n ram) n) n d a := by
  have kept : ridgeSkipped (slice s n).gather = false := by
    simpa only [ridgeSkipped, Option.isNone_eq_false_iff, Option.isSome_iff_ne_none] using hb
  unfold attemptCols at ha
  unfold attemptMet
  simp only [readAttempt, hg, hd, hr, kept, ha, bne_self_eq_false, Bool.and_false, Bool.false_eq_true, if_true, if_false]

variable (hr : d.kind ≠ .ridge)
include hr

/-- The checks of a set with a DSIT whose columns are all corrected, in their order. -/
theorem readAttempt_checks : readAttempt s n ram =
    let t := attemptMet s n ram
    let u := checkTag t n a
    if dsitCrcOk a = false then readFailed t n (some d) (attemptCols s n ram d)
    else if gapped t n (dsitInfo a) then readFailed t n none []
    else if u.2 then backToSpeed (gotSet (comeHome u.1 n) n d a) n (slice s n).gather.attempt
    else readFailed (modGather u.1 n fun g => { g with area := a }) n (some d) (attemptCols s n ram d) := by
  unfold attemptCols at ha
  unfold attemptMet attemptCols
  simp only [readAttempt, hg, hd, hr, ha, decide_false, Bool.false_and, bne_self_eq_false, Bool.false_eq_true, if_false,
    Bool.not_eq_true']

theorem readAttempt_crcFails (hc : dsitCrcOk a = false) :
    readAttempt s n ram = readFailed (attemptMet s n ram) n (some d) (attemptCols s n ram d) :=
  (readAttempt_checks hg hd ha hr).trans (if_pos hc)

variable (hc : dsitCrcOk a = true)
include hc

theorem readAttempt_outOfTurn (ht : gapped (attemptMet s n ram) n (dsitInfo a) = true) :
    readAttempt s n ram = readFailed (attemptMet s n ram) n none [] := by
  simp [readAttempt_checks hg hd ha hr, hc, ht]

variable (ht : gapped (attemptMet s n ram) n (dsitInfo a) = false) {u : State}
include ht

theorem readAttempt_reads (hu : checkTag (attemptMet s n ram) n a = (u, true)) :
    readAttempt s n ram = backToSpeed (gotSet (comeHome u n) n d a) n (slice s n).gather.attempt := by
  simp [readAttempt_checks hg hd ha hr, hc, ht, hu]

theorem readAttempt_tagFails (hu : checkTag (attemptMet s n ram) n a = (u, false)) : readAttempt s n ram =
    readFailed (modGather u n fun g => { g with area := a }) n (some d) (attemptCols s n ram d) := by
  simp [readAttempt_checks hg hd ha hr, hc, ht, hu]

end Attempt

/-! ### CARTRIDGE_RECORD_WRITE (R273) -/

/-- The record that is to be written, with its SEQUENCE. -/
def recordNext (x : SliceSt) : CartRec := { x.want with seq := match x.record with
  | some k => (k.seq + 1) % 2 ^ 32
  | none => 0 }

/-- A record goes out as the parts of the copy in turn. -/
def recordSent (s : State) (n : Nat) (r : CartRec) : State :=
  (copyParts (slice s n).recCopy).foldl (fun u a => mbxSend u n 2 a.1 (sub (recBytes r) (a.1 % 256) a.2) a.2)
    (modSlice s n fun y => { y with recOut := some (r, y.recCopy), recWant := false, recFail := false })

theorem writeRecord_waits (h : mayWriteRecord s n = false) : writeRecord s n = s := if_pos (by rw [h]; rfl)

theorem writeRecord_sends (h : mayWriteRecord s n = true) : writeRecord s n = recordSent s n (recordNext (slice s n)) :=
  if_neg (by rw [h]; decide)

end Tape

/-- Settles O38: each clause is the branch of its row's operation that the clause's hypotheses select. What a halt on a frame word leaves, and
the members that a seed reads again (log entry 49), the order and limits at a boundary (50 and 65), the attempts that go on across a wrap (54)
and the record in its memory (55) are the model's readings and choices. -/
theorem tapeRows : Obligations.TapeRows := by
  unfold Obligations.TapeRows
  intro n s x on aimed boundary restart record
  have bounded (f : Option SramFault) := itemBoundary_answers n s f
  have started := tapeRestart_answers n s
  have ramped := speedRampStep_answers n s
  have attempted (ram : Option (Fin 256 × SramFault)) := dataSetRead_answers n s ram
  have recorded := cartridgeRecordWrite_answers n s
  refine ⟨fun hp => ?paused, fun h => answers_of_eq ramped (rampStep_rests h), fun hs hr => ?ramp, fun hp => ?runs⟩
  case paused =>
    have rests {c : Instr} {f : State → Nat → State} (h : Safety.answers (exec c s) s (sliceRow s n.val f)) :
        Safety.answers (exec c s) s s := answers_of_eq h (sliceRow_paused f hp)
    exact ⟨fun p => rests (idleCloseExpiry_answers n s p), fun f => rests (bounded f), rests started, fun ram => rests (attempted ram),
      rests recorded⟩
  case ramp =>
    exact ⟨fun h => answers_of_eq ramped (rampStep_rises hs hr h), fun h => answers_of_eq ramped (rampStep_falls hs hr h),
      fun h => answers_of_eq ramped (rampStep_arrives hs hr h)⟩
  case runs =>
    have row {c : Instr} {f : State → Nat → State} {t : State} (h : Safety.answers (exec c s) s (sliceRow s n.val f)) (e : f s n.val = t) :
        Safety.answers (exec c s) s (on t) := answers_of_eq h ((sliceRow_runs f hp).trans (congrArg on e))
    have item {t : State} (e : Machine.boundary s n.val = t) : boundary t := row (bounded none) (boundaryRow_none e)
    refine ⟨fun p => row (idleCloseExpiry_answers n s p) rfl, fun h => item (boundary_idle h), fun hb he hm => ?burst,
      fun v f hb hv hf => ?halted, fun h => row started (restart_rests h), fun v hr hv => ?restarts, fun ram => ?attempt,
      fun h => row recorded (writeRecord_waits h), fun h => ⟨_, rfl, row recorded (writeRecord_sends h)⟩⟩
    case burst =>
      have writes : burstWrites s n.val := ⟨hb, he, hm⟩
      exact ⟨fun h => item (boundary_stops writes h), fun v hv hn => ⟨fun ha => item (boundary_areaEnds writes hv hn ha),
        fun ha hw => item (boundary_wholeEnds writes hv hn ha hw), fun ha hw hs => item (boundary_stopAsked writes hv hn ha hw hs),
        fun ha hw hs => item (boundary_nextSet writes hv hn ha hw hs)⟩⟩
    case halted => exact row (bounded (some f)) (boundaryRow_lost hb hv hf)
    case restarts =>
      exact ⟨fun hs => ⟨seedEntry (vol s v), seedEntry_mapped, seedEntry_unmapped, row started (restart_seeds hp hr hv hs)⟩,
        fun hs hh hm => row started (restart_writes hp hr hv hs hh hm), fun hs hh => row started (restart_locates hp hr hv hs hh)⟩
    case attempt =>
      intro met t read
      have outcome {u : State} (e : readAttempt s n.val ram = u) : read u := row (attempted ram) e
      refine ⟨fun h => outcome (readAttempt_idle ram h), fun hg => ⟨fun hd hm => ?turns, fun hd hm => ?noTurn, fun d hd => ?set⟩⟩
      case turns => exact outcome ((readAttempt_noSet hg hd).trans (if_pos hm))
      case noTurn => exact outcome ((readAttempt_noSet hg hd).trans (if_neg (Bool.eq_false_iff.mp hm)))
      case set =>
        refine ⟨fun hk hb => ?skipped, fun hk => ⟨fun ha => ?uncorrected, fun a ha => ?corrected⟩⟩
        case skipped =>
          exact ⟨fun h => outcome (readAttempt_skips hg hd hk hb h), fun v h => outcome (readAttempt_seedFails hg hd hk hb h)⟩
        case uncorrected =>
          have end_eq := readAttempt_uncorrected hg hd hk ha
          exact ⟨fun hm => outcome (end_eq.trans (if_pos hm)), fun hm => outcome (end_eq.trans (if_neg (Bool.eq_false_iff.mp hm)))⟩
        case corrected =>
          refine ⟨fun hr => outcome (readAttempt_parity hg hd ha hr fun hb => hk ⟨hr, hb⟩),
            fun hr hc => outcome (readAttempt_crcFails hg hd ha hr hc),
            fun hr hc ht => outcome (readAttempt_outOfTurn hg hd ha hr hc ht), fun hr hc ht u ok hu => ⟨fun e => ?reads, fun e => ?tagFails⟩⟩
          case reads => exact outcome (readAttempt_reads hg hd ha hr hc ht (e ▸ hu))
          case tagFails => exact outcome (readAttempt_tagFails hg hd ha hr hc ht (e ▸ hu))

end Sys2Proof.Machine
end

section
/-! PROOF. Every command whose operands spell one completes (R31, R338): each arm of `exec` ends in one way. -/

namespace Sys2Proof.Machine

/-- An arm of `exec` settles its effect; the rows whose operands can spell nothing test them first. -/
theorem exec_eq_finishIf_wf (i : Instr) (s : State) : ∃ u, exec i s = finishIf i.wf s u := by
  cases i <;> exact ⟨_, rfl⟩

/-- Settles O3: each arm settles its effect, under the test of its operands where it has one. That operands which spell nothing end in
the fault `malformed` is the model's convention and no rule of the spec (log entry 4); the operands are those that `Instr.wf` names, and
a port's allocation by size is among them by log entry 60. -/
theorem wellFormedCompletes : Obligations.WellFormedCompletes := by
  unfold Obligations.WellFormedCompletes
  intro i s
  obtain ⟨u, e⟩ := exec_eq_finishIf_wf i s
  exact ⟨fun h => e ▸ finishIf_next s i.wf u h, fun h => e ▸ finishIf_fault s i.wf u h⟩

end Sys2Proof.Machine
end

section
/-! PROOF. The rows that bring a flit (R338 to R342): each is the receiver's check of the flit, followed by the row's operation where the
receiver delivers it. -/

namespace Sys2Proof.Machine

section Flits

variable {s : State} {n : Fin 16} {flit : LinkFlit}

/-- A flit row goes on from the receiver's verdict. -/
theorem flitRow_of_rxLink {ty : Nat} {go : State → State} {t : State} {v : RxVerdict} (h : rxLink s n.val ty flit = (t, v)) :
    flitRow s n.val ty flit go = progress (afterRx t n.val v go) n.val := by
  rw [flitRow, h]

/-- A CTRL row is a flit row whose operation takes the event of its CODE alone (log entry 46). -/
theorem ctrlRow_eq_flitRow (code : Nat) (f : State → Nat → List Byte → State) :
    ctrlRow s n.val code flit f = flitRow s n.val tyCtrl flit fun t => if leAt flit.bytes 6 1 = code then f t n.val flit.bytes else t := rfl

/-- A SERVO row is a flit row whose operation takes a sample of its kind while the loops' page is enabled (R348, R397). -/
theorem sampleRow_eq_flitRow (kind : Nat) (f : State → Nat → List Byte → State × List LoopFault) :
    sampleRow s n.val kind flit f = flitRow s n.val tyServo flit fun t =>
      if leAt flit.bytes 4 1 = kind ∧ enabledNow t (.servo n) = true then
        loopFaults (f t n.val flit.bytes).1 n.val (f t n.val flit.bytes).2
      else t := by
  simp only [sampleRow, servoOn, pServo, tFin_of_lt n.isLt, Bool.and_eq_true, decide_eq_true_eq, Fin.eta]

/-- A row that answers by a flit row takes its flit as the receiver's cases say, and a flit heard in order is taken. -/
theorem flitRow_receives {c : Instr} {ty : Nat} {go : State → State}
    (ht : ty = 0 ∨ ty = 1 ∨ ty = 2 ∨ ty = 3 ∨ ty = 4 ∨ ty = 5) (hf : flitOk flit = true)
    (hc : exec c s = finishIf (flitOk flit) s (flitRow s n.val ty flit go)) :
    Safety.receives s n flit c ty go
      ∧ (Safety.inOrder s n flit ty → Safety.answers (exec c s) s (progress (go (Safety.heard s n flit ty)) n.val)) := by
  have taken : Safety.receives s n flit c ty go := flit_reception s n flit c ty go ht fun t v h => by
    rw [hc, flitRow_of_rxLink h]
    exact finishIf_answers s _ _ hf
  exact ⟨taken, flit_inOrder s n flit c ty go taken⟩

end Flits

/-- Settles O39: each row is the receiver's check of its flit, and the receiver's cases give the row's. A flit of another CODE than its
row's is reception only (log entry 46). -/
theorem flitReception : Obligations.FlitReception := by
  unfold Obligations.FlitReception
  intro n flit s hf bytes row ctrl mbx sample
  have ctrlRow_receives {c : Instr} {code : Nat} {f : State → Nat → List Byte → State}
      (hc : exec c s = finishIf (flitOk flit) s (ctrlRow s n.val code flit f)) : row c 3 (ctrl code f) :=
    flitRow_receives (by decide) hf hc
  have sampleRow_receives {c : Instr} {kind : Nat} {f : State → Nat → List Byte → State × List LoopFault}
      (hc : exec c s = finishIf (flitOk flit) s (sampleRow s n.val kind flit f)) : row c 2 (sample kind f) :=
    flitRow_receives (by decide) hf (hc.trans (congrArg _ (sampleRow_eq_flitRow kind f)))
  exact ⟨flitRow_receives (by decide) hf rfl, flitRow_receives (by decide) hf rfl, sampleRow_receives rfl, sampleRow_receives rfl,
    ctrlRow_receives rfl, ctrlRow_receives rfl, ctrlRow_receives rfl, ctrlRow_receives rfl, ctrlRow_receives rfl, ctrlRow_receives rfl,
    ctrlRow_receives rfl, flitRow_receives (by decide) hf rfl, flitRow_receives (by decide) hf rfl, flitRow_receives (by decide) hf rfl,
    flitRow_receives (by decide) hf rfl⟩

end Sys2Proof.Machine
end

section
/-! PROOF. The timers, lanes and TIME flits of a transport link (R342, R351, R352, R354 to R357, R361, R364): what each of these events does,
one lemma for each branch of its operation. -/

namespace Sys2Proof.Machine

/-- The LINK page of a transport. -/
@[simp] theorem pLink_val (n : Fin 16) : pLink n.val = .link n := congrArg PageId.link (tFin_of_lt n.isLt)

section LinkTimers

variable (s : State) (n : Fin 16)

/-! ### The rows -/

theorem retransmitTimer_answers : Safety.answers (exec (.retransmitTimer n) s) s (progress (retransmit s n.val) n.val) := finish_answers s _
theorem laneFailed_answers (up : Bool) (lane : Fin 2) (why : LaneFault) :
    Safety.answers (exec (.laneFailed n up lane why) s) s (progress (laneFailed s n.val up lane.val why) n.val) := finish_answers s _
theorem laneRestored_answers (up : Bool) (lane : Fin 2) (bad : Nat) (marker : List Byte) :
    Safety.answers (exec (.laneRestored n up lane bad marker) s) s (laneRestored s n.val up lane.val bad marker) := finish_answers s _
theorem laneRetrain_answers : Safety.answers (exec (.laneRetrain n) s) s (laneRetrain s n.val) := finish_answers s _
theorem rxTimeout_answers : Safety.answers (exec (.rxTimeout n) s) s (progress (rxTimeout s n.val) n.val) := finish_answers s _
theorem linkTrained_answers (down up : BitVec 2) : Safety.answers (exec (.linkTrained n down up) s) s (linkTrained s n.val down up) :=
  finish_answers s _
theorem trainTimeout_answers : Safety.answers (exec (.trainTimeout n) s) s (progress (trainTimeout s n.val) n.val) := finish_answers s _
theorem linkRetry_answers : Safety.answers (exec (.linkRetry n) s) s (linkRetry s n.val) := finish_answers s _
theorem ctrlTimeout_answers : Safety.answers (exec (.ctrlTimeout n) s) s (progress (ctrlTimeout s n.val) n.val) := finish_answers s _
theorem modeTimeout_answers : Safety.answers (exec (.modeTimeout n) s) s (progress (modeTimeout s n.val) n.val) := finish_answers s _
theorem mbxAnswerTimeout_answers : Safety.answers (exec (.mbxAnswerTimeout n) s) s (progress (mbxLate s n.val) n.val) := finish_answers s _
theorem timeFlitSend_answers : Safety.answers (exec (.timeFlitSend n) s) s (timeDown s n.val) := finish_answers s _

/-- A link is live from its training to its going down. -/
def linkLive (s : State) (n : Nat) : Prop := (link s n).phase = .up ∨ (link s n).phase = .loading

/-- A test of the operations for a live link. -/
theorem linkLive_iff (n : Nat) : (decide ((link s n).phase = .up) || decide ((link s n).phase = .loading)) = true ↔ linkLive s n := by
  simp [linkLive]

variable {s n}

/-! ### Retransmission and silence (R342, R357) -/

theorem retransmit_unchanged (h : ¬ linkLive s n.val ∨ (link s n.val).unacked = []) : retransmit s n.val = s := by
  refine if_pos ?_
  rcases h with h | h
  · simp [mt (linkLive_iff s n.val).mp h]
  · simp [h]

theorem retransmit_resends (h : linkLive s n.val) (hu : (link s n.val).unacked ≠ []) :
    retransmit s n.val = if (resendAll s n.val).2 then linkDown (resendAll s n.val).1 n.val 3 else (resendAll s n.val).1 := by
  unfold retransmit
  rw [if_neg (by simp [(linkLive_iff s n.val).mpr h, hu])]
  obtain ⟨t, spent⟩ := resendAll s n.val
  cases spent with
  | true => rfl
  | false => rfl

theorem rxTimeout_down (h : linkLive s n.val) : rxTimeout s n.val = linkDown s n.val 2 := if_pos ((linkLive_iff s n.val).mpr h)
theorem rxTimeout_unchanged (h : ¬ linkLive s n.val) : rxTimeout s n.val = s := if_neg (mt (linkLive_iff s n.val).mp h)

/-! ### Lanes (R355, R356) -/

/-- A lane is lost: it is in use on a live link, and what was seen declares it failed. -/
def laneGoes (s : State) (n : Fin 16) (up : Bool) (lane : Nat) (why : LaneFault) : Prop :=
  linkLive s n.val ∧ (link s n.val).lanes.getLsbD (laneBit up lane) = true ∧ laneLost up lane why = true

/-- Lane bit `k` is out: the frame being dealt leaves first, and the failure is counted and raised. -/
def laneOut (s : State) (n : Fin 16) (k : Nat) : State :=
  raise (count (modLink (frameLeaves s n.val) n.val fun l => { l with lanes := l.lanes &&& ~~~(BitVec.ofNat 4 (2 ^ k)) }) (.link n) 6)
    (.link n) 10 k

section Lanes

variable {up : Bool} {lane : Nat} {why : LaneFault}

theorem laneFailed_unchanged (h : ¬ laneGoes s n up lane why) : laneFailed s n.val up lane why = s := by
  refine if_pos ?_
  simpa only [laneGoes, ← linkLive_iff, Bool.or_eq_true, Bool.not_eq_true', ← Bool.not_eq_true, not_and_or, or_assoc] using h

theorem laneFailed_out (h : laneGoes s n up lane why) : laneFailed s n.val up lane why =
    let t := laneOut s n (laneBit up lane)
    let m := (link t n.val).lanes.toNat
    if m % 4 = 0 || m / 4 = 0 then linkDown t n.val 4 else soloRead (soloWrite t n.val) n.val := by
  obtain ⟨hl, hu, hw⟩ := h
  unfold laneFailed laneOut
  rw [if_neg (by simp [(linkLive_iff s n.val).mpr hl, hu, hw])]
  simp only [pLink_val]

theorem laneFailed_last (h : laneGoes s n up lane why)
    (hm : let m := (link (laneOut s n (laneBit up lane)) n.val).lanes.toNat; m % 4 = 0 ∨ m / 4 = 0) :
    laneFailed s n.val up lane why = linkDown (laneOut s n (laneBit up lane)) n.val 4 := 
  (laneFailed_out h).trans (if_pos (by simpa only [Bool.or_eq_true, decide_eq_true_eq] using hm))

theorem laneFailed_solo (h : laneGoes s n up lane why)
    (hm : let m := (link (laneOut s n (laneBit up lane)) n.val).lanes.toNat; ¬ (m % 4 = 0 ∨ m / 4 = 0)) :
    laneFailed s n.val up lane why = soloRead (soloWrite (laneOut s n (laneBit up lane)) n.val) n.val :=
  (laneFailed_out h).trans (if_neg (by simpa only [Bool.or_eq_true, decide_eq_true_eq] using hm))

/-- Lane bit `k` is in use again, from the frame after the one being dealt. -/
def laneIn (s : State) (n : Fin 16) (k : Nat) : State :=
  raise (modLink (frameLeaves s n.val) n.val fun l =>
    { l with lanes := l.lanes ||| BitVec.ofNat 4 (2 ^ k), retrain := l.retrain &&& ~~~(BitVec.ofNat 4 (2 ^ k)) }) (.link n) 11 k

/-- A lane comes back: it retrains on a live link, and its receiver finds it good. -/
def laneReturns (s : State) (n : Fin 16) (up : Bool) (lane bad : Nat) (marker : List Byte) : Prop :=
  linkLive s n.val ∧ (link s n.val).retrain.getLsbD (laneBit up lane) = true ∧ laneGood up lane bad marker = true

variable {bad : Nat} {marker : List Byte}

theorem laneReturns_iff : ((decide ((link s n.val).phase = .up) || decide ((link s n.val).phase = .loading))
    && (link s n.val).retrain.getLsbD (laneBit up lane) && laneGood up lane bad marker) = true ↔ laneReturns s n up lane bad marker := by
  simp only [laneReturns, Bool.and_eq_true, linkLive_iff, and_assoc]

theorem laneRestored_back (h : laneReturns s n up lane bad marker) :
    laneRestored s n.val up lane bad marker = laneIn s n (laneBit up lane) := by
  unfold laneRestored laneIn
  rw [if_pos (laneReturns_iff.mpr h), pLink_val]

theorem laneRestored_unchanged (h : ¬ laneReturns s n up lane bad marker) : laneRestored s n.val up lane bad marker = s :=
  if_neg (mt laneReturns_iff.mp h)

end Lanes

theorem laneRetrain_retrains (h : linkLive s n.val) : laneRetrain s n.val = modLink s n.val fun l =>
    { l with retrain := BitVec.ofNat 4 (field s (.link n) 0x040 0 4) &&& ~~~l.lanes } := by
  unfold laneRetrain
  rw [if_pos ((linkLive_iff s n.val).mpr h), pLink_val]

theorem laneRetrain_unchanged (h : ¬ linkLive s n.val) : laneRetrain s n.val = s := if_neg (mt (linkLive_iff s n.val).mp h)

/-! ### The link start (R354) -/

/-- The lanes of a direction that trained and are not masked: `half` is that direction's part of LANE_MASK. -/
def lanesUsed (trained : BitVec 2) (half : Nat) : Nat := trained.toNat &&& half

/-- The link loads with the lanes `d` down and `u` up, its first frame counted from a free value (log entry 45). -/
def linkLoads (s : State) (n d u : Nat) : State :=
  nextFree (modLink s n fun l =>
    { l with lanes := BitVec.ofNat 4 (d + 4 * u), phase := .loading, stage := 0, frameFirst := freeVal s % 2 ^ 32, frameAt := clock s,
             txFrame := 0, txDealt := [] })

section Training

variable {down up : BitVec 2}

theorem linkTrained_unchanged (h : (link s n.val).phase ≠ .training) : linkTrained s n.val down up = s := if_pos (bne_iff_ne.mpr h)

theorem linkTrained_trains (h : (link s n.val).phase = .training) : linkTrained s n.val down up =
    let d := lanesUsed down (field s (.link n) 0x040 0 4 % 4)
    let u := lanesUsed up (field s (.link n) 0x040 0 4 / 4)
    if d = 0 || u = 0 then linkFailed s n.val 1 true
    else if solo (linkLoads s n.val d u) n.val then raise (linkLoads s n.val d u) (.link n) 10 else linkLoads s n.val d u := by
  unfold linkTrained linkLoads lanesUsed
  rw [if_neg (by simp [h])]
  simp only [pLink_val]

section Used

variable (h : (link s n.val).phase = .training)
include h

theorem linkTrained_fails
    (hn : lanesUsed down (field s (.link n) 0x040 0 4 % 4) = 0 ∨ lanesUsed up (field s (.link n) 0x040 0 4 / 4) = 0) :
    linkTrained s n.val down up = linkFailed s n.val 1 true :=
  (linkTrained_trains h).trans (if_pos (by simpa only [Bool.or_eq_true, decide_eq_true_eq] using hn))

variable (hd : lanesUsed down (field s (.link n) 0x040 0 4 % 4) ≠ 0) (hu : lanesUsed up (field s (.link n) 0x040 0 4 / 4) ≠ 0)
include hd hu

theorem linkTrained_loads : linkTrained s n.val down up =
    let t := linkLoads s n.val (lanesUsed down (field s (.link n) 0x040 0 4 % 4)) (lanesUsed up (field s (.link n) 0x040 0 4 / 4))
    if solo t n.val then raise t (.link n) 10 else t :=
  (linkTrained_trains h).trans (if_neg (by simpa only [Bool.or_eq_true, decide_eq_true_eq, not_or] using And.intro hd hu))

end Used

end Training

theorem trainTimeout_training (h : (link s n.val).phase = .training) : trainTimeout s n.val = linkFailed s n.val 1 true := by
  simp only [trainTimeout, h]

theorem trainTimeout_loading (h : (link s n.val).phase = .loading) (hs : (link s n.val).stage ≠ 1) :
    trainTimeout s n.val = linkFailed s n.val 7 true := by
  simp only [trainTimeout, h, hs, if_false]

theorem trainTimeout_unchanged (ht : (link s n.val).phase ≠ .training)
    (h : (link s n.val).phase ≠ .loading ∨ (link s n.val).stage = 1) : trainTimeout s n.val = s := by
  unfold trainTimeout
  split
  · next e => exact absurd e ht
  · next e => exact if_pos (h.resolve_left (not_not.mpr e))
  · rfl

/-- A failed link may be tried again. -/
theorem mayRetry_iff : (decide ((link s n.val).phase = .failed) && !(link s n.val).noRetry && enabledNow s (pLink n.val)) = true
    ↔ (link s n.val).phase = .failed ∧ (link s n.val).noRetry = false ∧ enabledNow s (.link n) = true := by
  simp only [pLink_val, Bool.and_eq_true, decide_eq_true_eq, Bool.not_eq_true', and_assoc]

theorem linkRetry_starts (hf : (link s n.val).phase = .failed) (hr : (link s n.val).noRetry = false)
    (he : enabledNow s (.link n) = true) : linkRetry s n.val = linkStart s n.val := if_pos (mayRetry_iff.mpr ⟨hf, hr, he⟩)

theorem linkRetry_unchanged (h : (link s n.val).phase ≠ .failed ∨ (link s n.val).noRetry = true ∨ enabledNow s (.link n) = false) :
    linkRetry s n.val = s := by
  refine if_neg (mt mayRetry_iff.mp ?_)
  rintro ⟨hf, hr, he⟩
  simp [hf, hr, he] at h

/-! ### Commands, modes and the cartridge memory (R352, R361, R364) -/

theorem ctrlTimeout_drops {c : CtrlOut} {rest : List CtrlOut} (hc : (link s n.val).ctrl = c :: rest) (h : (link s n.val).phase = .up) :
    ctrlTimeout s n.val = let t := modLink s n.val fun l => { l with ctrl := rest }
      if c.code = 0x1E then linkDown t n.val 6 else transportFault t n.val 2 := by
  simp only [ctrlTimeout, hc, h, bne_self_eq_false, Bool.false_eq_true, if_false]

theorem ctrlTimeout_unchanged (h : (link s n.val).ctrl = [] ∨ (link s n.val).phase ≠ .up) : ctrlTimeout s n.val = s := by
  unfold ctrlTimeout
  split
  · rfl
  · next e => exact if_pos (bne_iff_ne.mpr (h.resolve_left (by simp [e])))

theorem modeTimeout_faults (h : (link s n.val).phase = .up) (hb : transitBound s n.val = true) :
    modeTimeout s n.val = transportFault s n.val 3 := if_pos (by simp [h, hb])

theorem modeTimeout_unchanged (h : (link s n.val).phase ≠ .up ∨ transitBound s n.val = false) : modeTimeout s n.val = s :=
  if_neg (by rcases h with h | h <;> simp [h])

theorem mbxLate_fails {m : MbxOut} (hm : (link s n.val).mbx.find? isCm = some m) (h : (link s n.val).phase = .up) :
    mbxLate s n.val = cmFailed s n.val m := by
  simp only [mbxLate, hm, h, if_true]

theorem mbxLate_unchanged (h : (link s n.val).mbx.find? isCm = none ∨ (link s n.val).phase ≠ .up) : mbxLate s n.val = s := by
  unfold mbxLate
  split
  · next e => exact if_neg (h.resolve_left (by simp [e]))
  · rfl

/-! ### TIME flits (R351) -/

/-- What a TIME flit says of the frame being dealt: TAI at its departure, its number, ROUND_TRIP, and whether TAI is valid. -/
def timePayload (s : State) (n : Fin 16) : List Byte :=
  leBytes 8 (frameTai s n.val / 2 ^ 32) ++ leBytes 4 (frameTai s n.val % 2 ^ 32)
    ++ leBytes 4 (frameNumber (link s n.val).frameFirst (link s n.val).txFrame) ++ leBytes 2 (field s (.link n) 0x06C 0 16)
    ++ leBytes 1 (bit s.tim.taiValid)

theorem timeDown_sends (h : linkLive s n.val) :
    timeDown s n.val = putFirst (openFrame s n.val) n.val (timePayload (openFrame s n.val) n) := by
  unfold timeDown
  rw [if_pos ((linkLive_iff s n.val).mpr h), pLink_val]
  rfl

theorem timeDown_unchanged (h : ¬ linkLive s n.val) : timeDown s n.val = s := if_neg (mt (linkLive_iff s n.val).mp h)

end LinkTimers

/-- Settles O40: each clause is the branch of its event's operation that the clause's hypotheses select. FRAME counted from a free value,
the frame that leaves where a lane goes or comes back, and the slot and time of a TIME flit are the model's choices (log entry 45). -/
theorem linkTimerRows : Obligations.LinkTimerRows := by
  unfold Obligations.LinkTimerRows
  intro n s l live mask on row dealt ld again
  refine ⟨?resends, ?resendNone, ?laneFails, ?laneBack, ?retrains, ?retrainNone, ?silent, ?silentNone, ?trained, ?trainLate, ?loadLate,
    ?lateNone, ?retries, ?retryNone, ?ctrlLate, ?ctrlNone, ?modeLate, ?modeNone, ?mbxLate, ?mbxNone, ?timeSent, ?timeNone⟩
  case resends =>
    intro h hu
    have sent := answers_of_eq (retransmitTimer_answers s n) (congrArg on (retransmit_resends h hu))
    exact ⟨fun spent => answers_of_eq sent (congrArg on (if_pos spent)),
      fun left => answers_of_eq sent (congrArg on (if_neg (Bool.eq_false_iff.mp left)))⟩
  case resendNone => exact fun h => answers_of_eq (retransmitTimer_answers s n) (congrArg on (retransmit_unchanged h))
  case laneFails =>
    intro up lane why k t m lost
    have failed {u : State} (e : laneFailed s n.val up lane.val why = u) : row (.laneFailed n up lane why) (on u) :=
      answers_of_eq (laneFailed_answers s n up lane why) (congrArg on e)
    exact ⟨fun h => failed (laneFailed_unchanged h), fun h hm => failed (laneFailed_last h hm),
      fun h hd hu => failed (laneFailed_solo h (not_or.mpr ⟨hd, hu⟩))⟩
  case laneBack =>
    intro up lane bad marker k back
    exact ⟨fun h => answers_of_eq (laneRestored_answers s n up lane bad marker) (laneRestored_back h),
      fun h => answers_of_eq (laneRestored_answers s n up lane bad marker) (laneRestored_unchanged h)⟩
  case retrains => exact fun h => answers_of_eq (laneRetrain_answers s n) (laneRetrain_retrains h)
  case retrainNone => exact fun h => answers_of_eq (laneRetrain_answers s n) (laneRetrain_unchanged h)
  case silent => exact fun h => answers_of_eq (rxTimeout_answers s n) (congrArg on (rxTimeout_down h))
  case silentNone => exact fun h => answers_of_eq (rxTimeout_answers s n) (congrArg on (rxTimeout_unchanged h))
  case trained =>
    intro down up d u t
    have ends {v : State} (e : linkTrained s n.val down up = v) : row (.linkTrained n down up) v :=
      answers_of_eq (linkTrained_answers s n down up) e
    refine ⟨fun h => ends (linkTrained_unchanged h), fun h hn => ends (linkTrained_fails h hn), fun h hd hu => ?_⟩
    have loads := ends (linkTrained_loads h hd hu)
    exact ⟨fun one => answers_of_eq loads (if_pos one), fun both => answers_of_eq loads (if_neg (Bool.eq_false_iff.mp both))⟩
  case trainLate => exact fun h => answers_of_eq (trainTimeout_answers s n) (congrArg on (trainTimeout_training h))
  case loadLate => exact fun h hs => answers_of_eq (trainTimeout_answers s n) (congrArg on (trainTimeout_loading h hs))
  case lateNone => exact fun ht h => answers_of_eq (trainTimeout_answers s n) (congrArg on (trainTimeout_unchanged ht h))
  case retries => exact fun hf hr he => answers_of_eq (linkRetry_answers s n) (linkRetry_starts hf hr he)
  case retryNone => exact fun h => answers_of_eq (linkRetry_answers s n) (linkRetry_unchanged h)
  case ctrlLate =>
    intro c rest hc h t
    have dropped := answers_of_eq (ctrlTimeout_answers s n) (congrArg on (ctrlTimeout_drops hc h))
    exact ⟨fun stop => answers_of_eq dropped (congrArg on (if_pos stop)), fun other => answers_of_eq dropped (congrArg on (if_neg other))⟩
  case ctrlNone => exact fun h => answers_of_eq (ctrlTimeout_answers s n) (congrArg on (ctrlTimeout_unchanged h))
  case modeLate => exact fun h hb => answers_of_eq (modeTimeout_answers s n) (congrArg on (modeTimeout_faults h hb))
  case modeNone => exact fun h => answers_of_eq (modeTimeout_answers s n) (congrArg on (modeTimeout_unchanged h))
  case mbxLate => exact fun m hm h => answers_of_eq (mbxAnswerTimeout_answers s n) (congrArg on (mbxLate_fails hm h))
  case mbxNone => exact fun h => answers_of_eq (mbxAnswerTimeout_answers s n) (congrArg on (mbxLate_unchanged h))
  case timeSent => exact fun h => answers_of_eq (timeFlitSend_answers s n) (timeDown_sends h)
  case timeNone => exact fun h => answers_of_eq (timeFlitSend_answers s n) (timeDown_unchanged h)

end Sys2Proof.Machine
end

section
/-! PROOF. The events that a transport reports (R351, R354, R360 to R362, R365, R367): what each does once the receiver has delivered it, one
lemma for each branch of its operation. -/

namespace Sys2Proof.Machine

section Events

variable {s : State} {n : Fin 16} {f : List Byte}

/-! ### HELLO and FW_RESULT (R354) -/

theorem hello_loads (h : (link s n.val).phase = .loading) (hs : (link s n.val).stage = 0) (hf : leAt f 8 1 = 0) :
    hello s n.val f = loadBridge s n.val := if_pos (by simp [h, hs, hf])

theorem hello_up (h : (link s n.val).phase = .loading) (hs : (link s n.val).stage = 2) (hf : leAt f 8 1 = 1) :
    hello s n.val f = linkUp s n.val f := by
  simp [hello, h, hs, hf]

theorem hello_unchanged (h0 : ¬ ((link s n.val).phase = .loading ∧ (link s n.val).stage = 0 ∧ leAt f 8 1 = 0))
    (h2 : ¬ ((link s n.val).phase = .loading ∧ (link s n.val).stage = 2 ∧ leAt f 8 1 = 1)) : hello s n.val f = s := by
  unfold hello
  rw [if_neg (by simpa [and_assoc] using h0), if_neg (by simpa [and_assoc] using h2)]

theorem fwResult_unchanged (h : ¬ ((link s n.val).phase = .loading ∧ (link s n.val).stage = 1)) : fwResult s n.val f = s :=
  if_pos (by simpa only [Bool.not_eq_true', ← Bool.not_eq_true, Bool.and_eq_true, decide_eq_true_eq] using h)

section Judged

variable (h : (link s n.val).phase = .loading) (hs : (link s n.val).stage = 1)
include h hs

theorem fwResult_accepts (hf : leAt f 7 1 = 0) : fwResult s n.val f = modLink s n.val fun l => { l with stage := 2 } := by
  simp [fwResult, h, hs, hf]

variable (hf : leAt f 7 1 ≠ 0)
include hf

theorem fwResult_reloads (ht : (link s n.val).fwTries = 0) :
    fwResult s n.val f = loadBridge (modLink s n.val fun l => { l with fwTries := 1 }) n.val := by
  simp [fwResult, h, hs, hf, ht]

theorem fwResult_rejected (ht : (link s n.val).fwTries ≠ 0) :
    fwResult s n.val f = raise (linkFailed s n.val 5 false) (.link n) 16 := by
  simp [fwResult, h, hs, hf, ht]

end Judged

/-! ### ACK (R360, R365, R371) -/

theorem ctrlAck_unchanged (h : ∀ c ∈ (link s n.val).ctrl, c.cmdId ≠ leAt f 8 2) : ctrlAck s n.val f = s := by
  have none_waits : (link s n.val).ctrl.find? (fun c => c.cmdId == leAt f 8 2) = none :=
    List.find?_eq_none.mpr fun c hc => by simpa using h c hc
  simp only [ctrlAck, none_waits]

/-- Command `c` of a link no longer waits for its ACK. -/
def ackEnds (s : State) (n : Fin 16) (c : CtrlOut) : State := modLink s n.val fun l => { l with ctrl := l.ctrl.erase c }

section Acked

variable {c : CtrlOut} (hc : (link s n.val).ctrl.find? (fun c => c.cmdId == leAt f 8 2) = some c)
include hc

theorem ctrlAck_done (hr : leAt f 7 1 = 0) : ctrlAck s n.val f =
    if c.code = 0x1E then linkDown (ackEnds s n c) n.val 6 else if c.code = 0x1C then unmountAll (ackEnds s n c) n.val
    else ackEnds s n c := by
  simp only [ctrlAck, hc, hr, ackEnds]

theorem ctrlAck_refused (hr : leAt f 7 1 = 1) : ctrlAck s n.val f = modeRefused (ackEnds s n c) n.val c := by
  simp only [ctrlAck, hc, hr, ackEnds]

theorem ctrlAck_failed (hr : leAt f 7 1 = 2) : ctrlAck s n.val f = transportFault (ackEnds s n c) n.val 6 := by
  simp only [ctrlAck, hc, hr, ackEnds]

/-- A RESULT that R360 does not name ends the wait for the ACK (log entry 46). -/
theorem ctrlAck_unnamed (hr : 2 < leAt f 7 1) : ctrlAck s n.val f = ackEnds s n c := by
  obtain ⟨k, hk⟩ : ∃ k, leAt f 7 1 = k + 3 := ⟨_, (Nat.sub_add_cancel hr).symm⟩
  simp only [ctrlAck, hc, hk, ackEnds]

end Acked

/-! ### MODE (R361) -/

theorem modeEvent_unknown (h : 11 < leAt f 8 1) : modeEvent s n.val f = s := by
  have no_mode : modeOf (leAt f 8 1) = none := List.getElem?_eq_none h
  simp only [modeEvent, no_mode]

theorem modeEvent_faulted (h : leAt f 8 1 = 11) : modeEvent s n.val f =
    enterFaulted (modServo (takeFlags s n.val (f.getD 9 0)) n.val fun v => { v with haltSent := false }) n.val (leAt f 10 1) := by
  have faulted : modeOf (leAt f 8 1) = some .faulted := by rw [h]; rfl
  simp only [modeEvent, faulted, if_true]

/-! ### CARTRIDGE (R361, R367) -/

/-- A CARTRIDGE event is raised, and its flags taken. -/
def cartridgeTaken (s : State) (n : Fin 16) (f : List Byte) : State :=
  takeFlags (raise s (.link n) 14 (f.getD 8 0).toNat) n.val (f.getD 8 0)

theorem cartridgeEvent_eq : cartridgeEvent s n.val f =
    let here := (f.getD 8 0).getLsbD 0
    if !here && (link s n.val).threaded then enterFaulted (cartridgeTaken s n f) n.val 0x24
    else if here && (link s n.val).mode = .empty then takeMode (cartridgeTaken s n f) n.val .loaded
    else if !here && (link s n.val).mode = .loaded then takeMode (cartridgeTaken s n f) n.val .empty
    else cartridgeTaken s n f := by
  simp only [cartridgeEvent, pLink_val, cartridgeTaken]

section Gone

variable (hb : (f.getD 8 0).getLsbD 0 = false)
include hb

theorem cartridgeEvent_lost (h : (link s n.val).threaded = true) :
    cartridgeEvent s n.val f = enterFaulted (cartridgeTaken s n f) n.val 0x24 :=
  cartridgeEvent_eq.trans (if_pos (by rw [hb, h]; rfl))

theorem cartridgeEvent_removed (ht : (link s n.val).threaded = false) (h : (link s n.val).mode = .loaded) :
    cartridgeEvent s n.val f = takeMode (cartridgeTaken s n f) n.val .empty := by
  rw [cartridgeEvent_eq, hb, ht, h]
  rfl

end Gone

section Here

variable (hb : (f.getD 8 0).getLsbD 0 = true)
include hb

theorem cartridgeEvent_inserted (h : (link s n.val).mode = .empty) :
    cartridgeEvent s n.val f = takeMode (cartridgeTaken s n f) n.val .loaded := by
  rw [cartridgeEvent_eq, hb, h]
  rfl

theorem cartridgeEvent_present (h : (link s n.val).mode ≠ .empty) : cartridgeEvent s n.val f = cartridgeTaken s n f := by
  rw [cartridgeEvent_eq, hb]
  exact (if_neg Bool.false_ne_true).trans ((if_neg (by simpa using h)).trans (if_neg Bool.false_ne_true))

end Here

/-! ### POSITIONED (R362) -/

theorem positioned_unawaited (h : (slice s n.val).locFor = none) : positioned s n.val f = s := by
  simp only [positioned, h]

/-- A POSITIONED that succeeded, on the wrap and near the LPOS that the positioning asked for. -/
def placedWell (s : State) (n : Fin 16) (f : List Byte) : Prop :=
  leAt f 7 1 = 0 ∧ leAt f 8 1 = (slice s n.val).locTo.1 ∧ leAt f 9 3 ≤ (slice s n.val).locTo.2 + 1000
    ∧ (slice s n.val).locTo.2 ≤ leAt f 9 3 + 1000

/-- The slice waits for no POSITIONED any more. -/
def locateTaken (s : State) (n : Fin 16) : State := modSlice s n.val fun x => { x with locFor := none }

/-- A positioning that failed is counted, raised, and one more of its attempts. -/
def missCounted (s : State) (n : Fin 16) : State :=
  modSlice (setEvt (count (locateTaken s n) (.link n) 9) (.link n) 17) n.val fun x => { x with locTries := x.locTries + 1 }

section Awaited

variable {p : LocatePurpose} (hp : (slice s n.val).locFor = some p)
include hp

theorem positioned_hits (h : placedWell s n f) : positioned s n.val f = placed (locateTaken s n) n.val p := by
  simp only [positioned, hp]
  exact if_pos (by simpa only [placedWell, Bool.and_eq_true, decide_eq_true_eq, and_assoc] using h)

theorem positioned_misses (h : ¬ placedWell s n f) : positioned s n.val f =
    if 4 ≤ (slice (missCounted s n) n.val).locTries then unplaced (missCounted s n) n.val p
    else modSlice (missCounted s n) n.val fun x =>
      { x with gather := if x.gather.phase = .locating then { x.gather with phase := .seek } else x.gather } := by
  simp only [positioned, hp, pLink_val]
  exact if_neg (by simpa only [placedWell, Bool.and_eq_true, decide_eq_true_eq, and_assoc] using h)

end Awaited

/-! ### TIME_UP (R351) -/

section RoundTrip

variable {back : Nat} (hb : back < 2 ^ 32)
  (hk : (leAt f 4 4 + back) % 2 ^ 32 = frameNumber (link s n.val).frameFirst ((clock s - (link s n.val).frameAt) * 5 / 1024))
include hb hk

/-- The time from the departure of the frame `back` frames ago to now. -/
def sinceFrame (s : State) (n : Fin 16) (back : Nat) : Nat :=
  let t := clock s - (link s n.val).frameAt
  t - frameDeparts (t * 5 / 1024 - back)

theorem timeUp_measures (h : back ≤ (clock s - (link s n.val).frameAt) * 5 / 1024 ∧ leAt f 8 4 ≤ sinceFrame s n back) :
    timeUp s n.val f = storeDelay s n.val ((sinceFrame s n back - leAt f 8 4) / 2) :=
  timeUp_some s n.val _ f ((roundTrip_of s n.val _ _ back hb (leAt_lt4 f 4) hk).trans (if_pos h))

theorem timeUp_free (h : ¬ (back ≤ (clock s - (link s n.val).frameAt) * 5 / 1024 ∧ leAt f 8 4 ≤ sinceFrame s n back)) :
    timeUp s n.val f = nextFree (storeDelay s n.val (freeVal s)) :=
  timeUp_none s n.val f ((roundTrip_of s n.val _ _ back hb (leAt_lt4 f 4) hk).trans (if_neg h))

end RoundTrip

/-- The estimate stands in the low 16 bits of ROUND_TRIP. -/
theorem storeDelay_eq (ns : Nat) : storeDelay s n.val ns = setReg s (.link n) 0x06C (w32 (ns % 65536)) := by
  rw [storeDelay, pLink_val]

end Events

/-- Settles O41: each clause is the branch of its event's operation that the clause's hypotheses select. What is done on an ACK
with a RESULT above 2, a MODE above 11, a HELLO at another stage and a POSITIONED that nothing awaits, the free delay, and that CARTRIDGE
acts at once, are the model's readings (log entry 46). -/
theorem transportEvents : Obligations.TransportEvents := by
  unfold Obligations.TransportEvents
  intro n f s l x
  refine ⟨hello_loads, hello_up, hello_unchanged, fwResult_unchanged, ?judged, ctrlAck_unchanged, ?acked, modeEvent_unknown,
    modeEvent_faulted, ?cartridge, positioned_unawaited, ?awaited, ?time, fun ns => storeDelay_eq ns⟩
  case judged => exact fun h hs => ⟨fwResult_accepts h hs, fwResult_reloads h hs, fwResult_rejected h hs⟩
  case acked =>
    intro c hc t
    refine ⟨fun hr stop => ?stops, fun hr clear => ?clears, fun hr hs hn => ?ends, ctrlAck_refused hc, ctrlAck_failed hc,
      ctrlAck_unnamed hc⟩
    case stops => exact (ctrlAck_done hc hr).trans (if_pos stop)
    case clears => exact (ctrlAck_done hc hr).trans (by rw [clear]; rfl)
    case ends => exact (ctrlAck_done hc hr).trans ((if_neg hs).trans (if_neg hn))
  case cartridge => exact ⟨cartridgeEvent_lost, cartridgeEvent_inserted, cartridgeEvent_removed, cartridgeEvent_present⟩
  case awaited =>
    intro p hp t lpos hit u
    exact ⟨positioned_hits hp, fun h four => (positioned_misses hp h).trans (if_pos four),
      fun h few => (positioned_misses hp h).trans (if_neg (Nat.not_le.mpr few))⟩
  case time =>
    intro back hb t k trip hk
    exact ⟨fun h1 h2 => timeUp_measures hb hk ⟨h1, h2⟩, timeUp_free hb hk⟩

end Sys2Proof.Machine
end

section
/-! PROOF. The mailbox (R352, R422 to R424) and the end of a log second (R427, R428): what each request, MAILBOX_DONE and LOG_SUMMARY do, one
lemma for each branch of their operations. -/

namespace Sys2Proof.Machine

section Mailbox

variable {s : State} {p : Port}

/-! ### The rows -/

section Rows

variable (s : State) (p : Port)

theorem identify_answers : Safety.answers (exec (.identify p) s) s (mailRequest s p 1) := finish_answers s _
theorem settingsSave_answers : Safety.answers (exec (.settingsSave p) s) s (mailRequest s p 2) := finish_answers s _
theorem settingsClear_answers : Safety.answers (exec (.settingsClear p) s) s (mailRequest s p 3) := finish_answers s _
theorem logMark_answers : Safety.answers (exec (.logMark p) s) s (mailRequest s p 4) := finish_answers s _
theorem bridgeMailbox_answers : Safety.answers (exec (.bridgeMailbox p) s) s (mailRequest s p 5) := finish_answers s _
theorem mailboxDone_answers : Safety.answers (exec (.mailboxDone p) s) s (mailDone s p) := finish_answers s _

end Rows

/-! ### The request at hand (R423) -/

/-- A request is at hand that the core can work on, and no answer to it is prepared. -/
def mailAtHand (s : State) (p : Port) : Prop :=
  coreServes s = true ∧ s.fwu.paused = false ∧ (port s p).mailBusy = true ∧ (port s p).mailAnswer = none

theorem mailOpen_iff : mailOpen s p = true ↔ mailAtHand s p := by
  simp only [mailOpen, mailAtHand, Bool.and_eq_true, Bool.not_eq_true', Option.isNone_iff_eq_none, and_assoc]

/-- The request at hand is of OPCODE `op`. -/
def mailAsks (s : State) (p : Port) (op : Nat) : Prop := mailAtHand s p ∧ (port s p).mailOp = op

theorem mailRequest_unasked {op : Nat} (h : ¬ mailAsks s p op) : mailRequest s p op = s := by
  refine if_pos ?_
  rw [mailAsks, ← mailOpen_iff] at h
  simpa only [Bool.or_eq_true, Bool.not_eq_true', bne_iff_ne, ← Bool.not_eq_true, not_and_or] using h

/-- The request at hand passes the test of its OPCODE. -/
theorem mailRequest_asked {op : Nat} (h : mailAsks s p op) : ¬ (!mailOpen s p || (port s p).mailOp != op) = true := by
  simp [mailOpen_iff.mpr h.1, h.2]

theorem mailRequest_identify (h : mailAsks s p 1) : mailRequest s p 1 = mailIdentify s p := if_neg (mailRequest_asked h)
theorem mailRequest_save (h : mailAsks s p 2) : mailRequest s p 2 = mailSettings s p false := if_neg (mailRequest_asked h)
theorem mailRequest_clear (h : mailAsks s p 3) : mailRequest s p 3 = mailSettings s p true := if_neg (mailRequest_asked h)
theorem mailRequest_mark (h : mailAsks s p 4) : mailRequest s p 4 = mailMark s p := if_neg (mailRequest_asked h)
theorem mailRequest_bridge (h : mailAsks s p 5) : mailRequest s p 5 = mailBridge s p := if_neg (mailRequest_asked h)

/-- An OPCODE that R423 does not list is answered by 1. -/
theorem mailRequest_unlisted (h : mailAtHand s p) (ho : (port s p).mailOp = 0 ∨ 5 < (port s p).mailOp) :
    mailRequest s p (port s p).mailOp = mailAnswer s p 1 [] := by
  refine (if_neg (mailRequest_asked ⟨h, rfl⟩)).trans ?_
  split
  case h_6 => rfl
  all_goals omega

/-! ### IDENTIFY, the settings and LOG_MARK (R423, R427) -/

theorem mailIdentify_whole (h : (port s p).mailLen = 0) : mailIdentify s p = mailAnswer s p 0 (identifyBytes s) := by
  simp only [mailIdentify, h, if_true]

theorem mailIdentify_length (h : (port s p).mailLen ≠ 0) : mailIdentify s p = mailAnswer s p 2 [] := by
  simp only [mailIdentify, h, if_false]

/-- A settings request needs SEM0 and SEM2. -/
def holdsSettings (s : State) (p : Port) : Prop := holds s (portMaster p) 0 = true ∧ holds s (portMaster p) 2 = true

theorem lacksSettings_iff : (!holds s (portMaster p) 0 || !holds s (portMaster p) 2) = true ↔ ¬ holdsSettings s p := by
  simp only [holdsSettings, Bool.or_eq_true, Bool.not_eq_true', not_and_or, Bool.not_eq_true]

section Settings

variable {empty : Bool}

theorem mailSettings_length (h : (port s p).mailLen ≠ 0) : mailSettings s p empty = mailAnswer s p 2 [] := if_pos (bne_iff_ne.mpr h)

variable (hn : (port s p).mailLen = 0)
include hn

theorem mailSettings_unheld (h : ¬ holdsSettings s p) : mailSettings s p empty = mailAnswer s p 3 [] := by
  unfold mailSettings
  rw [if_neg (by simp [hn]), if_pos (lacksSettings_iff.mpr h)]

variable (hh : holdsSettings s p)
include hh

theorem mailSettings_held : mailSettings s p empty =
    if s.pwr.charge < 90 then mailAnswer s p 4 []
    else mailAnswer (writeSetRec s (configRecord s empty)) p 0 (leBytes 8 s.nv.nextSeq) := by
  unfold mailSettings
  rw [if_neg (by simp [hn]), if_neg (fun e => lacksSettings_iff.mp e hh)]
  rfl

end Settings

theorem mailMark_length (h : 32 < (port s p).mailLen) : mailMark s p = mailAnswer s p 2 [] := if_pos h

/-- The state after the entry of a LOG_MARK. -/
def markLogged (s : State) (p : Port) : State :=
  logMgmt s 0x0586 0 (pIdx p) (leAt (mailBytes s p) 0 8) (leAt (mailBytes s p) 8 8) (leAt (mailBytes s p) 16 8) (leAt (mailBytes s p) 24 8)

section Mark

variable (h : (port s p).mailLen ≤ 32)
include h

theorem mailMark_logged (hs : (markLogged s p).log.nextSeq ≠ s.log.nextSeq) :
    mailMark s p = mailAnswer (markLogged s p) p 0 (leBytes 8 s.log.nextSeq) := by
  unfold mailMark hostMark
  rw [if_neg (Nat.not_lt.mpr h)]
  exact congrArg (fun r : State × Nat => mailAnswer r.1 p 0 (leBytes 8 r.2)) (if_neg hs)

/-- The second has folded the entry, so it has no SEQ of its own (log entry 44). -/
theorem mailMark_folded (hs : (markLogged s p).log.nextSeq = s.log.nextSeq) :
    mailMark s p = mailAnswer (nextFree (markLogged s p)) p 0 (leBytes 8 (freeVal (markLogged s p))) := by
  unfold mailMark hostMark
  rw [if_neg (Nat.not_lt.mpr h)]
  exact congrArg (fun r : State × Nat => mailAnswer r.1 p 0 (leBytes 8 r.2)) (if_pos hs)

end Mark

/-! ### BRIDGE_MAILBOX (R352, R423) -/

/-- The transport that a BRIDGE_MAILBOX names. -/
def mailTransport (s : State) (p : Port) : Nat := leAt (mailBytes s p) 0 1

theorem mailBridge_misshapen (h : ¬ bridgeShape (mailBytes s p) = true) : mailBridge s p = mailAnswer s p 2 [] :=
  if_pos (by simpa using h)

section Shaped

variable (h : bridgeShape (mailBytes s p) = true)
include h

theorem mailBridge_shaped : mailBridge s p =
    if owner s (mailTransport s p) != 1 + pIdx p then mailAnswer s p 5 []
    else if !holds s (portMaster p) (4 + mailTransport s p) then mailAnswer s p 3 []
    else if (link s (mailTransport s p)).phase != .up then mailAnswer s p 6 []
    else if (mailMsg s (mailTransport s p) (1 + pIdx p)).isSome then s
    else bridgeSend s (mailBytes s p) (1 + pIdx p) :=
  if_neg (by simp [h])

theorem mailBridge_unowned (ho : owner s (mailTransport s p) ≠ 1 + pIdx p) : mailBridge s p = mailAnswer s p 5 [] :=
  (mailBridge_shaped h).trans (if_pos (bne_iff_ne.mpr ho))

variable (ho : owner s (mailTransport s p) = 1 + pIdx p)
include ho

theorem mailBridge_unheld (hh : holds s (portMaster p) (4 + mailTransport s p) = false) : mailBridge s p = mailAnswer s p 3 [] := by
  simp [mailBridge_shaped h, ho, hh]

variable (hh : holds s (portMaster p) (4 + mailTransport s p) = true)
include hh

theorem mailBridge_down (hl : (link s (mailTransport s p)).phase ≠ .up) : mailBridge s p = mailAnswer s p 6 [] := by
  simp [mailBridge_shaped h, ho, hh, hl]

theorem mailBridge_up (hl : (link s (mailTransport s p)).phase = .up) : mailBridge s p =
    if (mailMsg s (mailTransport s p) (1 + pIdx p)).isSome then s else bridgeSend s (mailBytes s p) (1 + pIdx p) := by
  simp [mailBridge_shaped h, ho, hh, hl]

end Shaped

/-! ### MAILBOX_DONE (R423, R424) -/

theorem mailSettle_paused (h : s.fwu.paused = true) : mailSettle s p = s := by
  have closed : mailOpen s p = false := by simp [mailOpen, h]
  unfold mailSettle
  rw [if_neg (by simp [closed])]
  exact mailRequest_unasked fun k => by simpa [closed] using mailOpen_iff.mpr k.1

/-- The bridge has not answered the message of the request at hand. -/
theorem mailSettle_unanswered (h : mailAtHand s p) (ho : (port s p).mailOp = 5)
    (hm : (mailMsg s (mailTransport s p) (1 + pIdx p)).isSome = true) :
    mailSettle s p = mailAnswer (dropMsg s (mailTransport s p) (1 + pIdx p)) p 6 [] :=
  if_pos (by rw [mailOpen_iff.mpr h, ho]; exact hm)

theorem mailDone_paused (h : (mailSettle s p).fwu.paused = true) : mailDone s p = mailSettle s p := if_pos h

/-- An answer that says that a settings record is on its way. -/
def settingsAnswer (s : State) (p : Port) (r : Nat) : Prop :=
  r = 0 ∧ ((port (mailSettle s p) p).mailOp = 2 ∨ (port (mailSettle s p) p).mailOp = 3)

theorem settingsAnswer_iff {r : Nat} : (r = 0 && ((port (mailSettle s p) p).mailOp = 2 || (port (mailSettle s p) p).mailOp = 3)) = true
    ↔ settingsAnswer s p r := by
  simp only [settingsAnswer, Bool.and_eq_true, Bool.or_eq_true, decide_eq_true_eq]

section Done

variable (h : (mailSettle s p).fwu.paused = false)
include h

theorem mailDone_waits (ha : (port (mailSettle s p) p).mailAnswer = none) : mailDone s p = mailSettle s p := by
  simp only [mailDone, h, ha, Bool.false_eq_true, if_false]

variable {r : Nat} {bs : List Byte} (ha : (port (mailSettle s p) p).mailAnswer = some (r, bs))
include ha

theorem mailDone_writes (hs : ¬ settingsAnswer s p r) : mailDone s p = mailWrite (mailSettle s p) p r bs := by
  simp only [mailDone, h, ha, Bool.false_eq_true, if_false]
  exact if_neg (mt settingsAnswer_iff.mp hs)

theorem mailDone_settings (hs : settingsAnswer s p r) : mailDone s p = settingsDone (mailSettle s p) p (leNat bs) := by
  simp only [mailDone, h, ha, Bool.false_eq_true, if_false]
  exact if_pos (settingsAnswer_iff.mpr hs)

end Done

/-! ### The response and the end of a second (R423, R428) -/

/-- DATA takes the response, then RESULT and RESP_LENGTH stand, BUSY goes and MBX_DONE is raised. -/
theorem mailWrite_eq (r : Nat) (bs : List Byte) :
    let u := (List.range 16).foldl (fun t w => setReg t .mgt (0x140 + 0x80 * pIdx p + 4 * w) (w32 (leAt bs (4 * w) 4))) s
    mailWrite s p r bs = setEvt (setPort u p
      { port u p with mailBusy := false, mailAnswer := none, mailResult := r, mailRespLen := bs.length }) .mgt (8 + pIdx p) := rfl

theorem logSummary_answers : Safety.answers (exec .logSummary s) s (summarise s) := finish_answers s _

end Mailbox

/-- Settles O49: each clause is the branch of its request's operation that the clause's hypotheses select. That a settings
request ends with its record (log entry 41), that an answer waits for MAILBOX_DONE and a folded mark answers a free SEQ (log entry 44), and
the fields of a SUMMARY entry (log entry 57), are the model's choices. -/
theorem mailboxRows : Obligations.MailboxRows := by
  unfold Obligations.MailboxRows
  refine ⟨fun p s => ?requests, fun s p r bs => mailWrite_eq r bs, fun s => logSummary_answers,
    fun s f => ⟨fun few => if_pos few, fun many => if_neg (Nat.not_le.mpr many)⟩⟩
  case requests =>
    intro b len row ans atHand at' holdsBoth bytes n marked mine sent shape settings
    have shaped : bridgeShape bytes = true ↔ shape := bridgeShape_iff bytes
    have identify {u : State} (h : at' 1) (e : mailIdentify s p = u) : row (.identify p) u :=
      answers_of_eq (identify_answers s p) ((mailRequest_identify h).trans e)
    have mark {u : State} (h : at' 4) (e : mailMark s p = u) : row (.logMark p) u :=
      answers_of_eq (logMark_answers s p) ((mailRequest_mark h).trans e)
    have bridge {u : State} (h : at' 5) (e : mailBridge s p = u) : row (.bridgeMailbox p) u :=
      answers_of_eq (bridgeMailbox_answers s p) ((mailRequest_bridge h).trans e)
    have settings_rows {c : Instr} {op : Nat} {empty : Bool} (hc : Safety.answers (exec c s) s (mailRequest s p op))
        (hq : at' op → mailRequest s p op = mailSettings s p empty) : settings c op empty :=
      have asks {u : State} (h : at' op) (e : mailSettings s p empty = u) : row c u := answers_of_eq hc ((hq h).trans e)
      ⟨fun h => answers_of_eq hc (mailRequest_unasked h), fun h hn => asks h (mailSettings_length hn),
        fun h hn hh => asks h (mailSettings_unheld hn hh), fun h hn hh low => asks h ((mailSettings_held hn hh).trans (if_pos low)),
        fun h hn hh full => asks h ((mailSettings_held hn hh).trans (if_neg (Nat.not_lt.mpr full)))⟩
    refine ⟨?identifyNone, ?identified, ?identifyLength, settings_rows (settingsSave_answers s p) mailRequest_save,
      settings_rows (settingsClear_answers s p) mailRequest_clear, ?markNone, ?markLength, ?markLogged, ?markFolded, ?bridgeNone,
      ?misshapen, ?unowned, ?unheld, ?down, ?up, ?unlisted, ?done⟩
    case identifyNone => exact fun h => answers_of_eq (identify_answers s p) (mailRequest_unasked h)
    case identified => exact fun h hn => identify h (mailIdentify_whole hn)
    case identifyLength => exact fun h hn => identify h (mailIdentify_length hn)
    case markNone => exact fun h => answers_of_eq (logMark_answers s p) (mailRequest_unasked h)
    case markLength => exact fun h hn => mark h (mailMark_length hn)
    case markLogged => exact fun h hn hs => mark h (mailMark_logged hn hs)
    case markFolded => exact fun h hn hs => mark h (mailMark_folded hn hs)
    case bridgeNone => exact fun h => answers_of_eq (bridgeMailbox_answers s p) (mailRequest_unasked h)
    case misshapen => exact fun h hm => bridge h (mailBridge_misshapen (mt shaped.mp hm))
    case unowned => exact fun h hm ho => bridge h (mailBridge_unowned (shaped.mpr hm) ho)
    case unheld => exact fun h hm ho hh => bridge h (mailBridge_unheld (shaped.mpr hm) ho hh)
    case down => exact fun h hm ho hh hl => bridge h (mailBridge_down (shaped.mpr hm) ho hh hl)
    case up =>
      intro h hm ho hh hl
      have up := bridge h (mailBridge_up (shaped.mpr hm) ho hh hl)
      exact ⟨fun e => answers_of_eq up (if_pos e), fun e => answers_of_eq up (if_neg (Bool.eq_false_iff.mp e))⟩
    case unlisted => exact fun h ho => mailRequest_unlisted h ho
    case done =>
      -- `t` is `mailSettle s p` with its tests written out.
      intro late t
      have done {u : State} (e : mailDone s p = u) : row (.mailboxDone p) u := answers_of_eq (mailboxDone_answers s p) e
      refine ⟨fun h => ?paused, fun h => ?late, fun _ ha ht => done (mailDone_waits ht ha), fun r bs ht ha => ?answered⟩
      case paused =>
        have same := mailSettle_paused (p := p) h
        exact done ((mailDone_paused (same.symm ▸ h)).trans same)
      case late =>
        obtain ⟨ho, hop, hm⟩ := h
        exact mailSettle_unanswered ho hop hm
      case answered =>
        have ends {u : State} (hs : settingsAnswer s p r) (e : settingsDone t p (leNat bs) = u) : row (.mailboxDone p) u :=
          done ((mailDone_settings ht ha hs).trans e)
        refine ⟨fun hs => done (mailDone_writes ht ha hs), fun hs hc => ends hs (if_pos hc), fun hs hc hw => ?written,
          fun hs hc hw => ?gone⟩
        case written => exact ends hs ((if_neg (Bool.eq_false_iff.mp hc)).trans (if_pos hw))
        case gone => exact ends hs ((if_neg (Bool.eq_false_iff.mp hc)).trans (if_neg (Bool.eq_false_iff.mp hw)))

end Sys2Proof.Machine
end

section
/-! PROOF. One sample of a control loop (R378 to R381, R388, R392): its output phase, its update phase and its supervision, each on the loop
alone, then what the sample leaves in the state, and the obligation on it. -/

namespace Sys2Proof.Machine

/-! ### Limits -/

theorem clampI_mem {lo hi : Int} (h : lo ≤ hi) (x : Int) : lo ≤ clampI lo hi x ∧ clampI lo hi x ≤ hi := by
  unfold clampI; split
  · omega
  · split <;> omega

/-- A value within the limits stays as it is. -/
theorem clampI_of_mem {lo hi x : Int} (hlo : lo ≤ x) (hhi : x ≤ hi) : clampI lo hi x = x := by
  rw [clampI, if_neg (by omega), if_neg (by omega)]

/-- What is kept in a state has 32 bits (R379). -/
theorem sat32_mem (x : Int) : -2147483648 ≤ sat32 x ∧ sat32 x ≤ 2147483647 := clampI_mem (by decide) x

/-- A whole number of Q15 units rounds to itself (R379). -/
theorem roundQ15_units (x : Int) : roundQ15 (x * 32768) = x := by
  unfold roundQ15; omega

section Sample

/-! ### The output phase (R378, R380) -/

section Output

variable (l : LoopSt) (e r : Int)

/-- The output phase changes a loop's integrator alone, and a start is over. -/
theorem outputPhase_keeps : (outputPhase l e r).1 = { l with i := (outputPhase l e r).1.i, fresh := false } := by
  simp only [outputPhase]; split
  · rfl
  · next h => rw [← Bool.eq_false_iff.mpr h]

variable {l}

theorem outputPhase_i_of_running (h : l.fresh = false) : (outputPhase l e r).1.i = l.i := by
  simp [outputPhase, h]

/-- The first sample after a start presets the integrator (R378). -/
theorem outputPhase_i_of_fresh (h : l.fresh = true) : (outputPhase l e r).1.i =
    clampI ((coefs l.act).outMin * 32768) ((coefs l.act).outMax * 32768) (sat32 (l.startVal * 32768 - (outputPhase l e r).2.2 - r)) := by
  simp [outputPhase, h]

/-- A preset `p` that no limit cuts makes the start value the output (R378). -/
theorem outputPhase_starts {p : Int} (h : l.fresh = true) (hp : p = l.startVal * 32768 - (outputPhase l e r).2.2 - r)
    (h32 : -2147483648 ≤ p ∧ p ≤ 2147483647) (hlo : (coefs l.act).outMin * 32768 ≤ p) (hhi : p ≤ (coefs l.act).outMax * 32768) :
    roundQ15 (outputPhase l e r).2.1 = l.startVal := by
  have preset : (outputPhase l e r).1.i = p := by
    rw [outputPhase_i_of_fresh e r h, ← hp, sat32, clampI_of_mem h32.1 h32.2, clampI_of_mem hlo hhi]
  have sum : (outputPhase l e r).2.1 = (outputPhase l e r).2.2 + (outputPhase l e r).1.i + r := rfl
  have units : (outputPhase l e r).2.1 = l.startVal * 32768 := by omega
  rw [units, roundQ15_units]

end Output

/-! ### The update phase (R380, R381) -/

section Update

variable (l : LoopSt) (e y : Int) (k : Nat) (sat : Bool)

/-- The compensator's states have 32 bits; of ORDER 2 the third is not used. -/
theorem updatePhase_states : (-2147483648 ≤ (updatePhase l e y k sat).s1 ∧ (updatePhase l e y k sat).s1 ≤ 2147483647)
    ∧ (-2147483648 ≤ (updatePhase l e y k sat).s2 ∧ (updatePhase l e y k sat).s2 ≤ 2147483647)
    ∧ (if orderThree l.act then -2147483648 ≤ (updatePhase l e y k sat).s3 ∧ (updatePhase l e y k sat).s3 ≤ 2147483647
        else (updatePhase l e y k sat).s3 = l.s3) := by
  refine ⟨sat32_mem _, sat32_mem _, ?_⟩
  split
  · next h => simp only [updatePhase, h, if_true]; exact sat32_mem _
  · next h => exact if_neg h

/-- A saturated sample leaves the integrator and the table as they are (R381). -/
theorem updatePhase_saturated : (updatePhase l e y k true).i = l.i ∧ (updatePhase l e y k true).bins = l.bins := by
  simp [updatePhase]

/-- An integrator within its limits stays within them. -/
theorem updatePhase_i_mem (h : (coefs l.act).outMin ≤ (coefs l.act).outMax)
    (hlo : (coefs l.act).outMin * 32768 ≤ l.i) (hhi : l.i ≤ (coefs l.act).outMax * 32768) :
    (coefs l.act).outMin * 32768 ≤ (updatePhase l e y k sat).i ∧ (updatePhase l e y k sat).i ≤ (coefs l.act).outMax * 32768 := by
  cases sat with
  | true => exact (updatePhase_saturated l e y k).1.symm ▸ ⟨hlo, hhi⟩
  | false => exact clampI_mem (by omega) _

end Update

/-! ### Supervision (R388) -/

/-- Supervision changes the count of consecutive errors beyond FE_LIMIT alone, and faults where the count comes to FE_COUNT. -/
theorem supervise_spec (l : LoopSt) (e : Int) : ∃ run bad, supervise l e = ({ l with feRun := run }, bad)
    ∧ (((coefs l.act).feLimit : Int) < e.natAbs → run = l.feRun + 1 ∧ bad = (run == (coefs l.act).feCount))
    ∧ (¬ ((coefs l.act).feLimit : Int) < e.natAbs → run = 0 ∧ bad = false) := by
  simp only [supervise]; split
  · next h => exact ⟨_, _, rfl, fun _ => ⟨rfl, rfl⟩, fun hn => absurd h hn⟩
  · next h => exact ⟨_, _, rfl, fun hb => absurd hb h, fun _ => ⟨rfl, rfl⟩⟩

/-! ### The sample in the state -/

theorem loop_of_log {s t : State} (h : LogFrame s t) (i : Nat) : loop t i = loop s i := by rw [h]; rfl

variable (s : State) (n j : Nat)

section First

variable (ref meas d : Int) (k : Nat)

/-- The output phase of a sample runs on the loop with its pending set taken, and leaves the loop that it answers (R380, R387). -/
theorem calcOut_loop :
    let x := (calcOut s n j ref meas k d).2
    loop (calcOut s n j ref meas k d).1 (loopIdx n j) = (outputPhase (takePending (loop s (loopIdx n j))) x.e x.r).1 := by
  simp only [calcOut, loop_setLoop, modLoop_eq]

/-- The values of a sample are those of that output phase, for the error saturated to Q15 (R380). -/
theorem calcOut_values :
    let x := (calcOut s n j ref meas k d).2
    x.e = clampI (-32768) 32767 (ref - meas)
      ∧ x.v = (outputPhase (takePending (loop s (loopIdx n j))) x.e x.r).2.1
      ∧ x.y = (outputPhase (takePending (loop s (loopIdx n j))) x.e x.r).2.2 := by
  simp only [calcOut, loop_setLoop, modLoop_eq, satQ15, and_self]

end First

section Last

variable (x : LoopCalc) (cur : Bool) (ns : Nat)

/-- The rounded output is beyond a limit, or a reel current was limited (R381). -/
def sampleSat (l : LoopSt) (x : LoopCalc) (cur : Bool) : Bool :=
  roundQ15 x.v < (coefs l.act).outMin || (coefs l.act).outMax < roundQ15 x.v || cur

theorem sampleSat_iff (l : LoopSt) : sampleSat l x cur = true ↔
    roundQ15 x.v < (coefs l.act).outMin ∨ (coefs l.act).outMax < roundQ15 x.v ∨ cur = true := by
  simp [sampleSat, or_assoc]

/-- The loop whose output has been sent (R393, R394). -/
def sentLoop (l : LoopSt) (x : LoopCalc) (cur : Bool) (ns : Nat) : LoopSt :=
  { l with lastOut := clampI (coefs l.act).outMin (coefs l.act).outMax (roundQ15 x.v), lastErr := x.e, lastRef := x.ref,
           lastRc := satQ15 (roundQ15 x.r), saturated := sampleSat l x cur, invalid := false, latency := ns }

/-- The loop after its update phase, before its supervision. -/
def updatedLoop (l : LoopSt) (x : LoopCalc) (cur : Bool) (ns : Nat) : LoopSt :=
  updatePhase (sentLoop l x cur ns) x.e x.y x.k (sampleSat l x cur)

/-- An output that is sent and counted changes what a loop tells of its last sample; the counters touch no loop (R393, R394). -/
theorem loop_loopOutput (i : Nat) (u e ref r : Int) (sat : Bool) : loop (loopOutput s i u e ref r sat ns) i =
    { loop s i with lastOut := u, lastErr := e, lastRef := ref, lastRc := satQ15 (roundQ15 r), saturated := sat, invalid := false,
                    latency := ns } := by
  rw [loopOutput, modLoop_eq, loop_setLoop, setReg, loop_of_log (modPage_logFrame ..), loop_of_log (count_logFrame ..)]

/-- The state once the output of loop `j` has been sent; a saturated sample is counted (R394). -/
def sentState (s : State) (n j : Nat) (x : LoopCalc) (cur : Bool) (ns : Nat) : State :=
  let l := loop s (loopIdx n j)
  let c := coefs l.act
  let t := loopOutput s (loopIdx n j) (clampI c.outMin c.outMax (roundQ15 x.v)) x.e x.ref x.r (sampleSat l x cur) ns
  if sampleSat l x cur then loopCount t n j 2 else t

theorem loop_sentState : loop (sentState s n j x cur ns) (loopIdx n j) = sentLoop (loop s (loopIdx n j)) x cur ns := by
  simp only [sentState]; split
  · exact (loop_of_log (count_logFrame ..) _).trans (loop_loopOutput ..)
  · exact loop_loopOutput ..

/-- A sample that ends sends the output, updates the loop and supervises it; what the supervision says is the fault. -/
theorem calcEnd_eq : calcEnd s n j x cur ns =
    let p := supervise (updatedLoop (loop s (loopIdx n j)) x cur ns) x.e
    (setLoop (sentState s n j x cur ns) (loopIdx n j) p.1, if p.2 then [(j, 0, x.e)] else []) := by
  rw [updatedLoop, ← loop_sentState s n]
  rfl

end Last

end Sample

/-- Settles O60: the output phase gives the sample's values, the update phase and the supervision what it leaves of the loop. -/
theorem loopArithmetic : Obligations.LoopArithmetic := by
  unfold Obligations.LoopArithmetic
  refine ⟨fun s n j k ns ref meas d cur => ?sample, ?worked⟩
  case worked => decide
  case sample =>
    have out := calcOut_loop s n j ref meas d k
    have values := calcOut_values s n j ref meas d k
    generalize calcOut s n j ref meas k d = p at out values ⊢
    obtain ⟨t, x⟩ := p
    -- The statement's two pairs give way to the loops that they hold: `was` before, `l` after the output phase.
    dsimp -zeta only
    rw [calcEnd_eq]
    dsimp only at out values ⊢
    rw [loop_setLoop]
    generalize loop t (loopIdx n j) = l at out ⊢
    generalize takePending (loop s (loopIdx n j)) = was at out values ⊢
    obtain ⟨run, bad, supervised, beyond, within⟩ := supervise_spec (updatedLoop l x cur ns) x.e
    rw [supervised]
    intro h
    obtain ⟨e_eq, v_eq, y_eq⟩ := values
    have kept : l = { was with i := l.i, fresh := false } := out ▸ outputPhase_keeps was x.e x.r
    have act : l.act = was.act := by rw [kept]
    obtain ⟨out_lo, out_hi⟩ := clampI_mem h (roundQ15 x.v)
    obtain ⟨hs1, hs2, hs3⟩ := updatePhase_states (sentLoop l x cur ns) x.e x.y x.k (sampleSat l x cur)
    refine ⟨e_eq, act ▸ y_eq, ?value, kept, ?running, ?preset, ?start, rfl, out_lo, out_hi, rfl, hs1, hs2, hs3,
      updatePhase_i_mem (sentLoop l x cur ns) x.e x.y x.k _ h, ?held, sampleSat_iff x cur l, ?supervised⟩
    case value => rw [v_eq, y_eq, out]; rfl
    case running => exact fun hf => out ▸ outputPhase_i_of_running _ _ hf
    case preset =>
      intro hf
      rw [out, outputPhase_i_of_fresh _ _ hf, ← out, act]
      exact clampI_mem (by rw [← act]; omega) _
    case start =>
      intro hf
      rw [v_eq, y_eq, act]
      exact outputPhase_starts _ _ hf rfl
    case held =>
      intro hsat
      rw [updatedLoop, (sampleSat_iff x cur l).mpr hsat]
      exact updatePhase_saturated (sentLoop l x cur ns) x.e x.y x.k
    case supervised =>
      split
      · next hb =>
        obtain ⟨hrun, hbad⟩ := beyond hb
        refine ⟨hrun, ?_⟩
        simp only [hbad, beq_iff_eq]
        rfl
      · next hb =>
        obtain ⟨hrun, hbad⟩ := within hb
        exact ⟨hrun, if_neg (Bool.eq_false_iff.mp hbad)⟩

end Sys2Proof.Machine
end

section
/-! PROOF. The rows of the control loops (R377, R384 to R389, R396, R397): what each writes of `LOOP_CTRL` or does on its own, and the
obligation on them. -/

namespace Sys2Proof.Machine

/-- The SERVO page of a transport. -/
theorem pServo_val (n : Fin 16) : pServo n.val = .servo n := congrArg PageId.servo (tFin_of_lt n.isLt)

section Loops

variable (s : State) (m : Master) (i : Fin 64)

/-! ### LOOP_CTRL (R394) -/

/-- A master with the right writes LOOP_CTRL. -/
theorem mmioWrite_loopCtrl (v : Word) (h : Safety.canWrite s m (.loop i.val 0x80) = true) :
    mmioWrite s m (loopCtrlAddr i.val) 0xF v = loopCtrl s i.val v := by
  have spot := spotOf_loopCtrl i.val i.isLt
  rw [mmioWrite_of_can s m _ v (by unfold loopCtrlAddr; omega) (spot ▸ h), spot]
  rfl

theorem manual_answers (v : Word) (h : Safety.canWrite s m (.loop i.val 0x80) = true) :
    Safety.answers (exec (.manual m i v) s) s (loopCtrl s i.val v) :=
  answers_of_eq (finish_answers s _) (mmioWrite_loopCtrl s m i v h)

/-- The word of an action: MANUAL as it reads, and the action's bit. -/
def actionWord (l : LoopSt) (b : Nat) : Word := w32 (bit l.manual + b)

theorem loopAction_answers {c : Instr} {b : Nat} (h : Safety.canWrite s m (.loop i.val 0x80) = true)
    (hc : exec c s = finish s (loopAction s m i.val b)) : Safety.answers (exec c s) s (loopCtrl s i.val (actionWord (loop s i.val) b)) := by
  have manual : loopReg s i.val 0x80 % 2 = bit (loop s i.val).manual := by
    show bit (loop s i.val).manual % 2 = _
    cases (loop s i.val).manual <;> rfl
  rw [hc, loopAction, manual]
  exact answers_of_eq (finish_answers s _) (mmioWrite_loopCtrl s m i _ h)

theorem apply_answers (h : Safety.canWrite s m (.loop i.val 0x80) = true) :
    Safety.answers (exec (.apply m i) s) s (loopCtrl s i.val (actionWord (loop s i.val) 2)) := loopAction_answers s m i h rfl

theorem clearTable_answers (h : Safety.canWrite s m (.loop i.val 0x80) = true) :
    Safety.answers (exec (.clearTable m i) s) s (loopCtrl s i.val (actionWord (loop s i.val) 4)) := loopAction_answers s m i h rfl

end Loops

/-! ### MANUAL (R385, R386) -/

section Control

variable (s : State) (i : Nat)

/-- What a write of MANUAL does. -/
def manualWrite (s : State) (i : Nat) (set : Bool) : State :=
  let l := loop s i
  if set && !l.manual then
    if (link s (i / 4)).mode = .service then
      setLoop s i { l with manual := true, feRun := 0, regs := tput l.regs 0x84 (w32 (u16 l.lastOut)) }
    else setEvt s (pServo (i / 4)) 9
  else if !set && l.manual then
    setLoops (setLoop s i { loopStart l (s16 (setField l.regs 0x84 0 16)) with manual := false }) (i / 4)
  else s

/-- A loop that is not manual starts anew from its last output (R384, R387). -/
def restartLoop (l : LoopSt) : LoopSt := if l.manual then l else loopStart l l.lastOut

/-- A write of LOOP_CTRL acts on MANUAL, then on CLEAR_TABLE, then on APPLY. -/
theorem loopCtrl_eq (v : Word) : loopCtrl s i v =
    let t := manualWrite s i (v.getLsbD 0)
    let u := if v.getLsbD 2 then modLoop t i fun l => restartLoop { l with bins := [] } else t
    if v.getLsbD 1 then
      let r := loopCheck (loop u i) (i % 4)
      let w := setCheck u (pServo (i / 4)) r.1 r.2
      if r.1 = 0 then modLoop w i fun l => restartLoop { l with applyPending := true } else w
    else u := rfl

variable {s i}

theorem manualWrite_same {set : Bool} (h : set = (loop s i).manual) : manualWrite s i set = s := by
  subst h
  simp [manualWrite]

theorem manualWrite_service (hm : (loop s i).manual = false) (h : (link s (i / 4)).mode = .service) : manualWrite s i true =
    setLoop s i { loop s i with manual := true, feRun := 0, regs := tput (loop s i).regs 0x84 (w32 (u16 (loop s i).lastOut)) } := by
  simp [manualWrite, hm, h]

theorem manualWrite_refused (hm : (loop s i).manual = false) (h : (link s (i / 4)).mode ≠ .service) :
    manualWrite s i true = setEvt s (pServo (i / 4)) 9 := by
  simp [manualWrite, hm, h]

theorem manualWrite_cleared (hm : (loop s i).manual = true) : manualWrite s i false =
    setLoops (setLoop s i { loopStart (loop s i) (s16 (setField (loop s i).regs 0x84 0 16)) with manual := false }) (i / 4) := by
  simp [manualWrite, hm]

theorem loopCtrl_manual {v : Word} (h1 : v.getLsbD 1 = false) (h2 : v.getLsbD 2 = false) :
    loopCtrl s i v = manualWrite s i (v.getLsbD 0) := by
  rw [loopCtrl_eq, h1, h2]
  rfl

/-! ### CLEAR_TABLE and APPLY (R384, R387, R396) -/

/-- The bits of an action's word. -/
theorem actionWord_apply (l : LoopSt) :
    (actionWord l 2).getLsbD 0 = l.manual ∧ (actionWord l 2).getLsbD 1 = true ∧ (actionWord l 2).getLsbD 2 = false := by
  unfold actionWord; cases l.manual <;> decide

theorem actionWord_clearTable (l : LoopSt) :
    (actionWord l 4).getLsbD 0 = l.manual ∧ (actionWord l 4).getLsbD 1 = false ∧ (actionWord l 4).getLsbD 2 = true := by
  unfold actionWord; cases l.manual <;> decide

theorem loopCtrl_clearTable :
    loopCtrl s i (actionWord (loop s i) 4) = setLoop s i (restartLoop { loop s i with bins := [] }) := by
  obtain ⟨h0, h1, h2⟩ := actionWord_clearTable (loop s i)
  rw [loopCtrl_eq, manualWrite_same h0, h1, h2]
  rfl

/-- APPLY runs the check, and acts on its result. -/
theorem loopCtrl_apply : loopCtrl s i (actionWord (loop s i) 2) =
    let r := loopCheck (loop s i) (i % 4)
    let w := setCheck s (pServo (i / 4)) r.1 r.2
    if r.1 = 0 then modLoop w i fun l => restartLoop { l with applyPending := true } else w := by
  obtain ⟨h0, h1, h2⟩ := actionWord_apply (loop s i)
  rw [loopCtrl_eq, manualWrite_same h0, h1, h2]
  rfl

theorem loopCtrl_apply_failed (h : (loopCheck (loop s i) (i % 4)).1 ≠ 0) : loopCtrl s i (actionWord (loop s i) 2) =
    setPage s (pServo (i / 4)) { page s (pServo (i / 4)) with
      reason := BitVec.ofNat 16 (loopCheck (loop s i) (i % 4)).1, field := BitVec.ofNat 8 (loopCheck (loop s i) (i % 4)).2,
      evt := (page s (pServo (i / 4))).evt ||| 1 } := by
  simp only [loopCtrl_apply, if_neg h, setCheck_result]

theorem loopCtrl_apply_passed (h : (loopCheck (loop s i) (i % 4)).1 = 0) : loopCtrl s i (actionWord (loop s i) 2) =
    setLoop (setPage s (pServo (i / 4)) { page s (pServo (i / 4)) with
      reason := 0, field := BitVec.ofNat 8 (loopCheck (loop s i) (i % 4)).2 }) i
      (restartLoop { loop s i with applyPending := true }) := by
  simp only [loopCtrl_apply, if_pos h, setCheck_result, modLoop_eq, loop_setPage]

end Control

/-! ### What a loop's page does on its own (R377, R389, R397) -/

section Timers

variable (s : State)

theorem servoKeepalive_answers (n : Fin 16) :
    Safety.answers (exec (.servoKeepalive n) s) s (if enabledNow s (.servo n) then keepalive s n.val else s) :=
  pServo_val n ▸ finish_answers s _

theorem servoDrainTimeout_answers (n : Fin 16) :
    Safety.answers (exec (.servoDrainTimeout n) s) s (modServo s n.val fun v => { v with haltSent := false }) := finish_answers s _

theorem sampleTimeout_answers (i : Fin 64) : Safety.answers (exec (.sampleTimeout i) s) s (sampleLate s i.val) := finish_answers s _

variable {s} {i : Nat}

/-- A loop that runs on its own has had no sample. -/
def lacksSample (s : State) (i : Nat) : Prop :=
  (loop s i).phase = .run ∧ (loop s i).manual = false ∧ enabledNow s (.servo (tFin (i / 4))) = true

/-- The test of SAMPLE_TIMEOUT. -/
theorem lacksSample_iff :
    (decide ((loop s i).phase = .run) && !(loop s i).manual && servoOn s (i / 4)) = true ↔ lacksSample s i := by
  simp [lacksSample, servoOn, pServo, and_assoc]

theorem sampleLate_faults (h : lacksSample s i) :
    sampleLate s i = progress (loopFaults s (i / 4) [(i % 4, 1, (loop s i).lastErr)]) (i / 4) := if_pos (lacksSample_iff.mpr h)

theorem sampleLate_unchanged (h : ¬ lacksSample s i) : sampleLate s i = s := if_neg (mt lacksSample_iff.mp h)

end Timers

/-- The check of a pending set, with its tests as propositions (R396). -/
theorem loopCheck_eq (l : LoopSt) (j : Nat) :
    let f (off : Nat) : Nat := 0x80 + 0x20 * j + off / 4
    let order := setField l.regs 0x10 0 4
    loopCheck l j = if order ≠ 2 ∧ order ≠ 3 then (0x0501, f 0x10)
      else if 7 < setField l.regs 0x10 4 4 ∨ 7 < setField l.regs 0x10 8 4 then (0x0502, f 0x10)
      else if s16 (setField l.regs 0x14 16 16) ≤ s16 (setField l.regs 0x14 0 16) then (0x0503, f 0x14)
      else if setField l.regs 0x18 0 16 = 0 ∨ setField l.regs 0x18 16 16 = 0 then (0x0504, f 0x18)
      else if setField l.regs 0x1C 0 1 = 1 ∧ (j = 1 ∨ j = 2) then (0x0506, f 0x1C)
      else if 511 < setField l.regs 0x1C 8 10 then (0x0507, f 0x1C) else (0, 0) := by
  simp only [loopCheck, Bool.and_eq_true, Bool.or_eq_true, bne_iff_ne, decide_eq_true_eq]

/-- Settles O42: each row answers a write of `LOOP_CTRL` or its own operation, and each clause is a branch of that. (`loopRows` names
the register rows.) -/
theorem loopControlRows : Obligations.LoopRows := by
  unfold Obligations.LoopRows
  refine ⟨fun m i s h => ?ctrl, loopCheck_eq, fun n s => ?keepalive, fun i s => ?late⟩
  case ctrl =>
    refine ⟨fun v h1 h2 => ?manual, fun hc => ?failed, fun hc => ?passed, ?cleared⟩
    case manual =>
      have row {t : State} (e : manualWrite s i.val (v.getLsbD 0) = t) : Safety.answers (exec (.manual m i v) s) s t :=
        answers_of_eq (manual_answers s m i v h) ((loopCtrl_manual h1 h2).trans e)
      exact ⟨fun h0 => row (manualWrite_same h0),
        fun h0 hm => ⟨fun hs => row (h0 ▸ manualWrite_service hm hs), fun hs => row (h0 ▸ manualWrite_refused hm hs)⟩,
        fun h0 hm => row (h0 ▸ manualWrite_cleared hm)⟩
    case failed => exact answers_of_eq (apply_answers s m i h) (loopCtrl_apply_failed hc)
    case passed => exact answers_of_eq (apply_answers s m i h) (loopCtrl_apply_passed hc)
    case cleared => exact answers_of_eq (clearTable_answers s m i h) loopCtrl_clearTable
  case keepalive =>
    have row := servoKeepalive_answers s n
    exact ⟨fun he => answers_of_eq row (if_pos he), fun he => answers_of_eq row (if_neg (Bool.eq_false_iff.mp he)),
      servoDrainTimeout_answers s n⟩
  case late =>
    exact ⟨fun hl => answers_of_eq (sampleTimeout_answers s i) (sampleLate_faults hl),
      fun hl => answers_of_eq (sampleTimeout_answers s i) (sampleLate_unchanged hl)⟩

end Sys2Proof.Machine
end

section
/-! PROOF. A unit operation of the NV array (R442, R443): which bytes and which unfinished-erase flags (R445) a program
and an erase change. -/

namespace Sys2Proof.Machine

section UnitBytes

variable (s : State)

theorem count_nv (pg : PageId) (k n : Nat) : (count s pg k n).nv = s.nv := by
  simp only [count]; split <;> rfl

/-- What a programmed range means changes neither a byte nor a flag. -/
theorem programMeans_keeps (a : Nat) (bs : List Byte) :
    (programMeans s a bs).nv.cells = s.nv.cells ∧ (programMeans s a bs).nv.flags = s.nv.flags := by
  unfold programMeans
  dsimp only
  repeat' split
  all_goals exact ⟨rfl, rfl⟩

/-- Nor does what an erased sector means. -/
theorem eraseMeans_keeps (a : Nat) : (eraseMeans s a).nv.cells = s.nv.cells ∧ (eraseMeans s a).nv.flags = s.nv.flags := by
  unfold eraseMeans
  repeat' split
  all_goals exact ⟨rfl, rfl⟩

theorem program_cells (a : Nat) (bs : List Byte) :
    (applyUnit s (.program a bs)).nv.cells = Memory.put erased s.nv.cells a bs ∧ (applyUnit s (.program a bs)).nv.flags = s.nv.flags := by
  simp only [applyUnit, programMeans_keeps, count_nv]
  exact ⟨rfl, rfl⟩

theorem erase_cells (a : Nat) :
    (applyUnit s (.erase a)).nv.cells = Memory.clear s.nv.cells (a / 4096 * 4096) 4096
      ∧ (applyUnit s (.erase a)).nv.flags = s.nv.flags.filter (· != a / 4096) := by
  simp only [applyUnit, eraseMeans_keeps, count_nv]
  exact ⟨rfl, rfl⟩

/-- The bytes after a program (R443). -/
theorem program_byte (a x : Nat) (bs : List Byte) :
    Memory.get erased (applyUnit s (.program a bs)).nv.cells x
      = if a ≤ x ∧ x < a + bs.length then bs.getD (x - a) erased else Memory.get erased s.nv.cells x := by
  rw [(program_cells s a bs).1, Memory.get_put]

/-- The bytes after an erase of the sector of `a` (R443). -/
theorem erase_byte (a x : Nat) :
    Memory.get erased (applyUnit s (.erase a)).nv.cells x
      = if a / 4096 * 4096 ≤ x ∧ x < a / 4096 * 4096 + 4096 then erased else Memory.get erased s.nv.cells x := by
  rw [(erase_cells s a).1, Memory.get_clear]

/-- A unit operation changes the array, the boot choice and the counters of the NVA page. -/
theorem applyUnit_frame (u : NvUnit) :
    applyUnit s u = { s with pages := (applyUnit s u).pages, nv := (applyUnit s u).nv, fwu := (applyUnit s u).fwu }
      ∧ ∀ q, q ≠ .nva → page (applyUnit s u) q = page s q :=
  have f := applyUnit_arrayFrame s u
  ⟨f.rest, fun q hq => f.pages.same q (by simpa using hq)⟩

end UnitBytes

/-- Settles O59: what a unit operation means to the boot choice changes no cell and no flag, so its bytes are those of one write into
the array's cells, or of one cleared sector. The statement's failure marks are `nv.flags`, the
unfinished-erase flags (R445). -/
theorem unitOperationBytes : Obligations.UnitOperationBytes := by
  unfold Obligations.UnitOperationBytes
  intro s a bs
  obtain ⟨pc, pf⟩ := program_cells s a bs
  obtain ⟨ec, ef⟩ := erase_cells s a
  refine ⟨?written, ?besides, ?erased, ?around, ?dropped, ?others, pf, ?canonical, ?frame⟩
  case written => exact fun x h1 h2 => (program_byte s a x bs).trans (if_pos ⟨h1, h2⟩)
  case besides => exact fun x h => (program_byte s a x bs).trans (if_neg (by omega))
  case erased => exact fun x h1 h2 => (erase_byte s a x).trans (if_pos ⟨h1, h2⟩)
  case around => exact fun x h => (erase_byte s a x).trans (if_neg (by omega))
  case dropped => simp [ef]
  case others => intro k hk; simp [ef, hk]
  case canonical =>
    intro h
    exact ⟨pc ▸ Memory.put_sorted erased s.nv.cells a bs h, ec ▸ Memory.clear_sorted erased s.nv.cells _ _ h⟩
  case frame =>
    rintro t (rfl | rfl)
    · exact applyUnit_frame s _
    · exact applyUnit_frame s _

end Sys2Proof.Machine
end

section
/-! PROOF. An empty queue (R435, R436, R177): a TCXO cycle moves device time and the counter, and the age of the scrubber's lap can
saturate in it. -/

namespace Sys2Proof.Machine

section Cycle

variable (s : State)

/-- A TCXO cycle in which a slew gains `g`, before the age of the scrubber's lap is looked at. -/
def cycled (s : State) (g : Int) : State :=
  { s with
    tick := s.tick + 1
    tim := { s.tim with count := (((s.tim.count : Int) + 40 * 2 ^ 32 + (freqAdj s).toInt + g) % 2 ^ 96).toNat,
                        slewLeft := s.tim.slewLeft - g } }

theorem tcxoTick_still (h : s.pwr.tcxo = false ∨ s.pwr.supplied = false) : tcxoTick s = s := by
  rcases h with h | h <;> simp [tcxoTick, h]

theorem tcxoTick_steady (ht : s.pwr.tcxo = true) (hs : s.pwr.supplied = true) (hw : s.tim.slewing = false) :
    tcxoTick s = ageSat s (cycled s 0) := by
  simp [tcxoTick, cycled, ht, hs, hw]

theorem tcxoTick_slewing (ht : s.pwr.tcxo = true) (hs : s.pwr.supplied = true) (hw : s.tim.slewing = true) :
    tcxoTick s = ageSat s (cycled s (slewPart s.tim.slewLeft)) := by
  simp [tcxoTick, cycled, ht, hs, hw]

/-- A cycle in which no slew gains anything leaves what is left of one. -/
theorem cycled_zero : cycled s 0 = { s with
    tick := s.tick + 1
    tim := { s.tim with count := (((s.tim.count : Int) + 40 * 2 ^ 32 + (freqAdj s).toInt) % 2 ^ 96).toNat } } := by
  simp only [cycled, Int.add_zero, Int.sub_zero]

theorem ageSat_same {u : State} (h : ¬ (lapAge s < lapAge u ∧ 2 ^ 32 ≤ lapAge u)) : ageSat s u = u :=
  if_neg (by simpa using h)

/-- A millisecond that the age cannot count sets its COUNTER_SAT bit and the event (R58). -/
theorem ageSat_saturates {u : State} (h : lapAge s < lapAge u ∧ 2 ^ 32 ≤ lapAge u) :
    ageSat s u = settle (setPage u .mem { page u .mem with sat := (page u .mem).sat ||| 0x20, evt := (page u .mem).evt ||| 8 }) := by
  rw [ageSat, if_pos (by simpa using h), setEvt, modPage_eq, modPage_eq, page_setPage, setPage_setPage]
  rfl

/-- A step on an empty queue is a TCXO cycle. -/
theorem step_nil (h : s.pending = []) : step s = .next (tcxoTick s) := by
  rw [step, h]

/-- The same, where the age of the scrubber's lap is looked at after a cycle `u`. -/
theorem step_ageSat {u : State} (h : s.pending = []) (e : tcxoTick s = ageSat s u) :
    (¬ (lapAge s < lapAge u ∧ 2 ^ 32 ≤ lapAge u) → step s = .next u)
      ∧ (lapAge s < lapAge u ∧ 2 ^ 32 ≤ lapAge u → step s = .next (settle (setPage u .mem
          { page u .mem with sat := (page u .mem).sat ||| 0x20, evt := (page u .mem).evt ||| 8 }))) := by
  rw [step_nil s h, e]
  exact ⟨fun hn => congrArg _ (ageSat_same s hn), fun hp => congrArg _ (ageSat_saturates s hp)⟩

end Cycle

/-- Settles O2: the cycle with what a slew gains in it; the age of a lap is what the statement computes from the ticks. That an empty
queue lets a cycle pass is the model's choice. -/
theorem idleIsOneCycle : Obligations.IdleIsOneCycle := by
  unfold Obligations.IdleIsOneCycle
  intro s hq
  refine ⟨fun ht hs hw => ?steady, fun ht hs hw => ⟨cycled s (slewPart s.tim.slewLeft), ?slewing, rfl, rfl, rfl⟩, fun h => ?still⟩
  case steady => exact step_ageSat s hq (cycled_zero s ▸ tcxoTick_steady s ht hs hw)
  case slewing => exact step_ageSat s hq (tcxoTick_slewing s ht hs hw)
  case still => rw [step_nil s hq, tcxoTick_still s h]

end Sys2Proof.Machine
end

section
/-! PROOF. A host port's pins, reference, link and power state (R23, R90, R399, R506). -/

namespace Sys2Proof.Machine

section HostPort

variable (s : State) (p : Port)

/-! ### The rows -/

theorem perstNDeassert_answers :
    Safety.answers (exec (.perstNDeassert p) s) s (modPort s p fun t => { t with perstHigh := true }) := finish_answers s _
theorem refclkRestored_answers :
    Safety.answers (exec (.refclkRestored p) s) s (modPort s p fun t => { t with refclk := true }) := finish_answers s _
theorem refclkLoss_answers : Safety.answers (exec (.refclkLoss p) s) s (refLost s p) := finish_answers s _
theorem d3hotEntry_answers :
    Safety.answers (exec (.d3hotEntry p) s) s (modPort s p fun t => { t with d3hot := t.d3hot || t.linkUp }) := finish_answers s _
theorem d3hotToD0_answers : Safety.answers (exec (.d3hotToD0 p) s) s (toD0 s p) := finish_answers s _

theorem hostLinkUp_answers (rate : BitVec 3) (width : BitVec 5) (hr : rate = 5 ∨ rate = 6 ∨ rate = 7)
    (hw : width = 4 ∨ width = 8 ∨ width = 16) :
    Safety.answers (exec (.hostLinkUp p rate width) s) s (linkComes s p rate width) :=
  finishIf_answers s _ _ (by simpa [rateOk, widthOk, or_assoc] using And.intro hr hw)

/-! ### The link comes and goes -/

theorem linkComes_up (rate : BitVec 3) (width : BitVec 5) (hp : (port s p).perstHigh = true) (hc : (port s p).refclk = true)
    (hq : p ∈ s.pwr.clkreq) (hl : (port s p).linkUp = false) :
    linkComes s p rate width = setPort s p { port s p with linkUp := true, rate := rate, width := width } := by
  simp [linkComes, modPort_eq, hp, hc, hq, hl]

theorem linkComes_unchanged (rate : BitVec 3) (width : BitVec 5)
    (h : (port s p).perstHigh = false ∨ (port s p).refclk = false ∨ p ∉ s.pwr.clkreq ∨ (port s p).linkUp = true) :
    linkComes s p rate width = s := by
  rcases h with h | h | h | h <;> simp [linkComes, h]

theorem refLost_down (h : (port s p).linkUp = false) : refLost s p = setPort s p { port s p with refclk := false } := by
  simp [refLost, modPort_eq, h]

/-- A port that is set twice has what it was set to last. -/
theorem setPort_setPort (x y : PortSt) : setPort (setPort s p x) p y = setPort s p y := by
  simp only [setPort, tput_tput]

/-- A link that is up goes down with a port reset, and then the reference is gone (R23). -/
theorem refLost_up (h : (port s p).linkUp = true) :
    refLost s p = setPort (portResetOp s p) p
      { port (portResetOp s p) p with linkUp := false, rate := 0, width := 0, d3hot := false, refclk := false } := by
  simp only [refLost, portLinkDown, modPort_eq, h, if_true, port_setPort, setPort_setPort]

theorem toD0_hot (h : (port s p).d3hot = true) :
    toD0 s p = setPort (portResetOp s p) p { port (portResetOp s p) p with d3hot := false } := if_pos h

theorem toD0_unchanged (h : (port s p).d3hot = false) : toD0 s p = s := if_neg (Bool.eq_false_iff.mp h)

end HostPort

/-- Settles O18: each clause is the branch of its row's operation that the clause's hypotheses select. -/
theorem hostPortRows : Obligations.HostPortRows := by
  unfold Obligations.HostPortRows
  intro p s t
  refine ⟨perstNDeassert_answers s p, refclkRestored_answers s p, fun rate width hr hw => ⟨?comes, ?stays⟩, ?lost, ?lostUp,
    d3hotEntry_answers s p, ?toD0, ?inD0⟩
  case comes =>
    exact fun hp hc hq hl => answers_of_eq (hostLinkUp_answers s p rate width hr hw) (linkComes_up s p rate width hp hc hq hl)
  case stays => exact fun h => answers_of_eq (hostLinkUp_answers s p rate width hr hw) (linkComes_unchanged s p rate width h)
  case lost => exact fun h => answers_of_eq (refclkLoss_answers s p) (refLost_down s p h)
  case lostUp => exact fun h => answers_of_eq (refclkLoss_answers s p) (refLost_up s p h)
  case toD0 => exact fun h => answers_of_eq (d3hotToD0_answers s p) (toD0_hot s p h)
  case inD0 => exact fun h => answers_of_eq (d3hotToD0_answers s p) (toD0_unchanged s p h)

end Sys2Proof.Machine
end

section
/-! PROOF. A device reset (R154, R190, R244, R401): what it keeps of the state in which the unit operations of the array have ended, and
that every other part reads its reset value. -/

namespace Sys2Proof.Machine

section DeviceReset

variable (s : State) (c : ResetCause)

/-! ### What the end of the array's unit operations leaves -/

/-- The parts of the state that a reset takes over, but for the array's. -/
theorem settleArray_keeps :
    let a := settleArray s
    a.code = s.code ∧ a.ports = s.ports ∧ a.pool = s.pool ∧ a.mem = s.mem ∧ a.keys = s.keys ∧ a.alarms = s.alarms ∧ a.pwr = s.pwr
      ∧ a.tim = s.tim ∧ a.out = s.out ∧ a.pending = s.pending := by
  intro a
  have frame : a = _ := (settleArray_arrayFrame s).rest
  rw [frame]
  exact ⟨rfl, rfl, rfl, rfl, rfl, rfl, rfl, rfl, rfl, rfl⟩

/-- A register outside the NVA page is as it was. -/
theorem reg_settleArray (pg : PageId) (off : Nat) (h : pg ≠ .nva) : reg (settleArray s) pg off = reg s pg off := by
  rw [reg, reg, (settleArray_arrayFrame s).pages.same pg (by simpa using h), (settleArray_keeps s).1]

/-! ### The pages -/

/-- A page at reset that keeps one register. -/
def keeping (pg : PageId) (off : Nat) (v : Word) : Page := { pageInit pg with regs := [(off, v)] }

theorem deviceReset_pages : (deviceReset s c).pages
    = [(pageIdx .pwr, keeping .pwr 0x054 (reg (settleArray s) .pwr 0x054)),
      (pageIdx .key, keeping .key 0x054 (reg (settleArray s) .key 0x054))] :=
  rfl

theorem page_deviceReset_pwr : page (deviceReset s c) .pwr = keeping .pwr 0x054 (reg s .pwr 0x054) := by
  rw [page, deviceReset_pages, reg_settleArray s .pwr 0x054 (by decide)]
  rfl

theorem page_deviceReset_key : page (deviceReset s c) .key = keeping .key 0x054 (reg s .key 0x054) := by
  rw [page, deviceReset_pages, reg_settleArray s .key 0x054 (by decide)]
  rfl

/-- Every other page is at reset. -/
theorem page_deviceReset {pg : PageId} (hp : pg ≠ .pwr) (hk : pg ≠ .key) : page (deviceReset s c) pg = pageInit pg := by
  have differs {q : PageId} (h : pg ≠ q) : pageIdx q ≠ pageIdx pg := fun e => h (pageIdx_inj e).symm
  rw [page, deviceReset_pages, tget, if_neg (differs hp), tget, if_neg (differs hk), tget]

/-- A page's header is at reset, whatever registers it keeps. -/
theorem header_deviceReset (pg : PageId) : ∃ regs, page (deviceReset s c) pg = { pageInit pg with regs := regs } := by
  by_cases hp : pg = .pwr
  · exact ⟨_, hp ▸ page_deviceReset_pwr s c⟩
  · by_cases hk : pg = .key
    · exact ⟨_, hk ▸ page_deviceReset_key s c⟩
    · exact ⟨_, page_deviceReset s c hp hk⟩

theorem deviceReset_code : (deviceReset s c).code = s.code := (settleArray_keeps s).1

/-- A page that keeps a register reads its reset value elsewhere. -/
theorem reg_of_keeping {t : State} {pg : PageId} {off : Nat} {v : Word} (h : page t pg = keeping pg off v) (o : Nat) :
    reg t pg o = if off = o then v else regReset t.code pg o := by
  rw [reg, h]; rfl

theorem reg_deviceReset (pg : PageId) (off : Nat) (hp : (pg, off) ≠ (.pwr, 0x054)) (hk : (pg, off) ≠ (.key, 0x054)) :
    reg (deviceReset s c) pg off = regReset s.code pg off := by
  by_cases ep : pg = .pwr
  · subst ep
    rw [reg_of_keeping (page_deviceReset_pwr s c), if_neg fun e => hp (by rw [e]), deviceReset_code]
  · by_cases ek : pg = .key
    · subst ek
      rw [reg_of_keeping (page_deviceReset_key s c), if_neg fun e => hk (by rw [e]), deviceReset_code]
    · rw [reg_of_pageInit _ off (page_deviceReset s c ep ek), deviceReset_code]

theorem reg_deviceReset_pwr : reg (deviceReset s c) .pwr 0x054 = reg s .pwr 0x054 :=
  reg_of_keeping (page_deviceReset_pwr s c) 0x054

theorem reg_deviceReset_key : reg (deviceReset s c) .key 0x054 = reg s .key 0x054 :=
  reg_of_keeping (page_deviceReset_key s c) 0x054

/-! ### The parts that are kept in part -/

theorem deviceReset_pool : (deviceReset s c).pool = { copyLost := s.pool.copyLost } := by
  obtain ⟨_, _, hpool, _⟩ := settleArray_keeps s
  rw [← hpool]
  rfl

theorem deviceReset_mem : (deviceReset s c).mem =
    { remaps := s.mem.remaps, retireList := s.mem.retireList, sramRemaps := s.mem.sramRemaps, frameRetired := s.mem.frameRetired,
      ingestRetired := s.mem.ingestRetired } := by
  obtain ⟨_, _, _, hmem, _⟩ := settleArray_keeps s
  rw [← hmem]
  rfl

theorem deviceReset_pwr : (deviceReset s c).pwr =
    { phase := s.pwr.phase, cause := c, pgOut := s.pwr.pgOut, pgPending := s.pwr.pgPending, pwrEnHigh := s.pwr.pwrEnHigh,
      dipped := s.pwr.dipped, tcxo := s.pwr.tcxo, charge := s.pwr.charge, degraded := s.pwr.degraded, wakeN := s.pwr.wakeN,
      watchdogs := s.pwr.watchdogs, pairedFallback := s.pwr.pairedFallback, supplied := s.pwr.supplied } := by
  obtain ⟨_, _, _, _, _, _, hpwr, _⟩ := settleArray_keeps s
  rw [← hpwr]
  rfl

theorem deviceReset_tim : (deviceReset s c).tim =
    { count := s.tim.count, taiValid := s.tim.taiValid, freqAdj := s.tim.freqAdj, lastEdge := s.tim.lastEdge } := by
  obtain ⟨_, _, _, _, _, _, _, htim, _⟩ := settleArray_keeps s
  rw [← htim]
  rfl

/-! ### Keys and ports -/

theorem keySlot_deviceReset (k : Nat) : keySlot (deviceReset s c) k = { keySlot s k with reserved := 0 } := by
  obtain ⟨_, _, _, _, hkeys, _⟩ := settleArray_keeps s
  rw [keySlot, keySlot, ← hkeys]
  exact tget_map _ (fun x : KeySlot => { x with reserved := 0 }) k {} rfl

/-- A port keeps its pin and its reference. -/
theorem port_deviceReset (p : Port) :
    port (deviceReset s c) p = { perstHigh := (port s p).perstHigh, refclk := (port s p).refclk } := by
  obtain ⟨_, hports, _⟩ := settleArray_keeps s
  rw [port, port, ← hports]
  exact tget_map _ (fun x : PortSt => { perstHigh := x.perstHigh, refclk := x.refclk }) (pIdx p) {} rfl

end DeviceReset

/-- Settles O44: what is at reset is so by the definition of the reset state; the rest is what the end of the array's unit operations
leaves as it was. That held entries are lost and that a unit operation in progress ends first is the model's reading. (`deviceReset` names the
operation.) -/
theorem deviceResetKeepsAndClears : Obligations.DeviceReset := by
  unfold Obligations.DeviceReset
  intro s c r z a
  obtain ⟨hcode, _, _, _, _, halarms, _, _, hout, hpending⟩ := settleArray_keeps s
  have hmem : r.mem = _ := deviceReset_mem s c
  have hpwr : r.pwr = _ := deviceReset_pwr s c
  have htim : r.tim = _ := deviceReset_tim s c
  refine ⟨rfl, fun m => rfl, fun k => rfl, fun n => rfl, rfl, rfl, fun v => rfl, fun n => rfl, fun n => rfl, fun n => rfl, fun i => rfl, rfl,
    rfl, deviceReset_pool s c, fun k => rfl, reg_deviceReset s c, reg_deviceReset_pwr s c, reg_deviceReset_key s c, fun pg => ?header,
    keySlot_deviceReset s c, fun p => ?port, halarms, by rw [htim], by rw [htim], by rw [hmem], by rw [hmem], by rw [hmem], by rw [hmem],
    by rw [hmem], rfl, rfl, rfl, rfl, rfl, by rw [hpwr], by rw [hpwr], rfl, rfl, rfl, rfl, by rw [hpwr], by rw [hpwr], by rw [hpwr], rfl, rfl,
    rfl, rfl, hout, hpending, hcode⟩
  case header =>
    obtain ⟨regs, h⟩ := header_deviceReset s c pg
    rw [h]
    exact ⟨rfl, rfl, rfl, rfl, rfl, rfl⟩
  case port =>
    rw [port_deviceReset s c p]
    exact ⟨rfl, rfl, rfl, rfl, rfl⟩

end Sys2Proof.Machine
end

section
/-! PROOF. Sensor samples (R410, R418 to R420, R499, R500): the reading by class of sensor, the crossing of a threshold, the alarms that are
latched, and the charge of the hold-up store. -/

namespace Sys2Proof.Machine

section Samples

variable (s : State) (k : Nat) (v : BitVec 16)

/-! ### A valid reading (R418, R419) -/

/-- What every valid reading sets. -/
def readAs (x : Sensor) (v : BitVec 16) : Sensor := { x with value := v, valid := true, failed := false, missing := 0 }

/-- A temperature threshold of `MGT.TEMP_WARN`, in sixteenths of a degree. -/
def tempWarn (s : State) (lo : Nat) : Int := (BitVec.ofNat 16 (field s .mgt 0x040 lo 16)).toInt

theorem sensed_die (h : k < 24) : sensed s k v = { readAs (sensor s k) v with
    warn := hyst (sensor s k).warn v.toInt (tempWarn s 0) 16, crit := hyst (sensor s k).crit v.toInt 880 40, run := 0 } := if_pos h

theorem sensed_module (h : 24 ≤ k) (h' : k < 30) : sensed s k v = { readAs (sensor s k) v with
    warn := hyst (sensor s k).warn v.toInt (tempWarn s 16) 16, crit := hyst (sensor s k).crit v.toInt 680 40, run := 0 } :=
  (if_neg (by omega)).trans (if_pos h')

/-- A rail's reading is looked at against its window (R499). -/
theorem sensed_rail (h : 30 ≤ k) (h' : k < 48) : sensed s k v =
    if v.toNat < (railWindow k).1 || (railWindow k).2 < v.toNat then { readAs (sensor s k) v with crit := true, run := 0 }
    else { readAs (sensor s k) v with crit := (sensor s k).crit && (sensor s k).run + 1 < 10, run := (sensor s k).run + 1 } :=
  (if_neg (by omega)).trans ((if_neg (by omega)).trans (if_pos h'))

theorem sensed_outside (h : 30 ≤ k) (h' : k < 48) (hw : v.toNat < (railWindow k).1 ∨ (railWindow k).2 < v.toNat) :
    sensed s k v = { readAs (sensor s k) v with crit := true, run := 0 } := by
  rw [sensed_rail s k v h h', if_pos (by simpa using hw)]

theorem sensed_inside (h : 30 ≤ k) (h' : k < 48) (hl : (railWindow k).1 ≤ v.toNat) (hu : v.toNat ≤ (railWindow k).2) :
    sensed s k v = { readAs (sensor s k) v with
      crit := (sensor s k).crit && (sensor s k).run + 1 < 10, run := (sensor s k).run + 1 } := by
  rw [sensed_rail s k v h h', if_neg (by simp [hl, hu])]

theorem sensed_current (h : k = 48) : sensed s k v = { readAs (sensor s k) v with
    warn := hyst (sensor s k).warn v.toNat (field s .mgt 0x044 0 16) 500, crit := hyst (sensor s k).crit v.toNat 25000 1000, run := 0 } := by
  subst h
  rfl

theorem sensed_store (h : 49 ≤ k) : sensed s k v = { readAs (sensor s k) v with run := 0 } :=
  (if_neg (by omega)).trans ((if_neg (by omega)).trans ((if_neg (by omega)).trans (if_neg (by omega))))

/-- Whatever its class, a sensor that is read holds its value and is valid. -/
theorem sensed_reads : (sensed s k v).value = v ∧ (sensed s k v).valid = true ∧ (sensed s k v).failed = false
    ∧ (sensed s k v).missing = 0 := by
  unfold sensed
  dsimp only
  repeat' split
  all_goals exact ⟨rfl, rfl, rfl, rfl⟩

/-- A condition that holds at `hi` and stays down to `low`. -/
theorem hyst_eq (was : Bool) (x hi back : Int) {low : Int} (h : hi - back = low) :
    hyst was x hi back = if was then decide (low < x) else decide (hi ≤ x) := by
  subst h
  cases was <;> rfl

/-- The same of a reading that is a number: a limit it may fall below may be negative. -/
theorem hyst_nat (was : Bool) (x hi back : Nat) :
    hyst was x hi back = if was then decide ((hi : Int) - back < x) else decide (hi ≤ x) := by
  rw [hyst_eq was x hi back rfl]
  simp only [Nat.cast_le]

theorem hyst_nat_low (was : Bool) (x hi back low : Nat) (h : back + low = hi) :
    hyst was x hi back = if was then decide (low < x) else decide (hi ≤ x) := by
  rw [hyst_eq was x hi back (low := low) (by omega)]
  simp only [Nat.cast_lt, Nat.cast_le]

/-! ### No reading (R419, R499) -/

theorem unsensed_railOff (h : railOff s k = true) :
    unsensed s k = { sensor s k with valid := false, failed := false, missing := (sensor s k).missing + 1 } := if_pos h

theorem unsensed_late (h : railOff s k = false) (hl : samples100 k ≤ (sensor s k).missing + 1) :
    unsensed s k = { sensor s k with valid := false, failed := true, missing := (sensor s k).missing + 1 } :=
  (if_neg (Bool.eq_false_iff.mp h)).trans (if_pos hl)

theorem unsensed_early (h : railOff s k = false) (hl : ¬ samples100 k ≤ (sensor s k).missing + 1) :
    unsensed s k = { sensor s k with missing := (sensor s k).missing + 1 } :=
  (if_neg (Bool.eq_false_iff.mp h)).trans (if_neg hl)

theorem unsensed_keeps : (unsensed s k).missing = (sensor s k).missing + 1 ∧ (unsensed s k).value = (sensor s k).value
    ∧ (unsensed s k).warn = (sensor s k).warn ∧ (unsensed s k).crit = (sensor s k).crit := by
  unfold unsensed
  dsimp only
  repeat' split
  all_goals exact ⟨rfl, rfl, rfl, rfl⟩

/-! ### The row -/

theorem sensor_of_logFrame {s t : State} (h : LogFrame s t) (k : Nat) : sensor t k = sensor s k := by rw [h]; rfl

/-- A threshold is crossed: counted, raised and logged with the reading (R419, R421). -/
def crossed (s : State) (k value crit : Nat) : State :=
  logMgmt (raise (count s .mgt 1) .mgt (10 + crit) k) 0x0587 (1 + crit) 2 k value crit

theorem crossed_logFrame (value crit : Nat) : LogFrame s (crossed s k value crit) :=
  ((count_logFrame ..).trans (raise_logFrame ..)).trans (logMgmt_logFrame ..)

theorem threshold_eq (crit : Nat) : threshold s k crit = crossed s k (sensor s k).value.toNat crit := by
  rw [threshold, sensor_of_logFrame ((count_logFrame s .mgt 1 1).trans (raise_logFrame ..)) k]
  rfl

/-- A sensor takes a reading `y`, and WARN becomes 1 where it was not (R419). -/
def warnTaken (s : State) (k : Nat) (y : Sensor) : State :=
  let t := setSensor s k y
  if y.warn && !(sensor s k).warn then crossed t k y.value.toNat 0 else t

theorem sensor_warnTaken (y : Sensor) : sensor (warnTaken s k y) k = y := by
  unfold warnTaken
  dsimp only
  split
  · rw [sensor_of_logFrame (crossed_logFrame ..), sensor_setSensor]
  · rw [sensor_setSensor]

/-- Then CRIT, and the alarms that become present are latched (R419, R420). -/
def readingTaken (s : State) (k : Nat) (y : Sensor) : State :=
  let t := warnTaken s k y
  latchAlarms (if y.crit && !(sensor s k).crit then crossed t k y.value.toNat 1 else t) (alarmLive s)

/-- The reading of a sample, valid or not. -/
def sampled (s : State) (k : Nat) (v : BitVec 16) (valid : Bool) : Sensor := if valid then sensed s k v else unsensed s k

/-- What a voltage of the store sets: its charge, and from 90 % on the held entries are written (R410, R500). -/
def storeRead (t : State) (q : Nat) : State :=
  if 90 ≤ q && t.pwr.charge < 90 then chargedOp t q else modPwr t fun p => { p with charge := q }

/-- A sample is a reading taken; one of the store's voltage sets its charge. -/
theorem sensorOp_eq (valid : Bool) : sensorOp s k v valid =
    if k = 49 && valid then storeRead (readingTaken s k (sampled s k v valid)) (chargeOfMv v.toNat)
    else readingTaken s k (sampled s k v valid) := by
  simp only [sensorOp, threshold_eq, sensor_setSensor]
  rw [← sampled, ← warnTaken, sensor_warnTaken]
  rfl

theorem sensorOp_other (valid : Bool) (h : k ≠ 49 ∨ valid = false) :
    sensorOp s k v valid = readingTaken s k (sampled s k v valid) := by
  rw [sensorOp_eq, if_neg (by rcases h with h | h <;> simp [h])]

theorem sensorOp_store (valid : Bool) (h : k = 49) (hv : valid = true) :
    sensorOp s k v valid = storeRead (readingTaken s k (sampled s k v valid)) (chargeOfMv v.toNat) := by
  rw [sensorOp_eq, if_pos (by simp [h, hv])]

theorem storeRead_charged {t : State} {q : Nat} (hq : 90 ≤ q) (hc : t.pwr.charge < 90) : storeRead t q = chargedOp t q :=
  if_pos (by simp [hq, hc])

theorem storeRead_uncharged {t : State} {q : Nat} (h : q < 90 ∨ 90 ≤ t.pwr.charge) :
    storeRead t q = modPwr t fun p => { p with charge := q } :=
  if_neg (by rcases h with h | h <;> simp [h])

theorem sensorSample_answers (k : Fin 64) (valid : Bool) (h : k.val < 50) :
    Safety.answers (exec (.sensorSample k v valid) s) s (sensorRow s k.val v valid) := finishIf_answers s _ _ (decide_eq_true h)

theorem sensorRow_served (valid : Bool) (h : coreServes s = true) : sensorRow s k v valid = sensorOp s k v valid := if_pos h

theorem sensorRow_unserved (valid : Bool) (h : coreServes s = false) : sensorRow s k v valid = s := if_neg (Bool.eq_false_iff.mp h)

end Samples

/-- Settles O48: the row by the reading that a sample gives; a valid reading by the class of its sensor, and one that failed by how long
none has come. That 100 ms are 100 or 10 samples is the model's reading of R418. -/
theorem sensorSampleRow : Obligations.SensorSampleRow := by
  unfold Obligations.SensorSampleRow
  refine ⟨fun k v valid s hk => ?row, fun k v valid s hk => ?malformed, fun k v s hk => ?valid, fun k s => ?invalid⟩
  case row =>
    have row := sensorSample_answers s v k valid hk
    refine ⟨fun h => ?unserved, fun h hn => ?other, fun h hn hv hq hc => ?charged, fun h hn hv hq => ?uncharged⟩
    case unserved => exact answers_of_eq row (sensorRow_unserved s k v valid h)
    case other => exact answers_of_eq row ((sensorRow_served s k v valid h).trans (sensorOp_other s k v valid hn))
    case charged =>
      have store := (sensorRow_served s k v valid h).trans (sensorOp_store s k v valid hn hv)
      exact answers_of_eq row (store.trans (storeRead_charged hq hc))
    case uncharged =>
      have store := (sensorRow_served s k v valid h).trans (sensorOp_store s k v valid hn hv)
      exact answers_of_eq row (store.trans (storeRead_uncharged hq))
  case malformed => exact finishIf_fault s _ _ (decide_eq_false (by omega))
  case valid =>
    intro x y w win
    obtain ⟨hvalue, hvalid, hfailed, hmissing⟩ := sensed_reads s k v
    refine ⟨hvalue, hvalid, hfailed, hmissing, fun h => ?die, fun h h' => ?module, fun h h' hw => ?outside, fun h h' hl hu => ?inside,
      fun h => ?current, fun h => ?store⟩
    case die =>
      have hy : y = _ := sensed_die s k v h
      rw [hy]
      exact ⟨hyst_eq _ _ _ _ rfl, hyst_eq _ _ _ _ (by decide)⟩
    case module =>
      have hy : y = _ := sensed_module s k v h h'
      rw [hy]
      exact ⟨hyst_eq _ _ _ _ rfl, hyst_eq _ _ _ _ (by decide)⟩
    case outside =>
      have hy : y = _ := sensed_outside s k v h h' hw
      rw [hy]
      exact ⟨rfl, rfl, rfl⟩
    case inside =>
      have hy : y = _ := sensed_inside s k v h h' hl hu
      rw [hy]
      exact ⟨rfl, rfl, rfl⟩
    case current =>
      have hy : y = _ := sensed_current s k v h
      rw [hy]
      exact ⟨hyst_nat _ _ _ 500, hyst_nat_low _ _ 25000 1000 24000 rfl⟩
    case store =>
      have hy : y = _ := sensed_store s k v (by omega)
      rw [hy]
      exact ⟨rfl, rfl⟩
  case invalid =>
    intro x y late
    obtain ⟨hmissing, hvalue, hwarn, hcrit⟩ := unsensed_keeps s k
    refine ⟨hmissing, hvalue, hwarn, hcrit, fun h => ?off, fun h hl => ?late, fun h hl => ?early⟩
    case off =>
      have hy : y = _ := unsensed_railOff s k h
      rw [hy]
      exact ⟨rfl, rfl⟩
    case late =>
      have hy : y = _ := unsensed_late s k h hl
      rw [hy]
      exact ⟨rfl, rfl⟩
    case early =>
      have hy : y = _ := unsensed_early s k h hl
      rw [hy]
      exact ⟨rfl, rfl⟩

end Sys2Proof.Machine
end

section
/-! PROOF. Sessions of the service port (R421, R431 to R433): which datagrams are valid requests, and SESSION_OPEN, AUTH and SESSION_CLOSE. -/

namespace Sys2Proof.Machine

section Datagrams

variable (s : State) (dg : List Byte)

/-- The header of a datagram that has `tag` bytes after its payload (R431). -/
def Formed (dg : List Byte) (tag : Nat) : Prop :=
  24 ≤ dg.length ∧ leAt dg 0 2 = 0x5346 ∧ leAt dg 2 1 = 1 ∧ leAt dg 3 1 = 0 ∧ sub dg 18 6 = zeros 6 ∧ leAt dg 16 2 ≤ 1400
    ∧ dg.length = 24 + leAt dg 16 2 + tag

theorem headerOk_iff (tag : Nat) : headerOk dg tag = true ↔ Formed dg tag := by
  simp only [headerOk, Formed, Bool.and_eq_true, decide_eq_true_eq, beq_iff_eq, and_assoc]

/-- The authenticated session that a datagram names. -/
def namedSession (s : State) (dg : List Byte) : Option Session := (sessionOf s (leAt dg 4 4)).filter (·.authed)

theorem readDg_unsigned (hs : namedSession s dg = none) (hf : Formed dg 0) : readDg s dg =
    some { id := leAt dg 4 4, seq := leAt dg 8 4, op := leAt dg 12 2, authed := false, body := dg.drop 24 } := by
  rw [namedSession] at hs
  rw [readDg, hs]
  exact if_pos ((headerOk_iff dg 0).mpr hf)

theorem readDg_malformed (hs : namedSession s dg = none) (hf : ¬ Formed dg 0) : readDg s dg = none := by
  rw [namedSession] at hs
  rw [readDg, hs]
  exact if_neg (mt (headerOk_iff dg 0).mp hf)

/-- A datagram is signed as its session asks: its SEQ rises and its TAG is right (R431). -/
def Signed (x : Session) (dg : List Byte) : Prop :=
  Formed dg 48 ∧ (∀ l, x.lastSeq = some l → l < leAt dg 8 4)
    ∧ dg.drop (dg.length - 48) = padTo (Config.hmacSha384 x.key (dg.take (dg.length - 48))) 48

/-- The SEQ of a datagram does not rise. -/
def notLater (x : Session) (dg : List Byte) : Bool :=
  match x.lastSeq with
  | some l => leAt dg 8 4 ≤ l
  | none => false

theorem notLater_iff (x : Session) : notLater x dg = false ↔ ∀ l, x.lastSeq = some l → l < leAt dg 8 4 := by
  unfold notLater
  cases x.lastSeq with
  | none => simp
  | some l => simp

/-- The three tests of a signed datagram. -/
theorem readDg_session {x : Session} (hs : namedSession s dg = some x) : readDg s dg =
    if !headerOk dg 48 || notLater x dg
        || dg.drop (dg.length - 48) != padTo (Config.hmacSha384 x.key (dg.take (dg.length - 48))) 48 then none
    else some { id := leAt dg 4 4, seq := leAt dg 8 4, op := leAt dg 12 2, authed := true, body := (dg.take (dg.length - 48)).drop 24 } := by
  rw [namedSession] at hs
  rw [readDg, hs]
  rfl

theorem signed_iff (x : Session) : Signed x dg ↔ (!headerOk dg 48 || notLater x dg
    || dg.drop (dg.length - 48) != padTo (Config.hmacSha384 x.key (dg.take (dg.length - 48))) 48) = false := by
  rw [Bool.or_eq_false_iff, Bool.or_eq_false_iff, Bool.not_eq_false', bne_eq_false_iff_eq, headerOk_iff, notLater_iff, and_assoc]
  rfl

theorem readDg_signed {x : Session} (hs : namedSession s dg = some x) (hg : Signed x dg) : readDg s dg =
    some { id := leAt dg 4 4, seq := leAt dg 8 4, op := leAt dg 12 2, authed := true, body := (dg.take (dg.length - 48)).drop 24 } :=
  (readDg_session s dg hs).trans (if_neg (Bool.eq_false_iff.mp ((signed_iff dg x).mp hg)))

theorem readDg_unproved {x : Session} (hs : namedSession s dg = some x) (hg : ¬ Signed x dg) : readDg s dg = none :=
  (readDg_session s dg hs).trans (if_pos (Bool.eq_true_of_not_eq_false (mt (signed_iff dg x).mpr hg)))

end Datagrams

section Sessions

variable (s : State) (r : FspReq)

/-! ### SESSION_OPEN and SESSION_CLOSE -/

theorem openOp_busy (h : 4 ≤ s.fsp.sessions.length) : openOp s r = reply s r 7 [] := if_pos h

theorem openOp_opens (h : s.fsp.sessions.length < 4) :
    let nonce := leBytes 32 (Config.randomBits s.free 256)
    let u := nextFree s
    let opened := u.fsp.sessions ++ [{ id := s.fsp.nextId, nonce := nonce }]
    openOp s r = reply { u with fsp := { u.fsp with nextId := s.fsp.nextId % 0xFFFFFFFF + 1, sessions := opened } } r 0
      (leBytes 4 s.fsp.nextId ++ nonce) :=
  if_neg (by omega)

theorem closeOp_closes (h : (sessionOf s r.id).isSome = true) : closeOp s r = closeSession (reply s r 0 []) r.id := if_pos h

theorem closeOp_unknown (h : sessionOf s r.id = none) : closeOp s r = reply s r 3 [] := if_neg (by simp [h])

/-! ### AUTH (R432) -/

theorem authOp_locked (h : s.fsp.lockedUntil ≠ none) : authOp s r = reply s r 5 [] :=
  if_pos (Option.isSome_iff_ne_none.mpr h)

theorem authOp_unknown (h : s.fsp.lockedUntil = none) (hn : sessionOf s r.id = none ∨ s.fsp.ownerKey = none) :
    authOp s r = authFailed s r := by
  unfold authOp
  rw [if_neg (by simp [h])]
  cases hx : sessionOf s r.id with
  | none => rfl
  | some x =>
    cases hk : s.fsp.ownerKey with
    | none => rfl
    | some key => simp [hx, hk] at hn

theorem authOp_refused {x : Session} {key : List Byte} (h : s.fsp.lockedUntil = none) (hx : sessionOf s r.id = some x)
    (hk : s.fsp.ownerKey = some key) (hp : r.body.drop 32 ≠ proofOf key x.nonce (r.body.take 32) r.id) : authOp s r = authFailed s r := by
  unfold authOp
  rw [if_neg (by simp [h]), hx, hk]
  exact if_pos (bne_iff_ne.mpr hp)

theorem authOp_proved {x : Session} {key : List Byte} (h : s.fsp.lockedUntil = none) (hx : sessionOf s r.id = some x)
    (hk : s.fsp.ownerKey = some key) (hp : r.body.drop 32 = proofOf key x.nonce (r.body.take 32) r.id) :
    authOp s r = reply (modFsp s fun f => { f with sessions := f.sessions.map fun y =>
      if y.id == r.id then { y with authed := true, key := padTo (Config.hmacSha384 key (x.nonce ++ r.body.take 32)) 48 } else y }) r 0 [] := by
  unfold authOp
  rw [if_neg (by simp [h]), hx, hk]
  exact if_neg (by simp [hp])

/-! ### The rows of the timers -/

theorem fspSessionTimeout_answers (id : Nat) : Safety.answers (exec (.fspSessionTimeout id) s) s (sessionEnd s id) := finish_answers s _

theorem sessionEnd_served (id : Nat) (h : coreServes s = true) : sessionEnd s id = closeSession s id := if_pos h

theorem sessionEnd_unserved (id : Nat) (h : coreServes s = false) : sessionEnd s id = s := if_neg (Bool.eq_false_iff.mp h)

theorem lockoutExpiry_answers : Safety.answers (exec .lockoutExpiry s) s (lockoutEnd s) := finish_answers s _

end Sessions

/-- Settles O50: each row is an FSP request (`fixedLength_requests`), a datagram is read by its header and, in an authenticated session,
by its signature, and each clause is the case of its operation. That an AUTH without a session or an owner key fails as one with a wrong
proof does is presumed (log entry 44). -/
theorem sessionRows : Obligations.SessionRows := by
  unfold Obligations.SessionRows
  refine ⟨fun s dg => ?requests, fun s dg => ?datagram, fun s r => rfl, fun h r => ?operations, fun s id => ?timeout, lockoutExpiry_answers⟩
  case requests => exact ⟨fixedLength_requests s dg rfl, fixedLength_requests s dg rfl, fixedLength_requests s dg rfl⟩
  case datagram =>
    exact ⟨readDg_unsigned s dg, readDg_malformed s dg, fun x hx => ⟨readDg_signed s dg hx, readDg_unproved s dg hx⟩⟩
  case operations =>
    exact ⟨openOp_busy h r, openOp_opens h r, authOp_locked h r, authOp_unknown h r,
      fun x key hl hx hk => ⟨authOp_refused h r hl hx hk, authOp_proved h r hl hx hk⟩, closeOp_closes h r, closeOp_unknown h r⟩
  case timeout =>
    exact ⟨fun h => answers_of_eq (fspSessionTimeout_answers s id) (sessionEnd_served s id h),
      fun h => answers_of_eq (fspSessionTimeout_answers s id) (sessionEnd_unserved s id h)⟩

end Sys2Proof.Machine
end

section
/-! PROOF. Reports and buses (R420, R423, R429, R430, R433, R493, R494): FSP IDENTIFY, SENSORS, LOG_READ and TIME_STATUS, the SMBus reads and
the alert response, and the neighbors of the service port. -/

namespace Sys2Proof.Machine

/-- Settles O51: each row is an FSP request (`fixedLength_requests`) whose operation is a reply with the report that the definition spells.
The layout of the payloads is presumed. -/
theorem reportRows : Obligations.ReportRows := by
  unfold Obligations.ReportRows
  refine ⟨fun s dg => ⟨?identify, ?sensors, ?log, ?time⟩, fun s => rfl, fun s r status payload => rfl⟩
  case identify => exact fixedLength_requests s dg rfl
  case sensors => exact fixedLength_requests s dg rfl
  case log => exact fixedLength_requests s dg rfl
  case time => exact fixedLength_requests s dg rfl

section Buses

variable (s : State)

/-! ### SMBus (R494) -/

theorem smbIdentify_answers : Safety.answers (exec .smbIdentify s) s (smbRead s (identifyBytes s)) := finish_answers s _
theorem smbSensors_answers : Safety.answers (exec .smbSensors s) s (smbRead s (sensorBytes s)) := finish_answers s _
theorem smbAlarms_answers : Safety.answers (exec .smbAlarms s) s (smbRead s (alarmPair s)) := finish_answers s _
theorem smbState_answers : Safety.answers (exec .smbState s) s (smbRead s (leBytes 1 (smbStateByte s))) := finish_answers s _

/-- A read answers its bytes while the core serves, and is not acknowledged otherwise. -/
theorem smbRead_answers {c : Instr} {bs : List Byte} (h : Safety.answers (exec c s) s (smbRead s bs)) :
    (coreServes s = true → Safety.answers (exec c s) s (emit s (.smbus bs)))
      ∧ (coreServes s = false → Safety.answers (exec c s) s s) :=
  ⟨fun hs => answers_of_eq h (if_pos hs), fun hs => answers_of_eq h (if_neg (Bool.eq_false_iff.mp hs))⟩

theorem alertResponse_answers :
    Safety.answers (exec .alertResponse s) s (if smbAlert s then emit s (.smbus [0x5C]) else s) := finish_answers s _

/-- SMB_ALERT_N is low: the core serves, and an unmasked alarm is latched (R420). -/
theorem smbAlert_iff : smbAlert s = true ↔ coreServes s = true ∧ reg s .mgt 0x04C &&& reg s .mgt 0x048 ≠ 0 := by
  rw [smbAlert, Bool.and_eq_true, bne_iff_ne]

theorem smbAlert_none (h : coreServes s = false ∨ reg s .mgt 0x04C &&& reg s .mgt 0x048 = 0) : ¬ smbAlert s = true := by
  rw [smbAlert_iff, not_and_or, Bool.not_eq_true, ne_eq, Decidable.not_not]
  exact h

theorem phyLinkChange_answers (up : Bool) :
    Safety.answers (exec (.phyLinkChange up) s) s { s with fsp := { s.fsp with phyUp := up } } := finish_answers s _

/-! ### Neighbors (R430) -/

theorem icmpv6Echo_answers (msg : List Byte) : Safety.answers (exec (.icmpv6Echo msg) s) s (icmpOp s msg) := finish_answers s _

/-- The service port works: the core serves outside an activation pause, and the PHY is up. -/
theorem servicePort_iff :
    (!coreServes s || s.fwu.paused || !s.fsp.phyUp) = false ↔ coreServes s = true ∧ s.fwu.paused = false ∧ s.fsp.phyUp = true := by
  rw [Bool.or_eq_false_iff, Bool.or_eq_false_iff, Bool.not_eq_false', Bool.not_eq_false', and_assoc]

/-- An Echo Request. -/
def EchoRequest (msg : List Byte) : Prop := leAt msg 0 1 = 128 ∧ 8 ≤ msg.length

/-- A Neighbor Solicitation for an address of the service port. -/
def Solicitation (s : State) (msg : List Byte) : Prop :=
  leAt msg 0 1 = 135 ∧ 24 ≤ msg.length ∧ (sub msg 8 16 = linkLocal ∨ sub msg 8 16 = s.fsp.staticAddr)

/-- An Echo Request as a reply, its checksum carried on from the old one. -/
def echoReply (msg : List Byte) : List Byte :=
  let old := leNat (sub msg 2 2).reverse
  let sum := ocAdd (ocAdd (65535 - old) (65535 - (0x8000 + leAt msg 1 1))) (0x8100 + leAt msg 1 1)
  [0x81] ++ sub msg 1 1 ++ beBytes 2 (65535 - sum) ++ msg.drop 4

/-- An Advertisement with the MAC address; its checksum is free. -/
def advertisement (s : State) (msg : List Byte) : List Byte :=
  [136, 0] ++ beBytes 2 (freeVal s % 65536) ++ [0x60, 0, 0, 0] ++ sub msg 8 16 ++ [2, 1] ++ macBytes

variable (msg : List Byte)

/-- A message that the service port hears. -/
theorem icmpOp_heard (h : coreServes s = true ∧ s.fwu.paused = false ∧ s.fsp.phyUp = true) : icmpOp s msg =
    if leAt msg 0 1 = 128 && 8 ≤ msg.length then emit s (.net (echoReply msg))
    else if leAt msg 0 1 = 135 && 24 ≤ msg.length && (sub msg 8 16 == linkLocal || sub msg 8 16 == s.fsp.staticAddr) then
      emit (nextFree s) (.net (advertisement s msg))
    else s := if_neg (Bool.eq_false_iff.mp ((servicePort_iff s).mpr h))

theorem echoRequest_iff : (leAt msg 0 1 = 128 && 8 ≤ msg.length) = true ↔ EchoRequest msg := by
  rw [Bool.and_eq_true, decide_eq_true_eq, decide_eq_true_eq]
  rfl

theorem solicitation_iff :
    (leAt msg 0 1 = 135 && 24 ≤ msg.length && (sub msg 8 16 == linkLocal || sub msg 8 16 == s.fsp.staticAddr)) = true
      ↔ Solicitation s msg := by
  simp only [Solicitation, Bool.and_eq_true, Bool.or_eq_true, decide_eq_true_eq, beq_iff_eq, and_assoc]

theorem icmpOp_echo (h : coreServes s = true ∧ s.fwu.paused = false ∧ s.fsp.phyUp = true) (he : EchoRequest msg) :
    icmpOp s msg = emit s (.net (echoReply msg)) := by
  rw [icmpOp_heard s msg h, if_pos ((echoRequest_iff msg).mpr he)]

theorem icmpOp_advertises (h : coreServes s = true ∧ s.fwu.paused = false ∧ s.fsp.phyUp = true) (ha : Solicitation s msg) :
    icmpOp s msg = emit (nextFree s) (.net (advertisement s msg)) := by
  have other : ¬ EchoRequest msg := fun he => absurd (he.1.symm.trans ha.1) (by decide)
  rw [icmpOp_heard s msg h, if_neg (mt (echoRequest_iff msg).mp other), if_pos ((solicitation_iff s msg).mpr ha)]

theorem icmpOp_drops (h : ¬ (coreServes s = true ∧ s.fwu.paused = false ∧ s.fsp.phyUp = true)
    ∨ (¬ EchoRequest msg ∧ ¬ Solicitation s msg)) : icmpOp s msg = s := by
  by_cases hs : coreServes s = true ∧ s.fwu.paused = false ∧ s.fsp.phyUp = true
  · obtain ⟨he, ha⟩ := h.resolve_left (not_not.mpr hs)
    rw [icmpOp_heard s msg hs, if_neg (mt (echoRequest_iff msg).mp he), if_neg (mt (solicitation_iff s msg).mp ha)]
  · exact if_pos (Bool.eq_true_of_not_eq_false (mt (servicePort_iff s).mp hs))

end Buses

/-- Settles O53: an SMBus read answers its bytes while the core serves, and a message to the service port is an Echo Request, a
Solicitation for its address, or dropped. That the checksum of an Advertisement is free and that an answer is its data bytes are the
model's. -/
theorem busRows : Obligations.BusRows := by
  unfold Obligations.BusRows
  refine ⟨fun s => ⟨smbRead_answers s (smbIdentify_answers s), smbRead_answers s (smbSensors_answers s),
    smbRead_answers s (smbAlarms_answers s), smbRead_answers s (smbState_answers s), ?alert, ?silent, phyLinkChange_answers s⟩,
    fun s msg => ⟨?echo, ?advertises, ?drops⟩⟩
  case alert => exact fun hs ha => answers_of_eq (alertResponse_answers s) (if_pos ((smbAlert_iff s).mpr ⟨hs, ha⟩))
  case silent => exact fun h => answers_of_eq (alertResponse_answers s) (if_neg (smbAlert_none s h))
  case echo => exact fun hs he => answers_of_eq (icmpv6Echo_answers s msg) (icmpOp_echo s msg hs he)
  case advertises => exact fun hs ha => answers_of_eq (icmpv6Echo_answers s msg) (icmpOp_advertises s msg hs ha)
  case drops => exact fun h => answers_of_eq (icmpv6Echo_answers s msg) (icmpOp_drops s msg h)

end Sys2Proof.Machine
end

section
/-! PROOF. The timebase (R435 to R438): TIM.CMD, a slew, the edges of PPS_IN and the discipline that they steer, and the outputs at a second. -/

namespace Sys2Proof.Machine

section TimeCommands

variable (s : State) (m : Master)

/-! ### TIM.CMD (R436) -/

/-- A master with the right writes `TIM.CMD`. -/
theorem regWrite_timCmd (v : Word) (h : Safety.canWrite s m (.page .tim 0x064) = true) : regWrite s m .tim 0x064 v = timCmd s m v :=
  regWrite_block s m .tim 0x064 v (roR 0x064) (by decide) (by decide) (by decide) rfl rfl h

theorem step_answers (h : Safety.canWrite s m (.page .tim 0x064) = true) :
    Safety.answers (exec (.step m) s) s (timeRuns s (timCmdStep s m)) :=
  answers_of_eq (finish_answers s _) (regWrite_timCmd s m 1 h)

theorem slew_answers (h : Safety.canWrite s m (.page .tim 0x064) = true) :
    Safety.answers (exec (.slew m) s) s (timeRuns s (timCmdSlew s)) :=
  answers_of_eq (finish_answers s _) (regWrite_timCmd s m 2 h)

theorem timeRuns_running (t : State) (h : s.pwr.tcxo = true) : timeRuns s t = t := if_pos h

theorem timeRuns_stopped (t : State) (h : ¬ s.pwr.tcxo = true) : timeRuns s t = s := if_neg h

theorem disciplined_iff : disciplined s = true ↔ s.tim.disc = .locking ∨ s.tim.disc = .locked := by
  rw [disciplined, Bool.or_eq_true, beq_iff_eq, beq_iff_eq]

/-- The count that STEP sets: a disciplined counter keeps its phase. -/
theorem timCmdStep_eq :
    let set := reg64 s .tim 0x058
    let c := if s.tim.disc = .locking ∨ s.tim.disc = .locked then set / 1000000000 * 1000000000 + now s % 1000000000 else set
    let u := timeStep s (c % 2 ^ 64 * 2 ^ 32) 0 (mIdx m)
    timCmdStep s m = { u with tim := { u.tim with taiValid := true, slewing := false, slewLeft := 0 } } := by
  simp only [timCmdStep, disciplined_iff]
  rfl

theorem timCmdSlew_refused
    (h : 1000000000 < (reg s .tim 0x060).toInt.natAbs ∨ s.tim.disc = .locking ∨ s.tim.disc = .locked) :
    timCmdSlew s = setEvt s .tim 13 :=
  if_pos (by rwa [Bool.or_eq_true, decide_eq_true_eq, disciplined_iff])

theorem timCmdSlew_starts (ha : (reg s .tim 0x060).toInt.natAbs ≤ 1000000000) (hd : ¬ (s.tim.disc = .locking ∨ s.tim.disc = .locked)) :
    timCmdSlew s = { s with tim := { s.tim with slewing := true, slewLeft := (reg s .tim 0x060).toInt * 2 ^ 32 } } :=
  if_neg (by
    rw [Bool.or_eq_true, decide_eq_true_eq, disciplined_iff, not_or]
    exact ⟨by omega, hd⟩)

end TimeCommands

section TimeEvents

variable (s : State)

theorem slewDone_answers : Safety.answers (exec .slewDone s) s (timeRuns s (slewEnd s)) := finish_answers s _
theorem ppsInEdge_answers : Safety.answers (exec .ppsInEdge s) s (timeRuns s (ppsEdge s)) := finish_answers s _
theorem ppsInLost_answers : Safety.answers (exec .ppsInLost s) s (timeRuns s (ppsLost s)) := finish_answers s _
theorem secondCrossing_answers : Safety.answers (exec .secondCrossing s) s (timeRuns s (secondMark s)) := finish_answers s _

theorem slewEnd_gains (h : s.tim.slewing = true) : slewEnd s = { s with tim := { s.tim with
    count := (((s.tim.count : Int) + s.tim.slewLeft) % 2 ^ 96).toNat, slewing := false, slewLeft := 0 } } := if_pos h

theorem slewEnd_unchanged (h : s.tim.slewing = false) : slewEnd s = s := if_neg (Bool.eq_false_iff.mp h)

/-! ### Edges of PPS_IN (R437) -/

/-- An edge is counted and its time noted. -/
def edgeNoted (s : State) : State :=
  let seen := count s .tim 0
  { seen with tim := { seen.tim with lastEdge := some (clock s) } }

/-- The edge is the first, or 0.999 to 1.001 s after the last valid one. -/
def ValidEdge (s : State) : Prop :=
  s.tim.validEdge = none ∨ ∃ v, s.tim.validEdge = some v ∧ v + 999000000 ≤ clock s ∧ clock s ≤ v + 1001000000

theorem edgeValid_iff : edgeValid s = true ↔ ValidEdge s := by
  unfold edgeValid ValidEdge
  cases s.tim.validEdge with
  | none => simp
  | some v => simp

theorem count_clocks (pg : PageId) (k n : Nat) : (count s pg k n).tim = s.tim ∧ (count s pg k n).tick = s.tick := by
  rw [count_logFrame s pg k n]
  exact ⟨rfl, rfl⟩

theorem edgeNoted_clocks : (edgeNoted s).tim = { s.tim with lastEdge := some (clock s) } ∧ clock (edgeNoted s) = clock s := by
  obtain ⟨htim, htick⟩ := count_clocks s .tim 0 1
  exact ⟨congrArg (fun t : TimSt => { t with lastEdge := some (clock s) }) htim, congrArg (40 * ·) htick⟩

/-- Noting an edge changes nothing by which it is judged. -/
theorem edgeNoted_judged : (edgeNoted s).tim.disc = s.tim.disc ∧ edgeValid (edgeNoted s) = edgeValid s := by
  obtain ⟨htim, hclock⟩ := edgeNoted_clocks s
  rw [edgeValid, edgeValid, htim, hclock]
  exact ⟨rfl, rfl⟩

theorem ppsEdge_eq : ppsEdge s = if s.tim.disc = .off || !edgeValid s then edgeNoted s else discEdge (edgeNoted s) := by
  obtain ⟨disc, valid⟩ := edgeNoted_judged s
  rw [← disc, ← valid]
  rfl

theorem ppsEdge_noted (h : s.tim.disc = .off ∨ ¬ ValidEdge s) : ppsEdge s = edgeNoted s := by
  rw [ppsEdge_eq, if_pos (by simpa [← edgeValid_iff] using h)]

theorem ppsEdge_steers (hd : s.tim.disc ≠ .off) (hv : ValidEdge s) : ppsEdge s = discEdge (edgeNoted s) := by
  rw [ppsEdge_eq, if_neg (by simp [hd, (edgeValid_iff s).mpr hv])]

theorem ppsLost_holds (h : s.tim.disc = .locking ∨ s.tim.disc = .locked) : ppsLost s =
    raise (raise (nextFree { s with tim := { s.tim with
      disc := .holdover, goodEdges := 0, validEdge := none, freqAdj := Config.holdoverMean s.free - Config.factoryTrim } }) .tim 10) .tim 11 :=
  if_pos ((disciplined_iff s).mpr h)

theorem ppsLost_unchanged (h : ¬ (s.tim.disc = .locking ∨ s.tim.disc = .locked)) : ppsLost s = s :=
  if_neg (mt (disciplined_iff s).mp h)

/-! ### The outputs at a second (R438) -/

/-- PPS_OUT at a second, where TIM is enabled and the output is on. -/
def ppsMark (s : State) : State :=
  if (page s .tim).enabled ∧ field s .tim 0x040 2 1 = 1 then emit s (.pin "PPS_OUT" true) else s

theorem secondMark_eq : secondMark s =
    if (page s .tim).enabled = true ∧ field s .tim 0x040 3 1 = 1 then emit (ppsMark s) (.pin "REF10M_OUT" true) else ppsMark s := by
  have mark : (if (page s .tim).enabled && field s .tim 0x040 2 1 = 1 then emit s (.pin "PPS_OUT" true) else s) = ppsMark s := by
    simp only [ppsMark, Bool.and_eq_true, decide_eq_true_eq]
  have same : field (ppsMark s) .tim 0x040 3 1 = field s .tim 0x040 3 1 := by
    unfold ppsMark
    split <;> rfl
  unfold secondMark
  dsimp only
  rw [mark, same]
  simp only [Bool.and_eq_true, decide_eq_true_eq]

/-! ### The discipline (R437) -/

/-- The timebase after a valid edge, before it is steered. -/
def edgeTaken (s : State) : TimSt := edgeSeen s.tim (ppsError s) (clock s)

/-- The first error above 1,000 ns in LOCKING steps the counter. -/
def Jumps (s : State) : Prop := (edgeTaken s).disc = .locking ∧ (edgeTaken s).stepped = false ∧ 1000 < (ppsError s).natAbs

/-- Edges in a row under 100 ns. -/
def goodRun (s : State) : Nat := if (ppsError s).natAbs < 100 then (edgeTaken s).goodEdges + 1 else 0

/-- The timebase that an edge has steered: FREQ_ADJ makes its step. -/
def steered (s : State) : TimSt :=
  let f := Config.disciplineStep (max 1 (field s .tim 0x048 0 8)) (ppsError s) (Config.factoryTrim + (edgeTaken s).freqAdj)
  { edgeTaken s with freqAdj := f - Config.factoryTrim, goodEdges := goodRun s }

theorem discEdge_eq : discEdge s =
    if (edgeTaken s).disc = .locking && !(edgeTaken s).stepped && 1000 < (ppsError s).natAbs then
      modTim (timeStep { s with tim := edgeTaken s } (((edgeTaken s).count - ppsError s * 2 ^ 32) % 2 ^ 96).toNat 1 0x3F) fun t =>
        { t with stepped := true }
    else if (edgeTaken s).disc = .locking && 8 ≤ goodRun s then raise { s with tim := { steered s with disc := .locked } } .tim 9
    else { s with tim := steered s } := rfl

theorem jumps_iff : ((edgeTaken s).disc = .locking && !(edgeTaken s).stepped && 1000 < (ppsError s).natAbs) = true ↔ Jumps s := by
  simp only [Jumps, Bool.and_eq_true, decide_eq_true_eq, Bool.not_eq_true', and_assoc]

theorem discEdge_jumps (h : Jumps s) : discEdge s =
    modTim (timeStep { s with tim := edgeTaken s } (((edgeTaken s).count - ppsError s * 2 ^ 32) % 2 ^ 96).toNat 1 0x3F) fun t =>
      { t with stepped := true } :=
  (discEdge_eq s).trans (if_pos ((jumps_iff s).mpr h))

theorem discEdge_locks (h : ¬ Jumps s) (hd : (edgeTaken s).disc = .locking) (hg : 8 ≤ goodRun s) :
    discEdge s = raise { s with tim := { steered s with disc := .locked } } .tim 9 :=
  (discEdge_eq s).trans ((if_neg (mt (jumps_iff s).mp h)).trans (if_pos (by simp [hd, hg])))

theorem discEdge_steers (h : ¬ Jumps s) (hn : (edgeTaken s).disc ≠ .locking ∨ goodRun s < 8) :
    discEdge s = { s with tim := steered s } :=
  (discEdge_eq s).trans ((if_neg (mt (jumps_iff s).mp h)).trans (if_neg (by rcases hn with hn | hn <;> simp [hn])))

end TimeEvents

/-- Settles O54: a row has its effect while the TCXO runs, and each clause is the case of its operation. The step of FREQ_ADJ and its mean
are free values of the model. -/
theorem timeRows : Obligations.TimeRows := by
  unfold Obligations.TimeRows
  refine ⟨fun m s h => ?commands, fun s n cause req => rfl, fun s => ?events, fun s => ?discipline⟩
  case commands =>
    have step := step_answers s m h
    have slew := slew_answers s m h
    refine ⟨fun ht => ?stopped, fun ht => ?steps, fun ht hr => ?refused, fun ht ha hd => ?slews⟩
    case stopped =>
      have still := timeRuns_stopped s (h := by simp [ht])
      exact ⟨answers_of_eq step (still _), answers_of_eq slew (still _)⟩
    case steps => exact answers_of_eq step ((timeRuns_running s _ ht).trans (timCmdStep_eq s m))
    case refused => exact answers_of_eq slew ((timeRuns_running s _ ht).trans (timCmdSlew_refused s hr))
    case slews => exact answers_of_eq slew ((timeRuns_running s _ ht).trans (timCmdSlew_starts s ha hd))
  case events =>
    refine ⟨fun ht => ?stopped, fun ht hs => ?gains, fun ht hs => ?steady, fun ht h => ?noted, fun ht hd hv => ?steers, fun ht h => ?holds,
      fun ht h => ?free, fun ht h => ?ref, fun ht h => ?pps⟩
    case stopped =>
      have still := timeRuns_stopped s (h := ht)
      exact ⟨answers_of_eq (slewDone_answers s) (still _), answers_of_eq (ppsInEdge_answers s) (still _),
        answers_of_eq (ppsInLost_answers s) (still _), answers_of_eq (secondCrossing_answers s) (still _)⟩
    case gains => exact answers_of_eq (slewDone_answers s) ((timeRuns_running s _ ht).trans (slewEnd_gains s hs))
    case steady => exact answers_of_eq (slewDone_answers s) ((timeRuns_running s _ ht).trans (slewEnd_unchanged s hs))
    case noted => exact answers_of_eq (ppsInEdge_answers s) ((timeRuns_running s _ ht).trans (ppsEdge_noted s h))
    case steers => exact answers_of_eq (ppsInEdge_answers s) ((timeRuns_running s _ ht).trans (ppsEdge_steers s hd hv))
    case holds => exact answers_of_eq (ppsInLost_answers s) ((timeRuns_running s _ ht).trans (ppsLost_holds s h))
    case free => exact answers_of_eq (ppsInLost_answers s) ((timeRuns_running s _ ht).trans (ppsLost_unchanged s h))
    case ref =>
      exact answers_of_eq (secondCrossing_answers s) ((timeRuns_running s _ ht).trans ((secondMark_eq s).trans (if_pos h)))
    case pps =>
      exact answers_of_eq (secondCrossing_answers s) ((timeRuns_running s _ ht).trans ((secondMark_eq s).trans (if_neg h)))
  case discipline => exact ⟨discEdge_jumps s, discEdge_locks s, discEdge_steers s⟩

end Sys2Proof.Machine
end

section
/-! PROOF. PTP (R439, R441): the device as a grandmaster, what it sends, and what it hears of other clocks. -/

namespace Sys2Proof.Machine

section Ptp

variable (s : State) (msg : List Byte)

/-! ### The rows -/

theorem ptpSync_answers : Safety.answers (exec .ptpSync s) s (ptpSyncOp s) := finish_answers s _
theorem ptpAnnounce_answers : Safety.answers (exec .ptpAnnounce s) s (ptpAnnounceOp s) := finish_answers s _
theorem ptpDelayReq_answers : Safety.answers (exec (.ptpDelayReq msg) s) s (ptpDelayOp s msg) := finish_answers s _
theorem foreignAnnounce_answers : Safety.answers (exec (.foreignAnnounce msg) s) s (foreignOp s msg) := finish_answers s _

/-! ### The grandmaster -/

/-- The device is a grandmaster. -/
def Grandmaster (s : State) : Prop :=
  coreServes s = true ∧ s.fwu.paused = false ∧ s.fsp.phyUp = true ∧ enabled s .tim = true ∧ field s .tim 0x040 1 1 = 1
    ∧ s.tim.taiValid = true

theorem ptpOn_iff : ptpOn s = true ↔ Grandmaster s := by
  simp only [ptpOn, Grandmaster, Bool.and_eq_true, Bool.not_eq_true', beq_iff_eq, and_assoc]

/-- A message of the profile's version and domain, of `ty` and at least `len` bytes. -/
def OwnMessage (s : State) (msg : List Byte) (ty len : Nat) : Prop :=
  len ≤ msg.length ∧ leAt msg 0 1 % 16 = ty ∧ leAt msg 1 1 % 16 = 2 ∧ leAt msg 4 1 = field s .tim 0x040 8 8

theorem ptpOurs_iff (ty len : Nat) : ptpOurs s msg ty len = true ↔ OwnMessage s msg ty len := by
  simp only [ptpOurs, OwnMessage, Bool.and_eq_true, decide_eq_true_eq, beq_iff_eq, and_assoc]

/-- An Announce of another clock. -/
def ForeignAnnounce (s : State) (msg : List Byte) : Prop := OwnMessage s msg 0xB 64 ∧ sub msg 20 8 ≠ eui64

theorem ptpOps_off (h : ¬ Grandmaster s) : ptpSyncOp s = s ∧ ptpAnnounceOp s = s ∧ ptpDelayOp s msg = s ∧ foreignOp s msg = s := by
  have off : ptpOn s = false := Bool.eq_false_iff.mpr (mt (ptpOn_iff s).mp h)
  exact ⟨if_pos (by simp [off]), if_pos (by simp [off]), if_pos (by simp [off]), if_pos (by simp [off])⟩

/-- Past the test of a grandmaster comes what one does. -/
theorem ptp_on {t u : State} (h : Grandmaster s) : (if !ptpOn s then t else u) = u :=
  if_neg (by simp [(ptpOn_iff s).mpr h])

theorem ptpDelayOp_answers (h : Grandmaster s) (ho : OwnMessage s msg 1 44) : ptpDelayOp s msg =
    emit s (.net (ptpMsg s 0x9 0x0000 (leNat (sub msg 30 2).reverse) 3 0x7F (ptpStamp (now s) ++ sub msg 20 10))) :=
  if_neg (by simp [(ptpOn_iff s).mpr h, (ptpOurs_iff s msg 1 44).mpr ho])

theorem ptpDelayOp_unchanged (ho : ¬ OwnMessage s msg 1 44) : ptpDelayOp s msg = s :=
  if_pos (by simp [Bool.eq_false_iff.mpr (mt (ptpOurs_iff s msg 1 44).mp ho)])

theorem foreignOp_raises (h : Grandmaster s) (hf : ForeignAnnounce s msg) : foreignOp s msg = raise (count s .tim 3) .tim 12 :=
  if_neg (by simp [(ptpOn_iff s).mpr h, (ptpOurs_iff s msg 0xB 64).mpr hf.1, hf.2])

theorem foreignOp_unchanged (hf : ¬ ForeignAnnounce s msg) : foreignOp s msg = s := by
  refine if_pos ?_
  rcases not_and_or.mp hf with ho | he
  · simp [Bool.eq_false_iff.mpr (mt (ptpOurs_iff s msg 0xB 64).mp ho)]
  · simp [not_not.mp he]

end Ptp

/-- Settles O55: nothing is done but by a grandmaster, and each clause is what its operation then does. The layout of the messages and the
free variance are the model's. -/
theorem ptpRows : Obligations.PtpRows := by
  unfold Obligations.PtpRows
  intro s msg
  refine ⟨fun h => ?sync, fun h => ?announce, fun h ho => ?delay, fun h ho => ?noDelay, fun h hf => ?foreign, fun h hf => ?noForeign,
    fun h => ?off, fun _ _ _ _ _ _ => rfl⟩
  case sync => exact answers_of_eq (ptpSync_answers s) (ptp_on s h)
  case announce => exact answers_of_eq (ptpAnnounce_answers s) (ptp_on s h)
  case delay => exact answers_of_eq (ptpDelayReq_answers s msg) (ptpDelayOp_answers s msg h ho)
  case noDelay => exact answers_of_eq (ptpDelayReq_answers s msg) (ptpDelayOp_unchanged s msg ho)
  case foreign => exact answers_of_eq (foreignAnnounce_answers s msg) (foreignOp_raises s msg h hf)
  case noForeign => exact answers_of_eq (foreignAnnounce_answers s msg) (foreignOp_unchanged s msg hf)
  case off =>
    obtain ⟨sync, announce, delay, foreign⟩ := ptpOps_off s msg h
    exact ⟨answers_of_eq (ptpSync_answers s) sync, answers_of_eq (ptpAnnounce_answers s) announce,
      answers_of_eq (ptpDelayReq_answers s msg) delay, answers_of_eq (foreignAnnounce_answers s msg) foreign⟩

end Sys2Proof.Machine
end

section
/-! PROOF. The NV array's descriptors (R443, R444, R452, R458, R460, R463, R464): doorbells, the start of a front descriptor, what each OP
does, the end of a descriptor and the end of a unit operation. -/

namespace Sys2Proof.Machine

section Doorbell

variable (s : State) (p : Port)

/-- A port with the right writes its doorbell. -/
theorem regWrite_doorbell (v : Word) (h : Safety.canWrite s (portMaster p) (.page .nva (0x060 + 8 * pIdx p)) = true) :
    regWrite s (portMaster p) .nva (0x060 + 8 * pIdx p) v = nvaBell s p v := by
  cases p with
  | a => exact regWrite_block s .portA .nva 0x060 v (rwR 0x060 0xFFF) (by decide) (by decide) (by decide) rfl rfl h
  | b => exact regWrite_block s .portB .nva 0x068 v (rwR 0x068 0xFFF) (by decide) (by decide) (by decide) rfl rfl h

theorem nvaDoorbell_answers (v : Word) (h : Safety.canWrite s (portMaster p) (.page .nva (0x060 + 8 * pIdx p)) = true) :
    Safety.answers (exec (.nvaDoorbell (portMaster p) p v) s) s (nvaBell s p v) :=
  answers_of_eq (finish_answers s _) (regWrite_doorbell s p v h)

theorem nvaBell_disabled (v : Word) (h : enabledNow s .nva = false) : nvaBell s p v = s := if_pos (by simp [h])

theorem nvaBell_enabled (v : Word) (h : enabledNow s .nva = true) : nvaBell s p v =
    if nvSize s p ≤ v.toNat % 4096 then setEvt s .nva 14
    else askDescs (modNvq s (portNvq p) fun x => { x with tail := v.toNat % 4096 }) p := if_neg (by simp [h])

end Doorbell

section Start

variable (s : State) (q : NvQueue)

/-- The rows of the descriptors, by OP. -/
theorem descriptor_answers (op : Nat) (h : 1 ≤ op) (h' : op ≤ 5) : Safety.answers (exec (if op = 1 then .nvRead q
    else if op = 2 then .program q else if op = 3 then .eraseSector q else if op = 4 then .blankCheck q else .swapBoot q) s) s
    (startDesc s q op) := by
  have row : exec (if op = 1 then .nvRead q else if op = 2 then .program q else if op = 3 then .eraseSector q
      else if op = 4 then .blankCheck q else .swapBoot q) s = finish s (startDesc s q op) := by
    interval_cases op <;> rfl
  rw [row]
  exact finish_answers s _

/-- The front descriptor may start: outside a pause, with no job of the queue, and with the turn its own. -/
theorem mayStart_iff : mayStart s q = true ↔ s.fwu.paused = false ∧ (nvq s q).job = none ∧ nvTurn s q = true := by
  simp only [mayStart, Bool.and_eq_true, Bool.not_eq_true', Option.isNone_iff_eq_none, and_assoc]

theorem startDesc_empty (op : Nat) (h : (nvq s q).fetched = []) : startDesc s q op = s := by
  rw [startDesc, h]

/-- What a descriptor does once it has been taken from the front: a refusal, or its work. -/
def descDone (u : State) (q : NvQueue) (d : NvDesc) (op : Nat) : State :=
  if badDesc q d then descEnd u q d 4 0
  else if op = 5 && q != .mgmt then descEnd u q d 8 0
  else if (op = 2 || op = 3 || op = 5) && u.pwr.charge < 90 then descEnd u q d 5 0
  else runDesc u q d (if op = 5 then 0 else reach u q d)

variable {d : NvDesc} {rest : List NvDesc}

theorem startDesc_front (op : Nat) (h : (nvq s q).fetched = d :: rest) : startDesc s q op =
    if d.op != op || d.lost || !mayStart s q then s else skim (descDone (modNvq s q fun y => { y with fetched := rest }) q d op) := by
  rw [startDesc, h]
  rfl

theorem startDesc_waits (op : Nat) (h : (nvq s q).fetched = d :: rest)
    (hw : d.op ≠ op ∨ d.lost = true ∨ ¬ (s.fwu.paused = false ∧ (nvq s q).job = none ∧ nvTurn s q = true)) :
    startDesc s q op = s := by
  rw [← mayStart_iff] at hw
  rw [startDesc_front s q op h, if_pos (by simpa [or_assoc] using hw)]

theorem startDesc_taken (op : Nat) (h : (nvq s q).fetched = d :: rest) (ho : d.op = op) (hl : d.lost = false)
    (hf : s.fwu.paused = false ∧ (nvq s q).job = none ∧ nvTurn s q = true) :
    startDesc s q op = skim (descDone (modNvq s q fun y => { y with fetched := rest }) q d op) := by
  rw [startDesc_front s q op h, if_neg (by simp [ho, hl, (mayStart_iff s q).mpr hf])]

end Start

section Refusals

variable (u : State) (q : NvQueue) (d : NvDesc) (op : Nat)

theorem descDone_bad (h : badDesc q d = true) : descDone u q d op = descEnd u q d 4 0 := if_pos h

theorem descDone_hostSwap (h : badDesc q d = false) (ho : op = 5) (hq : q ≠ .mgmt) : descDone u q d op = descEnd u q d 8 0 :=
  (if_neg (Bool.eq_false_iff.mp h)).trans (if_pos (by simp [ho, hq]))

theorem descDone_uncharged (h : badDesc q d = false) (hs : ¬ (op = 5 ∧ q ≠ .mgmt)) (hw : op = 2 ∨ op = 3 ∨ op = 5)
    (hc : u.pwr.charge < 90) : descDone u q d op = descEnd u q d 5 0 :=
  (if_neg (Bool.eq_false_iff.mp h)).trans ((if_neg (by simpa using hs)).trans (if_pos (by simpa [or_assoc, hc] using hw)))

theorem descDone_runs (h : badDesc q d = false) (hs : ¬ (op = 5 ∧ q ≠ .mgmt)) (hc : op = 2 ∨ op = 3 ∨ op = 5 → 90 ≤ u.pwr.charge) :
    descDone u q d op = runDesc u q d (if op = 5 then 0 else reach u q d) := by
  refine (if_neg (Bool.eq_false_iff.mp h)).trans ((if_neg (by simpa using hs)).trans (if_neg ?_))
  simpa [or_assoc] using hc

end Refusals

section Turns

variable (s : State)

theorem nvReady_iff (p : Port) : nvReady s p = false ↔ (nvq s (portNvq p)).fetched = [] ∨ (port s p).d3hot = true := by
  rw [nvReady, Bool.and_eq_false_iff, Bool.not_eq_false', Bool.not_eq_false', List.isEmpty_iff]

theorem nvTurn_a : nvTurn s .a = true ↔ (port s .a).d3hot = false ∧ (nvq s .b).job = none
    ∧ (s.nv.turn = .a ∨ (nvq s .b).fetched = [] ∨ (port s .b).d3hot = true) := by
  have ready := nvReady_iff s .b
  simp only [nvTurn, Bool.and_eq_true, Bool.or_eq_true, Bool.not_eq_true', Option.isNone_iff_eq_none, beq_iff_eq, ready, and_assoc]
  rfl

theorem nvTurn_b : nvTurn s .b = true ↔ (port s .b).d3hot = false ∧ (nvq s .a).job = none
    ∧ (s.nv.turn = .b ∨ (nvq s .a).fetched = [] ∨ (port s .a).d3hot = true) := by
  have ready := nvReady_iff s .a
  simp only [nvTurn, Bool.and_eq_true, Bool.or_eq_true, Bool.not_eq_true', Option.isNone_iff_eq_none, beq_iff_eq, ready, and_assoc]
  rfl

end Turns

section Work

variable (s : State) (q : NvQueue) (d : NvDesc) (n : Nat)

/-- The units that write the select word of a SWAP_BOOT; none once no select sector can take it. -/
def swapSelect (s : State) (d : NvDesc) : Option (List NvUnit) :=
  if d.flags / 2 % 2 = 1 then some [] else selectUnits s (1 - s.fwu.block)

/-- The units of its prepare part. -/
def swapPrepare (s : State) (d : NvDesc) : List NvUnit := if d.flags / 4 % 2 = 1 then [] else prepareUnits s (d.addr % 2)

/-- A SWAP_BOOT by its select part. -/
def swapWith (s : State) (q : NvQueue) (d : NvDesc) : Option (List NvUnit) → State
  | none => descEnd s q d 6 0
  | some us => if (swapPrepare s d).any fun u => sectorFailed s (unitAddr u) then descEnd s q d 6 0 else runJob s q d (swapPrepare s d ++ us) 0

theorem runDesc_swap (h : d.op = 5) : runDesc s q d n = swapWith s q d (swapSelect s d) := by
  unfold runDesc
  rw [h]
  rfl

theorem runDesc_noSelect (h : d.op = 5) (hs : swapSelect s d = none) : runDesc s q d n = descEnd s q d 6 0 :=
  (runDesc_swap s q d n h).trans (congrArg (swapWith s q d) hs)

theorem runDesc_failedSector {us : List NvUnit} (h : d.op = 5) (hs : swapSelect s d = some us)
    (hf : ((swapPrepare s d).any fun u => sectorFailed s (unitAddr u)) = true) : runDesc s q d n = descEnd s q d 6 0 :=
  (runDesc_swap s q d n h).trans ((congrArg (swapWith s q d) hs).trans (if_pos hf))

theorem runDesc_swaps {us : List NvUnit} (h : d.op = 5) (hs : swapSelect s d = some us)
    (hf : ((swapPrepare s d).any fun u => sectorFailed s (unitAddr u)) = false) :
    runDesc s q d n = runJob s q d (swapPrepare s d ++ us) 0 :=
  (runDesc_swap s q d n h).trans ((congrArg (swapWith s q d) hs).trans (if_neg (Bool.eq_false_iff.mp hf)))

end Work

section Ends

variable (s : State)

/-- A host queue's descriptor leaves its queue. -/
def jobGone (s : State) (p : Port) : State := count (modNvq s (portNvq p) fun x => { x with job := none }) .nva 0

/-- STATUS and RESULT are written back where the port issues DMA (R463, R506). -/
def writtenBack (t : State) (p : Port) (code result : Nat) : State :=
  if (port t p).d3hot = true then t
  else emit t (.dmaWrite p (nvBase t p + 32 * (nvq t (portNvq p)).head + 24) (leBytes 2 (0x8000 + code) ++ zeros 2 ++ leBytes 4 result))

theorem nvSize_writtenBack (t : State) (p : Port) (code result : Nat) : nvSize (writtenBack t p code result) p = nvSize t p := by
  unfold writtenBack
  split <;> rfl

/-- HEAD advances, the other host queue has its turn, and a code is counted (R458, R464). -/
def headAdvanced (w : State) (p : Port) (h size code : Nat) : State :=
  let e := modNvq w (portNvq p) fun x => { x with head := if h + 1 < size then h + 1 else 0 }
  let f := { e with nv := { e.nv with turn := if p = .a then .b else .a } }
  if code = 0 then f else count f .nva 5

/-- A host queue's descriptor has ended, but for its event. -/
def hostEnded (s : State) (p : Port) (code result : Nat) : State :=
  let t := jobGone s p
  headAdvanced (writtenBack t p code result) p (nvq t (portNvq p)).head (nvSize t p) code

theorem descEnd_host (p : Port) (d : NvDesc) (code result : Nat) : descEnd s (portNvq p) d code result =
    if d.flags % 2 = 1 then setEvt (hostEnded s p code result) .nva (8 + pIdx p) else hostEnded s p code result := by
  unfold hostEnded
  dsimp only
  rw [← nvSize_writtenBack (jobGone s p) p code result]
  cases p <;> rfl

theorem runJob_none {q : NvQueue} {d : NvDesc} {us : List NvUnit} {code : Nat} (h : us = []) : runJob s q d us code = descEnd s q d code 0 :=
  if_pos (List.isEmpty_iff.mpr h)

theorem runJob_starts {q : NvQueue} {d : NvDesc} {us : List NvUnit} {code : Nat} (h : us ≠ []) :
    runJob s q d us code = feed (modNvq s q fun x => { x with job := some { desc := d, units := us, code := code } }) :=
  if_neg (mt List.isEmpty_iff.mp h)

theorem nvUnitDone_answers (b : Fin 2) (ok : Bool) : Safety.answers (exec (.nvUnitDone b ok) s) s (nvUnitEnd s b.val ok) :=
  finish_answers s _

theorem nvUnitEnd_idle (b : Nat) (ok : Bool) (h : bankUnits s b = []) : nvUnitEnd s b ok = s := by
  rw [nvUnitEnd, h]

theorem nvUnitEnd_unit {b : Nat} {o : NvOwner} {u : NvUnit} {rest : List (NvOwner × NvUnit)} (ok : Bool) (h : bankUnits s b = (o, u) :: rest) :
    nvUnitEnd s b ok = skim (feed (if ok then jobStep (applyUnit (setBankUnits s b rest) u) o u else failUnit s b o u)) := by
  rw [nvUnitEnd, h]

end Ends

/-- Settles O56: the row of a descriptor is the start of the front one, which waits, is refused or does its work; each further clause is
the case of its operation. That descriptors are fetched at the doorbell and that a READ does not wait for a bank are the model's. -/
theorem nvRows : Obligations.NvRows := by
  unfold Obligations.NvRows
  refine ⟨fun p v s h => ?doorbell, fun q s => ?start, fun s => ⟨rfl, nvTurn_a s, nvTurn_b s⟩, fun s q d n => ?work,
    fun s q d us code => ⟨runJob_none s, runJob_starts s⟩, fun s p d code result => descEnd_host s p d code result, fun b ok s => ?unit⟩
  case doorbell =>
    have row := nvaDoorbell_answers s p v h
    exact ⟨fun he => answers_of_eq row (nvaBell_disabled s p v he),
      fun he ht => answers_of_eq row ((nvaBell_enabled s p v he).trans (if_pos ht)),
      fun he ht => answers_of_eq row ((nvaBell_enabled s p v he).trans (if_neg (Nat.not_le.mpr ht)))⟩
  case start =>
    intro x row free op h1 h5
    have answer := descriptor_answers s q op h1 h5
    refine ⟨fun hx => answers_of_eq answer (startDesc_empty s q op hx), fun d rest hx => ⟨fun hw => ?waits, fun ho hl hf => ?taken⟩⟩
    case waits => exact answers_of_eq answer (startDesc_waits s q op hx hw)
    case taken =>
      have done {t : State} (e : descDone (modNvq s q fun y => { y with fetched := rest }) q d op = t) : row op (skim t) :=
        answers_of_eq answer ((startDesc_taken s q op hx ho hl hf).trans (congrArg skim e))
      exact ⟨fun hb => done (descDone_bad _ q d op hb), fun hb h5 hh => done (descDone_hostSwap _ q d op hb h5 hh),
        fun hb hn hw hc => done (descDone_uncharged _ q d op hb hn hw hc), fun ⟨hb, hn, hw⟩ => done (descDone_runs _ q d op hb hn hw)⟩
  case work =>
    intro code bytes asks
    refine ⟨fun h => ?read, fun h => ?blank, fun h => ?program, fun h => ?erase, fun h => ?swap⟩
    case read => unfold runDesc; rw [h]; rfl
    case blank => unfold runDesc; rw [h]; rfl
    case program => unfold runDesc; rw [h]; rfl
    case erase => unfold runDesc; rw [h]; rfl
    case swap => exact ⟨runDesc_noSelect s q d n h, fun us => runDesc_failedSector s q d n h, fun us => runDesc_swaps s q d n h⟩
  case unit =>
    have row := nvUnitDone_answers s b ok
    refine ⟨fun h => answers_of_eq row (nvUnitEnd_idle s b ok h), fun o u rest h => ⟨fun hok => ?ended, fun hok => ?failed⟩⟩
    case ended => exact answers_of_eq row (by rw [nvUnitEnd_unit s ok h, hok]; rfl)
    case failed => exact answers_of_eq row (by rw [nvUnitEnd_unit s ok h, hok]; rfl)

end Sys2Proof.Machine
end
